-- ==== Sys2Proof/Word.lean ====
section
/-! DEFINITION. The word types of the AK2048 and the small plain types that an event carries beside it. -/

namespace Sys2Proof

/-- A 64-bit register or memory doubleword (R66). -/
abbrev Word := BitVec 64

/-- An instruction word (R50). -/
abbrev W32 := BitVec 32

/-- One byte of memory. -/
abbrev Byte := BitVec 8

/-- A general register number, `g0` to `g127` (R52). -/
abbrev Reg := BitVec 7

/-- A sequencer register number, `k0` to `k15` (R52). -/
abbrev KReg := BitVec 4

/-- A finite map keyed by numbers, kept in ascending key order without repeats. -/
abbrev AMap (α : Type) := List (Nat × α)

/-- Where an uncorrectable error lies (R313). -/
inductive ErrSite where
  /-- a general register of a context -/
  | reg (core slot : Nat) (r : Reg)
  /-- the 4-byte scratchpad granule that holds a local address -/
  | granule (core addr : Nat)
  /-- the 64-byte line at a physical address, in a slice or in HBM -/
  | line (pa : Nat)
  /-- the other logic of a core -/
  | logic (core : Nat)
  deriving DecidableEq, Repr

/-- A piece of architectural state that the debug window reads or writes (R367). -/
inductive DbgSite where
  /-- a general register of a context -/
  | reg (core slot : Nat) (r : Reg)
  /-- the program counter of a context -/
  | pc (core slot : Nat)
  /-- a control register of a context, by its number (R75) -/
  | csr (core slot : Nat) (n : BitVec 11)
  /-- one scratchpad byte of a core -/
  | scratch (core addr : Nat)
  /-- a cell of an accumulator bank: row and column in 0..31 -/
  | cell (core bank row col : Nat)
  /-- a byte of an operand-latch row -/
  | latch (core row byte : Nat)
  /-- a sequencer register of a segment -/
  | kreg (seg : Nat) (k : KReg)
  /-- one byte of package memory, by physical address -/
  | mem (pa : Nat)
  /-- a register word of the register space (R337), as software writes it -/
  | register (off : Nat)
  /-- a word of a link or Trailhead page, its read-only fields too (R358, R363) -/
  | link (off : Nat)
  /-- the full bit of a register (R13) -/
  | full (core slot : Nat) (r : Reg)
  /-- `smap`, `grp` and the batch record of a context (R78, R190, R243) -/
  | smap (core slot : Nat)
  | grp (core slot : Nat)
  | batch (core slot : Nat)
  /-- a word of an entry of a core's matrix queue (R317), vector queue, arrival queue or store buffer, and of a copy channel -/
  | mqueue (core entry w : Nat)
  | vqueue (core entry w : Nat)
  | arrival (core entry w : Nat)
  | stores (core entry w : Nat)
  | channel (core ch w : Nat)
  /-- a word of an accepted launch of a tenant slot (R284) -/
  | launch (slot entry w : Nat)
  /-- a word of a segment's sequencer, as its area holds it (R318) -/
  | sequencer (seg w : Nat)
  /-- the quarantined columns of a row, by bit, and from bit 32 those that wait for the remap (R314, R315) -/
  | quarantine (row : Nat)
  deriving DecidableEq, Repr

/-- What a request that arrives from a peer asks for (R354). -/
inductive PeerOp where
  /-- a read of 1, 2, 4 or 8 bytes -/
  | read
  /-- a write of 1, 2, 4 or 8 bytes -/
  | write (v : Word)
  /-- an atomic of function code `f` (0 to 7 of set A, 8 to 13 of set B, R58) -/
  | atomic (f : Nat) (b c : Word)
  deriving DecidableEq, Repr

/-- The operands of an operation or event that no word encodes: the party it concerns and what comes from outside the package.
Each event's docstring in `Machine/` says which of these it reads. -/
structure EvArg where
  /-- a core (R4), segment key, octet, port, device number, row, or the receiving slot of a transfer -/
  unit : Nat := 0
  /-- a barrel slot (R4) or a tenant slot (R338) -/
  slot : Nat := 0
  /-- a trail field, flow, counter, launch index, channel or transfer index -/
  idx : Nat := 0
  /-- the id of a request, walk, flight, invalidation or node; a slice -/
  id : Nat := 0
  /-- a number measured outside the model: a time, power, length or mean -/
  num : Nat := 0
  /-- a second such number -/
  num2 : Nat := 0
  /-- a value written or supplied -/
  v : Word := 0
  /-- a second one -/
  v2 : Word := 0
  /-- a yes or no: a write, a replay, a link up, a good FCS -/
  flag : Bool := false
  /-- signed step of the clock (R152) -/
  delta : Int := 0
  /-- numbered readings or charges -/
  pairs : List (Nat × Nat) := []
  /-- a second list -/
  pairs2 : List (Nat × Nat) := []
  /-- the bytes of a frame -/
  bytes : List Byte := []
  /-- the place of an error -/
  err : ErrSite := .logic 0
  /-- the place of a debug access -/
  dbg : DbgSite := .mem 0
  /-- what a peer asks for -/
  op : PeerOp := .read
  /-- the release and acquire attributes of a host access (R357) -/
  rel : Bool := false
  acq : Bool := false
  deriving DecidableEq, Repr

end Sys2Proof
end

