-- ==== Sys2Proof/Machine/Flags.lean ====
section
/-! DEFINITION. The IEEE formats, rounding, and every flag computation (R215 to R221). Values are exact: a sign, a natural number and
a power of two; the one rounding is `roundTo`. -/

namespace Sys2Proof.Machine

/-- The sticky flags (R220): NV, DZ, OF, UF, NX. -/
abbrev FFlags := BitVec 5
def flagNV : FFlags := 16
def flagDZ : FFlags := 8
def flagOF : FFlags := 4
def flagUF : FFlags := 2
def flagNX : FFlags := 1

/-- A flag raised or not. -/
def whenFlag (b : Bool) (f : FFlags) : FFlags := if b then f else 0

/-- The rounding modes (R217). -/
inductive Rounding where
  | rne | rz | rdn | rup
  deriving DecidableEq, Repr

def roundingOf (r : BitVec 2) : Rounding := if r = 0 then .rne else if r = 1 then .rz else if r = 2 then .rdn else .rup

/-- An IEEE format by the widths of its exponent and fraction (R215). -/
structure Fmt where
  ew : Nat
  fw : Nat
  deriving DecidableEq, Repr

def fp64 : Fmt := ⟨11, 52⟩
def fp32 : Fmt := ⟨8, 23⟩
def fp16 : Fmt := ⟨5, 10⟩
def bf16 : Fmt := ⟨8, 7⟩

def Fmt.bias (f : Fmt) : Int := 2 ^ (f.ew - 1) - 1
def Fmt.emin (f : Fmt) : Int := 1 - f.bias
def Fmt.emax (f : Fmt) : Int := f.bias
/-- The sign bit's weight. -/
def Fmt.signW (f : Fmt) : Nat := 2 ^ (f.ew + f.fw)
def Fmt.infCode (f : Fmt) : Nat := (2 ^ f.ew - 1) * 2 ^ f.fw
/-- The canonical NaN (R216). -/
def Fmt.nanCode (f : Fmt) : Nat := f.infCode + 2 ^ (f.fw - 1)
def Fmt.maxCode (f : Fmt) : Nat := f.infCode - 1

/-- A decoded code (R216): `fin s m e` is (−1)^s · m · 2^e. -/
inductive FVal where
  | nan (signalling : Bool)
  | inf (s : Bool)
  | fin (s : Bool) (m : Nat) (e : Int)
  deriving DecidableEq, Repr

/-- The value of a code of a format; bits above it are ignored (R216, R229). -/
def unpack (f : Fmt) (code : Nat) : FVal :=
  let s := code / f.signW % 2 == 1
  let ex := code / 2 ^ f.fw % 2 ^ f.ew
  let fr := code % 2 ^ f.fw
  if ex = 2 ^ f.ew - 1 then
    if fr = 0 then .inf s else .nan (fr / 2 ^ (f.fw - 1) == 0)
  else if ex = 0 then .fin s fr (f.emin - f.fw)
  else .fin s (2 ^ f.fw + fr) ((ex : Int) - f.bias - f.fw)

def FVal.isNan : FVal → Bool
  | .nan _ => true
  | _ => false
def FVal.isSNan : FVal → Bool
  | .nan sn => sn
  | _ => false
def FVal.isInf : FVal → Bool
  | .inf _ => true
  | _ => false
def FVal.isZero : FVal → Bool
  | .fin _ m _ => m == 0
  | _ => false
def FVal.sign : FVal → Bool
  | .nan _ => false
  | .inf s => s
  | .fin s _ _ => s

def signCode (f : Fmt) (s : Bool) : Nat := if s then f.signW else 0

/-- `Round` of the nonzero value (−1)^s · m · 2^e (R218): the code and the flags. -/
def roundTo (f : Fmt) (mode : Rounding) (s : Bool) (m : Nat) (e : Int) : Nat × FFlags :=
  let top : Int := e + Nat.log2 m
  let ee := max top f.emin
  let q := ee - f.fw
  let sh := q - e
  let lo := if sh ≤ 0 then m <<< (-sh).toNat else m >>> sh.toNat
  let rem := if sh ≤ 0 then 0 else m - (lo <<< sh.toNat)
  let half := if sh ≤ 0 then 1 else 2 ^ (sh.toNat - 1)
  let up := match mode with
    | .rne => decide (half < rem) || (rem == half && lo % 2 == 1)
    | .rz => false
    | .rdn => s
    | .rup => !s
  let y := if rem = 0 then lo else if up then lo + 1 else lo
  let flags := whenFlag (rem != 0) flagNX ||| whenFlag (rem != 0 && decide (top < f.emin)) flagUF
  let (y, ee) := if y = 2 ^ (f.fw + 1) then (2 ^ f.fw, ee + 1) else (y, ee)
  if f.emax < ee then
    let toInf := mode = .rne || (mode = .rup && !s) || (mode = .rdn && s)
    (signCode f s + (if toInf then f.infCode else f.maxCode), flags ||| flagOF ||| flagNX)
  else if y < 2 ^ f.fw then (signCode f s + y, flags)
  else (signCode f s + (ee + f.bias).toNat * 2 ^ f.fw + (y - 2 ^ f.fw), flags)

/-- A zero of a sign. -/
def zeroCode (f : Fmt) (s : Bool) : Nat := signCode f s

/-- The sign of an exact zero sum (R219). -/
def zeroSumSign (mode : Rounding) (a b : Bool) : Bool := if a = b then a else mode = .rdn

/-- An exact value rounded, or a zero of the given sign. -/
def roundOrZero (f : Fmt) (mode : Rounding) (v : Int) (e : Int) (zs : Bool) : Nat × FFlags :=
  if v = 0 then (zeroCode f zs, 0) else roundTo f mode (decide (v < 0)) v.natAbs e

def signed (s : Bool) (m : Nat) : Int := if s then -(m : Int) else m

/-- Two scaled integers brought to one power of two. -/
def align (a : Int) (ea : Int) (b : Int) (eb : Int) : Int × Int × Int :=
  let e := min ea eb
  (a * 2 ^ (ea - e).toNat, b * 2 ^ (eb - e).toNat, e)

/-- The sum of two decoded values that are not NaNs (R219, R231). -/
def sumVal (f : Fmt) (mode : Rounding) (a b : FVal) : Nat × FFlags :=
  match a, b with
  | .inf s, .inf t => if s = t then (signCode f s + f.infCode, 0) else (f.nanCode, flagNV)
  | .inf s, _ => (signCode f s + f.infCode, 0)
  | _, .inf t => (signCode f t + f.infCode, 0)
  | .fin s m e, .fin t n k =>
    let (x, y, e) := align (signed s m) e (signed t n) k
    let zs := if m = 0 && n = 0 then zeroSumSign mode s t else mode = .rdn
    roundOrZero f mode (x + y) e zs
  | _, _ => (f.nanCode, 0)

/-- A value with its sign changed. -/
def FVal.neg : FVal → FVal
  | .inf s => .inf !s
  | .fin s m e => .fin (!s) m e
  | x => x

/-- The exact product; `none` where it is zero times infinity. -/
def prodVal (a b : FVal) : Option FVal :=
  match a, b with
  | .fin s m e, .fin t n k => some (.fin (s != t) (m * n) (e + k))
  | .inf s, .inf t => some (.inf (s != t))
  | .inf s, .fin t n _ => if n = 0 then none else some (.inf (s != t))
  | .fin s m _, .inf t => if m = 0 then none else some (.inf (s != t))
  | _, _ => some (.nan false)

/-- NV for a signalling operand. -/
def snanFlag (xs : List FVal) : FFlags := whenFlag (xs.any FVal.isSNan) flagNV

def fAdd (f : Fmt) (mode : Rounding) (a b : Nat) : Nat × FFlags :=
  let x := unpack f a
  let y := unpack f b
  if x.isNan || y.isNan then (f.nanCode, snanFlag [x, y]) else sumVal f mode x y

def fSub (f : Fmt) (mode : Rounding) (a b : Nat) : Nat × FFlags :=
  let x := unpack f a
  let y := unpack f b
  if x.isNan || y.isNan then (f.nanCode, snanFlag [x, y]) else sumVal f mode x y.neg

/-- A decoded value, not a NaN, as a code of the format. -/
def roundVal (f : Fmt) (mode : Rounding) (x : FVal) : Nat × FFlags :=
  match x with
  | .nan _ => (f.nanCode, 0)
  | .inf s => (signCode f s + f.infCode, 0)
  | .fin s m e => if m = 0 then (zeroCode f s, 0) else roundTo f mode s m e

def fMul (f : Fmt) (mode : Rounding) (a b : Nat) : Nat × FFlags :=
  let x := unpack f a
  let y := unpack f b
  if x.isNan || y.isNan then (f.nanCode, snanFlag [x, y])
  else match prodVal x y with
    | none => (f.nanCode, flagNV)
    | some p => roundVal f mode p

/-- `a`·`b` + `d`, or `d` − `a`·`b` where `neg` (R231). -/
def fFma (f : Fmt) (mode : Rounding) (neg : Bool) (a b d : Nat) : Nat × FFlags :=
  let x := unpack f a
  let y := unpack f b
  let z := unpack f d
  let sn := snanFlag [x, y, z]
  if (x.isZero && y.isInf) || (x.isInf && y.isZero) then (f.nanCode, flagNV)
  else if x.isNan || y.isNan || z.isNan then (f.nanCode, sn)
  else match prodVal x y with
    | none => (f.nanCode, flagNV)
    | some p => sumVal f mode (if neg then p.neg else p) z

/-- The quotient with two guard bits and a sticky one, as m · 2^e. -/
def quotient (m n : Nat) (bits : Nat) : Nat × Int :=
  let sh := bits + Nat.log2 n + 3
  let q := (m <<< sh) / n
  (2 * q + (if q * n = m <<< sh then 0 else 1), -(sh : Int) - 1)

def fDiv (f : Fmt) (mode : Rounding) (a b : Nat) : Nat × FFlags :=
  let x := unpack f a
  let y := unpack f b
  match x, y with
  | .nan _, _ | _, .nan _ => (f.nanCode, snanFlag [x, y])
  | .inf _, .inf _ => (f.nanCode, flagNV)
  | .inf s, .fin t _ _ => (signCode f (s != t) + f.infCode, 0)
  | .fin s _ _, .inf t => (zeroCode f (s != t), 0)
  | .fin s m e, .fin t n k =>
    if n = 0 then
      if m = 0 then (f.nanCode, flagNV) else (signCode f (s != t) + f.infCode, flagDZ)
    else if m = 0 then (zeroCode f (s != t), 0)
    else
      let (q, d) := quotient m n (f.fw + 2)
      roundTo f mode (s != t) q (d + e - k)

/-- The integer square root: bits tried from the top. -/
def isqrtFrom (n : Nat) : Nat → Nat → Nat
  | 0, r => r
  | k + 1, r => isqrtFrom n k (if (r + 2 ^ k) * (r + 2 ^ k) ≤ n then r + 2 ^ k else r)

def isqrt (n : Nat) : Nat := isqrtFrom n (Nat.log2 n / 2 + 1) 0

/-- The square root of m · 2^e with guard and sticky bits. -/
def rootOf (m : Nat) (e : Int) (bits : Nat) : Nat × Int :=
  let m' := if e % 2 = 0 then m else 2 * m
  let e' := if e % 2 = 0 then e else e - 1
  let sh := bits + 3
  let n := m' <<< (2 * sh)
  let r := isqrt n
  (2 * r + (if r * r = n then 0 else 1), e' / 2 - sh - 1)

def fSqrt (f : Fmt) (mode : Rounding) (a : Nat) : Nat × FFlags :=
  match unpack f a with
  | .nan sn => (f.nanCode, whenFlag sn flagNV)
  | .inf s => if s then (f.nanCode, flagNV) else (f.infCode, 0)
  | .fin s m e =>
    if m = 0 then (zeroCode f s, 0)
    else if s then (f.nanCode, flagNV)
    else
      let (r, d) := rootOf m e (f.fw + 2)
      roundTo f mode false r d

/-- The order of two decoded values that are not NaNs, −0 = +0: negative, zero or positive as `a` is below, at or above `b`. -/
def cmpVal (a b : FVal) : Int :=
  match a, b with
  | .inf s, .inf t => (if s then -1 else 1) - (if t then -1 else 1)
  | .inf s, _ => if s then -1 else 1
  | _, .inf t => if t then 1 else -1
  | .fin s m e, .fin t n k =>
    let (x, y, _) := align (signed s m) e (signed t n) k
    x - y
  | _, _ => 0

/-- `fmin` and `fmax` (R232): −0 counts below +0. -/
def fMinMax (f : Fmt) (wantMax : Bool) (a b : Nat) : Nat × FFlags :=
  let x := unpack f a
  let y := unpack f b
  let low := 2 ^ (f.ew + f.fw + 1)
  let c := if x.isZero && y.isZero then (if x.sign = y.sign then 0 else if x.sign then -1 else 1) else cmpVal x y
  let v := if x.isNan && y.isNan then f.nanCode
    else if x.isNan then b % low
    else if y.isNan then a % low
    else if (c ≤ 0) != wantMax then a % low else b % low
  (v, snanFlag [x, y])

/-- `feq`, `flt`, `fle` (R232), by the test on the order. -/
def fCompare (f : Fmt) (quietOk : Bool) (test : Int → Bool) (a b : Nat) : Nat × FFlags :=
  let x := unpack f a
  let y := unpack f b
  if x.isNan || y.isNan then (0, if quietOk then snanFlag [x, y] else flagNV)
  else (if test (cmpVal x y) then 1 else 0, 0)

/-- `fsgnj` and `fsgnjn` (R232): NaN codes are copied bit for bit. -/
def fSign (f : Fmt) (flip : Bool) (a b : Nat) : Nat :=
  let s := (b / f.signW % 2 == 1) != flip
  a % f.signW + signCode f s

/-- `fclass` (R232). -/
def fClass (f : Fmt) (a : Nat) : Nat :=
  match unpack f a with
  | .nan sn => if sn then 2 ^ 8 else 2 ^ 9
  | .inf s => if s then 2 ^ 0 else 2 ^ 7
  | .fin s m _ =>
    if m = 0 then (if s then 2 ^ 3 else 2 ^ 4)
    else if m < 2 ^ f.fw then (if s then 2 ^ 2 else 2 ^ 5)
    else if s then 2 ^ 1 else 2 ^ 6

/-- A conversion between IEEE formats (R221): a NaN keeps its sign and moves its payload, quiet. -/
def fConvert (f t : Fmt) (mode : Rounding) (a : Nat) : Nat × FFlags :=
  match unpack f a with
  | .nan sn =>
    let s := a / f.signW % 2 == 1
    let fr := a % 2 ^ f.fw
    let fr := if f.fw ≤ t.fw then fr * 2 ^ (t.fw - f.fw) else fr / 2 ^ (f.fw - t.fw)
    (signCode t s + t.infCode + (fr % 2 ^ (t.fw - 1) + 2 ^ (t.fw - 1)), whenFlag sn flagNV)
  | x => roundVal t mode x

/-- An integer to a float (R233). -/
def fFromInt (t : Fmt) (mode : Rounding) (i : Int) : Nat × FFlags := roundOrZero t mode i 0 false

/-- m · 2^e rounded to an integer of its sign. -/
def roundInt (mode : Rounding) (s : Bool) (m : Nat) (e : Int) : Int × Bool :=
  if 0 ≤ e then (signed s (m * 2 ^ e.toNat), true)
  else
    let sh := (-e).toNat
    let lo := m >>> sh
    let rem := m - (lo <<< sh)
    let half := 2 ^ (sh - 1)
    let up := match mode with
      | .rne => decide (half < rem) || (rem == half && lo % 2 == 1)
      | .rz => false
      | .rdn => s
      | .rup => !s
    (signed s (if rem = 0 then lo else if up then lo + 1 else lo), rem == 0)

/-- A float to an integer from `lo` to `hi` (R233). -/
def fToInt (f : Fmt) (mode : Rounding) (lo hi : Int) (a : Nat) : Int × FFlags :=
  match unpack f a with
  | .nan _ => (hi, flagNV)
  | .inf s => (if s then lo else hi, flagNV)
  | .fin s m e =>
    let (y, exact) := roundInt mode s m e
    if y < lo then (lo, flagNV) else if hi < y then (hi, flagNV) else (y, whenFlag (!exact) flagNX)

/-- The atomic `FAdd` (R113): round to nearest even, no flag. -/
def atomicFAdd (f : Fmt) (x y : Nat) : Nat := (fAdd f .rne x y).1

/-! ## The block formats (R222 to R225) -/

/-- BD8 or BD4 (R222). -/
structure BD where
  /-- bits of the magnitude -/
  mw : Nat
  bias : Int
  gap : Nat
  deriving DecidableEq, Repr

def bd8 : BD := ⟨6, 132, 6⟩
def bd4 : BD := ⟨2, 128, 2⟩
def BD.maxM (b : BD) : Nat := 2 ^ b.mw - 1

/-- A BD element as an exact value (R222). -/
def bdExact (b : BD) (code e0 e1 : Nat) : FVal :=
  let sel := code / 2 ^ (b.mw + 1) % 2 == 1
  .fin (code / 2 ^ b.mw % 2 == 1) (code % 2 ^ b.mw) (((if sel then e1 else e0) : Nat) - b.bias)

/-- `BDValue` (R224): the FP32 code and its flags. -/
def bdValue (b : BD) (code e0 e1 : Nat) : Nat × FFlags :=
  match bdExact b code e0 e1 with
  | .fin s m e => if m = 0 then (zeroCode fp32 s, 0) else roundTo fp32 .rne s m e
  | _ => (0, 0)

/-- |x| · 2^k rounded to the nearest integer, ties to even, and whether it was exact (R225). -/
def rneScaled (m : Nat) (e k : Int) : Nat × Bool :=
  let (v, ex) := roundInt .rne false m (e + k)
  (v.natAbs, ex)

/-- The smallest of the exponents `e`, `e + 1`, … under which the block's largest element fits; 254 if none (R225). -/
def bdSearch (b : BD) (m : Nat) (ex : Int) : Nat → Nat → Nat
  | 0, _ => 254
  | fuel + 1, e => if (rneScaled m ex (b.bias - e)).1 ≤ b.maxM then e else bdSearch b m ex fuel (e + 1)

/-- `BDScale` (R225): E0 and E1 of 32 FP32 codes. -/
def bdScale (b : BD) (xs : List Nat) : Nat × Nat :=
  let best := xs.foldl (fun acc c => match unpack fp32 c with
    | .fin _ m e => match acc with
      | none => some (m, e)
      | some (n, k) => if cmpVal (.fin false n k) (.fin false m e) < 0 then some (m, e) else acc
    | _ => acc) (none : Option (Nat × Int))
  let e1 := match best with
    | none => 0
    | some (m, e) => if m = 0 then 0 else bdSearch b m e 255 0
  (e1 - b.gap, e1)

/-- `BDCode` (R225). -/
def bdCode (b : BD) (x e0 e1 : Nat) : Nat × FFlags :=
  let s := if x / fp32.signW % 2 = 1 then 2 ^ b.mw else 0
  let sel := 2 ^ (b.mw + 1)
  match unpack fp32 x with
  | .nan _ => (sel + s + b.maxM, flagNV)
  | .inf _ => (sel + s + b.maxM, flagOF ||| flagNX)
  | .fin _ m e =>
    let (m0, ex0) := rneScaled m e (b.bias - e0)
    if m0 ≤ b.maxM then (s + m0, whenFlag (!ex0) flagNX)
    else
      let (m1, ex1) := rneScaled m e (b.bias - e1)
      if b.maxM < m1 then (sel + s + b.maxM, flagOF ||| flagNX) else (sel + s + m1, whenFlag (!ex1) flagNX)

/-! ## The matrix engine's sum (R253) -/

/-- A term cut to a multiple of 2^`q`, toward zero. -/
def truncTerm (q : Int) (x : FVal) : Int :=
  match x with
  | .fin s m e => signed s (if q ≤ e then m <<< (e - q).toNat else m >>> (q - e).toNat)
  | _ => 0

/-- `Group`: the cell and eight exact products, `none` for zero times infinity (R253). -/
def groupSum (c : Nat) (ps : List (Option FVal)) : Nat :=
  let x := unpack fp32 c
  if x.isNan || ps.any (fun p => match p with | none => true | some v => v.isNan) then fp32.nanCode
  else
    let ts := x :: ps.filterMap id
    let pos := ts.any fun t => t.isInf && !t.sign
    let neg := ts.any fun t => t.isInf && t.sign
    if pos && neg then fp32.nanCode
    else if pos then fp32.infCode
    else if neg then fp32.signW + fp32.infCode
    else
      let tops := ts.filterMap fun t => match t with
        | .fin _ m e => if m = 0 then none else some (e + (Nat.log2 m : Int))
        | _ => none
      match tops with
      | [] => if ts.all FVal.sign then fp32.signW else 0
      | t :: rest =>
        let q := rest.foldl max t - 48
        let sum := (ts.map (truncTerm q)).foldl (· + ·) 0
        (roundOrZero fp32 .rne sum q false).1

end Sys2Proof.Machine
end

