-- ==== Sys2Proof/Config.lean ====
section
/-! DEFINITION. What an implementation of the AK2048 fixes and the manual does not, and the free values. A constant here has no
body: no proof can see a value of it, so a claim that mentions one holds whatever it is. -/

namespace Sys2Proof.Config

/-- The `n`-th value that the manual leaves open (log entry 3): the stale word a fetch may see (R100), the line an L1 fill replaces
(R16), the way a slice evicts (R342), a peer's answer that no message has brought (R354). -/
opaque freeWord : Nat → Word

/-- The byte at a physical address of a line that was written under one key generation and is read under another: the two
generations, the address, and the line's bytes (R346; log entry 3). -/
opaque wrongKey : Nat → Nat → Nat → List Byte → Byte

/-- The set of its slice that a line number goes to, modulo the slice's 2,048 sets (R2, R342; log entry 54). -/
opaque sliceSet : Nat → Nat

/-- Whether an image carries a valid XMSSMT-SHAKE256_20/2_256 signature against the fused key (R350). -/
opaque imageSigned : List Byte → Bool

/-- The security version that an image declares (R350; the image's layout is not given). -/
opaque imageSvn : List Byte → Word

/-- The security version fused as the minimum (R350). -/
opaque fusedSvn : Word

/-- The 16 bytes of the device serial (R351). -/
opaque serial : BitVec 128

/-- A byte of the identity signature of a message under a one-time index: the index, the message, and which of the 9,893 bytes
(R351). -/
opaque identitySignature : Nat → List Byte → Nat → Byte

end Sys2Proof.Config
end

