-- ==== Sys2Proof/Syntax.lean ====
section
/-! DEFINITION. The instructions: one constructor for each row of spec/opcode_table.json (FENCE has one for each of its four
scopes). An encoded word carries its fields under the letters of the table (`w` the W bit, `d` `a` `b` the register fields, `i` an
immediate or offset, `z` a width code, `r` a rounding code, `p` the precision, `k` a bank, `n` a depth or count, `c` a channel,
CSR number or CI). An operation or event of the part that no word encodes carries nothing here: the party it concerns and what
comes from outside the package stand in an `EvArg` beside it. -/

namespace Sys2Proof

/-- The words and the other steps of the AK2048 (R58; spec/opcode_table.json). -/
inductive Instr where
  /-- `add` (R83): Adds two general registers modulo 2^64. -/
  | add (w : Bool) (d : Reg) (a : Reg) (b : Reg)
  /-- `sub` (R83): Subtracts gB from gA modulo 2^64. -/
  | sub (w : Bool) (d : Reg) (a : Reg) (b : Reg)
  /-- `and` (R83): Bitwise AND of two registers. -/
  | and (w : Bool) (d : Reg) (a : Reg) (b : Reg)
  /-- `or` (R83): Bitwise OR of two registers. -/
  | or (w : Bool) (d : Reg) (a : Reg) (b : Reg)
  /-- `xor` (R83): Bitwise XOR of two registers. -/
  | xor (w : Bool) (d : Reg) (a : Reg) (b : Reg)
  /-- `sll` (R83): Shifts gA left by gB[5:0]. -/
  | sll (w : Bool) (d : Reg) (a : Reg) (b : Reg)
  /-- `srl` (R83): Shifts gA right logically by gB[5:0]. -/
  | srl (w : Bool) (d : Reg) (a : Reg) (b : Reg)
  /-- `sra` (R83): Shifts gA right arithmetically by gB[5:0]. -/
  | sra (w : Bool) (d : Reg) (a : Reg) (b : Reg)
  /-- `slt` (R83): Sets 1 if gA is less than gB as signed. -/
  | slt (w : Bool) (d : Reg) (a : Reg) (b : Reg)
  /-- `sltu` (R83): Sets 1 if gA is less than gB as unsigned. -/
  | sltu (w : Bool) (d : Reg) (a : Reg) (b : Reg)
  /-- `min` (R83): Signed minimum of two registers. -/
  | min (w : Bool) (d : Reg) (a : Reg) (b : Reg)
  /-- `max` (R83): Signed maximum of two registers. -/
  | max (w : Bool) (d : Reg) (a : Reg) (b : Reg)
  /-- `minu` (R83): Unsigned minimum of two registers. -/
  | minu (w : Bool) (d : Reg) (a : Reg) (b : Reg)
  /-- `maxu` (R83): Unsigned maximum of two registers. -/
  | maxu (w : Bool) (d : Reg) (a : Reg) (b : Reg)
  /-- `mul` (R83): Low 64 bits of the product, written after 4 cycles. -/
  | mul (w : Bool) (d : Reg) (a : Reg) (b : Reg)
  /-- `mulh` (R83): High 64 bits of the signed product. -/
  | mulh (w : Bool) (d : Reg) (a : Reg) (b : Reg)
  /-- `mulhu` (R83): High 64 bits of the unsigned product. -/
  | mulhu (w : Bool) (d : Reg) (a : Reg) (b : Reg)
  /-- `mulhsu` (R83): High 64 bits of signed-by-unsigned product. -/
  | mulhsu (w : Bool) (d : Reg) (a : Reg) (b : Reg)
  /-- `div` (R84): Signed division truncating toward zero, all ones on zero divisor. -/
  | div (w : Bool) (d : Reg) (a : Reg) (b : Reg)
  /-- `divu` (R84): Unsigned division. -/
  | divu (w : Bool) (d : Reg) (a : Reg) (b : Reg)
  /-- `rem` (R84): Signed remainder with the sign of the dividend. -/
  | rem (w : Bool) (d : Reg) (a : Reg) (b : Reg)
  /-- `remu` (R84): Unsigned remainder. -/
  | remu (w : Bool) (d : Reg) (a : Reg) (b : Reg)
  /-- `home` (R85): Returns the id of the slice that homes an address on the caller's die. -/
  | home (w : Bool) (d : Reg) (a : Reg)
  /-- `clz` (R83): Counts leading zero bits. -/
  | clz (w : Bool) (d : Reg) (a : Reg)
  /-- `ctz` (R83): Counts trailing zero bits. -/
  | ctz (w : Bool) (d : Reg) (a : Reg)
  /-- `popc` (R83): Counts one bits. -/
  | popc (w : Bool) (d : Reg) (a : Reg)
  /-- `addi` (R86): Adds a sign-extended immediate. -/
  | addi (i : BitVec 11) (d : Reg) (a : Reg)
  /-- `andi` (R86): ANDs with a sign-extended immediate. -/
  | andi (i : BitVec 11) (d : Reg) (a : Reg)
  /-- `ori` (R86): ORs with a sign-extended immediate. -/
  | ori (i : BitVec 11) (d : Reg) (a : Reg)
  /-- `xori` (R86): XORs with a sign-extended immediate. -/
  | xori (i : BitVec 11) (d : Reg) (a : Reg)
  /-- `slli` (R86): Shifts left by an immediate count. -/
  | slli (s : BitVec 6) (d : Reg) (a : Reg)
  /-- `srli` (R86): Shifts right logically by an immediate count. -/
  | srli (s : BitVec 6) (d : Reg) (a : Reg)
  /-- `srai` (R86): Shifts right arithmetically by an immediate count. -/
  | srai (s : BitVec 6) (d : Reg) (a : Reg)
  /-- `slti` (R86): Signed compare with an immediate. -/
  | slti (i : BitVec 11) (d : Reg) (a : Reg)
  /-- `sltiu` (R86): Unsigned compare with a sign-extended immediate. -/
  | sltiu (i : BitVec 11) (d : Reg) (a : Reg)
  /-- `lui` (R87): Loads imm18 shifted left 14, sign-extended from bit 31. -/
  | lui (i : BitVec 18) (d : Reg)
  /-- `adpc` (R87): Adds the shifted immediate to the address of the word. -/
  | adpc (i : BitVec 18) (d : Reg)
  /-- `ld` (R91): Plain global load of cache class .ca, from buffer, L1 or home. -/
  | ld (i : BitVec 8) (z : BitVec 3) (d : Reg) (a : Reg)
  /-- `ld.by` (R91): Plain global load that bypasses the L1. -/
  | ldBy (i : BitVec 8) (z : BitVec 3) (d : Reg) (a : Reg)
  /-- `st` (R95): Plain global store entering the shared store buffer. -/
  | st (i : BitVec 8) (z : BitVec 2) (a : Reg) (b : Reg)
  /-- `lds` (R97): Loads from the core's own scratchpad at issue. -/
  | lds (i : BitVec 8) (z : BitVec 3) (d : Reg) (a : Reg)
  /-- `sts` (R97): Stores to the core's own scratchpad at issue. -/
  | sts (i : BitVec 8) (z : BitVec 2) (a : Reg) (b : Reg)
  /-- `beq` (R101): Branches if equal. -/
  | beq (i : BitVec 11) (a : Reg) (b : Reg)
  /-- `bne` (R101): Branches if not equal. -/
  | bne (i : BitVec 11) (a : Reg) (b : Reg)
  /-- `blt` (R101): Branches if less, signed. -/
  | blt (i : BitVec 11) (a : Reg) (b : Reg)
  /-- `bge` (R101): Branches if greater or equal, signed. -/
  | bge (i : BitVec 11) (a : Reg) (b : Reg)
  /-- `bltu` (R101): Branches if less, unsigned. -/
  | bltu (i : BitVec 11) (a : Reg) (b : Reg)
  /-- `bgeu` (R101): Branches if greater or equal, unsigned. -/
  | bgeu (i : BitVec 11) (a : Reg) (b : Reg)
  /-- `jal` (R102): PC-relative jump writing the link register. -/
  | jal (i : BitVec 18) (d : Reg)
  /-- `jalr` (R102): Register-indirect jump writing the link register. -/
  | jalr (i : BitVec 11) (d : Reg) (a : Reg)
  /-- `ld.acq` (R108): Acquire load at a chosen scope, never from the L1. -/
  | ldAcq (s : BitVec 2) (i : BitVec 8) (z : Bool) (d : Reg) (a : Reg)
  /-- `st.rel` (R108): Release store at a chosen scope. -/
  | stRel (s : BitVec 2) (i : BitVec 8) (z : Bool) (a : Reg) (b : Reg)
  /-- `amo.add` (R112): Atomic fetch-and-add, plain order. -/
  | amoAdd (w : Bool) (d : Reg) (a : Reg) (b : Reg)
  /-- `amo.and` (R112): Atomic fetch-and-and, plain order. -/
  | amoAnd (w : Bool) (d : Reg) (a : Reg) (b : Reg)
  /-- `amo.or` (R112): Atomic fetch-and-or, plain order. -/
  | amoOr (w : Bool) (d : Reg) (a : Reg) (b : Reg)
  /-- `amo.xor` (R112): Atomic fetch-and-xor, plain order. -/
  | amoXor (w : Bool) (d : Reg) (a : Reg) (b : Reg)
  /-- `amo.swap` (R112): Atomic swap, plain order. -/
  | amoSwap (w : Bool) (d : Reg) (a : Reg) (b : Reg)
  /-- `amo.min` (R112): Atomic signed minimum, plain order. -/
  | amoMin (w : Bool) (d : Reg) (a : Reg) (b : Reg)
  /-- `amo.max` (R112): Atomic signed maximum, plain order. -/
  | amoMax (w : Bool) (d : Reg) (a : Reg) (b : Reg)
  /-- `amo.cas` (R112): Atomic compare-and-swap, plain order. -/
  | amoCas (w : Bool) (d : Reg) (a : Reg) (b : Reg)
  /-- `amo.add.acq` (R112): Atomic fetch-and-add with acquire. -/
  | amoAddAcq (w : Bool) (d : Reg) (a : Reg) (b : Reg)
  /-- `amo.and.acq` (R112): Atomic fetch-and-and with acquire. -/
  | amoAndAcq (w : Bool) (d : Reg) (a : Reg) (b : Reg)
  /-- `amo.or.acq` (R112): Atomic fetch-and-or with acquire. -/
  | amoOrAcq (w : Bool) (d : Reg) (a : Reg) (b : Reg)
  /-- `amo.xor.acq` (R112): Atomic fetch-and-xor with acquire. -/
  | amoXorAcq (w : Bool) (d : Reg) (a : Reg) (b : Reg)
  /-- `amo.swap.acq` (R112): Atomic swap with acquire. -/
  | amoSwapAcq (w : Bool) (d : Reg) (a : Reg) (b : Reg)
  /-- `amo.min.acq` (R112): Atomic signed minimum with acquire. -/
  | amoMinAcq (w : Bool) (d : Reg) (a : Reg) (b : Reg)
  /-- `amo.max.acq` (R112): Atomic signed maximum with acquire. -/
  | amoMaxAcq (w : Bool) (d : Reg) (a : Reg) (b : Reg)
  /-- `amo.cas.acq` (R112): Atomic compare-and-swap with acquire. -/
  | amoCasAcq (w : Bool) (d : Reg) (a : Reg) (b : Reg)
  /-- `amo.add.rel` (R112): Atomic fetch-and-add with release. -/
  | amoAddRel (w : Bool) (d : Reg) (a : Reg) (b : Reg)
  /-- `amo.and.rel` (R112): Atomic fetch-and-and with release. -/
  | amoAndRel (w : Bool) (d : Reg) (a : Reg) (b : Reg)
  /-- `amo.or.rel` (R112): Atomic fetch-and-or with release. -/
  | amoOrRel (w : Bool) (d : Reg) (a : Reg) (b : Reg)
  /-- `amo.xor.rel` (R112): Atomic fetch-and-xor with release. -/
  | amoXorRel (w : Bool) (d : Reg) (a : Reg) (b : Reg)
  /-- `amo.swap.rel` (R112): Atomic swap with release. -/
  | amoSwapRel (w : Bool) (d : Reg) (a : Reg) (b : Reg)
  /-- `amo.min.rel` (R112): Atomic signed minimum with release. -/
  | amoMinRel (w : Bool) (d : Reg) (a : Reg) (b : Reg)
  /-- `amo.max.rel` (R112): Atomic signed maximum with release. -/
  | amoMaxRel (w : Bool) (d : Reg) (a : Reg) (b : Reg)
  /-- `amo.cas.rel` (R112): Atomic compare-and-swap with release. -/
  | amoCasRel (w : Bool) (d : Reg) (a : Reg) (b : Reg)
  /-- `amo.add.ar` (R112): Atomic fetch-and-add with acquire and release. -/
  | amoAddAr (w : Bool) (d : Reg) (a : Reg) (b : Reg)
  /-- `amo.and.ar` (R112): Atomic fetch-and-and with acquire and release. -/
  | amoAndAr (w : Bool) (d : Reg) (a : Reg) (b : Reg)
  /-- `amo.or.ar` (R112): Atomic fetch-and-or with acquire and release. -/
  | amoOrAr (w : Bool) (d : Reg) (a : Reg) (b : Reg)
  /-- `amo.xor.ar` (R112): Atomic fetch-and-xor with acquire and release. -/
  | amoXorAr (w : Bool) (d : Reg) (a : Reg) (b : Reg)
  /-- `amo.swap.ar` (R112): Atomic swap with acquire and release. -/
  | amoSwapAr (w : Bool) (d : Reg) (a : Reg) (b : Reg)
  /-- `amo.min.ar` (R112): Atomic signed minimum with acquire and release. -/
  | amoMinAr (w : Bool) (d : Reg) (a : Reg) (b : Reg)
  /-- `amo.max.ar` (R112): Atomic signed maximum with acquire and release. -/
  | amoMaxAr (w : Bool) (d : Reg) (a : Reg) (b : Reg)
  /-- `amo.cas.ar` (R112): Atomic compare-and-swap with acquire and release. -/
  | amoCasAr (w : Bool) (d : Reg) (a : Reg) (b : Reg)
  /-- `amo.minu` (R112): Atomic unsigned minimum, plain order. -/
  | amoMinu (w : Bool) (d : Reg) (a : Reg) (b : Reg)
  /-- `amo.maxu` (R112): Atomic unsigned maximum, plain order. -/
  | amoMaxu (w : Bool) (d : Reg) (a : Reg) (b : Reg)
  /-- `amo.fadd` (R113): Atomic FP64 add, plain order. -/
  | amoFaddD (w : Bool) (d : Reg) (a : Reg) (b : Reg)
  /-- `amo.fadd.w` (R113): Atomic FP32 add, plain order. -/
  | amoFaddW (w : Bool) (d : Reg) (a : Reg) (b : Reg)
  /-- `amo.fadd.h` (R113): Atomic FP16 add, plain order. -/
  | amoFaddH (w : Bool) (d : Reg) (a : Reg) (b : Reg)
  /-- `amo.bfadd` (R113): Atomic BF16 add, plain order. -/
  | amoBfadd (w : Bool) (d : Reg) (a : Reg) (b : Reg)
  /-- `amo.minu.acq` (R112): Atomic unsigned minimum with acquire. -/
  | amoMinuAcq (w : Bool) (d : Reg) (a : Reg) (b : Reg)
  /-- `amo.maxu.acq` (R112): Atomic unsigned maximum with acquire. -/
  | amoMaxuAcq (w : Bool) (d : Reg) (a : Reg) (b : Reg)
  /-- `amo.fadd.acq` (R113): Atomic FP64 add with acquire. -/
  | amoFaddDAcq (w : Bool) (d : Reg) (a : Reg) (b : Reg)
  /-- `amo.fadd.w.acq` (R113): Atomic FP32 add with acquire. -/
  | amoFaddWAcq (w : Bool) (d : Reg) (a : Reg) (b : Reg)
  /-- `amo.fadd.h.acq` (R113): Atomic FP16 add with acquire. -/
  | amoFaddHAcq (w : Bool) (d : Reg) (a : Reg) (b : Reg)
  /-- `amo.bfadd.acq` (R113): Atomic BF16 add with acquire. -/
  | amoBfaddAcq (w : Bool) (d : Reg) (a : Reg) (b : Reg)
  /-- `amo.minu.rel` (R112): Atomic unsigned minimum with release. -/
  | amoMinuRel (w : Bool) (d : Reg) (a : Reg) (b : Reg)
  /-- `amo.maxu.rel` (R112): Atomic unsigned maximum with release. -/
  | amoMaxuRel (w : Bool) (d : Reg) (a : Reg) (b : Reg)
  /-- `amo.fadd.rel` (R113): Atomic FP64 add with release. -/
  | amoFaddDRel (w : Bool) (d : Reg) (a : Reg) (b : Reg)
  /-- `amo.fadd.w.rel` (R113): Atomic FP32 add with release. -/
  | amoFaddWRel (w : Bool) (d : Reg) (a : Reg) (b : Reg)
  /-- `amo.fadd.h.rel` (R113): Atomic FP16 add with release. -/
  | amoFaddHRel (w : Bool) (d : Reg) (a : Reg) (b : Reg)
  /-- `amo.bfadd.rel` (R113): Atomic BF16 add with release. -/
  | amoBfaddRel (w : Bool) (d : Reg) (a : Reg) (b : Reg)
  /-- `amo.minu.ar` (R112): Atomic unsigned minimum with acquire and release. -/
  | amoMinuAr (w : Bool) (d : Reg) (a : Reg) (b : Reg)
  /-- `amo.maxu.ar` (R112): Atomic unsigned maximum with acquire and release. -/
  | amoMaxuAr (w : Bool) (d : Reg) (a : Reg) (b : Reg)
  /-- `amo.fadd.ar` (R113): Atomic FP64 add with acquire and release. -/
  | amoFaddDAr (w : Bool) (d : Reg) (a : Reg) (b : Reg)
  /-- `amo.fadd.w.ar` (R113): Atomic FP32 add with acquire and release. -/
  | amoFaddWAr (w : Bool) (d : Reg) (a : Reg) (b : Reg)
  /-- `amo.fadd.h.ar` (R113): Atomic FP16 add with acquire and release. -/
  | amoFaddHAr (w : Bool) (d : Reg) (a : Reg) (b : Reg)
  /-- `amo.bfadd.ar` (R113): Atomic BF16 add with acquire and release. -/
  | amoBfaddAr (w : Bool) (d : Reg) (a : Reg) (b : Reg)
  /-- `amos.add` (R114): Scratchpad atomic add at the bank's unit. -/
  | amosAdd (w : Bool) (d : Reg) (a : Reg) (b : Reg)
  /-- `amos.and` (R114): Scratchpad atomic and. -/
  | amosAnd (w : Bool) (d : Reg) (a : Reg) (b : Reg)
  /-- `amos.or` (R114): Scratchpad atomic or. -/
  | amosOr (w : Bool) (d : Reg) (a : Reg) (b : Reg)
  /-- `amos.xor` (R114): Scratchpad atomic xor. -/
  | amosXor (w : Bool) (d : Reg) (a : Reg) (b : Reg)
  /-- `amos.swap` (R114): Scratchpad atomic swap. -/
  | amosSwap (w : Bool) (d : Reg) (a : Reg) (b : Reg)
  /-- `amos.min` (R114): Scratchpad atomic signed minimum. -/
  | amosMin (w : Bool) (d : Reg) (a : Reg) (b : Reg)
  /-- `amos.max` (R114): Scratchpad atomic signed maximum. -/
  | amosMax (w : Bool) (d : Reg) (a : Reg) (b : Reg)
  /-- `amos.cas` (R114): Scratchpad atomic compare-and-swap. -/
  | amosCas (w : Bool) (d : Reg) (a : Reg) (b : Reg)
  /-- `amos.minu` (R114): Scratchpad atomic unsigned minimum. -/
  | amosMinu (w : Bool) (d : Reg) (a : Reg) (b : Reg)
  /-- `amos.maxu` (R114): Scratchpad atomic unsigned maximum. -/
  | amosMaxu (w : Bool) (d : Reg) (a : Reg) (b : Reg)
  /-- `amos.fadd` (R114): Scratchpad atomic FP64 add. -/
  | amosFaddD (w : Bool) (d : Reg) (a : Reg) (b : Reg)
  /-- `amos.fadd.w` (R114): Scratchpad atomic FP32 add. -/
  | amosFaddW (w : Bool) (d : Reg) (a : Reg) (b : Reg)
  /-- `amos.fadd.h` (R114): Scratchpad atomic FP16 add. -/
  | amosFaddH (w : Bool) (d : Reg) (a : Reg) (b : Reg)
  /-- `amos.bfadd` (R114): Scratchpad atomic BF16 add. -/
  | amosBfadd (w : Bool) (d : Reg) (a : Reg) (b : Reg)
  /-- `dep.add` (R159): Fades a mark word to the current tick, adds the amount saturating, and restamps it. -/
  | depAdd (w : Bool) (a : Reg) (b : Reg)
  /-- `dep.max` (R159): Fades a mark word and stores the larger of it and the amount, restamped. -/
  | depMax (w : Bool) (a : Reg) (b : Reg)
  /-- `peek` (R159): Returns the faded value of a mark word. -/
  | peek (w : Bool) (d : Reg) (a : Reg)
  /-- `sense` (R159): Returns the strongest faded unexcluded word of a mark line with its index. -/
  | sense (w : Bool) (d : Reg) (a : Reg) (b : Reg)
  /-- `dep.add.rel` (R159): Mark add deposit with a package release. -/
  | depAddRel (w : Bool) (a : Reg) (b : Reg)
  /-- `dep.max.rel` (R159): Mark max deposit with a package release. -/
  | depMaxRel (w : Bool) (a : Reg) (b : Reg)
  /-- `tick` (R161): Places a tick request for a program-driven trail field and holds until DONE. -/
  | tick (w : Bool) (a : Reg)
  /-- `fadd` (R231): Floating-point add at FP32 or FP64. -/
  | fadd (p : Bool) (r : BitVec 2) (w : Bool) (d : Reg) (a : Reg) (b : Reg)
  /-- `fsub` (R231): Floating-point subtract. -/
  | fsub (p : Bool) (r : BitVec 2) (w : Bool) (d : Reg) (a : Reg) (b : Reg)
  /-- `fmul` (R231): Floating-point multiply. -/
  | fmul (p : Bool) (r : BitVec 2) (w : Bool) (d : Reg) (a : Reg) (b : Reg)
  /-- `fdiv` (R231): Floating-point divide. -/
  | fdiv (p : Bool) (r : BitVec 2) (w : Bool) (d : Reg) (a : Reg) (b : Reg)
  /-- `fma` (R231): Fused multiply-add a*b+d, rounded once. -/
  | fma (p : Bool) (r : BitVec 2) (w : Bool) (d : Reg) (a : Reg) (b : Reg)
  /-- `fnma` (R231): Fused d-a*b, rounded once. -/
  | fnma (p : Bool) (r : BitVec 2) (w : Bool) (d : Reg) (a : Reg) (b : Reg)
  /-- `fsqrt` (R231): Floating-point square root. -/
  | fsqrt (p : Bool) (r : BitVec 2) (w : Bool) (d : Reg) (a : Reg)
  /-- `fmin.w` (R232): FP32 minimum. -/
  | fminW (w : Bool) (d : Reg) (a : Reg) (b : Reg)
  /-- `fmax.w` (R232): FP32 maximum. -/
  | fmaxW (w : Bool) (d : Reg) (a : Reg) (b : Reg)
  /-- `feq.w` (R232): FP32 equality compare. -/
  | feqW (w : Bool) (d : Reg) (a : Reg) (b : Reg)
  /-- `flt.w` (R232): FP32 less-than compare. -/
  | fltW (w : Bool) (d : Reg) (a : Reg) (b : Reg)
  /-- `fle.w` (R232): FP32 less-or-equal compare. -/
  | fleW (w : Bool) (d : Reg) (a : Reg) (b : Reg)
  /-- `fsgnj.w` (R232): FP32 sign injection. -/
  | fsgnjW (w : Bool) (d : Reg) (a : Reg) (b : Reg)
  /-- `fsgnjn.w` (R232): FP32 negated sign injection. -/
  | fsgnjnW (w : Bool) (d : Reg) (a : Reg) (b : Reg)
  /-- `fclass.w` (R232): FP32 classification mask. -/
  | fclassW (w : Bool) (d : Reg) (a : Reg)
  /-- `fmin` (R232): FP64 minimum. -/
  | fminD (w : Bool) (d : Reg) (a : Reg) (b : Reg)
  /-- `fmax` (R232): FP64 maximum. -/
  | fmaxD (w : Bool) (d : Reg) (a : Reg) (b : Reg)
  /-- `feq` (R232): FP64 equality compare. -/
  | feqD (w : Bool) (d : Reg) (a : Reg) (b : Reg)
  /-- `flt` (R232): FP64 less-than compare. -/
  | fltD (w : Bool) (d : Reg) (a : Reg) (b : Reg)
  /-- `fle` (R232): FP64 less-or-equal compare. -/
  | fleD (w : Bool) (d : Reg) (a : Reg) (b : Reg)
  /-- `fsgnj` (R232): FP64 sign injection. -/
  | fsgnjD (w : Bool) (d : Reg) (a : Reg) (b : Reg)
  /-- `fsgnjn` (R232): FP64 negated sign injection. -/
  | fsgnjnD (w : Bool) (d : Reg) (a : Reg) (b : Reg)
  /-- `fclass` (R232): FP64 classification mask. -/
  | fclassD (w : Bool) (d : Reg) (a : Reg)
  /-- `cvt.s.d` (R233): Narrows FP64 to FP32. -/
  | cvtSD (r : BitVec 2) (w : Bool) (d : Reg) (a : Reg)
  /-- `cvt.d.s` (R233): Widens FP32 to FP64 exactly. -/
  | cvtDS (w : Bool) (d : Reg) (a : Reg)
  /-- `cvt.h.s` (R233): Narrows FP32 to FP16. -/
  | cvtHS (r : BitVec 2) (w : Bool) (d : Reg) (a : Reg)
  /-- `cvt.s.h` (R233): Widens FP16 to FP32 exactly. -/
  | cvtSH (w : Bool) (d : Reg) (a : Reg)
  /-- `cvt.bf.s` (R233): Narrows FP32 to BF16. -/
  | cvtBfS (r : BitVec 2) (w : Bool) (d : Reg) (a : Reg)
  /-- `cvt.s.bf` (R233): Widens BF16 to FP32 exactly. -/
  | cvtSBf (w : Bool) (d : Reg) (a : Reg)
  /-- `cvt.s.l` (R233): Converts a signed integer to FP32. -/
  | cvtSL (r : BitVec 2) (w : Bool) (d : Reg) (a : Reg)
  /-- `cvt.d.l` (R233): Converts a signed integer to FP64. -/
  | cvtDL (r : BitVec 2) (w : Bool) (d : Reg) (a : Reg)
  /-- `cvt.l.s` (R233): Converts FP32 to a signed integer, saturating. -/
  | cvtLS (r : BitVec 2) (w : Bool) (d : Reg) (a : Reg)
  /-- `cvt.l.d` (R233): Converts FP64 to a signed integer, saturating. -/
  | cvtLD (r : BitVec 2) (w : Bool) (d : Reg) (a : Reg)
  /-- `cvt.d.lu` (R233): Converts an unsigned integer to FP64. -/
  | cvtDLu (r : BitVec 2) (w : Bool) (d : Reg) (a : Reg)
  /-- `cvt.lu.d` (R233): Converts FP64 to an unsigned integer, saturating. -/
  | cvtLuD (r : BitVec 2) (w : Bool) (d : Reg) (a : Reg)
  /-- `vadd` (R236): Scratchpad-to-scratchpad vector add over vlen elements. -/
  | vadd (p : Bool) (r : BitVec 2) (w : Bool) (d : Reg) (a : Reg) (b : Reg)
  /-- `vsub` (R236): Vector subtract. -/
  | vsub (p : Bool) (r : BitVec 2) (w : Bool) (d : Reg) (a : Reg) (b : Reg)
  /-- `vmul` (R236): Vector multiply. -/
  | vmul (p : Bool) (r : BitVec 2) (w : Bool) (d : Reg) (a : Reg) (b : Reg)
  /-- `vfma` (R236): Vector fused multiply-add A*B+D. -/
  | vfma (p : Bool) (r : BitVec 2) (w : Bool) (d : Reg) (a : Reg) (b : Reg)
  /-- `vmin.w` (R236): FP32 vector minimum. -/
  | vminW (w : Bool) (d : Reg) (a : Reg) (b : Reg)
  /-- `vmax.w` (R236): FP32 vector maximum. -/
  | vmaxW (w : Bool) (d : Reg) (a : Reg) (b : Reg)
  /-- `vmin` (R236): FP64 vector minimum. -/
  | vminD (w : Bool) (d : Reg) (a : Reg) (b : Reg)
  /-- `vmax` (R236): FP64 vector maximum. -/
  | vmaxD (w : Bool) (d : Reg) (a : Reg) (b : Reg)
  /-- `vcpy` (R236): Vector copy of 4-byte words. -/
  | vcpy (w : Bool) (d : Reg) (a : Reg)
  /-- `vcvt.h.s` (R236): Vector FP32 to FP16. -/
  | vcvtHS (w : Bool) (d : Reg) (a : Reg)
  /-- `vcvt.s.h` (R236): Vector FP16 to FP32. -/
  | vcvtSH (w : Bool) (d : Reg) (a : Reg)
  /-- `vcvt.bf.s` (R236): Vector FP32 to BF16. -/
  | vcvtBfS (w : Bool) (d : Reg) (a : Reg)
  /-- `vcvt.s.bf` (R236): Vector BF16 to FP32. -/
  | vcvtSBf (w : Bool) (d : Reg) (a : Reg)
  /-- `vcvt.bd8.s` (R236): Vector FP32 to BD8 with block scales. -/
  | vcvtBd8S (w : Bool) (d : Reg) (a : Reg) (b : Reg)
  /-- `vcvt.s.bd8` (R236): Vector BD8 to FP32. -/
  | vcvtSBd8 (w : Bool) (d : Reg) (a : Reg) (b : Reg)
  /-- `vcvt.bd4.s` (R236): Vector FP32 to BD4 with block scales. -/
  | vcvtBd4S (w : Bool) (d : Reg) (a : Reg) (b : Reg)
  /-- `vcvt.s.bd4` (R236): Vector BD4 to FP32. -/
  | vcvtSBd4 (w : Bool) (d : Reg) (a : Reg) (b : Reg)
  /-- `sfu.exp2` (R239): Sends 2^x to the octet SFU. -/
  | sfuExp2 (w : Bool) (d : Reg) (a : Reg)
  /-- `sfu.log2` (R239): Sends log2 x to the octet SFU. -/
  | sfuLog2 (w : Bool) (d : Reg) (a : Reg)
  /-- `sfu.rcp` (R239): Sends reciprocal to the octet SFU. -/
  | sfuRcp (w : Bool) (d : Reg) (a : Reg)
  /-- `sfu.rsq` (R239): Sends reciprocal square root to the octet SFU. -/
  | sfuRsq (w : Bool) (d : Reg) (a : Reg)
  /-- `sfu.sin` (R239): Sends sine to the octet SFU. -/
  | sfuSin (w : Bool) (d : Reg) (a : Reg)
  /-- `sfu.cos` (R239): Sends cosine to the octet SFU. -/
  | sfuCos (w : Bool) (d : Reg) (a : Reg)
  /-- `sfu.tanh` (R239): Sends tanh to the octet SFU. -/
  | sfuTanh (w : Bool) (d : Reg) (a : Reg)
  /-- `sfu.sigm` (R239): Sends sigmoid to the octet SFU. -/
  | sfuSigm (w : Bool) (d : Reg) (a : Reg)
  /-- `sbind.in` (R243): Binds a register as an input port of a stream descriptor. -/
  | sbindIn (w : Bool) (d : Reg) (a : Reg)
  /-- `sbind.out` (R243): Binds a register as an output port of a stream descriptor. -/
  | sbindOut (w : Bool) (d : Reg) (a : Reg)
  /-- `sunbind` (R243): Removes a port binding. -/
  | sunbind (d : Reg)
  /-- `ctab` (R241): Loads the core's C4 code table from 16 scratchpad bytes. -/
  | ctab (w : Bool) (a : Reg)
  /-- `mma` (R248): Matrix product of scratchpad A and B rows into a bank. -/
  | mma (w : Bool) (k : Bool) (n : BitVec 4) (a : Reg) (b : Reg)
  /-- `mma.z` (R248): Matrix product into a bank first set to zero. -/
  | mmaZ (w : Bool) (k : Bool) (n : BitVec 4) (a : Reg) (b : Reg)
  /-- `mma.rot` (R188): Rotating matrix product taking B rows from the operand latch. -/
  | mmaRot (w : Bool) (k : Bool) (n : BitVec 4) (a : Reg)
  /-- `mma.rot.z` (R188): Rotating product from the latch into a zeroed bank. -/
  | mmaRotZ (w : Bool) (k : Bool) (n : BitVec 4) (a : Reg)
  /-- `mma.rot.sd` (R188): Rotating product seeding the ring with scratchpad B rows. -/
  | mmaRotSd (w : Bool) (k : Bool) (n : BitVec 4) (a : Reg) (b : Reg)
  /-- `mma.rot.sd.z` (R188): Seeding rotating product into a zeroed bank. -/
  | mmaRotSdZ (w : Bool) (k : Bool) (n : BitVec 4) (a : Reg) (b : Reg)
  /-- `mstc` (R191): Stores an accumulator bank to global memory. -/
  | mstc (w : Bool) (k : Bool) (a : Reg) (b : Reg)
  /-- `mldc` (R255): Loads an accumulator bank from global memory. -/
  | mldc (w : Bool) (k : Bool) (a : Reg) (b : Reg)
  /-- `mcommit` (R189): Closes the open batch and returns its id. -/
  | mcommit (d : Reg)
  /-- `mwait` (R190): Holds until a batch has completed, or traps ACCHAZ for an uncommitted id. -/
  | mwait (w : Bool) (a : Reg)
  /-- `cpy.gg` (R263): Copy from global to global memory on a channel. -/
  | cpyGg (w : Bool) (c : BitVec 2) (a : Reg) (b : Reg)
  /-- `cpy.gs` (R263): Copy from global memory to scratchpad. -/
  | cpyGs (w : Bool) (c : BitVec 2) (a : Reg) (b : Reg)
  /-- `cpy.sg` (R263): Copy from scratchpad to global memory. -/
  | cpySg (w : Bool) (c : BitVec 2) (a : Reg) (b : Reg)
  /-- `cpy.ss` (R263): Copy from scratchpad to scratchpad. -/
  | cpySs (w : Bool) (c : BitVec 2) (a : Reg) (b : Reg)
  /-- `cpy.sub` (R266): Starts a subscription of tiles into scratchpad slots. -/
  | cpySub (w : Bool) (c : BitVec 2) (a : Reg)
  /-- `cpy.sub.pull` (R266): Starts a subscription with pull-back of retired tiles. -/
  | cpySubPull (w : Bool) (c : BitVec 2) (a : Reg)
  /-- `cpy.sub.ret` (R267): Retires tiles of a channel's subscription. -/
  | cpySubRet (w : Bool) (c : BitVec 2) (a : Reg)
  /-- `cwait` (R269): Holds until a channel's pointer or landed count passes a value. -/
  | cwait (w : Bool) (a : Reg) (b : Reg)
  /-- `spawn` (R118): Delivers a new continuation to the home core of an address. -/
  | spawn (w : Bool) (d : Reg) (a : Reg) (b : Reg)
  /-- `go` (R119): Moves the calling thread to the home core of an address. -/
  | go (w : Bool) (a : Reg)
  /-- `park` (R122): Waits for a change to a word. -/
  | park (w : Bool) (a : Reg) (b : Reg)
  /-- `join` (R124): Joins or attaches to a group. -/
  | join (w : Bool) (d : Reg) (a : Reg)
  /-- `leave` (R125): Leaves a group, possibly completing a phase. -/
  | leave (w : Bool) (d : Reg) (a : Reg)
  /-- `bar` (R126): Arrives at a group barrier and holds until the phase completes. -/
  | bar (w : Bool) (d : Reg) (a : Reg)
  /-- `tsig` (R128): Signals a graph node's successors after a package release. -/
  | tsig (w : Bool) (a : Reg)
  /-- `kadd` (R201): Sequencer add of k registers. -/
  | kadd (d : KReg) (a : KReg) (b : KReg)
  /-- `ksub` (R201): Sequencer subtract. -/
  | ksub (d : KReg) (a : KReg) (b : KReg)
  /-- `kand` (R201): Sequencer AND. -/
  | kand (d : KReg) (a : KReg) (b : KReg)
  /-- `kor` (R201): Sequencer OR. -/
  | kor (d : KReg) (a : KReg) (b : KReg)
  /-- `kxor` (R201): Sequencer XOR. -/
  | kxor (d : KReg) (a : KReg) (b : KReg)
  /-- `ksll` (R201): Sequencer shift left. -/
  | ksll (d : KReg) (a : KReg) (b : KReg)
  /-- `ksrl` (R201): Sequencer shift right logical. -/
  | ksrl (d : KReg) (a : KReg) (b : KReg)
  /-- `kmul` (R201): Sequencer multiply, low 64 bits. -/
  | kmul (d : KReg) (a : KReg) (b : KReg)
  /-- `kaddi` (R194): Sequencer add immediate. -/
  | kaddi (i : BitVec 11) (d : KReg) (a : KReg)
  /-- `kbeq` (R201): Sequencer branch if equal. -/
  | kbeq (i : BitVec 11) (a : KReg) (b : KReg)
  /-- `kbne` (R201): Sequencer branch if not equal. -/
  | kbne (i : BitVec 11) (a : KReg) (b : KReg)
  /-- `kloop` (R194): Decrements a k register and branches if nonzero. -/
  | kloop (i : BitVec 11) (a : KReg)
  /-- `kj` (R201): Sequencer unconditional jump. -/
  | kj (i : BitVec 18)
  /-- `rowany` (R203): Gathers whether any core's register is nonzero into a k register. -/
  | rowany (w : Bool) (d : KReg) (a : Reg)
  /-- `rowall` (R203): Gathers whether every core's register is nonzero into a k register. -/
  | rowall (w : Bool) (d : KReg) (a : Reg)
  /-- `csrr` (R299): Reads a control register. -/
  | csrr (c : BitVec 11) (d : Reg)
  /-- `csrrw` (R299): Reads and writes a control register. -/
  | csrrw (c : BitVec 11) (d : Reg) (a : Reg)
  /-- `csrs` (R299): Reads a control register and sets bits. -/
  | csrs (c : BitVec 11) (d : Reg) (a : Reg)
  /-- `csrc` (R299): Reads a control register and clears bits. -/
  | csrc (c : BitVec 11) (d : Reg) (a : Reg)
  /-- `tlbi.va` (R309): Drops the caller's stage-1 entries for one page. -/
  | tlbiVa (w : Bool) (a : Reg)
  /-- `tlbi.s2` (R309): Drops stage-2 results for a guest-physical page of a VMID; tenant 0 only. -/
  | tlbiS2 (w : Bool) (a : Reg) (b : Reg)
  /-- `dline` (R193): Declares a step with deadline, estimate and handler on the core. -/
  | dline (w : Bool) (d : Reg) (a : Reg) (b : Reg)
  /-- `prog` (R193): Reports progress of the core's open step. -/
  | prog (w : Bool) (a : Reg)
  /-- `pwr.hint` (R329): Sets the core's power hint. -/
  | pwrHint (w : Bool) (a : Reg)
  /-- `rep` (R63): Repeats the next word with strided register fields. -/
  | rep (c : Bool) (x : BitVec 2) (y : BitVec 2) (z : BitVec 2) (n : Reg)
  /-- `rep.os` (R63): Repeats the next memory word, also advancing its offset. -/
  | repOs (c : Bool) (x : BitVec 2) (y : BitVec 2) (z : BitVec 2) (n : Reg)
  /-- `fence.core` (R115): Holds later memory words until the scoped fence condition holds. -/
  | fenceCore
  /-- `fence.die` (R115): Holds later memory words until the scoped fence condition holds. -/
  | fenceDie
  /-- `fence.pkg` (R115): Holds later memory words until the scoped fence condition holds. -/
  | fencePkg
  /-- `fence.dom` (R115): Holds later memory words until the scoped fence condition holds. -/
  | fenceDom
  /-- VECTOR_STEP (R236): The vector unit performs one step of 8 or 16 elements; the last step completes the word and advances its address registers. -/
  | vectorStep
  /-- SFU_ACCEPT (R186): In a base cycle the SFU takes one waiting request round-robin and computes it. -/
  | sfuAccept
  /-- STREAM_POP (R245): The stream unit takes the element at HEAD, waiting or answering EMPTY when none. -/
  | streamPop
  /-- STREAM_PUSH (R245): The stream unit appends an element at TAIL when room exists, serving waiters. -/
  | streamPush
  /-- MATRIX_ENGINE_SCHEDULE (R258): At an idle cycle or k-step boundary the engine starts, suspends or resumes commands by effective priority. -/
  | matrixEngineSchedule
  /-- MMA_GROUP (R253): The engine accumulates one group of eight k into every cell of the bank. -/
  | mmaGroup
  /-- LATCH_ROW_ARRIVE (R213): A consumed B row enters the east neighbour's operand latch. -/
  | latchRowArrive
  /-- MATRIX_COMMAND_COMPLETE (R257): A matrix command completes, releasing its queue entry, lent ranges and possibly its batch. -/
  | matrixCommandComplete
  /-- COPY_UNIT_TRANSFER (R261): The copy engine moves up to four 16-byte units among busy channels round robin. -/
  | copyUnitTransfer
  /-- COPY_COMMAND_COMPLETE (R264): A copy command finishes and frees its channel. -/
  | copyCommandComplete
  /-- SUBSCRIPTION_TILE_LAND (R266): The memory-side loader copies the next tile into its free slot and advances the pointer. -/
  | subscriptionTileLand
  /-- SUBSCRIPTION_PULL_BACK (R267): The loader reads a retired slot and writes it to its pull-back address. -/
  | subscriptionPullBack
  /-- `cfence` (R268): Holds until all earlier copies of the context complete. -/
  | cfence
  /-- `quit` (R120): Ends the thread after its results return and its release is met. -/
  | quit
  /-- `yield` (R121): Gives up the next rotation's turn. -/
  | yield
  /-- PARK_WAKE (R122): A write to the watched line completes a held park. -/
  | parkWake
  /-- PARK_TIMEOUT (R122): 65,536 cycles pass and a held park completes. -/
  | parkTimeout
  /-- HELD_ANSWER (R117): The answer a held thread or group instruction waits for arrives and the context resumes. -/
  | heldAnswer
  /-- `rend` (R194): Ends fetching of the row stream. -/
  | rend
  /-- STREAM_BEAT (R198): The sequencer sends a word or bubble east and each core executes its lane word, unless the beat is held. -/
  | streamBeat
  /-- SEGMENT_COMPLETE (R205): After rend or abort the segment completes once every condition holds and its contexts are freed. -/
  | segmentComplete
  /-- `ecall` (R297): Traps ECALL. -/
  | ecall
  /-- `break` (R297): Traps BREAK. -/
  | brk
  /-- `tret` (R297): Clears ACTIVE and returns to epc. -/
  | tret
  /-- `tlbi.vmid` (R309): Drops every stage-1 entry of the caller's VMID. -/
  | tlbiVmid
  /-- `tlbi.all` (R309): Drops every translation of every VMID; tenant 0 only. -/
  | tlbiAll
  /-- TLBI_COMPLETE (R310): An invalidation completes once covered entries are dropped and accesses using them are performed. -/
  | tlbiComplete
  /-- BARREL_CYCLE (R171): One turn of the rotation issues a word of its slot or lends it, parking slots that cannot issue. -/
  | barrelCycle
  /-- RESULT_RETURN (R70): A long-latency result arrives, fills its register full, and may trap POISON or RLINK. -/
  | resultReturn
  /-- STORE_DRAIN (R17): The head store of the core's buffer drains to its home once any release duty is met. -/
  | storeDrain
  /-- DUTY_MET (R105): An order duty or fence condition holding a context is met and it may issue on. -/
  | dutyMet
  /-- SLICE_REQUEST (R370): A load, store, atomic or mark request is performed at the slice holding its line. -/
  | sliceRequest
  /-- PAGE_CHECK_FILL (R90): The answer to a page-check miss fills the entry and the parked word retries. -/
  | pageCheckFill
  /-- STAGE1_WALK (R307): The home slice walks stage-1 tables, probing stage 2, delivering a translation or a fault. -/
  | stage1Walk
  /-- FRING_HEAD_WRITE (R301): Software advances HEAD and waiting fault records are written in order. -/
  | fringHeadWrite
  /-- RESOLVE_REPLAY (R302): RESOLVE action 1 makes the waiting party retry. -/
  | resolveReplay
  /-- RESOLVE_FAIL (R302): RESOLVE action 2 fails or discards the waiting party. -/
  | resolveFail
  /-- ARRIVAL_DELIVER (R179): The arrival port takes one continuation and places, queues, spills or refuses it. -/
  | arrivalDeliver
  /-- ARRIVAL_QUEUE_PLACE (R180): Each cycle the queue head is placed if it fits and one ring record is refilled. -/
  | arrivalQueuePlace
  /-- TIMEBASE_TICK_DUE (R152): A timebase trail field reaches a due time and queues a tick request. -/
  | timebaseTickDue
  /-- TICK_UNIT_SEND (R153): The tick unit leaves HOLD and sends the next count to every slice. -/
  | tickUnitSend
  /-- SLICE_TICK_APPLY (R153): A slice applies a field's new count in every bank's order and acknowledges. -/
  | sliceTickApply
  /-- TICK_ACK (R153): A slice acknowledgement arrives; the last one commits TICK and answers the requester. -/
  | tickAck
  /-- SCRUBBER_REFRESH (R154): The scrubber refreshes a mark word of due 8,192 or more, advancing its pass. -/
  | scrubberRefresh
  /-- TRAIL_ENABLE (R147): A write setting EN sends TICK to every slice or is refused setting ERR. -/
  | trailEnable
  /-- TRAIL_ENABLE_COMPLETE (R147): Every slice holds the count and EN reads 1. -/
  | trailEnableComplete
  /-- TRAIL_DISABLE (R147): A write of EN = 0 takes effect once accepted operations and ticks complete. -/
  | trailDisable
  /-- REG_STORE (R279): A store to REG starts graph registration. -/
  | regStore
  /-- REGISTRATION_COMPLETE (R280): Registration finishes and REGSTAT is written with a handle or status. -/
  | registrationComplete
  /-- UNREG_STORE (R281): A store to UNREG starts releasing a handle. -/
  | unregStore
  /-- HANDLE_RELEASE (R281): The handle is released once it has no unfinished launch and BUSY clears. -/
  | handleRelease
  /-- LAUNCH_STORE (R284): A LAUNCH word is accepted with a launch number or refused. -/
  | launchStore
  /-- LAUNCH_ELIGIBLE (R285): A dispatcher cycle makes one queue head eligible and readies its root nodes. -/
  | launchEligible
  /-- NODE_START (R288): The dispatcher starts the ready-queue head when its resources can be had. -/
  | nodeStart
  /-- INITIAL_THREAD_DELIVER (R273): The dispatcher sends one initial-thread record of a started SWARM node. -/
  | initialThreadDeliver
  /-- COPY_NODE_COMPLETE (R283): Every byte of a COPY node is performed at its home. -/
  | copyNodeComplete
  /-- NODE_COMPLETE (R274): The dispatcher accepts a completion and decrements successors' counters. -/
  | nodeComplete
  /-- TSIG_ACCEPT (R276): The dispatcher applies a tsig's decrements or answers PROT or GRAPHUF. -/
  | tsigAccept
  /-- LAUNCH_FINISH (R287): A finished launch adds to DONE, and to FAILED first if it failed. -/
  | launchFinish
  /-- PREEMPT (R290): The dispatcher benches or saves lower launches' contexts and segments for a higher node. -/
  | preempt
  /-- SAVED_CONTEXT_RESTORE (R293): A saved context or segment is placed back once no higher launch remains. -/
  | savedContextRestore
  /-- GOVERNOR_EVALUATE (R326): The governor predicts open steps, may raise DRISK, and sets points and dividers. -/
  | governorEvaluate
  /-- POWER_SLOW_CHECK (R330): Every 10 us the controller lowers or every 100 us raises one row cap against SLOW. -/
  | powerSlowCheck
  /-- POWER_FAST_WINDOW (R330): At each 10 us window end the controller benches or unbenches against FAST and CAP. -/
  | powerFastWindow
  /-- THERMAL_READ (R331): Every 5 us sensors are read, hottest updated and thermal caps moved. -/
  | thermalRead
  /-- ENERGY_CHARGE_APPLY (R333): Every 1,000 ns charges are applied to PURSE and ENERGY. -/
  | energyChargeApply
  /-- PSET (R332): Sets PURSE to a value, unbenching if it becomes positive. -/
  | pset
  /-- PADD (R332): Adds to PURSE saturating, unbenching if it becomes positive. -/
  | padd
  /-- TELEMETRY_SAMPLE (R335): Each PERIOD a sample is written to the telemetry ring or counted lost. -/
  | telemetrySample
  /-- TRANSFER_ROW (R342): TRANSFER of a row clears its cores and changes its owner. -/
  | transferRow
  /-- TRANSFER_SLICE (R342): TRANSFER of a slice writes back and drops its lines. -/
  | transferSlice
  /-- TRANSFER_CHANNEL (R342): TRANSFER of a channel invalidates stage 2 over it. -/
  | transferChannel
  /-- TRANSFER_ENGINE (R342): TRANSFER of an engine changes its owner. -/
  | transferEngine
  /-- TRANSFER_COMPLETE (R342): The transfer's work finishes and TSTAT is written. -/
  | transferComplete
  /-- VAULT_GENERATE (R347): Generates a new key for a key id and VMID. -/
  | vaultGenerate
  /-- VAULT_DESTROY (R348): Starts destroying a key id. -/
  | vaultDestroy
  /-- KEY_DESTROY_COMPLETE (R348): A destroyed key's requests, lines and translations are gone and the id is free. -/
  | keyDestroyComplete
  /-- HOST_TLBI_VA (R349): INVCMD operation 0 invalidates one page for a VMID. -/
  | hostTlbiVa
  /-- HOST_TLBI_VMID (R349): INVCMD operation 1 invalidates a VMID's stage-1 entries. -/
  | hostTlbiVmid
  /-- HOST_TLBI_S2 (R349): INVCMD operation 2 invalidates stage 2 for a page. -/
  | hostTlbiS2
  /-- HOST_TLBI_ALL (R349): INVCMD operation 3 invalidates every translation. -/
  | hostTlbiAll
  /-- COUNTER_SELECT_WRITE (R343): A write to SEL selects a counter's event and clears VAL. -/
  | counterSelectWrite
  /-- RATE_LIMIT_ADMIT (R344): A held channel request is admitted once its tenant's token count is non-negative. -/
  | rateLimitAdmit
  /-- FW_UPDATE (R352): FWCMD OP 1 verifies an image and copies it to the inactive bank. -/
  | fwUpdate
  /-- FW_SWITCH (R352): FWCMD OP 2 switches to the other verified bank. -/
  | fwSwitch
  /-- FW_READY (R353): The new firmware reports ready and serves held stores. -/
  | fwReady
  /-- FW_SWITCH_TIMEOUT (R353): 100 ms pass without ready and the device returns to the old bank. -/
  | fwSwitchTimeout
  /-- ATTESTATION_REPORT (R351): FWCMD OP 3 writes a signed attestation report. -/
  | attestationReport
  /-- FW_COMMAND_COMPLETE (R351): A firmware command finishes and FWSTAT is written with a domain release. -/
  | fwCommandComplete
  /-- POWER_ON (R368): Power-on runs boot verification and firmware bring-up. -/
  | powerOn
  /-- HOST_MEMORY_ACCESS (R356): A host access through the memory aperture is translated and performed at its home. -/
  | hostMemoryAccess
  /-- REMOTE_REQUEST (R354): A request from a peer is served under the receiving slot's stage 2. -/
  | remoteRequest
  /-- LINK_FAILURE (R359): A peer device or the host fails; UP clears and EPOCH advances. -/
  | linkFailure
  /-- PEER_RESTORE (R360): A RESTORE write puts a peer device back in use. -/
  | peerRestore
  /-- HOST_LINK_RETRAIN (R358): The host link retrains and HSTAT.UP returns. -/
  | hostLinkRetrain
  /-- FRAME_ARRIVE (R362): A Trailhead frame is stamped, checked, classified and staged or dropped. -/
  | frameArrive
  /-- TRAILHEAD_FRAME_DELIVER (R365): A staged frame is written to its slot, pushed to its stream and may spawn an arrival. -/
  | trailheadFrameDeliver
  /-- FLOW_ENABLE (R363): A write setting a flow's EN is accepted or refused. -/
  | flowEnable
  /-- DEBUG_FREEZE (R367): The management port stops every clock at a base-cycle boundary. -/
  | debugFreeze
  /-- DEBUG_THAW (R367): The management port restarts every clock. -/
  | debugThaw
  /-- DEBUG_WINDOW_ACCESS (R367): The debug window reads or writes architectural state while frozen. -/
  | debugWindowAccess
  /-- UNCORRECTABLE_ERROR (R313): An uncorrectable error poisons state or frees a core's contexts and quarantines it. -/
  | uncorrectableError
  /-- CORRECTED_ERROR (R313): A corrected soft error is counted in telemetry. -/
  | correctedError
  /-- ROW_REMAP (R315): At the remap point firmware moves windows and rings and applies the new column map. -/
  | rowRemap
  /-- REGISTER_WRITE (R337): A write to a register-page word with no row of its own stores its fields. -/
  | registerWrite
  /-- PTP_CLOCK_STEP (R152): Firmware's IEEE 1588 discipline steps device time forward or backward, moving every timebase tick's due time with it. -/
  | ptpClockStep
  /-- PARK_EARLY_COMPLETE (R122): A held park completes before any write to its line, timeout or save. -/
  | parkEarlyComplete
  /-- PEER_PORT_LINK_CHANGE (R359): A peer port loses its link or finishes training, starting or stopping the 10 us loss count and enabling RESTORE. -/
  | peerPortLinkChange
  /-- REMOTE_FAULT_RESOLVED (R354): The answer to a remote stage-2 fault returns from the receiving device, replaying the local access or trapping PFAULT. -/
  | remoteFaultResolved
  deriving DecidableEq, Repr

end Sys2Proof
end

