-- ==== Sys2Proof/WellFormed.lean ====
section
/-! DEFINITION. Which instructions are well formed: the operand values that R57 and R58 exclude from an encoded word. -/

namespace Sys2Proof

/-- The instruction is one of R58: `add` is not the word of zeros (R57), and a load has one of the seven widths (R55). -/
def Instr.wellFormed : Instr → Bool
  | .add w d a b => w || d != 0 || a != 0 || b != 0
  | .sub _ _ _ _ => true
  | .and _ _ _ _ => true
  | .or _ _ _ _ => true
  | .xor _ _ _ _ => true
  | .sll _ _ _ _ => true
  | .srl _ _ _ _ => true
  | .sra _ _ _ _ => true
  | .slt _ _ _ _ => true
  | .sltu _ _ _ _ => true
  | .min _ _ _ _ => true
  | .max _ _ _ _ => true
  | .minu _ _ _ _ => true
  | .maxu _ _ _ _ => true
  | .mul _ _ _ _ => true
  | .mulh _ _ _ _ => true
  | .mulhu _ _ _ _ => true
  | .mulhsu _ _ _ _ => true
  | .div _ _ _ _ => true
  | .divu _ _ _ _ => true
  | .rem _ _ _ _ => true
  | .remu _ _ _ _ => true
  | .home _ _ _ => true
  | .clz _ _ _ => true
  | .ctz _ _ _ => true
  | .popc _ _ _ => true
  | .addi _ _ _ => true
  | .andi _ _ _ => true
  | .ori _ _ _ => true
  | .xori _ _ _ => true
  | .slli _ _ _ => true
  | .srli _ _ _ => true
  | .srai _ _ _ => true
  | .slti _ _ _ => true
  | .sltiu _ _ _ => true
  | .lui _ _ => true
  | .adpc _ _ => true
  | .ld _ z _ _ => z != 7
  | .ldBy _ z _ _ => z != 7
  | .st _ _ _ _ => true
  | .lds _ z _ _ => z != 7
  | .sts _ _ _ _ => true
  | .beq _ _ _ => true
  | .bne _ _ _ => true
  | .blt _ _ _ => true
  | .bge _ _ _ => true
  | .bltu _ _ _ => true
  | .bgeu _ _ _ => true
  | .jal _ _ => true
  | .jalr _ _ _ => true
  | .ldAcq _ _ _ _ _ => true
  | .stRel _ _ _ _ _ => true
  | .amoAdd _ _ _ _ => true
  | .amoAnd _ _ _ _ => true
  | .amoOr _ _ _ _ => true
  | .amoXor _ _ _ _ => true
  | .amoSwap _ _ _ _ => true
  | .amoMin _ _ _ _ => true
  | .amoMax _ _ _ _ => true
  | .amoCas _ _ _ _ => true
  | .amoAddAcq _ _ _ _ => true
  | .amoAndAcq _ _ _ _ => true
  | .amoOrAcq _ _ _ _ => true
  | .amoXorAcq _ _ _ _ => true
  | .amoSwapAcq _ _ _ _ => true
  | .amoMinAcq _ _ _ _ => true
  | .amoMaxAcq _ _ _ _ => true
  | .amoCasAcq _ _ _ _ => true
  | .amoAddRel _ _ _ _ => true
  | .amoAndRel _ _ _ _ => true
  | .amoOrRel _ _ _ _ => true
  | .amoXorRel _ _ _ _ => true
  | .amoSwapRel _ _ _ _ => true
  | .amoMinRel _ _ _ _ => true
  | .amoMaxRel _ _ _ _ => true
  | .amoCasRel _ _ _ _ => true
  | .amoAddAr _ _ _ _ => true
  | .amoAndAr _ _ _ _ => true
  | .amoOrAr _ _ _ _ => true
  | .amoXorAr _ _ _ _ => true
  | .amoSwapAr _ _ _ _ => true
  | .amoMinAr _ _ _ _ => true
  | .amoMaxAr _ _ _ _ => true
  | .amoCasAr _ _ _ _ => true
  | .amoMinu _ _ _ _ => true
  | .amoMaxu _ _ _ _ => true
  | .amoFaddD _ _ _ _ => true
  | .amoFaddW _ _ _ _ => true
  | .amoFaddH _ _ _ _ => true
  | .amoBfadd _ _ _ _ => true
  | .amoMinuAcq _ _ _ _ => true
  | .amoMaxuAcq _ _ _ _ => true
  | .amoFaddDAcq _ _ _ _ => true
  | .amoFaddWAcq _ _ _ _ => true
  | .amoFaddHAcq _ _ _ _ => true
  | .amoBfaddAcq _ _ _ _ => true
  | .amoMinuRel _ _ _ _ => true
  | .amoMaxuRel _ _ _ _ => true
  | .amoFaddDRel _ _ _ _ => true
  | .amoFaddWRel _ _ _ _ => true
  | .amoFaddHRel _ _ _ _ => true
  | .amoBfaddRel _ _ _ _ => true
  | .amoMinuAr _ _ _ _ => true
  | .amoMaxuAr _ _ _ _ => true
  | .amoFaddDAr _ _ _ _ => true
  | .amoFaddWAr _ _ _ _ => true
  | .amoFaddHAr _ _ _ _ => true
  | .amoBfaddAr _ _ _ _ => true
  | .amosAdd _ _ _ _ => true
  | .amosAnd _ _ _ _ => true
  | .amosOr _ _ _ _ => true
  | .amosXor _ _ _ _ => true
  | .amosSwap _ _ _ _ => true
  | .amosMin _ _ _ _ => true
  | .amosMax _ _ _ _ => true
  | .amosCas _ _ _ _ => true
  | .amosMinu _ _ _ _ => true
  | .amosMaxu _ _ _ _ => true
  | .amosFaddD _ _ _ _ => true
  | .amosFaddW _ _ _ _ => true
  | .amosFaddH _ _ _ _ => true
  | .amosBfadd _ _ _ _ => true
  | .depAdd _ _ _ => true
  | .depMax _ _ _ => true
  | .peek _ _ _ => true
  | .sense _ _ _ _ => true
  | .depAddRel _ _ _ => true
  | .depMaxRel _ _ _ => true
  | .tick _ _ => true
  | .fadd _ _ _ _ _ _ => true
  | .fsub _ _ _ _ _ _ => true
  | .fmul _ _ _ _ _ _ => true
  | .fdiv _ _ _ _ _ _ => true
  | .fma _ _ _ _ _ _ => true
  | .fnma _ _ _ _ _ _ => true
  | .fsqrt _ _ _ _ _ => true
  | .fminW _ _ _ _ => true
  | .fmaxW _ _ _ _ => true
  | .feqW _ _ _ _ => true
  | .fltW _ _ _ _ => true
  | .fleW _ _ _ _ => true
  | .fsgnjW _ _ _ _ => true
  | .fsgnjnW _ _ _ _ => true
  | .fclassW _ _ _ => true
  | .fminD _ _ _ _ => true
  | .fmaxD _ _ _ _ => true
  | .feqD _ _ _ _ => true
  | .fltD _ _ _ _ => true
  | .fleD _ _ _ _ => true
  | .fsgnjD _ _ _ _ => true
  | .fsgnjnD _ _ _ _ => true
  | .fclassD _ _ _ => true
  | .cvtSD _ _ _ _ => true
  | .cvtDS _ _ _ => true
  | .cvtHS _ _ _ _ => true
  | .cvtSH _ _ _ => true
  | .cvtBfS _ _ _ _ => true
  | .cvtSBf _ _ _ => true
  | .cvtSL _ _ _ _ => true
  | .cvtDL _ _ _ _ => true
  | .cvtLS _ _ _ _ => true
  | .cvtLD _ _ _ _ => true
  | .cvtDLu _ _ _ _ => true
  | .cvtLuD _ _ _ _ => true
  | .vadd _ _ _ _ _ _ => true
  | .vsub _ _ _ _ _ _ => true
  | .vmul _ _ _ _ _ _ => true
  | .vfma _ _ _ _ _ _ => true
  | .vminW _ _ _ _ => true
  | .vmaxW _ _ _ _ => true
  | .vminD _ _ _ _ => true
  | .vmaxD _ _ _ _ => true
  | .vcpy _ _ _ => true
  | .vcvtHS _ _ _ => true
  | .vcvtSH _ _ _ => true
  | .vcvtBfS _ _ _ => true
  | .vcvtSBf _ _ _ => true
  | .vcvtBd8S _ _ _ _ => true
  | .vcvtSBd8 _ _ _ _ => true
  | .vcvtBd4S _ _ _ _ => true
  | .vcvtSBd4 _ _ _ _ => true
  | .sfuExp2 _ _ _ => true
  | .sfuLog2 _ _ _ => true
  | .sfuRcp _ _ _ => true
  | .sfuRsq _ _ _ => true
  | .sfuSin _ _ _ => true
  | .sfuCos _ _ _ => true
  | .sfuTanh _ _ _ => true
  | .sfuSigm _ _ _ => true
  | .sbindIn _ _ _ => true
  | .sbindOut _ _ _ => true
  | .sunbind _ => true
  | .ctab _ _ => true
  | .mma _ _ _ _ _ => true
  | .mmaZ _ _ _ _ _ => true
  | .mmaRot _ _ _ _ => true
  | .mmaRotZ _ _ _ _ => true
  | .mmaRotSd _ _ _ _ _ => true
  | .mmaRotSdZ _ _ _ _ _ => true
  | .mstc _ _ _ _ => true
  | .mldc _ _ _ _ => true
  | .mcommit _ => true
  | .mwait _ _ => true
  | .cpyGg _ _ _ _ => true
  | .cpyGs _ _ _ _ => true
  | .cpySg _ _ _ _ => true
  | .cpySs _ _ _ _ => true
  | .cpySub _ _ _ => true
  | .cpySubPull _ _ _ => true
  | .cpySubRet _ _ _ => true
  | .cwait _ _ _ => true
  | .spawn _ _ _ _ => true
  | .go _ _ => true
  | .park _ _ _ => true
  | .join _ _ _ => true
  | .leave _ _ _ => true
  | .bar _ _ _ => true
  | .tsig _ _ => true
  | .kadd _ _ _ => true
  | .ksub _ _ _ => true
  | .kand _ _ _ => true
  | .kor _ _ _ => true
  | .kxor _ _ _ => true
  | .ksll _ _ _ => true
  | .ksrl _ _ _ => true
  | .kmul _ _ _ => true
  | .kaddi _ _ _ => true
  | .kbeq _ _ _ => true
  | .kbne _ _ _ => true
  | .kloop _ _ => true
  | .kj _ => true
  | .rowany _ _ _ => true
  | .rowall _ _ _ => true
  | .csrr _ _ => true
  | .csrrw _ _ _ => true
  | .csrs _ _ _ => true
  | .csrc _ _ _ => true
  | .tlbiVa _ _ => true
  | .tlbiS2 _ _ _ => true
  | .dline _ _ _ _ => true
  | .prog _ _ => true
  | .pwrHint _ _ => true
  | .rep _ _ _ _ _ => true
  | .repOs _ _ _ _ _ => true
  | .fenceCore => true
  | .fenceDie => true
  | .fencePkg => true
  | .fenceDom => true
  | .vectorStep => true
  | .sfuAccept => true
  | .streamPop => true
  | .streamPush => true
  | .matrixEngineSchedule => true
  | .mmaGroup => true
  | .latchRowArrive => true
  | .matrixCommandComplete => true
  | .copyUnitTransfer => true
  | .copyCommandComplete => true
  | .subscriptionTileLand => true
  | .subscriptionPullBack => true
  | .cfence => true
  | .quit => true
  | .yield => true
  | .parkWake => true
  | .parkTimeout => true
  | .heldAnswer => true
  | .rend => true
  | .streamBeat => true
  | .segmentComplete => true
  | .ecall => true
  | .brk => true
  | .tret => true
  | .tlbiVmid => true
  | .tlbiAll => true
  | .tlbiComplete => true
  | .barrelCycle => true
  | .resultReturn => true
  | .storeDrain => true
  | .dutyMet => true
  | .sliceRequest => true
  | .pageCheckFill => true
  | .stage1Walk => true
  | .fringHeadWrite => true
  | .resolveReplay => true
  | .resolveFail => true
  | .arrivalDeliver => true
  | .arrivalQueuePlace => true
  | .timebaseTickDue => true
  | .tickUnitSend => true
  | .sliceTickApply => true
  | .tickAck => true
  | .scrubberRefresh => true
  | .trailEnable => true
  | .trailEnableComplete => true
  | .trailDisable => true
  | .regStore => true
  | .registrationComplete => true
  | .unregStore => true
  | .handleRelease => true
  | .launchStore => true
  | .launchEligible => true
  | .nodeStart => true
  | .initialThreadDeliver => true
  | .copyNodeComplete => true
  | .nodeComplete => true
  | .tsigAccept => true
  | .launchFinish => true
  | .preempt => true
  | .savedContextRestore => true
  | .governorEvaluate => true
  | .powerSlowCheck => true
  | .powerFastWindow => true
  | .thermalRead => true
  | .energyChargeApply => true
  | .pset => true
  | .padd => true
  | .telemetrySample => true
  | .transferRow => true
  | .transferSlice => true
  | .transferChannel => true
  | .transferEngine => true
  | .transferComplete => true
  | .vaultGenerate => true
  | .vaultDestroy => true
  | .keyDestroyComplete => true
  | .hostTlbiVa => true
  | .hostTlbiVmid => true
  | .hostTlbiS2 => true
  | .hostTlbiAll => true
  | .counterSelectWrite => true
  | .rateLimitAdmit => true
  | .fwUpdate => true
  | .fwSwitch => true
  | .fwReady => true
  | .fwSwitchTimeout => true
  | .attestationReport => true
  | .fwCommandComplete => true
  | .powerOn => true
  | .hostMemoryAccess => true
  | .remoteRequest => true
  | .linkFailure => true
  | .peerRestore => true
  | .hostLinkRetrain => true
  | .frameArrive => true
  | .trailheadFrameDeliver => true
  | .flowEnable => true
  | .debugFreeze => true
  | .debugThaw => true
  | .debugWindowAccess => true
  | .uncorrectableError => true
  | .correctedError => true
  | .rowRemap => true
  | .registerWrite => true
  | .ptpClockStep => true
  | .parkEarlyComplete => true
  | .peerPortLinkChange => true
  | .remoteFaultResolved => true

end Sys2Proof
end

