-- ==== Sys2Proof/Decode.lean ====
section
/-! DEFINITION. Decoding an instruction word (R50 to R58), and the encoder written from the same tables. Every word that R58
does not list answers `none` (R57); the context that issues it traps ILLOP. -/

namespace Sys2Proof

/-- The field of `n` bits whose lowest bit is bit `lo` (R10). -/
def bits (lo n : Nat) (w : W32) : BitVec n := w.extractLsb' lo n

/-- One bit of a word as a truth value. -/
def flag (lo : Nat) (w : W32) : Bool := w.extractLsb' lo 1 == 1#1

/-- Major opcode 0x00 (R58). -/
def decode00 (w : W32) : Option Instr :=
  if bits 29 3 w = 0 ∧ w ≠ 0 then some (.add (flag 28 w) (bits 7 7 w) (bits 14 7 w) (bits 21 7 w))
  else if bits 29 3 w = 1 then some (.sub (flag 28 w) (bits 7 7 w) (bits 14 7 w) (bits 21 7 w))
  else if bits 29 3 w = 2 then some (.and (flag 28 w) (bits 7 7 w) (bits 14 7 w) (bits 21 7 w))
  else if bits 29 3 w = 3 then some (.or (flag 28 w) (bits 7 7 w) (bits 14 7 w) (bits 21 7 w))
  else if bits 29 3 w = 4 then some (.xor (flag 28 w) (bits 7 7 w) (bits 14 7 w) (bits 21 7 w))
  else if bits 29 3 w = 5 then some (.sll (flag 28 w) (bits 7 7 w) (bits 14 7 w) (bits 21 7 w))
  else if bits 29 3 w = 6 then some (.srl (flag 28 w) (bits 7 7 w) (bits 14 7 w) (bits 21 7 w))
  else if bits 29 3 w = 7 then some (.sra (flag 28 w) (bits 7 7 w) (bits 14 7 w) (bits 21 7 w))
  else none

/-- Major opcode 0x01 (R58). -/
def decode01 (w : W32) : Option Instr :=
  if bits 29 3 w = 0 then some (.slt (flag 28 w) (bits 7 7 w) (bits 14 7 w) (bits 21 7 w))
  else if bits 29 3 w = 1 then some (.sltu (flag 28 w) (bits 7 7 w) (bits 14 7 w) (bits 21 7 w))
  else if bits 29 3 w = 2 then some (.min (flag 28 w) (bits 7 7 w) (bits 14 7 w) (bits 21 7 w))
  else if bits 29 3 w = 3 then some (.max (flag 28 w) (bits 7 7 w) (bits 14 7 w) (bits 21 7 w))
  else if bits 29 3 w = 4 then some (.minu (flag 28 w) (bits 7 7 w) (bits 14 7 w) (bits 21 7 w))
  else if bits 29 3 w = 5 then some (.maxu (flag 28 w) (bits 7 7 w) (bits 14 7 w) (bits 21 7 w))
  else none

/-- Major opcode 0x02 (R58). -/
def decode02 (w : W32) : Option Instr :=
  if bits 29 3 w = 0 then some (.mul (flag 28 w) (bits 7 7 w) (bits 14 7 w) (bits 21 7 w))
  else if bits 29 3 w = 1 then some (.mulh (flag 28 w) (bits 7 7 w) (bits 14 7 w) (bits 21 7 w))
  else if bits 29 3 w = 2 then some (.mulhu (flag 28 w) (bits 7 7 w) (bits 14 7 w) (bits 21 7 w))
  else if bits 29 3 w = 3 then some (.mulhsu (flag 28 w) (bits 7 7 w) (bits 14 7 w) (bits 21 7 w))
  else if bits 29 3 w = 4 then some (.div (flag 28 w) (bits 7 7 w) (bits 14 7 w) (bits 21 7 w))
  else if bits 29 3 w = 5 then some (.divu (flag 28 w) (bits 7 7 w) (bits 14 7 w) (bits 21 7 w))
  else if bits 29 3 w = 6 then some (.rem (flag 28 w) (bits 7 7 w) (bits 14 7 w) (bits 21 7 w))
  else if bits 29 3 w = 7 then some (.remu (flag 28 w) (bits 7 7 w) (bits 14 7 w) (bits 21 7 w))
  else none

/-- Major opcode 0x03 (R58). -/
def decode03 (w : W32) : Option Instr :=
  if bits 29 3 w = 0 ∧ bits 21 7 w = 0 then some (.home (flag 28 w) (bits 7 7 w) (bits 14 7 w))
  else if bits 29 3 w = 1 ∧ bits 21 7 w = 0 then some (.clz (flag 28 w) (bits 7 7 w) (bits 14 7 w))
  else if bits 29 3 w = 2 ∧ bits 21 7 w = 0 then some (.ctz (flag 28 w) (bits 7 7 w) (bits 14 7 w))
  else if bits 29 3 w = 3 ∧ bits 21 7 w = 0 then some (.popc (flag 28 w) (bits 7 7 w) (bits 14 7 w))
  else none

/-- Major opcode 0x04 (R58). -/
def decode04 (w : W32) : Option Instr :=
  some (.addi (bits 21 11 w) (bits 7 7 w) (bits 14 7 w))

/-- Major opcode 0x05 (R58). -/
def decode05 (w : W32) : Option Instr :=
  some (.andi (bits 21 11 w) (bits 7 7 w) (bits 14 7 w))

/-- Major opcode 0x06 (R58). -/
def decode06 (w : W32) : Option Instr :=
  some (.ori (bits 21 11 w) (bits 7 7 w) (bits 14 7 w))

/-- Major opcode 0x07 (R58). -/
def decode07 (w : W32) : Option Instr :=
  some (.xori (bits 21 11 w) (bits 7 7 w) (bits 14 7 w))

/-- Major opcode 0x08 (R58). -/
def decode08 (w : W32) : Option Instr :=
  if bits 27 5 w = 0 then some (.slli (bits 21 6 w) (bits 7 7 w) (bits 14 7 w))
  else none

/-- Major opcode 0x09 (R58). -/
def decode09 (w : W32) : Option Instr :=
  if bits 27 5 w = 0 then some (.srli (bits 21 6 w) (bits 7 7 w) (bits 14 7 w))
  else none

/-- Major opcode 0x0A (R58). -/
def decode0A (w : W32) : Option Instr :=
  if bits 27 5 w = 0 then some (.srai (bits 21 6 w) (bits 7 7 w) (bits 14 7 w))
  else none

/-- Major opcode 0x0B (R58). -/
def decode0B (w : W32) : Option Instr :=
  some (.slti (bits 21 11 w) (bits 7 7 w) (bits 14 7 w))

/-- Major opcode 0x0C (R58). -/
def decode0C (w : W32) : Option Instr :=
  some (.sltiu (bits 21 11 w) (bits 7 7 w) (bits 14 7 w))

/-- Major opcode 0x0D (R58). -/
def decode0D (w : W32) : Option Instr :=
  some (.lui (bits 14 18 w) (bits 7 7 w))

/-- Major opcode 0x0E (R58). -/
def decode0E (w : W32) : Option Instr :=
  some (.adpc (bits 14 18 w) (bits 7 7 w))

/-- Major opcode 0x10 (R58). -/
def decode10 (w : W32) : Option Instr :=
  if bits 21 3 w ≠ 7 then some (.ld (bits 24 8 w) (bits 21 3 w) (bits 7 7 w) (bits 14 7 w))
  else none

/-- Major opcode 0x11 (R58). -/
def decode11 (w : W32) : Option Instr :=
  if bits 21 3 w ≠ 7 then some (.ldBy (bits 24 8 w) (bits 21 3 w) (bits 7 7 w) (bits 14 7 w))
  else none

/-- Major opcode 0x12 (R58). -/
def decode12 (w : W32) : Option Instr :=
  if bits 23 1 w = 0 then some (.st (bits 24 8 w) (bits 21 2 w) (bits 14 7 w) (bits 7 7 w))
  else none

/-- Major opcode 0x13 (R58). -/
def decode13 (w : W32) : Option Instr :=
  if bits 21 3 w ≠ 7 then some (.lds (bits 24 8 w) (bits 21 3 w) (bits 7 7 w) (bits 14 7 w))
  else none

/-- Major opcode 0x14 (R58). -/
def decode14 (w : W32) : Option Instr :=
  if bits 23 1 w = 0 then some (.sts (bits 24 8 w) (bits 21 2 w) (bits 14 7 w) (bits 7 7 w))
  else none

/-- Major opcode 0x18 (R58). -/
def decode18 (w : W32) : Option Instr :=
  some (.beq (bits 21 11 w) (bits 7 7 w) (bits 14 7 w))

/-- Major opcode 0x19 (R58). -/
def decode19 (w : W32) : Option Instr :=
  some (.bne (bits 21 11 w) (bits 7 7 w) (bits 14 7 w))

/-- Major opcode 0x1A (R58). -/
def decode1A (w : W32) : Option Instr :=
  some (.blt (bits 21 11 w) (bits 7 7 w) (bits 14 7 w))

/-- Major opcode 0x1B (R58). -/
def decode1B (w : W32) : Option Instr :=
  some (.bge (bits 21 11 w) (bits 7 7 w) (bits 14 7 w))

/-- Major opcode 0x1C (R58). -/
def decode1C (w : W32) : Option Instr :=
  some (.bltu (bits 21 11 w) (bits 7 7 w) (bits 14 7 w))

/-- Major opcode 0x1D (R58). -/
def decode1D (w : W32) : Option Instr :=
  some (.bgeu (bits 21 11 w) (bits 7 7 w) (bits 14 7 w))

/-- Major opcode 0x1E (R58). -/
def decode1E (w : W32) : Option Instr :=
  some (.jal (bits 14 18 w) (bits 7 7 w))

/-- Major opcode 0x1F (R58). -/
def decode1F (w : W32) : Option Instr :=
  some (.jalr (bits 21 11 w) (bits 7 7 w) (bits 14 7 w))

/-- Major opcode 0x20 (R58). -/
def decode20 (w : W32) : Option Instr :=
  some (.ldAcq (bits 22 2 w) (bits 24 8 w) (flag 21 w) (bits 7 7 w) (bits 14 7 w))

/-- Major opcode 0x21 (R58). -/
def decode21 (w : W32) : Option Instr :=
  some (.stRel (bits 22 2 w) (bits 24 8 w) (flag 21 w) (bits 14 7 w) (bits 7 7 w))

/-- Major opcode 0x22 (R58). -/
def decode22 (w : W32) : Option Instr :=
  if bits 29 3 w = 0 then some (.amoAdd (flag 28 w) (bits 7 7 w) (bits 14 7 w) (bits 21 7 w))
  else if bits 29 3 w = 1 then some (.amoAnd (flag 28 w) (bits 7 7 w) (bits 14 7 w) (bits 21 7 w))
  else if bits 29 3 w = 2 then some (.amoOr (flag 28 w) (bits 7 7 w) (bits 14 7 w) (bits 21 7 w))
  else if bits 29 3 w = 3 then some (.amoXor (flag 28 w) (bits 7 7 w) (bits 14 7 w) (bits 21 7 w))
  else if bits 29 3 w = 4 then some (.amoSwap (flag 28 w) (bits 7 7 w) (bits 14 7 w) (bits 21 7 w))
  else if bits 29 3 w = 5 then some (.amoMin (flag 28 w) (bits 7 7 w) (bits 14 7 w) (bits 21 7 w))
  else if bits 29 3 w = 6 then some (.amoMax (flag 28 w) (bits 7 7 w) (bits 14 7 w) (bits 21 7 w))
  else if bits 29 3 w = 7 then some (.amoCas (flag 28 w) (bits 7 7 w) (bits 14 7 w) (bits 21 7 w))
  else none

/-- Major opcode 0x23 (R58). -/
def decode23 (w : W32) : Option Instr :=
  if bits 29 3 w = 0 then some (.amoAddAcq (flag 28 w) (bits 7 7 w) (bits 14 7 w) (bits 21 7 w))
  else if bits 29 3 w = 1 then some (.amoAndAcq (flag 28 w) (bits 7 7 w) (bits 14 7 w) (bits 21 7 w))
  else if bits 29 3 w = 2 then some (.amoOrAcq (flag 28 w) (bits 7 7 w) (bits 14 7 w) (bits 21 7 w))
  else if bits 29 3 w = 3 then some (.amoXorAcq (flag 28 w) (bits 7 7 w) (bits 14 7 w) (bits 21 7 w))
  else if bits 29 3 w = 4 then some (.amoSwapAcq (flag 28 w) (bits 7 7 w) (bits 14 7 w) (bits 21 7 w))
  else if bits 29 3 w = 5 then some (.amoMinAcq (flag 28 w) (bits 7 7 w) (bits 14 7 w) (bits 21 7 w))
  else if bits 29 3 w = 6 then some (.amoMaxAcq (flag 28 w) (bits 7 7 w) (bits 14 7 w) (bits 21 7 w))
  else if bits 29 3 w = 7 then some (.amoCasAcq (flag 28 w) (bits 7 7 w) (bits 14 7 w) (bits 21 7 w))
  else none

/-- Major opcode 0x24 (R58). -/
def decode24 (w : W32) : Option Instr :=
  if bits 29 3 w = 0 then some (.amoAddRel (flag 28 w) (bits 7 7 w) (bits 14 7 w) (bits 21 7 w))
  else if bits 29 3 w = 1 then some (.amoAndRel (flag 28 w) (bits 7 7 w) (bits 14 7 w) (bits 21 7 w))
  else if bits 29 3 w = 2 then some (.amoOrRel (flag 28 w) (bits 7 7 w) (bits 14 7 w) (bits 21 7 w))
  else if bits 29 3 w = 3 then some (.amoXorRel (flag 28 w) (bits 7 7 w) (bits 14 7 w) (bits 21 7 w))
  else if bits 29 3 w = 4 then some (.amoSwapRel (flag 28 w) (bits 7 7 w) (bits 14 7 w) (bits 21 7 w))
  else if bits 29 3 w = 5 then some (.amoMinRel (flag 28 w) (bits 7 7 w) (bits 14 7 w) (bits 21 7 w))
  else if bits 29 3 w = 6 then some (.amoMaxRel (flag 28 w) (bits 7 7 w) (bits 14 7 w) (bits 21 7 w))
  else if bits 29 3 w = 7 then some (.amoCasRel (flag 28 w) (bits 7 7 w) (bits 14 7 w) (bits 21 7 w))
  else none

/-- Major opcode 0x25 (R58). -/
def decode25 (w : W32) : Option Instr :=
  if bits 29 3 w = 0 then some (.amoAddAr (flag 28 w) (bits 7 7 w) (bits 14 7 w) (bits 21 7 w))
  else if bits 29 3 w = 1 then some (.amoAndAr (flag 28 w) (bits 7 7 w) (bits 14 7 w) (bits 21 7 w))
  else if bits 29 3 w = 2 then some (.amoOrAr (flag 28 w) (bits 7 7 w) (bits 14 7 w) (bits 21 7 w))
  else if bits 29 3 w = 3 then some (.amoXorAr (flag 28 w) (bits 7 7 w) (bits 14 7 w) (bits 21 7 w))
  else if bits 29 3 w = 4 then some (.amoSwapAr (flag 28 w) (bits 7 7 w) (bits 14 7 w) (bits 21 7 w))
  else if bits 29 3 w = 5 then some (.amoMinAr (flag 28 w) (bits 7 7 w) (bits 14 7 w) (bits 21 7 w))
  else if bits 29 3 w = 6 then some (.amoMaxAr (flag 28 w) (bits 7 7 w) (bits 14 7 w) (bits 21 7 w))
  else if bits 29 3 w = 7 then some (.amoCasAr (flag 28 w) (bits 7 7 w) (bits 14 7 w) (bits 21 7 w))
  else none

/-- Major opcode 0x26 (R58). -/
def decode26 (w : W32) : Option Instr :=
  if bits 29 3 w = 0 then some (.amoMinu (flag 28 w) (bits 7 7 w) (bits 14 7 w) (bits 21 7 w))
  else if bits 29 3 w = 1 then some (.amoMaxu (flag 28 w) (bits 7 7 w) (bits 14 7 w) (bits 21 7 w))
  else if bits 29 3 w = 2 then some (.amoFaddD (flag 28 w) (bits 7 7 w) (bits 14 7 w) (bits 21 7 w))
  else if bits 29 3 w = 3 then some (.amoFaddW (flag 28 w) (bits 7 7 w) (bits 14 7 w) (bits 21 7 w))
  else if bits 29 3 w = 4 then some (.amoFaddH (flag 28 w) (bits 7 7 w) (bits 14 7 w) (bits 21 7 w))
  else if bits 29 3 w = 5 then some (.amoBfadd (flag 28 w) (bits 7 7 w) (bits 14 7 w) (bits 21 7 w))
  else none

/-- Major opcode 0x27 (R58). -/
def decode27 (w : W32) : Option Instr :=
  if bits 29 3 w = 0 then some (.amoMinuAcq (flag 28 w) (bits 7 7 w) (bits 14 7 w) (bits 21 7 w))
  else if bits 29 3 w = 1 then some (.amoMaxuAcq (flag 28 w) (bits 7 7 w) (bits 14 7 w) (bits 21 7 w))
  else if bits 29 3 w = 2 then some (.amoFaddDAcq (flag 28 w) (bits 7 7 w) (bits 14 7 w) (bits 21 7 w))
  else if bits 29 3 w = 3 then some (.amoFaddWAcq (flag 28 w) (bits 7 7 w) (bits 14 7 w) (bits 21 7 w))
  else if bits 29 3 w = 4 then some (.amoFaddHAcq (flag 28 w) (bits 7 7 w) (bits 14 7 w) (bits 21 7 w))
  else if bits 29 3 w = 5 then some (.amoBfaddAcq (flag 28 w) (bits 7 7 w) (bits 14 7 w) (bits 21 7 w))
  else none

/-- Major opcode 0x28 (R58). -/
def decode28 (w : W32) : Option Instr :=
  if bits 29 3 w = 0 then some (.amoMinuRel (flag 28 w) (bits 7 7 w) (bits 14 7 w) (bits 21 7 w))
  else if bits 29 3 w = 1 then some (.amoMaxuRel (flag 28 w) (bits 7 7 w) (bits 14 7 w) (bits 21 7 w))
  else if bits 29 3 w = 2 then some (.amoFaddDRel (flag 28 w) (bits 7 7 w) (bits 14 7 w) (bits 21 7 w))
  else if bits 29 3 w = 3 then some (.amoFaddWRel (flag 28 w) (bits 7 7 w) (bits 14 7 w) (bits 21 7 w))
  else if bits 29 3 w = 4 then some (.amoFaddHRel (flag 28 w) (bits 7 7 w) (bits 14 7 w) (bits 21 7 w))
  else if bits 29 3 w = 5 then some (.amoBfaddRel (flag 28 w) (bits 7 7 w) (bits 14 7 w) (bits 21 7 w))
  else none

/-- Major opcode 0x29 (R58). -/
def decode29 (w : W32) : Option Instr :=
  if bits 29 3 w = 0 then some (.amoMinuAr (flag 28 w) (bits 7 7 w) (bits 14 7 w) (bits 21 7 w))
  else if bits 29 3 w = 1 then some (.amoMaxuAr (flag 28 w) (bits 7 7 w) (bits 14 7 w) (bits 21 7 w))
  else if bits 29 3 w = 2 then some (.amoFaddDAr (flag 28 w) (bits 7 7 w) (bits 14 7 w) (bits 21 7 w))
  else if bits 29 3 w = 3 then some (.amoFaddWAr (flag 28 w) (bits 7 7 w) (bits 14 7 w) (bits 21 7 w))
  else if bits 29 3 w = 4 then some (.amoFaddHAr (flag 28 w) (bits 7 7 w) (bits 14 7 w) (bits 21 7 w))
  else if bits 29 3 w = 5 then some (.amoBfaddAr (flag 28 w) (bits 7 7 w) (bits 14 7 w) (bits 21 7 w))
  else none

/-- Major opcode 0x2A (R58). -/
def decode2A (w : W32) : Option Instr :=
  if bits 29 3 w = 0 then some (.amosAdd (flag 28 w) (bits 7 7 w) (bits 14 7 w) (bits 21 7 w))
  else if bits 29 3 w = 1 then some (.amosAnd (flag 28 w) (bits 7 7 w) (bits 14 7 w) (bits 21 7 w))
  else if bits 29 3 w = 2 then some (.amosOr (flag 28 w) (bits 7 7 w) (bits 14 7 w) (bits 21 7 w))
  else if bits 29 3 w = 3 then some (.amosXor (flag 28 w) (bits 7 7 w) (bits 14 7 w) (bits 21 7 w))
  else if bits 29 3 w = 4 then some (.amosSwap (flag 28 w) (bits 7 7 w) (bits 14 7 w) (bits 21 7 w))
  else if bits 29 3 w = 5 then some (.amosMin (flag 28 w) (bits 7 7 w) (bits 14 7 w) (bits 21 7 w))
  else if bits 29 3 w = 6 then some (.amosMax (flag 28 w) (bits 7 7 w) (bits 14 7 w) (bits 21 7 w))
  else if bits 29 3 w = 7 then some (.amosCas (flag 28 w) (bits 7 7 w) (bits 14 7 w) (bits 21 7 w))
  else none

/-- Major opcode 0x2B (R58). -/
def decode2B (w : W32) : Option Instr :=
  if bits 29 3 w = 0 then some (.amosMinu (flag 28 w) (bits 7 7 w) (bits 14 7 w) (bits 21 7 w))
  else if bits 29 3 w = 1 then some (.amosMaxu (flag 28 w) (bits 7 7 w) (bits 14 7 w) (bits 21 7 w))
  else if bits 29 3 w = 2 then some (.amosFaddD (flag 28 w) (bits 7 7 w) (bits 14 7 w) (bits 21 7 w))
  else if bits 29 3 w = 3 then some (.amosFaddW (flag 28 w) (bits 7 7 w) (bits 14 7 w) (bits 21 7 w))
  else if bits 29 3 w = 4 then some (.amosFaddH (flag 28 w) (bits 7 7 w) (bits 14 7 w) (bits 21 7 w))
  else if bits 29 3 w = 5 then some (.amosBfadd (flag 28 w) (bits 7 7 w) (bits 14 7 w) (bits 21 7 w))
  else none

/-- Major opcode 0x2C (R58). -/
def decode2C (w : W32) : Option Instr :=
  if bits 29 3 w = 0 ∧ bits 28 1 w = 0 ∧ bits 21 7 w = 0 ∧ bits 14 7 w = 0 ∧ bits 7 7 w = 0 then some (.fenceCore)
  else if bits 29 3 w = 1 ∧ bits 28 1 w = 0 ∧ bits 21 7 w = 0 ∧ bits 14 7 w = 0 ∧ bits 7 7 w = 0 then some (.fenceDie)
  else if bits 29 3 w = 2 ∧ bits 28 1 w = 0 ∧ bits 21 7 w = 0 ∧ bits 14 7 w = 0 ∧ bits 7 7 w = 0 then some (.fencePkg)
  else if bits 29 3 w = 3 ∧ bits 28 1 w = 0 ∧ bits 21 7 w = 0 ∧ bits 14 7 w = 0 ∧ bits 7 7 w = 0 then some (.fenceDom)
  else none

/-- Major opcode 0x2D (R58). -/
def decode2D (w : W32) : Option Instr :=
  if bits 29 3 w = 0 ∧ bits 7 7 w = 0 then some (.depAdd (flag 28 w) (bits 14 7 w) (bits 21 7 w))
  else if bits 29 3 w = 1 ∧ bits 7 7 w = 0 then some (.depMax (flag 28 w) (bits 14 7 w) (bits 21 7 w))
  else if bits 29 3 w = 2 ∧ bits 21 7 w = 0 then some (.peek (flag 28 w) (bits 7 7 w) (bits 14 7 w))
  else if bits 29 3 w = 3 then some (.sense (flag 28 w) (bits 7 7 w) (bits 14 7 w) (bits 21 7 w))
  else if bits 29 3 w = 4 ∧ bits 7 7 w = 0 then some (.depAddRel (flag 28 w) (bits 14 7 w) (bits 21 7 w))
  else if bits 29 3 w = 5 ∧ bits 7 7 w = 0 then some (.depMaxRel (flag 28 w) (bits 14 7 w) (bits 21 7 w))
  else none

/-- Major opcode 0x2E (R58). -/
def decode2E (w : W32) : Option Instr :=
  if bits 29 3 w = 0 ∧ bits 21 7 w = 0 ∧ bits 7 7 w = 0 then some (.tick (flag 28 w) (bits 14 7 w))
  else none

/-- Major opcode 0x30 (R58). -/
def decode30 (w : W32) : Option Instr :=
  some (.fadd (flag 31 w) (bits 29 2 w) (flag 28 w) (bits 7 7 w) (bits 14 7 w) (bits 21 7 w))

/-- Major opcode 0x31 (R58). -/
def decode31 (w : W32) : Option Instr :=
  some (.fsub (flag 31 w) (bits 29 2 w) (flag 28 w) (bits 7 7 w) (bits 14 7 w) (bits 21 7 w))

/-- Major opcode 0x32 (R58). -/
def decode32 (w : W32) : Option Instr :=
  some (.fmul (flag 31 w) (bits 29 2 w) (flag 28 w) (bits 7 7 w) (bits 14 7 w) (bits 21 7 w))

/-- Major opcode 0x33 (R58). -/
def decode33 (w : W32) : Option Instr :=
  some (.fdiv (flag 31 w) (bits 29 2 w) (flag 28 w) (bits 7 7 w) (bits 14 7 w) (bits 21 7 w))

/-- Major opcode 0x34 (R58). -/
def decode34 (w : W32) : Option Instr :=
  some (.fma (flag 31 w) (bits 29 2 w) (flag 28 w) (bits 7 7 w) (bits 14 7 w) (bits 21 7 w))

/-- Major opcode 0x35 (R58). -/
def decode35 (w : W32) : Option Instr :=
  some (.fnma (flag 31 w) (bits 29 2 w) (flag 28 w) (bits 7 7 w) (bits 14 7 w) (bits 21 7 w))

/-- Major opcode 0x36 (R58). -/
def decode36 (w : W32) : Option Instr :=
  if bits 21 7 w = 0 then some (.fsqrt (flag 31 w) (bits 29 2 w) (flag 28 w) (bits 7 7 w) (bits 14 7 w))
  else none

/-- Major opcode 0x37 (R58). -/
def decode37 (w : W32) : Option Instr :=
  if bits 29 3 w = 0 then some (.fminW (flag 28 w) (bits 7 7 w) (bits 14 7 w) (bits 21 7 w))
  else if bits 29 3 w = 1 then some (.fmaxW (flag 28 w) (bits 7 7 w) (bits 14 7 w) (bits 21 7 w))
  else if bits 29 3 w = 2 then some (.feqW (flag 28 w) (bits 7 7 w) (bits 14 7 w) (bits 21 7 w))
  else if bits 29 3 w = 3 then some (.fltW (flag 28 w) (bits 7 7 w) (bits 14 7 w) (bits 21 7 w))
  else if bits 29 3 w = 4 then some (.fleW (flag 28 w) (bits 7 7 w) (bits 14 7 w) (bits 21 7 w))
  else if bits 29 3 w = 5 then some (.fsgnjW (flag 28 w) (bits 7 7 w) (bits 14 7 w) (bits 21 7 w))
  else if bits 29 3 w = 6 then some (.fsgnjnW (flag 28 w) (bits 7 7 w) (bits 14 7 w) (bits 21 7 w))
  else if bits 29 3 w = 7 ∧ bits 21 7 w = 0 then some (.fclassW (flag 28 w) (bits 7 7 w) (bits 14 7 w))
  else none

/-- Major opcode 0x38 (R58). -/
def decode38 (w : W32) : Option Instr :=
  if bits 29 3 w = 0 then some (.fminD (flag 28 w) (bits 7 7 w) (bits 14 7 w) (bits 21 7 w))
  else if bits 29 3 w = 1 then some (.fmaxD (flag 28 w) (bits 7 7 w) (bits 14 7 w) (bits 21 7 w))
  else if bits 29 3 w = 2 then some (.feqD (flag 28 w) (bits 7 7 w) (bits 14 7 w) (bits 21 7 w))
  else if bits 29 3 w = 3 then some (.fltD (flag 28 w) (bits 7 7 w) (bits 14 7 w) (bits 21 7 w))
  else if bits 29 3 w = 4 then some (.fleD (flag 28 w) (bits 7 7 w) (bits 14 7 w) (bits 21 7 w))
  else if bits 29 3 w = 5 then some (.fsgnjD (flag 28 w) (bits 7 7 w) (bits 14 7 w) (bits 21 7 w))
  else if bits 29 3 w = 6 then some (.fsgnjnD (flag 28 w) (bits 7 7 w) (bits 14 7 w) (bits 21 7 w))
  else if bits 29 3 w = 7 ∧ bits 21 7 w = 0 then some (.fclassD (flag 28 w) (bits 7 7 w) (bits 14 7 w))
  else none

/-- Major opcode 0x39 (R58). -/
def decode39 (w : W32) : Option Instr :=
  if bits 31 1 w = 0 ∧ bits 21 7 w = 0 then some (.cvtSD (bits 29 2 w) (flag 28 w) (bits 7 7 w) (bits 14 7 w))
  else if bits 31 1 w = 1 ∧ bits 29 2 w = 0 ∧ bits 21 7 w = 0 then some (.cvtDS (flag 28 w) (bits 7 7 w) (bits 14 7 w))
  else none

/-- Major opcode 0x3A (R58). -/
def decode3A (w : W32) : Option Instr :=
  if bits 31 1 w = 0 ∧ bits 21 7 w = 0 then some (.cvtHS (bits 29 2 w) (flag 28 w) (bits 7 7 w) (bits 14 7 w))
  else if bits 31 1 w = 1 ∧ bits 29 2 w = 0 ∧ bits 21 7 w = 0 then some (.cvtSH (flag 28 w) (bits 7 7 w) (bits 14 7 w))
  else none

/-- Major opcode 0x3B (R58). -/
def decode3B (w : W32) : Option Instr :=
  if bits 31 1 w = 0 ∧ bits 21 7 w = 0 then some (.cvtBfS (bits 29 2 w) (flag 28 w) (bits 7 7 w) (bits 14 7 w))
  else if bits 31 1 w = 1 ∧ bits 29 2 w = 0 ∧ bits 21 7 w = 0 then some (.cvtSBf (flag 28 w) (bits 7 7 w) (bits 14 7 w))
  else none

/-- Major opcode 0x3C (R58). -/
def decode3C (w : W32) : Option Instr :=
  if bits 31 1 w = 0 ∧ bits 21 7 w = 0 then some (.cvtSL (bits 29 2 w) (flag 28 w) (bits 7 7 w) (bits 14 7 w))
  else if bits 31 1 w = 1 ∧ bits 21 7 w = 0 then some (.cvtDL (bits 29 2 w) (flag 28 w) (bits 7 7 w) (bits 14 7 w))
  else none

/-- Major opcode 0x3D (R58). -/
def decode3D (w : W32) : Option Instr :=
  if bits 31 1 w = 0 ∧ bits 21 7 w = 0 then some (.cvtLS (bits 29 2 w) (flag 28 w) (bits 7 7 w) (bits 14 7 w))
  else if bits 31 1 w = 1 ∧ bits 21 7 w = 0 then some (.cvtLD (bits 29 2 w) (flag 28 w) (bits 7 7 w) (bits 14 7 w))
  else none

/-- Major opcode 0x3E (R58). -/
def decode3E (w : W32) : Option Instr :=
  if bits 31 1 w = 0 ∧ bits 21 7 w = 0 then some (.cvtDLu (bits 29 2 w) (flag 28 w) (bits 7 7 w) (bits 14 7 w))
  else if bits 31 1 w = 1 ∧ bits 21 7 w = 0 then some (.cvtLuD (bits 29 2 w) (flag 28 w) (bits 7 7 w) (bits 14 7 w))
  else none

/-- Major opcode 0x40 (R58). -/
def decode40 (w : W32) : Option Instr :=
  some (.vadd (flag 31 w) (bits 29 2 w) (flag 28 w) (bits 7 7 w) (bits 14 7 w) (bits 21 7 w))

/-- Major opcode 0x41 (R58). -/
def decode41 (w : W32) : Option Instr :=
  some (.vsub (flag 31 w) (bits 29 2 w) (flag 28 w) (bits 7 7 w) (bits 14 7 w) (bits 21 7 w))

/-- Major opcode 0x42 (R58). -/
def decode42 (w : W32) : Option Instr :=
  some (.vmul (flag 31 w) (bits 29 2 w) (flag 28 w) (bits 7 7 w) (bits 14 7 w) (bits 21 7 w))

/-- Major opcode 0x43 (R58). -/
def decode43 (w : W32) : Option Instr :=
  some (.vfma (flag 31 w) (bits 29 2 w) (flag 28 w) (bits 7 7 w) (bits 14 7 w) (bits 21 7 w))

/-- Major opcode 0x44 (R58). -/
def decode44 (w : W32) : Option Instr :=
  if bits 29 3 w = 0 then some (.vminW (flag 28 w) (bits 7 7 w) (bits 14 7 w) (bits 21 7 w))
  else if bits 29 3 w = 1 then some (.vmaxW (flag 28 w) (bits 7 7 w) (bits 14 7 w) (bits 21 7 w))
  else if bits 29 3 w = 2 then some (.vminD (flag 28 w) (bits 7 7 w) (bits 14 7 w) (bits 21 7 w))
  else if bits 29 3 w = 3 then some (.vmaxD (flag 28 w) (bits 7 7 w) (bits 14 7 w) (bits 21 7 w))
  else if bits 29 3 w = 4 ∧ bits 21 7 w = 0 then some (.vcpy (flag 28 w) (bits 7 7 w) (bits 14 7 w))
  else none

/-- Major opcode 0x45 (R58). -/
def decode45 (w : W32) : Option Instr :=
  if bits 29 3 w = 0 ∧ bits 21 7 w = 0 then some (.vcvtHS (flag 28 w) (bits 7 7 w) (bits 14 7 w))
  else if bits 29 3 w = 1 ∧ bits 21 7 w = 0 then some (.vcvtSH (flag 28 w) (bits 7 7 w) (bits 14 7 w))
  else if bits 29 3 w = 2 ∧ bits 21 7 w = 0 then some (.vcvtBfS (flag 28 w) (bits 7 7 w) (bits 14 7 w))
  else if bits 29 3 w = 3 ∧ bits 21 7 w = 0 then some (.vcvtSBf (flag 28 w) (bits 7 7 w) (bits 14 7 w))
  else if bits 29 3 w = 4 then some (.vcvtBd8S (flag 28 w) (bits 7 7 w) (bits 14 7 w) (bits 21 7 w))
  else if bits 29 3 w = 5 then some (.vcvtSBd8 (flag 28 w) (bits 7 7 w) (bits 14 7 w) (bits 21 7 w))
  else if bits 29 3 w = 6 then some (.vcvtBd4S (flag 28 w) (bits 7 7 w) (bits 14 7 w) (bits 21 7 w))
  else if bits 29 3 w = 7 then some (.vcvtSBd4 (flag 28 w) (bits 7 7 w) (bits 14 7 w) (bits 21 7 w))
  else none

/-- Major opcode 0x46 (R58). -/
def decode46 (w : W32) : Option Instr :=
  if bits 29 3 w = 0 ∧ bits 21 7 w = 0 then some (.sfuExp2 (flag 28 w) (bits 7 7 w) (bits 14 7 w))
  else if bits 29 3 w = 1 ∧ bits 21 7 w = 0 then some (.sfuLog2 (flag 28 w) (bits 7 7 w) (bits 14 7 w))
  else if bits 29 3 w = 2 ∧ bits 21 7 w = 0 then some (.sfuRcp (flag 28 w) (bits 7 7 w) (bits 14 7 w))
  else if bits 29 3 w = 3 ∧ bits 21 7 w = 0 then some (.sfuRsq (flag 28 w) (bits 7 7 w) (bits 14 7 w))
  else if bits 29 3 w = 4 ∧ bits 21 7 w = 0 then some (.sfuSin (flag 28 w) (bits 7 7 w) (bits 14 7 w))
  else if bits 29 3 w = 5 ∧ bits 21 7 w = 0 then some (.sfuCos (flag 28 w) (bits 7 7 w) (bits 14 7 w))
  else if bits 29 3 w = 6 ∧ bits 21 7 w = 0 then some (.sfuTanh (flag 28 w) (bits 7 7 w) (bits 14 7 w))
  else if bits 29 3 w = 7 ∧ bits 21 7 w = 0 then some (.sfuSigm (flag 28 w) (bits 7 7 w) (bits 14 7 w))
  else none

/-- Major opcode 0x47 (R58). -/
def decode47 (w : W32) : Option Instr :=
  if bits 29 3 w = 0 ∧ bits 21 7 w = 0 then some (.sbindIn (flag 28 w) (bits 7 7 w) (bits 14 7 w))
  else if bits 29 3 w = 1 ∧ bits 21 7 w = 0 then some (.sbindOut (flag 28 w) (bits 7 7 w) (bits 14 7 w))
  else if bits 29 3 w = 2 ∧ bits 28 1 w = 0 ∧ bits 21 7 w = 0 ∧ bits 14 7 w = 0 then some (.sunbind (bits 7 7 w))
  else none

/-- Major opcode 0x48 (R58). -/
def decode48 (w : W32) : Option Instr :=
  if bits 29 3 w = 0 ∧ bits 21 7 w = 0 ∧ bits 7 7 w = 0 then some (.ctab (flag 28 w) (bits 14 7 w))
  else none

/-- Major opcode 0x50 (R58). -/
def decode50 (w : W32) : Option Instr :=
  if bits 29 3 w = 0 ∧ bits 13 1 w = 0 ∧ bits 12 1 w = 0 then some (.mma (flag 28 w) (flag 11 w) (bits 7 4 w) (bits 14 7 w) (bits 21 7 w))
  else if bits 29 3 w = 0 ∧ bits 13 1 w = 0 ∧ bits 12 1 w = 1 then some (.mmaZ (flag 28 w) (flag 11 w) (bits 7 4 w) (bits 14 7 w) (bits 21 7 w))
  else if bits 29 3 w = 1 ∧ bits 21 7 w = 0 ∧ bits 13 1 w = 0 ∧ bits 12 1 w = 0 then some (.mmaRot (flag 28 w) (flag 11 w) (bits 7 4 w) (bits 14 7 w))
  else if bits 29 3 w = 1 ∧ bits 21 7 w = 0 ∧ bits 13 1 w = 0 ∧ bits 12 1 w = 1 then some (.mmaRotZ (flag 28 w) (flag 11 w) (bits 7 4 w) (bits 14 7 w))
  else if bits 29 3 w = 1 ∧ bits 13 1 w = 1 ∧ bits 12 1 w = 0 then some (.mmaRotSd (flag 28 w) (flag 11 w) (bits 7 4 w) (bits 14 7 w) (bits 21 7 w))
  else if bits 29 3 w = 1 ∧ bits 13 1 w = 1 ∧ bits 12 1 w = 1 then some (.mmaRotSdZ (flag 28 w) (flag 11 w) (bits 7 4 w) (bits 14 7 w) (bits 21 7 w))
  else none

/-- Major opcode 0x51 (R58). -/
def decode51 (w : W32) : Option Instr :=
  if bits 29 3 w = 0 ∧ bits 13 1 w = 0 ∧ bits 12 1 w = 0 ∧ bits 7 4 w = 0 then some (.mstc (flag 28 w) (flag 11 w) (bits 14 7 w) (bits 21 7 w))
  else if bits 29 3 w = 1 ∧ bits 13 1 w = 0 ∧ bits 12 1 w = 0 ∧ bits 7 4 w = 0 then some (.mldc (flag 28 w) (flag 11 w) (bits 14 7 w) (bits 21 7 w))
  else none

/-- Major opcode 0x52 (R58). -/
def decode52 (w : W32) : Option Instr :=
  if bits 29 3 w = 0 ∧ bits 28 1 w = 0 ∧ bits 21 7 w = 0 ∧ bits 14 7 w = 0 then some (.mcommit (bits 7 7 w))
  else if bits 29 3 w = 1 ∧ bits 21 7 w = 0 ∧ bits 7 7 w = 0 then some (.mwait (flag 28 w) (bits 14 7 w))
  else none

/-- Major opcode 0x53 (R58). -/
def decode53 (w : W32) : Option Instr :=
  if bits 29 3 w = 0 ∧ bits 11 3 w = 0 ∧ bits 10 1 w = 0 ∧ bits 9 1 w = 0 then some (.cpyGg (flag 28 w) (bits 7 2 w) (bits 14 7 w) (bits 21 7 w))
  else if bits 29 3 w = 0 ∧ bits 11 3 w = 0 ∧ bits 10 1 w = 1 ∧ bits 9 1 w = 0 then some (.cpyGs (flag 28 w) (bits 7 2 w) (bits 14 7 w) (bits 21 7 w))
  else if bits 29 3 w = 0 ∧ bits 11 3 w = 0 ∧ bits 10 1 w = 0 ∧ bits 9 1 w = 1 then some (.cpySg (flag 28 w) (bits 7 2 w) (bits 14 7 w) (bits 21 7 w))
  else if bits 29 3 w = 0 ∧ bits 11 3 w = 0 ∧ bits 10 1 w = 1 ∧ bits 9 1 w = 1 then some (.cpySs (flag 28 w) (bits 7 2 w) (bits 14 7 w) (bits 21 7 w))
  else if bits 29 3 w = 1 ∧ bits 21 7 w = 0 ∧ bits 11 3 w = 0 ∧ bits 10 1 w = 0 ∧ bits 9 1 w = 0 then some (.cpySub (flag 28 w) (bits 7 2 w) (bits 14 7 w))
  else if bits 29 3 w = 1 ∧ bits 21 7 w = 0 ∧ bits 11 3 w = 0 ∧ bits 10 1 w = 1 ∧ bits 9 1 w = 0 then some (.cpySubPull (flag 28 w) (bits 7 2 w) (bits 14 7 w))
  else if bits 29 3 w = 1 ∧ bits 21 7 w = 0 ∧ bits 11 3 w = 0 ∧ bits 10 1 w = 0 ∧ bits 9 1 w = 1 then some (.cpySubRet (flag 28 w) (bits 7 2 w) (bits 14 7 w))
  else none

/-- Major opcode 0x54 (R58). -/
def decode54 (w : W32) : Option Instr :=
  if bits 29 3 w = 0 ∧ bits 28 1 w = 0 ∧ bits 21 7 w = 0 ∧ bits 14 7 w = 0 ∧ bits 7 7 w = 0 then some (.cfence)
  else if bits 29 3 w = 1 ∧ bits 7 7 w = 0 then some (.cwait (flag 28 w) (bits 14 7 w) (bits 21 7 w))
  else none

/-- Major opcode 0x60 (R58). -/
def decode60 (w : W32) : Option Instr :=
  if bits 29 3 w = 0 then some (.spawn (flag 28 w) (bits 7 7 w) (bits 14 7 w) (bits 21 7 w))
  else none

/-- Major opcode 0x61 (R58). -/
def decode61 (w : W32) : Option Instr :=
  if bits 29 3 w = 0 ∧ bits 21 7 w = 0 ∧ bits 7 7 w = 0 then some (.go (flag 28 w) (bits 14 7 w))
  else if bits 29 3 w = 1 ∧ bits 28 1 w = 0 ∧ bits 21 7 w = 0 ∧ bits 14 7 w = 0 ∧ bits 7 7 w = 0 then some (.quit)
  else if bits 29 3 w = 2 ∧ bits 28 1 w = 0 ∧ bits 21 7 w = 0 ∧ bits 14 7 w = 0 ∧ bits 7 7 w = 0 then some (.yield)
  else if bits 29 3 w = 3 ∧ bits 7 7 w = 0 then some (.park (flag 28 w) (bits 14 7 w) (bits 21 7 w))
  else none

/-- Major opcode 0x62 (R58). -/
def decode62 (w : W32) : Option Instr :=
  if bits 29 3 w = 0 ∧ bits 21 7 w = 0 then some (.join (flag 28 w) (bits 7 7 w) (bits 14 7 w))
  else if bits 29 3 w = 1 ∧ bits 21 7 w = 0 then some (.leave (flag 28 w) (bits 7 7 w) (bits 14 7 w))
  else if bits 29 3 w = 2 ∧ bits 21 7 w = 0 then some (.bar (flag 28 w) (bits 7 7 w) (bits 14 7 w))
  else none

/-- Major opcode 0x63 (R58). -/
def decode63 (w : W32) : Option Instr :=
  if bits 29 3 w = 0 ∧ bits 21 7 w = 0 ∧ bits 7 7 w = 0 then some (.tsig (flag 28 w) (bits 14 7 w))
  else none

/-- Major opcode 0x68 (R58). -/
def decode68 (w : W32) : Option Instr :=
  if bits 29 3 w = 0 ∧ bits 28 1 w = 0 ∧ bits 25 3 w = 0 ∧ bits 18 3 w = 0 ∧ bits 11 3 w = 0 then some (.kadd (bits 7 4 w) (bits 14 4 w) (bits 21 4 w))
  else if bits 29 3 w = 1 ∧ bits 28 1 w = 0 ∧ bits 25 3 w = 0 ∧ bits 18 3 w = 0 ∧ bits 11 3 w = 0 then some (.ksub (bits 7 4 w) (bits 14 4 w) (bits 21 4 w))
  else if bits 29 3 w = 2 ∧ bits 28 1 w = 0 ∧ bits 25 3 w = 0 ∧ bits 18 3 w = 0 ∧ bits 11 3 w = 0 then some (.kand (bits 7 4 w) (bits 14 4 w) (bits 21 4 w))
  else if bits 29 3 w = 3 ∧ bits 28 1 w = 0 ∧ bits 25 3 w = 0 ∧ bits 18 3 w = 0 ∧ bits 11 3 w = 0 then some (.kor (bits 7 4 w) (bits 14 4 w) (bits 21 4 w))
  else if bits 29 3 w = 4 ∧ bits 28 1 w = 0 ∧ bits 25 3 w = 0 ∧ bits 18 3 w = 0 ∧ bits 11 3 w = 0 then some (.kxor (bits 7 4 w) (bits 14 4 w) (bits 21 4 w))
  else if bits 29 3 w = 5 ∧ bits 28 1 w = 0 ∧ bits 25 3 w = 0 ∧ bits 18 3 w = 0 ∧ bits 11 3 w = 0 then some (.ksll (bits 7 4 w) (bits 14 4 w) (bits 21 4 w))
  else if bits 29 3 w = 6 ∧ bits 28 1 w = 0 ∧ bits 25 3 w = 0 ∧ bits 18 3 w = 0 ∧ bits 11 3 w = 0 then some (.ksrl (bits 7 4 w) (bits 14 4 w) (bits 21 4 w))
  else if bits 29 3 w = 7 ∧ bits 28 1 w = 0 ∧ bits 25 3 w = 0 ∧ bits 18 3 w = 0 ∧ bits 11 3 w = 0 then some (.kmul (bits 7 4 w) (bits 14 4 w) (bits 21 4 w))
  else none

/-- Major opcode 0x69 (R58). -/
def decode69 (w : W32) : Option Instr :=
  if bits 18 3 w = 0 ∧ bits 11 3 w = 0 then some (.kaddi (bits 21 11 w) (bits 7 4 w) (bits 14 4 w))
  else none

/-- Major opcode 0x6A (R58). -/
def decode6A (w : W32) : Option Instr :=
  if bits 18 3 w = 0 ∧ bits 11 3 w = 0 then some (.kbeq (bits 21 11 w) (bits 7 4 w) (bits 14 4 w))
  else none

/-- Major opcode 0x6B (R58). -/
def decode6B (w : W32) : Option Instr :=
  if bits 18 3 w = 0 ∧ bits 11 3 w = 0 then some (.kbne (bits 21 11 w) (bits 7 4 w) (bits 14 4 w))
  else none

/-- Major opcode 0x6C (R58). -/
def decode6C (w : W32) : Option Instr :=
  if bits 14 7 w = 0 ∧ bits 11 3 w = 0 then some (.kloop (bits 21 11 w) (bits 7 4 w))
  else none

/-- Major opcode 0x6D (R58). -/
def decode6D (w : W32) : Option Instr :=
  if bits 7 7 w = 0 then some (.kj (bits 14 18 w))
  else none

/-- Major opcode 0x6E (R58). -/
def decode6E (w : W32) : Option Instr :=
  if bits 29 3 w = 0 ∧ bits 21 7 w = 0 ∧ bits 11 3 w = 0 then some (.rowany (flag 28 w) (bits 7 4 w) (bits 14 7 w))
  else if bits 29 3 w = 1 ∧ bits 21 7 w = 0 ∧ bits 11 3 w = 0 then some (.rowall (flag 28 w) (bits 7 4 w) (bits 14 7 w))
  else none

/-- Major opcode 0x6F (R58). -/
def decode6F (w : W32) : Option Instr :=
  if bits 29 3 w = 0 ∧ bits 28 1 w = 0 ∧ bits 21 7 w = 0 ∧ bits 14 7 w = 0 ∧ bits 7 7 w = 0 then some (.rend)
  else none

/-- Major opcode 0x70 (R58). -/
def decode70 (w : W32) : Option Instr :=
  if bits 14 7 w = 0 then some (.csrr (bits 21 11 w) (bits 7 7 w))
  else none

/-- Major opcode 0x71 (R58). -/
def decode71 (w : W32) : Option Instr :=
  some (.csrrw (bits 21 11 w) (bits 7 7 w) (bits 14 7 w))

/-- Major opcode 0x72 (R58). -/
def decode72 (w : W32) : Option Instr :=
  some (.csrs (bits 21 11 w) (bits 7 7 w) (bits 14 7 w))

/-- Major opcode 0x73 (R58). -/
def decode73 (w : W32) : Option Instr :=
  some (.csrc (bits 21 11 w) (bits 7 7 w) (bits 14 7 w))

/-- Major opcode 0x74 (R58). -/
def decode74 (w : W32) : Option Instr :=
  if bits 29 3 w = 0 ∧ bits 28 1 w = 0 ∧ bits 21 7 w = 0 ∧ bits 14 7 w = 0 ∧ bits 7 7 w = 0 then some (.ecall)
  else if bits 29 3 w = 1 ∧ bits 28 1 w = 0 ∧ bits 21 7 w = 0 ∧ bits 14 7 w = 0 ∧ bits 7 7 w = 0 then some (.brk)
  else if bits 29 3 w = 2 ∧ bits 28 1 w = 0 ∧ bits 21 7 w = 0 ∧ bits 14 7 w = 0 ∧ bits 7 7 w = 0 then some (.tret)
  else none

/-- Major opcode 0x75 (R58). -/
def decode75 (w : W32) : Option Instr :=
  if bits 29 3 w = 0 ∧ bits 21 7 w = 0 ∧ bits 7 7 w = 0 then some (.tlbiVa (flag 28 w) (bits 14 7 w))
  else if bits 29 3 w = 1 ∧ bits 28 1 w = 0 ∧ bits 21 7 w = 0 ∧ bits 14 7 w = 0 ∧ bits 7 7 w = 0 then some (.tlbiVmid)
  else if bits 29 3 w = 2 ∧ bits 7 7 w = 0 then some (.tlbiS2 (flag 28 w) (bits 14 7 w) (bits 21 7 w))
  else if bits 29 3 w = 3 ∧ bits 28 1 w = 0 ∧ bits 21 7 w = 0 ∧ bits 14 7 w = 0 ∧ bits 7 7 w = 0 then some (.tlbiAll)
  else none

/-- Major opcode 0x76 (R58). -/
def decode76 (w : W32) : Option Instr :=
  if bits 29 3 w = 0 then some (.dline (flag 28 w) (bits 7 7 w) (bits 14 7 w) (bits 21 7 w))
  else if bits 29 3 w = 1 ∧ bits 21 7 w = 0 ∧ bits 7 7 w = 0 then some (.prog (flag 28 w) (bits 14 7 w))
  else none

/-- Major opcode 0x77 (R58). -/
def decode77 (w : W32) : Option Instr :=
  if bits 29 3 w = 0 ∧ bits 21 7 w = 0 ∧ bits 7 7 w = 0 then some (.pwrHint (flag 28 w) (bits 14 7 w))
  else none

/-- Major opcode 0x7F (R58). -/
def decode7F (w : W32) : Option Instr :=
  if bits 22 10 w = 0 ∧ bits 20 1 w = 0 then some (.rep (flag 21 w) (bits 18 2 w) (bits 16 2 w) (bits 14 2 w) (bits 7 7 w))
  else if bits 22 10 w = 0 ∧ bits 20 1 w = 1 then some (.repOs (flag 21 w) (bits 18 2 w) (bits 16 2 w) (bits 14 2 w) (bits 7 7 w))
  else none

/-- The instruction a word encodes, by its major opcode (R51, R58); `none` where R57 makes the word ILLOP. -/
def decode (w : W32) : Option Instr :=
  match (bits 0 7 w).toNat with
  | 0x00 => decode00 w
  | 0x01 => decode01 w
  | 0x02 => decode02 w
  | 0x03 => decode03 w
  | 0x04 => decode04 w
  | 0x05 => decode05 w
  | 0x06 => decode06 w
  | 0x07 => decode07 w
  | 0x08 => decode08 w
  | 0x09 => decode09 w
  | 0x0A => decode0A w
  | 0x0B => decode0B w
  | 0x0C => decode0C w
  | 0x0D => decode0D w
  | 0x0E => decode0E w
  | 0x10 => decode10 w
  | 0x11 => decode11 w
  | 0x12 => decode12 w
  | 0x13 => decode13 w
  | 0x14 => decode14 w
  | 0x18 => decode18 w
  | 0x19 => decode19 w
  | 0x1A => decode1A w
  | 0x1B => decode1B w
  | 0x1C => decode1C w
  | 0x1D => decode1D w
  | 0x1E => decode1E w
  | 0x1F => decode1F w
  | 0x20 => decode20 w
  | 0x21 => decode21 w
  | 0x22 => decode22 w
  | 0x23 => decode23 w
  | 0x24 => decode24 w
  | 0x25 => decode25 w
  | 0x26 => decode26 w
  | 0x27 => decode27 w
  | 0x28 => decode28 w
  | 0x29 => decode29 w
  | 0x2A => decode2A w
  | 0x2B => decode2B w
  | 0x2C => decode2C w
  | 0x2D => decode2D w
  | 0x2E => decode2E w
  | 0x30 => decode30 w
  | 0x31 => decode31 w
  | 0x32 => decode32 w
  | 0x33 => decode33 w
  | 0x34 => decode34 w
  | 0x35 => decode35 w
  | 0x36 => decode36 w
  | 0x37 => decode37 w
  | 0x38 => decode38 w
  | 0x39 => decode39 w
  | 0x3A => decode3A w
  | 0x3B => decode3B w
  | 0x3C => decode3C w
  | 0x3D => decode3D w
  | 0x3E => decode3E w
  | 0x40 => decode40 w
  | 0x41 => decode41 w
  | 0x42 => decode42 w
  | 0x43 => decode43 w
  | 0x44 => decode44 w
  | 0x45 => decode45 w
  | 0x46 => decode46 w
  | 0x47 => decode47 w
  | 0x48 => decode48 w
  | 0x50 => decode50 w
  | 0x51 => decode51 w
  | 0x52 => decode52 w
  | 0x53 => decode53 w
  | 0x54 => decode54 w
  | 0x60 => decode60 w
  | 0x61 => decode61 w
  | 0x62 => decode62 w
  | 0x63 => decode63 w
  | 0x68 => decode68 w
  | 0x69 => decode69 w
  | 0x6A => decode6A w
  | 0x6B => decode6B w
  | 0x6C => decode6C w
  | 0x6D => decode6D w
  | 0x6E => decode6E w
  | 0x6F => decode6F w
  | 0x70 => decode70 w
  | 0x71 => decode71 w
  | 0x72 => decode72 w
  | 0x73 => decode73 w
  | 0x74 => decode74 w
  | 0x75 => decode75 w
  | 0x76 => decode76 w
  | 0x77 => decode77 w
  | 0x7F => decode7F w
  | _ => none

/-- The word of an instruction (R51, R58); `none` for the operations and events that no word encodes. -/
def encode : Instr → Option W32
  | .add w d a b => some (0#3 ++ BitVec.ofBool w ++ b ++ a ++ d ++ 0x00#7)
  | .sub w d a b => some (1#3 ++ BitVec.ofBool w ++ b ++ a ++ d ++ 0x00#7)
  | .and w d a b => some (2#3 ++ BitVec.ofBool w ++ b ++ a ++ d ++ 0x00#7)
  | .or w d a b => some (3#3 ++ BitVec.ofBool w ++ b ++ a ++ d ++ 0x00#7)
  | .xor w d a b => some (4#3 ++ BitVec.ofBool w ++ b ++ a ++ d ++ 0x00#7)
  | .sll w d a b => some (5#3 ++ BitVec.ofBool w ++ b ++ a ++ d ++ 0x00#7)
  | .srl w d a b => some (6#3 ++ BitVec.ofBool w ++ b ++ a ++ d ++ 0x00#7)
  | .sra w d a b => some (7#3 ++ BitVec.ofBool w ++ b ++ a ++ d ++ 0x00#7)
  | .slt w d a b => some (0#3 ++ BitVec.ofBool w ++ b ++ a ++ d ++ 0x01#7)
  | .sltu w d a b => some (1#3 ++ BitVec.ofBool w ++ b ++ a ++ d ++ 0x01#7)
  | .min w d a b => some (2#3 ++ BitVec.ofBool w ++ b ++ a ++ d ++ 0x01#7)
  | .max w d a b => some (3#3 ++ BitVec.ofBool w ++ b ++ a ++ d ++ 0x01#7)
  | .minu w d a b => some (4#3 ++ BitVec.ofBool w ++ b ++ a ++ d ++ 0x01#7)
  | .maxu w d a b => some (5#3 ++ BitVec.ofBool w ++ b ++ a ++ d ++ 0x01#7)
  | .mul w d a b => some (0#3 ++ BitVec.ofBool w ++ b ++ a ++ d ++ 0x02#7)
  | .mulh w d a b => some (1#3 ++ BitVec.ofBool w ++ b ++ a ++ d ++ 0x02#7)
  | .mulhu w d a b => some (2#3 ++ BitVec.ofBool w ++ b ++ a ++ d ++ 0x02#7)
  | .mulhsu w d a b => some (3#3 ++ BitVec.ofBool w ++ b ++ a ++ d ++ 0x02#7)
  | .div w d a b => some (4#3 ++ BitVec.ofBool w ++ b ++ a ++ d ++ 0x02#7)
  | .divu w d a b => some (5#3 ++ BitVec.ofBool w ++ b ++ a ++ d ++ 0x02#7)
  | .rem w d a b => some (6#3 ++ BitVec.ofBool w ++ b ++ a ++ d ++ 0x02#7)
  | .remu w d a b => some (7#3 ++ BitVec.ofBool w ++ b ++ a ++ d ++ 0x02#7)
  | .home w d a => some (0#3 ++ BitVec.ofBool w ++ 0#7 ++ a ++ d ++ 0x03#7)
  | .clz w d a => some (1#3 ++ BitVec.ofBool w ++ 0#7 ++ a ++ d ++ 0x03#7)
  | .ctz w d a => some (2#3 ++ BitVec.ofBool w ++ 0#7 ++ a ++ d ++ 0x03#7)
  | .popc w d a => some (3#3 ++ BitVec.ofBool w ++ 0#7 ++ a ++ d ++ 0x03#7)
  | .addi i d a => some (i ++ a ++ d ++ 0x04#7)
  | .andi i d a => some (i ++ a ++ d ++ 0x05#7)
  | .ori i d a => some (i ++ a ++ d ++ 0x06#7)
  | .xori i d a => some (i ++ a ++ d ++ 0x07#7)
  | .slli s d a => some (0#5 ++ s ++ a ++ d ++ 0x08#7)
  | .srli s d a => some (0#5 ++ s ++ a ++ d ++ 0x09#7)
  | .srai s d a => some (0#5 ++ s ++ a ++ d ++ 0x0A#7)
  | .slti i d a => some (i ++ a ++ d ++ 0x0B#7)
  | .sltiu i d a => some (i ++ a ++ d ++ 0x0C#7)
  | .lui i d => some (i ++ d ++ 0x0D#7)
  | .adpc i d => some (i ++ d ++ 0x0E#7)
  | .ld i z d a => some (i ++ z ++ a ++ d ++ 0x10#7)
  | .ldBy i z d a => some (i ++ z ++ a ++ d ++ 0x11#7)
  | .st i z a b => some (i ++ 0#1 ++ z ++ a ++ b ++ 0x12#7)
  | .lds i z d a => some (i ++ z ++ a ++ d ++ 0x13#7)
  | .sts i z a b => some (i ++ 0#1 ++ z ++ a ++ b ++ 0x14#7)
  | .beq i a b => some (i ++ b ++ a ++ 0x18#7)
  | .bne i a b => some (i ++ b ++ a ++ 0x19#7)
  | .blt i a b => some (i ++ b ++ a ++ 0x1A#7)
  | .bge i a b => some (i ++ b ++ a ++ 0x1B#7)
  | .bltu i a b => some (i ++ b ++ a ++ 0x1C#7)
  | .bgeu i a b => some (i ++ b ++ a ++ 0x1D#7)
  | .jal i d => some (i ++ d ++ 0x1E#7)
  | .jalr i d a => some (i ++ a ++ d ++ 0x1F#7)
  | .ldAcq s i z d a => some (i ++ s ++ BitVec.ofBool z ++ a ++ d ++ 0x20#7)
  | .stRel s i z a b => some (i ++ s ++ BitVec.ofBool z ++ a ++ b ++ 0x21#7)
  | .amoAdd w d a b => some (0#3 ++ BitVec.ofBool w ++ b ++ a ++ d ++ 0x22#7)
  | .amoAnd w d a b => some (1#3 ++ BitVec.ofBool w ++ b ++ a ++ d ++ 0x22#7)
  | .amoOr w d a b => some (2#3 ++ BitVec.ofBool w ++ b ++ a ++ d ++ 0x22#7)
  | .amoXor w d a b => some (3#3 ++ BitVec.ofBool w ++ b ++ a ++ d ++ 0x22#7)
  | .amoSwap w d a b => some (4#3 ++ BitVec.ofBool w ++ b ++ a ++ d ++ 0x22#7)
  | .amoMin w d a b => some (5#3 ++ BitVec.ofBool w ++ b ++ a ++ d ++ 0x22#7)
  | .amoMax w d a b => some (6#3 ++ BitVec.ofBool w ++ b ++ a ++ d ++ 0x22#7)
  | .amoCas w d a b => some (7#3 ++ BitVec.ofBool w ++ b ++ a ++ d ++ 0x22#7)
  | .amoAddAcq w d a b => some (0#3 ++ BitVec.ofBool w ++ b ++ a ++ d ++ 0x23#7)
  | .amoAndAcq w d a b => some (1#3 ++ BitVec.ofBool w ++ b ++ a ++ d ++ 0x23#7)
  | .amoOrAcq w d a b => some (2#3 ++ BitVec.ofBool w ++ b ++ a ++ d ++ 0x23#7)
  | .amoXorAcq w d a b => some (3#3 ++ BitVec.ofBool w ++ b ++ a ++ d ++ 0x23#7)
  | .amoSwapAcq w d a b => some (4#3 ++ BitVec.ofBool w ++ b ++ a ++ d ++ 0x23#7)
  | .amoMinAcq w d a b => some (5#3 ++ BitVec.ofBool w ++ b ++ a ++ d ++ 0x23#7)
  | .amoMaxAcq w d a b => some (6#3 ++ BitVec.ofBool w ++ b ++ a ++ d ++ 0x23#7)
  | .amoCasAcq w d a b => some (7#3 ++ BitVec.ofBool w ++ b ++ a ++ d ++ 0x23#7)
  | .amoAddRel w d a b => some (0#3 ++ BitVec.ofBool w ++ b ++ a ++ d ++ 0x24#7)
  | .amoAndRel w d a b => some (1#3 ++ BitVec.ofBool w ++ b ++ a ++ d ++ 0x24#7)
  | .amoOrRel w d a b => some (2#3 ++ BitVec.ofBool w ++ b ++ a ++ d ++ 0x24#7)
  | .amoXorRel w d a b => some (3#3 ++ BitVec.ofBool w ++ b ++ a ++ d ++ 0x24#7)
  | .amoSwapRel w d a b => some (4#3 ++ BitVec.ofBool w ++ b ++ a ++ d ++ 0x24#7)
  | .amoMinRel w d a b => some (5#3 ++ BitVec.ofBool w ++ b ++ a ++ d ++ 0x24#7)
  | .amoMaxRel w d a b => some (6#3 ++ BitVec.ofBool w ++ b ++ a ++ d ++ 0x24#7)
  | .amoCasRel w d a b => some (7#3 ++ BitVec.ofBool w ++ b ++ a ++ d ++ 0x24#7)
  | .amoAddAr w d a b => some (0#3 ++ BitVec.ofBool w ++ b ++ a ++ d ++ 0x25#7)
  | .amoAndAr w d a b => some (1#3 ++ BitVec.ofBool w ++ b ++ a ++ d ++ 0x25#7)
  | .amoOrAr w d a b => some (2#3 ++ BitVec.ofBool w ++ b ++ a ++ d ++ 0x25#7)
  | .amoXorAr w d a b => some (3#3 ++ BitVec.ofBool w ++ b ++ a ++ d ++ 0x25#7)
  | .amoSwapAr w d a b => some (4#3 ++ BitVec.ofBool w ++ b ++ a ++ d ++ 0x25#7)
  | .amoMinAr w d a b => some (5#3 ++ BitVec.ofBool w ++ b ++ a ++ d ++ 0x25#7)
  | .amoMaxAr w d a b => some (6#3 ++ BitVec.ofBool w ++ b ++ a ++ d ++ 0x25#7)
  | .amoCasAr w d a b => some (7#3 ++ BitVec.ofBool w ++ b ++ a ++ d ++ 0x25#7)
  | .amoMinu w d a b => some (0#3 ++ BitVec.ofBool w ++ b ++ a ++ d ++ 0x26#7)
  | .amoMaxu w d a b => some (1#3 ++ BitVec.ofBool w ++ b ++ a ++ d ++ 0x26#7)
  | .amoFaddD w d a b => some (2#3 ++ BitVec.ofBool w ++ b ++ a ++ d ++ 0x26#7)
  | .amoFaddW w d a b => some (3#3 ++ BitVec.ofBool w ++ b ++ a ++ d ++ 0x26#7)
  | .amoFaddH w d a b => some (4#3 ++ BitVec.ofBool w ++ b ++ a ++ d ++ 0x26#7)
  | .amoBfadd w d a b => some (5#3 ++ BitVec.ofBool w ++ b ++ a ++ d ++ 0x26#7)
  | .amoMinuAcq w d a b => some (0#3 ++ BitVec.ofBool w ++ b ++ a ++ d ++ 0x27#7)
  | .amoMaxuAcq w d a b => some (1#3 ++ BitVec.ofBool w ++ b ++ a ++ d ++ 0x27#7)
  | .amoFaddDAcq w d a b => some (2#3 ++ BitVec.ofBool w ++ b ++ a ++ d ++ 0x27#7)
  | .amoFaddWAcq w d a b => some (3#3 ++ BitVec.ofBool w ++ b ++ a ++ d ++ 0x27#7)
  | .amoFaddHAcq w d a b => some (4#3 ++ BitVec.ofBool w ++ b ++ a ++ d ++ 0x27#7)
  | .amoBfaddAcq w d a b => some (5#3 ++ BitVec.ofBool w ++ b ++ a ++ d ++ 0x27#7)
  | .amoMinuRel w d a b => some (0#3 ++ BitVec.ofBool w ++ b ++ a ++ d ++ 0x28#7)
  | .amoMaxuRel w d a b => some (1#3 ++ BitVec.ofBool w ++ b ++ a ++ d ++ 0x28#7)
  | .amoFaddDRel w d a b => some (2#3 ++ BitVec.ofBool w ++ b ++ a ++ d ++ 0x28#7)
  | .amoFaddWRel w d a b => some (3#3 ++ BitVec.ofBool w ++ b ++ a ++ d ++ 0x28#7)
  | .amoFaddHRel w d a b => some (4#3 ++ BitVec.ofBool w ++ b ++ a ++ d ++ 0x28#7)
  | .amoBfaddRel w d a b => some (5#3 ++ BitVec.ofBool w ++ b ++ a ++ d ++ 0x28#7)
  | .amoMinuAr w d a b => some (0#3 ++ BitVec.ofBool w ++ b ++ a ++ d ++ 0x29#7)
  | .amoMaxuAr w d a b => some (1#3 ++ BitVec.ofBool w ++ b ++ a ++ d ++ 0x29#7)
  | .amoFaddDAr w d a b => some (2#3 ++ BitVec.ofBool w ++ b ++ a ++ d ++ 0x29#7)
  | .amoFaddWAr w d a b => some (3#3 ++ BitVec.ofBool w ++ b ++ a ++ d ++ 0x29#7)
  | .amoFaddHAr w d a b => some (4#3 ++ BitVec.ofBool w ++ b ++ a ++ d ++ 0x29#7)
  | .amoBfaddAr w d a b => some (5#3 ++ BitVec.ofBool w ++ b ++ a ++ d ++ 0x29#7)
  | .amosAdd w d a b => some (0#3 ++ BitVec.ofBool w ++ b ++ a ++ d ++ 0x2A#7)
  | .amosAnd w d a b => some (1#3 ++ BitVec.ofBool w ++ b ++ a ++ d ++ 0x2A#7)
  | .amosOr w d a b => some (2#3 ++ BitVec.ofBool w ++ b ++ a ++ d ++ 0x2A#7)
  | .amosXor w d a b => some (3#3 ++ BitVec.ofBool w ++ b ++ a ++ d ++ 0x2A#7)
  | .amosSwap w d a b => some (4#3 ++ BitVec.ofBool w ++ b ++ a ++ d ++ 0x2A#7)
  | .amosMin w d a b => some (5#3 ++ BitVec.ofBool w ++ b ++ a ++ d ++ 0x2A#7)
  | .amosMax w d a b => some (6#3 ++ BitVec.ofBool w ++ b ++ a ++ d ++ 0x2A#7)
  | .amosCas w d a b => some (7#3 ++ BitVec.ofBool w ++ b ++ a ++ d ++ 0x2A#7)
  | .amosMinu w d a b => some (0#3 ++ BitVec.ofBool w ++ b ++ a ++ d ++ 0x2B#7)
  | .amosMaxu w d a b => some (1#3 ++ BitVec.ofBool w ++ b ++ a ++ d ++ 0x2B#7)
  | .amosFaddD w d a b => some (2#3 ++ BitVec.ofBool w ++ b ++ a ++ d ++ 0x2B#7)
  | .amosFaddW w d a b => some (3#3 ++ BitVec.ofBool w ++ b ++ a ++ d ++ 0x2B#7)
  | .amosFaddH w d a b => some (4#3 ++ BitVec.ofBool w ++ b ++ a ++ d ++ 0x2B#7)
  | .amosBfadd w d a b => some (5#3 ++ BitVec.ofBool w ++ b ++ a ++ d ++ 0x2B#7)
  | .depAdd w a b => some (0#3 ++ BitVec.ofBool w ++ b ++ a ++ 0#7 ++ 0x2D#7)
  | .depMax w a b => some (1#3 ++ BitVec.ofBool w ++ b ++ a ++ 0#7 ++ 0x2D#7)
  | .peek w d a => some (2#3 ++ BitVec.ofBool w ++ 0#7 ++ a ++ d ++ 0x2D#7)
  | .sense w d a b => some (3#3 ++ BitVec.ofBool w ++ b ++ a ++ d ++ 0x2D#7)
  | .depAddRel w a b => some (4#3 ++ BitVec.ofBool w ++ b ++ a ++ 0#7 ++ 0x2D#7)
  | .depMaxRel w a b => some (5#3 ++ BitVec.ofBool w ++ b ++ a ++ 0#7 ++ 0x2D#7)
  | .tick w a => some (0#3 ++ BitVec.ofBool w ++ 0#7 ++ a ++ 0#7 ++ 0x2E#7)
  | .fadd p r w d a b => some (BitVec.ofBool p ++ r ++ BitVec.ofBool w ++ b ++ a ++ d ++ 0x30#7)
  | .fsub p r w d a b => some (BitVec.ofBool p ++ r ++ BitVec.ofBool w ++ b ++ a ++ d ++ 0x31#7)
  | .fmul p r w d a b => some (BitVec.ofBool p ++ r ++ BitVec.ofBool w ++ b ++ a ++ d ++ 0x32#7)
  | .fdiv p r w d a b => some (BitVec.ofBool p ++ r ++ BitVec.ofBool w ++ b ++ a ++ d ++ 0x33#7)
  | .fma p r w d a b => some (BitVec.ofBool p ++ r ++ BitVec.ofBool w ++ b ++ a ++ d ++ 0x34#7)
  | .fnma p r w d a b => some (BitVec.ofBool p ++ r ++ BitVec.ofBool w ++ b ++ a ++ d ++ 0x35#7)
  | .fsqrt p r w d a => some (BitVec.ofBool p ++ r ++ BitVec.ofBool w ++ 0#7 ++ a ++ d ++ 0x36#7)
  | .fminW w d a b => some (0#3 ++ BitVec.ofBool w ++ b ++ a ++ d ++ 0x37#7)
  | .fmaxW w d a b => some (1#3 ++ BitVec.ofBool w ++ b ++ a ++ d ++ 0x37#7)
  | .feqW w d a b => some (2#3 ++ BitVec.ofBool w ++ b ++ a ++ d ++ 0x37#7)
  | .fltW w d a b => some (3#3 ++ BitVec.ofBool w ++ b ++ a ++ d ++ 0x37#7)
  | .fleW w d a b => some (4#3 ++ BitVec.ofBool w ++ b ++ a ++ d ++ 0x37#7)
  | .fsgnjW w d a b => some (5#3 ++ BitVec.ofBool w ++ b ++ a ++ d ++ 0x37#7)
  | .fsgnjnW w d a b => some (6#3 ++ BitVec.ofBool w ++ b ++ a ++ d ++ 0x37#7)
  | .fclassW w d a => some (7#3 ++ BitVec.ofBool w ++ 0#7 ++ a ++ d ++ 0x37#7)
  | .fminD w d a b => some (0#3 ++ BitVec.ofBool w ++ b ++ a ++ d ++ 0x38#7)
  | .fmaxD w d a b => some (1#3 ++ BitVec.ofBool w ++ b ++ a ++ d ++ 0x38#7)
  | .feqD w d a b => some (2#3 ++ BitVec.ofBool w ++ b ++ a ++ d ++ 0x38#7)
  | .fltD w d a b => some (3#3 ++ BitVec.ofBool w ++ b ++ a ++ d ++ 0x38#7)
  | .fleD w d a b => some (4#3 ++ BitVec.ofBool w ++ b ++ a ++ d ++ 0x38#7)
  | .fsgnjD w d a b => some (5#3 ++ BitVec.ofBool w ++ b ++ a ++ d ++ 0x38#7)
  | .fsgnjnD w d a b => some (6#3 ++ BitVec.ofBool w ++ b ++ a ++ d ++ 0x38#7)
  | .fclassD w d a => some (7#3 ++ BitVec.ofBool w ++ 0#7 ++ a ++ d ++ 0x38#7)
  | .cvtSD r w d a => some (0#1 ++ r ++ BitVec.ofBool w ++ 0#7 ++ a ++ d ++ 0x39#7)
  | .cvtDS w d a => some (1#1 ++ 0#2 ++ BitVec.ofBool w ++ 0#7 ++ a ++ d ++ 0x39#7)
  | .cvtHS r w d a => some (0#1 ++ r ++ BitVec.ofBool w ++ 0#7 ++ a ++ d ++ 0x3A#7)
  | .cvtSH w d a => some (1#1 ++ 0#2 ++ BitVec.ofBool w ++ 0#7 ++ a ++ d ++ 0x3A#7)
  | .cvtBfS r w d a => some (0#1 ++ r ++ BitVec.ofBool w ++ 0#7 ++ a ++ d ++ 0x3B#7)
  | .cvtSBf w d a => some (1#1 ++ 0#2 ++ BitVec.ofBool w ++ 0#7 ++ a ++ d ++ 0x3B#7)
  | .cvtSL r w d a => some (0#1 ++ r ++ BitVec.ofBool w ++ 0#7 ++ a ++ d ++ 0x3C#7)
  | .cvtDL r w d a => some (1#1 ++ r ++ BitVec.ofBool w ++ 0#7 ++ a ++ d ++ 0x3C#7)
  | .cvtLS r w d a => some (0#1 ++ r ++ BitVec.ofBool w ++ 0#7 ++ a ++ d ++ 0x3D#7)
  | .cvtLD r w d a => some (1#1 ++ r ++ BitVec.ofBool w ++ 0#7 ++ a ++ d ++ 0x3D#7)
  | .cvtDLu r w d a => some (0#1 ++ r ++ BitVec.ofBool w ++ 0#7 ++ a ++ d ++ 0x3E#7)
  | .cvtLuD r w d a => some (1#1 ++ r ++ BitVec.ofBool w ++ 0#7 ++ a ++ d ++ 0x3E#7)
  | .vadd p r w d a b => some (BitVec.ofBool p ++ r ++ BitVec.ofBool w ++ b ++ a ++ d ++ 0x40#7)
  | .vsub p r w d a b => some (BitVec.ofBool p ++ r ++ BitVec.ofBool w ++ b ++ a ++ d ++ 0x41#7)
  | .vmul p r w d a b => some (BitVec.ofBool p ++ r ++ BitVec.ofBool w ++ b ++ a ++ d ++ 0x42#7)
  | .vfma p r w d a b => some (BitVec.ofBool p ++ r ++ BitVec.ofBool w ++ b ++ a ++ d ++ 0x43#7)
  | .vminW w d a b => some (0#3 ++ BitVec.ofBool w ++ b ++ a ++ d ++ 0x44#7)
  | .vmaxW w d a b => some (1#3 ++ BitVec.ofBool w ++ b ++ a ++ d ++ 0x44#7)
  | .vminD w d a b => some (2#3 ++ BitVec.ofBool w ++ b ++ a ++ d ++ 0x44#7)
  | .vmaxD w d a b => some (3#3 ++ BitVec.ofBool w ++ b ++ a ++ d ++ 0x44#7)
  | .vcpy w d a => some (4#3 ++ BitVec.ofBool w ++ 0#7 ++ a ++ d ++ 0x44#7)
  | .vcvtHS w d a => some (0#3 ++ BitVec.ofBool w ++ 0#7 ++ a ++ d ++ 0x45#7)
  | .vcvtSH w d a => some (1#3 ++ BitVec.ofBool w ++ 0#7 ++ a ++ d ++ 0x45#7)
  | .vcvtBfS w d a => some (2#3 ++ BitVec.ofBool w ++ 0#7 ++ a ++ d ++ 0x45#7)
  | .vcvtSBf w d a => some (3#3 ++ BitVec.ofBool w ++ 0#7 ++ a ++ d ++ 0x45#7)
  | .vcvtBd8S w d a b => some (4#3 ++ BitVec.ofBool w ++ b ++ a ++ d ++ 0x45#7)
  | .vcvtSBd8 w d a b => some (5#3 ++ BitVec.ofBool w ++ b ++ a ++ d ++ 0x45#7)
  | .vcvtBd4S w d a b => some (6#3 ++ BitVec.ofBool w ++ b ++ a ++ d ++ 0x45#7)
  | .vcvtSBd4 w d a b => some (7#3 ++ BitVec.ofBool w ++ b ++ a ++ d ++ 0x45#7)
  | .sfuExp2 w d a => some (0#3 ++ BitVec.ofBool w ++ 0#7 ++ a ++ d ++ 0x46#7)
  | .sfuLog2 w d a => some (1#3 ++ BitVec.ofBool w ++ 0#7 ++ a ++ d ++ 0x46#7)
  | .sfuRcp w d a => some (2#3 ++ BitVec.ofBool w ++ 0#7 ++ a ++ d ++ 0x46#7)
  | .sfuRsq w d a => some (3#3 ++ BitVec.ofBool w ++ 0#7 ++ a ++ d ++ 0x46#7)
  | .sfuSin w d a => some (4#3 ++ BitVec.ofBool w ++ 0#7 ++ a ++ d ++ 0x46#7)
  | .sfuCos w d a => some (5#3 ++ BitVec.ofBool w ++ 0#7 ++ a ++ d ++ 0x46#7)
  | .sfuTanh w d a => some (6#3 ++ BitVec.ofBool w ++ 0#7 ++ a ++ d ++ 0x46#7)
  | .sfuSigm w d a => some (7#3 ++ BitVec.ofBool w ++ 0#7 ++ a ++ d ++ 0x46#7)
  | .sbindIn w d a => some (0#3 ++ BitVec.ofBool w ++ 0#7 ++ a ++ d ++ 0x47#7)
  | .sbindOut w d a => some (1#3 ++ BitVec.ofBool w ++ 0#7 ++ a ++ d ++ 0x47#7)
  | .sunbind d => some (2#3 ++ 0#1 ++ 0#7 ++ 0#7 ++ d ++ 0x47#7)
  | .ctab w a => some (0#3 ++ BitVec.ofBool w ++ 0#7 ++ a ++ 0#7 ++ 0x48#7)
  | .mma w k n a b => some (0#3 ++ BitVec.ofBool w ++ b ++ a ++ 0#1 ++ 0#1 ++ BitVec.ofBool k ++ n ++ 0x50#7)
  | .mmaZ w k n a b => some (0#3 ++ BitVec.ofBool w ++ b ++ a ++ 0#1 ++ 1#1 ++ BitVec.ofBool k ++ n ++ 0x50#7)
  | .mmaRot w k n a => some (1#3 ++ BitVec.ofBool w ++ 0#7 ++ a ++ 0#1 ++ 0#1 ++ BitVec.ofBool k ++ n ++ 0x50#7)
  | .mmaRotZ w k n a => some (1#3 ++ BitVec.ofBool w ++ 0#7 ++ a ++ 0#1 ++ 1#1 ++ BitVec.ofBool k ++ n ++ 0x50#7)
  | .mmaRotSd w k n a b => some (1#3 ++ BitVec.ofBool w ++ b ++ a ++ 1#1 ++ 0#1 ++ BitVec.ofBool k ++ n ++ 0x50#7)
  | .mmaRotSdZ w k n a b => some (1#3 ++ BitVec.ofBool w ++ b ++ a ++ 1#1 ++ 1#1 ++ BitVec.ofBool k ++ n ++ 0x50#7)
  | .mstc w k a b => some (0#3 ++ BitVec.ofBool w ++ b ++ a ++ 0#1 ++ 0#1 ++ BitVec.ofBool k ++ 0#4 ++ 0x51#7)
  | .mldc w k a b => some (1#3 ++ BitVec.ofBool w ++ b ++ a ++ 0#1 ++ 0#1 ++ BitVec.ofBool k ++ 0#4 ++ 0x51#7)
  | .mcommit d => some (0#3 ++ 0#1 ++ 0#7 ++ 0#7 ++ d ++ 0x52#7)
  | .mwait w a => some (1#3 ++ BitVec.ofBool w ++ 0#7 ++ a ++ 0#7 ++ 0x52#7)
  | .cpyGg w c a b => some (0#3 ++ BitVec.ofBool w ++ b ++ a ++ 0#3 ++ 0#1 ++ 0#1 ++ c ++ 0x53#7)
  | .cpyGs w c a b => some (0#3 ++ BitVec.ofBool w ++ b ++ a ++ 0#3 ++ 1#1 ++ 0#1 ++ c ++ 0x53#7)
  | .cpySg w c a b => some (0#3 ++ BitVec.ofBool w ++ b ++ a ++ 0#3 ++ 0#1 ++ 1#1 ++ c ++ 0x53#7)
  | .cpySs w c a b => some (0#3 ++ BitVec.ofBool w ++ b ++ a ++ 0#3 ++ 1#1 ++ 1#1 ++ c ++ 0x53#7)
  | .cpySub w c a => some (1#3 ++ BitVec.ofBool w ++ 0#7 ++ a ++ 0#3 ++ 0#1 ++ 0#1 ++ c ++ 0x53#7)
  | .cpySubPull w c a => some (1#3 ++ BitVec.ofBool w ++ 0#7 ++ a ++ 0#3 ++ 1#1 ++ 0#1 ++ c ++ 0x53#7)
  | .cpySubRet w c a => some (1#3 ++ BitVec.ofBool w ++ 0#7 ++ a ++ 0#3 ++ 0#1 ++ 1#1 ++ c ++ 0x53#7)
  | .cwait w a b => some (1#3 ++ BitVec.ofBool w ++ b ++ a ++ 0#7 ++ 0x54#7)
  | .spawn w d a b => some (0#3 ++ BitVec.ofBool w ++ b ++ a ++ d ++ 0x60#7)
  | .go w a => some (0#3 ++ BitVec.ofBool w ++ 0#7 ++ a ++ 0#7 ++ 0x61#7)
  | .park w a b => some (3#3 ++ BitVec.ofBool w ++ b ++ a ++ 0#7 ++ 0x61#7)
  | .join w d a => some (0#3 ++ BitVec.ofBool w ++ 0#7 ++ a ++ d ++ 0x62#7)
  | .leave w d a => some (1#3 ++ BitVec.ofBool w ++ 0#7 ++ a ++ d ++ 0x62#7)
  | .bar w d a => some (2#3 ++ BitVec.ofBool w ++ 0#7 ++ a ++ d ++ 0x62#7)
  | .tsig w a => some (0#3 ++ BitVec.ofBool w ++ 0#7 ++ a ++ 0#7 ++ 0x63#7)
  | .kadd d a b => some (0#3 ++ 0#1 ++ 0#3 ++ b ++ 0#3 ++ a ++ 0#3 ++ d ++ 0x68#7)
  | .ksub d a b => some (1#3 ++ 0#1 ++ 0#3 ++ b ++ 0#3 ++ a ++ 0#3 ++ d ++ 0x68#7)
  | .kand d a b => some (2#3 ++ 0#1 ++ 0#3 ++ b ++ 0#3 ++ a ++ 0#3 ++ d ++ 0x68#7)
  | .kor d a b => some (3#3 ++ 0#1 ++ 0#3 ++ b ++ 0#3 ++ a ++ 0#3 ++ d ++ 0x68#7)
  | .kxor d a b => some (4#3 ++ 0#1 ++ 0#3 ++ b ++ 0#3 ++ a ++ 0#3 ++ d ++ 0x68#7)
  | .ksll d a b => some (5#3 ++ 0#1 ++ 0#3 ++ b ++ 0#3 ++ a ++ 0#3 ++ d ++ 0x68#7)
  | .ksrl d a b => some (6#3 ++ 0#1 ++ 0#3 ++ b ++ 0#3 ++ a ++ 0#3 ++ d ++ 0x68#7)
  | .kmul d a b => some (7#3 ++ 0#1 ++ 0#3 ++ b ++ 0#3 ++ a ++ 0#3 ++ d ++ 0x68#7)
  | .kaddi i d a => some (i ++ 0#3 ++ a ++ 0#3 ++ d ++ 0x69#7)
  | .kbeq i a b => some (i ++ 0#3 ++ b ++ 0#3 ++ a ++ 0x6A#7)
  | .kbne i a b => some (i ++ 0#3 ++ b ++ 0#3 ++ a ++ 0x6B#7)
  | .kloop i a => some (i ++ 0#7 ++ 0#3 ++ a ++ 0x6C#7)
  | .kj i => some (i ++ 0#7 ++ 0x6D#7)
  | .rowany w d a => some (0#3 ++ BitVec.ofBool w ++ 0#7 ++ a ++ 0#3 ++ d ++ 0x6E#7)
  | .rowall w d a => some (1#3 ++ BitVec.ofBool w ++ 0#7 ++ a ++ 0#3 ++ d ++ 0x6E#7)
  | .csrr c d => some (c ++ 0#7 ++ d ++ 0x70#7)
  | .csrrw c d a => some (c ++ a ++ d ++ 0x71#7)
  | .csrs c d a => some (c ++ a ++ d ++ 0x72#7)
  | .csrc c d a => some (c ++ a ++ d ++ 0x73#7)
  | .tlbiVa w a => some (0#3 ++ BitVec.ofBool w ++ 0#7 ++ a ++ 0#7 ++ 0x75#7)
  | .tlbiS2 w a b => some (2#3 ++ BitVec.ofBool w ++ b ++ a ++ 0#7 ++ 0x75#7)
  | .dline w d a b => some (0#3 ++ BitVec.ofBool w ++ b ++ a ++ d ++ 0x76#7)
  | .prog w a => some (1#3 ++ BitVec.ofBool w ++ 0#7 ++ a ++ 0#7 ++ 0x76#7)
  | .pwrHint w a => some (0#3 ++ BitVec.ofBool w ++ 0#7 ++ a ++ 0#7 ++ 0x77#7)
  | .rep c x y z n => some (0#10 ++ BitVec.ofBool c ++ 0#1 ++ x ++ y ++ z ++ n ++ 0x7F#7)
  | .repOs c x y z n => some (0#10 ++ BitVec.ofBool c ++ 1#1 ++ x ++ y ++ z ++ n ++ 0x7F#7)
  | .fenceCore => some (0#3 ++ 0#1 ++ 0#7 ++ 0#7 ++ 0#7 ++ 0x2C#7)
  | .fenceDie => some (1#3 ++ 0#1 ++ 0#7 ++ 0#7 ++ 0#7 ++ 0x2C#7)
  | .fencePkg => some (2#3 ++ 0#1 ++ 0#7 ++ 0#7 ++ 0#7 ++ 0x2C#7)
  | .fenceDom => some (3#3 ++ 0#1 ++ 0#7 ++ 0#7 ++ 0#7 ++ 0x2C#7)
  | .vectorStep => none
  | .sfuAccept => none
  | .streamPop => none
  | .streamPush => none
  | .matrixEngineSchedule => none
  | .mmaGroup => none
  | .latchRowArrive => none
  | .matrixCommandComplete => none
  | .copyUnitTransfer => none
  | .copyCommandComplete => none
  | .subscriptionTileLand => none
  | .subscriptionPullBack => none
  | .cfence => some (0#3 ++ 0#1 ++ 0#7 ++ 0#7 ++ 0#7 ++ 0x54#7)
  | .quit => some (1#3 ++ 0#1 ++ 0#7 ++ 0#7 ++ 0#7 ++ 0x61#7)
  | .yield => some (2#3 ++ 0#1 ++ 0#7 ++ 0#7 ++ 0#7 ++ 0x61#7)
  | .parkWake => none
  | .parkTimeout => none
  | .heldAnswer => none
  | .rend => some (0#3 ++ 0#1 ++ 0#7 ++ 0#7 ++ 0#7 ++ 0x6F#7)
  | .streamBeat => none
  | .segmentComplete => none
  | .ecall => some (0#3 ++ 0#1 ++ 0#7 ++ 0#7 ++ 0#7 ++ 0x74#7)
  | .brk => some (1#3 ++ 0#1 ++ 0#7 ++ 0#7 ++ 0#7 ++ 0x74#7)
  | .tret => some (2#3 ++ 0#1 ++ 0#7 ++ 0#7 ++ 0#7 ++ 0x74#7)
  | .tlbiVmid => some (1#3 ++ 0#1 ++ 0#7 ++ 0#7 ++ 0#7 ++ 0x75#7)
  | .tlbiAll => some (3#3 ++ 0#1 ++ 0#7 ++ 0#7 ++ 0#7 ++ 0x75#7)
  | .tlbiComplete => none
  | .barrelCycle => none
  | .resultReturn => none
  | .storeDrain => none
  | .dutyMet => none
  | .sliceRequest => none
  | .pageCheckFill => none
  | .stage1Walk => none
  | .fringHeadWrite => none
  | .resolveReplay => none
  | .resolveFail => none
  | .arrivalDeliver => none
  | .arrivalQueuePlace => none
  | .timebaseTickDue => none
  | .tickUnitSend => none
  | .sliceTickApply => none
  | .tickAck => none
  | .scrubberRefresh => none
  | .trailEnable => none
  | .trailEnableComplete => none
  | .trailDisable => none
  | .regStore => none
  | .registrationComplete => none
  | .unregStore => none
  | .handleRelease => none
  | .launchStore => none
  | .launchEligible => none
  | .nodeStart => none
  | .initialThreadDeliver => none
  | .copyNodeComplete => none
  | .nodeComplete => none
  | .tsigAccept => none
  | .launchFinish => none
  | .preempt => none
  | .savedContextRestore => none
  | .governorEvaluate => none
  | .powerSlowCheck => none
  | .powerFastWindow => none
  | .thermalRead => none
  | .energyChargeApply => none
  | .pset => none
  | .padd => none
  | .telemetrySample => none
  | .transferRow => none
  | .transferSlice => none
  | .transferChannel => none
  | .transferEngine => none
  | .transferComplete => none
  | .vaultGenerate => none
  | .vaultDestroy => none
  | .keyDestroyComplete => none
  | .hostTlbiVa => none
  | .hostTlbiVmid => none
  | .hostTlbiS2 => none
  | .hostTlbiAll => none
  | .counterSelectWrite => none
  | .rateLimitAdmit => none
  | .fwUpdate => none
  | .fwSwitch => none
  | .fwReady => none
  | .fwSwitchTimeout => none
  | .attestationReport => none
  | .fwCommandComplete => none
  | .powerOn => none
  | .hostMemoryAccess => none
  | .remoteRequest => none
  | .linkFailure => none
  | .peerRestore => none
  | .hostLinkRetrain => none
  | .frameArrive => none
  | .trailheadFrameDeliver => none
  | .flowEnable => none
  | .debugFreeze => none
  | .debugThaw => none
  | .debugWindowAccess => none
  | .uncorrectableError => none
  | .correctedError => none
  | .rowRemap => none
  | .registerWrite => none
  | .ptpClockStep => none
  | .parkEarlyComplete => none
  | .peerPortLinkChange => none
  | .remoteFaultResolved => none

/-- The instruction the decoder reads from a word numbered as spec/opcode_table.json numbers it: every instruction is one
32-bit word, least significant byte first (R50). -/
def decodeTableWord (nbits w : Nat) : Option Instr :=
  if nbits ≤ 32 ∧ w < 2 ^ 32 then decode (BitVec.ofNat 32 w) else none

end Sys2Proof
end

