-- ==== Sys2Proof/Machine/State.lean ====
section
/-! DEFINITION. The state of the AK2048 package as plain data, and its value at reset. -/

namespace Sys2Proof.Machine

/-! ## Translation and memory -/

/-- The HOME field of a page-table entry (R176). -/
inductive Home where
  | cached | slice | core | uncached
  deriving DecidableEq, Repr

/-- Where a byte is held: HBM by physical address (R338), a core's scratchpad behind its home window (R177), another device of the
domain, the host (R354), or a word of the register space by its offset (R337). -/
inductive Loc where
  | hbm (pa : Nat)
  | window (core addr : Nat)
  | remote (dev off : Nat)
  | host (addr : Nat)
  | reg (off : Nat)
  deriving DecidableEq, Repr

/-- A page as a walk delivers it and the page check cache keeps it (R90, R304 to R307). -/
structure Page where
  vmid : BitVec 16
  /-- page base, as the 64-bit virtual address -/
  va : Word
  /-- 16 KiB, 2 MiB or 1 GiB -/
  size : Nat
  /-- where the page's first byte lies -/
  out : Loc
  /-- guest-physical base, under which slices and L1s tag data (R307) -/
  gpa : Nat
  rd : Bool
  wr : Bool
  ex : Bool
  home : Home
  /-- the field of a TRAIL page -/
  trail : Option (BitVec 6)
  /-- the key id of the frame (R306) -/
  key : BitVec 8
  /-- the stage-1 page it lies in, which may be larger: base and size (R309) -/
  leafVa : Word := 0
  leafSize : Nat := 0
  /-- size of the stage-2 page it lies in (R309) -/
  s2Size : Nat := 0
  /-- guest-physical addresses of the table entries that its walk read, and the size of the stage-2 page of each (R309, R312) -/
  tables : List (Nat × Nat) := []
  deriving DecidableEq, Repr

/-- A leaf found by a table walk: the entry, the page size, the address of the entry, and the addresses of the entries read on the
way to it (R304). -/
structure Leaf where
  entry : Word
  size : Nat
  at_ : Nat
  seen : List Nat := []
  deriving DecidableEq, Repr

/-- A stage-1 result that slices cache, tagged with VA and VMID (R307). -/
structure S1 where
  vmid : BitVec 16
  va : Word
  leaf : Leaf
  deriving DecidableEq, Repr

/-- What a slice holds of a line beside its bytes: the die of the slice, the owner and guest-physical line it is tagged with (R307),
its frame's key, whether it must be written back, and whether it is pinned (R176, R342, R370). -/
structure SliceLine where
  die : Nat
  vmid : BitVec 16
  gline : Nat
  key : BitVec 8
  dirty : Bool := false
  pinned : Bool := false
  deriving DecidableEq, Repr

/-- Why a translation is not delivered. -/
inductive WalkFault where
  /-- a stage-1 failure at the virtual address -/
  | stage1
  /-- a stage-2 failure at a guest-physical address -/
  | stage2 (gpa : Nat)
  deriving DecidableEq, Repr

/-- A stage-1 walk asked for by a context, segment or engine check (R90, R307). -/
structure Walk where
  id : Nat
  core : Nat
  vmid : BitVec 16
  va : Word
  write : Bool
  fetch : Bool
  /-- who waits, for the fault record: context id; `none` for a sequencer fetch, then the segment -/
  ctx : Option Nat
  seg : Option Nat
  /-- the address of the word that waits -/
  pc : Word
  /-- answered with a page -/
  page : Option Page := none
  /-- a fault record with this token was written and waits for RESOLVE -/
  token : Option (BitVec 32) := none
  deriving DecidableEq, Repr

/-- A cell of plain numbers keyed by address: scratchpad bytes. -/
abbrev Memory := List Host.Cell

/-- A line held by an L1: its tag and the 64 bytes as they were filled (R16, R307). -/
structure L1Line where
  vmid : BitVec 16
  gline : Nat
  bytes : List Byte
  /-- the key of the frame that it was filled from (R348) -/
  key : BitVec 8 := 0
  deriving DecidableEq, Repr

/-! ## Requests -/

/-- The node of a launch that a context belongs to. -/
structure NodeRef where
  launch : Nat
  node : Nat
  deriving DecidableEq, Repr

/-- The function of an atomic (R109, R112): set A codes 0 to 7, set B codes 8 to 13. -/
abbrev AmoFn := Nat

/-- What a request does at its home unit. -/
inductive ReqOp where
  /-- a load of `size` bytes, extended by the width code; `fill` for a `.ca` load that fills its L1 line (R91) -/
  | load (width : Nat) (fill : Bool)
  /-- a drained store -/
  | store (v : Word)
  | amo (fn : AmoFn) (b c : Word)
  /-- `dep.add` or `dep.max` of the field (R159) -/
  | dep (max : Bool) (field : BitVec 6) (b : BitVec 16)
  | peek (field : BitVec 6)
  | sense (field : BitVec 6) (mask : BitVec 16)
  /-- the read of a `park` (R122) -/
  | parkRead (want : Word)
  /-- the result of a scratchpad atomic, performed at issue (R114) -/
  | amos
  deriving DecidableEq, Repr

/-- A request on its way to, or answered by, its home unit (R129). -/
structure Req where
  id : Nat
  /-- context id of the requester (R4) -/
  ctx : Nat
  vmid : BitVec 16
  op : ReqOp
  va : Word
  size : Nat
  loc : Loc
  page : Page
  /-- destination register, 0 for none -/
  rd : Reg
  /-- ids that must be gone first: overlapping stores and, for a release, all earlier ones (R105) -/
  after : List Nat := []
  /-- performed: value, poisoned, failed device, and the line for an L1 fill -/
  done : Bool := false
  value : Word := 0
  poison : Bool := false
  rlink : Bool := false
  line : List Byte := []
  /-- charged to its tenant's token count of the channel (R344) -/
  admitted : Bool := false
  /-- waits for the RESOLVE of a stage-2 fault at this device, which the address names as a peer (R354) -/
  token : Option (BitVec 32) := none
  /-- the word that issued it and the run it belongs to, for a trap at that word (R354) -/
  pc : Word := 0
  repc : Word := 0
  /-- a younger load of its context was performed first (R131) -/
  overtaken : Bool := false
  /-- the launch node of the requester, which is not done while it is outstanding (R287) -/
  node : Option NodeRef := none
  deriving DecidableEq, Repr

/-- What stands in a store buffer, oldest first (R95, R137). -/
inductive SbOp where
  | store (v : Word)
  /-- the claims of an engine command, which take no entry -/
  | claim (cmd : Nat)
  deriving DecidableEq, Repr

structure SbEntry where
  id : Nat
  ctx : Nat
  op : SbOp
  va : Word
  size : Nat
  loc : Loc
  page : Page
  /-- scope of a `st.rel` (R108) -/
  rel : Option (BitVec 2)
  /-- the word that issued it, the run it belongs to, and the launch node of its context (R287, R354) -/
  pc : Word := 0
  repc : Word := 0
  node : Option NodeRef := none
  deriving DecidableEq, Repr

/-- Lines that an engine command claims, by line number of their place (R137). -/
structure Claim where
  cmd : Nat
  /-- the engine, the party that holds the lines (R137) -/
  engine : Nat
  lines : List Loc
  performed : Bool
  deriving DecidableEq, Repr

/-- The causes of R298. -/
inductive Cause where
  | illop | allot | empty | misalign | acchaz | oplent | graphuf | spawnq | pfault | prot | rlink | poison | tfield | brk | ecall
  | drisk
  deriving DecidableEq, Repr

/-! ## Contexts -/

/-- One entry of a register file: value, full bit, and poison (R66, R313). -/
structure RegEntry where
  val : Word
  full : Bool
  poison : Bool
  deriving DecidableEq, Repr

/-- Why a context is parked (R169). -/
inductive Why where
  | operands | buffer | queue | credit | duty | flags
  /-- some bytes of a load are covered by buffered stores (R91) -/
  | cover
  | page (walk : Nat)
  deriving DecidableEq, Repr

/-- A thread or group instruction, or a `tick`, that has issued and waits for its order duty before it leaves the context
(R117, R161). -/
inductive Owed where
  | spawn (rd : Reg) (core : Nat) (addr : Word) (words : List Word)
  | go (core : Nat) (addr : Word) (words : List Word)
  | bar (rd : Reg) (group : Nat)
  | tsig (node : Word)
  | tick (x : Word)
  deriving DecidableEq, Repr

/-- What a held context waits for (R169). -/
inductive Hold where
  /-- the accesses and stores before `upto` -/
  | owe (what : Owed) (upto : Nat)
  | spawn (rd : Reg) (flight : Nat)
  | go (flight : Nat)
  /-- `quit`, and the end of a context without a handler -/
  | quit (upto : Nat)
  /-- a fault record of a trap without handler waits to be written (R295, R301) -/
  | record
  /-- an answer on its way: to `join`, `leave`, a completed `bar`, a refused `spawn` -/
  | answer (rd : Reg) (v : Word)
  | bar (rd : Reg) (group : Nat)
  | tsig (node : Word)
  /-- the answer to a `tsig`: none, or the trap it makes -/
  | tsigDone (cause : Option Cause) (tval : Word)
  /-- `park`: the request while it reads, then the line it watches -/
  | park (req : Option Nat) (loc : Loc)
  | tick (field : Nat)
  | vector
  | mwait (x : BitVec 32)
  | cfence
  | cwait (ch : Nat) (x : Word)
  | tlbi (id : Nat)
  /-- a port operation of a word: pop first, then the word again with its value (R244) -/
  | pop (port : Reg) (id : Nat)
  | push (port : Reg) (id : Nat)
  deriving DecidableEq, Repr

inductive Status where
  | ready
  | parked (why : Why)
  | held (h : Hold)
  deriving DecidableEq, Repr

/-- What keeps a context from issuing memory words (R105, R115). -/
inductive Duty where
  /-- until the access has its value -/
  | acq (req : Nat)
  /-- no global store until the atomic is performed -/
  | noStore (req : Nat)
  /-- a fence issued at `pc` when `upto` was the next id -/
  | fence (scope : BitVec 2) (upto : Nat) (pc : Word)
  deriving DecidableEq, Repr

/-- A resident context (R66 to R79, R169). -/
structure Ctx where
  base : Nat
  size : Nat
  pc : Word
  vmid : BitVec 16
  tslot : Nat
  node : Option NodeRef
  prio : BitVec 5
  grp : Option (BitVec 16) := none
  smap : BitVec 32 := 0
  fflags : BitVec 5 := 0
  frm : BitVec 2 := 0
  vlen : BitVec 13 := 16
  mfmt : BitVec 8 := 0
  mscla : BitVec 17 := 0
  msclb : BitVec 17 := 0
  tvec : Word := 0
  tcause : Word := 0
  tval : Word := 0
  epc : Word := 0
  repc : Word := 0
  energyh : BitVec 32 := 0
  status : Status := .ready
  /-- served by a stream lane, not the rotation (R170) -/
  stream : Bool := false
  /-- benching causes (R175): power, purse, pre-emption, thermal -/
  benchPower : Bool := false
  benchPurse : Bool := false
  benchPre : Bool := false
  benchHot : Bool := false
  /-- being stopped for a save, and the stores that its release covers are those before this id (R79, R135) -/
  saving : Bool := false
  saveFrom : Nat := 0
  /-- `yield`: does not issue in the next rotation (R121) -/
  yields : Nat := 0
  duties : List Duty := []
  /-- the first store id that no earlier `fence.dom` of the context has covered (R359) -/
  domSeen : Nat := 0
  /-- POISON and RLINK traps to take before the next word (R94): cause and address -/
  pend : List (BitVec 8 × Word) := []
  /-- the range a stream core skips (R103) -/
  skip : Option (Word × Word) := none
  /-- the answered element of a pop that the same word will use (R244) -/
  popped : Option Word := none
  /-- the load that the context tries next waited for buffered stores older than this id, and takes its bytes at their home (R91) -/
  cover : Option Nat := none
  /-- the trap that a port operation answered (R245) -/
  portTrap : Option (Cause × Word) := none
  /-- where the word that holds stands and the run it belongs to, for a trap or withdrawal of it, and the flags that it raises once its
  push is answered (R127, R220, R247) -/
  heldPc : Word := 0
  heldRepc : Word := 0
  heldFlags : BitVec 5 := 0
  /-- the word of the next beat has issued already, as a push that held the beat (R207) -/
  early : Bool := false
  /-- benching takes effect at its own turn: what the last one found (R174) -/
  stopped : Bool := false
  /-- batch records (R189, R190) -/
  committed : BitVec 32 := 0
  completed : BitVec 32 := 0
  /-- deadline class of the node's entry (R327) -/
  dclass : BitVec 3 := 0
  /-- a deadline-risk handler; made by a Trailhead arrival (R77) -/
  hdlr : Bool := false
  net : Bool := false
  deriving DecidableEq, Repr

/-! ## Engines of a core -/

/-- A row of the operand latch, with the scale line that travels with it (R188, R251). -/
structure LatchRow where
  bytes : List Byte
  scale : Option (List Byte)
  /-- on its way: the command that passes it on (R257) -/
  cmd : Nat := 0
  deriving DecidableEq, Repr

inductive MKind where
  | mma | rot | mstc | mldc
  deriving DecidableEq, Repr

inductive MState where
  | waiting | running | suspended | draining
  deriving DecidableEq, Repr

/-- A matrix command in the engine queue, in issue order (R188, R257, R317). -/
structure MCmd where
  id : Nat
  ctx : Nat
  kind : MKind
  word : W32
  bank : Bool
  sd : Bool
  z : Bool
  depth : Nat
  a : Word
  b : Word
  mfmt : BitVec 8
  mscla : BitVec 17
  msclb : BitVec 17
  prio : BitVec 5
  batch : BitVec 32
  state : MState
  /-- next k, or next 64-byte line of `mstc` and `mldc` -/
  k : Nat
  /-- cycles waited since issue or suspension (R258) -/
  waited : Nat
  /-- pages of the lines of `mstc` and `mldc` -/
  pages : List Page
  /-- effective priority at start (R258) -/
  frozen : Nat
  /-- the code table in force when the command started (R226) -/
  ctab : List Byte
  /-- the commands that must complete before an `mstc` or `mldc` starts: those of the writer's batch, and of the batches that
  complete before it (R189, R256) -/
  after : List Nat := []
  /-- the scale line in force for B (R251) -/
  bscale : List Byte := []
  /-- B rows of the group under way that an `mma.rot` has taken (R188) -/
  got : List LatchRow := []
  deriving DecidableEq, Repr

/-- The last writer of a bank: its context and batch, and whether the context ended with that batch open (R256). -/
structure Writer where
  ctx : Nat
  batch : BitVec 32
  stuck : Bool := false
  deriving DecidableEq, Repr

inductive ChanKind where
  | copy | sub (pull : Bool)
  deriving DecidableEq, Repr

/-- A busy copy channel (R261 to R267). -/
structure Chan where
  id : Nat
  /-- the context that issued it, while it lives -/
  ctx : Option Nat
  /-- the launch node of that context, which is not done while the command runs (R287) -/
  node : Option NodeRef := none
  tslot : Nat
  /-- the source line whose poison or failed link the running command has recorded, and the destination line that it has written
  poisoned, by line number plus one (R260) -/
  badLine : Nat := 0
  badDst : Nat := 0
  kind : ChanKind
  srcSp : Bool
  dstSp : Bool
  src : Word
  dst : Word
  len : Nat
  done : Nat
  group : Option (BitVec 16)
  srcPages : List Page
  dstPages : List Page
  /-- subscription: descriptor address, strides, tile count, slot bytes, slots, landed, retired, pulled back -/
  desc : Word := 0
  sstride : Word := 0
  dstride : Word := 0
  count : Nat := 0
  slotb : Nat := 0
  slots : Nat := 0
  ring : Nat := 0
  landed : Nat := 0
  retired : Nat := 0
  pulled : Nat := 0
  deriving DecidableEq, Repr

/-- A vector word in the core's vector unit (R235 to R237). -/
structure VCmd where
  ctx : Nat
  op : Nat
  f3 : Nat
  rd : Reg
  ra : Reg
  rb : Reg
  d : Nat
  a : Nat
  b : Nat
  len : Nat
  frm : BitVec 2
  /-- next step -/
  step : Nat
  flags : BitVec 5
  /-- scale pair that the first step of a BD block chose or read -/
  e0 : Nat
  e1 : Nat
  /-- the sources of a block that its first step read, for its second (R236) -/
  held : List Nat := []
  deriving DecidableEq, Repr

/-- The step record of a core (R323). -/
structure StepRec where
  id : BitVec 16
  deadline : Word
  work : BitVec 48
  handler : Word
  ctx : Nat
  /-- the tenant of the declaring context -/
  tslot : Nat
  vmid : BitVec 16
  dclass : BitVec 3
  t0 : Word
  p : Word
  tl : Word
  drisk : Bool
  deriving DecidableEq, Repr

/-- A continuation (R77) with what the device knows of it beside its 64 bytes. -/
structure Cont where
  words : List Word
  vmid : BitVec 16
  tslot : Nat
  node : Option NodeRef
  dclass : BitVec 3
  /-- a DRISK handler's own trap vector, `none` where its header's offset is zero (R296) -/
  tvec : Option Word
  /-- `tcause` at the start: nonzero for a DRISK handler (R298) -/
  tcause : Word
  deriving DecidableEq, Repr

/-- The overflow ring of a core (R182). -/
structure Ring where
  base : Word
  log2n : Nat
  head : BitVec 16
  tail : BitVec 16
  vmid : BitVec 16
  tslot : Nat
  /-- what the device knows of each spilled record, oldest first -/
  known : List Cont
  /-- refill waits for RESOLVE of this token (R183) -/
  blocked : Option (BitVec 32)
  retry : Bool
  deriving DecidableEq, Repr

/-- A context saved by pre-emption (R79, R292): its id at the save, and what the device knows of it beside the bytes of its save area.
With `area`, its engine state was written to its core's area (R317). -/
structure SavedCtx where
  id : Nat
  /-- stands for the context in its core's step record (R323) -/
  mark : Nat
  ctx : Ctx
  area : Bool
  mq : List MCmd
  chans : AMap Chan
  last0 : Option Writer
  last1 : Option Writer
  /-- the operand latch was saved with it: its rows, those on their way among them, and the row that the engine held for the east (R188,
  R259) -/
  ring : Bool := false
  latch : List LatchRow
  sending : Option LatchRow := none
  step : Option StepRec
  /-- its core area has been written back, which comes before any context of the core is placed (R320) -/
  loaded : Bool := false
  /-- stores that a failed device dropped: id and line (R359) -/
  drops : List (Nat × Loc)
  /-- poisoned registers, and poisoned granules of the reserved scratchpad -/
  bad : List Nat
  spBad : List Nat
  deriving DecidableEq, Repr

/-- Scratchpad bytes of benched contexts that the core area keeps while a higher node uses them (R317): whose they are, how many, and
which granules were poisoned. -/
structure KeptScratch where
  tslot : Nat
  node : Option NodeRef
  bytes : Nat
  bad : List Nat
  deriving DecidableEq, Repr

/-- The rotation of a core (R170, R171). -/
structure Rot where
  order : List Nat
  turn : Nat
  issued : List Nat
  /-- slots freed since the rotation began -/
  gone : List Nat := []
  deriving DecidableEq, Repr

/-- A logical core (R2, R4). -/
structure Core where
  ctxs : AMap Ctx := []
  rf : AMap RegEntry := []
  sp : Memory := []
  spPoison : List Nat := []
  l1 : List L1Line := []
  pcc : List Page := []
  sbuf : List SbEntry := []
  a0 : AMap (BitVec 32) := []
  a1 : AMap (BitVec 32) := []
  /-- last writer of each bank: context id, batch id (R256) -/
  last0 : Option Writer := none
  last1 : Option Writer := none
  latch : List LatchRow := []
  /-- rows on their way into the latch (R188, R213) -/
  inbound : List LatchRow := []
  /-- the row that the engine has taken and not yet appended east (R188) -/
  sending : Option LatchRow := none
  mq : List MCmd := []
  chans : AMap Chan := []
  cwp : AMap Nat := []
  lastChan : Nat := 3
  ctab : Option Nat := none
  ctabBytes : List Byte := []
  vq : List VCmd := []
  /-- SFU credits in use (R185) -/
  sfuUsed : Nat := 0
  ribpos : BitVec 13 := 0
  seg : Word := 0
  /-- home-window size that system software set, and in force (R177) -/
  winSet : Nat := 0
  win : Nat := 0
  arrivals : List Cont := []
  ring : Option Ring := none
  step : Option StepRec := none
  hint : BitVec 2 := 0
  div : Nat := 1
  rot : Rot := ⟨[], 0, [], []⟩
  /-- saved contexts that wait to be placed back, in order (R293) -/
  saved : List SavedCtx := []
  /-- the core area holds a saved state (R319), which may be the scratchpad of benched contexts (R317) -/
  areaUsed : Bool := false
  kept : Option KeptScratch := none
  /-- stopped by an uncorrectable error, no core in this column until the remap (R314, R315) -/
  dead : Bool := false
  deriving DecidableEq, Repr

/-- A row: its operating point, the caps of R322, and its quarantined physical columns (R7, R315). -/
structure Row where
  point : Nat := 7
  /-- at or above CRIT at its last reading, and not below THROT since (R331) -/
  hot : Bool := false
  thermal : Nat := 7
  power : Nat := 7
  quarantined : List Nat := []
  /-- quarantined since the last remap point -/
  pending : List Nat := []
  deriving DecidableEq, Repr

/-! ## Issue -/

/-- A word about to issue. -/
inductive Lane where
  /-- the barrel: a slot tried at a turn, with the slots still to be tried if it parks (R171) -/
  | barrel (core slot : Nat) (others : List Nat)
  /-- a stream word at a position of a segment (R198) -/
  | stream (seg pos core slot : Nat)
  /-- the sequencer of a segment executes a word of its own class -/
  | sequencer (seg : Nat)
  /-- not a word: the probes of a beat are in, and the beat is held, aborted or carried out (R206) -/
  | decide (seg : Nat)
  deriving DecidableEq, Repr

/-- A repetition of a REP run: prefix address, index, repetitions left with this one, extra byte offset, prefix word (R63). -/
structure RepRun where
  p : Word
  i : Nat
  left : Nat
  off : Word
  deriving DecidableEq, Repr

structure Issue where
  lane : Lane
  /-- tried only: the answer is recorded for the beat and nothing happens (R206) -/
  probe : Bool
  /-- the word, if it was fetched already -/
  word : Option W32
  pc : Word
  rep : Option RepRun
  deriving DecidableEq, Repr

/-- What the checks of a word answer (R56, R172). -/
inductive Verdict where
  | go
  | trap (c : Cause) (tval : Word)
  | park (why : Why)
  /-- a page without an entry: asked of the slice, then parked (R90) -/
  | walk (va : Word) (write fetch : Bool)
  /-- the word reads this input port, whose element is not yet here; its W bit, false for a format without one, and its destination
  (R244) -/
  | pop (port : Reg) (w : Bool) (dst : Option Reg)
  /-- the checks pass, and the word's result goes to an output port (R244): in a stream beat it is pushed first (R207) -/
  | goPush
  deriving DecidableEq, Repr

/-! ## Row streams -/

/-- A word travelling east. -/
structure PipeWord where
  word : W32
  pc : Word
  rep : Option RepRun
  /-- the first position that executes it: those before it had done so when their segment was saved (R212) -/
  first : Nat := 0
  deriving DecidableEq, Repr

inductive SegPhase where
  | running
  /-- `rend` executed, or aborted with words still to drain (R205, R211) -/
  | ending (failed : Bool)
  /-- held for a save (R212) -/
  | held
  deriving DecidableEq, Repr

/-- What a sequencer does in one stream beat (R199). -/
structure Plan where
  /-- the word sent east; `none` is a bubble -/
  send : Option PipeWord := none
  pc : Word
  bubbles : Nat := 0
  repRun : Option (Nat × Nat) := none
  /-- words still to send again -/
  again : List PipeWord := []
  rowWait : Option (BitVec 4 × Bool × Bool × Nat) := none
  /-- a word of the sequencer's own class -/
  own : Option W32 := none
  /-- a word that the sequencer finds faulty: cause, `tval`, address (R211) -/
  fail : Option (Cause × Word × Word) := none
  deriving DecidableEq, Repr

/-- An active segment (R195 to R212). -/
structure Seg where
  tslot : Nat
  vmid : BitVec 16
  node : Option NodeRef
  die : Nat
  row : Nat
  index : Nat
  size : Nat
  span : Nat
  allot : Nat
  dclass : BitVec 3 := 0
  pc : Word
  k : AMap Word := []
  phase : SegPhase := .running
  /-- word at each position, 0 first; `none` is a bubble -/
  pipe : List (Option PipeWord) := []
  beat : Nat := 0
  /-- bubbles owed after a taken sequencer branch -/
  bubbles : Nat := 0
  /-- a `rowany` or `rowall` outstanding: register, any, predicate so far, beats left (R203) -/
  rowWait : Option (BitVec 4 × Bool × Bool × Nat) := none
  repRun : Option (Nat × Nat) := none
  /-- words sent before a save that cores of the restored segment have still to execute, oldest first: they are sent again (R212) -/
  again : List PipeWord := []
  /-- held beats owed for a divider change (R197) -/
  hold : Nat := 0
  /-- position, core and slot of each logical core -/
  cores : List (Nat × Nat × Nat) := []
  /-- answers of the probes of the beat under way: position and verdict -/
  probes : List (Nat × Verdict) := []
  /-- what the sequencer does in the beat under way, if it is not held -/
  plan : Option Plan := none
  walk : Option Nat := none
  div : Nat := 1
  /-- its last word is done: the stores that its completion waits for are those before this id (R205) -/
  upto : Option Nat := none
  deriving DecidableEq, Repr

/-- A saved segment (R212, R291): where its sequencer area is, what it was, and its contexts from west to east. -/
structure SavedSeg where
  id : Nat
  key : Nat
  seg : Seg
  ctxs : List SavedCtx
  deriving DecidableEq, Repr

/-! ## Tenants -/

/-- A fault record that waits for room in the ring, with what it releases (R301). -/
structure FaultRec where
  words : List Word
  /-- a context (id) or segment that waits for the write -/
  ctx : Option Nat
  seg : Option Nat
  deriving DecidableEq, Repr

/-- What a token names (R302). -/
inductive Waiter where
  | walk (id : Nat)
  | loader (launch node : Nat)
  | stream (id : Nat)
  | refill (core : Nat)
  | dispatch (launch node : Nat)
  | trailhead (port flow : Nat)
  /-- a request that a peer or the host made of this device, or that this device made of itself -/
  | remote (id : Nat)
  deriving DecidableEq, Repr

/-- The fault words of a control page or of the partition page (R300). -/
structure FaultWords where
  tdefvec : Word := 0
  stroot : Word := 0
  log2n : Nat := 0
  base : Word := 0
  head : BitVec 32 := 0
  tail : BitVec 32 := 0
  lost : BitVec 32 := 0
  token : BitVec 32 := 1
  waiting : List FaultRec := []
  /-- what each token names, and the ADDR of its record -/
  waiters : List (BitVec 32 × Waiter × Word) := []
  deriving DecidableEq, Repr

/-- The states of a tick unit (R153): in ACK, the slices that have not acknowledged, and the context to answer. -/
inductive UnitState where
  | idle | hold | ack (acks : List Nat) (req : Option Nat)
  deriving DecidableEq, Repr

/-- A trail field: its descriptor, its count at every slice, its tick unit and its scrubber pass (R146 to R157). -/
structure Field where
  en : Bool := false
  enabling : Bool := false
  disabling : Bool := false
  src : Bool := false
  err : Bool := false
  num : BitVec 4 := 0
  tick : BitVec 16 := 0
  base : Word := 0
  period : BitVec 32 := 0
  pages : BitVec 16 := 0
  late : BitVec 32 := 0
  /-- count at slice *d*·64 + slice, where it differs from `tick` -/
  slices : AMap (BitVec 16) := []
  /-- slices that have not taken the count of an enable -/
  toEnable : List Nat := []
  unit : UnitState := .idle
  /-- requests of contexts waiting, in order: context ids -/
  queue : List Nat := []
  /-- due and undelivered timebase requests, and the oldest due time -/
  due : BitVec 64 := 0
  dueAt : Nat := 0
  /-- next due time of the timebase -/
  nextDue : Nat := 0
  fromBase : Bool := false
  /-- scrubber: a first pass has begun; count at which the pass started, next word of the region -/
  passOn : Bool := false
  passStart : BitVec 16 := 0
  passPos : Nat := 0
  deriving DecidableEq, Repr

/-- A group (R123). -/
structure Group where
  members : BitVec 32 := 0
  arrived : BitVec 32 := 0
  phase : BitVec 32 := 0
  pending : Word := 0
  deriving DecidableEq, Repr

/-- A queue of the launch page (R278). -/
structure Queue where
  en : Bool := false
  prio : BitVec 5 := 0
  argbase : BitVec 42 := 0
  accepted : Word := 0
  done : Word := 0
  failed : Word := 0
  refused : Word := 0
  lasterr : Word := 0
  /-- the first dispatcher cycle in which the head may become eligible (R285) -/
  idleFrom : Nat := 0
  deriving DecidableEq, Repr

inductive NodePhase where
  | waiting | ready (cycle : Nat) | running | complete | dropped
  deriving DecidableEq, Repr

/-- A node of a launch. -/
structure LNode where
  counter : Nat
  phase : NodePhase
  /-- SWARM: quota count and initial threads delivered or found unplaceable -/
  live : Nat := 0
  delivered : Nat := 0
  /-- ROW: segments still active, by key, or saved, by 512 and the id of the save -/
  segs : List Nat := []
  /-- COPY: loader progress in bytes, and the claim -/
  moved : Nat := 0
  cmd : Nat := 0
  srcPages : List Page := []
  dstPages : List Page := []
  started : Nat := 0
  /-- waiting for a fault record's RESOLVE -/
  token : Option (BitVec 32) := none
  failed : Bool := false
  /-- SWARM: the placement addresses and BOOT records as they were read when it started; those after the last are still to be read
  once a fault on them is resolved (R273) -/
  places : List Word := []
  boots : List (List Word) := []
  /-- COPY: the source line whose poison or failed link is recorded, and the destination line written poisoned, by line number plus one
  (R260) -/
  badLine : Nat := 0
  badDst : Nat := 0
  deriving DecidableEq, Repr

/-- A launch, accepted and not yet finished (R284 to R289). -/
structure Launch where
  id : Nat
  number : Word
  queue : Nat
  handle : Nat
  args : Word
  /-- dispatcher cycle of acceptance, and of eligibility (R285) -/
  since : Nat
  eligible : Option Nat
  prio : BitVec 5
  nodes : List LNode
  failed : Bool := false
  /-- the last decrements: cycle, node, completion or `tsig`, context (R276) -/
  lastDec : Option (Nat × Nat × Nat × Nat) := none
  deriving DecidableEq, Repr

/-- The header values of a node's entry that a start needs (R41, R43, R44). -/
structure Kernel where
  role : Nat
  allot : Nat
  spbytes : Nat
  winbytes : Nat
  prio : BitVec 5
  dclass : BitVec 3
  /-- `none` where the entry's handler offset is zero (R296) -/
  tvec : Option Word
  deriving DecidableEq, Repr

/-- A registered node: its record's eight words and its entry's header. -/
structure GNode where
  words : List Word
  kernel : Kernel
  /-- ROW: the segments of its ROWS list, by key (R282) -/
  segs : List Nat := []
  deriving DecidableEq, Repr

structure Graph where
  nodes : List GNode
  releasing : Bool := false
  deriving DecidableEq, Repr

/-- A counter of R343. -/
structure Counter where
  sel : Word := 0
  val : Word := 0
  deriving DecidableEq, Repr

/-- A tenant slot with its control page and launch page (R278, R300, R332, R335, R338, R340, R343). -/
structure Tenant where
  en : Bool := false
  vmid : BitVec 16 := 0
  rows : BitVec 128 := 0
  slices : BitVec 128 := 0
  channels : BitVec 256 := 0
  engines : BitVec 11 := 0
  s2root : BitVec 36 := 0
  rate : BitVec 32 := 0
  burst : BitVec 32 := 0
  /-- token counts of the channels, in thousandths of a byte, and the time each was brought up to date; BURST where there is none
  (R344) -/
  tokens : AMap (Int × Nat) := []
  faults : FaultWords := {}
  telLog2n : Nat := 0
  telBase : Word := 0
  telHead : BitVec 32 := 0
  telTail : BitVec 32 := 0
  telEn : Bool := false
  telPeriod : BitVec 28 := 0
  telLost : BitVec 32 := 0
  purse : Word := 0x7FFFFFFFFFFFFFFF
  overdraft : Word := 0
  energy : Word := 0
  rowdef : BitVec 3 := 7
  rowcap : BitVec 3 := 7
  pcap : BitVec 32 := 0
  counters : AMap Counter := []
  fields : AMap Field := []
  grants : AMap (BitVec 7) := []
  groups : AMap Group := []
  regBusy : Bool := false
  regHandle : BitVec 10 := 0
  regStatus : BitVec 8 := 0
  /-- a registration (image address) or a release (handle) under way -/
  regJob : Option Word := none
  unregJob : Option Nat := none
  savebase : BitVec 42 := 0
  queues : AMap Queue := []
  graphs : AMap Graph := []
  launches : List Launch := []
  lastQueue : Nat := 63
  /-- the first dispatcher cycles in which another launch may become eligible, another node start, another record go out (R275, R285) -/
  eligFrom : Nat := 0
  startFrom : Nat := 0
  sendFrom : Nat := 0
  /-- started SWARM nodes with initial threads to deliver, in order: launch id, node -/
  delivering : List (Nat × Nat) := []
  /-- saved segments, in the order of their pre-emption (R290) -/
  savedSegs : List SavedSeg := []
  drisks : Nat := 0
  /-- when its next telemetry sample is due (R335) -/
  telNext : Nat := 0
  deriving DecidableEq, Repr

/-! ## The rest of the package -/

/-- Where a continuation on its way came from. -/
inductive Sender where
  | ctx (id : Nat)
  | node (launch node : Nat)
  | risk (core : Nat)
  | flow (port flow : Nat)
  deriving DecidableEq, Repr

/-- What a core's port answered (R118, R179). -/
inductive Answer where
  | status (n : Nat)
  | noRoom
  | prot
  | spawnq
  deriving DecidableEq, Repr

/-- A continuation on its way to a core's port, or its answer on the way back (R178, R179). -/
structure Flight where
  id : Nat
  core : Nat
  cont : Cont
  sender : Sender
  isGo : Bool
  /-- the address that chose the core -/
  addr : Word
  answer : Option Answer := none
  deriving DecidableEq, Repr

/-- A request in an octet's ring or unit (R185, R186). -/
structure SfuReq where
  id : Nat
  ctx : Nat
  rd : Reg
  fn : Nat
  x : BitVec 32
  accepted : Bool
  deriving DecidableEq, Repr

structure Octet where
  last : Nat := 7
  reqs : List SfuReq := []
  deriving DecidableEq, Repr

/-- A port operation at a stream unit (R245). -/
structure PortOp where
  id : Nat
  ctx : Nat
  push : Bool
  w : Bool
  desc : Word
  v : Word
  page : Page
  /-- the destination that a popping word left empty (R244) -/
  dst : Option Reg := none
  /-- what the release of a push waits for (R246) -/
  upto : Nat
  answered : Bool := false
  value : Word := 0
  cause : Option Cause := none
  tval : Word := 0
  token : Option (BitVec 32) := none
  /-- when it arrived at its unit, as an id: a push once its release is met (R245, R246) -/
  arrived : Option Nat := none
  deriving DecidableEq, Repr

/-- An invalidation under way (R309, R310, R349): operations 0 to 3 as R309 names them, 4 for a channel (R342), 5 for a key (R348), and 6 for
the owner of a row before its remap (R315). -/
structure Tlbi where
  id : Nat
  op : Nat
  vmid : BitVec 16
  addr : Word
  /-- context that waits; `none` for the host's -/
  ctx : Option Nat
  /-- requests, stores and commands older than this must be gone -/
  upto : Nat
  sent : Bool
  deriving DecidableEq, Repr

/-- A peer's or the host's request that waits here: on the record of a translation that failed, or at its home unit on a claimed
line or a channel's limit (R137, R344, R354, R356). -/
structure RemoteWait where
  id : Nat
  token : Option (BitVec 32)
  vmid : BitVec 16
  op : PeerOp
  off : Nat
  size : Nat
  /-- from the host's memory aperture, where `off` is the virtual address, or from its register aperture -/
  host : Bool := false
  reg : Bool := false
  /-- it releases: earlier requests of its sender are performed first; it acquires: later ones wait for it (R357) -/
  rel : Bool := false
  acq : Bool := false
  deriving DecidableEq, Repr

/-- What leaves the package through a port. -/
inductive Out where
  /-- an answer to the host: value and whether it is an error response (R356) -/
  | host (v : Word) (err : Bool)
  /-- an answer to a peer's request: value, and whether the data is poisoned -/
  | peer (v : Word) (poison : Bool)
  /-- a write to a peer or the host, with its tenant, and whether the data is poisoned -/
  | write (loc : Loc) (size : Nat) (v : Word) (vmid : BitVec 16) (poison : Bool)
  /-- an atomic for a peer or the host to perform: function code and operands (R112, R354) -/
  | atomic (loc : Loc) (size fn : Nat) (b c : Word) (vmid : BitVec 16)
  /-- the boot ROM's report that both firmware images failed (R350) -/
  | bootFailed
  /-- the count of corrected errors so far, as telemetry counts them (R313, R331) -/
  | corrected (n : Nat)
  /-- a read on the management port (R367) -/
  | debug (v : Word)
  deriving DecidableEq, Repr

structure Peer where
  up : Bool := false
  epoch : BitVec 16 := 0
  ports : BitVec 16 := 0
  deriving DecidableEq, Repr

/-- A flow entry of a Trailhead port (R363). -/
structure Flow where
  en : Bool := false
  prio : BitVec 5 := 0
  vmid : BitVec 16 := 0
  alloc : BitVec 4 := 0
  off : BitVec 6 := 0
  value : Word := 0
  mask : Word := 0
  stream : Word := 0
  buf : Word := 0
  entry : Word := 0
  drop : BitVec 32 := 0
  noarr : BitVec 32 := 0
  seq : Word := 0
  deriving DecidableEq, Repr

/-- A frame in a staging buffer (R366). -/
structure Frame where
  flow : Nat
  /-- its number in the flow -/
  t : Word
  stamp : Word
  drop : BitVec 32
  bytes : List Byte
  token : Option (BitVec 32) := none
  retry : Bool := false
  deriving DecidableEq, Repr

structure Port where
  en : Bool := false
  maxlen : BitVec 14 := 1518
  bad : BitVec 32 := 0
  noMatch : BitVec 32 := 0
  flows : AMap Flow := []
  staging : List Frame := []
  deriving DecidableEq, Repr

/-- An event that is due: how long after the one before it, what it is, and its operands. -/
structure Due where
  dt : Nat
  ev : Instr
  arg : EvArg
  deriving DecidableEq, Repr

/-- The firmware of one bank. -/
structure Bank where
  image : List Byte := []
  verified : Bool := false
  deriving DecidableEq, Repr

/-- The firmware's words, its banks, and the command under way (R350 to R353). -/
structure Firmware where
  addr : Word := 0
  nonce : AMap Word := []
  busy : Bool := false
  active : Bool := false
  status : BitVec 8 := 0
  switches : BitVec 8 := 0
  bank0 : Bank := {}
  bank1 : Bank := {}
  /-- next one-time index of the identity key -/
  keyIndex : Nat := 0
  switching : Bool := false
  /-- the outcome of the command under way -/
  result : BitVec 8 := 0
  /-- stores and requests held during a switch, in order (R353) -/
  heldStores : List Due := []
  /-- both images failed: the device stays in reset (R350) -/
  inReset : Bool := false
  deriving DecidableEq, Repr

/-- A store that a failed device dropped: context, store id, line (R359). -/
structure Drop where
  ctx : Nat
  id : Nat
  line : Loc
  /-- the device has been restored since -/
  old : Bool := false
  deriving DecidableEq, Repr

/-- A line that a held `park` watches, and whether it has been written since the read (R122). -/
structure Watch where
  ctx : Nat
  line : Loc
  written : Bool
  deriving DecidableEq, Repr

/-- A memory image that contexts of a launch fetch from (R100): the bytes as they stood when the node was launched. -/
structure Snapshot where
  launch : Nat
  mem : Memory
  deriving DecidableEq, Repr

/-- The whole package. -/
structure State where
  /-- device time in ns (R8) -/
  time : Word
  cores : AMap Core
  rows : AMap Row
  segs : AMap Seg
  tenants : AMap Tenant
  /-- the hypervisor's fault words in the partition page (R300) -/
  hyp : FaultWords
  /-- HBM bytes by physical address -/
  mem : Memory
  /-- 4-byte granules marked poisoned, by the quarter of their physical address (R313) -/
  poisoned : List Nat
  /-- lines of HBM by the key generation they were written under, where it is not the first of key 0 (R346) -/
  lineKeys : AMap Nat
  /-- the lines that slices hold, by line number of their physical address (R342, R370) -/
  lines : AMap SliceLine
  images : List Snapshot
  claims : List Claim
  reqs : List Req
  walks : List Walk
  /-- stage-1 results that slices cache (R307) -/
  s1cache : List S1
  flights : List Flight
  octets : AMap Octet
  ports : List PortOp
  tlbis : List Tlbi
  remoteWaits : List RemoteWait
  /-- stores that a failed device dropped (R359) -/
  dropped : List Drop
  /-- lines that held `park`s watch (R122) -/
  watches : List Watch
  /-- Vault: key id to owner, and the generation of each key (R347, R348) -/
  vault : AMap (BitVec 16)
  keyGen : AMap Nat
  vBusy : Bool
  vStatus : BitVec 8
  vJob : Option (BitVec 8)
  tBusy : Bool
  tStatus : BitVec 8
  invAddr : Word
  invBusy : Bool
  plim : Word
  therm : Word
  /-- contexts benched to meet a limit, in order: context and limit, 64 for FAST and a slot for its CAP; and the windows below each
  limit since (R330) -/
  fastBench : List (Nat × Nat)
  fastCalm : AMap Nat
  /-- limits whose average has been exceeded and is not yet below: 64 for SLOW, and a slot for its CAP (R330) -/
  lowering : List Nat
  /-- rows whose power cap was lowered, latest first: row and limit (R330) -/
  lowered : List (Nat × Nat)
  hottest : BitVec 32
  energyPage : AMap Word
  fw : Firmware
  domEn : Bool
  dev : BitVec 6
  hostUp : Bool
  hostEpoch : BitVec 32
  peers : AMap Peer
  /-- peer ports whose link is up -/
  linkUp : BitVec 16
  /-- device time at which a peer port lost its link (R359) -/
  linkLost : AMap Nat
  trail0 : Port
  trail1 : Port
  frozen : Bool
  corrected : Nat
  /-- source of ids for requests, walks, commands and flights -/
  nextId : Nat
  /-- dispatcher cycles so far (R275) -/
  cycle : Nat
  /-- free values taken so far -/
  free : Nat
  out : List Out
  /-- words to issue before anything else, as one step of the part with what queued them -/
  issuing : List Issue
  /-- the word being issued, and the operands of the event being executed -/
  cur : Issue
  arg : EvArg
  /-- what happens next, in order; then cycles of one core -/
  agenda : List Due
  idleCore : Nat
  deriving DecidableEq, Repr

/-- Why a step stops. -/
inductive Fault where
  /-- raised by a meaning asked to issue a word while `cur` names no resident context or active segment: no party issues it. Safe:
  the machine's own steps never ask for it. -/
  | noIssuer
  deriving DecidableEq, Repr

/-- Why an instruction is refused. -/
inductive Refusal where
  /-- raised by `exec` for an instruction without a meaning. Safe. -/
  | notModelled (mnemonic : String)
  deriving DecidableEq, Repr

/-- All ones of a width. -/
abbrev allOnes (n : Nat) : BitVec n := BitVec.allOnes n

/-- Slot 0 at reset: enabled with VMID 0, owner of every resource (R338). -/
def Tenant.hypervisor : Tenant :=
  { en := true, vmid := 0, rows := allOnes 128, slices := allOnes 128, channels := allOnes 256, engines := allOnes 11 }

/-- No word: what `cur` holds before the first issue (log entry 4). -/
def Issue.none : Issue := { lane := .barrel 0 0 [], probe := false, word := Option.none, pc := 0, rep := Option.none }

/-- The package right after reset: no context, no launch, slot 0 the owner of everything (R338), memory with nothing listed. The
values that the manual gives no reset value are those of log entries 1 to 5. -/
def State.reset : State where
  time := 0
  cores := []
  rows := []
  segs := []
  tenants := [(0, Tenant.hypervisor)]
  hyp := {}
  mem := []
  poisoned := []
  lineKeys := []
  lines := []
  images := []
  claims := []
  reqs := []
  walks := []
  s1cache := []
  flights := []
  octets := []
  ports := []
  tlbis := []
  remoteWaits := []
  dropped := []
  watches := []
  vault := [(0, 0)]
  keyGen := []
  vBusy := false
  vStatus := 0
  vJob := none
  tBusy := false
  tStatus := 0
  invAddr := 0
  invBusy := false
  plim := 0x001B7740001E8480
  therm := 0x05F00690
  fastBench := []
  fastCalm := []
  lowering := []
  lowered := []
  hottest := 0
  energyPage := []
  fw := {}
  domEn := false
  dev := 0
  hostUp := false
  hostEpoch := 0
  peers := []
  linkUp := 0
  linkLost := []
  trail0 := {}
  trail1 := {}
  frozen := false
  corrected := 0
  nextId := 1
  cycle := 0
  free := 0
  out := []
  issuing := []
  cur := Issue.none
  arg := {}
  agenda := []
  idleCore := 0

end Sys2Proof.Machine
end

