-- ==== Sys2Proof/Machine/Ops.lean ====
section
/-! DEFINITION. The named operations over the state: fields of words, maps, memory, registers, translation, fault records, taking
a trap and returning from one, parking and retiring. -/

namespace Sys2Proof.Machine

abbrev Result := Host.Outcome State Fault Refusal

/-! ## Fields of words -/

/-- Bits `lo + n - 1` to `lo` of a doubleword, as a number (R10). -/
def fld (lo n : Nat) (w : Word) : Nat := (w.extractLsb' lo n).toNat

/-- One bit. -/
def bit (i : Nat) (w : Word) : Bool := w.getLsbD i

/-- Bits 47:0 sign-extended from bit 47 (R369). -/
def sext48 (w : Word) : Word := (w.extractLsb' 0 48).signExtend 64

/-- Bits 63:47 all equal (R89). -/
def canonical (a : Word) : Bool := sext48 a == a

/-- The address that a field of bits 47:`k` names (R369). -/
def baseOf (k : Nat) (w : Word) : Word := (sext48 w >>> k) <<< k

/-- A natural number as a doubleword, modulo 2^64. -/
def word (n : Nat) : Word := BitVec.ofNat 64 n

/-- Truth as 1 or 0. -/
def ofFlag (b : Bool) : Word := if b then 1 else 0

/-- `v` with the field at `lo` of width `n` replaced. -/
def putFld (lo n x : Nat) (v : Word) : Word :=
  (v &&& ~~~(((allOnes 64) >>> (64 - n)) <<< lo)) ||| ((word x &&& ((allOnes 64) >>> (64 - n))) <<< lo)

/-! ## Maps and lists -/

def amGet {α : Type} (m : AMap α) (k : Nat) : Option α :=
  match m with
  | [] => none
  | (i, x) :: r => if i = k then some x else amGet r k

def amGetD {α : Type} (d : α) (m : AMap α) (k : Nat) : α := (amGet m k).getD d

def amSet {α : Type} (m : AMap α) (k : Nat) (v : α) : AMap α :=
  match m with
  | [] => [(k, v)]
  | (i, x) :: r => if k < i then (k, v) :: (i, x) :: r else if k = i then (k, v) :: r else (i, x) :: amSet r k v

def amErase {α : Type} (m : AMap α) (k : Nat) : AMap α := m.filter fun e => e.1 != k

/-- The elements of a list changed where they satisfy `p`. -/
def updWhere {α : Type} (p : α → Bool) (f : α → α) (l : List α) : List α := l.map fun x => if p x then f x else x

/-! ## Memory: bytes in one canonical form -/

/-- The byte at an address; an unlisted one is 0 (log entry 1). -/
def memGet (m : Memory) (a : Nat) : Byte :=
  match m with
  | [] => 0
  | (b, v) :: r => if b = a then v else memGet r a

/-- A byte written, the canonical form kept. -/
def memSet (m : Memory) (a : Nat) (v : Byte) : Memory :=
  match m with
  | [] => if v = 0 then [] else [(a, v)]
  | (b, w) :: r =>
    if a < b then (if v = 0 then (b, w) :: r else (a, v) :: (b, w) :: r)
    else if a = b then (if v = 0 then r else (a, v) :: r)
    else (b, w) :: memSet r a v

/-- Addresses strictly rising from above `lo`, and no byte equal to what an unlisted address reads as. -/
def memFrom (lo : Option Nat) : Memory → Bool
  | [] => true
  | (a, v) :: r => (match lo with | none => true | some l => decide (l < a)) && v != 0 && memFrom (some a) r

/-- The canonical form of a memory. -/
def Memory.wf (m : Memory) : Bool := memFrom none m

/-- `n` bytes from `a` up. -/
def memBytes (m : Memory) (a n : Nat) : List Byte := (List.range n).map fun i => memGet m (a + i)

/-- Bytes written from `a` up. -/
def memPut (m : Memory) (a : Nat) (bs : List Byte) : Memory :=
  match bs with
  | [] => m
  | b :: r => memPut (memSet m a b) (a + 1) r

/-- The number that bytes make, least significant first (R50, R89). -/
def leNat (bs : List Byte) : Nat :=
  match bs with
  | [] => 0
  | b :: r => b.toNat + 256 * leNat r

/-- The `n` low bytes of a number, least significant first. -/
def leBytes (n v : Nat) : List Byte :=
  match n with
  | 0 => []
  | k + 1 => BitVec.ofNat 8 v :: leBytes k (v / 256)

/-! ## Cores, contexts, tenants -/

def getCore (s : State) (c : Nat) : Core := amGetD {} s.cores c
def setCore (s : State) (c : Nat) (k : Core) : State := { s with cores := amSet s.cores c k }
def modCore (s : State) (c : Nat) (f : Core → Core) : State := setCore s c (f (getCore s c))

/-- The core and the slot of a context id (R4). -/
def coreOf (cid : Nat) : Nat := cid / 64
def slotOf (cid : Nat) : Nat := cid % 64
def ctxId (core slot : Nat) : Nat := core * 64 + slot

def getCtx (s : State) (cid : Nat) : Option Ctx := amGet (getCore s (coreOf cid)).ctxs (slotOf cid)
def setCtx (s : State) (cid : Nat) (c : Ctx) : State :=
  modCore s (coreOf cid) fun k => { k with ctxs := amSet k.ctxs (slotOf cid) c }
def modCtx (s : State) (cid : Nat) (f : Ctx → Ctx) : State :=
  match getCtx s cid with
  | some c => setCtx s cid (f c)
  | none => s

/-- A context benched for any cause (R175). -/
def Ctx.benched (c : Ctx) : Bool := c.benchPower || c.benchPurse || c.benchPre || c.benchHot

def getTenant (s : State) (t : Nat) : Tenant := amGetD {} s.tenants t
def setTenant (s : State) (t : Nat) (x : Tenant) : State := { s with tenants := amSet s.tenants t x }
def modTenant (s : State) (t : Nat) (f : Tenant → Tenant) : State := setTenant s t (f (getTenant s t))

/-- The enabled slot of a VMID (R338). -/
def slotOfVmid (s : State) (v : BitVec 16) : Option Nat := (s.tenants.find? fun e => e.2.en && e.2.vmid == v).map (·.1)

def getSeg (s : State) (k : Nat) : Option Seg := amGet s.segs k
def setSeg (s : State) (k : Nat) (g : Seg) : State := { s with segs := amSet s.segs k g }
def modSeg (s : State) (k : Nat) (f : Seg → Seg) : State :=
  match getSeg s k with
  | some g => setSeg s k (f g)
  | none => s

/-- The row index *d*·64 + *y* of a core, its die, and its logical column (R4). -/
def rowOf (core : Nat) : Nat := core / 16
def dieOf (core : Nat) : Nat := core / 1024
def colOf (core : Nat) : Nat := core % 16

def getRow (s : State) (r : Nat) : Row := amGetD {} s.rows r
def modRow (s : State) (r : Nat) (f : Row → Row) : State := { s with rows := amSet s.rows r (f (getRow s r)) }

/-- Physical columns in west-to-east order, skipping the quarantined ones (R7). -/
def Row.columns (r : Row) : List Nat := (List.range 17).filter fun x => !(r.quarantined.contains x)

/-- The physical column of a logical one; none where the row has lost too many (R7, R314). -/
def Row.physical (r : Row) (x : Nat) : Option Nat := r.columns[x]?

/-- The logical core exists: its column has a physical core that is not stopped (R314, R315). -/
def coreExists (s : State) (c : Nat) : Bool :=
  decide (c < 2048) && ((getRow s (rowOf c)).physical (colOf c)).isSome && !(getCore s c).dead

/-- The tenant owns the row of the core (R339). -/
def ownsRow (t : Tenant) (r : Nat) : Bool := t.rows.getLsbD r

/-- Slots that a tenant's contexts may hold on a core (R340). -/
def grantOf (s : State) (t core : Nat) : Nat :=
  if ownsRow (getTenant s t) (rowOf core) && coreExists s core then (amGetD 64 (getTenant s t).grants core).toNat else 0

/-- A fresh id, and the next free value (log entry 3). -/
def takeId (s : State) : Nat × State := (s.nextId, { s with nextId := s.nextId + 1 })
def takeFree (s : State) : Word × State := (Config.freeWord s.free, { s with free := s.free + 1 })

/-! ## Registers -/

/-- `g0` reads zero and is always full (R66). -/
def RegEntry.zero : RegEntry := { val := 0, full := true, poison := false }

def regEntry (k : Core) (c : Ctx) (r : Reg) : RegEntry :=
  if r = 0 then RegEntry.zero else amGetD RegEntry.zero k.rf (c.base + r.toNat)

def readReg (s : State) (cid : Nat) (r : Reg) : Word :=
  match getCtx s cid with
  | some c => (regEntry (getCore s (coreOf cid)) c r).val
  | none => 0

def putReg (s : State) (cid : Nat) (r : Reg) (e : RegEntry) : State :=
  if r = 0 then s
  else match getCtx s cid with
    | some c => modCore s (coreOf cid) fun k => { k with rf := amSet k.rf (c.base + r.toNat) e }
    | none => s

/-- A result written: full, poison cleared; `g0` discards it (R66, R313). -/
def writeReg (s : State) (cid : Nat) (r : Reg) (v : Word) : State := putReg s cid r { val := v, full := true, poison := false }

/-- A register's full bit changed; its content stays, unread while it is empty (R13, R70). -/
def setFull (s : State) (cid : Nat) (r : Reg) (b : Bool) : State :=
  match getCtx s cid with
  | some c => putReg s cid r { regEntry (getCore s (coreOf cid)) c r with full := b }
  | none => s

/-- A destination marked empty (R70). -/
def emptyReg (s : State) (cid : Nat) (r : Reg) : State := setFull s cid r false

/-- The bound register's port: direction out, if it is bound (R243). Its value holds the descriptor address plus the direction. -/
def portOf (k : Core) (c : Ctx) (r : Reg) : Option Bool :=
  let f (i : Nat) : Bool := c.smap.extractLsb' (8 * i) 8 == 1#1 ++ r
  if f 0 || f 1 || f 2 || f 3 then some ((regEntry k c r).val.getLsbD 0) else none

/-! ## Scratchpad and home window -/

/-- The base of a core's home window (R97). -/
def windowBase (k : Core) : Nat := 0x18000 - k.win

def spRead (k : Core) (a n : Nat) : List Byte := memBytes k.sp a n
def spWrite (k : Core) (a : Nat) (bs : List Byte) : Core := { k with sp := memPut k.sp a bs }

/-- Granules that the bytes touch (R99). -/
def granules (a n : Nat) : List Nat := (List.range ((a + n + 3) / 4 - a / 4)).map (· + a / 4)

def spPoisoned (k : Core) (a n : Nat) : Bool := (granules a n).any k.spPoison.contains

/-- A row of `n` bytes at `a` meets a row of `m` at `b`. -/
def overlaps (a n b m : Nat) : Bool := decide (a < b + m) && decide (b < a + n)

/-! ## Bytes at their home -/

def Loc.add (l : Loc) (n : Nat) : Loc :=
  match l with
  | .hbm a => .hbm (a + n)
  | .window c o => .window c (o + n)
  | .remote d o => .remote d (o + n)
  | .host a => .host (a + n)
  | .reg a => .reg (a + n)

/-- The 64-byte line of a place (R137). -/
def Loc.line (l : Loc) : Loc :=
  match l with
  | .hbm a => .hbm (a / 64)
  | .window c o => .window c (o / 64)
  | .remote d o => .remote d (o / 64)
  | .host a => .host (a / 64)
  | .reg a => .reg (a / 64)

/-- Two places of `n` and `m` bytes share a byte. -/
def Loc.meets (l : Loc) (n : Nat) (m : Loc) (k : Nat) : Bool :=
  match l, m with
  | .hbm a, .hbm b => overlaps a n b k
  | .window c a, .window d b => c == d && overlaps a n b k
  | .remote c a, .remote d b => c == d && overlaps a n b k
  | .host a, .host b => overlaps a n b k
  | .reg a, .reg b => overlaps a n b k
  | _, _ => false

/-- The key generation in force for a key id (R346, R348). -/
def keyGenOf (s : State) (key : BitVec 8) : Nat := amGetD 0 s.keyGen key.toNat

/-- The line numbers that `n` bytes from a physical address touch. -/
def lineNumbers (a n : Nat) : List Nat := (List.range ((a + n + 63) / 64 - a / 64)).map (· + a / 64)

/-- Every line of the bytes was written under the key (R346). -/
def keyed (s : State) (key : BitVec 8) (a n : Nat) : Bool :=
  (lineNumbers a n).all fun x => amGetD 0 s.lineKeys x == keyGenOf s key

/-- A byte of HBM as it reads under a key: the byte written, or one that the manual leaves open (R346). -/
def byteAs (s : State) (key : BitVec 8) (a : Nat) : Byte :=
  if amGetD 0 s.lineKeys (a / 64) = keyGenOf s key then memGet s.mem a
  else Config.wrongKey (amGetD 0 s.lineKeys (a / 64)) (keyGenOf s key) a (memBytes s.mem (a / 64 * 64) 64)

/-- Bytes of HBM read under a key (R346). -/
def hbmBytes (s : State) (key : BitVec 8) (a n : Nat) : List Byte :=
  if keyed s key a n then memBytes s.mem a n else (List.range n).map fun i => byteAs s key (a + i)

/-- Lines about to be written under a key: each takes it, with what it reads as under it (R346). -/
def rekey (s : State) (key : BitVec 8) (a n : Nat) : State :=
  if keyed s key a n then s
  else (lineNumbers a n).foldl (fun s x =>
    { s with mem := memPut s.mem (x * 64) (hbmBytes s key (x * 64) 64), lineKeys := amSet s.lineKeys x (keyGenOf s key) }) s

/-- 64 bytes that the manual leaves open. -/
def freeLine (s : State) : List Byte × State :=
  ((List.range 8).flatMap fun i => leBytes 8 (Config.freeWord (s.free + i)).toNat, { s with free := s.free + 8 })

/-! ## Register words (R337) -/

def readFaultWord (f : FaultWords) (off : Nat) : Word :=
  if off = 0x100 then f.tdefvec
  else if off = 0x108 then f.stroot
  else if off = 0x140 then word (f.log2n * 2 ^ 60) ||| (f.base &&& 0xFFFFFFFFFFC0)
  else if off = 0x148 then word (f.head.toNat * 2 ^ 32 + f.tail.toNat)
  else if off = 0x150 then word (f.lost.toNat * 2 ^ 32)
  else 0

def readTrailWord (f : Field) (w : Nat) : Word :=
  match w with
  | 0 => (ofFlag f.en <<< 63) ||| (ofFlag f.src <<< 62) ||| (ofFlag f.err <<< 61) ||| word (f.num.toNat * 2 ^ 48 + f.tick.toNat)
  | 1 => f.base
  | 2 => word (f.period.toNat * 2 ^ 32 + f.pages.toNat)
  | _ => word (f.late.toNat * 2 ^ 32)

def readControl (x : Tenant) (off : Nat) : Word :=
  if off = 0 then x.vmid.setWidth 64
  else if off = 0x200 then word (x.telLog2n * 2 ^ 60) ||| (x.telBase &&& 0xFFFFFFFFFFC0)
  else if off = 0x208 then word (x.telHead.toNat * 2 ^ 32 + x.telTail.toNat)
  else if off = 0x210 then (ofFlag x.telEn <<< 63) ||| word (x.telPeriod.toNat * 2 ^ 32 + x.telLost.toNat)
  else if off = 0x240 then x.purse
  else if off = 0x258 then x.overdraft
  else if off = 0x260 then x.energy
  else if off = 0x268 then x.rowdef.setWidth 64
  else if off = 0x270 then x.pcap.setWidth 64
  else if off = 0x278 then x.rowcap.setWidth 64
  else if 0x300 ≤ off && off < 0x380 then
    (let c := amGetD ({} : Counter) x.counters ((off - 0x300) / 16)
     if off % 16 = 0 then c.sel else c.val)
  else if 0x800 ≤ off && off < 0x1000 then readTrailWord (amGetD {} x.fields ((off - 0x800) / 32)) ((off - 0x800) % 32 / 8)
  else if 0x1000 ≤ off && off < 0x1800 then
    word (leNat ((List.range 8).map fun i => (amGetD (64 : BitVec 7) x.grants (off - 0x1000 + i)).setWidth 8))
  else readFaultWord x.faults off

def readLaunchPage (x : Tenant) (off : Nat) : Word :=
  if off = 0x10 then (ofFlag x.regBusy <<< 63) ||| word (x.regHandle.toNat * 2 ^ 32 + x.regStatus.toNat)
  else if off = 0x20 then x.savebase.setWidth 64 <<< 6
  else if 0x800 ≤ off && off < 0xC00 && off % 16 = 0 then
    (let y := amGetD ({} : Queue) x.queues ((off - 0x800) / 16)
     (ofFlag y.en <<< 63) ||| word (y.prio.toNat * 2 ^ 48) ||| (y.argbase.setWidth 64 <<< 6))
  else if 0x1000 ≤ off && off < 0x2000 then
    (let y := amGetD ({} : Queue) x.queues ((off - 0x1000) / 64)
     match (off - 0x1000) % 64 / 8 with
     | 0 => y.accepted
     | 1 => y.done
     | 2 => y.failed
     | 3 => y.refused
     | 4 => y.lasterr
     | _ => 0)
  else 0

def readSlot (x : Tenant) (w : Nat) : Word :=
  match w with
  | 0 => (ofFlag x.en <<< 63) ||| x.vmid.setWidth 64
  | 1 => x.rows.extractLsb' 0 64
  | 2 => x.rows.extractLsb' 64 64
  | 3 => x.slices.extractLsb' 0 64
  | 4 => x.slices.extractLsb' 64 64
  | 5 => x.channels.extractLsb' 0 64
  | 6 => x.channels.extractLsb' 64 64
  | 7 => x.channels.extractLsb' 128 64
  | 8 => x.channels.extractLsb' 192 64
  | 9 => x.engines.setWidth 64
  | 10 => x.s2root.setWidth 64 <<< 12
  | 11 => word (x.rate.toNat * 2 ^ 32 + x.burst.toNat)
  | _ => 0

def readPartition (s : State) (off : Nat) : Word :=
  if off = 0x400 then s.plim
  else if off = 0x408 then s.therm
  else if off = 0x510 then ofFlag s.invBusy <<< 63
  else if off = 0x608 then (ofFlag s.tBusy <<< 63) ||| s.tStatus.setWidth 64
  else if off = 0x708 then (ofFlag s.vBusy <<< 63) ||| s.vStatus.setWidth 64
  else if off = 0x808 then s.fw.addr
  else if 0x810 ≤ off && off < 0x830 then amGetD 0 s.fw.nonce ((off - 0x810) / 8)
  else if off = 0x830 then (ofFlag s.fw.busy <<< 63) ||| (ofFlag s.fw.active <<< 8) ||| s.fw.status.setWidth 64
  else if 0x1000 ≤ off && off < 0x3000 then readSlot (getTenant s ((off - 0x1000) / 128)) ((off - 0x1000) % 128 / 8)
  else readFaultWord s.hyp off

def readLinkPage (s : State) (off : Nat) : Word :=
  if off = 0 then (ofFlag s.domEn <<< 63) ||| s.dev.setWidth 64
  else if off = 8 then (ofFlag s.hostUp <<< 63) ||| s.hostEpoch.setWidth 64
  else if 0x100 ≤ off && off < 0x300 then
    (let p := amGetD ({} : Peer) s.peers ((off - 0x100) / 8)
     (ofFlag p.up <<< 63) ||| word (p.epoch.toNat * 2 ^ 32 + p.ports.toNat))
  else 0

def readTrailhead (q : Port) (off : Nat) : Word :=
  let f := amGetD ({} : Flow) q.flows (off / 64)
  if off = 0 then (ofFlag q.en <<< 63) ||| q.maxlen.setWidth 64
  else if off = 8 then word (q.bad.toNat * 2 ^ 32 + q.noMatch.toNat)
  else if off < 64 then 0
  else match off % 64 / 8 with
    | 0 => (ofFlag f.en <<< 63) ||| word (f.prio.toNat * 2 ^ 48 + f.vmid.toNat * 2 ^ 32 + f.alloc.toNat * 2 ^ 24 + f.off.toNat)
    | 1 => f.value
    | 2 => f.mask
    | 3 => f.stream
    | 4 => f.buf
    | 5 => f.entry
    | 6 => word (f.drop.toNat * 2 ^ 32 + f.noarr.toNat)
    | _ => f.seq

/-- An aligned word of the register space; what is not listed reads zero (R337). -/
def readRegister (s : State) (off : Nat) : Word :=
  if off % 8 != 0 then 0
  else if off < 0x4000 then readPartition s off
  else if 0x100000 ≤ off && off < 0x200000 then readControl (getTenant s ((off - 0x100000) / 16384)) (off % 16384)
  else if 0x200000 ≤ off && off < 0x300000 then readLaunchPage (getTenant s ((off - 0x200000) / 16384)) (off % 16384)
  else if 0x300000 ≤ off && off < 0x304000 then amGetD 0 s.energyPage ((off - 0x300000) / 8)
  else if 0x380000 ≤ off && off < 0x384000 then readLinkPage s (off - 0x380000)
  else if 0x384000 ≤ off && off < 0x388000 then readTrailhead s.trail0 (off - 0x384000)
  else if 0x388000 ≤ off && off < 0x38C000 then readTrailhead s.trail1 (off - 0x388000)
  else 0

/-- The register space by physical address: from 2^47 up, where the manual gives no place (log entry 50). -/
def physLoc (pa : Nat) : Loc := if pa < 2 ^ 39 then .hbm pa else .reg (pa - 2 ^ 47)

/-- A store to a ring's page that has an event of its own: HEAD and RESOLVE (R300). -/
def ringEvent (hyp : Bool) (t off : Nat) (v : Word) : Option (Instr × EvArg) :=
  let a : EvArg := { flag := hyp, slot := t, v := v }
  if off = 0x148 then some (.fringHeadWrite, a)
  else if off = 0x160 then (if fld 62 2 v = 2 then some (.resolveFail, a) else some (.resolveReplay, a))
  else none

/-- A store to the partition page that has an event of its own. OP of FWCMD is taken to be bits 63:62, and the length of an image to be
open (log entry 50). -/
def partitionEvent (s : State) (off : Nat) (v : Word) : Option (Instr × EvArg) :=
  let a : EvArg := { v := v }
  let op := fld 62 2 v
  if off = 0x508 then some ((if op = 0 then .hostTlbiVa else if op = 1 then .hostTlbiVmid else if op = 2 then .hostTlbiS2 else .hostTlbiAll), a)
  else if off = 0x600 then
    some ((if op = 0 then .transferRow else if op = 1 then .transferSlice else if op = 2 then .transferChannel else .transferEngine), a)
  else if off = 0x700 then some ((if op = 2 then .vaultDestroy else .vaultGenerate), a)
  else if off = 0x800 && op = 1 then some (.fwUpdate, { a with num := (Config.freeWord s.free).toNat % 2 ^ 32 })
  else if off = 0x800 && op = 2 then some (.fwSwitch, a)
  else if off = 0x800 && op = 3 then some (.attestationReport, a)
  else ringEvent true 0 off v

/-- A store to a control page that has an event of its own. -/
def controlEvent (t off : Nat) (v : Word) : Option (Instr × EvArg) :=
  let a : EvArg := { slot := t, v := v }
  if off = 0x248 then some (.pset, a)
  else if off = 0x250 then some (.padd, a)
  else if 0x300 ≤ off && off < 0x380 && off % 16 = 0 then some (.counterSelectWrite, { a with idx := (off - 0x300) / 16 })
  else ringEvent false t off v

/-- A store to a launch page that has an event of its own. -/
def launchEvent (t off : Nat) (v : Word) : Option (Instr × EvArg) :=
  let a : EvArg := { slot := t, v := v }
  if off = 0 then some (.launchStore, a) else if off = 8 then some (.regStore, a) else if off = 0x18 then some (.unregStore, a) else none

/-- What a store of an aligned word of the register space is: an event of its own, or a REGISTER_WRITE (R337). -/
def regEvent (s : State) (off : Nat) (v : Word) : Instr × EvArg :=
  let own :=
    if off < 0x4000 then partitionEvent s off v
    else if 0x100000 ≤ off && off < 0x200000 then controlEvent ((off - 0x100000) / 16384) (off % 16384) v
    else if 0x200000 ≤ off && off < 0x300000 then launchEvent ((off - 0x200000) / 16384) (off % 16384) v
    else if 0x380100 ≤ off && off < 0x380300 then some (.peerRestore, { unit := (off - 0x380100) / 8, v := v })
    else none
  own.getD (.registerWrite, { num := off, v := v })

/-- Bytes of the register space as they read. -/
def regBytes (s : State) (off n : Nat) : List Byte :=
  (List.range n).map fun i => BitVec.ofNat 8 ((readRegister s ((off + i) / 8 * 8)).toNat / 2 ^ (8 * ((off + i) % 8)))

/-- The word that a store leaves where it covers only some of its bytes: the others as they read, but zero in OVERDRAFT, whose ones clear
(R332; log entry 50). -/
def regMerge (s : State) (off at_ : Nat) (bs : List Byte) : Word :=
  let clears := 0x100000 ≤ off && off < 0x200000 && off % 16384 = 0x258
  word (leNat ((List.range 8).map fun i =>
    if at_ ≤ off + i && off + i < at_ + bs.length then bs.getD (off + i - at_) 0
    else if clears then 0 else (regBytes s (off + i) 1).getD 0 0))

/-- A store to the register space: each word that it touches takes effect in the steps that follow at once. -/
def regStoreBytes (s : State) (at_ : Nat) (bs : List Byte) : State :=
  let offs := (List.range ((at_ + bs.length + 7) / 8 - at_ / 8)).map fun i => (at_ / 8 + i) * 8
  { s with free := s.free + 1
           agenda := (offs.map fun off => let e := regEvent s off (regMerge s off at_ bs); { dt := 0, ev := e.1, arg := e.2 }) ++ s.agenda }

/-! ## Bytes through a page -/

/-- Bytes read at their home through a page; a peer's or the host's bytes come from outside as `ext`. -/
def readHome (s : State) (l : Loc) (n : Nat) (ext : Word) (p : Page) : List Byte :=
  match l with
  | .hbm a => hbmBytes s p.key a n
  | .window c o => spRead (getCore s c) (windowBase (getCore s c) + o) n
  | .reg o => regBytes s o n
  | _ => leBytes n ext.toNat

/-- Two places of lines: the first meets a range of `n` bytes. -/
def Loc.inLines (line l : Loc) (n : Nat) : Bool :=
  match line, l with
  | .hbm x, .hbm a => decide (a / 64 ≤ x) && decide (x * 64 < a + n)
  | .window c x, .window d o => c == d && decide (o / 64 ≤ x) && decide (x * 64 < o + n)
  | .remote c x, .remote d o => c == d && decide (o / 64 ≤ x) && decide (x * 64 < o + n)
  | .host x, .host a => decide (a / 64 ≤ x) && decide (x * 64 < a + n)
  | .reg x, .reg a => decide (a / 64 ≤ x) && decide (x * 64 < a + n)
  | _, _ => false

/-- Held `park`s that watch a written line will complete (R122). -/
def noteWrite (s : State) (l : Loc) (n : Nat) : State :=
  { s with watches := updWhere (fun w => w.line.inLines l n) (fun w => { w with written := true }) s.watches }

/-- Bytes written at their home through a page; those for a peer or the host leave the package. -/
def writeHome (s : State) (l : Loc) (bs : List Byte) (p : Page) : State :=
  let s := noteWrite s l bs.length
  match l with
  | .hbm a => let s := rekey s p.key a bs.length; { s with mem := memPut s.mem a bs }
  | .window c o => modCore s c fun k => spWrite k (windowBase k + o) bs
  | .reg o => regStoreBytes s o bs
  | _ => { s with out := s.out ++ [.write l bs.length (word (leNat bs)) p.vmid false] }

/-- The data of a place is poisoned (R94, R313). -/
def poisonedAt (s : State) (l : Loc) (n : Nat) : Bool :=
  match l with
  | .hbm a => (granules a n).any s.poisoned.contains
  | .window c o => let k := getCore s c; spPoisoned k (windowBase k + o) n
  | _ => false

/-- The device or host of a place outside the package is out of use (R359), or the peer ports carry no domain traffic (R358; log entry
53). -/
def linkDown (s : State) (l : Loc) : Bool :=
  match l with
  | .remote d _ => d != s.dev.toNat && (!s.domEn || !(amGetD {} s.peers d).up)
  | .host _ => !s.hostUp
  | _ => false

/-! ## Translation (R304 to R308) -/

/-- The walk of R304 over the levels still to look up, each by the low bit of its index and the bits of its index. -/
def tableWalk (read : Nat → Except WalkFault Word) (bad : WalkFault) (okEntry : Word → Bool) (a : Word) :
    List (Nat × Nat) → Nat → Except WalkFault Leaf
  | [], _ => .error bad
  | (lo, n) :: rest, table =>
    let at_ := table + 8 * fld lo n a
    match read at_ with
    | .error e => .error e
    | .ok e =>
      if !bit 0 e then .error bad
      else if bit 1 e then
        if lo = 39 || !okEntry e || fld 14 34 e * 16384 % 2 ^ lo != 0 || fld 2 12 e != 0 then .error bad
        else .ok { entry := e, size := 2 ^ lo, at_ := at_, seen := [at_] }
      else if fld 48 16 e != 0 || fld 2 8 e != 0 || (lo > 21 && fld 10 2 e != 0) then .error bad
      else (tableWalk read bad okEntry a rest (fld 10 38 e * 1024)).map fun l => { l with seen := at_ :: l.seen }

/-- The entries that a walk reads, up to the one that ends it. -/
def walkReads (read : Nat → Except WalkFault Word) (a : Word) : List (Nat × Nat) → Nat → List Nat
  | [], _ => []
  | (lo, n) :: rest, table =>
    let at_ := table + 8 * fld lo n a
    at_ :: (match read at_ with
      | .ok e => if bit 0 e && !bit 1 e then walkReads read a rest (fld 10 38 e * 1024) else []
      | .error _ => [])

/-- The four levels (R304). -/
def levels : List (Nat × Nat) := [(39, 9), (30, 9), (21, 9), (14, 7)]

/-- A stage-2 result: physical address, leaf size, rights and key. -/
structure S2 where
  pa : Nat
  size : Nat
  nx : Bool
  ro : Bool
  nr : Bool
  key : BitVec 8
  deriving DecidableEq, Repr

def S2.loc (r : S2) : Loc := physLoc r.pa

/-- A physical address of an HBM channel that the tenant owns, or of the register space (R337, R339). -/
def frameOk (t : Tenant) (pa : Nat) : Bool :=
  (decide (pa < 2 ^ 39) && t.channels.getLsbD (pa / 2 ^ 31)) || (decide (2 ^ 47 ≤ pa) && decide (pa < 2 ^ 47 + 2 ^ 22))

/-- An entry of a stage-2 table, which has a physical address and no leaf of its own: it is read under key 0 (log entry 58). -/
def s2Entry (s : State) (a : Nat) : Except WalkFault Word := .ok (word (leNat (hbmBytes s 0 a 8)))

/-- Stage 2 of a tenant slot for a guest-physical address (R304, R306, R339, R347). -/
def stage2 (s : State) (t : Tenant) (gpa : Nat) : Except WalkFault S2 :=
  match tableWalk (s2Entry s) (.stage2 gpa) (fun e => fld 56 5 e == 0) (word gpa) levels (t.s2root.toNat * 4096) with
  | .error e => .error e
  | .ok l =>
    let pa := fld 14 34 l.entry * 16384 / l.size * l.size + gpa % l.size
    let key := BitVec.ofNat 8 (fld 48 8 l.entry)
    if frameOk t pa && amGet s.vault key.toNat == some t.vmid then
      .ok { pa := pa, size := l.size, nx := bit 63 l.entry, ro := bit 62 l.entry, nr := bit 61 l.entry, key := key }
    else .error (.stage2 gpa)

/-- The key of the frame that an offset of a device number names, where the number is this device's own (R355). -/
def ownKey (s : State) (t : Tenant) (dev off : Nat) : BitVec 8 :=
  if dev = s.dev.toNat then (match stage2 s t off with | .ok r => r.key | .error _ => 0) else 0

/-- A guest-physical address that leaves the package (R354). -/
def outside (gpa : Nat) : Option Loc :=
  if gpa / 2 ^ 46 % 4 = 2 then some (.remote (gpa / 2 ^ 40 % 64) (gpa % 2 ^ 40))
  else if gpa / 2 ^ 46 % 4 = 3 then some (.host (gpa % 2 ^ 46))
  else none

/-- An entry of a tenant's stage-1 table, read through stage 2 under its frame's key (R307, R346). -/
def s1Entry (s : State) (t : Tenant) (a : Nat) : Except WalkFault Word :=
  match stage2 s t a with
  | .error e => .error e
  | .ok r => if r.nr then .error (.stage2 a) else .ok (word (leNat (hbmBytes s r.key r.pa 8)))

/-- The stage-1 leaf of a virtual address (R304, R305, R307). -/
def stage1 (s : State) (t : Tenant) (va : Word) : Except WalkFault Leaf :=
  tableWalk (s1Entry s t) .stage1 (fun e => fld 48 4 e == 0) va levels (fld 12 36 t.faults.stroot * 4096)

/-- A HOME code (R176). -/
def homeOf (n : Nat) : Home :=
  if n = 0 then .cached else if n = 1 then .slice else if n = 2 then .core else .uncached

/-- The table entries that a walk has read, each with the size of its stage-2 page. -/
def tablePages (s : State) (t : Tenant) (l : Leaf) : List (Nat × Nat) :=
  l.seen.map fun a => (a, match stage2 s t a with | .ok r => r.size | .error _ => 16384)

/-- The translation that a stage-1 leaf and stage 2 give for a tenant (R177, R306, R307, R354). -/
def pageOf (s : State) (t : Tenant) (va : Word) (l : Leaf) : Except WalkFault Page :=
  let e := l.entry
  let h := homeOf (fld 52 2 e)
  let trail : Option (BitVec 6) := if bit 55 e then some (BitVec.ofNat 6 (fld 56 6 e)) else none
  let leafVa := word (va.toNat / l.size * l.size)
  if h = .core then
    let c := fld 14 11 e
    let wp := fld 25 1 e
    if l.size = 16384 && fld 26 22 e = 0 && ownsRow t (rowOf c) && coreExists s c && 16384 * (wp + 1) ≤ (getCore s c).win then
      .ok { vmid := t.vmid, va := baseOf 14 va, size := 16384, out := .window c (16384 * wp), gpa := 0, rd := true,
            wr := !bit 62 e, ex := !bit 63 e, home := h, trail := trail, key := 0, leafVa := leafVa, leafSize := l.size,
            tables := tablePages s t l }
    else .error .stage1
  else
    let gpa := fld 14 34 e * 16384 / l.size * l.size + va.toNat % l.size
    match outside gpa with
    | some o =>
      let size := min l.size 16384
      .ok { vmid := t.vmid, va := baseOf 14 va, size := size,
            out := (match o with
              | .remote d a => .remote d (a / size * size)
              | .host a => .host (a / size * size)
              | x => x),
            gpa := gpa / size * size, rd := true, wr := !bit 62 e, ex := !bit 63 e, home := .uncached, trail := trail,
            key := (match o with | .remote d a => ownKey s t d (a / size * size) | _ => 0), leafVa := leafVa, leafSize := l.size,
            tables := tablePages s t l }
    | none =>
      match stage2 s t gpa with
      | .error x => .error x
      | .ok r =>
        let size := min l.size r.size
        .ok { vmid := t.vmid, va := word (va.toNat / size * size), size := size, out := physLoc (r.pa / size * size),
              gpa := gpa / size * size, rd := !r.nr, wr := !r.nr && !bit 62 e && !r.ro, ex := !r.nr && !bit 63 e && !r.nx,
              home := if r.pa < 2 ^ 39 then h else .uncached, trail := trail, key := r.key, leafVa := leafVa, leafSize := l.size, s2Size := r.size, tables := tablePages s t l }

/-- The place of an address in its page. -/
def Page.loc (p : Page) (a : Word) : Loc := p.out.add (a.toNat - p.va.toNat)

/-! ## Counters, limits and the slices' lines (R342 to R345, R370) -/

/-- `n` events of a kind at a unit, tagged with a tenant, reach the counters that select them (R343). -/
def countEvent (s : State) (t ev unit n : Nat) : State :=
  let x := getTenant s t
  let counts := fun (c : Counter) => fld 56 8 c.sel == ev && (bit 8 c.sel || fld 0 8 c.sel == unit)
  let up := fun (e : Nat × Counter) => if counts e.2 then (e.1, { e.2 with val := e.2.val + word n }) else e
  if (x.counters.any fun e => counts e.2) then setTenant s t { x with counters := x.counters.map up } else s

/-- The token count of a channel now, in thousandths of a byte (R344). -/
def tokensNow (s : State) (t ch : Nat) : Int :=
  let x := getTenant s t
  let cap : Int := x.burst.toNat * 1000
  match amGet x.tokens ch with
  | none => cap
  | some (n, at_) => min cap (n + (s.time.toNat - at_) * x.rate.toNat)

/-- The channel holds no request of the tenant: its count is not negative (R344). -/
def tokensFree (s : State) (t ch : Nat) : Bool := (getTenant s t).rate == 0 || decide (0 ≤ tokensNow s t ch)

/-- Bytes subtracted from a tenant's count at a channel (R344, R345). -/
def spend (s : State) (t ch n : Nat) : State :=
  let x := getTenant s t
  if x.rate = 0 then s
  else
    let v : Int := max (tokensNow s t ch - n * 1000) (-(x.burst.toNat * 1000 : Int))
    setTenant s t { x with tokens := amSet x.tokens ch (v, s.time.toNat) }

/-- What an access does at its home: a read, a write, an atomic or mark operation that writes, or one that only reads. -/
inductive Acc where
  | read | write | amo | mark
  deriving DecidableEq, Repr

def Acc.writes (w : Acc) : Bool := w == .write || w == .amo

/-- The slice *d*·64 + slice that performs an access from a die (R85, R153). -/
def sliceOf (die : Nat) (l : Loc) : Nat :=
  match l with
  | .hbm a => die * 64 + a / 64 % 64
  | .window c o => dieOf c * 64 + o / 64 % 64
  | .remote _ o => die * 64 + o / 64 % 64
  | .host a | .reg a => die * 64 + a / 64 % 64

/-- The slice keeps a copy: of CACHED and SLICE lines, where its tenant owns it (R342). -/
def keepsCopy (s : State) (die : Nat) (l : Loc) (p : Page) : Bool :=
  (p.home == .cached || p.home == .slice) &&
  (match slotOfVmid s p.vmid with | some t => (getTenant s t).slices.getLsbD (sliceOf die l) | none => false)

/-- A line written back where it is dirty: its bytes are counted for its owner (R343). -/
def writeBack (s : State) (e : Nat × SliceLine) : State :=
  if e.2.dirty then
    let t := (slotOfVmid s e.2.vmid).getD 0
    countEvent (countEvent s t 6 (e.2.die * 64 + e.1 % 64) 64) t 5 (e.1 / 2 ^ 25) 64
  else s

/-- A line evicted: the bytes of its write-back are subtracted from its owner's count (R345). -/
def evictLine (s : State) (e : Nat × SliceLine) : State :=
  let s := writeBack s e
  if e.2.dirty then spend s ((slotOfVmid s e.2.vmid).getD 0) (e.1 / 2 ^ 25) 64 else s

/-- Lines that slices drop, written back first or not; no count is charged with it (R342, R344, R345). -/
def dropLines (s : State) (back : Bool) (q : Nat × SliceLine → Bool) : State :=
  let s := if back then (s.lines.filter q).foldl writeBack s else s
  { s with lines := s.lines.filter fun e => !q e }

/-- The lines that share a line's set of a slice, once the slice holds enough of them to fill one (R2, R342; log entry 54). -/
def setMates (s : State) (die x : Nat) : List (Nat × SliceLine) :=
  let same := s.lines.filter fun e => e.2.die == die && e.1 % 64 == x % 64 && e.1 != x
  if same.length < 16 then [] else same.filter fun e => Config.sliceSet e.1 % 2048 == Config.sliceSet x % 2048

/-- A line comes to a slice: into a free way of its set, or one whose line is evicted, which is open but never pinned (R176); where all
16 ways are pinned it is served without a copy (R342). -/
def allocLine (s : State) (x : Nat) (ln : SliceLine) : State :=
  let mates := setMates s ln.die x
  if mates.length < 16 then { s with lines := amSet s.lines x ln }
  else match mates.filter fun e => !e.2.pinned with
    | [] => evictLine { s with lines := amErase s.lines x } (x, ln)
    | y :: ys =>
      let (f, s) := takeFree s
      let v := (y :: ys).getD (f.toNat % (ys.length + 1)) y
      let s := evictLine s v
      { s with lines := amSet (amErase s.lines v.1) x ln }

/-- The channel and the bytes that an access takes from memory: none where a slice holds the line (R344, R370). -/
def channelUse (s : State) (die : Nat) (l : Loc) (p : Page) (n : Nat) : Option (Nat × Nat) :=
  match l with
  | .hbm a =>
    if keepsCopy s die l p then (if (amGet s.lines (a / 64)).isSome then none else some (a / 2 ^ 31, 64)) else some (a / 2 ^ 31, n)
  | _ => none

/-- The slot of a page's tenant. -/
def pageSlot (s : State) (p : Page) : Nat := (slotOfVmid s p.vmid).getD 0

/-- No channel holds the access (R344). -/
def channelFree (s : State) (die : Nat) (l : Loc) (p : Page) (n : Nat) : Bool :=
  match channelUse s die l p n with
  | none => true
  | some (ch, _) => tokensFree s (pageSlot s p) ch

/-- A line that its slice holds is met (R343): it is dirty where written, and comes to the slice of another die that accesses it. -/
def hitLine (s : State) (die a : Nat) (p : Page) (w : Acc) (old : SliceLine) : State :=
  let s := countEvent s (pageSlot s p) 1 (sliceOf die (.hbm a)) 1
  let ln := { old with die := die, dirty := old.dirty || w.writes, pinned := old.pinned || p.home == .slice }
  if old.die = die then { s with lines := amSet s.lines (a / 64) ln } else allocLine s (a / 64) ln

/-- A line that no slice holds is read from its channel, and comes to its slice (R343, R344, R370). -/
def missLine (pay : Bool) (s : State) (die a : Nat) (p : Page) (w : Acc) : State :=
  let t := pageSlot s p
  let ch := a / 2 ^ 31
  let s := countEvent (countEvent s t 2 (sliceOf die (.hbm a)) 1) t 4 ch 64
  allocLine (if pay then spend s t ch 64 else s) (a / 64)
    { die := die, vmid := p.vmid, gline := (p.gpa + (a - (match p.out with | .hbm b => b | _ => a))) / 64, key := p.key,
      dirty := w.writes, pinned := p.home == .slice }

/-- An access that no slice keeps a copy of takes its bytes from its channel (R343, R344). -/
def passLine (pay : Bool) (s : State) (a : Nat) (p : Page) (w : Acc) (n : Nat) : State :=
  let t := pageSlot s p
  let ch := a / 2 ^ 31
  let s := if w = .write then s else countEvent s t 4 ch n
  let s := if w.writes then countEvent s t 5 ch n else s
  if pay then spend s t ch n else s

/-- An access by a party of a die meets its slice: the line comes there (R370), and the access is counted and, where `pay`, charged
(R343, R344). -/
def touchLine (pay : Bool) (s : State) (die : Nat) (l : Loc) (p : Page) (w : Acc) (n : Nat) : State :=
  match l with
  | .hbm a =>
    let s := if w = .amo || w = .mark then countEvent s (pageSlot s p) 3 (sliceOf die l) 1 else s
    if keepsCopy s die l p then
      match amGet s.lines (a / 64) with
      | some old => hitLine s die a p w old
      | none => missLine pay s die a p w
    else passLine pay s a p w n
  | _ => s

/-- `touchLine` for an access that its channel has not charged yet. -/
def touch (s : State) (die : Nat) (l : Loc) (p : Page) (w : Acc) (n : Nat) : State := touchLine true s die l p w n

/-- A place outside the package whose device number is this device's own is served here, through stage 2 (R354, R355). -/
def ownPlace (s : State) (t : Nat) (l : Loc) (write : Bool) : Except WalkFault Loc :=
  match l with
  | .remote d off =>
    if d = s.dev.toNat then
      match stage2 s (getTenant s t) off with
      | .ok x => if x.nr || (write && x.ro) then .error (.stage2 off) else .ok x.loc
      | .error e => .error e
    else .ok l
  | l => .ok l

/-! ## Zeroing and the walk (R307, R308) -/

/-- `n` bytes from a place zeroed at their home under a key generation, cached lines and poison dropped (R308). -/
def zeroRange (s : State) (l : Loc) (n : Nat) (p : Page) : State :=
  let s := noteWrite s l n
  match l with
  | .hbm a =>
    let whole := fun x : Nat => decide (a ≤ x) && decide (x < a + n)
    let gen := keyGenOf s p.key
    let keys := s.lineKeys.filter fun e => !whole (e.1 * 64)
    { s with
      mem := s.mem.filter fun c => !whole c.1
      poisoned := s.poisoned.filter fun x => !whole (x * 4)
      lineKeys := if gen = 0 then keys else (List.range (n / 64)).foldl (fun m i => amSet m (a / 64 + i) gen) keys
      lines := s.lines.filter fun e => !whole (e.1 * 64)
      cores := s.cores.map fun e => (e.1, { e.2 with l1 := e.2.l1.filter fun x =>
        !(x.vmid == p.vmid && decide (p.gpa ≤ x.gline * 64) && decide (x.gline * 64 < p.gpa + n)) }) }
  | .window c o => modCore s c fun k =>
    let lo := windowBase k + o
    { k with sp := k.sp.filter fun x => !(decide (lo ≤ x.1) && decide (x.1 < lo + n)),
             spPoison := k.spPoison.filter fun g => !(decide (lo ≤ g * 4) && decide (g * 4 < lo + n)) }
  | .reg _ => s
  | _ => { s with out := s.out ++ [.write l n 0 p.vmid false] }

/-- The 16 KiB pieces of a leaf's page. -/
def leafPieces (va : Word) (l : Leaf) : List Word :=
  (List.range (l.size / 16384)).map fun i => word (va.toNat / l.size * l.size + 16384 * i)

/-- The place of a piece of a leaf's frame, for zeroing it. -/
def piecePlace (s : State) (slot : Nat) (a : Word) (l : Leaf) : Except WalkFault (Page × Loc) :=
  match pageOf s (getTenant s slot) a l with
  | .error e => .error e
  | .ok p => match ownPlace s slot (p.loc a) false with
    | .error e => .error e
    | .ok o => .ok ({ p with gpa := p.gpa + (a.toNat - p.va.toNat) }, o)

/-- The page's frame zeroed for ZERO, 16 KiB at a time, and ZERO then cleared in its entry (R308). -/
def zeroPage (s : State) (slot : Nat) (va : Word) (l : Leaf) : State :=
  let s := (leafPieces va l).foldl (fun s a =>
    match piecePlace s slot a l with
    | .ok (p, o) => zeroRange s o 16384 p
    | .error _ => s) s
  match stage2 s (getTenant s slot) l.at_ with
  | .ok r =>
    let s := rekey s r.key r.pa 8
    { s with mem := memPut s.mem r.pa (leBytes 8 (l.entry &&& ~~~(1 <<< 54 : Word)).toNat) }
  | .error _ => s

/-- The physical addresses of the table entries that the walk of an address reads (R307). -/
def walkCost (s : State) (slot : Nat) (va : Word) : List Nat :=
  let t := getTenant s slot
  let s2 := fun g => walkReads (s2Entry s) (word g) levels (t.s2root.toNat * 4096)
  ((walkReads (s1Entry s t) va levels (fld 12 36 t.faults.stroot * 4096)).flatMap fun g =>
    s2 g ++ (match stage2 s t g with | .ok r => [r.pa] | .error _ => [])) ++
  (match stage1 s t va with
    | .ok l => if fld 52 2 l.entry = 2 then [] else s2 (fld 14 34 l.entry * 16384 / l.size * l.size + va.toNat % l.size)
    | .error _ => [])

/-- The walk's reads are counted and charged at their channels (R343, R344; log entry 54). -/
def chargeWalk (s : State) (slot : Nat) (va : Word) : State :=
  let t := getTenant s slot
  if t.rate = 0 && t.counters = [] then s
  else (walkCost s slot va).foldl (fun s a => spend (countEvent s slot 4 (a / 2 ^ 31) 8) slot (a / 2 ^ 31) 8) s

/-- A channel holds a walk of the tenant (R344). -/
def walkHeld (s : State) (slot : Nat) (va : Word) : Bool :=
  (getTenant s slot).rate != 0 && (walkCost s slot va).any fun a => !tokensFree s slot (a / 2 ^ 31)

/-- What a stage-1 result gives with the stage 2 of now, carrying out ZERO: a piece of the frame that cannot be zeroed is a fault, and
ZERO stays (R307, R308). -/
def fromLeaf (s : State) (slot : Nat) (va : Word) (l : Leaf) : Except WalkFault Page × State :=
  match pageOf s (getTenant s slot) va l with
  | .error e => (.error e, s)
  | .ok p =>
    if bit 54 l.entry then
      match (leafPieces va l).findSome? fun a => match piecePlace s slot a l with | .error e => some e | .ok _ => none with
      | some e => (.error e, s)
      | none => (.ok p, zeroPage s slot va l)
    else (.ok p, s)

/-- Both stages for a tenant slot, carrying out ZERO (R307, R308). -/
def translate (s : State) (slot : Nat) (va : Word) : Except WalkFault Page × State :=
  match stage1 s (getTenant s slot) va with
  | .error e => (.error e, chargeWalk s slot va)
  | .ok l => fromLeaf (chargeWalk s slot va) slot va l

def Page.covers (p : Page) (v : BitVec 16) (a : Word) : Bool :=
  p.vmid == v && decide (p.va.toNat ≤ a.toNat) && decide (a.toNat < p.va.toNat + p.size)

/-- The page check (R90). -/
def pageEntry (k : Core) (v : BitVec 16) (a : Word) : Option Page := k.pcc.find? fun p => p.covers v a

/-! ## Fault records (R300, R301) -/

inductive RecKind where
  | context | segCore | sequencer | engine | loader | streamUnit | refill | dispatcher | remote | coreError
  deriving DecidableEq, Repr

def RecKind.code (k : RecKind) : Nat :=
  match k with
  | .context => 0 | .segCore => 1 | .sequencer => 2 | .engine => 3 | .loader => 4 | .streamUnit => 5 | .refill => 6
  | .dispatcher => 7 | .remote => 8 | .coreError => 9

def Cause.code (c : Cause) : Nat :=
  match c with
  | .illop => 1 | .allot => 2 | .empty => 3 | .misalign => 4 | .acchaz => 5 | .oplent => 6 | .graphuf => 7 | .spawnq => 8
  | .pfault => 9 | .prot => 10 | .rlink => 11 | .poison => 12 | .tfield => 13 | .brk => 14 | .ecall => 15 | .drisk => 16

/-- What a record says beside its kind, cause and time (R301). -/
structure Report where
  kind : RecKind
  cause : Cause
  stage2 : Bool := false
  wr : Bool := false
  ex : Bool := false
  addr : Word := 0
  pc : Word := 0
  who : Word := 0
  /-- queue, node and launch number -/
  queue : Nat := 0
  node : Nat := 0
  launch : Nat := 0
  tval : Word := 0
  /-- the tenant it is about, where that is not the ring's own (R301) -/
  vmid : Option (BitVec 16) := none
  /-- who waits for a RESOLVE -/
  waiter : Option Waiter := none
  /-- a context or segment that goes on once the record is written -/
  ctx : Option Nat := none
  seg : Option Nat := none
  deriving DecidableEq, Repr

/-- Words 0 to 7 of the record, word 5 left for the time of writing. -/
def Report.words (r : Report) (vmid : BitVec 16) (token : BitVec 32) (pend : Bool) : List Word :=
  [ (ofFlag pend <<< 63) ||| (ofFlag r.stage2 <<< 62) ||| (ofFlag r.wr <<< 61) ||| (ofFlag r.ex <<< 60)
      ||| word (r.kind.code * 2 ^ 56) ||| word (r.cause.code * 2 ^ 48) ||| word (vmid.toNat * 2 ^ 32) ||| word token.toNat,
    r.addr, r.pc, r.who, word (r.queue * 2 ^ 58 + r.node % 1024 * 2 ^ 48 + r.launch % 2 ^ 32), 0, r.tval, 0 ]

/-- Which ring: a tenant's, or the hypervisor's (R302). -/
inductive RingId where
  | tenant (t : Nat)
  | hyp
  deriving DecidableEq, Repr

def getFaults (s : State) : RingId → FaultWords
  | .tenant t => (getTenant s t).faults
  | .hyp => s.hyp
def setFaults (s : State) (r : RingId) (f : FaultWords) : State :=
  match r with
  | .tenant t => modTenant s t fun x => { x with faults := f }
  | .hyp => { s with hyp := f }
def ringSlot : RingId → Nat
  | .tenant t => t
  | .hyp => 0

/-- The place of the record at TAIL and its page, if the ring page is valid with write rights. -/
def recordPlace (s : State) (r : RingId) : Option (Loc × Page) × State :=
  let f := getFaults s r
  let a := f.base + word (64 * (f.tail.toNat % 2 ^ f.log2n))
  if f.base = 0 then (none, s)
  else match translate s (ringSlot r) a with
    | (.ok p, s) => (match ownPlace s (ringSlot r) (p.loc a) true with
      | .ok l => if p.wr then some (l, p) else none
      | .error _ => none, s)
    | (.error _, s) => (none, s)

/-- The record written at TAIL, which then advances (R301). -/
def putRecord (s : State) (r : RingId) (l : Loc) (p : Page) (ws : List Word) : State :=
  let bs := ((ws.take 5) ++ [s.time] ++ ws.drop 6).flatMap fun w => leBytes 8 w.toNat
  let s := writeHome (touch s 0 l p .write 64) l bs p
  let f := getFaults s r
  setFaults s r { f with tail := f.tail + 1 }

def loseRecord (s : State) (r : RingId) : State :=
  let f := getFaults s r
  setFaults s r { f with lost := f.lost + 1 }

/-- A context or segment goes on once its record is written: it ends as `quit` does (R295), or its segment completes. -/
def afterRecord (s : State) (ctx : Option Nat) : State :=
  match ctx with
  | some cid => modCtx s cid fun c => if c.status = .held .record then { c with status := .held (.quit s.nextId) } else c
  | none => s

/-- A record is made (R301): written, made to wait, or dropped and counted. Its token comes back where something waits on it. -/
def report (s : State) (rid : RingId) (r : Report) : Option (BitVec 32) × State :=
  let f := getFaults s rid
  let vm := r.vmid.getD (getTenant s (ringSlot rid)).vmid
  let token := f.token
  let pend := r.waiter.isSome
  let ws := r.words vm (if pend then token else 0) pend
  let s := match r.waiter with
    | some w => setFaults s rid { f with token := if token = allOnes 32 then 1 else token + 1, waiters := f.waiters ++ [(token, w, r.addr)] }
    | none => s
  let waits := r.kind = .context || r.kind = .segCore
  match recordPlace s rid with
  | (none, s) => (if pend then some token else none, afterRecord (loseRecord s rid) r.ctx)
  | (some (l, p), s) =>
    let f := getFaults s rid
    let room := 2 ^ f.log2n - (f.tail - f.head).toNat
    if f.waiting = [] && 0 < room then (if pend then some token else none, afterRecord (putRecord s rid l p ws) r.ctx)
    else if waits then
      (if pend then some token else none,
        setFaults s rid { f with waiting := f.waiting ++ [{ words := ws, ctx := r.ctx, seg := r.seg }] })
    else if f.waiting.length < room then (if pend then some token else none, putRecord s rid l p ws)
    else (if pend then some token else none, loseRecord s rid)

/-- The queue, node and launch number of a node, for word 4 of a record. -/
def nodeWords (s : State) (t : Nat) (n : Option NodeRef) (r : Report) : Report :=
  match n with
  | none => r
  | some n =>
    match (getTenant s t).launches.find? fun l => l.id == n.launch with
    | some l => { r with queue := l.queue, node := n.node, launch := l.number.toNat }
    | none => { r with node := n.node }

/-! ## Taking a trap and returning from one (R294 to R298) -/

/-- `tcause` with ACTIVE set and a cause code (R294). -/
def causeWord (c : Cause) : Word := (1 <<< 62 : Word) ||| word c.code

/-- A barrel context takes a trap at `pc` (R295). -/
def takeTrap (s : State) (cid : Nat) (c : Cause) (tval pc : Word) : State :=
  match getCtx s cid with
  | none => s
  | some x =>
    if bit 62 x.tcause || x.tvec = 0 then
      let s := setCtx s cid { x with status := .held .record }
      (report s (.tenant x.tslot) (nodeWords s x.tslot x.node
        { kind := .context, cause := c, pc := pc, who := word cid, tval := tval, ctx := some cid })).2
    else setCtx s cid { x with epc := pc, tval := tval, tcause := causeWord c, pc := x.tvec, status := .ready, popped := none,
                               cover := none, portTrap := none }

/-- Return from a handler (R297). -/
def returnTrap (s : State) (cid : Nat) : State :=
  modCtx s cid fun x => { x with tcause := x.tcause &&& ~~~(1 <<< 62 : Word), pc := x.epc }

/-! ## The word being issued -/

/-- The context that issues the current word; none for the sequencer. -/
def curId (s : State) : Option Nat :=
  match s.cur.lane with
  | .barrel core slot _ => some (ctxId core slot)
  | .stream _ _ core slot => some (ctxId core slot)
  | .sequencer _ | .decide _ => none

def curCtx (s : State) : Option Ctx := (curId s).bind (getCtx s)

/-- The context id and context of the current word, zero values where there is none. -/
def me (s : State) : Nat := (curId s).getD 0
def my (s : State) : Core := getCore s (coreOf (me s))

/-- The word being issued, as `tval` reports it. -/
def curWord (s : State) : Word := (s.cur.word.getD 0).setWidth 64

/-- Where a trap of the current word leaves `epc`: the word, or the REP prefix (R63). -/
def trapPc (s : State) : Word :=
  match s.cur.rep with
  | some r => r.p
  | none => s.cur.pc

/-- `repc` for an interrupted run (R64). -/
def repcWord (i left : Nat) : Word := (1 <<< 63 : Word) ||| word (i % 65536 * 65536) ||| word (left % 65536)

/-- `repc` as it stands while the current word is out: the repetition it is, or what the context holds (R64). -/
def runOf (s : State) (c : Ctx) : Word :=
  match s.cur.rep with
  | some r => repcWord r.i r.left
  | none => c.repc

/-- The context goes on past its word: the next word, or the next repetition of a run (R63, R65). -/
def retire (s : State) : State :=
  modCtx s (me s) fun c =>
    let c := { c with popped := none, cover := none, portTrap := none }
    match s.cur.lane with
    | .stream .. => { c with pc := s.cur.pc + 4 }
    | _ =>
      match s.cur.rep with
      | none => { c with pc := s.cur.pc + 4 }
      | some r =>
        if r.left ≤ 1 then { c with repc := 0, pc := r.p + 8 }
        else { c with repc := repcWord (r.i + 1) (r.left - 1), pc := r.p }

def modLaunch (s : State) (t id : Nat) (f : Launch → Launch) : State :=
  modTenant s t fun x => { x with launches := updWhere (fun l => l.id == id) f x.launches }

/-- LASTERR of a queue (R278). -/
def setLastErr (s : State) (t q code node : Nat) (number : Word) : State :=
  modTenant s t fun x =>
    let y : Queue := amGetD {} x.queues q
    { x with queues := amSet x.queues q { y with lasterr := word (code * 2 ^ 56 + node % 65536 * 2 ^ 32 + fld 0 32 number) } }

/-- A launch fails (R289): its ready nodes are dropped, LASTERR is written, and a record of KIND 7 unless other records stand in its
place. A launch that has failed already fails no second time (log entry 13). -/
def failLaunch (s : State) (t : Nat) (n : Option NodeRef) (code : Nat) (cause : Cause) (record : Bool) : State :=
  match n with
  | none => s
  | some n =>
    match (getTenant s t).launches.find? fun l => l.id == n.launch with
    | none => s
    | some l =>
      if l.failed then s
      else
        let s := modLaunch s t l.id fun l =>
          { l with failed := true, nodes := l.nodes.map fun x => match x.phase with | .ready _ => { x with phase := .dropped } | _ => x }
        let s := setLastErr s t l.queue code n.node l.number
        if record then
          (report s (.tenant t) (nodeWords s t (some n) { kind := .dispatcher, cause := cause, tval := word code })).2
        else s

/-- A segment stops for a trap or a sequencer fault: nothing more is sent; `drop` for a trap at a core, whose words in flight do not
execute either (R210, R211). -/
def stopSeg (g : Seg) (drop : Bool) : Seg :=
  { g with phase := .ending true, pipe := if drop then g.pipe.map fun _ => none else g.pipe, repRun := none, bubbles := 0, plan := none,
           again := if drop then [] else g.again, rowWait := if drop then none else g.rowWait }

/-- A trap of a stream word at a core aborts its segment (R210). -/
def abortSeg (s : State) (seg pos cid : Nat) (c : Cause) (tval pc : Word) : State :=
  match getSeg s seg with
  | none => s
  | some g =>
    let s := setSeg s seg (stopSeg g true)
    let s := modCtx s cid fun x => { x with epc := pc, tval := tval, tcause := causeWord c }
    let s := (report s (.tenant g.tslot) (nodeWords s g.tslot g.node
      { kind := .segCore, cause := c, pc := pc, tval := tval, seg := some seg,
        who := word (g.beat % 65536 * 2 ^ 48 + pos * 2 ^ 32 + cid) })).2
    failLaunch s g.tslot g.node 2 c true

/-- A trap of the current word: entry for a barrel context, abort for a segment. -/
def trapNow (s : State) (c : Cause) (tval : Word) : State :=
  match s.cur.lane with
  | .barrel core slot _ =>
    let s := match s.cur.rep with
      | some r => modCtx s (ctxId core slot) fun x => { x with repc := repcWord r.i r.left }
      | none => s
    takeTrap s (ctxId core slot) c tval (trapPc s)
  | .stream seg pos core slot => abortSeg s seg pos (ctxId core slot) c tval s.cur.pc
  | .sequencer _ | .decide _ => s

/-- A page fault in a repetition leaves its run as one that a trap interrupts does (R64). -/
def interrupted (s : State) : State :=
  match s.cur.rep with
  | some r => modCtx s (me s) fun c => { c with repc := repcWord r.i r.left }
  | none => s

/-- The slots still to try for a turn (R171): the first that could issue is tried next. -/
def lend (s : State) (core : Nat) (others : List Nat) : State :=
  match others with
  | [] => s
  | t :: rest =>
    match getCtx s (ctxId core t) with
    | some c =>
      { s with issuing := { lane := .barrel core t rest, probe := false, word := none, pc := c.pc, rep := none } :: s.issuing }
    | none => s

/-- A load that parks on partly covered bytes waits for the stores that are buffered now (R91). -/
def noteCover (s : State) (cid : Nat) (w : Why) : State :=
  if w = .cover then modCtx s cid fun c => { c with cover := some (c.cover.getD s.nextId) } else s

/-- The current word does not issue: its context parks, and the turn is lent (R171, R172). -/
def parkNow (s : State) (w : Why) : State :=
  match s.cur.lane with
  | .barrel core slot others =>
    let s := modCore s core fun k => { k with rot := { k.rot with issued := k.rot.issued.filter (· != slot) } }
    lend (modCtx (noteCover s (ctxId core slot) w) (ctxId core slot) fun c => { c with status := .parked w }) core others
  | _ => s

/-- A barrel word issues: its slot has used its turn in this rotation (R171). -/
def markIssued (s : State) : State :=
  match s.cur.lane with
  | .barrel core slot _ => modCore s core fun k => { k with rot := { k.rot with issued := k.rot.issued ++ [slot] } }
  | _ => s

/-- A walk asked for by a context's word or fetch (R90); one is asked for a page at a time. -/
def askWalk (s : State) (cid : Nat) (seg : Option Nat) (va : Word) (write fetch : Bool) (pc : Word) : Nat × State :=
  match getCtx s cid with
  | none => (0, s)
  | some c =>
    let (i, s) := takeId s
    let w : Walk := { id := i, core := coreOf cid, vmid := c.vmid, va := va, write := write, fetch := fetch, ctx := some cid,
                      seg := seg, pc := pc }
    (i, { s with walks := s.walks ++ [w] })

/-- A pop of a bound register is sent to its stream unit, and the context holds at the word, which stands at `pc` in the run `rep` (R64,
R244, R245). -/
def sendPop (s : State) (cid : Nat) (r : Reg) (w : Bool) (dst : Option Reg) (pc : Word) (rep : Option RepRun) : State :=
  match getCtx s cid with
  | none => s
  | some c =>
    let d := readReg s cid r &&& ~~~(1 : Word)
    match pageEntry (getCore s (coreOf cid)) c.vmid d with
    | none => s
    | some p =>
      let (i, s) := takeId s
      let s := match dst with
        | some q => if portOf (getCore s (coreOf cid)) c q == some true then s else emptyReg s cid q
        | none => s
      let run := match rep with | some x => repcWord x.i x.left | none => c.repc
      let s := modCtx s cid fun c =>
        { c with status := .held (.pop r i), heldPc := (match rep with | some x => x.p | none => pc), heldRepc := run, repc := if c.stream then c.repc else run }
      { s with ports := s.ports ++ [{ id := i, ctx := cid, push := false, w := w, desc := d, v := 0, page := p, dst := dst, upto := 0 }] }

/-- The answer of a probe, kept for the beat (R206). -/
def recordProbe (s : State) (v : Verdict) : State :=
  match s.cur.lane with
  | .stream seg pos _ _ => modSeg s seg fun g => { g with probes := g.probes ++ [(pos, v)] }
  | _ => s

/-- A checked word is settled: carried out, trapped, parked, or made to wait for a page or a port (R56, R172). -/
def settle (v : Verdict) (eff : State → State) (s : State) : Result :=
  match curCtx s with
  | none => .fault .noIssuer
  | some _ =>
    if s.cur.probe then .next (recordProbe s v)
    else match v with
      | .go | .goPush => .next (eff (markIssued s))
      | .trap c t => .next (trapNow (markIssued s) c t)
      | .park w => .next (parkNow s w)
      | .walk va wr f =>
        let (i, s) := askWalk s (me s) none va wr f s.cur.pc
        .next (parkNow (interrupted s) (.page i))
      | .pop r w dst => .next (sendPop (markIssued s) (me s) r w dst s.cur.pc s.cur.rep)

end Sys2Proof.Machine
end

