-- ==== Sys2Proof/Machine/Operands.lean ====
section
/-! DEFINITION. Operand forms: the registers a word names and the checks of R56 on them, port operands, immediates and memory
offsets, the repeat prefix, and how a result leaves a word. -/

namespace Sys2Proof.Machine

/-! ## The registers of a word -/

/-- What a word names, for R56 steps 1 to 3 and the rules that depend on its kind. -/
structure Use where
  /-- registers read -/
  srcs : List Reg
  /-- register written -/
  dst : Option Reg := none
  /-- the W bit; false for a format without one (R14) -/
  w : Bool := false
  /-- a word of opcodes 0x00 to 0x0C or 0x30 to 0x3E, which may name a bound register (R244) -/
  ports : Bool := false
  /-- reads or writes memory, scratchpad, a mark or an engine queue (R105, R115) -/
  mem : Bool := false
  /-- a global store (R105) -/
  store : Bool := false
  /-- the highest register named beyond the fields (R118) -/
  top : Nat := 0
  deriving DecidableEq, Repr

def Use.regs (u : Use) : List Reg := u.srcs ++ u.dst.toList

/-- A bound register stands where R244 forbids it. -/
def badPort (u : Use) (k : Core) (c : Ctx) : Bool :=
  let input := fun r => portOf k c r == some false
  let output := fun r => portOf k c r == some true
  if u.ports then
    u.srcs.any output || u.dst.any input || decide (1 < ((u.srcs.filter input).eraseDups).length)
  else u.regs.any fun r => (portOf k c r).isSome

/-- A register at or above the allotment (R66). -/
def beyond (u : Use) (c : Ctx) : Bool := (u.regs.any fun r => decide (c.size ≤ r.toNat)) || decide (c.size ≤ u.top)

/-- A deposit, which has its value once its slice has performed it (R143). -/
def isDeposit (op : ReqOp) : Bool := match op with | .dep .. => true | _ => false

/-- A request or an unreturned result of a context, of a kind with a value, older than `upto` (R105, R143). -/
def owesBefore (s : State) (cid upto : Nat) : Bool :=
  s.reqs.any fun r => r.ctx == cid && decide (r.id < upto) && (match r.op with | .store _ => false | op => !(isDeposit op && r.done))

/-- The place is the host's, or a peer's and not this device's own (R354). -/
def leavesPackage (s : State) (l : Loc) : Bool :=
  match l with
  | .remote d _ => d != s.dev.toNat
  | .host _ => true
  | _ => false

/-- A drained store of a core, older than `upto`, is not performed as a scope from `.pkg` on asks: at its home in either die, and at
`.dom` acknowledged by the host or a peer (R115). -/
def storesOut (s : State) (core upto : Nat) (scope : BitVec 2) : Bool :=
  s.reqs.any fun r => coreOf r.ctx == core && decide (r.id < upto) &&
    (match r.op with | .store _ => scope == 3 || !leavesPackage s r.loc | _ => false)

/-- A store that entered a core's buffer before `upto` stands in the way of a fence of a scope from `.die` on (R115). -/
def storesBefore (s : State) (core upto : Nat) (scope : BitVec 2) : Bool :=
  ((getCore s core).sbuf.any fun e => decide (e.id < upto)) || (scope != 1 && storesOut s core upto scope)

/-- The condition of a fence of a scope (R115). -/
def fenceMet (s : State) (cid : Nat) (scope : BitVec 2) (upto : Nat) : Bool :=
  !owesBefore s cid upto && (scope == 0 || !storesBefore s (coreOf cid) upto scope)

/-- An order duty is met (R105, R115). -/
def dutyMet (s : State) (cid : Nat) (d : Duty) : Bool :=
  match d with
  | .acq r => !(s.reqs.any fun q => q.id == r)
  | .noStore r => !(s.reqs.any fun q => q.id == r && !q.done)
  | .fence scope upto _ => fenceMet s cid scope upto

/-- A duty holds a word of this kind, until DUTY_MET lifts it. -/
def heldByDuty (c : Ctx) (u : Use) : Bool := c.duties.any fun d => match d with | .noStore _ => u.store | _ => u.mem

def isEmpty (k : Core) (c : Ctx) (r : Reg) : Bool := !(regEntry k c r).full

/-- The descriptor address of a bound register (R243). -/
def portDesc (k : Core) (c : Ctx) (r : Reg) : Word := (regEntry k c r).val &&& ~~~(1 : Word)

/-- A word that pops from or pushes to a bound register accesses memory (R105, R115, R242). -/
def Use.withPorts (u : Use) (k : Core) (c : Ctx) : Use :=
  { u with mem := u.mem || (u.ports && u.regs.any fun r => (portOf k c r).isSome) }

/-- A word whose own checks pass, with what a result for an output port asks for (R207, R244). -/
def Use.passed (u : Use) (k : Core) (c : Ctx) (v : Verdict) : Verdict :=
  if v == .go && u.ports && u.dst.any (fun r => portOf k c r == some true) then .goPush else v

/-- The checks of R56 that precede execution, in order, and then the word's own. -/
def check (u : Use) (own : State → Core → Ctx → Verdict) (s : State) : Verdict :=
  match curCtx s with
  | none => .go
  | some c =>
    let k := my s
    if badPort u k c then .trap .illop (curWord s)
    else if beyond u c then .trap .allot (curWord s)
    else match c.portTrap with
      | some (cause, tval) => .trap cause tval
      | none =>
        if heldByDuty c (u.withPorts k c) then .park .duty
        else if u.srcs.any (isEmpty k c) || (c.popped.isNone && u.dst.any (isEmpty k c)) then
          if u.w then .trap .empty (curWord s) else .park .operands
        else match u.srcs.find? fun r => (regEntry k c r).poison with
          | some r => .trap .poison (r.setWidth 64)
          | none =>
            match u.regs.find? fun r => u.ports && (portOf k c r).isSome && (pageEntry k c.vmid (portDesc k c r)).isNone with
            | some r => .walk (portDesc k c r) true false
            | none =>
              match u.srcs.find? fun r => portOf k c r == some false with
              | some r => if c.popped.isNone then .pop r u.w (u.dst.filter (· != 0)) else u.passed k c (own s k c)
              | none => u.passed k c (own s k c)

/-- No check of its own. -/
def plain (_ : State) (_ : Core) (_ : Ctx) : Verdict := .go

/-- A source operand: a register, or the element popped from an input port (R244). -/
def src (s : State) (r : Reg) : Word :=
  match curCtx s with
  | none => 0
  | some c => if portOf (my s) c r == some false then c.popped.getD 0 else (regEntry (my s) c r).val

/-! ## How a word leaves its context -/

/-- The current word holds its context, which has used its turn (R172); where the word stands is kept. -/
def holdNow (h : Hold) (s : State) : State :=
  let s := retire (modCtx s (me s) fun c => { c with heldPc := trapPc s, heldRepc := runOf s c })
  modCtx s (me s) fun c => { c with status := .held h }

/-- Flags ORed into `fflags` (R220). -/
def setFlags (f : BitVec 5) (cid : Nat) (s : State) : State := modCtx s cid fun c => { c with fflags := c.fflags ||| f }

/-- A push of a result to the output port `r` (R244 to R246): sent once the context's release is met, and held until answered; the
word's `flags` are raised with the answer, and in a stream the rest of the beat waits for it (R207). -/
def sendPush (r : Reg) (v : Word) (flags : BitVec 5) (s : State) : State :=
  match curCtx s with
  | none => s
  | some c =>
    let d := (regEntry (my s) c r).val &&& ~~~(1 : Word)
    let p := (pageEntry (my s) c.vmid d).getD
      { vmid := c.vmid, va := 0, size := 0, out := .hbm 0, gpa := 0, rd := false, wr := false, ex := false, home := .core,
        trail := none, key := 0 }
    let (i, s) := takeId s
    let o : PortOp := { id := i, ctx := me s, push := true, w := false, desc := d, v := v, page := p, upto := i }
    modCtx (holdNow (.push r i) { s with ports := s.ports ++ [o] }) (me s) fun c => { c with heldFlags := flags, early := c.stream }

/-- The result of a word: written to its destination, or pushed where that is an output port (R244). -/
def finish (rd : Reg) (v : Word) (flags : BitVec 5) (s : State) : State :=
  match curCtx s with
  | none => s
  | some c =>
    if portOf (my s) c rd == some true then sendPush rd v flags s
    else retire (writeReg (setFlags flags (me s) s) (me s) rd v)

/-- A word with no result. -/
def done (s : State) : State := retire s

/-! ## Immediates and offsets (R54, R55) -/

def sextImm (i : BitVec 11) : Word := i.signExtend 64

/-- The value of a U-format immediate (R54, R87). -/
def upperImm (i : BitVec 18) : Word := (i ++ 0#14).signExtend 64

/-- A branch or jump offset in bytes. -/
def off11 (i : BitVec 11) : Word := i.signExtend 64 <<< 2
def off18 (i : BitVec 18) : Word := i.signExtend 64 <<< 2

/-- Bytes of an access by its width code (R55). -/
def widthBytes (z : Nat) : Nat := if z % 4 = 0 then 1 else if z % 4 = 1 then 2 else if z % 4 = 2 then 4 else 8

/-- Loaded bytes extended as the width code states (R92). -/
def extend (z : Nat) (v : Word) : Word :=
  match z with
  | 0 => (v.extractLsb' 0 8).signExtend 64
  | 1 => (v.extractLsb' 0 16).signExtend 64
  | 2 => (v.extractLsb' 0 32).signExtend 64
  | 4 => (v.extractLsb' 0 8).setWidth 64
  | 5 => (v.extractLsb' 0 16).setWidth 64
  | 6 => (v.extractLsb' 0 32).setWidth 64
  | _ => v

/-- The byte address of a memory form: base, offset in units of the size, and what a repetition adds (R55, R63, R89). -/
def memAddr (s : State) (base : Word) (off : BitVec 8) (size : Nat) : Word :=
  base + off.signExtend 64 * word size + (match s.cur.rep with | some r => r.off | none => 0)

/-! ## The repeat prefix (R60 to R65) -/

/-- The fields of a prefix: strides of the fields at 13:7, 20:14 and 27:21, and OS. -/
structure Rep where
  sa : BitVec 2
  sb : BitVec 2
  sc : BitVec 2
  os : Bool
  deriving DecidableEq, Repr

def stride (c : BitVec 2) : Int := if c = 0 then 0 else if c = 1 then 1 else if c = 2 then 2 else -1

def opOf (t : W32) : Nat := (bits 0 7 t).toNat
def f3Of (t : W32) : Nat := (bits 29 3 t).toNat

/-- The opcode of a possible target (R62). -/
def repTargetOp (op : Nat) : Bool :=
  decide (op ≤ 0x0C) || (decide (0x10 ≤ op) && decide (op ≤ 0x14)) || (decide (0x30 ≤ op) && decide (op ≤ 0x3E)) ||
  (decide (0x40 ≤ op) && decide (op ≤ 0x45))

/-- The target uses its field at 27:21 as a register; those at 13:7 and 20:14 it always does. -/
def usesC (t : W32) : Bool :=
  let op := opOf t
  let f := f3Of t
  decide (op ≤ 2) || (decide (0x30 ≤ op) && decide (op ≤ 0x35)) || ((op == 0x37 || op == 0x38) && f != 7) ||
  (decide (0x40 ≤ op) && decide (op ≤ 0x43)) || (op == 0x44 && f != 4) || (op == 0x45 && decide (4 ≤ f))

/-- The target meets R62 and R56 step 1. -/
def repTargetOk (r : Rep) (t : W32) : Bool :=
  repTargetOp (opOf t) && (decode t).isSome && (r.sc == 0 || usesC t) &&
  (!r.os || (decide (0x10 ≤ opOf t) && decide (opOf t ≤ 0x14)))

/-- The registers that a target names, as R56 step 1 needs them: of a word that may name bound registers, which it reads and which it
writes, its destination among the former where it reads it too (R244). -/
def targetUse (t : W32) : Use :=
  let op := opOf t
  let reads := op == 0x34 || op == 0x35
  { srcs := [bits 14 7 t] ++ (if usesC t then [bits 21 7 t] else []) ++ (if reads then [bits 7 7 t] else []), dst := some (bits 7 7 t),
    ports := decide (op ≤ 0x0C) || (decide (0x30 ≤ op) && decide (op ≤ 0x3E)) }

/-- A field advanced `i` times. -/
def advance (f : BitVec 7) (c : BitVec 2) (i : Nat) : Int := (f.toNat : Int) + i * stride c

/-- Some repetition of the run names a register outside the allotment (R63). -/
def repBeyond (r : Rep) (t : W32) (allot i left : Nat) : Bool :=
  let out := fun (f : BitVec 7) (c : BitVec 2) (j : Nat) => decide (advance f c j < 0) || decide ((allot : Int) ≤ advance f c j)
  let bad := fun (f : BitVec 7) (c : BitVec 2) => out f c i || out f c (i + left - 1)
  bad (bits 7 7 t) r.sa || bad (bits 14 7 t) r.sb || (usesC t && bad (bits 21 7 t) r.sc)

/-- The target as repetition `i` executes it: its fields advanced (R63). -/
def repWord (r : Rep) (t : W32) (i : Nat) : W32 :=
  let f := fun (x : BitVec 7) (c : BitVec 2) => BitVec.ofInt 7 (advance x c i)
  bits 28 4 t ++ (if usesC t then f (bits 21 7 t) r.sc else bits 21 7 t) ++ f (bits 14 7 t) r.sb ++ f (bits 7 7 t) r.sa ++ bits 0 7 t

/-- What repetition `i` adds to the byte offset (R63). -/
def repOffset (r : Rep) (t : W32) (i : Nat) : Word := if r.os then word (i * widthBytes (bits 21 3 t).toNat) else 0

end Sys2Proof.Machine
end

