-- ==== Sys2Proof/Machine/Memory.lean ====
section
/-! DEFINITION. Global and scratchpad loads and stores, the acquire load and the release store (R88 to R99, R104 to R108). -/

namespace Sys2Proof.Machine

/-! ## Checks shared by every global access -/

/-- The page check of R90: an entry for the tenant, with the rights the access needs. -/
def pageCheck (k : Core) (c : Ctx) (va : Word) (rd wr : Bool) : Except Verdict Page :=
  match pageEntry k c.vmid va with
  | none => .error (.walk va wr false)
  | some p => if (rd && !p.rd) || (wr && !p.wr) then .error (.trap .prot va) else .ok p

/-- R89 steps 1 to 3, R110 steps 1 to 3 and R158 steps 1 to 3. -/
def globalCheck (k : Core) (c : Ctx) (va : Word) (size : Nat) (rd wr : Bool) : Except Verdict Page :=
  if va.toNat % size != 0 then .error (.trap .misalign va)
  else if !canonical va then .error (.trap .prot va)
  else pageCheck k c va rd wr

/-! ## The store buffer (R17, R91, R95) -/

/-- Entries taken by stores; claims take none (R137). -/
def bufferUsed (k : Core) : Nat := (k.sbuf.filter fun e => match e.op with | .store _ => true | _ => false).length

/-- The byte that the youngest buffered store puts at a place, if one covers it. -/
def bufferedByte (b : List SbEntry) (l : Loc) : Option Byte :=
  b.foldl (fun acc e => match e.op with
    | .store v => if e.loc.meets e.size l 1 then
        (match (List.range e.size).find? fun i => (e.loc.add i).meets 1 l 1 with
          | some i => some (BitVec.ofNat 8 (v.toNat / 256 ^ i))
          | none => acc)
      else acc
    | _ => acc) none

/-- The buffer's answer to a load: every byte, some, or none (R91 step 1). -/
def bufferedBytes (b : List SbEntry) (l : Loc) (n : Nat) : List (Option Byte) :=
  (List.range n).map fun i => bufferedByte b (l.add i)

/-- The ids of buffered stores that overlap an access (R105). -/
def bufferedIds (k : Core) (l : Loc) (n : Nat) : List Nat :=
  (k.sbuf.filter fun e => (match e.op with | .store _ => true | _ => false) && e.loc.meets e.size l n).map (·.id)

/-! ## Loads -/

/-- Where a load's value comes from (R91). -/
inductive Source where
  | value (v : Word)
  | wait
  | request
  deriving DecidableEq, Repr

/-- The L1's answer (R91 step 2). -/
def l1Bytes (k : Core) (p : Page) (va : Word) (n : Nat) : Option (List Byte) :=
  if (p.home = .cached || p.home = .slice) && p.trail.isNone then
    let g := p.gpa + (va.toNat - p.va.toNat)
    (k.l1.find? fun x => x.vmid == p.vmid && x.gline == g / 64).map fun x => (x.bytes.drop (g % 64)).take n
  else none

/-- The source of a load's bytes (R91). A load that has waited on a partly covered range goes to the home once those stores are gone. -/
def loadSource (k : Core) (c : Ctx) (p : Page) (va : Word) (n : Nat) (l1 : Bool) : Source :=
  let b := bufferedBytes k.sbuf (p.loc va) n
  if c.cover.isSome then
    if (bufferedIds k (p.loc va) n).any (· < c.cover.getD 0) then .wait else .request
  else if b.all Option.isSome then .value (word (leNat (b.map (·.getD 0))))
  else if b.any Option.isSome then .wait
  else if l1 then
    match l1Bytes k p va n with
    | some bs => .value (word (leNat bs))
    | none => .request
  else .request

/-- The order class of an access (R105). -/
inductive Class where
  | pl | acq | rel | ar
  deriving DecidableEq, Repr

def Class.acquires : Class → Bool
  | .acq | .ar => true
  | _ => false
def Class.releases : Class → Bool
  | .rel | .ar => true
  | _ => false

/-- A load, atomic or mark operation of a context that is not performed (R130). -/
def pendingAccess (s : State) (ctx : Nat) : Bool :=
  s.reqs.any fun r => r.ctx == ctx && !r.done && (match r.op with | .store _ => false | _ => true)

/-- Whether a load can take its bytes now: one that the buffer or the L1 answers is performed at issue, so it waits for the accesses
before it (R130; log entry 30). -/
def sourceVerdict (s : State) (x : Source) : Verdict :=
  match x with
  | .wait => .park .cover
  | .value _ => if pendingAccess s (me s) then .park .buffer else .go
  | .request => .go

/-- The address and the page of a load by a context. -/
def loadVerdict (s : State) (va : Word) (z : Nat) (ca : Bool) (k : Core) (c : Ctx) : Verdict :=
  match globalCheck k c va (widthBytes z) true false with
  | .error v => v
  | .ok p => sourceVerdict s (loadSource k c p va (widthBytes z) ca)

/-- The request of a word (R13), under the next number. -/
def request (s : State) (c : Ctx) (op : ReqOp) (va : Word) (n : Nat) (p : Page) (d : Reg) (after : List Nat) : Req :=
  { id := s.nextId, ctx := me s, vmid := c.vmid, op := op, va := va, size := n, loc := p.loc va, page := p, rd := d, after := after,
    pc := trapPc s, repc := runOf s c, node := c.node }

/-- A load that has passed its checks: its value at once, or a request and an empty destination (R13, R70, R91). -/
def loadEffect (va : Word) (z : Nat) (ca acq : Bool) (d : Reg) (s : State) : State :=
  match curCtx s with
  | none => s
  | some c =>
    let k := my s
    match pageEntry k c.vmid va with
    | none => s
    | some p =>
      match loadSource k c p va (widthBytes z) ca with
      | .value v => retire (writeReg s (me s) d (extend z v))
      | _ =>
        let fill := ca && (p.home = .cached || p.home = .slice) && p.trail.isNone
        let r := request s c (.load z fill) va (widthBytes z) p d []
        let (i, s) := takeId s
        let s := { s with reqs := s.reqs ++ [r] }
        let s := if acq then modCtx s (me s) fun c => { c with duties := c.duties ++ [.acq i] } else s
        retire (emptyReg s (me s) d)

/-- `ld` and `ld.by` (R88 to R92): the base register, the scaled offset, the width code, and the cache class. -/
def load (ca : Bool) (i : BitVec 8) (z : BitVec 3) (d a : Reg) (s : State) : Result :=
  let va := fun s => memAddr s (src s a) i (widthBytes z.toNat)
  settle (check { srcs := [a], dst := some d, mem := true } (fun s k c => loadVerdict s (va s) z.toNat ca k c) s)
    (fun s => loadEffect (va s) z.toNat ca false d s) s

/-- `ld` (R88, R91). -/
def execLd (i : BitVec 8) (z : BitVec 3) (d a : Reg) (s : State) : Result := load true i z d a s

/-- `ld.by` (R88, R91). -/
def execLdBy (i : BitVec 8) (z : BitVec 3) (d a : Reg) (s : State) : Result := load false i z d a s

/-- The width code of `ld.acq` and `st.rel`: `.w` or `.d` (R55). -/
def acqWidth (z : Bool) : Nat := if z then 3 else 2

/-- `ld.acq` (R15, R107, R108): never the L1, and its duty until it has its value. Which scope it names changes only what R106
promises of other parties; the model performs every access of the context in program order (log entry 8). -/
def execLdAcq (_scope : BitVec 2) (i : BitVec 8) (z : Bool) (d a : Reg) (s : State) : Result :=
  let va := fun s => memAddr s (src s a) i (widthBytes (acqWidth z))
  settle (check { srcs := [a], dst := some d, mem := true } (fun s k c => loadVerdict s (va s) (acqWidth z) false k c) s)
    (fun s => loadEffect (va s) (acqWidth z) false true d s) s

/-! ## Stores -/

def storeVerdict (va : Word) (n : Nat) (k : Core) (c : Ctx) : Verdict :=
  match globalCheck k c va n false true with
  | .error v => v
  | .ok _ => if 32 ≤ bufferUsed k then .park .buffer else .go

/-- A store enters the buffer (R95). -/
def storeEffect (va : Word) (n : Nat) (v : Word) (rel : Option (BitVec 2)) (s : State) : State :=
  match curCtx s with
  | none => s
  | some c =>
    match pageEntry (my s) c.vmid va with
    | none => s
    | some p =>
      let (i, s) := takeId s
      let e : SbEntry := { id := i, ctx := me s, op := .store v, va := va, size := n, loc := p.loc va, page := p, rel := rel,
                           pc := trapPc s, repc := runOf s c, node := c.node }
      retire (modCore s (coreOf (me s)) fun k => { k with sbuf := k.sbuf ++ [e] })

/-- A global store of the low bytes of `g[rb]` (R88, R89, R95). -/
def store (n : Nat) (rel : Option (BitVec 2)) (i : BitVec 8) (a b : Reg) (s : State) : Result :=
  let va := fun s => memAddr s (src s a) i n
  settle (check { srcs := [a, b], mem := true, store := true } (fun s k c => storeVerdict (va s) n k c) s)
    (fun s => storeEffect (va s) n (src s b) rel s) s

/-- `st` (R88, R95). -/
def execSt (i : BitVec 8) (z : BitVec 2) (a b : Reg) (s : State) : Result := store (widthBytes z.toNat) none i a b s

/-- `st.rel` (R107, R108). -/
def execStRel (scope : BitVec 2) (i : BitVec 8) (z : Bool) (a b : Reg) (s : State) : Result :=
  store (widthBytes (acqWidth z)) (some scope) i a b s

/-! ## Scratchpad (R97 to R99, R192, R313) -/

/-- Bytes of a row of 32 elements in a format (R250). -/
def rowBytes (fmt : Nat) : Nat := if fmt ≤ 1 then 64 else if fmt = 2 then 32 else 16

/-- The format has a scale array (R250). -/
def isBD (fmt : Nat) : Bool := fmt == 2 || fmt == 3

/-- The scratchpad ranges that a matrix command lends until it completes (R188, R252). -/
def MCmd.lends (m : MCmd) : List (Nat × Nat) :=
  match m.kind with
  | .mma | .rot =>
    let fa := (m.mfmt.extractLsb' 0 4).toNat
    let fb := (m.mfmt.extractLsb' 4 4).toNat
    [(m.a.toNat, rowBytes fa * m.depth)] ++
    (if m.sd then [(m.b.toNat, rowBytes fb * m.depth)] else []) ++
    (if isBD fa then [(m.mscla.toNat, 2 * m.depth)] else []) ++
    (if m.sd && isBD fb then [(m.msclb.toNat, 2 * m.depth)] else [])
  | _ => []

/-- A byte of the range is lent (R192). -/
def isLent (k : Core) (a n : Nat) : Bool := k.mq.any fun m => m.lends.any fun r => overlaps a n r.1 r.2

/-- The checks of a scratchpad access (R89 steps 1, 4, 5; R114). -/
def spCheck (k : Core) (va : Word) (n : Nat) (write : Bool) : Verdict :=
  if va.toNat % n != 0 then .trap .misalign va
  else if windowBase k < va.toNat + n then .trap .prot va
  else if write && isLent k va.toNat n then .trap .oplent va
  else .go

/-- A write narrower than a poisoned granule traps (R313; log entry 9). -/
def spWriteCheck (k : Core) (va : Word) (n : Nat) : Verdict :=
  match spCheck k va n true with
  | .go => if n < 4 && spPoisoned k va.toNat n then .trap .poison va else .go
  | v => v

/-- A scratchpad write that clears the poison of whole granules (R313). -/
def spStore (k : Core) (a : Nat) (bs : List Byte) : Core :=
  let k := spWrite k a bs
  { k with spPoison := k.spPoison.filter fun g => !(decide (a ≤ g * 4) && decide (g * 4 + 4 ≤ a + bs.length)) }

/-- A load's data arrives poisoned, or from a failed device: destination 0 and full, and a trap before the next word (R94). -/
def poisonLoad (cid : Nat) (d : Reg) (cause : Cause) (va : Word) (s : State) : State :=
  modCtx (writeReg s cid d 0) cid fun c => { c with pend := c.pend ++ [(BitVec.ofNat 8 cause.code, va)] }

/-- `lds` (R88, R97, R98). -/
def execLds (i : BitVec 8) (z : BitVec 3) (d a : Reg) (s : State) : Result :=
  let n := widthBytes z.toNat
  let va := fun s => memAddr s (src s a) i n
  settle (check { srcs := [a], dst := some d, mem := true } (fun s k _ => spCheck k (va s) n false) s)
    (fun s =>
      if spPoisoned (my s) (va s).toNat n then retire (poisonLoad (me s) d .poison (va s) s)
      else retire (writeReg s (me s) d (extend z.toNat (word (leNat (spRead (my s) (va s).toNat n)))))) s

/-- `sts` (R88, R97, R98). -/
def execSts (i : BitVec 8) (z : BitVec 2) (a b : Reg) (s : State) : Result :=
  let n := widthBytes z.toNat
  let va := fun s => memAddr s (src s a) i n
  settle (check { srcs := [a, b], mem := true } (fun s k _ => spWriteCheck k (va s) n) s)
    (fun s => retire (modCore s (coreOf (me s)) fun k => spStore k (va s).toNat (leBytes n (src s b).toNat))) s

end Sys2Proof.Machine
end

