-- ==== Sys2Proof/Machine/Atomics.lean ====
section
/-! DEFINITION. Atomics at slice banks and scratchpad banks, and fences (R104, R105, R109 to R116). -/

namespace Sys2Proof.Machine

/-! ## The functions (R109, R112, R113) -/

/-- Operand size by function code: 0 to 7 of set A, 8 to 13 of set B. -/
def amoSize (fn : AmoFn) : Nat := if fn = 11 then 4 else if fn = 12 || fn = 13 then 2 else 8

/-- The new memory value from the old value, the operand and the compare value, as an operand-sized number (R112, R113). -/
def amoNew (fn : AmoFn) (old b c : Word) : Nat :=
  match fn with
  | 0 => (old + b).toNat
  | 1 => (old &&& b).toNat
  | 2 => (old ||| b).toNat
  | 3 => (old ^^^ b).toNat
  | 4 => b.toNat
  | 5 => (if b.toInt < old.toInt then b else old).toNat
  | 6 => (if old.toInt < b.toInt then b else old).toNat
  | 7 => (if old = c then b else old).toNat
  | 8 => min old.toNat b.toNat
  | 9 => max old.toNat b.toNat
  | 10 => atomicFAdd fp64 old.toNat b.toNat
  | 11 => atomicFAdd fp32 old.toNat (b.toNat % 2 ^ 32)
  | 12 => atomicFAdd fp16 old.toNat (b.toNat % 2 ^ 16)
  | _ => atomicFAdd bf16 old.toNat (b.toNat % 2 ^ 16)

/-- A `cas` that fails writes nothing (R112). -/
def amoWrites (fn : AmoFn) (old c : Word) : Bool := fn != 7 || old == c

/-! ## Global atomics (R110, R111) -/

/-- Stores of a core that a release waits for: every one that entered its buffer before (R105). -/
def coreStores (s : State) (core : Nat) : List Nat :=
  (getCore s core).sbuf.map (·.id) ++
  (s.reqs.filter fun r => coreOf r.ctx == core && (match r.op with | .store _ => true | _ => false)).map (·.id)

/-- What an access of a class waits for at its home, beside the order that every access keeps (R105). -/
def classAfter (s : State) (cls : Class) (cid : Nat) (l : Loc) (n : Nat) : List Nat :=
  bufferedIds (getCore s (coreOf cid)) l n ++
  (if cls.releases then
    coreStores s (coreOf cid) ++
      (s.reqs.filter fun r => r.ctx == cid && (match r.op with | .store _ => false | _ => true)).map (·.id)
  else [])

/-- The duty that an access of a class leaves on its context (R105). -/
def classDuty (cls : Class) (id : Nat) : Duty := if cls.acquires then .acq id else .noStore id

/-- A request with its class duties leaves the context (R105, R110). -/
def sendClass (cls : Class) (op : ReqOp) (n : Nat) (va : Word) (d : Reg) (s : State) : State :=
  match curCtx s with
  | none => s
  | some c =>
    match pageEntry (my s) c.vmid va with
    | none => s
    | some p =>
      let r := request s c op va n p d (classAfter s cls (me s) (p.loc va) n)
      let (i, s) := takeId s
      let s := modCtx { s with reqs := s.reqs ++ [r] } (me s) fun c => { c with duties := c.duties ++ [classDuty cls i] }
      retire (emptyReg s (me s) d)

/-- R110. -/
def amoVerdict (fn : AmoFn) (va : Word) (k : Core) (c : Ctx) : Verdict :=
  match globalCheck k c va (amoSize fn) true true with
  | .error v => v
  | .ok p => if p.trail.isSome then .trap .tfield va else .go

/-- The registers of an atomic: a compare value is read from `g[rd]` (R109). -/
def amoUse (fn : AmoFn) (w : Bool) (d a b : Reg) : Use :=
  { srcs := if fn = 7 then [a, b, d] else [a, b], dst := some d, w := w, mem := true }

/-- A global atomic (R109 to R113). -/
def amo (fn : AmoFn) (cls : Class) (w : Bool) (d a b : Reg) (s : State) : Result :=
  settle (check (amoUse fn w d a b) (fun s k c => amoVerdict fn (src s a) k c) s)
    (fun s => sendClass cls (.amo fn (src s b) (src s d)) (amoSize fn) (src s a) d s) s

/-- `amoAdd` (R109 to R113). -/
def execAmoAdd (w : Bool) (d a b : Reg) (s : State) : Result := amo 0 .pl w d a b s

/-- `amoAnd` (R109 to R113). -/
def execAmoAnd (w : Bool) (d a b : Reg) (s : State) : Result := amo 1 .pl w d a b s

/-- `amoOr` (R109 to R113). -/
def execAmoOr (w : Bool) (d a b : Reg) (s : State) : Result := amo 2 .pl w d a b s

/-- `amoXor` (R109 to R113). -/
def execAmoXor (w : Bool) (d a b : Reg) (s : State) : Result := amo 3 .pl w d a b s

/-- `amoSwap` (R109 to R113). -/
def execAmoSwap (w : Bool) (d a b : Reg) (s : State) : Result := amo 4 .pl w d a b s

/-- `amoMin` (R109 to R113). -/
def execAmoMin (w : Bool) (d a b : Reg) (s : State) : Result := amo 5 .pl w d a b s

/-- `amoMax` (R109 to R113). -/
def execAmoMax (w : Bool) (d a b : Reg) (s : State) : Result := amo 6 .pl w d a b s

/-- `amoCas` (R109 to R113). -/
def execAmoCas (w : Bool) (d a b : Reg) (s : State) : Result := amo 7 .pl w d a b s

/-- `amoAddAcq` (R109 to R113). -/
def execAmoAddAcq (w : Bool) (d a b : Reg) (s : State) : Result := amo 0 .acq w d a b s

/-- `amoAndAcq` (R109 to R113). -/
def execAmoAndAcq (w : Bool) (d a b : Reg) (s : State) : Result := amo 1 .acq w d a b s

/-- `amoOrAcq` (R109 to R113). -/
def execAmoOrAcq (w : Bool) (d a b : Reg) (s : State) : Result := amo 2 .acq w d a b s

/-- `amoXorAcq` (R109 to R113). -/
def execAmoXorAcq (w : Bool) (d a b : Reg) (s : State) : Result := amo 3 .acq w d a b s

/-- `amoSwapAcq` (R109 to R113). -/
def execAmoSwapAcq (w : Bool) (d a b : Reg) (s : State) : Result := amo 4 .acq w d a b s

/-- `amoMinAcq` (R109 to R113). -/
def execAmoMinAcq (w : Bool) (d a b : Reg) (s : State) : Result := amo 5 .acq w d a b s

/-- `amoMaxAcq` (R109 to R113). -/
def execAmoMaxAcq (w : Bool) (d a b : Reg) (s : State) : Result := amo 6 .acq w d a b s

/-- `amoCasAcq` (R109 to R113). -/
def execAmoCasAcq (w : Bool) (d a b : Reg) (s : State) : Result := amo 7 .acq w d a b s

/-- `amoAddRel` (R109 to R113). -/
def execAmoAddRel (w : Bool) (d a b : Reg) (s : State) : Result := amo 0 .rel w d a b s

/-- `amoAndRel` (R109 to R113). -/
def execAmoAndRel (w : Bool) (d a b : Reg) (s : State) : Result := amo 1 .rel w d a b s

/-- `amoOrRel` (R109 to R113). -/
def execAmoOrRel (w : Bool) (d a b : Reg) (s : State) : Result := amo 2 .rel w d a b s

/-- `amoXorRel` (R109 to R113). -/
def execAmoXorRel (w : Bool) (d a b : Reg) (s : State) : Result := amo 3 .rel w d a b s

/-- `amoSwapRel` (R109 to R113). -/
def execAmoSwapRel (w : Bool) (d a b : Reg) (s : State) : Result := amo 4 .rel w d a b s

/-- `amoMinRel` (R109 to R113). -/
def execAmoMinRel (w : Bool) (d a b : Reg) (s : State) : Result := amo 5 .rel w d a b s

/-- `amoMaxRel` (R109 to R113). -/
def execAmoMaxRel (w : Bool) (d a b : Reg) (s : State) : Result := amo 6 .rel w d a b s

/-- `amoCasRel` (R109 to R113). -/
def execAmoCasRel (w : Bool) (d a b : Reg) (s : State) : Result := amo 7 .rel w d a b s

/-- `amoAddAr` (R109 to R113). -/
def execAmoAddAr (w : Bool) (d a b : Reg) (s : State) : Result := amo 0 .ar w d a b s

/-- `amoAndAr` (R109 to R113). -/
def execAmoAndAr (w : Bool) (d a b : Reg) (s : State) : Result := amo 1 .ar w d a b s

/-- `amoOrAr` (R109 to R113). -/
def execAmoOrAr (w : Bool) (d a b : Reg) (s : State) : Result := amo 2 .ar w d a b s

/-- `amoXorAr` (R109 to R113). -/
def execAmoXorAr (w : Bool) (d a b : Reg) (s : State) : Result := amo 3 .ar w d a b s

/-- `amoSwapAr` (R109 to R113). -/
def execAmoSwapAr (w : Bool) (d a b : Reg) (s : State) : Result := amo 4 .ar w d a b s

/-- `amoMinAr` (R109 to R113). -/
def execAmoMinAr (w : Bool) (d a b : Reg) (s : State) : Result := amo 5 .ar w d a b s

/-- `amoMaxAr` (R109 to R113). -/
def execAmoMaxAr (w : Bool) (d a b : Reg) (s : State) : Result := amo 6 .ar w d a b s

/-- `amoCasAr` (R109 to R113). -/
def execAmoCasAr (w : Bool) (d a b : Reg) (s : State) : Result := amo 7 .ar w d a b s

/-- `amoMinu` (R109 to R113). -/
def execAmoMinu (w : Bool) (d a b : Reg) (s : State) : Result := amo 8 .pl w d a b s

/-- `amoMaxu` (R109 to R113). -/
def execAmoMaxu (w : Bool) (d a b : Reg) (s : State) : Result := amo 9 .pl w d a b s

/-- `amoFaddD` (R109 to R113). -/
def execAmoFaddD (w : Bool) (d a b : Reg) (s : State) : Result := amo 10 .pl w d a b s

/-- `amoFaddW` (R109 to R113). -/
def execAmoFaddW (w : Bool) (d a b : Reg) (s : State) : Result := amo 11 .pl w d a b s

/-- `amoFaddH` (R109 to R113). -/
def execAmoFaddH (w : Bool) (d a b : Reg) (s : State) : Result := amo 12 .pl w d a b s

/-- `amoBfadd` (R109 to R113). -/
def execAmoBfadd (w : Bool) (d a b : Reg) (s : State) : Result := amo 13 .pl w d a b s

/-- `amoMinuAcq` (R109 to R113). -/
def execAmoMinuAcq (w : Bool) (d a b : Reg) (s : State) : Result := amo 8 .acq w d a b s

/-- `amoMaxuAcq` (R109 to R113). -/
def execAmoMaxuAcq (w : Bool) (d a b : Reg) (s : State) : Result := amo 9 .acq w d a b s

/-- `amoFaddDAcq` (R109 to R113). -/
def execAmoFaddDAcq (w : Bool) (d a b : Reg) (s : State) : Result := amo 10 .acq w d a b s

/-- `amoFaddWAcq` (R109 to R113). -/
def execAmoFaddWAcq (w : Bool) (d a b : Reg) (s : State) : Result := amo 11 .acq w d a b s

/-- `amoFaddHAcq` (R109 to R113). -/
def execAmoFaddHAcq (w : Bool) (d a b : Reg) (s : State) : Result := amo 12 .acq w d a b s

/-- `amoBfaddAcq` (R109 to R113). -/
def execAmoBfaddAcq (w : Bool) (d a b : Reg) (s : State) : Result := amo 13 .acq w d a b s

/-- `amoMinuRel` (R109 to R113). -/
def execAmoMinuRel (w : Bool) (d a b : Reg) (s : State) : Result := amo 8 .rel w d a b s

/-- `amoMaxuRel` (R109 to R113). -/
def execAmoMaxuRel (w : Bool) (d a b : Reg) (s : State) : Result := amo 9 .rel w d a b s

/-- `amoFaddDRel` (R109 to R113). -/
def execAmoFaddDRel (w : Bool) (d a b : Reg) (s : State) : Result := amo 10 .rel w d a b s

/-- `amoFaddWRel` (R109 to R113). -/
def execAmoFaddWRel (w : Bool) (d a b : Reg) (s : State) : Result := amo 11 .rel w d a b s

/-- `amoFaddHRel` (R109 to R113). -/
def execAmoFaddHRel (w : Bool) (d a b : Reg) (s : State) : Result := amo 12 .rel w d a b s

/-- `amoBfaddRel` (R109 to R113). -/
def execAmoBfaddRel (w : Bool) (d a b : Reg) (s : State) : Result := amo 13 .rel w d a b s

/-- `amoMinuAr` (R109 to R113). -/
def execAmoMinuAr (w : Bool) (d a b : Reg) (s : State) : Result := amo 8 .ar w d a b s

/-- `amoMaxuAr` (R109 to R113). -/
def execAmoMaxuAr (w : Bool) (d a b : Reg) (s : State) : Result := amo 9 .ar w d a b s

/-- `amoFaddDAr` (R109 to R113). -/
def execAmoFaddDAr (w : Bool) (d a b : Reg) (s : State) : Result := amo 10 .ar w d a b s

/-- `amoFaddWAr` (R109 to R113). -/
def execAmoFaddWAr (w : Bool) (d a b : Reg) (s : State) : Result := amo 11 .ar w d a b s

/-- `amoFaddHAr` (R109 to R113). -/
def execAmoFaddHAr (w : Bool) (d a b : Reg) (s : State) : Result := amo 12 .ar w d a b s

/-- `amoBfaddAr` (R109 to R113). -/
def execAmoBfaddAr (w : Bool) (d a b : Reg) (s : State) : Result := amo 13 .ar w d a b s

/-! ## Scratchpad atomics (R114, R313) -/

/-- A scratchpad atomic is performed at issue; its old value comes back as a result that fills `g[rd]` later (R70, R114). A poisoned
granule is not written, and its result is 0 with a POISON trap to come (R94, R313; log entry 9). A copy channel writes the granules of a
16-byte unit together, so the operand is never part old and part new, as R114 would allow (log entry 61). -/
def amosEffect (fn : AmoFn) (va b c : Word) (d : Reg) (s : State) : State :=
  let n := amoSize fn
  let k := my s
  let bad := spPoisoned k va.toNat n
  let old := word (leNat (spRead k va.toNat n))
  let s := if bad || !amoWrites fn old c then s
    else modCore s (coreOf (me s)) fun k => spWrite k va.toNat (leBytes n (amoNew fn old b c))
  let (i, s) := takeId s
  let r : Req := { id := i, ctx := me s, vmid := 0, op := .amos, va := va, size := n, loc := .window (coreOf (me s)) va.toNat,
                   page := { vmid := 0, va := 0, size := 0, out := .hbm 0, gpa := 0, rd := false, wr := false, ex := false,
                             home := .core, trail := none, key := 0 },
                   rd := d, done := true, value := if bad then 0 else old, poison := bad }
  retire (emptyReg { s with reqs := s.reqs ++ [r] } (me s) d)

/-- A scratchpad atomic (R109, R112 to R114). -/
def amos (fn : AmoFn) (w : Bool) (d a b : Reg) (s : State) : Result :=
  settle (check (amoUse fn w d a b) (fun s k _ => spCheck k (src s a) (amoSize fn) true) s)
    (fun s => amosEffect fn (src s a) (src s b) (src s d) d s) s

/-- `amosAdd` (R114). -/
def execAmosAdd (w : Bool) (d a b : Reg) (s : State) : Result := amos 0 w d a b s

/-- `amosAnd` (R114). -/
def execAmosAnd (w : Bool) (d a b : Reg) (s : State) : Result := amos 1 w d a b s

/-- `amosOr` (R114). -/
def execAmosOr (w : Bool) (d a b : Reg) (s : State) : Result := amos 2 w d a b s

/-- `amosXor` (R114). -/
def execAmosXor (w : Bool) (d a b : Reg) (s : State) : Result := amos 3 w d a b s

/-- `amosSwap` (R114). -/
def execAmosSwap (w : Bool) (d a b : Reg) (s : State) : Result := amos 4 w d a b s

/-- `amosMin` (R114). -/
def execAmosMin (w : Bool) (d a b : Reg) (s : State) : Result := amos 5 w d a b s

/-- `amosMax` (R114). -/
def execAmosMax (w : Bool) (d a b : Reg) (s : State) : Result := amos 6 w d a b s

/-- `amosCas` (R114). -/
def execAmosCas (w : Bool) (d a b : Reg) (s : State) : Result := amos 7 w d a b s

/-- `amosMinu` (R114). -/
def execAmosMinu (w : Bool) (d a b : Reg) (s : State) : Result := amos 8 w d a b s

/-- `amosMaxu` (R114). -/
def execAmosMaxu (w : Bool) (d a b : Reg) (s : State) : Result := amos 9 w d a b s

/-- `amosFaddD` (R114). -/
def execAmosFaddD (w : Bool) (d a b : Reg) (s : State) : Result := amos 10 w d a b s

/-- `amosFaddW` (R114). -/
def execAmosFaddW (w : Bool) (d a b : Reg) (s : State) : Result := amos 11 w d a b s

/-- `amosFaddH` (R114). -/
def execAmosFaddH (w : Bool) (d a b : Reg) (s : State) : Result := amos 12 w d a b s

/-- `amosBfadd` (R114). -/
def execAmosBfadd (w : Bool) (d a b : Reg) (s : State) : Result := amos 13 w d a b s

/-! ## Fences (R115, R116) -/

/-- A fence issues, and holds later memory words of its context until its condition is met (R115). -/
def fence (scope : BitVec 2) (s : State) : Result :=
  settle (check { srcs := [] } plain s)
    (fun s =>
      let (i, s) := takeId s
      retire (modCtx s (me s) fun c => { c with duties := c.duties ++ [.fence scope i s.cur.pc] })) s

/-- `fence.core` (R115). -/
def execFenceCore (s : State) : Result := fence 0 s

/-- `fence.die` (R115). -/
def execFenceDie (s : State) : Result := fence 1 s

/-- `fence.pkg` (R115). -/
def execFencePkg (s : State) : Result := fence 2 s

/-- `fence.dom` (R115). -/
def execFenceDom (s : State) : Result := fence 3 s

end Sys2Proof.Machine
end

