-- ==== Sys2Proof/Machine/Fetch.lean ====
section
/-! DEFINITION. Fetching and decoding the word that issues (R50, R56, R57, R59, R94, R100). -/

namespace Sys2Proof.Machine

/-- The four bytes of a word at a place, in a memory. -/
def wordIn (m : Memory) (a : Nat) : W32 := BitVec.ofNat 32 (leNat (memBytes m a 4))

/-- The image that a context's node was launched with (R100). -/
def imageOf (s : State) (n : Option NodeRef) : Memory :=
  match n with
  | none => s.mem
  | some n => match s.images.find? fun i => i.launch == n.launch with
    | some i => i.mem
    | none => s.mem

/-- The word at a place, read through its page. In HBM it is that of the launch's image or a later store's, which the manual leaves
open (R100; log entries 3 and 35). Behind a home window it is the one that stands there: no image is kept of scratchpads (log entry
35). What a peer or the host holds is outside the machine: a free value (log entry 3), but for a place that names this very device
(R355). -/
def fetchWord (s : State) (n : Option NodeRef) (l : Loc) (p : Page) : W32 × State :=
  match ownPlace s (pageSlot s p) l false with
  | .ok (.hbm a) =>
    let old := wordIn (imageOf s n) a
    let new : W32 := BitVec.ofNat 32 (leNat (hbmBytes s p.key a 4))
    if old = new || !keyed s p.key a 4 then (new, s)
    else
      let (f, s) := takeFree s
      (if f.getLsbD 0 then new else old, s)
  | .ok (.window c o) => (BitVec.ofNat 32 (leNat (readHome s (.window c o) 4 0 p)), s)
  | _ =>
    let (f, s) := takeFree s
    (f.setWidth 32, s)

/-- The fetch of a word at `pc` for a core and tenant: the word, or why it cannot be had (R100). -/
def fetch (s : State) (core : Nat) (v : BitVec 16) (n : Option NodeRef) (pc : Word) : Except Verdict W32 × State :=
  if !canonical pc then (.error (.trap .prot pc), s)
  else match pageEntry (getCore s core) v pc with
    | none => (.error (.walk pc false true), s)
    | some p =>
      if !p.ex then (.error (.trap .prot pc), s)
      else
        let (w, s) := fetchWord s n (p.loc pc) p
        (.ok w, s)

/-- Words that only a sequencer executes, and the two predicates that only travel in a stream (R59). -/
def streamOnly (op : Nat) : Bool := decide (0x68 ≤ op) && decide (op ≤ 0x6F)

/-- Words that are ILLOP at a sequencer (R59). -/
def barrelOnly (w : W32) : Bool :=
  (decide (0x60 ≤ opOf w) && decide (opOf w ≤ 0x63)) || (opOf w == 0x74 && f3Of w == 2) || (opOf w == 0x7F && !w.getLsbD 21)

/-- A word ready to execute, or a step already taken. -/
inductive Prepared where
  | run (i : Instr) (s : State)
  | stop (r : Result)

/-- The next word to issue is fetched, if it has not been, and decoded; a pending POISON or RLINK comes first (R56, R94). A
repetition whose fields have all become zero is an `add` still: its target was checked (R63). -/
def prepare (i : Issue) (s : State) : Prepared :=
  let s := { s with cur := i }
  match i.lane with
  | .decide _ => .stop (.next s)
  | .sequencer _ =>
    match decode (i.word.getD 0) with
    | some x => .run x s
    | none => .stop (.next s)
  | .barrel core slot _ | .stream _ _ core slot =>
    match getCtx s (ctxId core slot) with
    | none => .stop (.next s)
    | some c =>
      match c.pend with
      | (cause, tval) :: rest =>
        let s' := if i.probe then s else setCtx s (ctxId core slot) { c with pend := rest }
        .stop (settle (.trap (if cause = 12 then .poison else if cause = 9 then .pfault else .rlink) tval) id s')
      | [] =>
        let (w, s) := match i.word with
          | some w => (Except.ok w, s)
          | none => fetch s core c.vmid c.node i.pc
        match w with
        | .error v => .stop (settle v id s)
        | .ok w =>
          let s := { s with cur := { i with word := some w } }
          match (if i.rep.isSome && w == 0 then some (.add false 0 0 0) else decode w) with
          | none => .stop (settle (.trap .illop (w.setWidth 64)) id s)
          | some x =>
            match i.lane with
            | .barrel .. => if streamOnly (opOf w) then .stop (settle (.trap .illop (w.setWidth 64)) id s) else .run x s
            | _ => .run x s

end Sys2Proof.Machine
end

