-- ==== Sys2Proof/Machine/Control.lean ====
section
/-! DEFINITION. Branches and jumps, in a barrel context and in a row stream (R101 to R103), and the repeat prefix (R60 to R65). -/

namespace Sys2Proof.Machine

/-- The current word goes on at `t` (R101, R102). In a row stream the order of words is the sequencer's: a target beyond the next word
makes the core skip the range between, and any other has no effect (R103). -/
def goTo (t : Word) (s : State) : State :=
  match s.cur.lane with
  | .stream .. =>
    let p := s.cur.pc
    let s := retire s
    if (p + 4).toNat < t.toNat then modCtx s (me s) fun c => { c with skip := some (p + 4, t) } else s
  | _ => modCtx s (me s) fun c => { c with pc := t, popped := none, cover := none, portTrap := none }

/-- A conditional branch (R101). -/
def branch (cond : Word → Word → Bool) (i : BitVec 11) (a b : Reg) (s : State) : Result :=
  settle (check { srcs := [a, b] } plain s)
    (fun s => if cond (src s a) (src s b) then goTo (s.cur.pc + off11 i) s else retire s) s

/-- `beq` (R101). -/
def execBeq (i : BitVec 11) (a b : Reg) (s : State) : Result := branch (fun x y => x == y) i a b s

/-- `bne` (R101). -/
def execBne (i : BitVec 11) (a b : Reg) (s : State) : Result := branch (fun x y => x != y) i a b s

/-- `blt` (R101). -/
def execBlt (i : BitVec 11) (a b : Reg) (s : State) : Result := branch (fun x y => decide (x.toInt < y.toInt)) i a b s

/-- `bge` (R101). -/
def execBge (i : BitVec 11) (a b : Reg) (s : State) : Result := branch (fun x y => decide (y.toInt ≤ x.toInt)) i a b s

/-- `bltu` (R101). -/
def execBltu (i : BitVec 11) (a b : Reg) (s : State) : Result := branch (fun x y => decide (x.toNat < y.toNat)) i a b s

/-- `bgeu` (R101). -/
def execBgeu (i : BitVec 11) (a b : Reg) (s : State) : Result := branch (fun x y => decide (y.toNat ≤ x.toNat)) i a b s

/-- A jump target must be a multiple of 4 (R50, R102). -/
def jumpOk (t : Word) : Verdict := if fld 0 2 t = 0 then .go else .trap .misalign t

/-- The link is written and the word goes on at `t` (R102). -/
def link (d : Reg) (t : Word) (s : State) : State := goTo t (writeReg s (me s) d (s.cur.pc + 4))

/-- `jal` (R102). -/
def execJal (i : BitVec 18) (d : Reg) (s : State) : Result :=
  settle (check { srcs := [], dst := some d } (fun s _ _ => jumpOk (s.cur.pc + off18 i)) s) (fun s => link d (s.cur.pc + off18 i) s) s

/-- `jalr` (R102): the base is read before the link is written. -/
def execJalr (i : BitVec 11) (d a : Reg) (s : State) : Result :=
  settle (check { srcs := [a], dst := some d } (fun s _ _ => jumpOk (src s a + sextImm i)) s)
    (fun s => link d (src s a + sextImm i) s) s

/-! ## The repeat prefix in a barrel context -/

/-- Where the run stands: resumed from `repc`, or started with the count (R63). -/
def repStart (ci : Bool) (n : Reg) (c : Ctx) (s : State) : Nat × Nat :=
  if bit 63 c.repc then (fld 16 16 c.repc, fld 0 16 c.repc)
  else (0, if ci then n.toNat else fld 0 16 (src s n))

/-- The word after the prefix, as the context's fetch answers it, once for each repetition, so that a store to code may be seen between
two of them (R100; log entry 60). A PROT of that fetch names the word fetched in `tval` (R100) and, as every trap of a REP, the prefix in
`epc` (R63; log entry 60). -/
def repTarget (s : State) (c : Ctx) : Except Verdict W32 × State :=
  fetch s (coreOf (me s)) c.vmid c.node (s.cur.pc + 4)

/-- The checks of the target, once it is known (R62, R63): R56 step 1 includes the rules on bound registers (R244). -/
def repChecks (r : Rep) (t : W32) (k : Core) (c : Ctx) (i left : Nat) : Verdict :=
  if !repTargetOk r t || badPort (targetUse t) k c then .trap .illop (t.setWidth 64)
  else if repBeyond r t c.size i left then .trap .allot (t.setWidth 64)
  else .go

/-- A prefix (R63): the count register is checked and read only when no interrupted run resumes; while it is empty the context parks, as
for any format without a W bit (R14, R71; log entry 60); a count of 0 consumes both words; otherwise the next repetition issues in the same
turn, as an ordinary issue of its word (R65), whose traps have the strided word for `tval` where they name the word (log entry 60). -/
def repPrefix (os ci : Bool) (sc sb sa : BitVec 2) (n : Reg) (s : State) : Result :=
  match curCtx s with
  | none => .fault .noIssuer
  | some c =>
    let r : Rep := { sa := sa, sb := sb, sc := sc, os := os }
    let own := fun (s : State) (k : Core) (c : Ctx) =>
      let (i, left) := repStart ci n c s
      if left = 0 then Verdict.go
      else match (repTarget s c).1 with
        | .error v => v
        | .ok t => repChecks r t k c i left
    let use : Use := if ci || bit 63 c.repc then { srcs := [] } else { srcs := [n] }
    settle (check use own s) (fun s =>
      let (i, left) := repStart ci n c s
      if left = 0 then modCtx s (me s) fun c => { c with repc := 0, pc := s.cur.pc + 8 }
      else match repTarget s c with
        | (.ok t, s) =>
          let run : RepRun := { p := s.cur.pc, i := i, left := left, off := repOffset r t i }
          let next : Issue := { s.cur with word := some (repWord r t i), rep := some run }
          { s with issuing := next :: s.issuing }
        | (.error _, s) => s) s

/-- `rep` (R60 to R65). -/
def execRep (c : Bool) (x y z : BitVec 2) (n : Reg) (s : State) : Result := repPrefix false c x y z n s

/-- `rep.os` (R60 to R65). -/
def execRepOs (c : Bool) (x y z : BitVec 2) (n : Reg) (s : State) : Result := repPrefix true c x y z n s

end Sys2Proof.Machine
end

