-- ==== Sys2Proof/Machine/Marks.lean ====
section
/-! DEFINITION. Trail fields and mark words, and the mark instructions and `tick` (R146 to R151, R158 to R161). -/

namespace Sys2Proof.Machine

/-! ## Mark words (R149 to R151) -/

/-- Ticks by which a stamp is behind a count (R149). -/
def markDue (stamp t : BitVec 16) : Nat :=
  let d := (t - stamp).toNat
  if 32768 ≤ d then 0 else d

/-- One fading step for each tick (R150). -/
def fade (n : Nat) (v : Nat) : Nat → Nat
  | 0 => v
  | d + 1 => fade n (v * (16 - n) / 16) d

/-- The faded value of a raw mark word at a count (R150). -/
def faded (n : Nat) (t : BitVec 16) (w : BitVec 32) : Nat :=
  fade n (w.extractLsb' 0 16).toNat (min (markDue (w.extractLsb' 16 16) t) 256)

/-- A mark word (R149). -/
def markWord (t : BitVec 16) (v : Nat) : BitVec 32 := t ++ BitVec.ofNat 16 v

/-- What a deposit stores (R159). -/
def deposited (max_ : Bool) (n : Nat) (t : BitVec 16) (w : BitVec 32) (b : BitVec 16) : BitVec 32 :=
  let u := faded n t w
  markWord t (if max_ then max u b.toNat else min (u + b.toNat) 65535)

/-- The strongest unmasked word of a line, the first among equals: index and value (R159). -/
def strongest (n : Nat) (t : BitVec 16) (mask : BitVec 16) (ws : List (BitVec 32)) : Option (Nat × Nat) :=
  (ws.zip (List.range 16)).foldl (fun best (w, i) =>
    if mask.getLsbD i then best
    else
      let u := faded n t w
      match best with
      | some (_, v) => if v < u then some (i, u) else best
      | none => some (i, u)) none

/-- The result of `sense` (R144, R159). -/
def senseWord : Option (Nat × Nat) → Word
  | none => allOnes 64
  | some (i, v) => word (i * 65536 + v)

/-! ## Fields (R146 to R148) -/

def getField (s : State) (t f : Nat) : Field := amGetD {} (getTenant s t).fields f
def modField (s : State) (t f : Nat) (g : Field → Field) : State :=
  modTenant s t fun x => { x with fields := amSet x.fields f (g (amGetD {} x.fields f)) }

/-- The field's count at a slice *d*·64 + slice (R153). -/
def Field.at_ (f : Field) (slice : Nat) : BitVec 16 := amGetD f.tick f.slices slice

/-- Bytes of the field's region (R146). -/
def Field.bytes (f : Field) : Nat := 16384 * (f.pages.toNat + 1)

/-- The field takes mark operations and ticks. One whose disable has been written takes no new one, as R166 allows (log entry 12). -/
def Field.open_ (f : Field) : Bool := f.en && !f.disabling

/-- R148. -/
def markPage (s : State) (c : Ctx) (p : Page) (va : Word) : Bool :=
  match p.trail with
  | none => false
  | some i =>
    let f := getField s c.tslot i.toNat
    f.open_ && (p.home = .cached || p.home = .slice) && (match p.out with | .hbm _ => true | _ => false) &&
      decide (f.base.toNat ≤ va.toNat) && decide (va.toNat < f.base.toNat + f.bytes)

/-- R158. -/
def markVerdict (va : Word) (n : Nat) (wr : Bool) (s : State) (k : Core) (c : Ctx) : Verdict :=
  match globalCheck k c va n true wr with
  | .error v => v
  | .ok p => if markPage s c p va then .go else .trap .tfield va

/-- The field of the page at an address. -/
def fieldAt (s : State) (va : Word) : BitVec 6 :=
  match curCtx s with
  | none => 0
  | some c => ((pageEntry (my s) c.vmid va).bind (·.trail)).getD 0

/-! ## Deposits -/

/-- A deposit (R141, R158, R159). -/
def deposit (max_ : Bool) (cls : Class) (w : Bool) (a b : Reg) (s : State) : Result :=
  settle (check { srcs := [a, b], w := w, mem := true } (fun s k c => markVerdict (src s a) 4 true s k c) s)
    (fun s => sendClass cls (.dep max_ (fieldAt s (src s a)) ((src s b).setWidth 16)) 4 (src s a) 0 s) s

/-- `dep.add` (R159). -/
def execDepAdd (w : Bool) (a b : Reg) (s : State) : Result := deposit false .pl w a b s

/-- `dep.max` (R159). -/
def execDepMax (w : Bool) (a b : Reg) (s : State) : Result := deposit true .pl w a b s

/-- `dep.add.rel` (R159). -/
def execDepAddRel (w : Bool) (a b : Reg) (s : State) : Result := deposit false .rel w a b s

/-- `dep.max.rel` (R159). -/
def execDepMaxRel (w : Bool) (a b : Reg) (s : State) : Result := deposit true .rel w a b s

/-! ## Reading marks -/

/-- A request of class `.pl` that only reads, served by the slice (R141). -/
def sendRead (op : ReqOp) (n : Nat) (va : Word) (d : Reg) (s : State) : State :=
  match curCtx s with
  | none => s
  | some c =>
    match pageEntry (my s) c.vmid va with
    | none => s
    | some p =>
      let r := request s c op va n p d (bufferedIds (my s) (p.loc va) n)
      retire (emptyReg { s with nextId := s.nextId + 1, reqs := s.reqs ++ [r] } (me s) d)

/-- `peek` (R159). -/
def execPeek (w : Bool) (d a : Reg) (s : State) : Result :=
  settle (check { srcs := [a], dst := some d, w := w, mem := true } (fun s k c => markVerdict (src s a) 4 false s k c) s)
    (fun s => sendRead (.peek (fieldAt s (src s a))) 4 (src s a) d s) s

/-- `sense` (R159). -/
def execSense (w : Bool) (d a b : Reg) (s : State) : Result :=
  settle (check { srcs := [a, b], dst := some d, w := w, mem := true } (fun s k c => markVerdict (src s a) 64 false s k c) s)
    (fun s => sendRead (.sense (fieldAt s (src s a)) ((src s b).setWidth 16)) 64 (src s a) d s) s

end Sys2Proof.Machine
end

