-- ==== Sys2Proof/Machine/Schedule.lean ====
section
/-! DEFINITION. What comes next: queued words, due events, the rotation of a barrel (R169 to R172), the beats of a row stream (R198
to R211), and how a word is placed to be issued. -/

namespace Sys2Proof.Machine

/-! ## The order of steps -/

inductive NextUp where
  | issue (i : Issue) (s : State)
  | decide (seg : Nat) (s : State)
  | event (x : Instr) (s : State)
  | idle (s : State)

/-- Events that act while the package is frozen (R367): the debug port's own, and frames, which the port then drops. -/
def actsFrozen (x : Instr) : Bool :=
  match x with
  | .debugFreeze | .debugThaw | .debugWindowAccess | .frameArrive => true
  | _ => false

/-- The next thing to do, taken off its list. An entry of the agenda that is a word of a program is dropped: words issue only at
turns and beats (log entry 6). -/
def nextUp (s : State) : NextUp :=
  if s.fw.inReset then
    -- both firmware images failed: only another power-on acts (R350)
    match s.agenda with
    | d :: rest =>
      let s' := { s with agenda := rest, arg := d.arg }
      if d.ev = .powerOn then .event d.ev s' else .idle s'
    | [] => .idle s
  else match s.issuing with
  | i :: rest =>
    match i.lane with
    | .decide g => .decide g { s with issuing := rest }
    | _ => .issue i { s with issuing := rest }
  | [] =>
    match s.agenda with
    | d :: rest =>
      let t := if s.frozen then s.time else s.time + word d.dt
      let s' := { s with agenda := rest, arg := d.arg, time := t }
      if (encode d.ev).isSome || (s.frozen && !actsFrozen d.ev) then .idle s' else .event d.ev s'
    | [] => if s.frozen then .idle s else .event .barrelCycle { s with arg := { unit := s.idleCore } }

/-! ## The barrel -/

/-- A slot that may be tried at a turn (R171, R121, R79): not one freed in this rotation, whoever holds it now, nor one that its own
last turn found benched (R174). -/
def mayTry (k : Core) (slot : Nat) : Bool :=
  match amGet k.ctxs slot with
  | some c => c.status == .ready && !c.benched && !c.stopped && !c.stream && !c.saving && c.yields != 2 &&
      !k.rot.issued.contains slot && !k.rot.gone.contains slot
  | none => false

/-- Slots allocated to barrel contexts, in ascending order (R170). -/
def allocated (k : Core) : List Nat := (k.ctxs.filter fun e => !e.2.stream).map (·.1)

/-- A new rotation: its slots are fixed, and a `yield` of the one before holds for this one only (R121, R170). -/
def newRotation (k : Core) : Core :=
  let k := { k with ctxs := k.ctxs.map fun (e : Nat × Ctx) => (e.1, { e.2 with yields := if e.2.yields = 1 then 2 else 0 }) }
  { k with rot := { order := allocated k, turn := 0, issued := [] } }

/-- The core issues nothing: stopped, without a physical core, or in retention (R314, R321). -/
def coreStopped (s : State) (core : Nat) : Bool := !coreExists s core || (getRow s (rowOf core)).point == 0

/-- One turn of the rotation (R171): the turn's slot, and after it the slots it may be lent to, are tried in order. -/
def barrelTurn (core : Nat) (s : State) : State :=
  if coreStopped s core then s
  else
    let k := getCore s core
    let k := if max k.rot.order.length 8 ≤ k.rot.turn || (k.rot.turn = 0 && k.rot.order = []) then newRotation k else k
    let j := k.rot.turn
    let k := { k with rot := { k.rot with turn := j + 1 } }
    let s := setCore s core k
    match k.rot.order[j]? with
    | none => s
    | some own =>
      match (if k.rot.gone.contains own then none else amGet k.ctxs own) with
      | none => s
      | some c =>
        -- benching and unbenching take effect here (R174)
        let k := { k with ctxs := amSet k.ctxs own { c with stopped := c.benched } }
        let s := setCore s core k
        if c.benched then s
        else
          let after := (k.rot.order.drop (j + 1) ++ k.rot.order.take j).filter (mayTry k)
          lend s core (if mayTry k own then own :: after else after)

/-- BARREL_CYCLE (R171): `unit` is the core. -/
def execBarrelCycle (s : State) : Result := .next (barrelTurn s.arg.unit s)

/-! ## The row stream -/

/-- The checks that a sequencer makes on a prefix, and the repetition it sends (R63, R199). -/
def planRep (g : Seg) (w t : W32) : Plan :=
  let r : Rep := { sa := bits 14 2 w, sb := bits 16 2 w, sc := bits 18 2 w, os := w.getLsbD 20 }
  let (i, left) := match g.repRun with
    | some x => x
    | none => (0, (bits 7 7 w).toNat)
  if left = 0 then { pc := g.pc + 8 }
  else if !repTargetOk r t then { pc := g.pc, fail := some (.illop, t.setWidth 64, g.pc) }
  else if repBeyond r t g.allot i left then { pc := g.pc, fail := some (.allot, t.setWidth 64, g.pc) }
  else
    let p : PipeWord :=
      { word := repWord r t i, pc := g.pc, rep := some { p := g.pc, i := i, left := left, off := repOffset r t i } }
    if left = 1 then { send := some p, pc := g.pc + 8 } else { send := some p, pc := g.pc, repRun := some (i + 1, left - 1) }

/-- What the sequencer does with the word at its PC (R199, R203, R211). -/
def planWord (s : State) (core : Nat) (g : Seg) (w : W32) : Except (Word × Nat) Plan × State :=
  let bad : Plan := { pc := g.pc, fail := some (.illop, w.setWidth 64, g.pc) }
  if (decode w).isNone || barrelOnly w then (.ok bad, s)
  else if opOf w = 0x7F then
    match fetch s core g.vmid g.node (g.pc + 4) with
    | (.ok t, s) => (.ok (planRep g w t), s)
    | (.error (.trap c v), s) =>
      -- a count of 0 does not look at its target (R63)
      if bits 7 7 w = 0 && g.repRun.isNone then (.ok { pc := g.pc + 8 }, s)
      else (.ok { pc := g.pc, fail := some (c, v, g.pc) }, s)
    | (.error _, s) =>
      if bits 7 7 w = 0 && g.repRun.isNone then (.ok { pc := g.pc + 8 }, s) else (.error (g.pc + 4, core), s)
  else if opOf w = 0x6E then
    (.ok { send := some { word := w, pc := g.pc, rep := none }, pc := g.pc + 4,
           rowWait := some (bits 7 4 w, f3Of w == 0, f3Of w != 0, g.span) }, s)
  else if streamOnly (opOf w) then (.ok { pc := g.pc, own := some w }, s)
  else (.ok { send := some { word := w, pc := g.pc, rep := none }, pc := g.pc + 4 }, s)

/-- What the sequencer does in this beat, or the address of a fetch that must wait (R199, R207). -/
def planBeat (s : State) (g : Seg) : Except (Word × Nat) Plan × State :=
  match g.phase with
  | .running =>
    if 0 < g.bubbles then (.ok { pc := g.pc, bubbles := g.bubbles - 1, again := g.again }, s)
    else match g.again with
    | w :: rest => (.ok { send := some w, pc := g.pc, repRun := g.repRun, again := rest }, s)
    | [] => match g.rowWait with
      | some (kd, any, acc, left) => (.ok { pc := g.pc, rowWait := some (kd, any, acc, left - 1) }, s)
      | none =>
        match g.cores.head? with
        | none => (.ok { pc := g.pc }, s)
        | some (_, core, _) =>
          match fetch s core g.vmid g.node g.pc with
          | (.ok w, s) => planWord s core g w
          | (.error (.trap c v), s) => (.ok { pc := g.pc, fail := some (c, v, g.pc) }, s)
          | (.error _, s) => (.error (g.pc, core), s)
  | _ =>
    match g.rowWait with
    | some (kd, any, acc, left) => (.ok { pc := g.pc, rowWait := some (kd, any, acc, left - 1) }, s)
    | none => (.ok { pc := g.pc }, s)

/-- The address of a word that travels east: that of the prefix's target for a repetition (R65, R103; log entry 59). -/
def PipeWord.addr (w : PipeWord) : Word := if w.rep.isSome then w.pc + 4 else w.pc

/-- A core in skip mode discards the word (R103). -/
def skips (c : Ctx) (a : Word) : Bool :=
  match c.skip with
  | some (lo, hi) => decide (lo.toNat ≤ a.toNat) && decide (a.toNat < hi.toNat)
  | none => false

/-- The words that reach the logical cores in a beat, without those that are skipped and those whose push has been made: position, core,
slot, word. -/
def beatWords (s : State) (g : Seg) (pipe : List (Option PipeWord)) : List (Nat × Nat × Nat × PipeWord) :=
  g.cores.filterMap fun (p, core, slot) =>
    match pipe[p]?, getCtx s (ctxId core slot) with
    | some (some w), some c => if p < w.first || c.early || skips c w.addr then none else some (p, core, slot, w)
    | _, _ => none

/-- The pipe with this beat's word in. -/
def shifted (g : Seg) (send : Option PipeWord) : List (Option PipeWord) := (send :: g.pipe).take g.span

def laneIssue (seg : Nat) (probe : Bool) (x : Nat × Nat × Nat × PipeWord) : Issue :=
  { lane := .stream seg x.1 x.2.1 x.2.2.1, probe := probe, word := some x.2.2.2.word, pc := x.2.2.2.pc, rep := x.2.2.2.rep }

/-- A fence of the context is not met (R115). -/
def fencing (c : Ctx) : Bool := c.duties.any fun d => match d with | .fence .. => true | _ => false

/-- A context of the segment waits for an answer or for a fence it has issued, which holds every core (R207, R208). -/
def segWaits (s : State) (g : Seg) : Bool :=
  g.cores.any fun (_, core, slot) => match getCtx s (ctxId core slot) with
    | some c => (match c.status with | .held _ => true | .parked (.page _) => true | _ => false) || fencing c || c.benched || c.saving
    | none => false

/-- A beat begins: the sequencer's action is settled and every core's word is tried (R198, R206). -/
def beginBeat (seg : Nat) (s : State) : State :=
  match getSeg s seg with
  | none => s
  | some g =>
    if g.phase = .held || segWaits s g || g.walk.isSome || g.cores.any (fun x => coreStopped s x.2.1) then s
    else if 0 < g.hold then setSeg s seg { g with hold := g.hold - 1 }
    else match planBeat s g with
      | (.error (va, core), s) =>
        let (i, s) := takeId s
        let w : Walk := { id := i, core := core, vmid := g.vmid, va := va, write := false, fetch := true, ctx := none, seg := some seg,
                          pc := g.pc }
        setSeg { s with walks := s.walks ++ [w] } seg { g with walk := some i }
      | (.ok plan, s) =>
        let s := setSeg s seg { g with plan := some plan, probes := [] }
        let tries := (beatWords s g (shifted g plan.send)).map (laneIssue seg true)
        { s with issuing := tries ++ [{ Issue.none with lane := .decide seg }] ++ s.issuing }

/-- STREAM_BEAT (R198): `unit` is the segment. -/
def execStreamBeat (s : State) : Result := .next (beginBeat s.arg.unit s)

/-- The probe that holds the beat is acted on: a page is asked for, a pop is sent (R207). -/
def holdBeat (seg : Nat) (g : Seg) (s : State) : State :=
  g.probes.foldl (fun s (p, v) =>
    match g.cores.find? fun x => x.1 == p with
    | none => s
    | some (_, core, slot) =>
      let cid := ctxId core slot
      match v with
      | .walk va wr f =>
        let (i, s) := askWalk s cid (some seg) va wr f
          (match (shifted g (g.plan.bind (·.send)))[p]? with | some (some w) => w.pc | _ => 0)
        modCtx s cid fun c => { c with status := .parked (.page i) }
      | .pop r w dst =>
        match (shifted g (g.plan.bind (·.send)))[p]? with
        | some (some x) => sendPop s cid r w dst x.pc x.rep
        | _ => s
      | .park w => noteCover s cid w
      | _ => s) s

/-- The beat is carried out: the words move, each core executes its own, and the sequencer its (R198, R203). -/
def runBeat (seg : Nat) (g : Seg) (plan : Plan) (s : State) : State :=
  let pipe := shifted g plan.send
  let (k, wait) := match plan.rowWait with
    | some (kd, _, acc, 0) => (if kd = 0 then g.k else amSet g.k kd.toNat (ofFlag acc), none)
    | w => (g.k, w)
  let g' := { g with pipe := pipe, beat := g.beat + 1, pc := plan.pc, bubbles := plan.bubbles, repRun := plan.repRun, again := plan.again,
                     rowWait := wait, k := k, plan := none, probes := [] }
  let words := beatWords s g pipe
  -- skip mode ends at the first word outside its range (R103)
  let s := words.foldl (fun s x => modCtx s (ctxId x.2.1 x.2.2.1) fun c => { c with skip := none }) (setSeg s seg g')
  let s := (g.cores.filter fun x => match pipe[x.1]? with | some (some w) => w.first ≤ x.1 | _ => false).foldl
    (fun s x => modCtx s (ctxId x.2.1 x.2.2) fun c => { c with early := false }) s
  let own := match plan.own with
    | some w => [{ Issue.none with lane := .sequencer seg, word := some w, pc := plan.pc }]
    | none => []
  let s := { s with issuing := words.map (laneIssue seg false) ++ own ++ s.issuing }
  match plan.fail with
  | none => s
  | some (c, tval, pc) =>
    let s := modSeg s seg fun g => stopSeg g false
    let cid := match g.cores.head? with | some (_, core, slot) => ctxId core slot | none => 0
    let s := (report s (.tenant g.tslot) (nodeWords s g.tslot g.node
      { kind := .sequencer, cause := c, pc := pc, tval := tval, seg := some seg, who := word (g.beat % 65536 * 2 ^ 48 + cid) })).2
    failLaunch s g.tslot g.node 2 c true

/-- The words of a held beat that push are tried first, for the beat waits for their answers (R207). -/
def pushFirst (seg : Nat) (g : Seg) (plan : Plan) (s : State) : State :=
  let pushes := (beatWords s g (shifted g plan.send)).filter fun x => g.probes.contains (x.1, .goPush)
  let s := pushes.foldl (fun s x => modCtx s (ctxId x.2.1 x.2.2.1) fun c => { c with skip := none }) s
  { setSeg s seg { g with plan := none, probes := [] } with issuing := pushes.map (laneIssue seg false) ++ s.issuing }

/-- The answers are in: the beat is held, aborts its segment at the lowest trapping position, or is carried out (R206, R210). -/
def decideBeat (seg : Nat) (s : State) : State :=
  match getSeg s seg with
  | none => s
  | some g =>
    match g.plan with
    | none => s
    | some plan =>
      let holds := g.probes.any fun x => match x.2 with | .park _ | .walk .. | .pop .. => true | _ => false
      if holds then setSeg (holdBeat seg g s) seg { g with plan := none, probes := [] }
      else
        let traps := g.probes.filterMap fun (p, v) => match v with | .trap c t => some (p, c, t) | _ => none
        match traps with
        | [] => if g.probes.any fun x => x.2 == .goPush then pushFirst seg g plan s else runBeat seg g plan s
        | first :: rest =>
          let (p, c, t) := rest.foldl (fun a b => if b.1 < a.1 then b else a) first
          match g.cores.find? fun x => x.1 == p with
          | none => s
          | some (_, core, slot) =>
            let pc := match (shifted g plan.send)[p]? with | some (some w) => w.pc | _ => 0
            let s := modCtx s (ctxId core slot) fun c => { c with pend := [] }
            abortSeg s seg p (ctxId core slot) c t pc

/-! ## Placing a word -/

/-- A context as a thread of slot 0 starts, with the largest allotment. -/
def freshCtx : Ctx := { base := 0, size := 128, pc := 0x10000, vmid := 0, tslot := 0, node := none, prio := 0 }

/-- The page of an address, mapped to the HBM frame of the same address, with every right. -/
def directPage (va : Word) : Page :=
  { vmid := 0, va := baseOf 14 va, size := 16384, out := .hbm ((baseOf 14 va).toNat % 2 ^ 39), gpa := (baseOf 14 va).toNat % 2 ^ 39,
    rd := true, wr := true, ex := true, home := .cached, trail := none, key := 0 }

/-- Core 0 slot 0 holds a context whose next word is `w`, fetched at its PC through a page check entry; a word that only a stream
executes stands instead in segment 0, a row of four cores (log entry 5). -/
def placeWord (s : State) (nbits w : Nat) : State :=
  let w32 : W32 := if nbits ≤ 32 then BitVec.ofNat 32 w else 0
  let c := (getCtx s 0).getD freshCtx
  let page := ((getCore s 0).pcc.find? fun p => p.covers c.vmid c.pc && p.ex).getD { directPage c.pc with vmid := c.vmid }
  let s := setCtx s 0 { c with status := .ready }
  let s := modCore s 0 fun k => { k with pcc := page :: k.pcc.filter fun p => !(p.covers c.vmid c.pc) }
  let bytes := leBytes 4 w32.toNat
  let s := writeHome s (page.loc c.pc) bytes page
  let s := { s with images := s.images.map fun i => match page.loc c.pc with
    | .hbm a => { i with mem := memPut i.mem a bytes }
    | _ => i }
  if streamOnly (opOf w32) then
    let g : Seg := { tslot := 0, vmid := 0, node := none, die := 0, row := 0, index := 0, size := 4, span := 4, allot := 128, pc := c.pc,
                     cores := [(0, 0, 0)] }
    let s := setSeg s 0 ((getSeg s 0).getD g)
    let lane : Lane := if opOf w32 = 0x6E then .stream 0 0 0 0 else .sequencer 0
    { s with issuing := [{ lane := lane, probe := false, word := some w32, pc := c.pc, rep := none }] }
  else { s with issuing := [{ lane := .barrel 0 0 [], probe := false, word := none, pc := c.pc, rep := none }] }

end Sys2Proof.Machine
end

