-- ==== Sys2Proof/Machine/Home.lean ====
section
/-! DEFINITION. Performing an access at its home unit (R111, R129 to R132, R137, R370), and how a held context goes on. -/

namespace Sys2Proof.Machine

/-! ## Order at the home (R130, R137) -/

/-- Lines that an access of `n` bytes touches. -/
def linesOf (l : Loc) (n : Nat) : List Loc :=
  match l with
  | .hbm a => (List.range ((a + n + 63) / 64 - a / 64)).map fun i => .hbm (a / 64 + i)
  | .window c o => (List.range ((o + n + 63) / 64 - o / 64)).map fun i => .window c (o / 64 + i)
  | .remote d o => (List.range ((o + n + 63) / 64 - o / 64)).map fun i => .remote d (o / 64 + i)
  | .host a => (List.range ((a + n + 63) / 64 - a / 64)).map fun i => .host (a / 64 + i)
  | .reg a => (List.range ((a + n + 63) / 64 - a / 64)).map fun i => .reg (a / 64 + i)

/-- A performed claim on a line holds an access (R92, R137): every other party's; and of the engine's own commands those that come after
the claim's, for an engine waits on no claim of its own later ones. A command that claims the line too comes before the claims performed
after its own. Claims stand in the order in which they were performed. `by_` is the engine and the command that access. -/
def claimHolds (s : State) (by_ : Option (Nat × Nat)) (x : Loc) : Bool :=
  let cs := s.claims.filter fun c => c.performed && c.lines.contains x
  match by_ with
  | none => !cs.isEmpty
  | some (e, i) => (cs.takeWhile fun c => c.cmd != i).any fun c => c.engine != e || decide (c.cmd < i)

/-- An engine's claim on a line holds the access. -/
def claimed (s : State) (l : Loc) (n : Nat) (by_ : Option (Nat × Nat)) : Bool := (linesOf l n).any (claimHolds s by_)

/-- The stores of a request list that a die has drained and that overlap an access: they are performed first (R17, R130). -/
def drainedOver (rs : List Req) (die : Nat) (l : Loc) (n : Nat) : Bool :=
  rs.any fun r => dieOf (coreOf r.ctx) == die && r.loc.meets r.size l n && (match r.op with | .store _ => true | _ => false)

/-- The die that serves a place for a party that is no context: that of its frame, or of its core. -/
def dieOfLoc (l : Loc) : Nat :=
  match l with
  | .hbm a => a / 2 ^ 38 % 2
  | .window c _ => dieOf c
  | _ => 0

/-- An access by a party of `die` may be performed at its home now. -/
def homeReady (s : State) (die : Nat) (l : Loc) (n : Nat) (by_ : Option (Nat × Nat)) : Bool :=
  !drainedOver s.reqs die l n && !claimed s l n by_

/-- A load of a party of the die has been overtaken by a younger one of its context: until it is performed, nothing of its die writes its
bytes, so that the die sees the two in program order (R130, R131). -/
def overtakenOver (s : State) (die : Nat) (l : Loc) (n : Nat) : Bool :=
  s.reqs.any fun r => r.overtaken && !r.done && dieOf (coreOf r.ctx) == die && r.loc.meets r.size l n

/-- The place names this very device as a peer, and its stage 2 did not give another (R354). -/
def unplacedHere (s : State) (l : Loc) : Bool := match l with | .remote d _ => d == s.dev.toNat | _ => false

/-- An access through a page by a party of `die` may be performed now: its home is ready for it, no channel holds it (R344), and a write
passes no overtaken load; that of an engine has passed them with its claim (R137). -/
def mayAccess (s : State) (die : Nat) (l : Loc) (p : Page) (n : Nat) (by_ : Option (Nat × Nat)) (writes : Bool) : Bool :=
  homeReady s die l n by_ && channelFree s die l p n && !(writes && by_.isNone && overtakenOver s die l n) && !unplacedHere s l

/-- Where an address of a page is served: its place, or the frame that this device's own stage 2 gives for an address of its own number
(R355). -/
def homePlace (s : State) (p : Page) (a : Word) (write : Bool) : Loc :=
  match ownPlace s (pageSlot s p) (p.loc a) write with
  | .ok l => l
  | .error _ => p.loc a

/-- An access that its channel holds is counted for the tenant, one cycle for each try (R343; log entry 54). -/
def countHold (s : State) (die : Nat) (l : Loc) (p : Page) (n : Nat) : State :=
  match channelUse s die l p n with
  | none => s
  | some (ch, _) => if tokensFree s (pageSlot s p) ch then s else countEvent s (pageSlot s p) 7 ch 1

/-- Granules that lie wholly in a write lose their poison (R313; log entry 9). -/
def unpoison (s : State) (l : Loc) (n : Nat) : State :=
  match l with
  | .hbm a => { s with poisoned := s.poisoned.filter fun g => !(decide (a ≤ g * 4) && decide (g * 4 + 4 ≤ a + n)) }
  | .window c o => modCore s c fun k =>
    let lo := windowBase k + o
    { k with spPoison := k.spPoison.filter fun g => !(decide (lo ≤ g * 4) && decide (g * 4 + 4 ≤ lo + n)) }
  | _ => s

/-! ## Held contexts go on -/

/-- The segment that a context streams for, and its position. -/
def segOf (s : State) (cid : Nat) : Option (Nat × Nat) :=
  s.segs.findSome? fun e => (e.2.cores.find? fun x => x.2.1 == coreOf cid && x.2.2 == slotOf cid).map fun x => (e.1, x.1)

/-- Every context of a core changed, by slot. -/
def mapCtxs (k : Core) (f : Nat → Ctx → Ctx) : Core := { k with ctxs := k.ctxs.map fun e => (e.1, f e.1 e.2) }

/-- Parks that any event may end are tried again; a page park ends with its walk (R172). -/
def rewake (s : State) (core : Nat) : State :=
  modCore s core fun k => mapCtxs k fun _ c =>
    match c.status with
    | .parked (.page _) => c
    | .parked _ => { c with status := .ready }
    | _ => c

/-- A held context is READY again (R172). -/
def wake (s : State) (cid : Nat) : State := modCtx s cid fun c => { c with status := .ready }

/-- The word that holds a context traps: a barrel context enters its handler at that word, a segment aborts (R117, R210). -/
def trapHeld (s : State) (cid : Nat) (c : Cause) (tval : Word) : State :=
  match getCtx s cid with
  | none => s
  | some x =>
    match segOf s cid with
    | some (g, p) => abortSeg (setCtx s cid { x with status := .ready, early := false }) g p cid c tval x.heldPc
    | none => takeTrap (setCtx s cid { x with status := .ready, repc := x.heldRepc }) cid c tval x.heldPc

/-- The word that holds a context is withdrawn: it has had no effect and issues again (R127, R247). -/
def withdraw (s : State) (cid : Nat) : State :=
  modCtx s cid fun c => { c with status := .ready, repc := c.heldRepc, pc := c.heldPc, early := false }

/-- A POISON or RLINK that comes before the context's next word (R94). -/
def pendTrap (s : State) (cid : Nat) (cause : Cause) (va : Word) : State :=
  modCtx s cid fun c => { c with pend := c.pend ++ [(BitVec.ofNat 8 cause.code, va)] }

/-! ## Dropped stores of a failed device (R359) -/

/-- Stands for a party that is no context, where one is named. -/
def noContext : Nat := 131072

/-- A store to a failed device is dropped: one record for each context and line, and remembered for `fence.dom`. -/
def dropStore (s : State) (t cid id : Nat) (va : Word) (l : Loc) : State :=
  let known := s.dropped.any fun d => d.ctx == cid && d.line == l.line && !d.old
  let s := { s with dropped := s.dropped ++ [{ ctx := cid, id := id, line := l.line }] }
  if known then s else (report s (.tenant t) { kind := .remote, cause := .rlink, wr := true, addr := va, who := word (cid % noContext) }).2

end Sys2Proof.Machine
end

