-- ==== Sys2Proof/Machine/Engine.lean ====
section
/-! DEFINITION. What the matrix and copy engines share: pages and lines in global memory, records of engines, scratchpad access, and the
waits for engine commands (R136 to R138, R189, R190, R260, R268, R269, R313). -/

namespace Sys2Proof.Machine

/-- A purse at or below zero benches the tenant's contexts (R334). -/
def purseEmpty (s : State) (t : Nat) : Bool := decide ((getTenant s t).purse.toInt ≤ 0)

/-! ## Global lines -/

/-- The page of a list that covers an address; one without rights where none does. -/
def pageIn (ps : List Page) (v : BitVec 16) (a : Word) : Page :=
  (ps.find? fun p => p.covers v a).getD
    { vmid := v, va := a, size := 0, out := .hbm 0, gpa := 0, rd := false, wr := false, ex := false, home := .core, trail := none, key := 0 }

/-- Bytes read at their home through a page; those outside the package are brought by `ext`. -/
def readWide (s : State) (l : Loc) (n : Nat) (ext : List Byte) (p : Page) : List Byte :=
  match l with
  | .hbm a => hbmBytes s p.key a n
  | .window c o => let k := getCore s c; spRead k (windowBase k + o) n
  | .reg o => regBytes s o n
  | _ => (List.range n).map fun i => ext.getD i 0

/-- The members of a list added to a set of numbers. -/
def addAll (s xs : List Nat) : List Nat := xs.foldl (fun ps x => if ps.contains x then ps else ps ++ [x]) s

/-- The lines of a global destination written poisoned (R260). What leaves the package carries its poison with it. -/
def poisonPlace (s : State) (l : Loc) (n : Nat) : State :=
  match l with
  | .hbm a => { s with poisoned := addAll s.poisoned ((lineNumbers a n).flatMap fun x => granules (x * 64) 64) }
  | .window c o => modCore s c fun k =>
    { k with spPoison := addAll k.spPoison ((lineNumbers o n).flatMap fun x => granules (windowBase k + x * 64) 64) }
  | _ => s

/-- A record of an engine (R260, R301): `chan` is the bank or channel. -/
def engineReport (s : State) (t core chan : Nat) (node : Option NodeRef) (cause : Cause) (wr : Bool) (va : Word) : State :=
  let r : Report := { kind := .engine, cause := cause, wr := wr, addr := va, who := word (chan * 65536 + core) }
  (report s (.tenant t) (nodeWords s t node r)).2

/-- Bytes that an engine writes at their home; those for a failed device are dropped with a record (R137, R359). The bytes of a line that
the command has written poisoned stay so (R260). -/
def engineWrite (s : State) (die t cid cmd : Nat) (p : Page) (va : Word) (bs : List Byte) (bad : Bool) : State :=
  let l := homePlace s p va true
  if linkDown s l then dropStore s t cid cmd va l
  else match l with
    | .remote .. | .host _ =>
      let s := noteWrite s l bs.length
      { s with out := s.out ++ [.write l bs.length (word (leNat bs)) p.vmid bad] }
    | _ =>
      let s := writeHome (touch s die l p .write bs.length) l bs p
      if bad then poisonPlace s l bs.length else unpoison s l bs.length

/-- A claim without the line of a place, once its last bytes are written (R137). -/
def unclaimLine (s : State) (cmd : Nat) (l : Loc) : State :=
  { s with claims := updWhere (fun c => c.cmd == cmd) (fun c => { c with lines := c.lines.filter (· != l.line) }) s.claims }

/-- A command's claim ends with it. -/
def dropClaim (s : State) (cmd : Nat) : State :=
  { s with claims := s.claims.filter fun c => c.cmd != cmd,
           cores := s.cores.map fun e => (e.1, { e.2 with sbuf := e.2.sbuf.filter fun x => x.op != .claim cmd }) }

/-- The matrix engine and the copy engine of a core, as parties that claim lines, and the loader of a stack (R137, R283). -/
def matrixEngine (core : Nat) : Nat := 2 * core
def copyEngine (core : Nat) : Nat := 2 * core + 1
def loaderEngine (stack : Nat) : Nat := 4096 + stack

/-- A load, atomic or mark operation that the context made before a command is not performed (R130, R136). -/
def accessBefore (s : State) (cid cmd : Nat) : Bool :=
  s.reqs.any fun r => r.ctx == cid && decide (r.id < cmd) && !r.done && (match r.op with | .store _ => false | _ => true)

/-- A place may be read by an engine for a command of a context, which reads it as an access made after the command: no earlier access
of the context, no other party's store, and no claim of an earlier command, of its context or performed, comes first (R136, R137). -/
def engineReady (s : State) (core : Nat) (p : Page) (l : Loc) (n cid engine cmd : Nat) : Bool :=
  mayAccess s (dieOf core) l p n (some (engine, cmd)) false && !accessBefore s cid cmd &&
  !((getCore s core).sbuf.any fun e => e.ctx == cid && (match e.op with
    | .claim i => decide (i < cmd) && s.claims.any fun c => c.cmd == i && (linesOf l n).any fun x => c.lines.contains x
    | _ => false))

/-- The command's claim is performed (R137). -/
def claimDone (s : State) (cmd : Nat) : Bool := s.claims.any fun c => c.cmd == cmd && c.performed

/-- A command claims its destination lines at issue: the claim stands in the store buffer in order (R137). -/
def claimLines (s : State) (engine cmd cid : Nat) (p : Page) (va : Word) (ls : List Loc) : State :=
  let e : SbEntry := { id := cmd, ctx := cid, op := .claim cmd, va := va, size := 0, loc := p.loc va, page := p, rel := none }
  let s := { s with claims := s.claims ++ [{ cmd := cmd, engine := engine, lines := ls.map Loc.line, performed := false }] }
  modCore s (coreOf cid) fun k => { k with sbuf := k.sbuf ++ [e] }

/-! ## Scratchpad -/

/-- Scratchpad bytes as an engine reads them: poisoned granules as zero, and whether there were any (R260, R313). -/
def engineSp (k : Core) (a n : Nat) : List Byte × Bool :=
  ((List.range n).map fun i => if k.spPoison.contains ((a + i) / 4) then 0 else memGet k.sp (a + i), spPoisoned k a n)

/-! ## Waits (R138) -/

/-- Distance on the circle of batch ids (R190). -/
def batchDist (u v : BitVec 32) : Nat := (((u.toNat : Int) - v.toNat).emod (2 ^ 32 - 1)).toNat

/-- The id after an id (R190). -/
def nextBatch (b : BitVec 32) : BitVec 32 := if b = allOnes 32 then 1 else b + 1

/-- Batch `x` has completed (R190). -/
def batchDone (c : Ctx) (x : BitVec 32) : Bool := x == 0 || (c.completed != 0 && decide (batchDist c.completed x < 2 ^ 31))

/-- The condition of `cwait` on what the channel holds now (R269). -/
def cwaitDone (k : Core) (ch : Nat) (x : Word) : Bool :=
  match amGet k.chans ch with
  | none => true
  | some c =>
    match c.kind with
    | .copy => c.dstSp && decide (x.toNat ≤ amGetD 0 k.cwp ch)
    | .sub _ => decide ((x.extractLsb' 0 32).toNat < c.landed)

/-- No copy command of the context is uncompleted (R268). -/
def copiesDone (k : Core) (cid : Nat) : Bool := !(k.chans.any fun e => e.2.ctx == some cid)

/-- The wait that holds a context has ended. -/
def waitOver (k : Core) (cid : Nat) (c : Ctx) : Bool :=
  match c.status with
  | .held (.mwait x) => batchDone c x
  | .held .cfence => copiesDone k cid
  | .held (.cwait ch x) => cwaitDone k ch x
  | _ => false

/-- Contexts whose engine wait has ended go on, and parked words are tried again (R138, R172). -/
def settleWaits (s : State) (core : Nat) : State :=
  rewake (modCore s core fun k => mapCtxs k fun slot c =>
    if waitOver k (ctxId core slot) c then { c with status := .ready } else c) core

end Sys2Proof.Machine
end

