-- ==== Sys2Proof/Machine/Place.lean ====
section
/-! DEFINITION. Contexts come and go: slots and register runs, arrivals and the overflow ring, quotas, groups, and the end of a context
(R66 to R69, R120, R123 to R127, R167, R168, R177 to R184, R296, R340). -/

namespace Sys2Proof.Machine

/-! ## Launches and nodes -/

def launchOf (s : State) (t : Nat) (n : Option NodeRef) : Option Launch :=
  n.bind fun n => (getTenant s t).launches.find? fun l => l.id == n.launch

def graphOf (s : State) (t : Nat) (l : Launch) : Option Graph := amGet (getTenant s t).graphs l.handle

/-- The registered record and header of a context's node. -/
def gnodeOf (s : State) (t : Nat) (n : Option NodeRef) : Option GNode :=
  match n, launchOf s t n with
  | some r, some l => (graphOf s t l).bind fun g => g.nodes[r.node]?
  | _, _ => none

/-- Word `i` of a node's record. -/
def GNode.word (g : GNode) (i : Nat) : Word := g.words.getD i 0

/-- KIND of a record: 0 ROW, 1 SWARM, 2 COPY (R271). -/
def GNode.kind (g : GNode) : Nat := fld 62 2 (g.word 0)

/-- A node of a launch changed. -/
def modNode (s : State) (t : Nat) (n : NodeRef) (f : LNode → LNode) : State :=
  modLaunch s t n.launch fun l => { l with nodes := l.nodes.mapIdx fun i x => if i = n.node then f x else x }

def nodeState (s : State) (t : Nat) (n : Option NodeRef) : Option LNode :=
  match n, launchOf s t n with
  | some r, some l => l.nodes[r.node]?
  | _, _ => none

/-- The node's quota count moves by `d` (R167). -/
def countNode (s : State) (t : Nat) (n : Option NodeRef) (up : Bool) : State :=
  match n with
  | none => s
  | some r => modNode s t r fun x => { x with live := if up then x.live + 1 else x.live - 1 }

/-- The launch priority of work on a core (R285, R290). -/
def launchPrio (s : State) (t : Nat) (n : Option NodeRef) : Nat := match launchOf s t n with | some l => l.prio.toNat | none => 0

/-! ## Slots and runs (R68) -/

/-- Bases of runs of `n` register file entries, lowest first. -/
def runBases (n : Nat) : List Nat := ((List.range 256).map (8 * ·)).filter fun b => decide (b + n ≤ 2048)

/-- The lowest free run of `n` entries. -/
def freeRun (k : Core) (n : Nat) : Option Nat :=
  (runBases n).find? fun b => !(k.ctxs.any fun e => overlaps b n e.2.base e.2.size)

/-- The lowest free slot of the tenant's grant. -/
def freeSlot (s : State) (t core : Nat) : Option Nat :=
  (List.range (grantOf s t core)).find? fun i => (amGet (getCore s core).ctxs i).isNone

/-- A row at retention rises before work placed on it starts (R321, R322). -/
def raiseRow (s : State) (core : Nat) : State :=
  if (getRow s (rowOf core)).point = 0 then modRow s (rowOf core) fun r => { r with point := 1 } else s

/-! ## Continuations (R69, R77, R296) -/

def Cont.header (c : Cont) : Word := c.words.getD 0 0
def Cont.allot (c : Cont) : Nat := 8 * (fld 53 4 c.header + 1)
def Cont.prio (c : Cont) : BitVec 5 := BitVec.ofNat 5 (min (fld 48 5 c.header) 23)
def Cont.pc (c : Cont) : Word := sext48 c.header &&& ~~~(3 : Word)

/-- The trap vector of a new context (R296): the handler's own header, or that of its node's entry, else the tenant's default. -/
def contTvec (s : State) (c : Cont) : Word :=
  let own := if c.tcause != 0 then c.tvec else (gnodeOf s c.tslot c.node).bind (·.kernel.tvec)
  own.getD (getTenant s c.tslot).faults.tdefvec &&& ~~~(3 : Word)

/-- The deadline class of a context's node (R327). -/
def contClass (s : State) (c : Cont) : BitVec 3 := match gnodeOf s c.tslot c.node with | some g => g.kernel.dclass | none => 0

/-- The home-window bytes of a node's kernel. -/
def nodeWin (s : State) (t : Nat) (n : Option NodeRef) : Nat := match gnodeOf s t n with | some g => g.kernel.winbytes | none => 0

/-- The window in force: the larger of the size that system software set and what the nodes on the core reserve (R177). -/
def refreshWin (s : State) (core : Nat) : State :=
  let k := getCore s core
  let need := (k.ctxs.map fun e => nodeWin s e.2.tslot e.2.node) ++ k.arrivals.map fun c => nodeWin s c.tslot c.node
  setCore s core { k with win := need.foldl max k.winSet }

/-- A new context in a slot and run: registers zero and full but for the preloads (R69). -/
def placeAt (s : State) (core slot base : Nat) (c : Cont) : State :=
  let n := c.allot
  let x : Ctx :=
    { base := base, size := n, pc := c.pc, vmid := c.vmid, tslot := c.tslot, node := c.node, prio := c.prio, tvec := contTvec s c,
      tcause := c.tcause, dclass := contClass s c, benchPurse := purseEmpty s c.tslot, benchHot := (getRow s (rowOf core)).hot,
      domSeen := s.nextId,
      hdlr := bit 59 c.header, net := bit 58 c.header }
  let rf := (getCore s core).rf.filter fun e => !(decide (base ≤ e.1) && decide (e.1 < base + n))
  let rf := (List.range 7).foldl (fun m i =>
    let v := c.words.getD (i + 1) 0
    if i + 1 < n && v != 0 then amSet m (base + i + 1) { val := v, full := true, poison := false } else m) rf
  refreshWin (raiseRow (modCore s core fun k => { k with ctxs := amSet k.ctxs slot x, rf := rf }) core) core

/-- A continuation placed, if a slot and a run are free (R68). -/
def place (s : State) (core : Nat) (c : Cont) : Option State :=
  match freeSlot s c.tslot core, freeRun (getCore s core) c.allot with
  | some slot, some base => some (placeAt s core slot base c)
  | _, _ => none

/-! ## The overflow ring (R182, R183) -/

def Ring.count (r : Ring) : Nat := (r.tail - r.head).toNat
def Ring.room (r : Ring) : Bool := decide (r.count < 2 ^ r.log2n)
def Ring.at_ (r : Ring) (i : BitVec 16) : Word := r.base + word (64 * (i.toNat % 2 ^ r.log2n))

def ringEmpty (k : Core) : Bool := match k.ring with | some r => r.count == 0 | none => true

/-- A SWARM node that begins to occupy a core without a ring installs its own (R182). -/
def installRing (s : State) (core : Nat) (c : Cont) : State :=
  match (getCore s core).ring, gnodeOf s c.tslot c.node with
  | none, some g =>
    if g.kind = 1 && g.word 4 != 0 then
      let r : Ring := { base := baseOf 6 (g.word 4), log2n := fld 60 4 (g.word 4), head := 0, tail := 0, vmid := c.vmid, tslot := c.tslot,
                        known := [], blocked := none, retry := false }
      modCore s core fun k => { k with ring := some r }
    else s
  | _, _ => s

/-- The ring goes when no SWARM node occupies the core (R182). -/
def removeRing (s : State) (core : Nat) : State :=
  let k := getCore s core
  let busy := k.ctxs.any (fun e => e.2.node.isSome && !e.2.stream) || k.arrivals.any (fun c => c.node.isSome) || !ringEmpty k
  if busy then s else setCore s core { k with ring := none }

/-- The 64 bytes of a record as it is written: reserved header bits are zero (R77). -/
def Cont.bytes (c : Cont) : List Byte := ((c.header &&& word (2 ^ 60 - 1)) :: c.words.drop 1).flatMap fun w => leBytes 8 w.toNat

/-- A continuation spilled at the ring's tail; none if there is no free record or no valid translation for it (R179, R183). -/
def spill (s : State) (core : Nat) (c : Cont) : Option State :=
  match (getCore s core).ring with
  | none => none
  | some r =>
    if !r.room then none
    else match translate s r.tslot (r.at_ r.tail) with
      | (.error _, _) => none
      | (.ok p, s) =>
        if !p.wr then none
        else
          let l := homePlace s p (r.at_ r.tail) true
          let s := unpoison (writeHome (touch s (dieOf core) l p .write 64) l c.bytes p) l 64
          some (modCore s core fun k => { k with ring := some { r with tail := r.tail + 1, known := r.known ++ [c] } })

/-! ## Delivery (R179 to R181) -/

/-- `Deliver`: status 0 or 1, or no room. -/
def deliver (s : State) (core : Nat) (c : Cont) : Answer × State :=
  let k := getCore s core
  let placed := if k.arrivals.isEmpty && ringEmpty k then place s core c else none
  match placed with
  | some s => (.status 0, installRing s core c)
  | none =>
    if k.arrivals.length < 8 && ringEmpty k then
      (.status 1, refreshWin (installRing (raiseRow (modCore s core fun k => { k with arrivals := k.arrivals ++ [c] }) core) core c) core)
    else match spill s core c with
      | some s => (.status 1, s)
      | none => (.noRoom, s)

/-- Contexts of a higher launch than a saved one's remain on its core, or wait there to be placed (R292, R293). -/
def higherRemains (s : State) (core : Nat) (t : Nat) (n : Option NodeRef) : Bool :=
  let higher := fun (t' : Nat) (n' : Option NodeRef) => t' == t && decide (launchPrio s t n < launchPrio s t' n')
  ((getCore s core).ctxs.any fun e => higher e.2.tslot e.2.node) || (getCore s core).arrivals.any fun c => higher c.tslot c.node

/-- A saved context waits that may be placed back now: it goes ahead of the arrival queue (R293). -/
def restoreDue (s : State) (core : Nat) : Bool :=
  match (getCore s core).saved with
  | [] => false
  | x :: _ => !higherRemains s core x.ctx.tslot x.ctx.node

/-- A record at HEAD moves to the arrival queue, or a fault record is written (R180, R183). -/
def refill (s : State) (core : Nat) : State :=
  let k := getCore s core
  match k.ring with
  | none => s
  | some r =>
    if r.count = 0 || 8 ≤ k.arrivals.length || (r.blocked.isSome && !r.retry) then s
    else match translate s r.tslot (r.at_ r.head) with
      | (.ok p, s) =>
        let l := homePlace s p (r.at_ r.head) false
        if !mayAccess s (dieOf core) l p 64 none false then countHold s (dieOf core) l p 64
        else
          let s := touch s (dieOf core) l p .read 64
          let ws := (List.range 8).map fun i => word (leNat (readHome s (l.add (8 * i)) 8 0 p))
          match r.known with
          | [] => s
          | c :: rest =>
            let c := { c with words := ws }
            -- the node of the record begins to occupy the core with it (R177, R182), and the row runs (R321)
            let s := modCore s core fun k =>
              { k with arrivals := k.arrivals ++ [c],
                       ring := some { r with head := r.head + 1, known := rest, blocked := none, retry := false } }
            refreshWin (raiseRow s core) core
      | (.error e, s) =>
        let rep : Report := { kind := .refill, cause := .pfault, addr := r.at_ r.head, who := word (core * 64), vmid := some r.vmid,
                              waiter := some (.refill core) }
        let (tok, s) := match e with
          | .stage1 => report s (.tenant r.tslot) rep
          | .stage2 g => report s .hyp { rep with stage2 := true, addr := word g }
        modCore s core fun k => { k with ring := some { r with blocked := tok, retry := false } }

/-- ARRIVAL_QUEUE_PLACE (R180): `unit` is the core. The head of the queue is placed if it fits, and then a record is refilled. -/
def execArrivalQueuePlace (s : State) : Result :=
  let core := s.arg.unit
  if coreStopped s core && !coreExists s core then .next s
  else
    let s := if restoreDue s core then s else match (getCore s core).arrivals with
      | [] => s
      | c :: rest => match place s core c with
        | some s => modCore s core fun k => { k with arrivals := rest }
        | none => s
    .next (refill s core)

/-! ## Groups (R123 to R127) -/

def getGroup (s : State) (t h : Nat) : Group := amGetD {} (getTenant s t).groups h
def setGroup (s : State) (t h : Nat) (g : Group) : State := modTenant s t fun x => { x with groups := amSet x.groups h g }

/-- A context of the tenant is held at the group's `bar`. -/
def atBar (t h : Nat) (c : Ctx) : Bool :=
  c.tslot == t && (match c.status with | .held (.bar _ g) => g == h | _ => false)

/-- The phase completes at the first moment that R126 names. -/
def settlePhase (s : State) (t h : Nat) : State :=
  let g := getGroup s t h
  let held := s.cores.any fun e => e.2.ctxs.any fun x => atBar t h x.2
  if held && g.members.toNat ≤ g.arrived.toNat && g.pending = 0 then
    let s := { s with cores := s.cores.map fun e => (e.1, mapCtxs e.2 fun _ c =>
      if atBar t h c then
        (match c.status with
          | .held (.bar rd _) => { c with status := .held (.answer rd (g.phase.setWidth 64)) }
          | _ => c)
      else c) }
    setGroup s t h { g with arrived := 0, phase := g.phase + 1 }
  else s

/-- A member leaves (R125). -/
def leaveGroup (s : State) (t h : Nat) : State :=
  let g := getGroup s t h
  let m := g.members - 1
  settlePhase (setGroup s t h { g with members := m, arrived := if m = 0 then 0 else g.arrived }) t h

/-- Copy bytes issued under a group, and landed (R123, R138). -/
def groupIssue (s : State) (t h n : Nat) : State :=
  let g := getGroup s t h
  setGroup s t h { g with pending := g.pending + word n }
def groupLand (s : State) (t h n : Nat) : State :=
  let g := getGroup s t h
  settlePhase (setGroup s t h { g with pending := g.pending - word n }) t h

/-- A context held at `bar` that is benched or saved withdraws its arrival (R127). -/
def withdrawBar (s : State) (cid : Nat) : State :=
  match getCtx s cid with
  | none => s
  | some c =>
    match c.status with
    | .held (.bar _ h) =>
      let g := getGroup s c.tslot h
      withdraw (setGroup s c.tslot h { g with arrived := g.arrived - 1 }) cid
    | _ => s

/-! ## The end of a context (R68, R120, R184, R256, R323) -/

/-- Its declared step closes (R323). -/
def closeStep (s : State) (cid : Nat) : State :=
  modCore s (coreOf cid) fun k => match k.step with
    | some r => if r.ctx = cid then { k with step := none } else k
    | none => k

/-- The bank records that name a context: a batch it left open never closes; a closed one has completed (R189, R256). -/
def orphanWriter (cid : Nat) (open_ : BitVec 32) (w : Option Writer) : Option Writer :=
  match w with
  | some x => if x.ctx != cid then w else if x.stuck || x.batch = open_ then some { x with stuck := true } else none
  | none => none

/-- No result is owed to a context (R184). -/
def nothingOwed (s : State) (cid : Nat) : Bool :=
  !(s.reqs.any fun r => r.ctx == cid && (match r.op with | .store _ => false | _ => true)) &&
  !(s.octets.any fun o => o.2.reqs.any fun r => r.ctx == cid) && !(s.ports.any fun o => o.ctx == cid) &&
  !((getCore s (coreOf cid)).vq.any fun v => v.ctx == cid)

/-- No matrix command of the context is uncompleted (R119, R120). -/
def noMatrix (s : State) (cid : Nat) : Bool := !((getCore s (coreOf cid)).mq.any fun m => m.ctx == cid)

/-- The slot and the run are free; what names the context forgets it. -/
def removeCtx (s : State) (cid : Nat) : State :=
  match getCtx s cid with
  | none => s
  | some c =>
    let open_ := if c.committed = allOnes 32 then 1 else c.committed + 1
    let s := { s with watches := s.watches.filter fun w => w.ctx != cid, dropped := s.dropped.filter fun d => d.ctx != cid }
    let s := modCore s (coreOf cid) fun k =>
      { k with ctxs := amErase k.ctxs (slotOf cid),
               rot := { k.rot with gone := k.rot.gone ++ [slotOf cid] },
               last0 := orphanWriter cid open_ k.last0,
               last1 := orphanWriter cid open_ k.last1,
               chans := k.chans.map fun e => (e.1, if e.2.ctx = some cid then { e.2 with ctx := none } else e.2) }
    refreshWin (removeRing s (coreOf cid)) (coreOf cid)

/-- A context ends (R120): it leaves its group, its step closes, its slot and registers are free and its node's count falls. -/
def endCtx (s : State) (cid : Nat) : State :=
  match getCtx s cid with
  | none => s
  | some c =>
    let s := closeStep s cid
    let s := match c.grp with
      | some h => if (getGroup s c.tslot h.toNat).members = 0 then s else leaveGroup s c.tslot h.toNat
      | none => s
    countNode (removeCtx s cid) c.tslot c.node false

end Sys2Proof.Machine
end

