-- ==== Sys2Proof/Machine/Copy.lean ====
section
/-! DEFINITION. The copy engine and the memory-side loader: copies, subscriptions and their waits (R136 to R139, R260 to R269). -/

namespace Sys2Proof.Machine

/-! ## Ranges -/

/-- The bytes of a range by the pages they may lie on: its first byte, then the first byte of every further 16 KiB page. -/
def rangePieces (a : Word) (n : Nat) : List Word :=
  (List.range ((a.toNat % 16384 + n + 16383) / 16384)).map fun i =>
    if i = 0 then a else word (a.toNat / 16384 * 16384 + 16384 * i)

/-- The 64-byte lines that a range touches, by address. -/
def rangeLines (a : Word) (n : Nat) : List Word :=
  (List.range ((a.toNat % 64 + n + 63) / 64)).map fun i => word (a.toNat / 64 * 64 + 64 * i)

/-- The lowest byte of a range that is not canonical. -/
def notCanonical (a : Word) (n : Nat) : Option Word :=
  if !canonical a then some a else if a.toNat < 2 ^ 47 && 2 ^ 47 < a.toNat + n then some (word (2 ^ 47)) else none

/-- The lowest byte of a scratchpad range at or above the home-window base. -/
def aboveWindow (k : Core) (a : Word) (n : Nat) : Option Word :=
  if windowBase k < a.toNat + n then some (word (max a.toNat (windowBase k))) else none

/-- The lower of the bytes that fail. -/
def lowest (xs : List Word) : Option Word :=
  xs.foldl (fun m x => match m with | some y => if x.toNat < y.toNat then some x else some y | none => some x) none

/-- The page check of every page of some ranges: the first that has no entry is asked for, and then the lowest byte without the rights
traps (R90, R263). -/
def pagesCheck (k : Core) (c : Ctx) (pieces : List (Word × Bool)) : Verdict :=
  match pieces.find? fun x => (pageEntry k c.vmid x.1).isNone with
  | some (a, wr) => .walk a wr false
  | none =>
    match lowest ((pieces.filter fun x => match pageCheck k c x.1 (!x.2) x.2 with | .error _ => true | .ok _ => false).map (·.1)) with
    | some a => .trap .prot a
    | none => .go

/-- The pages of some addresses, as the page check holds them. -/
def pagesOf (k : Core) (c : Ctx) (xs : List Word) : List Page := (xs.filterMap fun a => pageEntry k c.vmid a).eraseDups

/-! ## `cpy` (R262, R263) -/

def cpyLen (b : Word) : Nat := 16 * fld 48 16 b

/-- The checks of R263. -/
def cpyVerdict (srcSp dstSp : Bool) (ch : Nat) (src dst : Word) (n : Nat) (k : Core) (c : Ctx) : Verdict :=
  if n = 0 then .go
  else if (amGet k.chans ch).isSome then .park .queue
  else match lowest ([src, dst].filter fun a => fld 0 4 a != 0) with
    | some a => .trap .misalign a
    | none =>
      match lowest (((if srcSp then aboveWindow k src n else notCanonical src n).toList) ++
          ((if dstSp then aboveWindow k dst n else notCanonical dst n).toList)) with
      | some a => .trap .prot a
      | none =>
        match pagesCheck k c ((if srcSp then [] else (rangePieces src n).map fun a => (a, false)) ++
            (if dstSp then [] else (rangePieces dst n).map fun a => (a, true))) with
        | .go =>
          match (if dstSp && isLent k dst.toNat n then (List.range n).find? fun i => isLent k (dst.toNat + i) 1 else none) with
          | some i => .trap .oplent (dst + word i)
          | none => .go
        | v => v

/-- A `cpy` that passes: its claims, its group's count, its channel and its pointer (R263). -/
def cpyEffect (srcSp dstSp : Bool) (ch : Nat) (src dst : Word) (n : Nat) (s : State) : State :=
  match curCtx s with
  | none => s
  | some c =>
    let k := my s
    let (i, s) := takeId s
    let dp := if dstSp then [] else pagesOf k c (rangePieces dst n)
    let x : Chan :=
      { id := i, ctx := some (me s), node := c.node, tslot := c.tslot, kind := .copy, srcSp := srcSp, dstSp := dstSp, src := src, dst := dst, len := n,
        done := 0, group := c.grp, srcPages := if srcSp then [] else pagesOf k c (rangePieces src n), dstPages := dp }
    let s := if dstSp then s
      else claimLines s (copyEngine (coreOf (me s))) i (me s) (pageIn dp c.vmid dst) dst
        ((rangeLines dst n).map fun a => homePlace s (pageIn dp c.vmid a) a true)
    let s := match c.grp with | some h => groupIssue s c.tslot h.toNat n | none => s
    modCore s (coreOf (me s)) fun k =>
      { k with chans := amSet k.chans ch x, cwp := if dstSp then amSet k.cwp ch dst.toNat else k.cwp }

/-- A copy (R261 to R263). -/
def cpy (srcSp dstSp w : Bool) (ch : BitVec 2) (a b : Reg) (s : State) : Result :=
  settle (check { srcs := [a, b], w := w, mem := true }
      (fun s k c => cpyVerdict srcSp dstSp ch.toNat (src s a) (sext48 (src s b)) (cpyLen (src s b)) k c) s)
    (fun s =>
      let n := cpyLen (src s b)
      done (if n = 0 then s else cpyEffect srcSp dstSp ch.toNat (src s a) (sext48 (src s b)) n s)) s

/-- `cpy.gg` (R262, R263). -/
def execCpyGg (w : Bool) (c : BitVec 2) (a b : Reg) (s : State) : Result := cpy false false w c a b s

/-- `cpy.gs` (R262, R263). -/
def execCpyGs (w : Bool) (c : BitVec 2) (a b : Reg) (s : State) : Result := cpy false true w c a b s

/-- `cpy.sg` (R262, R263). -/
def execCpySg (w : Bool) (c : BitVec 2) (a b : Reg) (s : State) : Result := cpy true false w c a b s

/-- `cpy.ss` (R262, R263). -/
def execCpySs (w : Bool) (c : BitVec 2) (a b : Reg) (s : State) : Result := cpy true true w c a b s

/-! ## Moving a copy's bytes (R261, R264) -/

/-- The source and destination of a channel's next unit. -/
def Chan.from_ (x : Chan) : Word := x.src + word x.done
def Chan.to_ (x : Chan) : Word := x.dst + word x.done

def Chan.vmid (x : Chan) : BitVec 16 := ((x.srcPages ++ x.dstPages).headD (pageIn [] 0 0)).vmid
def Chan.srcPage (x : Chan) (a : Word) : Page := pageIn x.srcPages x.vmid a
def Chan.dstPage (x : Chan) (a : Word) : Page := pageIn x.dstPages x.vmid a
def Chan.srcLoc (x : Chan) (s : State) (a : Word) : Loc := homePlace s (x.srcPage a) a false
def Chan.dstLoc (x : Chan) (s : State) (a : Word) : Loc := homePlace s (x.dstPage a) a true

/-- A place may be read, or written, by a channel's command now. -/
def Chan.mayRead (x : Chan) (s : State) (core : Nat) (a : Word) (n : Nat) : Bool :=
  engineReady s core (x.srcPage a) (x.srcLoc s a) n (x.ctx.getD (ctxId core 64)) (copyEngine core) x.id
def Chan.mayWrite (x : Chan) (s : State) (core : Nat) (a : Word) (n : Nat) : Bool :=
  mayAccess s (dieOf core) (x.dstLoc s a) (x.dstPage a) n (some (copyEngine core, x.id)) true

/-- The channel has a unit ready: a copy with bytes to move whose source and destination may be accessed now. -/
def unitReady (s : State) (core : Nat) (x : Chan) : Bool :=
  x.kind == .copy && decide (x.done < x.len) && (x.srcSp || x.mayRead s core x.from_ 16) &&
  (x.dstSp || (claimDone s x.id && x.mayWrite s core x.to_ 16))

/-- A source unit: its bytes, and the cause if its line is poisoned or its device failed (R260). -/
def readUnit (s : State) (core : Nat) (x : Chan) (ext : List Byte) : List Byte × Option Cause × State :=
  let a := x.from_
  if x.srcSp then
    let (bs, bad) := engineSp (getCore s core) a.toNat 16
    (bs, if bad then some .poison else none, s)
  else
    let l := x.srcLoc s a
    let s := touch s (dieOf core) l (x.srcPage a) .read 16
    if linkDown s l then (List.replicate 16 0, some .rlink, s)
    else if poisonedAt s (x.srcLoc s (a &&& ~~~(63 : Word))) 64 then (List.replicate 16 0, some .poison, s)
    else (readWide s l 16 ext (x.srcPage a), none, s)

/-- The number of the 64-byte line of an address, plus one. -/
def lineMark (a : Word) : Nat := a.toNat / 64 + 1

/-- The unit's bytes at their destination, written together (R99, R114; log entry 61). A global line that the command has written poisoned
stays so (R260). -/
def writeUnit (s : State) (core : Nat) (x : Chan) (bs : List Byte) (bad : Bool) : State :=
  let a := x.to_
  if x.dstSp then modCore s core fun k => spStore k a.toNat bs
  else engineWrite s (dieOf core) x.tslot (x.ctx.getD noContext) x.id (x.dstPage a) a bs (bad || x.badDst == lineMark a)

/-- The unit's line takes no more bytes of this command: another party may have it (R137). -/
def releaseLine (s : State) (x : Chan) : State :=
  if x.dstSp then s
  else
    let a := x.to_
    let l := (x.dstLoc s a).line
    let rest := rangeLines (a + 16) (x.len - x.done - 16)
    if rest.any fun b => (x.dstLoc s b).line == l then s else unclaimLine s x.id (x.dstLoc s a)

/-- One unit of a channel moves (R264): read, written, the pointer advanced, and landed for its group (R123). A source line that is
poisoned or whose device failed is recorded once, whichever of its units meets it (R260). Between a unit and the write pointer's advance
nothing else happens, so that a load at or above the pointer returns the old granules (R99; log entry 61). -/
def moveUnit (s : State) (core ch : Nat) (x : Chan) (ext : List Byte) : State :=
  let (bs, bad, s) := readUnit s core x ext
  let s := match bad with
    | some c => if x.badLine = lineMark x.from_ then s else engineReport s x.tslot core ch x.node c false (x.from_ &&& ~~~(63 : Word))
    | none => s
  let s := writeUnit s core x bs bad.isSome
  let s := releaseLine s x
  let s := modCore s core fun k =>
    { k with chans := amSet k.chans ch { x with done := x.done + 16,
                                                badLine := if bad.isSome then lineMark x.from_ else x.badLine,
                                                badDst := if bad.isSome then lineMark x.to_ else x.badDst }
             lastChan := ch
             cwp := if x.dstSp then amSet k.cwp ch (x.to_.toNat + 16) else k.cwp }
  match x.group with
  | some h => groupLand s x.tslot h.toNat 16
  | none => s

/-- The next channel that has a unit ready, starting after the one that took the last (R261). -/
def nextChan (s : State) (core : Nat) : Option (Nat × Chan) :=
  let k := getCore s core
  ((List.range 4).map fun i => (k.lastChan + 1 + i) % 4).findSome? fun ch =>
    match amGet k.chans ch with
    | some x => if unitReady s core x then some (ch, x) else none
    | none => none

/-- Units moved one at a time, round robin (R261). -/
def moveUnits (core : Nat) : Nat → List Byte → State → State
  | 0, _, s => s
  | n + 1, ext, s =>
    match nextChan s core with
    | none => s
    | some (ch, x) => moveUnits core n (ext.drop 16) (moveUnit s core ch x ext)

/-- COPY_UNIT_TRANSFER (R261): `unit` is the core, `bytes` what a remote source answers for each unit in turn. -/
def execCopyUnitTransfer (s : State) : Result :=
  let core := s.arg.unit
  .next (if coreStopped s core then s else settleWaits (moveUnits core 4 s.arg.bytes s) core)

/-- The channel's command has completed: a copy that has moved its bytes; a subscription whose tiles have all landed, been retired and,
with PULL, been carried back (R264, R266). -/
def chanDone (x : Chan) : Bool :=
  match x.kind with
  | .copy => x.done == x.len
  | .sub pull => x.landed == x.count && x.retired == x.count && (!pull || x.pulled == x.count)

/-- The channel is free again and its claims end. -/
def freeChan (s : State) (core ch : Nat) (x : Chan) : State :=
  settleWaits (modCore (dropClaim s x.id) core fun k => { k with chans := amErase k.chans ch }) core

/-- COPY_COMMAND_COMPLETE (R264, R266): `unit` is the core and `idx` the channel. -/
def execCopyCommandComplete (s : State) : Result :=
  let core := s.arg.unit
  match amGet (getCore s core).chans s.arg.idx with
  | some x => .next (if chanDone x then freeChan s core s.arg.idx x else s)
  | none => .next s

/-! ## Subscriptions (R265 to R267) -/

/-- A descriptor's words. -/
structure SubDesc where
  w : List Word
  deriving DecidableEq, Repr

def SubDesc.at_ (d : SubDesc) (i : Nat) : Word := d.w.getD i 0
def SubDesc.sbase (d : SubDesc) : Word := sext48 (d.at_ 0)
def SubDesc.sstride (d : SubDesc) : Word := d.at_ 1
def SubDesc.dbase (d : SubDesc) : Word := sext48 (d.at_ 2)
def SubDesc.dstride (d : SubDesc) : Word := d.at_ 3
def SubDesc.count (d : SubDesc) : Nat := fld 32 32 (d.at_ 4)
def SubDesc.slotb (d : SubDesc) : Nat := 64 * fld 16 16 (d.at_ 4)
def SubDesc.slots (d : SubDesc) : Nat := fld 20 4 (d.at_ 5) + 1
def SubDesc.ring (d : SubDesc) : Nat := fld 0 17 (d.at_ 5)

/-- The descriptor at its home; a device outside the package answers with a value the manual leaves open (log entry 3). -/
def subDesc (s : State) (p : Page) (va : Word) : SubDesc :=
  let bs := readWide s (homePlace s p va false) 64 (freeLine s).1 p
  { w := (List.range 8).map fun i => word (leNat ((bs.drop (8 * i)).take 8)) }

/-- The descriptor meets R265, and its ring lies below the home window (R266 step 3). -/
def SubDesc.ok (d : SubDesc) (k : Core) (pull : Bool) : Bool :=
  fld 48 16 (d.at_ 0) == 0 && fld 0 6 (d.at_ 0) == 0 && fld 0 6 (d.at_ 1) == 0 && fld 48 16 (d.at_ 2) == 0 &&
  (!pull || fld 0 6 (d.at_ 2) == 0) && fld 0 6 (d.at_ 3) == 0 && decide (1 ≤ d.count) && decide (64 ≤ d.slotb) &&
  decide (d.slotb ≤ 64 * 1536) && fld 0 16 (d.at_ 4) == 0 && fld 24 40 (d.at_ 5) == 0 && fld 17 3 (d.at_ 5) == 0 &&
  decide (d.ring % 64 = 0) && d.at_ 6 == 0 && d.at_ 7 == 0 && decide (d.ring + d.slots * d.slotb ≤ windowBase k)

/-- Addresses of the tiles of a base and stride. -/
def tiles (base stride : Word) (n : Nat) : List Word := (List.range n).map fun t => base + word t * stride

/-- A tenant's loader of the stack that holds a place (R338, R339). -/
def ownsLoader (s : State) (t : Nat) (l : Loc) : Bool :=
  match l with
  | .hbm pa => (getTenant s t).engines.getLsbD (2 + pa / 2 ^ 36)
  | _ => true

/-- The checks of R266. -/
def subVerdict (pull : Bool) (ch : Nat) (va : Word) (s : State) (k : Core) (c : Ctx) : Verdict :=
  if (amGet k.chans ch).isSome then .park .queue
  else match globalCheck k c va 64 true false with
    | .error v => v
    | .ok p =>
      if !engineReady s (coreOf (me s)) p (homePlace s p va false) 64 (me s) (copyEngine (coreOf (me s))) s.nextId then .park .queue
      else
        let d := subDesc s p va
        if !d.ok k pull then .trap .prot va
        else
          let srcs := tiles d.sbase d.sstride d.count
          let dsts := if pull then tiles d.dbase d.dstride d.count else []
          match lowest ((srcs ++ dsts).filterMap fun a => notCanonical a d.slotb) with
          | some a => .trap .prot a
          | none =>
            match pagesCheck k c ((srcs.flatMap fun a => (rangePieces a d.slotb).map fun x => (x, false)) ++
                (dsts.flatMap fun a => (rangePieces a d.slotb).map fun x => (x, true))) with
            | .go => match pageEntry k c.vmid d.sbase with
              | some q => if ownsLoader s c.tslot (homePlace s q d.sbase false) then .go else .trap .prot d.sbase
              | none => .go
            | v => v

/-- A subscription starts: its claims, its channel and its pointer (R266). -/
def subEffect (pull : Bool) (ch : Nat) (va : Word) (s : State) : State :=
  match curCtx s with
  | none => s
  | some c =>
    let k := my s
    match pageEntry k c.vmid va with
    | none => s
    | some p =>
      let d := subDesc s p va
      let (_, s) := freeLine (touch s (dieOf (coreOf (me s))) (homePlace s p va false) p .read 64)
      let (i, s) := takeId s
      let srcs := tiles d.sbase d.sstride d.count
      let dsts := if pull then tiles d.dbase d.dstride d.count else []
      let dp := pagesOf k c (dsts.flatMap fun a => rangePieces a d.slotb)
      let x : Chan :=
        { id := i, ctx := some (me s), node := c.node, tslot := c.tslot, kind := .sub pull, srcSp := false, dstSp := true, src := d.sbase, dst := d.dbase,
          len := 0, done := 0, group := none, srcPages := pagesOf k c (srcs.flatMap fun a => rangePieces a d.slotb), dstPages := dp,
          desc := va, sstride := d.sstride, dstride := d.dstride, count := d.count, slotb := d.slotb, slots := d.slots, ring := d.ring }
      let s := if pull then
          claimLines s (copyEngine (coreOf (me s))) i (me s) (pageIn dp c.vmid d.dbase) d.dbase
            (dsts.flatMap fun a => (rangeLines a d.slotb).map fun b => homePlace s (pageIn dp c.vmid b) b true)
        else s
      modCore s (coreOf (me s)) fun k => { k with chans := amSet k.chans ch x, cwp := amSet k.cwp ch d.ring }

/-- `cpy.sub` and `cpy.sub.pull` (R265, R266). -/
def subscribe (pull w : Bool) (ch : BitVec 2) (a : Reg) (s : State) : Result :=
  settle (check { srcs := [a], w := w, mem := true } (fun s k c => subVerdict pull ch.toNat (src s a) s k c) s)
    (fun s => done (subEffect pull ch.toNat (src s a) s)) s

/-- `cpy.sub` (R266). -/
def execCpySub (w : Bool) (c : BitVec 2) (a : Reg) (s : State) : Result := subscribe false w c a s

/-- `cpy.sub.pull` (R266). -/
def execCpySubPull (w : Bool) (c : BitVec 2) (a : Reg) (s : State) : Result := subscribe true w c a s

/-- `cpy.sub.ret` (R267). -/
def execCpySubRet (w : Bool) (c : BitVec 2) (a : Reg) (s : State) : Result :=
  settle (check { srcs := [a], w := w, mem := true } (fun s k _ =>
      match amGet k.chans c.toNat with
      | some x => match x.kind with
        | .sub _ => if x.landed < x.retired + (src s a).toNat then .trap .prot (src s a) else .go
        | .copy => .trap .prot (src s a)
      | none => .trap .prot (src s a)) s)
    (fun s => done (modCore s (coreOf (me s)) fun k => { k with chans := match amGet k.chans c.toNat with
      | some x => amSet k.chans c.toNat { x with retired := x.retired + (src s a).toNat }
      | none => k.chans })) s

/-- Scratchpad address of the slot of tile `t`. -/
def Chan.slotAt (x : Chan) (t : Nat) : Nat := x.ring + x.slotb * (t % x.slots)

/-- The next tile may land: its slot is free, none of it lent, its source may be read, and the purse is not empty (R266, R267,
R334). -/
def tileReady (s : State) (core : Nat) (x : Chan) : Bool :=
  let k := getCore s core
  let a := x.src + word x.landed * x.sstride
  match x.kind with
  | .copy => false
  | .sub pull =>
    decide (x.landed < x.count) && decide (x.landed < x.retired + x.slots) && (!pull || decide (x.landed < x.pulled + x.slots)) &&
    !isLent k (x.slotAt x.landed) x.slotb && !purseEmpty s x.tslot &&
    (rangeLines a x.slotb).all fun b => x.mayRead s core b 64

/-- A tile lands line by line (R264, R266); a line that is poisoned or whose device failed lands as zero, with a record (R260). -/
def landTile (s : State) (core ch : Nat) (x : Chan) (ext : List Byte) : State :=
  let a := x.src + word x.landed * x.sstride
  let s := (List.range (x.slotb / 64)).foldl (fun s i =>
    let va := a + word (64 * i)
    let l := x.srcLoc s va
    let s := touch s (dieOf core) l (x.srcPage va) .read 64
    let bad : Option Cause := if linkDown s l then some .rlink else if poisonedAt s l 64 then some .poison else none
    let bs := if bad.isSome then List.replicate 64 0 else readWide s l 64 (ext.drop (64 * i)) (x.srcPage va)
    let s := match bad with | some c => engineReport s x.tslot core ch x.node c false va | none => s
    modCore s core fun k => spStore k (x.slotAt x.landed + 64 * i) bs) s
  modCore s core fun k =>
    { k with chans := amSet k.chans ch { x with landed := x.landed + 1 },
             cwp := amSet k.cwp ch (x.ring + x.slotb * (x.landed % x.slots + 1)) }

/-- SUBSCRIPTION_TILE_LAND (R266): `unit` is the core, `idx` the channel, `bytes` what a remote source answers. -/
def execSubscriptionTileLand (s : State) : Result :=
  let core := s.arg.unit
  match amGet (getCore s core).chans s.arg.idx with
  | some x => .next (if tileReady s core x then settleWaits (landTile s core s.arg.idx x s.arg.bytes) core else s)
  | none => .next s

/-- The next retired tile is carried back once its claims are performed (R267, R137). -/
def pullReady (s : State) (core : Nat) (x : Chan) : Bool :=
  let a := x.dst + word x.pulled * x.dstride
  x.kind == .sub true && decide (x.pulled < x.retired) && claimDone s x.id && !purseEmpty s x.tslot &&
  (rangeLines a x.slotb).all fun b => x.mayWrite s core b 64

/-- The lines of the tiles that are still to be carried back after tile `t`. -/
def laterPulls (s : State) (x : Chan) (t : Nat) : List Loc :=
  (List.range x.count).flatMap fun u => if u ≤ t then [] else
    (rangeLines (x.dst + word u * x.dstride) x.slotb).map fun b => (x.dstLoc s b).line

/-- A tile carried back line by line; poisoned granules give a poisoned line and a record (R260, R267). -/
def pullTile (s : State) (core ch : Nat) (x : Chan) : State :=
  let a := x.dst + word x.pulled * x.dstride
  let later := laterPulls s x x.pulled
  let s := (List.range (x.slotb / 64)).foldl (fun s i =>
    let va := a + word (64 * i)
    let from_ := x.slotAt x.pulled + 64 * i
    let (bs, bad) := engineSp (getCore s core) from_ 64
    let s := if bad then engineReport s x.tslot core ch x.node .poison false (word from_) else s
    let s := engineWrite s (dieOf core) x.tslot (x.ctx.getD noContext) x.id (x.dstPage va) va bs bad
    if later.contains (x.dstLoc s va).line then s else unclaimLine s x.id (x.dstLoc s va)) s
  modCore s core fun k => { k with chans := amSet k.chans ch { x with pulled := x.pulled + 1 } }

/-- SUBSCRIPTION_PULL_BACK (R267): `unit` is the core and `idx` the channel. -/
def execSubscriptionPullBack (s : State) : Result :=
  let core := s.arg.unit
  match amGet (getCore s core).chans s.arg.idx with
  | some x => .next (if pullReady s core x then settleWaits (pullTile s core s.arg.idx x) core else s)
  | none => .next s

/-! ## Waits (R268, R269) -/

/-- `cfence` (R268). -/
def execCfence (s : State) : Result :=
  settle (check { srcs := [], mem := true } plain s)
    (fun s => if copiesDone (my s) (me s) then done s else holdNow .cfence s) s

/-- `cwait` (R269). -/
def execCwait (w : Bool) (a b : Reg) (s : State) : Result :=
  settle (check { srcs := [a, b], w := w, mem := true } plain s)
    (fun s =>
      let ch := fld 0 2 (src s a)
      let x := src s b
      if cwaitDone (my s) ch x then done s else holdNow (.cwait ch x) s) s

end Sys2Proof.Machine
end

