-- ==== Sys2Proof/Machine/Special.lean ====
section
/-! DEFINITION. The functions of the special-function unit (R239): the exact value is enclosed in fixed point, 400 bits after the
point, and rounded once to FP32. The enclosures are far narrower than the distance of any FP32 operand's value from a rounding
boundary (log entry 11). -/

namespace Sys2Proof.Machine

/-- Bits after the point. -/
def fixP : Nat := 400

/-- atan(1/n) with `p` bits after the point: terms 1/((2k+1)·n^(2k+1)), alternating. -/
def atanTerms (n : Nat) : Nat → Nat → Nat → Bool → Int → Int
  | 0, _, _, _, acc => acc
  | fuel + 1, k, pow, neg, acc =>
    let t : Int := pow / (2 * k + 1)
    atanTerms n fuel (k + 1) (pow / (n * n)) (!neg) (if neg then acc - t else acc + t)

def atanInv (n p : Nat) : Int := atanTerms n (p / 4 + 2) 0 (2 ^ p / n) false 0

/-- π with `p` bits after the point (Machin's sum). -/
def piFix (p : Nat) : Int := (16 * atanInv 5 (p + 20) - 4 * atanInv 239 (p + 20)) / 2 ^ 20

/-- Sum of z^(2k+1)/(2k+1): the series of atanh. -/
def atanhTerms (z2 : Nat) : Nat → Nat → Nat → Nat → Nat
  | 0, _, _, acc => acc
  | fuel + 1, k, pow, acc => atanhTerms z2 fuel (k + 1) (pow * z2 / 2 ^ fixP) (acc + pow / (2 * k + 1))

/-- ln of a fixed-point number from 1 to 2. -/
def lnFix (x : Nat) : Nat :=
  let z := (x - 2 ^ fixP) * 2 ^ fixP / (x + 2 ^ fixP)
  2 * atanhTerms (z * z / 2 ^ fixP) 140 0 z 0

def ln2Fix : Nat := lnFix (2 ^ (fixP + 1))

/-- Sum of y^k/k!. -/
def expTerms (y : Nat) : Nat → Nat → Nat → Nat → Nat
  | 0, _, _, acc => acc
  | fuel + 1, k, t, acc => expTerms y fuel (k + 1) (t * y / 2 ^ fixP / (k + 1)) (acc + t)

/-- 2^f for a fixed-point f from 0 to 1. -/
def exp2Frac (f : Nat) : Nat := expTerms (f * ln2Fix / 2 ^ fixP) 100 0 (2 ^ fixP) 0

/-- 2^t for a signed fixed-point t: a mantissa from 1 to 2 and a power of two. -/
def exp2Fix (t : Int) : Nat × Int :=
  let n := t / 2 ^ fixP
  (exp2Frac (t - n * 2 ^ fixP).toNat, n)

/-- e^y for a signed fixed-point y. -/
def expFix (y : Int) : Nat × Int := exp2Fix (y * 2 ^ fixP / ln2Fix)

/-- Sum of the alternating series of sine (from `k` = 1) or cosine (from `k` = 0). -/
def trigTerms (r2 : Nat) : Nat → Nat → Int → Int → Int
  | 0, _, _, acc => acc
  | fuel + 1, k, t, acc => trigTerms r2 fuel (k + 2) (-(t * r2 / 2 ^ fixP / ((k + 1) * (k + 2)))) (acc + t)

def sinFix (r : Int) : Int := trigTerms (r * r / 2 ^ fixP).toNat 60 1 r 0
def cosFix (r : Int) : Int := trigTerms (r * r / 2 ^ fixP).toNat 60 0 (2 ^ fixP) 0

/-- m · 2^e in fixed point. -/
def toFix (s : Bool) (m : Nat) (e : Int) : Int :=
  let sh := e + fixP
  signed s (if 0 ≤ sh then m <<< sh.toNat else m >>> (-sh).toNat)

/-- A fixed-point value v · 2^e, known to within a relative 2^−200, rounded to FP32: both ends of the enclosure give the code. -/
def roundFix (s : Bool) (v : Nat) (e : Int) : Nat × FFlags :=
  let wide := v <<< 40
  let lo := roundTo fp32 .rne s (wide - 2 ^ 100) (e - 40)
  let hi := roundTo fp32 .rne s (wide + 2 ^ 100) (e - 40)
  if lo.1 = hi.1 then hi else roundTo fp32 .rne s wide (e - 40)

/-- 2^x (R239). -/
def sfuExp2 (x : FVal) : Nat × FFlags :=
  match x with
  | .nan sn => (fp32.nanCode, whenFlag sn flagNV)
  | .inf s => (if s then 0 else fp32.infCode, 0)
  | .fin s m e =>
    if m = 0 then roundTo fp32 .rne false 1 0
    else if 2 ^ 8 ≤ m * 2 ^ e.toNat / 2 ^ (-e).toNat then if s then (0, flagUF) else (fp32.infCode, flagOF)
    else
      let t := toFix s m e
      let (v, n) := exp2Fix t
      let r := if t % 2 ^ fixP = 0 then roundTo fp32 .rne false 1 n else roundFix false v (n - fixP)
      (r.1, (r.2 &&& flagOF) ||| whenFlag (decide (n < -126)) flagUF)

/-- log₂ x (R239). -/
def sfuLog2 (x : FVal) : Nat × FFlags :=
  match x with
  | .nan sn => (fp32.nanCode, whenFlag sn flagNV)
  | .inf s => if s then (fp32.nanCode, flagNV) else (fp32.infCode, 0)
  | .fin s m e =>
    if m = 0 then (fp32.signW + fp32.infCode, flagDZ)
    else if s then (fp32.nanCode, flagNV)
    else
      let l := Nat.log2 m
      let n : Int := e + l
      if m = 2 ^ l then ((roundOrZero fp32 .rne n 0 false).1, 0)
      else
        let f := lnFix (m * 2 ^ fixP / 2 ^ l) * 2 ^ fixP / ln2Fix
        let v : Int := n * 2 ^ fixP + f
        ((roundFix (decide (v < 0)) v.natAbs (-fixP)).1, 0)

/-- 1/x (R239). -/
def sfuRcp (x : FVal) : Nat × FFlags :=
  match x with
  | .nan sn => (fp32.nanCode, whenFlag sn flagNV)
  | .inf s => (zeroCode fp32 s, 0)
  | .fin s m e =>
    if m = 0 then (signCode fp32 s + fp32.infCode, flagDZ)
    else
      let (q, d) := quotient 1 m 26
      ((roundTo fp32 .rne s q (d - e)).1, 0)

/-- 1/√x (R239). -/
def sfuRsq (x : FVal) : Nat × FFlags :=
  match x with
  | .nan sn => (fp32.nanCode, whenFlag sn flagNV)
  | .inf s => if s then (fp32.nanCode, flagNV) else (0, 0)
  | .fin s m e =>
    if m = 0 then (signCode fp32 s + fp32.infCode, flagDZ)
    else if s then (fp32.nanCode, flagNV)
    else
      let m' := if e % 2 = 0 then m else 2 * m
      let e' := if e % 2 = 0 then e else e - 1
      let r := isqrt (2 ^ 200 / m')
      let sticky := if r * r * m' = 2 ^ 200 then 0 else 1
      ((roundTo fp32 .rne false (2 * r + sticky) (-101 - e' / 2)).1, 0)

/-- sin x, or cos x (R239): the operand is reduced by multiples of π/2. -/
def sfuTrig (cos : Bool) (x : FVal) : Nat × FFlags :=
  match x with
  | .nan sn => (fp32.nanCode, whenFlag sn flagNV)
  | .inf _ => (fp32.nanCode, flagNV)
  | .fin s m e =>
    if m = 0 then if cos then roundTo fp32 .rne false 1 0 else (zeroCode fp32 s, 0)
    else
      let t := toFix s m e
      let p := piFix (fixP + 160)
      let k := (2 * t * 2 ^ 160 + p / 2) / p
      let r := (2 * t * 2 ^ 160 - k * p) / 2 ^ 161
      let quad := ((if cos then k + 1 else k) % 4).toNat
      let v := if quad % 2 = 0 then sinFix r else cosFix r
      let v := if quad < 2 then v else -v
      if e < -40 && !cos && k = 0 && Nat.log2 m + e < -30 then
        -- sin x lies between x − x³/6 and x, within half a unit below x
        ((roundTo fp32 .rne s ((m <<< 80) - 1) (e - 80)).1, 0)
      else ((roundFix (decide (v < 0)) v.natAbs (-fixP)).1, 0)

/-- tanh x (R239). -/
def sfuTanh (x : FVal) : Nat × FFlags :=
  match x with
  | .nan sn => (fp32.nanCode, whenFlag sn flagNV)
  | .inf s => ((roundTo fp32 .rne s 1 0).1, 0)
  | .fin s m e =>
    if m = 0 then (zeroCode fp32 s, 0)
    else if Nat.log2 m + e < -30 then ((roundTo fp32 .rne s ((m <<< 80) - 1) (e - 80)).1, 0)
    else if 6 ≤ Nat.log2 m + e then ((roundTo fp32 .rne s 1 0).1, 0)
    else
      let (v, n) := expFix (-(2 * toFix false m e))
      let q := v >>> (-n).toNat
      ((roundFix s ((2 ^ fixP - q) * 2 ^ fixP / (2 ^ fixP + q)) (-fixP)).1, 0)

/-- 1/(1 + e^−x) (R239). -/
def sfuSigm (x : FVal) : Nat × FFlags :=
  match x with
  | .nan sn => (fp32.nanCode, whenFlag sn flagNV)
  | .inf s => if s then (0, 0) else ((roundTo fp32 .rne false 1 0).1, 0)
  | .fin s m e =>
    if m = 0 then ((roundTo fp32 .rne false 1 (-1)).1, 0)
    else if 7 ≤ Nat.log2 m + e then if s then (0, 0) else ((roundTo fp32 .rne false 1 0).1, 0)
    else
      let (v, n) := expFix (-(toFix false m e))
      let q := v >>> (-n).toNat
      let num := if s then q else 2 ^ fixP
      ((roundFix false (num * 2 ^ fixP / (2 ^ fixP + q)) (-fixP)).1, 0)

/-- The functions by their f3 (R239). -/
def sfuValue (fn : Nat) (x : BitVec 32) : Nat × FFlags :=
  let v := unpack fp32 x.toNat
  match fn with
  | 0 => sfuExp2 v
  | 1 => sfuLog2 v
  | 2 => sfuRcp v
  | 3 => sfuRsq v
  | 4 => sfuTrig false v
  | 5 => sfuTrig true v
  | 6 => sfuTanh v
  | _ => sfuSigm v

end Sys2Proof.Machine
end

