-- ==== Sys2Proof/Machine/Float.lean ====
section
/-! DEFINITION. Scalar floating point, the special functions, and the code table (R229 to R233, R239 to R241). -/

namespace Sys2Proof.Machine

/-- The precision of a form: FP64 or FP32 (R231). -/
def precision (p : Bool) : Fmt := if p then fp64 else fp32

/-- A form of two operands (R231, R232): the code and flags of the function, zero-extended (R229). -/
def float2 (f : Nat → Nat → Nat × FFlags) (w : Bool) (d a b : Reg) (s : State) : Result :=
  settle (check { srcs := [a, b], dst := some d, w := w, ports := true } plain s)
    (fun s => let r := f (src s a).toNat (src s b).toNat; finish d (word r.1) r.2 s) s

/-- A form of one operand. -/
def float1 (f : Nat → Nat × FFlags) (w : Bool) (d a : Reg) (s : State) : Result :=
  settle (check { srcs := [a], dst := some d, w := w, ports := true } plain s)
    (fun s => let r := f (src s a).toNat; finish d (word r.1) r.2 s) s

/-- A form that also reads its destination (R231). -/
def float3 (f : Nat → Nat → Nat → Nat × FFlags) (w : Bool) (d a b : Reg) (s : State) : Result :=
  settle (check { srcs := [a, b, d], dst := some d, w := w, ports := true } plain s)
    (fun s => let r := f (src s a).toNat (src s b).toNat (src s d).toNat; finish d (word r.1) r.2 s) s

/-- An operand at the width of a format: higher bits are ignored (R229). -/
def low (f : Fmt) (x : Nat) : Nat := x % 2 ^ (f.ew + f.fw + 1)

/-- The signed integer of a doubleword (R233). -/
def sint (x : Nat) : Int := (word x).toInt

/-- An integer result as a 64-bit pattern (R233). -/
def intCode (r : Int × FFlags) : Nat × FFlags := ((BitVec.ofInt 64 r.1).toNat, r.2)

/-! ## Arithmetic (R231) -/

/-- `fadd` (R231). -/
def execFadd (p : Bool) (r : BitVec 2) (w : Bool) (d a b : Reg) (s : State) : Result :=
  float2 (fun x y => fAdd (precision p) (roundingOf r) x y) w d a b s

/-- `fsub` (R231). -/
def execFsub (p : Bool) (r : BitVec 2) (w : Bool) (d a b : Reg) (s : State) : Result :=
  float2 (fun x y => fSub (precision p) (roundingOf r) x y) w d a b s

/-- `fmul` (R231). -/
def execFmul (p : Bool) (r : BitVec 2) (w : Bool) (d a b : Reg) (s : State) : Result :=
  float2 (fun x y => fMul (precision p) (roundingOf r) x y) w d a b s

/-- `fdiv` (R231). -/
def execFdiv (p : Bool) (r : BitVec 2) (w : Bool) (d a b : Reg) (s : State) : Result :=
  float2 (fun x y => fDiv (precision p) (roundingOf r) x y) w d a b s

/-- `fma` (R231). -/
def execFma (p : Bool) (r : BitVec 2) (w : Bool) (d a b : Reg) (s : State) : Result :=
  float3 (fun x y z => fFma (precision p) (roundingOf r) false x y z) w d a b s

/-- `fnma` (R231). -/
def execFnma (p : Bool) (r : BitVec 2) (w : Bool) (d a b : Reg) (s : State) : Result :=
  float3 (fun x y z => fFma (precision p) (roundingOf r) true x y z) w d a b s

/-- `fsqrt` (R231). -/
def execFsqrt (p : Bool) (r : BitVec 2) (w : Bool) (d a : Reg) (s : State) : Result :=
  float1 (fun x => fSqrt (precision p) (roundingOf r) x) w d a s

/-! ## Comparison, sign and class (R232) -/

/-- `fmin` of FP32 (R232). -/
def execFminW (w : Bool) (d a b : Reg) (s : State) : Result := float2 (fMinMax fp32 false) w d a b s

/-- `fmax` of FP32 (R232). -/
def execFmaxW (w : Bool) (d a b : Reg) (s : State) : Result := float2 (fMinMax fp32 true) w d a b s

/-- `feq` of FP32 (R232). -/
def execFeqW (w : Bool) (d a b : Reg) (s : State) : Result := float2 (fCompare fp32 true (fun c => c == 0)) w d a b s

/-- `flt` of FP32 (R232). -/
def execFltW (w : Bool) (d a b : Reg) (s : State) : Result := float2 (fCompare fp32 false (fun c => decide (c < 0))) w d a b s

/-- `fle` of FP32 (R232). -/
def execFleW (w : Bool) (d a b : Reg) (s : State) : Result := float2 (fCompare fp32 false (fun c => decide (c ≤ 0))) w d a b s

/-- `fsgnj` of FP32 (R232). -/
def execFsgnjW (w : Bool) (d a b : Reg) (s : State) : Result := float2 (fun x y => (fSign fp32 false (low fp32 x) y, 0)) w d a b s

/-- `fsgnjn` of FP32 (R232). -/
def execFsgnjnW (w : Bool) (d a b : Reg) (s : State) : Result := float2 (fun x y => (fSign fp32 true (low fp32 x) y, 0)) w d a b s

/-- `fclass` of FP32 (R232). -/
def execFclassW (w : Bool) (d a : Reg) (s : State) : Result := float1 (fun x => (fClass fp32 x, 0)) w d a s

/-- `fmin` of FP64 (R232). -/
def execFminD (w : Bool) (d a b : Reg) (s : State) : Result := float2 (fMinMax fp64 false) w d a b s

/-- `fmax` of FP64 (R232). -/
def execFmaxD (w : Bool) (d a b : Reg) (s : State) : Result := float2 (fMinMax fp64 true) w d a b s

/-- `feq` of FP64 (R232). -/
def execFeqD (w : Bool) (d a b : Reg) (s : State) : Result := float2 (fCompare fp64 true (fun c => c == 0)) w d a b s

/-- `flt` of FP64 (R232). -/
def execFltD (w : Bool) (d a b : Reg) (s : State) : Result := float2 (fCompare fp64 false (fun c => decide (c < 0))) w d a b s

/-- `fle` of FP64 (R232). -/
def execFleD (w : Bool) (d a b : Reg) (s : State) : Result := float2 (fCompare fp64 false (fun c => decide (c ≤ 0))) w d a b s

/-- `fsgnj` of FP64 (R232). -/
def execFsgnjD (w : Bool) (d a b : Reg) (s : State) : Result := float2 (fun x y => (fSign fp64 false (low fp64 x) y, 0)) w d a b s

/-- `fsgnjn` of FP64 (R232). -/
def execFsgnjnD (w : Bool) (d a b : Reg) (s : State) : Result := float2 (fun x y => (fSign fp64 true (low fp64 x) y, 0)) w d a b s

/-- `fclass` of FP64 (R232). -/
def execFclassD (w : Bool) (d a : Reg) (s : State) : Result := float1 (fun x => (fClass fp64 x, 0)) w d a s

/-! ## Conversions (R221, R233) -/

/-- `cvtSD` (R233). -/
def execCvtSD (r : BitVec 2) (w : Bool) (d a : Reg) (s : State) : Result := float1 (fConvert fp64 fp32 (roundingOf r)) w d a s

/-- `cvtHS` (R233). -/
def execCvtHS (r : BitVec 2) (w : Bool) (d a : Reg) (s : State) : Result := float1 (fConvert fp32 fp16 (roundingOf r)) w d a s

/-- `cvtBfS` (R233). -/
def execCvtBfS (r : BitVec 2) (w : Bool) (d a : Reg) (s : State) : Result := float1 (fConvert fp32 bf16 (roundingOf r)) w d a s

/-- `cvtSL` (R233). -/
def execCvtSL (r : BitVec 2) (w : Bool) (d a : Reg) (s : State) : Result := float1 (fun x => fFromInt fp32 (roundingOf r) (sint x)) w d a s

/-- `cvtDL` (R233). -/
def execCvtDL (r : BitVec 2) (w : Bool) (d a : Reg) (s : State) : Result := float1 (fun x => fFromInt fp64 (roundingOf r) (sint x)) w d a s

/-- `cvtLS` (R233). -/
def execCvtLS (r : BitVec 2) (w : Bool) (d a : Reg) (s : State) : Result := float1 (fun x => intCode (fToInt fp32 (roundingOf r) (-2 ^ 63) (2 ^ 63 - 1) x)) w d a s

/-- `cvtLD` (R233). -/
def execCvtLD (r : BitVec 2) (w : Bool) (d a : Reg) (s : State) : Result := float1 (fun x => intCode (fToInt fp64 (roundingOf r) (-2 ^ 63) (2 ^ 63 - 1) x)) w d a s

/-- `cvtDLu` (R233). -/
def execCvtDLu (r : BitVec 2) (w : Bool) (d a : Reg) (s : State) : Result := float1 (fun x => fFromInt fp64 (roundingOf r) x) w d a s

/-- `cvtLuD` (R233). -/
def execCvtLuD (r : BitVec 2) (w : Bool) (d a : Reg) (s : State) : Result := float1 (fun x => intCode (fToInt fp64 (roundingOf r) 0 (2 ^ 64 - 1) x)) w d a s

/-- `cvtDS`, exact (R233). -/
def execCvtDS (w : Bool) (d a : Reg) (s : State) : Result := float1 (fConvert fp32 fp64 .rne) w d a s

/-- `cvtSH`, exact (R233). -/
def execCvtSH (w : Bool) (d a : Reg) (s : State) : Result := float1 (fConvert fp16 fp32 .rne) w d a s

/-- `cvtSBf`, exact (R233). -/
def execCvtSBf (w : Bool) (d a : Reg) (s : State) : Result := float1 (fConvert bf16 fp32 .rne) w d a s

/-! ## Special functions (R185, R239) -/

/-- An octet's unit (R6, R185). -/
def octetOf (core : Nat) : Nat := core / 8

/-- An SFU word takes a credit and carries its operand and tag to the unit; its destination is empty until the result returns, unless
it is `g0` (R70, R185). -/
def sfuWord (fn : Nat) (w : Bool) (d a : Reg) (s : State) : Result :=
  settle (check { srcs := [a], dst := some d, w := w }
      (fun _ k _ => if 8 ≤ k.sfuUsed then .park .credit else .go) s)
    (fun s =>
      let core := coreOf (me s)
      let x := (src s a).setWidth 32
      let (i, s) := takeId s
      let o := amGetD {} s.octets (octetOf core)
      let r : SfuReq := { id := i, ctx := me s, rd := d, fn := fn, x := x, accepted := false }
      let s := { s with octets := amSet s.octets (octetOf core) { o with reqs := o.reqs ++ [r] } }
      let s := modCore s core fun k => { k with sfuUsed := k.sfuUsed + 1 }
      retire (emptyReg s (me s) d)) s

/-- `sfuExp2` (R239). -/
def execSfuExp2 (w : Bool) (d a : Reg) (s : State) : Result := sfuWord 0 w d a s

/-- `sfuLog2` (R239). -/
def execSfuLog2 (w : Bool) (d a : Reg) (s : State) : Result := sfuWord 1 w d a s

/-- `sfuRcp` (R239). -/
def execSfuRcp (w : Bool) (d a : Reg) (s : State) : Result := sfuWord 2 w d a s

/-- `sfuRsq` (R239). -/
def execSfuRsq (w : Bool) (d a : Reg) (s : State) : Result := sfuWord 3 w d a s

/-- `sfuSin` (R239). -/
def execSfuSin (w : Bool) (d a : Reg) (s : State) : Result := sfuWord 4 w d a s

/-- `sfuCos` (R239). -/
def execSfuCos (w : Bool) (d a : Reg) (s : State) : Result := sfuWord 5 w d a s

/-- `sfuTanh` (R239). -/
def execSfuTanh (w : Bool) (d a : Reg) (s : State) : Result := sfuWord 6 w d a s

/-- `sfuSigm` (R239). -/
def execSfuSigm (w : Bool) (d a : Reg) (s : State) : Result := sfuWord 7 w d a s

/-- The positions of an octet in the order the unit looks at them, after the one it served last (R186). -/
def roundRobin (last : Nat) : List Nat := (List.range 8).map fun i => (last + 1 + i) % 8

/-- SFU_ACCEPT (R186): the unit of octet `unit` takes the oldest waiting request of the next position that has one. Nothing happens
while the octet's row is in retention (R321). -/
def execSfuAccept (s : State) : Result :=
  let o := amGetD {} s.octets s.arg.unit
  let waiting := fun p => o.reqs.find? fun r => !r.accepted && coreOf r.ctx % 8 == p
  if coreStopped s (8 * s.arg.unit) && (getRow s (s.arg.unit / 2)).point = 0 then .next s
  else match (roundRobin o.last).findSome? fun p => (waiting p).map fun r => (p, r.id) with
    | none => .next s
    | some (p, i) =>
      let o' : Octet := { last := p, reqs := updWhere (fun r => r.id == i) (fun r => { r with accepted := true }) o.reqs }
      .next { s with octets := amSet s.octets s.arg.unit o' }

/-! ## The code table (R241) -/

/-- `ctab` (R241): the 16 bytes are read at issue, as one scratchpad read. -/
def execCtab (w : Bool) (a : Reg) (s : State) : Result :=
  settle (check { srcs := [a], w := w, mem := true } (fun s k _ =>
      let x := src s a
      if fld 0 4 x != 0 then .trap .misalign x
      else if windowBase k < x.toNat + 16 then .trap .prot x
      else .go) s)
    (fun s =>
      let x := (src s a).toNat
      done (modCore s (coreOf (me s)) fun k => { k with ctab := some x, ctabBytes := spRead k x 16 })) s

end Sys2Proof.Machine
end

