-- ==== Sys2Proof/Machine/Streams.lean ====
section
/-! DEFINITION. Stream ports: binding a register, and the stream unit's pops and pushes (R242 to R247). -/

namespace Sys2Proof.Machine

/-! ## Bindings -/

/-- The checks of R243 after those of R244. -/
def bindVerdict (d : Reg) (va : Word) (s : State) (k : Core) (c : Ctx) : Verdict :=
  let f (i : Nat) : Bool := c.smap.getLsbD (8 * i + 7)
  if d = 0 || (f 0 && f 1 && f 2 && f 3) then .trap .illop (curWord s)
  else match globalCheck k c va 64 true true with
    | .error v => v
    | .ok p => if (p.home = .cached || p.home = .slice) && p.trail.isNone then .go else .trap .prot va

/-- `smap` with the lowest-numbered invalid field set to a register (R243). -/
def bindField (m : BitVec 32) (d : Reg) : BitVec 32 :=
  let put (i : Nat) : BitVec 32 :=
    (m &&& ~~~((0xFF#32) <<< (8 * i))) ||| (((1#1 ++ d).setWidth 32) <<< (8 * i))
  if !m.getLsbD 7 then put 0 else if !m.getLsbD 15 then put 1 else if !m.getLsbD 23 then put 2 else put 3

/-- `smap` with the field that names a register cleared (R243). -/
def unbindField (m : BitVec 32) (d : Reg) : BitVec 32 :=
  (List.range 4).foldl (fun m i => if m.extractLsb' (8 * i) 8 == 1#1 ++ d then m &&& ~~~((0xFF#32) <<< (8 * i)) else m) m

/-- `sbind` (R243). -/
def sbind (dir : Word) (w : Bool) (d a : Reg) (s : State) : Result :=
  settle (check { srcs := [a], dst := some d, w := w } (fun s k c => bindVerdict d (src s a) s k c) s)
    (fun s =>
      let v := src s a + dir
      done (modCtx (writeReg s (me s) d v) (me s) fun c => { c with smap := bindField c.smap d })) s

/-- `sbind.in` (R243). -/
def execSbindIn (w : Bool) (d a : Reg) (s : State) : Result := sbind 0 w d a s

/-- `sbind.out` (R243). -/
def execSbindOut (w : Bool) (d a : Reg) (s : State) : Result := sbind 1 w d a s

/-- `sunbind` (R243): the one word outside R244 that may name a bound register. -/
def execSunbind (d : Reg) (s : State) : Result :=
  settle (check { srcs := [] } (fun s _ c => if c.size ≤ d.toNat then .trap .allot (curWord s) else .go) s)
    (fun s => done (modCtx s (me s) fun c => { c with smap := unbindField c.smap d })) s

/-! ## The stream unit (R245) -/

/-- The words of a descriptor as they stand at its home. -/
structure Desc where
  n : Nat
  base : Word
  head : Word
  tail : Word
  deriving DecidableEq, Repr

def readDesc (s : State) (p : Page) (d : Word) : Desc :=
  let w := fun (o : Word) => word (leNat (readHome s (p.loc (d + o)) 8 0 p))
  { n := 2 ^ fld 60 4 (w 0), base := baseOf 6 (w 0), head := w 0x40, tail := w 0x80 }

/-- Address of an element (R242). -/
def Desc.elem (x : Desc) (i : Word) : Word := sext48 (x.base + word (8 * (i.toNat % x.n)))

/-- The unit's answer to a port operation. -/
def answerPort (s : State) (id : Nat) (v : Word) (cause : Option Cause) (tval : Word) : State :=
  { s with ports := updWhere (fun o => o.id == id) (fun o => { o with answered := true, value := v, cause := cause, tval := tval }) s.ports }

/-- The operation comes to the unit that holds its descriptor line: a pop at once, a push once its release is met (R245, R246). -/
def arriveAtUnit (s : State) (o : PortOp) : State :=
  if o.arrived.isNone && (!o.push || fenceMet s o.ctx 2 o.upto) then
    let (i, s) := takeId s
    { s with ports := updWhere (fun x => x.id == o.id) (fun x => { x with arrived := some i }) s.ports }
  else s

/-- No operation of the same kind on the same descriptor that arrived at the unit earlier waits there (R245). -/
def firstInLine (s : State) (o : PortOp) : Bool :=
  match o.arrived with
  | none => false
  | some i => !(s.ports.any fun x => x.push == o.push && x.page.loc x.desc == o.page.loc o.desc && !x.answered &&
      (match x.arrived with | some j => decide (j < i) | none => false))

/-- The page of an element, or the record that its missing translation makes (R245). -/
def elemPage (s : State) (o : PortOp) (a : Word) : Option Page × State :=
  let t := (slotOfVmid s o.page.vmid).getD 0
  match translate s t a with
  | (.ok p, s) => (some p, s)
  | (.error e, s) =>
    let r : Report := nodeWords s t ((getCtx s o.ctx).bind (·.node))
      { kind := .streamUnit, cause := .pfault, wr := o.push, addr := a, who := word o.ctx, vmid := some o.page.vmid,
        waiter := some (.stream o.id) }
    let (tok, s) := match e with
      | .stage1 => report s (.tenant t) r
      | .stage2 g => report s .hyp { r with stage2 := true, addr := word g }
    (none, { s with ports := updWhere (fun x => x.id == o.id) (fun x => { x with token := tok }) s.ports })

def elemOk (p : Page) : Bool := p.rd && p.wr && (p.home = .cached || p.home = .slice) && p.trail.isNone

/-- The descriptor and an element may be accessed now. -/
def portReady (s : State) (o : PortOp) : Bool :=
  let die := dieOf (coreOf o.ctx)
  mayAccess s die (o.page.loc o.desc) o.page 192 none true && o.token.isNone && !o.answered

/-- A pop, if its ring has an element (R245). -/
def popStep (s : State) (o : PortOp) : State :=
  let die := dieOf (coreOf o.ctx)
  let s := touch s die (o.page.loc o.desc) o.page .write 64
  let d := readDesc s o.page o.desc
  if d.tail - d.head = 0 then (if o.w then answerPort s o.id 0 (some .empty) o.desc else s)
  else
    let a := d.elem d.head
    match elemPage s o a with
    | (none, s) => s
    | (some p, s) =>
      if !elemOk p then answerPort s o.id 0 (some .prot) a
      else if !mayAccess s die (p.loc a) p 8 none false then countHold s die (p.loc a) p 8
      else
        let s := touch s die (p.loc a) p .read 8
        let bad := poisonedAt s (p.loc a) 8
        let v := if bad then 0 else word (leNat (readHome s (p.loc a) 8 0 p))
        let s := writeHome s (o.page.loc (o.desc + 0x40)) (leBytes 8 (d.head + 1).toNat) o.page
        let s := if bad then pendTrap s o.ctx .poison a else s
        answerPort s o.id v none 0

/-- A push, if its ring has room (R245). -/
def pushStep (s : State) (o : PortOp) : State :=
  let die := dieOf (coreOf o.ctx)
  let s := touch s die (o.page.loc o.desc) o.page .write 64
  let d := readDesc s o.page o.desc
  if d.n ≤ (d.tail - d.head).toNat then s
  else
    let a := d.elem d.tail
    match elemPage s o a with
    | (none, s) => s
    | (some p, s) =>
      if !elemOk p then answerPort s o.id 0 (some .prot) a
      else if !mayAccess s die (p.loc a) p 8 none true then countHold s die (p.loc a) p 8
      else
        let s := unpoison (writeHome (touch s die (p.loc a) p .write 8) (p.loc a) (leBytes 8 o.v.toNat) p) (p.loc a) 8
        let s := writeHome s (o.page.loc (o.desc + 0x80)) (leBytes 8 (d.tail + 1).toNat) o.page
        answerPort s o.id 0 none 0

/-- An answer reaches its context: a pop's word executes at once with the element, a push's word is over, a trap is taken at the word
(R244, R245). -/
def portAnswered (s : State) (o : PortOp) : State :=
  let s := { s with ports := s.ports.filter fun x => x.id != o.id }
  match getCtx s o.ctx with
  | none => s
  | some c =>
    match c.status with
    | .held (.push _ i) =>
      if i != o.id then s
      else match o.cause with
        | none => rewake (wake (setFlags c.heldFlags o.ctx s) o.ctx) (coreOf o.ctx)
        | some x => trapHeld s o.ctx x o.tval
    | .held (.pop _ i) =>
      if i != o.id then s
      else
        let s := setCtx s o.ctx { c with status := .ready, popped := if o.cause.isNone then some o.value else none,
                                         portTrap := o.cause.map fun x => (x, o.tval) }
        let s := match o.dst with | some r => setFull s o.ctx r true | none => s
        if c.stream || c.benched then s
        else { s with issuing := s.issuing ++
          [{ lane := .barrel (coreOf o.ctx) (slotOf o.ctx) [], probe := false, word := none, pc := c.pc, rep := none }] }
    | _ => s

/-- One step of a port operation at its unit, and its answer. -/
def portStep (s : State) (push : Bool) (id : Nat) : State :=
  match s.ports.find? fun o => o.id == id && o.push == push with
  | none => s
  | some o =>
    if o.answered then portAnswered s o
    else
      let s := arriveAtUnit s o
      match s.ports.find? fun x => x.id == id with
      | none => s
      | some o =>
        if portReady s o && firstInLine s o then
          let s := if push then pushStep s o else popStep s o
          match s.ports.find? fun x => x.id == id with
          | some o => if o.answered then portAnswered s o else s
          | none => s
        else countHold s (dieOf (coreOf o.ctx)) (o.page.loc o.desc) o.page 64

/-- STREAM_POP (R245): `id` is the operation. -/
def execStreamPop (s : State) : Result := .next (portStep s false s.arg.id)

/-- STREAM_PUSH (R245, R246): `id` is the operation. -/
def execStreamPush (s : State) : Result := .next (portStep s true s.arg.id)

end Sys2Proof.Machine
end

