-- ==== Sys2Proof/Machine/Threads.lean ====
section
/-! DEFINITION. Threads, groups and graph signals (R117 to R128, R178, R179), `tick` (R161), and the events that let a held context go on. -/

namespace Sys2Proof.Machine

/-! ## Where a thread goes (R178) -/

/-- The home core of an address on a page, for a requester of a die; none in a peer window. -/
def homeCoreOf (p : Page) (die : Nat) (a : Word) : Option Nat :=
  match p.out with
  | .remote .. | .host _ => none
  | .window c _ => some c
  | _ => some (die * 1024 + fld 6 6 a * 16 + fld 12 4 a)

/-- The checks of R118 and R119 on the address: canonical, translated, readable, with a home core. -/
def placeVerdict (a : Word) (s : State) (k : Core) (c : Ctx) : Verdict :=
  if !canonical a then .trap .prot a
  else match pageCheck k c a true false with
    | .error v => v
    | .ok p => if (homeCoreOf p (dieOf (coreOf (me s))) a).isNone then .trap .prot a else .go

/-- The home core of an address that has passed its checks. -/
def placeCore (a : Word) (s : State) : Nat :=
  match curCtx s with
  | none => 0
  | some c => ((pageEntry (my s) c.vmid a).bind fun p => homeCoreOf p (dieOf (coreOf (me s))) a).getD 0

/-! ## What waits for its order duty (R117, R161) -/

/-- The continuation that `spawn` or `go` sends. -/
def contFrom (c : Ctx) (ws : List Word) : Cont :=
  { words := ws, vmid := c.vmid, tslot := c.tslot, node := c.node, dclass := c.dclass, tvec := none, tcause := 0 }

/-- The duty of a thread or group word, or of a `tick`, is met. -/
def owedMet (s : State) (cid : Nat) (w : Owed) (upto : Nat) : Bool :=
  match w with
  | .tick _ => !owesBefore s cid upto
  | .go .. => fenceMet s cid 2 upto && nothingOwed s cid
  | _ => fenceMet s cid 2 upto

/-- A continuation leaves a context, which holds for its answer (R117). -/
def sendFlight (s : State) (cid : Nat) (c : Ctx) (isGo : Bool) (core : Nat) (a : Word) (ws : List Word) (hold : Nat → Hold) : State :=
  let (i, s) := takeId s
  let f : Flight := { id := i, core := core, cont := contFrom c ws, sender := .ctx cid, isGo := isGo, addr := a }
  setCtx { s with flights := s.flights ++ [f] } cid { c with status := .held (hold i) }

/-- An arrival at a group (R126). -/
def arriveBar (s : State) (cid : Nat) (c : Ctx) (rd : Reg) (h : Nat) : State :=
  let g := getGroup s c.tslot h
  if g.members = 0 then setCtx s cid { c with status := .held (.answer rd (allOnes 64)) }
  else
    let s := setCtx s cid { c with status := .held (.bar rd h) }
    settlePhase (setGroup s c.tslot h { g with arrived := g.arrived + 1 }) c.tslot h

/-- A request at a field's tick unit; a field that is no longer enabled traps (R161). -/
def placeTick (s : State) (cid : Nat) (c : Ctx) (x : Word) : State :=
  let f := fld 0 6 x
  let d := getField s c.tslot f
  if !d.open_ || d.src then trapHeld s cid .tfield x
  else
    let s := modField s c.tslot f fun d => { d with queue := d.queue ++ [cid] }
    setCtx s cid { c with status := .held (.tick f) }

/-- What was owed is carried out once its duty is met. A benched context does not arrive at a group (R127). -/
def tryOwed (s : State) (cid : Nat) : State :=
  match getCtx s cid with
  | none => s
  | some c =>
    match c.status with
    | .held (.owe w upto) =>
      if !owedMet s cid w upto then s
      else match w with
        | .spawn rd core a ws => sendFlight s cid c false core a ws (.spawn rd)
        | .go core a ws => sendFlight s cid c true core a ws .go
        | .bar rd h => if c.benched then s else arriveBar s cid c rd h
        | .tsig n => setCtx s cid { c with status := .held (.tsig n) }
        | .tick x => placeTick s cid c x
    | _ => s

/-- The current word issues and owes `w`. -/
def owe (w : Owed) (s : State) : State :=
  let upto := s.nextId
  tryOwed (holdNow (.owe w upto) s) (me s)

/-! ## `spawn` and `go` (R118, R119) -/

/-- The registers `g[H]` to `g[H+4]`, as far as registers go. -/
def fiveFrom (h : Reg) : List Reg := ((List.range 5).filter fun i => decide (h.toNat + i < 128)).map fun i => h + BitVec.ofNat 7 i

/-- The record of a `spawn` (R118). -/
def spawnWords (s : State) (h : Reg) (c : Ctx) : List Word :=
  let w0 := src s h
  let w0 := putFld 48 5 (min (min (fld 48 5 w0) 23) c.prio.toNat) (putFld 57 7 0 w0)
  [w0] ++ ((fiveFrom h).drop 1).map (src s) ++ [0, 0, 0]

/-- `spawn` (R118). -/
def execSpawn (w : Bool) (d a b : Reg) (s : State) : Result :=
  settle (check { srcs := a :: fiveFrom b, dst := some d, w := w, top := b.toNat + 4 } (fun s k c => placeVerdict (src s a) s k c) s)
    (fun s => match curCtx s with
      | none => s
      | some c => owe (.spawn d (placeCore (src s a) s) (src s a) (spawnWords s b c)) s) s

/-- The record of a `go` (R119). -/
def goWords (s : State) (c : Ctx) : List Word :=
  let w0 := putFld 53 4 (c.size / 8 - 1) (putFld 48 5 c.prio.toNat ((s.cur.pc + 4).extractLsb' 0 48 |>.setWidth 64))
  [w0] ++ (List.range 7).map fun i => src s (BitVec.ofNat 7 (i + 1))

/-- A stream port is bound (R119). -/
def anyBound (m : BitVec 32) : Bool := m.getLsbD 7 || m.getLsbD 15 || m.getLsbD 23 || m.getLsbD 31

/-- `go` (R119): a bound port is ILLOP, before any other check of the word. -/
def execGo (w : Bool) (a : Reg) (s : State) : Result :=
  let own := fun (s : State) (k : Core) (c : Ctx) =>
    if !noMatrix s (me s) then Verdict.park .queue
    else match placeVerdict (src s a) s k c with
      | .go => if grantOf s c.tslot (placeCore (src s a) s) = 0 then .trap .prot (src s a) else .go
      | v => v
  let regs : List Reg := [1, 2, 3, 4, 5, 6, 7]
  let v := match curCtx s with
    | some c => if anyBound c.smap then .trap .illop (curWord s) else check { srcs := a :: regs, w := w } own s
    | none => .go
  settle v (fun s => match curCtx s with
    | none => s
    | some c => owe (.go (placeCore (src s a) s) (src s a) (goWords s c)) s) s

/-! ## `quit`, `yield` and `park` (R120 to R122) -/

/-- A context that ends may go: its results have returned, its matrix commands are complete, and its release is met (R120). -/
def mayEnd (s : State) (cid upto : Nat) : Bool := nothingOwed s cid && noMatrix s cid && fenceMet s cid 2 upto

/-- A held end is carried out once it may be. -/
def tryEnd (s : State) (cid : Nat) : State :=
  match getCtx s cid with
  | none => s
  | some c =>
    match c.status with
    | .held (.quit upto) => if mayEnd s cid upto then endCtx s cid else s
    | _ => s

/-- `quit` (R120). -/
def execQuit (s : State) : Result :=
  settle (check { srcs := [] } plain s)
    (fun s => tryEnd (holdNow (.quit s.nextId) s) (me s)) s

/-- `yield` (R121). -/
def execYield (s : State) : Result :=
  settle (check { srcs := [] } plain s) (fun s => done (modCtx s (me s) fun c => { c with yields := 1 })) s

/-- The checks of `park`: those of R110 with read rights only (R122). -/
def parkVerdict (s : State) (va : Word) (k : Core) (c : Ctx) : Verdict :=
  match globalCheck k c va 8 true false with
  | .error v => v
  | .ok p =>
    if p.trail.isSome then .trap .tfield va
    else sourceVerdict s (loadSource k c p va 8 false)

/-- A line is watched from the read on (R122). -/
def watchLine (s : State) (cid : Nat) (l : Loc) : State :=
  { s with watches := s.watches.filter (fun w => w.ctx != cid) ++ [{ ctx := cid, line := l.line, written := false }] }

/-- `park` reads its word, and holds unless the word differs already (R122). -/
def parkEffect (va want : Word) (s : State) : State :=
  match curCtx s with
  | none => s
  | some c =>
    match pageEntry (my s) c.vmid va with
    | none => s
    | some p =>
      match loadSource (my s) c p va 8 false with
      | .value v => if v != want then retire s else holdNow (.park none (p.loc va)) (watchLine s (me s) (p.loc va))
      | _ =>
        let r := request s c (.parkRead want) va 8 p 0 []
        let (i, s) := takeId s
        holdNow (.park (some i) (p.loc va)) { s with reqs := s.reqs ++ [r] }

/-- `park` (R122). -/
def execPark (w : Bool) (a b : Reg) (s : State) : Result :=
  settle (check { srcs := [a, b], w := w, mem := true } (fun s k c => parkVerdict s (src s a) k c) s)
    (fun s => parkEffect (src s a) (src s b) s) s

/-- A `park` that watches its line completes. -/
def endPark (s : State) (cid : Nat) : State :=
  match getCtx s cid with
  | none => s
  | some c =>
    match c.status with
    | .held (.park none _) => wake { s with watches := s.watches.filter fun w => w.ctx != cid } cid
    | _ => s

/-- The read of a `park` has returned: the word differs, or the line is watched (R122). -/
def parkReturned (s : State) (r : Req) (want : Word) : State :=
  match getCtx s r.ctx with
  | none => s
  | some c =>
    match c.status with
    | .held (.park (some i) l) =>
      if i != r.id then s
      else
        let s := setCtx s r.ctx { c with status := .held (.park none l) }
        if r.poison then pendTrap (endPark s r.ctx) r.ctx .poison r.va
        else if r.rlink then pendTrap (endPark s r.ctx) r.ctx .rlink r.va
        else if r.value != want then endPark s r.ctx else s
    | _ => s

/-- PARK_WAKE (R122): `id` is a context whose watched line has been written. -/
def execParkWake (s : State) : Result :=
  .next (if s.watches.any fun w => w.ctx == s.arg.id && w.written then endPark s s.arg.id else s)

/-- PARK_TIMEOUT (R122): 65,536 cycles have passed for context `id`. -/
def execParkTimeout (s : State) : Result := .next (endPark s s.arg.id)

/-- PARK_EARLY_COMPLETE (R122): a `park` may complete earlier. -/
def execParkEarlyComplete (s : State) : Result := .next (endPark s s.arg.id)

/-! ## Groups (R123 to R126) -/

/-- The handle of `g[ra]`, or the trap of R123. -/
def groupVerdict (x : Word) (attach : Bool) : Verdict := if fld 12 51 x != 0 || (!attach && bit 63 x) then .trap .prot x else .go

def handleOf (x : Word) : Nat := fld 0 12 x

/-- A `join` (R124): its answer and its effect. -/
def joinGroup (s : State) (cid : Nat) (x : Word) : Word × State :=
  match getCtx s cid with
  | none => (1, s)
  | some c =>
    let h := handleOf x
    let g := getGroup s c.tslot h
    if c.grp.isSome then (1, s)
    else if bit 63 x then (0, setCtx s cid { c with grp := some (BitVec.ofNat 16 h) })
    else if g.members = allOnes 32 then (2, s)
    else (0, setGroup (setCtx s cid { c with grp := some (BitVec.ofNat 16 h) }) c.tslot h { g with members := g.members + 1 })

/-- A `leave` (R125). -/
def leaveWord (s : State) (cid : Nat) (x : Word) : Word × State :=
  match getCtx s cid with
  | none => (1, s)
  | some c =>
    let h := handleOf x
    if (getGroup s c.tslot h).members = 0 then (1, s)
    else (0, leaveGroup (setCtx s cid { c with grp := if c.grp = some (BitVec.ofNat 16 h) then none else c.grp }) c.tslot h)

/-- `join` (R124): applied, and held for its answer (R117, R168). -/
def execJoin (w : Bool) (d a : Reg) (s : State) : Result :=
  settle (check { srcs := [a], dst := some d, w := w } (fun s _ _ => groupVerdict (src s a) true) s)
    (fun s => let (v, s) := joinGroup s (me s) (src s a); holdNow (.answer d v) s) s

/-- `leave` (R125): applied, and held for its answer (R117, R168). -/
def execLeave (w : Bool) (d a : Reg) (s : State) : Result :=
  settle (check { srcs := [a], dst := some d, w := w } (fun s _ _ => groupVerdict (src s a) false) s)
    (fun s => let (v, s) := leaveWord s (me s) (src s a); holdNow (.answer d v) s) s

/-- `bar` (R126): it arrives once its release is met (R117). -/
def execBar (w : Bool) (d a : Reg) (s : State) : Result :=
  settle (check { srcs := [a], dst := some d, w := w } (fun s _ _ => groupVerdict (src s a) false) s)
    (fun s => owe (.bar d (handleOf (src s a))) s) s

/-! ## Graph signals and ticks (R128, R161) -/

/-- `tsig` (R128): sent once its release is met. -/
def execTsig (w : Bool) (a : Reg) (s : State) : Result :=
  settle (check { srcs := [a], w := w } (fun s _ _ => if fld 10 54 (src s a) != 0 then .trap .prot (src s a) else .go) s)
    (fun s => owe (.tsig (src s a)) s) s

/-- `tick` (R161). -/
def execTick (w : Bool) (a : Reg) (s : State) : Result :=
  settle (check { srcs := [a], w := w } (fun s _ c =>
      let f := getField s c.tslot (fld 0 6 (src s a))
      if !f.open_ || f.src then .trap .tfield (src s a) else .go) s)
    (fun s => owe (.tick (src s a)) s) s

/-! ## Answers (R117 to R119) -/

/-- The flight of an id. -/
def flightOf (s : State) (i : Nat) : Option Flight := s.flights.find? fun f => f.id == i

def dropFlight (s : State) (i : Nat) : State := { s with flights := s.flights.filter fun f => f.id != i }

/-- A `go` was delivered: the context leaves its slot; its thread lives on in the new one (R119, R323). -/
def leaveSlot (s : State) (cid : Nat) : State := removeCtx (closeStep s cid) cid

/-- The answer of a held thread or group word reaches its context (R117 to R119, R128). -/
def answerHeld (s : State) (cid : Nat) : State :=
  match getCtx s cid with
  | none => s
  | some c =>
    match c.status with
    | .held (.answer rd v) => wake (writeReg s cid rd v) cid
    | .held (.tsigDone none _) => wake s cid
    | .held (.tsigDone (some x) tval) => trapHeld s cid x tval
    | .held (.spawn rd i) =>
      (match flightOf s i with
        | some f => match f.answer with
          | some (.status n) => wake (writeReg (dropFlight s i) cid rd (word n)) cid
          | some .noRoom | some .spawnq => trapHeld (dropFlight s i) cid .spawnq f.addr
          | some .prot => trapHeld (dropFlight s i) cid .prot f.addr
          | none => s
        | none => s)
    | .held (.go i) =>
      (match flightOf s i with
        | some f => match f.answer with
          | some (.status _) => leaveSlot (dropFlight s i) cid
          | some .noRoom | some .spawnq => trapHeld (dropFlight s i) cid .spawnq f.addr
          | some .prot => trapHeld (dropFlight s i) cid .prot f.addr
          | none => s
        | none => s)
    | _ => s

/-- HELD_ANSWER (R117): `id` is a context whose answer has come back. -/
def execHeldAnswer (s : State) : Result := .next (answerHeld s s.arg.id)

/-! ## Arrival (R118, R179) -/

/-- The thread quota of a node is reached (R118, R167). -/
def quotaReached (s : State) (t : Nat) (n : Option NodeRef) : Bool :=
  match gnodeOf s t n, nodeState s t n with
  | some g, some x => g.kind == 1 && decide (fld 32 32 (g.word 1) ≤ x.live)
  | _, _ => false

/-- The answer of the port: the grant, then the quota, and then `Deliver` (R118). -/
def arrive (s : State) (f : Flight) : Answer × State :=
  let spawned := match f.sender with | .ctx _ => !f.isGo | _ => false
  let risk := match f.sender with | .risk _ => true | _ => false
  if !risk && grantOf s f.cont.tslot f.core = 0 then (if f.isGo then .prot else .status 3, s)
  else if spawned && quotaReached s f.cont.tslot f.cont.node then (.status 2, s)
  else
    let (a, s) := deliver s f.core f.cont
    match a, f.sender with
    | .status _, .ctx _ => (a, if spawned then countNode s f.cont.tslot f.cont.node true else s)
    | .status _, .node .. => (a, countNode s f.cont.tslot f.cont.node true)
    | _, _ => (a, s)

/-- An initial thread that cannot be placed: its record, and the launch fails with cause 8 (R273, R289). -/
def unplaced (s : State) (t : Nat) (n : NodeRef) (a : Word) : State :=
  let s := (report s (.tenant t) (nodeWords s t (some n) { kind := .dispatcher, cause := .prot, addr := a, tval := 8 })).2
  failLaunch s t (some n) 8 .prot false

/-- What the sender of an arrival learns: a context waits for the answer, the dispatcher counts the thread (R273), the governor writes a
record (R326), and a Trailhead flow counts a refusal (R365). -/
def tellSender (s : State) (f : Flight) (a : Answer) : State :=
  match f.sender with
  | .ctx _ => { s with flights := updWhere (fun x => x.id == f.id) (fun x => { x with answer := some a }) s.flights }
  | .node l n =>
    let s := modNode (dropFlight s f.id) f.cont.tslot ⟨l, n⟩ fun x => { x with delivered := x.delivered + 1 }
    match a with
    | .status 0 | .status 1 => s
    | _ => unplaced s f.cont.tslot ⟨l, n⟩ f.addr
  | .risk _ =>
    let s := dropFlight s f.id
    match a with
    | .noRoom => (report s (.tenant f.cont.tslot) { kind := .context, cause := .drisk, pc := f.cont.pc, tval := f.cont.words.getD 1 0 }).2
    | _ => s
  | .flow p i =>
    let s := dropFlight s f.id
    match a with
    | .noRoom =>
      let bump := fun (q : Port) =>
        let x : Flow := amGetD {} q.flows i
        { q with flows := amSet q.flows i { x with noarr := x.noarr + 1 } }
      if p = 0 then { s with trail0 := bump s.trail0 } else { s with trail1 := bump s.trail1 }
    | _ => s

/-- The arrivals of one Trailhead flow are delivered in the order of its frames (R366). -/
def firstOfFlow (s : State) (f : Flight) : Bool :=
  match f.sender with
  | .flow .. => (match s.flights.find? fun x => x.sender == f.sender with | some x => x.id == f.id | none => false)
  | _ => true

/-- ARRIVAL_DELIVER (R179): `id` is the continuation that its core's port takes. -/
def execArrivalDeliver (s : State) : Result :=
  match flightOf s s.arg.id with
  | none => .next s
  | some f =>
    if f.answer.isSome || !firstOfFlow s f then .next s
    else
      let (a, s) := arrive s f
      .next (tellSender s f a)

/-! ## Order duties met (R105, R115, R117, R359) -/

/-- A completed `fence.dom` whose covered stores a failed device dropped writes one record for each context of its core that such a store
is of (R115, R359). -/
def fenceRecord (s : State) (cid : Nat) (d : Duty) : State :=
  match d with
  | .fence 3 upto pc =>
    match getCtx s cid with
    | none => s
    | some c =>
      let lost := (s.dropped.filter fun x => coreOf x.ctx == coreOf cid && decide (c.domSeen ≤ x.id) && decide (x.id < upto)).map (·.ctx)
      lost.eraseDups.foldl (fun s i =>
        let t := match getCtx s i with | some x => x.tslot | none => c.tslot
        (report s (.tenant t) { kind := .remote, cause := .rlink, pc := pc, who := word i }).2) (setCtx s cid { c with domSeen := upto })
  | _ => s

/-- Duties that are met leave the context, which may issue on. -/
def meetDuties (s : State) (cid : Nat) : State :=
  match getCtx s cid with
  | none => s
  | some c =>
    let met := c.duties.filter fun d => dutyMet s cid d
    if met = [] then s
    else
      let s := setCtx s cid { c with duties := c.duties.filter fun d => !dutyMet s cid d }
      rewake (met.foldl (fun s d => fenceRecord s cid d) s) (coreOf cid)

/-- DUTY_MET (R105, R115, R117): `id` is a context that an order duty, a release or the end of its results lets go on. -/
def execDutyMet (s : State) : Result :=
  let cid := s.arg.id
  .next (tryEnd (tryOwed (meetDuties s cid) cid) cid)

end Sys2Proof.Machine
end

