-- ==== Sys2Proof/Machine/Requests.lean ====
section
/-! DEFINITION. Requests at their home units, the store buffer's drain, results on their way back, page-check misses and walks, and the
fault ring's HEAD and RESOLVE words (R70, R90 to R96, R105, R111, R129 to R137, R300 to R308, R343 to R346, R370). -/

namespace Sys2Proof.Machine

/-! ## What a firmware switch holds (R353) -/

/-- A store or a request that the new firmware serves: held during a switch. -/
def unlessSwitching (s : State) (ev : Instr) (f : State → State) : State :=
  if s.fw.switching then { s with fw := { s.fw with heldStores := s.fw.heldStores ++ [{ dt := 0, ev := ev, arg := s.arg }] } } else f s

/-! ## Performing an operation (R111, R112, R144, R159) -/

/-- What a home unit answers. -/
structure Answered where
  value : Word := 0
  poison : Bool := false
  line : List Byte := []
  deriving DecidableEq, Repr

/-- The 64 bytes of a line, as its page reads them. -/
def lineBytes (s : State) (l : Loc) (p : Page) : List Byte :=
  match l with
  | .hbm a => hbmBytes s p.key (a / 64 * 64) 64
  | _ => []

/-- Whether the operation reads data that poison makes unusable: for `sense`, of the words that its mask does not exclude (R94, R160). -/
def readsPoison (s : State) (l : Loc) (n : Nat) (op : ReqOp) : Bool :=
  match op with
  | .store _ | .amos => false
  | .sense _ mask => (List.range 16).any fun i => !mask.getLsbD i && poisonedAt s (l.add (4 * i)) 4
  | _ => poisonedAt s l n

/-- An atomic at its home; a peer or the host performs its own, and `old` is what it answers (R111, R112, R354). -/
def performAmo (s : State) (l : Loc) (n fn : Nat) (old b c : Word) (p : Page) : State :=
  match l with
  | .remote .. | .host _ => { s with out := s.out ++ [.atomic l n fn b c p.vmid] }
  | _ => if amoWrites fn old c then unpoison (writeHome s l (leBytes n (amoNew fn old b c)) p) l n else s

/-- The operation at its home: the answer and what it leaves. `ext` is what a place outside the package answers. -/
def performOp (s : State) (die t : Nat) (l : Loc) (op : ReqOp) (n : Nat) (ext : Word) (p : Page) : Answered × State :=
  let old := word (leNat (readHome s l n ext p))
  let count := fun (f : BitVec 6) => (getField s t f.toNat).at_ (sliceOf die l)
  if readsPoison s l n op then ({ poison := true }, s)
  else match op with
    | .load z fill => ({ value := extend z old, line := if fill then lineBytes s l p else [] }, s)
    | .parkRead _ => ({ value := old }, s)
    | .store v => ({}, unpoison (writeHome s l (leBytes n v.toNat) p) l n)
    | .amo fn b c => ({ value := old }, performAmo s l n fn old b c p)
    | .dep mx f b =>
      let w := deposited mx (getField s t f.toNat).num.toNat (count f) (old.setWidth 32) b
      ({}, writeHome s l (leBytes 4 w.toNat) p)
    | .peek f => ({ value := word (faded (getField s t f.toNat).num.toNat (count f) (old.setWidth 32)) }, s)
    | .sense f mask =>
      let ws := (List.range 16).map fun i => BitVec.ofNat 32 (leNat (readHome s (l.add (4 * i)) 4 0 p))
      ({ value := senseWord (strongest (getField s t f.toNat).num.toNat (count f) mask ws) }, s)
    | .amos => ({}, s)

/-- What an operation is to its slice and channel (R343). -/
def opAcc (op : ReqOp) : Acc :=
  match op with
  | .store _ => .write
  | .amo .. | .dep .. => .amo
  | .peek _ | .sense .. => .mark
  | _ => .read

/-! ## SLICE_REQUEST (R111, R130, R370) -/

def isStore (op : ReqOp) : Bool := match op with | .store _ => true | _ => false

def isPlainLoad (op : ReqOp) : Bool := match op with | .load .. => true | _ => false

/-- Of two accesses of a context the later waits for the earlier to be performed (R130): where both touch a byte, and else unless one
leaves the package (R355) or both are loads, whose order no other die sees (R131; log entry 8). -/
def mustPrecede (s : State) (x : Req) (plain : Bool) (l : Loc) (n : Nat) : Bool :=
  x.loc.meets x.size l n || !(leavesPackage s x.loc || leavesPackage s l || (plain && isPlainLoad x.op))

/-- An earlier load, atomic or mark operation of the context comes before an access of `n` bytes and is not performed (R130). -/
def olderPending (s : State) (ctx id : Nat) (plain : Bool) (l : Loc) (n : Nat) : Bool :=
  s.reqs.any fun r => r.ctx == ctx && decide (r.id < id) && !r.done && !isStore r.op && mustPrecede s r plain l n

/-- What an access waits for is over: every store, and every access, that its class names (R105). A deposit has its value once it is
performed (R143), and a `.pkg` duty is none of a store that leaves the package (R355), but for one that touches its bytes. -/
def afterOver (s : State) (r : Req) : Bool :=
  let waits := fun (x : Req) => !(isDeposit x.op && x.done) &&
    !(isStore x.op && leavesPackage s x.loc && !x.loc.meets x.size r.loc r.size)
  !(r.after.any fun i => (s.reqs.any fun x => x.id == i && waits x) || (getCore s (coreOf r.ctx)).sbuf.any fun e => e.id == i)

/-- The drained stores that come before an access: for a store, those that drained before it (R130). -/
def before (s : State) (r : Req) : List Req := if isStore r.op then s.reqs.takeWhile fun x => x.id != r.id else s.reqs

/-- The tenant slot of a request. -/
def reqSlot (s : State) (r : Req) : Nat := (slotOfVmid s r.vmid).getD 0

/-- The operation writes. -/
def opWrites (op : ReqOp) : Bool := (opAcc op).writes

/-- The access may be performed at its home now (R105, R130, R137): a store passed the overtaken loads when it drained. -/
def reqReady (s : State) (r : Req) : Bool :=
  let die := dieOf (coreOf r.ctx)
  let at_ := match ownPlace s (reqSlot s r) r.loc (opWrites r.op) with | .ok l => l | .error _ => r.loc
  !r.done && r.token.isNone && afterOver s r && (isStore r.op || !olderPending s r.ctx r.id (isPlainLoad r.op) r.loc r.size) &&
  !drainedOver (before s r) die r.loc r.size && !claimed s at_ r.size none &&
  !(opWrites r.op && !isStore r.op && overtakenOver s die r.loc r.size)

/-- A request whose answer has come. -/
def putReq (s : State) (r : Req) (a : Answered) (rlink : Bool) : State :=
  let f := fun (x : Req) => { x with done := true, value := a.value, poison := a.poison, line := a.line, rlink := rlink }
  { s with reqs := updWhere (fun x => x.id == r.id) f s.reqs }

def dropReq (s : State) (id : Nat) : State := { s with reqs := s.reqs.filter fun x => x.id != id }

/-- The earlier loads of the context that a load passes (R131). -/
def passOlder (s : State) (r : Req) : State :=
  if s.reqs.any fun x => x.ctx == r.ctx && decide (x.id < r.id) && !x.done && isPlainLoad x.op then
    { s with reqs := updWhere (fun x => x.ctx == r.ctx && decide (x.id < r.id) && !x.done && isPlainLoad x.op)
                       (fun x => { x with overtaken := true }) s.reqs }
  else s

/-- A request performed at a place: a store is over, a `park` watches its line from here on, anything else is answered. -/
def answerReq (s : State) (r : Req) (l : Loc) (a : Answered) : State :=
  match r.op with
  | .store _ => rewake (dropReq s r.id) (coreOf r.ctx)
  | .parkRead _ => watchLine (putReq s r a false) r.ctx l
  | .load .. => putReq (passOlder s r) r a false
  | _ => putReq s r a false

/-- The request is performed at a place. -/
def performReq (s : State) (r : Req) (l : Loc) (p : Page) (ext : Word) : State :=
  let die := dieOf (coreOf r.ctx)
  let x := performOp (touchLine (!r.admitted) s die l p (opAcc r.op) r.size) die (reqSlot s r) l r.op r.size ext p
  answerReq x.2 r l x.1

/-- The frame that a controller uses for an access: the one that the page was checked with, whose result it may still hold, or the one
that stage 2 gives now (R307). Which is open where they differ (log entry 62). -/
def frameNow (s : State) (t : Nat) (l : Loc) (p : Page) (write : Bool) : (Loc × Page) × State :=
  match l, p.out with
  | .hbm a, .hbm b =>
    (match stage2 s (getTenant s t) (p.gpa + (a - b)) with
      | .error _ => ((l, p), s)
      | .ok x =>
        if x.pa = a && x.key = p.key || 2 ^ 39 ≤ x.pa || x.nr || (write && x.ro) then ((l, p), s)
        else
          let (f, s) := takeFree s
          if f.getLsbD 0 then ((.hbm x.pa, { p with out := .hbm (x.pa - (a - b)), key := x.key }), s) else ((l, p), s))
  | _, _ => ((l, p), s)

/-- A context goes no further than a request whose translation its own device, as the receiver, has not found, until that is resolved
(R354). -/
def stall (s : State) (r : Req) : State :=
  modCtx s r.ctx fun c => match c.status with
    | .held _ | .parked (.page _) => c
    | _ => { c with status := .parked (.page r.id) }
def unstall (s : State) (r : Req) : State :=
  modCtx s r.ctx fun c => if c.status = .parked (.page r.id) then { c with status := .ready } else c

/-- A request that meets a failed device or host (R359). -/
def failReq (s : State) (r : Req) : State :=
  match r.op with
  | .store _ => rewake (dropStore (dropReq s r.id) (reqSlot s r) r.ctx r.id r.va r.loc) (coreOf r.ctx)
  | _ => putReq s r {} true

/-- The request at its home: translated where it names this device, placed in its frame, admitted at its channel and performed (R307, R344,
R354, R355). -/
def serveReq (s : State) (r : Req) (ext : Word) : State :=
  let t := reqSlot s r
  let die := dieOf (coreOf r.ctx)
  if linkDown s r.loc then failReq s r
  else match ownPlace s t r.loc (opWrites r.op) with
    | .error _ =>
      let off := match r.loc with | .remote _ off => off | _ => 0
      let (tok, s) := report s .hyp { kind := .remote, cause := .pfault, stage2 := true, wr := opWrites r.op, addr := word off,
                                      who := word r.ctx, vmid := some r.vmid, waiter := some (.remote r.id) }
      stall { s with reqs := updWhere (fun x => x.id == r.id) (fun x => { x with token := tok }) s.reqs } r
    | .ok l =>
      let ((l, p), s) := frameNow s t l r.page (opWrites r.op)
      if r.admitted || channelFree s die l p r.size then performReq s r l p ext else countHold s die l p r.size

/-- SLICE_REQUEST (R111, R370): `id` is the request; `v` is what a place outside the package answers, with `flag` that its data
is poisoned. -/
def execSliceRequest (s : State) : Result :=
  match s.reqs.find? fun r => r.id == s.arg.id with
  | none => .next s
  | some r =>
    .next (if !reqReady s r then s
    else if leavesPackage s r.loc && s.arg.flag && !isStore r.op && !linkDown s r.loc then putReq s r { poison := true } false
    else serveReq s r s.arg.v)

/-- RATE_LIMIT_ADMIT (R344): `id` is a request that its channel holds; it is admitted once its tenant's count is not negative. -/
def execRateLimitAdmit (s : State) : Result :=
  match s.reqs.find? fun r => r.id == s.arg.id with
  | none => .next s
  | some r =>
    if r.admitted || r.done then .next s
    else match channelUse s (dieOf (coreOf r.ctx)) r.loc r.page r.size with
      | none => .next s
      | some (ch, n) =>
        .next (if !tokensFree s (pageSlot s r.page) ch then countHold s (dieOf (coreOf r.ctx)) r.loc r.page r.size
        else { spend s (pageSlot s r.page) ch n with reqs := updWhere (fun x => x.id == r.id) (fun x => { x with admitted := true }) s.reqs })

/-! ## Results (R70, R94, R185) -/

/-- A line fills the L1 of 256 lines: it takes the place of one of them or of none, which is open but where all are taken (R16, R93; log
entry 34). -/
def fillL1 (s : State) (core : Nat) (r : Req) : State :=
  if r.line.isEmpty then s
  else
    let g := (r.page.gpa + (r.va.toNat - r.page.va.toNat)) / 64
    let others := (getCore s core).l1.filter fun x => !(x.vmid == r.vmid && x.gline == g)
    let (f, s) := takeFree s
    let kept := if others.length < 256 && f.getLsbD 63 then others else others.eraseIdx (f.toNat % others.length)
    modCore s core fun k => { k with l1 := kept ++ [{ vmid := r.vmid, gline := g, bytes := r.line, key := r.page.key }] }

/-- A result reaches its context (R70, R92, R94). -/
def returnReq (s : State) (r : Req) : State :=
  let core := coreOf r.ctx
  let s := dropReq s r.id
  let s := match r.op with
    | .parkRead want => parkReturned s r want
    | .dep .. => s
    | .load _ _ => fillL1 (if (getCtx s r.ctx).isSome then writeReg s r.ctx r.rd r.value else s) core (if r.poison || r.rlink then { r with line := [] } else r)
    | _ => writeReg s r.ctx r.rd r.value
  let s := match r.op with
    | .parkRead _ => s
    | _ => if r.poison then pendTrap s r.ctx .poison r.va else if r.rlink then pendTrap s r.ctx .rlink r.va else s
  rewake s core

/-- A special function's result: its value, its flags, and the credit (R185, R239, R240). -/
def returnSfu (s : State) (octet : Nat) (o : Octet) (r : SfuReq) : State :=
  let core := coreOf r.ctx
  let s := { s with octets := amSet s.octets octet { o with reqs := o.reqs.filter fun x => x.id != r.id } }
  let (v, f) := sfuValue r.fn r.x
  let s := setFlags f r.ctx (writeReg s r.ctx r.rd (word v))
  rewake (modCore s core fun k => { k with sfuUsed := k.sfuUsed - 1 }) core

/-- The oldest request of its core among those an SFU has taken: a core's results return in its issue order (R186). -/
def firstOfCore (o : Octet) (r : SfuReq) : Bool :=
  match o.reqs.find? fun x => coreOf x.ctx == coreOf r.ctx with | some x => x.id == r.id | none => false

/-- RESULT_RETURN (R70, R94, R185, R186): `id` is a performed request or an accepted SFU request. -/
def execResultReturn (s : State) : Result :=
  match s.reqs.find? fun r => r.id == s.arg.id with
  | some r => .next (if r.done then returnReq s r else s)
  | none =>
    match s.octets.findSome? fun e => (e.2.reqs.find? fun r => r.id == s.arg.id && r.accepted).map fun r => (e.1, e.2, r) with
    | some (octet, o, r) => .next (if (getRow s (octet / 2)).point = 0 || !firstOfCore o r then s else returnSfu s octet o r)
    | none => .next s

/-! ## STORE_DRAIN (R17, R95, R105, R137) -/

/-- The duty of a `st.rel` is met: every earlier load and atomic of its context has its value, and every store that entered the buffer
before it is performed at its scope (R105). -/
def releaseMet (s : State) (core : Nat) (e : SbEntry) : Bool :=
  match e.rel with
  | none => true
  | some scope => !owesBefore s e.ctx e.id && (decide (scope.toNat < 2) || !storesOut s core e.id scope)

/-- A performed claim comes after those that were performed before it (R137). -/
def performClaim (s : State) (cmd : Nat) : State :=
  { s with claims := (s.claims.filter fun c => c.cmd != cmd) ++
      ((s.claims.filter fun c => c.cmd == cmd).map fun c => { c with performed := true }) }

/-- A claim may be performed: no earlier access of its context, no drained store and no overtaken load comes before it (R131, R137). -/
def claimReady (s : State) (core : Nat) (e : SbEntry) (lines : List Loc) : Bool :=
  !olderPending s e.ctx e.id false e.loc 1 &&
  !(s.reqs.any fun r => (isStore r.op || (r.overtaken && !r.done && dieOf (coreOf r.ctx) == dieOf core) ||
      (r.ctx == e.ctx && decide (r.id < e.id) && !r.done)) && (linesOf r.loc r.size).any lines.contains)

/-- The head of a store buffer leaves it: a store towards its home, a claim performed there. -/
def drainHead (s : State) (core : Nat) (e : SbEntry) (rest : List SbEntry) : State :=
  let pop := fun (s : State) => modCore s core fun k => { k with sbuf := rest }
  match e.op with
  | .store v =>
    if olderPending s e.ctx e.id false e.loc e.size || !releaseMet s core e || overtakenOver s (dieOf core) e.loc e.size then s
    else
      let r : Req := { id := e.id, ctx := e.ctx, vmid := e.page.vmid, op := .store v, va := e.va, size := e.size, loc := e.loc, page := e.page,
                       rd := 0, pc := e.pc, repc := e.repc, node := e.node }
      rewake (pop { s with reqs := s.reqs ++ [r] }) core
  | .claim cmd =>
    let lines := ((s.claims.find? fun c => c.cmd == cmd).map (·.lines)).getD []
    if claimReady s core e lines then rewake (pop (performClaim s cmd)) core else s

/-- STORE_DRAIN (R17, R95): `unit` is the core. -/
def execStoreDrain (s : State) : Result :=
  match (getCore s s.arg.unit).sbuf with
  | [] => .next s
  | e :: rest => .next (drainHead s s.arg.unit e rest)

/-! ## Page-check misses and walks (R90, R307, R308) -/

/-- The record of a fault that a word, a fetch or a sequencer waits on (R90, R209, R301). -/
def walkReport (s : State) (w : Walk) : Report :=
  let base : Report := { kind := .context, cause := .pfault, wr := w.write, ex := w.fetch, addr := w.va, pc := w.pc,
                         waiter := some (.walk w.id) }
  match w.seg, w.ctx with
  | some k, some cid =>
    (match getSeg s k with
      | none => base
      | some g =>
        let pos := ((g.cores.find? fun x => ctxId x.2.1 x.2.2 == cid).map (·.1)).getD 0
        let who := word (g.beat % 65536 * 2 ^ 48 + pos * 2 ^ 32 + cid)
        nodeWords s g.tslot g.node { base with kind := .segCore, seg := some k, who := who })
  | some k, none =>
    (match getSeg s k with
      | none => base
      | some g =>
        let cid := match g.cores.head? with | some x => ctxId x.2.1 x.2.2 | none => 0
        nodeWords s g.tslot g.node { base with kind := .sequencer, seg := some k, who := word (g.beat % 65536 * 2 ^ 48 + cid) })
  | none, some cid =>
    (match getCtx s cid with
      | none => base
      | some c => nodeWords s c.tslot c.node { base with who := word cid })
  | none, none => base

/-- A cached stage-1 result covers an address of a tenant. -/
def S1.covers (x : S1) (v : BitVec 16) (a : Word) : Bool := x.vmid == v && x.va.toNat / x.leaf.size == a.toNat / x.leaf.size

/-- A walk ends with a page, or with a record that waits for RESOLVE (R90, R307). -/
def walkAnswered (s : State) (t : Nat) (w : Walk) (r : Except WalkFault Page) : State :=
  let put := fun (s : State) (f : Walk → Walk) => { s with walks := updWhere (fun x => x.id == w.id) f s.walks }
  match r with
  | .ok p => put s fun x => { x with page := some p }
  | .error e =>
    let r := { walkReport s w with vmid := some w.vmid }
    let (tok, s) := match e with
      | .stage1 => report s (.tenant t) r
      | .stage2 g => report s .hyp { r with stage2 := true, addr := word g }
    put s fun x => { x with token := tok }

/-- A walk at its slice: the stage-1 result that it holds, or one read from the tables, which it then holds, with the stage 2 of now (R307).
A channel may hold its reads (R344). -/
def walkStep (s : State) (w : Walk) : State :=
  let t := (slotOfVmid s w.vmid).getD 0
  match s.s1cache.find? fun x => x.covers w.vmid w.va with
  | some x =>
    let (r, s) := fromLeaf s t w.va x.leaf
    walkAnswered s t w r
  | none =>
    if walkHeld s t w.va then s
    else match stage1 s (getTenant s t) w.va with
      | .error e => walkAnswered (chargeWalk s t w.va) t w (.error e)
      | .ok l =>
        let (r, s) := fromLeaf (chargeWalk s t w.va) t w.va l
        let kept : S1 := { vmid := w.vmid, va := w.va, leaf := { l with entry := l.entry &&& ~~~(1 <<< 54 : Word) } }
        walkAnswered (match r with | .ok _ => { s with s1cache := s.s1cache ++ [kept] } | .error _ => s) t w r

/-- STAGE1_WALK (R307): `id` is the walk. -/
def execStage1Walk (s : State) : Result :=
  match s.walks.find? fun w => w.id == s.arg.id with
  | none => .next s
  | some w => .next (if w.page.isSome || w.token.isSome then s else walkStep s w)

/-- The party that waits for a walk goes on, and tries its word again. -/
def endWalk (s : State) (w : Walk) : State :=
  let s := { s with walks := s.walks.filter fun x => x.id != w.id }
  match w.ctx, w.seg with
  | some cid, _ => modCtx s cid fun c => if c.status = .parked (.page w.id) then { c with status := .ready } else c
  | none, some k => modSeg s k fun g => if g.walk = some w.id then { g with walk := none } else g
  | none, none => s

/-- The 64 entries of a page check cache: at 64 a fill replaces one, and which is open (R90; log entry 16). -/
def fillEntry (s : State) (core : Nat) (p : Page) : State :=
  let others := (getCore s core).pcc.filter fun x => !(x.vmid == p.vmid && x.va == p.va && x.size == p.size)
  if others.length < 64 then modCore s core fun k => { k with pcc := others ++ [p] }
  else
    let (f, s) := takeFree s
    modCore s core fun k => { k with pcc := (others.eraseIdx (f.toNat % others.length)).take 63 ++ [p] }

/-- PAGE_CHECK_FILL (R90): `id` is a walk that has its page. -/
def execPageCheckFill (s : State) : Result :=
  match s.walks.find? fun w => w.id == s.arg.id with
  | none => .next s
  | some w => match w.page with
    | some p => .next (endWalk (fillEntry s w.core p) w)
    | none => .next s

/-! ## The fault ring (R301, R302) -/

/-- The ring that an event names: a tenant slot's, or the hypervisor's. -/
def argRing (s : State) : RingId := if s.arg.flag then .hyp else .tenant s.arg.slot

/-- Waiting records are written in order while there is room (R301). -/
def writeWaiting (rid : RingId) : Nat → State → State
  | 0, s => s
  | n + 1, s =>
    let f := getFaults s rid
    match f.waiting with
    | [] => s
    | x :: rest =>
      if 2 ^ f.log2n ≤ (f.tail - f.head).toNat then s
      else match recordPlace s rid with
        | (some (l, p), s) =>
          let f := getFaults s rid
          writeWaiting rid n (afterRecord (putRecord (setFaults s rid { f with waiting := rest }) rid l p x.words) x.ctx)
        | (none, s) =>
          let f := getFaults s rid
          writeWaiting rid n (afterRecord (loseRecord (setFaults s rid { f with waiting := rest }) rid) x.ctx)

/-- FRING_HEAD_WRITE (R300, R301): `slot` or `flag` names the ring and `v` the word written; HEAD is its upper half. -/
def execFringHeadWrite (s : State) : Result :=
  let rid := argRing s
  let f := getFaults s rid
  .next (writeWaiting rid f.waiting.length (setFaults s rid { f with head := s.arg.v.extractLsb' 32 32 }))

/-- A waiting party by its token, which the RESOLVE uses up (R302). -/
def takeWaiter (s : State) (rid : RingId) (v : Word) (action : Nat) : Option (Waiter × Word) × State :=
  let f := getFaults s rid
  if fld 62 2 v != action || fld 32 30 v != 0 then (none, s)
  else match f.waiters.find? fun w => w.1 == v.extractLsb' 0 32 with
    | none => (none, s)
    | some w => (some w.2, setFaults s rid { f with waiters := f.waiters.filter fun x => x.1 != w.1 })

/-- A frame of a Trailhead flow may be written again, or is given up (R366). -/
def modPort (s : State) (p : Nat) (f : Port → Port) : State :=
  if p = 0 then { s with trail0 := f s.trail0 } else { s with trail1 := f s.trail1 }

/-- The waiting party tries again (R302). -/
def replay (s : State) (w : Waiter) : State :=
  match w with
  | .walk i => match s.walks.find? fun x => x.id == i with
    | some x => endWalk s x
    | none => s
  | .loader l n | .dispatch l n =>
    let f := fun (x : Launch) => { x with nodes := x.nodes.mapIdx fun i y => if i = n then { y with token := none } else y }
    { s with tenants := s.tenants.map fun (e : Nat × Tenant) => (e.1, { e.2 with launches := updWhere (fun x => x.id == l) f e.2.launches }) }
  | .stream i => { s with ports := updWhere (fun o => o.id == i) (fun o => { o with token := none }) s.ports }
  | .refill c => modCore s c fun k => { k with ring := k.ring.map fun r => { r with retry := true } }
  | .trailhead p i => modPort s p fun q => { q with staging := q.staging.map fun f => if f.flow = i then { f with token := none, retry := true } else f }
  | .remote i =>
    let s := match s.reqs.find? fun r => r.id == i with | some r => unstall s r | none => s
    { s with reqs := updWhere (fun r => r.id == i) (fun r => { r with token := none }) s.reqs,
             remoteWaits := updWhere (fun r => r.id == i) (fun r => { r with token := none }) s.remoteWaits }

/-- RESOLVE_REPLAY (R302): `slot` or `flag` names the ring and `v` the word written to RESOLVE. -/
def execResolveReplay (s : State) : Result :=
  match takeWaiter s (argRing s) s.arg.v 1 with
  | (some (w, _), s) => .next (replay s w)
  | (none, s) => .next s

/-- The walk's party traps PFAULT: a context by its own rule, a segment core under R210, a sequencer under R211 (R302). -/
def failWalk (s : State) (w : Walk) (addr : Word) : State :=
  let s := endWalk s w
  match w.seg, w.ctx with
  | some k, some cid =>
    (match getSeg s k with
      | none => s
      | some g => abortSeg s k (((g.cores.find? fun x => ctxId x.2.1 x.2.2 == cid).map (·.1)).getD 0) cid .pfault addr w.pc)
  | some k, none =>
    (match getSeg s k with
      | none => s
      | some g =>
        let s := setSeg s k (stopSeg g false)
        let s := (report s (.tenant g.tslot) (nodeWords s g.tslot g.node
          { kind := .sequencer, cause := .pfault, pc := w.pc, tval := addr, seg := some k,
            who := word (g.beat % 65536 * 2 ^ 48 + (match g.cores.head? with | some x => ctxId x.2.1 x.2.2 | none => 0)) })).2
        failLaunch s g.tslot g.node 2 .pfault true)
  | none, some cid => takeTrap s cid .pfault addr w.pc
  | none, none => s

/-- The launch of a COPY node or of a thread that the dispatcher could not place. -/
def slotOfLaunch (s : State) (l : Nat) : Option Nat :=
  (s.tenants.find? fun e => e.2.launches.any fun x => x.id == l).map (·.1)

/-- The record at a ring's head is discarded (R183, R302). -/
def discardRefill (s : State) (core : Nat) : State :=
  match (getCore s core).ring with
  | none => s
  | some r =>
    match r.known with
    | [] => s
    | c :: rest =>
      let s := modCore s core fun k => { k with ring := some { r with head := r.head + 1, known := rest, blocked := none, retry := false } }
      removeRing (countNode s c.tslot c.node false) core

/-- A remote translation is given up: the access is undone, and its context traps PFAULT at the word that made it (R298, R354). The trap is
taken before the next word that the context would issue, and a barrel context stands at the faulting word then (log entry 63). -/
def remoteFailed (s : State) (r : Req) : State :=
  let s := unstall (dropReq s r.id) r
  let s := if isStore r.op || isDeposit r.op then s else setFull s r.ctx r.rd true
  let s := modCtx s r.ctx fun c =>
    let c := match c.status with | .held (.park (some i) _) => if i = r.id then { c with status := .ready } else c | _ => c
    if c.stream then c else { c with pc := r.pc, repc := r.repc }
  rewake (pendTrap s r.ctx .pfault r.va) (coreOf r.ctx)

/-- The waiting party fails (R302). -/
def failWaiter (s : State) (w : Waiter) (addr : Word) : State :=
  match w with
  | .walk i => match s.walks.find? fun x => x.id == i with
    | some x => failWalk s x addr
    | none => s
  | .loader l n => match slotOfLaunch s l with
    | some t => modNode (failLaunch s t (some ⟨l, n⟩) 3 .pfault true) t ⟨l, n⟩ fun x => { x with token := none, failed := true }
    | none => s
  | .dispatch l n => match slotOfLaunch s l with
    | some t =>
      -- the record names the thread's own address, which a stage-2 fault's ADDR is not (R273)
      let a := match nodeState s t (some ⟨l, n⟩) with | some x => x.places.getD x.started addr | none => addr
      let skip := fun (x : LNode) =>
        if x.places.length ≤ x.started then { x with places := x.places ++ [a], boots := x.boots ++ [[]] } else x
      unplaced (modNode s t ⟨l, n⟩ fun x =>
        { skip x with token := none, started := x.started + 1, delivered := x.delivered + 1 }) t ⟨l, n⟩ a
    | none => s
  | .stream i => match s.ports.find? fun o => o.id == i with
    | some o => portAnswered (answerPort s i 0 (some .pfault) addr) { o with answered := true, cause := some .pfault, tval := addr }
    | none => s
  | .refill c => discardRefill s c
  | .trailhead p i => modPort s p fun q =>
    let f : Flow := amGetD {} q.flows i
    { q with staging := q.staging.filter fun x => !(x.flow == i && x.token.isSome), flows := amSet q.flows i { f with drop := f.drop + 1 } }
  | .remote i => match s.reqs.find? fun r => r.id == i with
    | some r => remoteFailed s r
    | none => { s with remoteWaits := s.remoteWaits.filter fun r => r.id != i, out := s.out ++ [.peer (allOnes 64) false] }

/-- RESOLVE_FAIL (R302): `slot` or `flag` names the ring and `v` the word written to RESOLVE. -/
def execResolveFail (s : State) : Result :=
  match takeWaiter s (argRing s) s.arg.v 2 with
  | (some (w, addr), s) => .next (failWaiter s w addr)
  | (none, s) => .next s

/-- REMOTE_FAULT_RESOLVED (R354): `id` is a local request that waits on a fault at its peer; with `flag` it is tried again, else its
context traps PFAULT. -/
def execRemoteFaultResolved (s : State) : Result :=
  .next (if s.arg.flag then s else
    match s.reqs.find? fun r => r.id == s.arg.id && !r.done && (match r.loc with | .remote .. => true | _ => false) with
    | some r => failWaiter s (.remote r.id) r.va
    | none => s)

end Sys2Proof.Machine
end

