-- ==== Sys2Proof/Machine/System.lean ====
section
/-! DEFINITION. Control registers, trap-control words, invalidations, steps and the power hint (R67, R74 to R76, R193, R294 to R299,
R309 to R312, R323 to R329). -/

namespace Sys2Proof.Machine

/-! ## Kernel headers (R41, R42) -/

/-- The fields of a header's 64 bytes, if they meet R41 and R42. -/
def headerOf (entry : Word) (bs : List Byte) : Option Kernel :=
  let w := fun (i : Nat) => word (leNat ((bs.drop (8 * i)).take 8))
  let w0 := w 0
  let w1 := w 1
  let w2 := w 2
  let role := fld 48 8 w0
  if fld 0 32 w0 = 0x4B4E4B41 && fld 32 16 w0 = 1 && role ≤ 2 && fld 56 8 w0 ≤ 15 && fld 0 32 w1 % 64 = 0 && fld 0 32 w1 ≤ 98304 &&
      (fld 32 32 w1 = 0 || fld 32 32 w1 = 16384 || fld 32 32 w1 = 32768) && fld 0 8 w2 ≤ 1 && fld 8 8 w2 ≤ 23 && fld 16 8 w2 ≤ 7 &&
      fld 24 8 w2 = 0 && fld 32 2 w2 = 0 && w 4 = 0 && w 5 = 0 && w 6 = 0 && w 7 = 0 then
    some { role := role, allot := 8 * (fld 56 8 w0 + 1), spbytes := fld 0 32 w1, winbytes := fld 32 32 w1,
           prio := BitVec.ofNat 5 (fld 8 8 w2), dclass := BitVec.ofNat 3 (fld 16 8 w2),
           tvec := if fld 32 32 w2 = 0 then none else some (entry + (w2.extractLsb' 32 32).signExtend 64) }
  else none

/-- `n` bytes at an address that translates for a tenant with read rights, on one page of 16 KiB. -/
def readTenant (s : State) (t : Nat) (a : Word) (n : Nat) : Option (List Byte) × State :=
  match translate s t a with
  | (.ok p, s) =>
    match ownPlace s t (p.loc a) false with
    | .ok l => if p.rd then
        (let (f, s) := freeLine s
         (some (readWide s l n f p), s))
      else (none, s)
    | .error _ => (none, s)
  | (.error _, s) => (none, s)

/-- The header before an entry (R41): aligned as an entry is, readable, and well formed. -/
def readHeader (s : State) (t : Nat) (entry : Word) : Option Kernel × State :=
  if fld 0 6 entry != 0 || !canonical entry || !canonical (entry - 64) then (none, s)
  else match readTenant s t (entry - 64) 64 with
    | (some bs, s) => (headerOf entry bs, s)
    | (none, s) => (none, s)

/-! ## The prediction (R325) -/

/-- The smallest divider of an operating point (R321); 8 for retention, where no core issues. -/
def minDiv (point : Nat) : Nat :=
  match point with
  | 7 | 6 => 1
  | 5 => 2
  | 4 => 3
  | 3 => 4
  | 2 => 6
  | _ => 8

/-- What the governor has measured of a core from a step's declaration to its last `prog` (R325; log entry 14): of `cycles` base cycles
`busy` ones, so that alpha is their ratio; and the mean divider as the ratio of `divs` to `time_`. -/
structure Measured where
  busy : Nat := 0
  cycles : Nat := 1
  divs : Nat := 1
  time_ : Nat := 1
  deriving DecidableEq, Repr

/-- A step has a prediction of its own: it has reported progress (R325). -/
def StepRec.moving (k : StepRec) : Bool := k.work != 0 && k.p != 0

/-- *t*ₗ + *R* at divider `d`, as a fraction: *R* = *E*·(*W* − *p*)/*p* · (alpha·*d*/dbar + 1 − alpha) (R325). -/
def StepRec.ends (k : StepRec) (d : Nat) (m : Measured) : Nat × Nat :=
  let b := min m.busy m.cycles
  let den := max 1 (k.p.toNat * m.cycles * m.divs)
  (k.tl.toNat * den + (k.tl.toNat - k.t0.toNat) * (k.work.toNat - k.p.toNat) * (b * d * m.time_ + (m.cycles - b) * m.divs), den)

/-- `T(d)` of a step, a part of a ns rounded up (R325; log entry 14). -/
def predict (s : State) (k : StepRec) (d : Nat) (m : Measured) : Nat :=
  if k.moving then
    let (n, den) := k.ends d m
    max s.time.toNat ((n + den - 1) / den)
  else s.time.toNat

/-- `T(d)` lies after a time (R326). -/
def predictedAfter (s : State) (k : StepRec) (d : Nat) (m : Measured) (x : Nat) : Bool :=
  decide (x < s.time.toNat) || (k.moving && (let (n, den) := k.ends d m; decide (x * den < n)))

/-- The cores whose steps make one prediction: those of the core's segment, or the core alone (R325). -/
def stepCores (s : State) (core : Nat) : List Nat :=
  match s.segs.find? fun e => e.2.cores.any fun x => x.2.1 == core with
  | some (_, g) => g.cores.map (·.2.1)
  | none => [core]

/-- The open steps of some cores. -/
def stepsOf (s : State) (cs : List Nat) : List (Nat × StepRec) := cs.filterMap fun c => (getCore s c).step.map fun k => (c, k)

/-- A measurement that nothing gives: a busy fraction from 0 to 1, and a mean divider from 1 to 8 (log entry 3). -/
def freeMeasured (w : Word) : Measured :=
  { busy := fld 0 31 w, cycles := 2 ^ 31 - 1, divs := 2 ^ 31 - 1 + 7 * fld 32 31 w, time_ := 2 ^ 31 - 1 }

/-- The declaring context of the core's open step (R324). -/
def stepOf (s : State) (cid : Nat) : Option StepRec :=
  match (getCore s (coreOf cid)).step with
  | some k => if k.ctx = cid then some k else none
  | none => none

/-! ## Control registers (R74 to R76, R299) -/

/-- The segment's divider, or the core's own. -/
def divOf (s : State) (core : Nat) : Nat :=
  match s.segs.find? fun e => e.2.cores.any fun x => x.2.1 == core with
  | some (_, g) => g.div
  | none => (getCore s core).div

/-- Values of the registers that are not plain fields. -/
def csrDevice (s : State) (cid : Nat) (c : Ctx) (n : Nat) : Option Word :=
  let k := getCore s (coreOf cid)
  if n = 0x023 then some (match k.ctab with | some a => (1 <<< 63 : Word) ||| word a | none => 0)
  else if 0x030 ≤ n && n ≤ 0x033 then some (word (amGetD 0 k.cwp (n - 0x030)))
  else if n = 0x034 then some (word ((List.range 4).foldl (fun m i => if (amGet k.chans i).isSome then m + 2 ^ i else m) 0))
  else if n = 0x040 then some (k.ribpos.setWidth 64)
  else if n = 0x041 then some k.seg
  else if n = 0x100 then some s.time
  else if n = 0x101 then some (match stepOf s cid with | some r => r.deadline | none => 0)
  else if n = 0x102 then some (match stepOf s cid with
    | some r => r.deadline - word (((stepsOf s (stepCores s (coreOf cid))).zip (List.range 16)).foldl (fun m (x, i) =>
        max m (predict s x.2 (divOf s (coreOf cid)) (freeMeasured (Config.freeWord (s.free + i))))) s.time.toNat)
    | none => 0)
  else if n = 0x103 then some (getTenant s c.tslot).purse
  else if n = 0x104 then some (word (fld 0 32 (getTenant s c.tslot).energy))
  else if n = 0x105 then some (c.energyh.setWidth 64)
  else if n = 0x106 then some (s.hottest.setWidth 64)
  else none

/-- The value of a control register; none for a number that R75 does not list. -/
def csrValue (s : State) (cid : Nat) (c : Ctx) (n : Nat) : Option Word :=
  if n = 0x000 then some (word cid)
  else if n = 0x001 then some (c.vmid.setWidth 64)
  else if n = 0x002 then some (word (c.size * 65536 + c.base))
  else if n = 0x003 then some (c.prio.setWidth 64)
  else if n = 0x004 then some (match c.grp with | some h => (1 <<< 63 : Word) ||| h.setWidth 64 | none => 0)
  else if n = 0x005 then some (c.smap.setWidth 64)
  else if n = 0x010 then some (c.fflags.setWidth 64)
  else if n = 0x011 then some (c.frm.setWidth 64)
  else if n = 0x012 then some (c.vlen.setWidth 64)
  else if n = 0x020 then some (c.mfmt.setWidth 64)
  else if n = 0x021 then some (c.mscla.setWidth 64)
  else if n = 0x022 then some (c.msclb.setWidth 64)
  else if n = 0x080 then some c.tvec
  else if n = 0x081 then some c.tcause
  else if n = 0x082 then some c.tval
  else if n = 0x083 then some c.epc
  else if n = 0x084 then some c.repc
  else csrDevice s cid c n

/-- Bits that a write to a register must leave zero; none for a read-only register (R74, R75, R64, R294). -/
def csrReserved (n : Nat) : Option Word :=
  if n = 0x003 then some (~~~(0x1F : Word))
  else if n = 0x010 then some (~~~(0x1F : Word))
  else if n = 0x011 then some (~~~(3 : Word))
  else if n = 0x012 then some (~~~(0x1FFF : Word))
  else if n = 0x020 then some (~~~(0xFF : Word))
  else if n = 0x021 || n = 0x022 then some (~~~(0x1FFFE : Word))
  else if n = 0x080 || n = 0x083 then some 3
  else if n = 0x081 then some 0x3FFFFFFFFFFFFF00
  else if n = 0x082 then some 0
  else if n = 0x084 then some 0x7FFFFFFF00000000
  else none

/-- A value that a register may be written with. -/
def csrWritable (n : Nat) (v : Word) : Bool :=
  match csrReserved n with
  | none => false
  | some m => v &&& m == 0 && (n != 0x080 || canonical v)

/-- A register written: `prio` and `vlen` clamp, and `fflags` clears the bits that are 1 (R75, R299). -/
def csrPut (n : Nat) (v : Word) (c : Ctx) : Ctx :=
  if n = 0x003 then { c with prio := BitVec.ofNat 5 (min v.toNat 23) }
  else if n = 0x010 then { c with fflags := c.fflags &&& ~~~(v.setWidth 5) }
  else if n = 0x011 then { c with frm := v.setWidth 2 }
  else if n = 0x012 then { c with vlen := BitVec.ofNat 13 (min v.toNat 4096) }
  else if n = 0x020 then { c with mfmt := v.setWidth 8 }
  else if n = 0x021 then { c with mscla := v.setWidth 17 }
  else if n = 0x022 then { c with msclb := v.setWidth 17 }
  else if n = 0x080 then { c with tvec := v }
  else if n = 0x081 then { c with tcause := v }
  else if n = 0x082 then { c with tval := v }
  else if n = 0x083 then { c with epc := v }
  else if n = 0x084 then { c with repc := v }
  else c

/-- Flag-setting words of the context that have not set their flags (R220). -/
def flagsOwed (s : State) (cid : Nat) : Bool :=
  (s.octets.any fun o => o.2.reqs.any fun r => r.ctx == cid) || (getCore s (coreOf cid)).vq.any fun v => v.ctx == cid

/-- Which write a form makes of the old value and `g[ra]`; for `fflags` the value is the bits to clear (R299). -/
inductive CsrWrite where
  | none
  | all
  | set
  | clear
  deriving DecidableEq, Repr

/-- The form counts as a write. -/
def CsrWrite.writes (w : CsrWrite) (v : Word) : Bool :=
  match w with
  | .none => false
  | .all => true
  | _ => v != 0

/-- The value that reaches the register. -/
def CsrWrite.value (w : CsrWrite) (n : Nat) (old v : Word) : Word :=
  match w with
  | .none => old
  | .all => v
  | .set => old ||| v
  | .clear => if n = 0x010 then v &&& 0x1F else old &&& ~~~v

/-- R74 and R299. -/
def csrVerdict (w : CsrWrite) (n : Nat) (v : Word) (s : State) (c : Ctx) : Verdict :=
  match csrValue s (me s) c n with
  | none => .trap .illop (curWord s)
  | some old =>
    if w.writes v && (!csrWritable n (w.value n old v) || (w = .set && n = 0x010)) then .trap .illop (curWord s)
    else if n = 0x010 && flagsOwed s (me s) then .park .flags
    else .go

/-- A read of `energy` copies the accumulator's high half (R76); a read of `slack` takes a free value (R324, R325). -/
def csrReadEffect (n : Nat) (s : State) : State :=
  match curCtx s with
  | none => s
  | some c =>
    if n = 0x104 then modCtx s (me s) fun x => { x with energyh := (getTenant s c.tslot).energy.extractLsb' 32 32 }
    else if n = 0x102 then { s with free := s.free + 16 }
    else s

/-- The control-register forms (R299). -/
def csr (w : CsrWrite) (n : BitVec 11) (d : Reg) (a : Option Reg) (s : State) : Result :=
  let v := fun s => match a with | some r => src s r | none => 0
  settle (check { srcs := a.toList, dst := some d } (fun s _ c => csrVerdict w n.toNat (v s) s c) s)
    (fun s => match curCtx s with
      | none => s
      | some c =>
        let old := (csrValue s (me s) c n.toNat).getD 0
        let x := v s
        let s := csrReadEffect n.toNat s
        let s := if w.writes x then modCtx s (me s) (csrPut n.toNat (w.value n.toNat old x)) else s
        done (writeReg s (me s) d old)) s

/-- `csrr` (R299). -/
def execCsrr (c : BitVec 11) (d : Reg) (s : State) : Result := csr .none c d none s

/-- `csrrw` (R299). -/
def execCsrrw (c : BitVec 11) (d a : Reg) (s : State) : Result := csr .all c d (some a) s

/-- `csrs` (R299). -/
def execCsrs (c : BitVec 11) (d a : Reg) (s : State) : Result := csr .set c d (some a) s

/-- `csrc` (R299). -/
def execCsrc (c : BitVec 11) (d a : Reg) (s : State) : Result := csr .clear c d (some a) s

/-! ## Trap-control words (R297) -/

/-- `ecall` (R297). -/
def execEcall (s : State) : Result := settle (check { srcs := [] } (fun s _ _ => .trap .ecall (curWord s)) s) id s

/-- `break` (R297). -/
def execBrk (s : State) : Result := settle (check { srcs := [] } (fun s _ _ => .trap .brk (curWord s)) s) id s

/-- `tret` (R297). -/
def execTret (s : State) : Result :=
  settle (check { srcs := [] } plain s) (fun s => returnTrap s (me s)) s

/-! ## Invalidation (R309 to R312) -/

/-- Two guest-physical addresses lie in one stage-2 page, of the size of the first. -/
def inS2Page (x : Nat × Nat) (a : Nat) : Bool := x.1 / max 16384 x.2 == a / max 16384 x.2

/-- The page, of any size, contains the address (R309). -/
def Page.holds (p : Page) (a : Word) : Bool :=
  p.covers p.vmid a || (p.leafSize != 0 && decide (p.leafVa.toNat ≤ a.toNat) && decide (a.toNat < p.leafVa.toNat + p.leafSize))

/-- A page whose translation an invalidation drops; for operation 2 every page of the VMID, of which those derived from the dropped
results are some (log entry 15). Operation 4 is that of a transferred channel, whose number is the address (R342), and 5 that of a
destroyed key (R348). -/
def Tlbi.drops (t : Tlbi) (p : Page) : Bool :=
  match t.op with
  | 0 => p.vmid == t.vmid && p.holds t.addr
  | 1 | 2 | 4 | 6 => p.vmid == t.vmid
  | 5 => p.key.toNat == t.addr.toNat
  | _ => true

/-- A stage-1 result that it drops: for a stage-2 operation again every one of the VMID; a key has none, for each use of a result takes its
stage 2 anew (R307). -/
def Tlbi.dropsS1 (t : Tlbi) (x : S1) : Bool :=
  match t.op with
  | 0 => x.vmid == t.vmid && x.va.toNat / x.leaf.size == t.addr.toNat / x.leaf.size
  | 1 | 2 | 4 | 6 => x.vmid == t.vmid
  | 5 => false
  | _ => true

/-- The page's frame lies in a channel. -/
def Page.inChannel (p : Page) (ch : Nat) : Bool := match p.out with | .hbm a => a / 2 ^ 31 == ch | _ => false

/-- A page whose check used an entry that the invalidation covers: for operation 2 by its frame or a table of its walk. -/
def Tlbi.waitsFor (t : Tlbi) (p : Page) : Bool :=
  match t.op with
  | 2 => p.vmid == t.vmid && ((p.gpa, max p.size p.s2Size) :: p.tables).any fun x => inS2Page x (t.addr.toNat % 2 ^ 48)
  | 4 => p.vmid == t.vmid && p.inChannel t.addr.toNat
  | _ => t.drops p

/-- The lines that slices drop with it: of a guest-physical page written back first, of a destroyed key not (R309, R348). The page is that of
the stage 2 of now, or 16 KiB (log entry 15). -/
def tlbiLines (s : State) (t : Tlbi) : State :=
  match t.op with
  | 2 =>
    let a := t.addr.toNat % 2 ^ 48
    let n := match slotOfVmid s t.vmid with
      | some x => (match stage2 s (getTenant s x) a with | .ok r => r.size | .error _ => 16384)
      | none => 16384
    dropLines s true fun e => e.2.vmid == t.vmid && e.2.gline * 64 / n == a / n
  | 5 => dropLines s false fun e => e.2.key.toNat == t.addr.toNat
  | _ => s

/-- The entries that an invalidation covers are dropped everywhere, and the lines that it names; a walk that has an answer starts again
(R310, R312). -/
def dropEntries (s : State) (t : Tlbi) : State :=
  let s := tlbiLines s t
  { s with
    cores := s.cores.map fun e =>
      let k := e.2
      let l1 := if t.op = 2 || t.op = 4 then k.l1.filter fun x => x.vmid != t.vmid
        else if t.op = 5 then k.l1.filter fun x => x.key.toNat != t.addr.toNat else k.l1
      (e.1, { k with pcc := k.pcc.filter fun p => !t.drops p, l1 := l1 })
    s1cache := s.s1cache.filter fun x => !t.dropsS1 x
    walks := s.walks.map fun w => match w.page with
      | some p => if t.drops p then { w with page := none } else w
      | none => w }

/-- A queue of matrix commands, or the commands of copy channels, holds one that used a dropped entry and came before the invalidation. -/
def mqUses (t : Tlbi) (ms : List MCmd) : Bool := ms.any fun m => decide (m.id < t.upto) && m.pages.any t.waitsFor
def chansUse (t : Tlbi) (cs : AMap Chan) : Bool :=
  cs.any fun c => decide (c.2.id < t.upto) && (c.2.srcPages ++ c.2.dstPages).any t.waitsFor

/-- An access or command that used a dropped entry and came before the invalidation, also one of a saved context (R310). -/
def usesDropped (s : State) (t : Tlbi) : Bool :=
  (s.reqs.any fun r => decide (r.id < t.upto) && !r.done && t.waitsFor r.page) ||
  (s.ports.any fun o => decide (o.id < t.upto) && !o.answered && t.waitsFor o.page) ||
  (s.cores.any fun e =>
    (e.2.sbuf.any fun x => decide (x.id < t.upto) && t.waitsFor x.page) || mqUses t e.2.mq || chansUse t e.2.chans ||
    e.2.saved.any fun x => mqUses t x.mq || chansUse t x.chans) ||
  (s.tenants.any fun x => x.2.savedSegs.any fun g => g.ctxs.any fun x => mqUses t x.mq || chansUse t x.chans) ||
  (s.tenants.any fun x => x.2.launches.any fun l => l.nodes.any fun n =>
    n.phase == .running && n.cmd != 0 && decide (n.cmd < t.upto) && (n.srcPages ++ n.dstPages).any t.waitsFor)

/-- One step of an invalidation: it is sent once its release is met, and it is over once nothing uses what it dropped. -/
def tlbiStep (s : State) (t : Tlbi) : State × Bool :=
  let (s, t) :=
    if !t.sent && (match t.ctx with | some cid => fenceMet s cid 2 t.upto | none => true) then
      let t' := { t with sent := true, upto := s.nextId }
      (dropEntries { s with tlbis := updWhere (fun x => x.id == t.id) (fun _ => t') s.tlbis } t', t')
    else (s, t)
  (s, t.sent && !usesDropped s t)

/-- An invalidation of the current context is begun, and holds it (R310). -/
def tlbiWord (op : Nat) (vmid : State → Ctx → BitVec 16) (addr : State → Word) (srcs : List Reg) (w : Bool) (s : State) : Result :=
  settle (check { srcs := srcs, w := w } (fun s _ c => if 2 ≤ op && c.tslot != 0 then .trap .prot (curWord s) else .go) s)
    (fun s => match curCtx s with
      | none => s
      | some c =>
        let (i, s) := takeId s
        let t : Tlbi := { id := i, op := op, vmid := vmid s c, addr := addr s, ctx := some (me s), upto := i, sent := false }
        holdNow (.tlbi i) { s with tlbis := s.tlbis ++ [t] }) s

/-- `tlbi.va` (R309). -/
def execTlbiVa (w : Bool) (a : Reg) (s : State) : Result := tlbiWord 0 (fun _ c => c.vmid) (fun s => src s a) [a] w s

/-- `tlbi.vmid` (R309). -/
def execTlbiVmid (s : State) : Result := tlbiWord 1 (fun _ c => c.vmid) (fun _ => 0) [] false s

/-- `tlbi.s2` (R309). -/
def execTlbiS2 (w : Bool) (a b : Reg) (s : State) : Result :=
  tlbiWord 2 (fun s _ => (src s b).setWidth 16) (fun s => src s a) [a, b] w s

/-- `tlbi.all` (R309). -/
def execTlbiAll (s : State) : Result := tlbiWord 3 (fun _ _ => 0) (fun _ => 0) [] false s

/-- TLBI_COMPLETE (R310, R349): `id` is the invalidation. Its context goes on, or INVSTAT is written. -/
def execTlbiComplete (s : State) : Result :=
  match s.tlbis.find? fun t => t.id == s.arg.id with
  | none => .next s
  | some t =>
    let (s, isOver) := tlbiStep s t
    if !isOver || t.op = 6 then .next s
    else
      let s := { s with tlbis := s.tlbis.filter fun x => x.id != t.id }
      .next (match t.ctx with
        | none => if t.op ≤ 3 then { s with invBusy := false } else s
        | some cid => match getCtx s cid with
          | some c => if c.status = .held (.tlbi t.id) then wake s cid else s
          | none => s)

/-! ## Steps (R193, R323, R328) -/

/-- The handler of a `dline`: its entry must be that of a HANDLER kernel (R193). -/
def handlerVerdict (h : Word) (s : State) (c : Ctx) : Verdict :=
  match (readHeader s c.tslot h).1 with
  | some k => if k.role = 2 then .go else .trap .prot h
  | none => .trap .prot h

/-- The continuation of a deadline-risk handler (R193, R298). -/
def riskCont (s : State) (r : StepRec) (overrun : Word) : Cont × State :=
  let (h, s) := readHeader s r.tslot r.handler
  let k := h.getD { role := 2, allot := 8, spbytes := 0, winbytes := 0, prio := 0, dclass := 0, tvec := none }
  let w0 := (1 <<< 59 : Word) ||| putFld 53 4 (k.allot / 8 - 1) (putFld 48 5 k.prio.toNat (word (fld 0 48 r.handler)))
  ({ words := [w0, r.id.setWidth 64, overrun, r.deadline - s.time, 0, 0, 0, 0], vmid := r.vmid, tslot := r.tslot, node := none, dclass := 0,
     tvec := k.tvec, tcause := 0x8000000000000010 }, s)

/-- DRISK (R193, R326): at most once for a step. -/
def raiseRisk (s : State) (core : Nat) (r : StepRec) (overrun : Word) : State :=
  if r.drisk then s
  else
    let s := modCore s core fun k => { k with step := some { r with drisk := true } }
    let (c, s) := riskCont s r overrun
    let (i, s) := takeId s
    let f : Flight := { id := i, core := core, cont := c, sender := .risk core, isGo := false, addr := r.handler }
    modTenant { s with flights := s.flights ++ [f] } c.tslot fun t => { t with drisks := min (t.drisks + 1) (2 ^ 32 - 1) }

/-- A step that has reported nothing is predicted for now, so that it is late once its deadline has passed (R325, R326); of another the
governor judges with what it has measured. -/
def riskNow (s : State) (core : Nat) : State :=
  match (getCore s core).step with
  | some r => if !r.moving && r.deadline.toNat < s.time.toNat then raiseRisk s core r (s.time - r.deadline) else s
  | none => s

/-- `dline` (R193, R323, R328). -/
def execDline (w : Bool) (d a b : Reg) (s : State) : Result :=
  settle (check { srcs := [d, a, b], w := w } (fun s _ c => handlerVerdict (src s b) s c) s)
    (fun s => match curCtx s with
      | none => s
      | some c =>
        let (_, s) := readHeader s c.tslot (src s b)
        let r : StepRec :=
          { id := (src s a).extractLsb' 48 16, deadline := src s d, work := (src s a).extractLsb' 0 48, handler := src s b, ctx := me s, tslot := c.tslot,
            vmid := c.vmid, dclass := if c.node.isSome then c.dclass else 0, t0 := s.time, p := 0, tl := s.time, drisk := false }
        done (riskNow (modCore s (coreOf (me s)) fun k => { k with step := some r }) (coreOf (me s)))) s

/-- `prog` (R193, R323, R328). -/
def execProg (w : Bool) (a : Reg) (s : State) : Result :=
  settle (check { srcs := [a], w := w } plain s)
    (fun s =>
      let core := coreOf (me s)
      match (getCore s core).step with
      | none => done s
      | some r =>
        let p := min (src s a).toNat r.work.toNat
        if p = r.work.toNat then done (modCore s core fun k => { k with step := none })
        else done (riskNow (modCore s core fun k => { k with step := some { r with p := word p, tl := s.time } }) core)) s

/-! ## The power hint (R329) -/

/-- `pwr.hint` (R329). -/
def execPwrHint (w : Bool) (a : Reg) (s : State) : Result :=
  settle (check { srcs := [a], w := w } plain s)
    (fun s => done (modCore s (coreOf (me s)) fun k => { k with hint := (src s a).extractLsb' 0 2 })) s

end Sys2Proof.Machine
end

