-- ==== Sys2Proof/Machine/Graph.lean ====
section
/-! DEFINITION. Graph images and their registration, launch words, eligibility and the end of a launch (R42, R270 to R272, R278 to
R287). -/

namespace Sys2Proof.Machine

/-! ## The dispatcher's reads and writes (R279) -/

/-- A dispatcher's work: it changes the state, and ends with a STATUS of R280 where it fails. -/
abbrev Disp (α : Type) := ExceptT Nat (StateM State) α

/-- The status of a read that must wait at its home unit. No register shows it. -/
def mustWait : Nat := 255

/-- Work that fails with a status unless a condition holds. -/
def need (ok : Bool) (status : Nat) : Disp Unit := if ok then pure () else throw status

/-- The page of an address as the dispatcher translates it for a tenant, with the right it needs; STATUS 5 without it. -/
def dispPage (t : Nat) (va : Word) (write : Bool) : Disp Page := do
  need (canonical va) 5
  let s ← get
  let (r, s) := translate s t va
  set s
  match r with
  | .error _ => throw 5
  | .ok p =>
    need (if write then p.wr else p.rd) 5
    pure p

/-- `n` bytes that lie on one page, up to a line (R279); what a place outside the package holds is left open (log entry 3). -/
def dispRead (t : Nat) (va : Word) (n : Nat) : Disp (List Byte) := do
  let p ← dispPage t va false
  let s ← get
  let l := homePlace s p va false
  need (!unplacedHere s l && !poisonedAt s l n && !linkDown s l) 5
  need (mayAccess s (dieOfLoc l) l p n none false) mustWait
  let (ext, s) := freeLine s
  set (touch s (dieOfLoc l) l p .read n)
  pure (readWide s l n ext p)

/-- The eight words of a 64-byte line. -/
def dispWords (t : Nat) (va : Word) : Disp (List Word) := do
  let bs ← dispRead t va 64
  pure ((List.range 8).map fun i => word (leNat ((bs.drop (8 * i)).take 8)))

/-- A range is read line by line. -/
def dispRange (t : Nat) (va : Word) (n : Nat) : Disp Unit := do
  need (notCanonical va n).isNone 5
  (rangeLines va n).forM fun a => do
    let _ ← dispRead t a 64

/-! ## Node records (R42, R271, R282) -/

/-- A COPY node has no kernel. -/
def Kernel.none : Kernel := { role := 0, allot := 8, spbytes := 0, winbytes := 0, prio := 0, dclass := 0, tvec := Option.none }

def recEntry (ws : List Word) : Word := sext48 (ws.getD 0 0)
def recKind (ws : List Word) : Nat := fld 62 2 (ws.getD 0 0)
def recPrio (ws : List Word) : Nat := fld 48 5 (ws.getD 0 0)
def recSuccs (ws : List Word) : Nat := fld 0 4 (ws.getD 1 0)

/-- Successor field `k` of words 5 to 7. -/
def succField (ws : List Word) (k : Nat) : Nat := fld (16 * (k % 4)) 16 (ws.getD (5 + k / 4) 0)

def GNode.succs (g : GNode) : List Nat := (List.range (recSuccs g.words)).map (succField g.words)
def GNode.prio (g : GNode) : Nat := recPrio g.words

/-- Initial threads of a SWARM record, and the cores of a ROW record's segments. -/
def recThreads (ws : List Word) : Nat := fld 16 16 (ws.getD 1 0)
def recSize (ws : List Word) : Nat := 2 * 2 ^ fld 32 2 (ws.getD 1 0)

/-- The layout of a record (R271, R282). -/
def recordOk (ws : List Word) : Bool :=
  let w := fun i => ws.getD i 0
  fld 53 9 (w 0) == 0 && decide (recPrio ws ≤ 23) && decide (recSuccs ws ≤ 12) &&
  ((List.range 12).all fun k => decide (k < recSuccs ws) || succField ws k == 0) &&
  (match recKind ws with
    | 0 =>
      fld 34 30 (w 1) == 0 && fld 4 12 (w 1) == 0 && fld 32 2 (w 1) != 0 && decide (1 ≤ recThreads ws) && decide (recThreads ws ≤ 512) &&
      fld 0 3 (w 2) == 0 && w 3 == 0 && w 4 == 0
    | 1 =>
      fld 4 12 (w 1) == 0 && decide (1 ≤ recThreads ws) && decide (recThreads ws ≤ fld 32 32 (w 1)) && fld 0 3 (w 2) == 0 &&
      fld 0 6 (w 3) == 0 && fld 48 12 (w 4) == 0 && fld 0 6 (w 4) == 0
    | 2 =>
      fld 0 48 (w 0) == 0 && fld 4 58 (w 1) == 0 && fld 0 4 (w 2) == 0 && fld 0 4 (w 3) == 0 && fld 0 4 (w 4) == 0 &&
      decide (16 ≤ (w 4).toNat) && decide ((w 4).toNat ≤ 2 ^ 40)
    | _ => false)

/-- Successor indices (R272): below `n`, not the node's own, not repeated. -/
def succsOk (ws : List Word) (n own : Nat) : Bool :=
  let xs := (List.range (recSuccs ws)).map (succField ws)
  xs.all (fun x => decide (x < n) && x != own) && xs.eraseDups.length == xs.length

/-! ## Segments (R195, R282) -/

/-- The key of a segment: its row and the column of its westmost core, in fours. -/
def segKey (die row idx size : Nat) : Nat := (die * 64 + row) * 4 + idx * size / 4

/-- The cores of a segment of a size at a key. -/
def segCores (key size : Nat) : List Nat := (List.range size).map fun i => key * 4 + i

/-- The key that a placement doubleword names, if it is well formed (R282). -/
def placedKey (d : Word) (size : Nat) : Option Nat :=
  if fld 17 47 d = 0 && fld 14 2 d = 0 && fld 2 6 d = 0 && fld 0 2 d < 16 / size then some (segKey (fld 16 1 d) (fld 8 6 d) (fld 0 2 d) size)
  else none

/-- A ROWS list: read (5); its segments owned and apart (6). -/
def dispRows (t : Nat) (ws : List Word) : Disp (List Nat) := do
  let rows := ws.getD 2 0
  if rows = 0 then pure []
  else
    let size := recSize ws
    let keys ← (List.range (recThreads ws)).mapM fun i => do
      let bs ← dispRead t (rows + word (8 * i)) 8
      pure (placedKey (word (leNat bs)) size)
    let s ← get
    need (keys.all fun k => match k with | some k => ownsRow (getTenant s t) (k / 4) | none => false) 6
    let ks := keys.filterMap id
    need (ks.eraseDups.length == ks.length) 6
    pure ks

/-- Node `i` of `n` read and checked (R280 step 3). -/
def dispNode (t : Nat) (image : Word) (n i : Nat) : Disp GNode := do
  let ws ← dispWords t (image + word (64 + 64 * i))
  need (recordOk ws) 2
  need (succsOk ws n i) 3
  if recKind ws = 2 then pure { words := ws, kernel := Kernel.none }
  else
    let e := recEntry ws
    need (fld 0 6 e == 0) 1
    let h ← dispRead t (e - 64) 64
    match (headerOf e h).filter fun k => k.role == recKind ws with
    | none => throw 1
    | some k =>
      if recKind ws = 1 then
        dispRange t (ws.getD 2 0) (8 * recThreads ws)
        dispRange t (ws.getD 3 0) (64 * recThreads ws)
        pure { words := ws, kernel := k }
      else
        let ks ← dispRows t ws
        pure { words := ws, kernel := k, segs := ks }

/-- Predecessors of a node: its initial counter (R272). -/
def predCount (gs : List GNode) (i : Nat) : Nat := (gs.filter fun g => g.succs.contains i).length

/-- Nodes without a predecessor are taken away round by round. -/
def peel (gs : List GNode) : Nat → List Nat → List Nat
  | 0, left => left
  | f + 1, left =>
    peel gs f (left.filter fun i => left.any fun j => match gs[j]? with | some g => g.succs.contains i | none => false)

/-- The successor relation has no cycle. -/
def acyclic (gs : List GNode) : Bool := (peel gs gs.length (List.range gs.length)).isEmpty

/-- The checks of R280 in their order: the registered nodes, or the STATUS. -/
def dispGraph (t : Nat) (image : Word) : Disp (Nat × List GNode) := do
  let s ← get
  match (List.range 1024).find? fun h => (amGet (getTenant s t).graphs h).isNone with
  | none => throw 4
  | some h =>
    if fld 0 6 image != 0 then
      dispRange t image 64
      throw 2
    else
      let hd ← dispWords t image
      let n := fld 0 11 (hd.getD 0 0)
      need (fld 11 53 (hd.getD 0 0) == 0 && (hd.drop 1).all (· == 0) && decide (1 ≤ n) && decide (n ≤ 1024)) 2
      let gs ← (List.range n).mapM (dispNode t image n)
      need (acyclic gs) 3
      pure (h, gs)

/-! ## Registration and release (R279 to R281) -/

/-- REG_STORE (R279): `slot` and the word `v`; ignored while BUSY is 1. -/
def execRegStore (s : State) : Result :=
  .next (unlessSwitching s .regStore fun s =>
    modTenant s s.arg.slot fun x => if x.regBusy then x else { x with regBusy := true, regJob := some s.arg.v })

/-- REGISTRATION_COMPLETE (R279, R280): the image is checked, and REGSTAT is written with the handle or the status. -/
def execRegistrationComplete (s : State) : Result :=
  let t := s.arg.slot
  match (getTenant s t).regJob with
  | none => .next s
  | some image =>
    match (dispGraph t image).run.run s with
    | (.ok (h, gs), s) =>
      .next (modTenant s t fun x => { x with graphs := amSet x.graphs h { nodes := gs }, regBusy := false, regJob := none,
                                             regHandle := BitVec.ofNat 10 h, regStatus := 0 })
    | (.error st, s') =>
      if st = mustWait then .next s
      else .next (modTenant s' t fun x => { x with regBusy := false, regJob := none, regStatus := BitVec.ofNat 8 st })

/-- UNREG_STORE (R281): `slot` and the word `v`; ignored while BUSY is 1, with a reserved field that is not zero (R278), and for a free
handle. -/
def execUnregStore (s : State) : Result :=
  let h := fld 0 10 s.arg.v
  .next (unlessSwitching s .unregStore fun s => modTenant s s.arg.slot fun x =>
    match amGet x.graphs h with
    | none => x
    | some g => if x.regBusy || fld 10 54 s.arg.v != 0 then x
      else { x with regBusy := true, unregJob := some h, graphs := amSet x.graphs h { g with releasing := true } })

/-- HANDLE_RELEASE (R281): the handle is free once no launch of it is unfinished. -/
def execHandleRelease (s : State) : Result :=
  .next (modTenant s s.arg.slot fun x =>
    match x.unregJob with
    | none => x
    | some h => if x.launches.any fun l => l.handle == h then x
      else { x with regBusy := false, unregJob := none, graphs := amErase x.graphs h })

/-! ## Launch words (R278, R284) -/

def getQueue (s : State) (t q : Nat) : Queue := amGetD {} (getTenant s t).queues q
def modQueue (s : State) (t q : Nat) (f : Queue → Queue) : State :=
  modTenant s t fun x => { x with queues := amSet x.queues q (f (amGetD {} x.queues q)) }

/-- The argument block address (R284, R369). -/
def argAddress (base : BitVec 42) (v : Word) : Word := sext48 (base.setWidth 64 <<< 6) + word (fld 6 34 v * 64)

/-- The cause code of a refusal, in the order of R284 (R289). -/
def launchRefusal (s : State) (t : Nat) (v : Word) : Option Nat :=
  let x := getTenant s t
  let q := fld 48 6 v
  if !(getQueue s t q).en then some 6
  else if (match amGet x.graphs (fld 54 10 v) with | some g => g.releasing | none => true) then some 4
  else if 256 ≤ (x.launches.filter fun l => l.queue == q).length then some 5
  else if !canonical (argAddress (getQueue s t q).argbase v) then some 7
  else none

/-- A launch's nodes, before it is eligible. -/
def freshNodes (gs : List GNode) : List LNode := gs.mapIdx fun i _ => { counter := predCount gs i, phase := .waiting }

/-- A launch is accepted: it takes its number, its argument address and the image of memory its contexts fetch from (R284, R100). -/
def acceptLaunch (s : State) (t : Nat) (v : Word) : State :=
  let q := fld 48 6 v
  let n := (getQueue s t q).accepted + 1
  let gs := match amGet (getTenant s t).graphs (fld 54 10 v) with | some g => g.nodes | none => []
  let (i, s) := takeId s
  let l : Launch :=
    { id := i, number := n, queue := q, handle := fld 54 10 v, args := argAddress (getQueue s t q).argbase v, since := s.cycle,
      eligible := none, prio := (getQueue s t q).prio, nodes := freshNodes gs }
  let s := modQueue s t q fun y => { y with accepted := n }
  modTenant { s with images := s.images ++ [{ launch := i, mem := s.mem }] } t fun x => { x with launches := x.launches ++ [l] }

/-- LAUNCH_STORE (R278, R284): `slot` and the word `v`; `num` dispatcher cycles after the last event. -/
def execLaunchStore (s : State) : Result :=
  let t := s.arg.slot
  let v := s.arg.v
  let q := fld 48 6 v
  let s := { s with cycle := s.cycle + s.arg.num }
  .next (if fld 40 8 v != 0 || fld 0 6 v != 0 then s
  else match launchRefusal s t v with
    | some c =>
      setLastErr (modQueue s t q fun y => { y with refused := y.refused + 1 }) t q c 0 ((getQueue s t q).accepted + 1)
    | none => acceptLaunch s t v)

/-! ## Eligibility (R285) -/

/-- The head of a queue, if it is not eligible yet. -/
def waitingHead (x : Tenant) (q : Nat) : Option Launch :=
  (x.launches.find? fun l => l.queue == q).bind fun l => if l.eligible.isNone then some l else none

/-- The first cycle in which a head may become eligible. -/
def headFrom (x : Tenant) (l : Launch) : Nat :=
  max x.eligFrom (max (l.since + 1) (amGetD ({} : Queue) x.queues l.queue).idleFrom)

/-- The choice among heads: highest PRIO, then the first queue after the one taken last (R285). -/
def chooseHead (x : Tenant) (hs : List Launch) : Option Launch :=
  let prio := fun (l : Launch) => (amGetD ({} : Queue) x.queues l.queue).prio.toNat
  let dist := fun (l : Launch) => (l.queue + 63 - x.lastQueue) % 64
  hs.foldl (fun best l => match best with
    | none => some l
    | some b => if prio b < prio l || (prio b = prio l && dist l < dist b) then some l else best) none

/-- Nodes that have reached zero become ready (R272, R285); a failed launch drops them (R289). -/
def readyNodes (cycle : Nat) (failed : Bool) (ns : List LNode) : List LNode :=
  updWhere (fun n => n.phase == .waiting && n.counter == 0)
    (fun n => { n with phase := if failed then .dropped else .ready cycle }) ns

/-- LAUNCH_ELIGIBLE (R285): `slot`; `num` dispatcher cycles after the last event at the earliest. -/
def execLaunchEligible (s : State) : Result :=
  let t := s.arg.slot
  let x := getTenant s t
  let heads := (List.range 64).filterMap (waitingHead x)
  match heads with
  | [] => .next s
  | h :: rest =>
    let first := rest.foldl (fun m l => min m (headFrom x l)) (headFrom x h)
    let c := max (s.cycle + s.arg.num) first
    match chooseHead x (heads.filter fun l => headFrom x l ≤ c) with
    | none => .next s
    | some l =>
      let p := (getQueue s t l.queue).prio
      let s := modLaunch { s with cycle := c } t l.id fun l => { l with eligible := some c, prio := p, nodes := readyNodes c false l.nodes }
      .next (modTenant s t fun x => { x with lastQueue := l.queue, eligFrom := c + 1 })

/-! ## The end of a launch (R287) -/

/-- An access that a node of the launch made is not performed at `.pkg` (R287): of a context that has ended, or of its copy commands. -/
def launchOwes (s : State) (l : Launch) : Bool :=
  let mine := fun (n : Option NodeRef) => match n with | some r => r.launch == l.id | none => false
  (s.reqs.any fun r => mine r.node && !r.done && !(isStore r.op && leavesPackage s r.loc)) ||
  s.cores.any fun e => (e.2.sbuf.any fun b => mine b.node && !leavesPackage s b.loc) || (e.2.chans.any fun c => mine c.2.node) ||
    e.2.saved.any fun v => v.chans.any fun c => mine c.2.node

/-- No node runs, none can start, and every access of its nodes is performed (R287). -/
def launchOver (s : State) (l : Launch) : Bool :=
  l.eligible.isSome && l.nodes.all (fun n => n.phase != .running) && (l.failed || l.nodes.all fun n => n.phase == .complete) &&
  !launchOwes s l

/-- LAUNCH_FINISH (R287): `slot` and `id` name a launch that is over; FAILED and then DONE count it. -/
def execLaunchFinish (s : State) : Result :=
  let t := s.arg.slot
  match (getTenant s t).launches.find? fun l => l.id == s.arg.id with
  | none => .next s
  | some l =>
    if !launchOver s l then .next s
    else
      let c := s.cycle + s.arg.num
      let s := modQueue s t l.queue fun y =>
        { y with failed := if l.failed then y.failed + 1 else y.failed, done := y.done + 1, idleFrom := c + 1 }
      let s := modTenant s t fun x => { x with launches := x.launches.filter fun y => y.id != l.id }
      .next { s with cycle := c, images := s.images.filter fun i => i.launch != l.id }

end Sys2Proof.Machine
end

