-- ==== Sys2Proof/Machine/Integer.lean ====
section
/-! DEFINITION. Integer arithmetic, `home` and constants (R83 to R87). None of these words sets a flag or traps at execution. -/

namespace Sys2Proof.Machine

/-- A register–register word: `g[rd]` := `f g[ra] g[rb]` (R83). -/
def alu2 (f : Word → Word → Word) (w : Bool) (d a b : Reg) (s : State) : Result :=
  settle (check { srcs := [a, b], dst := some d, w := w, ports := true } plain s)
    (fun s => finish d (f (src s a) (src s b)) 0 s) s

/-- A word of one register operand (R83, R85). -/
def alu1 (f : State → Word → Word) (w : Bool) (d a : Reg) (s : State) : Result :=
  settle (check { srcs := [a], dst := some d, w := w, ports := true } plain s) (fun s => finish d (f s (src s a)) 0 s) s

/-- A word with an immediate: I formats have no W bit (R86). -/
def aluImm (f : Word → Word) (d a : Reg) (s : State) : Result :=
  settle (check { srcs := [a], dst := some d, ports := true } plain s) (fun s => finish d (f (src s a)) 0 s) s

/-- A word that reads no register (R87). Its opcode may not name a bound register (R244). -/
def aluConst (f : State → Word) (d : Reg) (s : State) : Result :=
  settle (check { srcs := [], dst := some d } plain s) (fun s => finish d (f s) 0 s) s

/-! ## Results -/

/-- The shift count of a register shift (R83). -/
def shiftOf (b : Word) : Nat := fld 0 6 b

def smaller (a b : Word) : Word := if a.toInt ≤ b.toInt then a else b
def larger (a b : Word) : Word := if a.toInt ≤ b.toInt then b else a
def smallerU (a b : Word) : Word := if a.toNat ≤ b.toNat then a else b
def largerU (a b : Word) : Word := if a.toNat ≤ b.toNat then b else a

/-- Bits 127:64 of an exact product (R83). -/
def highProduct (x : Int) : Word := BitVec.ofInt 64 (x / 2 ^ 64)

/-- The pseudocode of R84 for signed operands: quotient and remainder, truncated toward zero; the overflow wraps. -/
def divS (a b : Word) : Word := if b = 0 then allOnes 64 else BitVec.ofInt 64 (a.toInt.tdiv b.toInt)
def remS (a b : Word) : Word := if b = 0 then a else BitVec.ofInt 64 (a.toInt.tmod b.toInt)

/-- R84 for unsigned operands. -/
def divU (a b : Word) : Word := if b = 0 then allOnes 64 else word (a.toNat / b.toNat)
def remU (a b : Word) : Word := if b = 0 then a else word (a.toNat % b.toNat)

/-- The slice that homes an address for a requester on die `d` (R85). -/
def homeSlice (d : Nat) (a : Word) : Word := word (d * 64 + fld 6 6 a)

/-- Zero bits above the highest one, below the lowest one, and the number of ones (R83). -/
def leadingZeros (a : Word) : Nat := ((List.range 64).takeWhile fun i => !a.getLsbD (63 - i)).length
def trailingZeros (a : Word) : Nat := ((List.range 64).takeWhile fun i => !a.getLsbD i).length
def ones (a : Word) : Nat := ((List.range 64).filter fun i => a.getLsbD i).length

/-! ## Meanings -/

/-- `add` (R83). -/
def execAdd (w : Bool) (d a b : Reg) (s : State) : Result := alu2 (fun x y => x + y) w d a b s

/-- `sub` (R83). -/
def execSub (w : Bool) (d a b : Reg) (s : State) : Result := alu2 (fun x y => x - y) w d a b s

/-- `and` (R83). -/
def execAnd (w : Bool) (d a b : Reg) (s : State) : Result := alu2 (fun x y => x &&& y) w d a b s

/-- `or` (R83). -/
def execOr (w : Bool) (d a b : Reg) (s : State) : Result := alu2 (fun x y => x ||| y) w d a b s

/-- `xor` (R83). -/
def execXor (w : Bool) (d a b : Reg) (s : State) : Result := alu2 (fun x y => x ^^^ y) w d a b s

/-- `sll` (R83). -/
def execSll (w : Bool) (d a b : Reg) (s : State) : Result := alu2 (fun x y => x <<< shiftOf y) w d a b s

/-- `srl` (R83). -/
def execSrl (w : Bool) (d a b : Reg) (s : State) : Result := alu2 (fun x y => x >>> shiftOf y) w d a b s

/-- `sra` (R83). -/
def execSra (w : Bool) (d a b : Reg) (s : State) : Result := alu2 (fun x y => x.sshiftRight (shiftOf y)) w d a b s

/-- `slt` (R83). -/
def execSlt (w : Bool) (d a b : Reg) (s : State) : Result := alu2 (fun x y => ofFlag (decide (x.toInt < y.toInt))) w d a b s

/-- `sltu` (R83). -/
def execSltu (w : Bool) (d a b : Reg) (s : State) : Result := alu2 (fun x y => ofFlag (decide (x.toNat < y.toNat))) w d a b s

/-- `min` (R83). -/
def execMin (w : Bool) (d a b : Reg) (s : State) : Result := alu2 (smaller) w d a b s

/-- `max` (R83). -/
def execMax (w : Bool) (d a b : Reg) (s : State) : Result := alu2 (larger) w d a b s

/-- `minu` (R83). -/
def execMinu (w : Bool) (d a b : Reg) (s : State) : Result := alu2 (smallerU) w d a b s

/-- `maxu` (R83). -/
def execMaxu (w : Bool) (d a b : Reg) (s : State) : Result := alu2 (largerU) w d a b s

/-- `mul` (R83). -/
def execMul (w : Bool) (d a b : Reg) (s : State) : Result := alu2 (fun x y => x * y) w d a b s

/-- `mulh` (R83). -/
def execMulh (w : Bool) (d a b : Reg) (s : State) : Result := alu2 (fun x y => highProduct (x.toInt * y.toInt)) w d a b s

/-- `mulhu` (R83). -/
def execMulhu (w : Bool) (d a b : Reg) (s : State) : Result := alu2 (fun x y => highProduct ((x.toNat : Int) * y.toNat)) w d a b s

/-- `mulhsu` (R83). -/
def execMulhsu (w : Bool) (d a b : Reg) (s : State) : Result := alu2 (fun x y => highProduct (x.toInt * y.toNat)) w d a b s

/-- `div` (R84). -/
def execDiv (w : Bool) (d a b : Reg) (s : State) : Result := alu2 (divS) w d a b s

/-- `divu` (R84). -/
def execDivu (w : Bool) (d a b : Reg) (s : State) : Result := alu2 (divU) w d a b s

/-- `rem` (R84). -/
def execRem (w : Bool) (d a b : Reg) (s : State) : Result := alu2 (remS) w d a b s

/-- `remu` (R84). -/
def execRemu (w : Bool) (d a b : Reg) (s : State) : Result := alu2 (remU) w d a b s

/-- `home` (R85). -/
def execHome (w : Bool) (d a : Reg) (s : State) : Result := alu1 (fun s x => homeSlice (dieOf (coreOf (me s))) x) w d a s

/-- `clz` (R83). -/
def execClz (w : Bool) (d a : Reg) (s : State) : Result := alu1 (fun _ x => word (leadingZeros x)) w d a s

/-- `ctz` (R83). -/
def execCtz (w : Bool) (d a : Reg) (s : State) : Result := alu1 (fun _ x => word (trailingZeros x)) w d a s

/-- `popc` (R83). -/
def execPopc (w : Bool) (d a : Reg) (s : State) : Result := alu1 (fun _ x => word (ones x)) w d a s

/-- `addi` (R86). -/
def execAddi (i : BitVec 11) (d a : Reg) (s : State) : Result := aluImm (fun x => x + sextImm i) d a s

/-- `andi` (R86). -/
def execAndi (i : BitVec 11) (d a : Reg) (s : State) : Result := aluImm (fun x => x &&& sextImm i) d a s

/-- `ori` (R86). -/
def execOri (i : BitVec 11) (d a : Reg) (s : State) : Result := aluImm (fun x => x ||| sextImm i) d a s

/-- `xori` (R86). -/
def execXori (i : BitVec 11) (d a : Reg) (s : State) : Result := aluImm (fun x => x ^^^ sextImm i) d a s

/-- `slti` (R86). -/
def execSlti (i : BitVec 11) (d a : Reg) (s : State) : Result := aluImm (fun x => ofFlag (decide (x.toInt < (sextImm i).toInt))) d a s

/-- `sltiu` (R86). -/
def execSltiu (i : BitVec 11) (d a : Reg) (s : State) : Result := aluImm (fun x => ofFlag (decide (x.toNat < (sextImm i).toNat))) d a s

/-- `slli` (R86). -/
def execSlli (c : BitVec 6) (d a : Reg) (s : State) : Result := aluImm (fun x => x <<< c.toNat) d a s

/-- `srli` (R86). -/
def execSrli (c : BitVec 6) (d a : Reg) (s : State) : Result := aluImm (fun x => x >>> c.toNat) d a s

/-- `srai` (R86). -/
def execSrai (c : BitVec 6) (d a : Reg) (s : State) : Result := aluImm (fun x => x.sshiftRight c.toNat) d a s

/-- `lui` (R87). -/
def execLui (i : BitVec 18) (d : Reg) (s : State) : Result := aluConst (fun _ => upperImm i) d s

/-- `adpc` (R87): the address of the word itself is added. -/
def execAdpc (i : BitVec 18) (d : Reg) (s : State) : Result := aluConst (fun s => s.cur.pc + upperImm i) d s

end Sys2Proof.Machine
end

