-- ==== Sys2Proof/Machine/Matrix.lean ====
section
/-! DEFINITION. The matrix engine: its words, its queue, its sums, and the operand latch (R187 to R192, R213, R248 to R260). -/

namespace Sys2Proof.Machine

/-! ## Issue -/

/-- Room for a command: the queue of 8 and the context's limit of 2 (R189, R257). -/
def mRoom (k : Core) (cid : Nat) : Bool :=
  decide (k.mq.length < 8) && decide ((k.mq.filter fun m => m.ctx == cid).length < 2)

def fmtA (m : BitVec 8) : Nat := (m.extractLsb' 0 4).toNat
def fmtB (m : BitVec 8) : Nat := (m.extractLsb' 4 4).toNat

/-- R250: the formats go together and the depth suits them. -/
def fmtOk (m : BitVec 8) (d : Nat) : Bool :=
  ((decide (fmtA m ≤ 3) && decide (fmtB m ≤ 3)) || (fmtA m == 4 && fmtB m == 4)) &&
  (!(isBD (fmtA m) || isBD (fmtB m)) || d % 32 == 0)

/-- *d* from DEPTH (R187). -/
def depthOf (n : BitVec 4) : Nat := 8 * (n.toNat + 1)

/-- The row ranges and then the scale ranges of a command (R252). -/
def mmaRanges (m : BitVec 8) (sa sb : BitVec 17) (sd : Bool) (d : Nat) (a b : Word) : List (Word × Nat) × List (Word × Nat) :=
  ([(a, rowBytes (fmtA m) * d)] ++ (if sd then [(b, rowBytes (fmtB m) * d)] else []),
   (if isBD (fmtA m) then [(sa.setWidth 64, 2 * d)] else []) ++ (if sd && isBD (fmtB m) then [(sb.setWidth 64, 2 * d)] else []))

/-- The checks of `mma` and `mma.rot` at issue (R189, R250, R252, R257). -/
def mmaVerdict (sd : Bool) (d : Nat) (a b : Word) (s : State) (k : Core) (c : Ctx) : Verdict :=
  if !mRoom k (me s) then .park .queue
  else if !fmtOk c.mfmt d then .trap .illop (curWord s)
  else
    let (rows, scales) := mmaRanges c.mfmt c.mscla c.msclb sd d a b
    match (rows.find? fun r => r.1.toNat % 64 != 0).orElse fun _ => scales.find? fun r => r.1.toNat % 2 != 0 with
    | some r => .trap .misalign r.1
    | none => match (rows ++ scales).find? fun r => decide (windowBase k < r.1.toNat + r.2) with
      | some r => .trap .prot r.1
      | none => .go

/-- A command enters the queue and joins the open batch (R189, R250). -/
def mIssue (m : MCmd) (s : State) : State := modCore s (coreOf m.ctx) fun k => { k with mq := k.mq ++ [m] }

/-- A command of the current word, as captured at issue (R250). -/
def mCapture (s : State) (c : Ctx) (id : Nat) (kind : MKind) (bank sd z : Bool) (d : Nat) (a b : Word) : MCmd :=
  { id := id, ctx := me s, kind := kind, word := s.cur.word.getD 0, bank := bank, sd := sd, z := z, depth := d, a := a, b := b,
    mfmt := c.mfmt, mscla := c.mscla, msclb := c.msclb, prio := c.prio, batch := nextBatch c.committed, state := .waiting, k := 0,
    waited := 0, pages := [], frozen := 0, ctab := [] }

/-- The bank's last writer becomes the command (R256). -/
def setLast (s : State) (core : Nat) (bank : Bool) (w : Option Writer) : State :=
  modCore s core fun k => if bank then { k with last1 := w } else { k with last0 := w }

def lastOf (k : Core) (bank : Bool) : Option Writer := if bank then k.last1 else k.last0

/-- `mma` and `mma.rot` (R187, R188, R248, R252). -/
def mmaWord (kind : MKind) (sd z w bank : Bool) (n : BitVec 4) (a b : Reg) (s : State) : Result :=
  settle (check { srcs := if sd then [a, b] else [a], w := w, mem := true }
      (fun s k c => mmaVerdict sd (depthOf n) (src s a) (if sd then src s b else 0) s k c) s)
    (fun s =>
      match curCtx s with
      | none => s
      | some c =>
        let (i, s) := takeId s
        let m := mCapture s c i kind bank sd z (depthOf n) (src s a) (if sd then src s b else 0)
        done (setLast (mIssue m s) (coreOf (me s)) bank (some { ctx := me s, batch := m.batch }))) s

/-- `mma` (R248). -/
def execMma (w k : Bool) (n : BitVec 4) (a b : Reg) (s : State) : Result := mmaWord .mma true false w k n a b s

/-- `mma.z` (R248). -/
def execMmaZ (w k : Bool) (n : BitVec 4) (a b : Reg) (s : State) : Result := mmaWord .mma true true w k n a b s

/-- `mma.rot` (R187, R188). -/
def execMmaRot (w k : Bool) (n : BitVec 4) (a : Reg) (s : State) : Result := mmaWord .rot false false w k n a 0 s

/-- `mma.rot.z` (R187, R188). -/
def execMmaRotZ (w k : Bool) (n : BitVec 4) (a : Reg) (s : State) : Result := mmaWord .rot false true w k n a 0 s

/-- `mma.rot.sd` (R187, R188). -/
def execMmaRotSd (w k : Bool) (n : BitVec 4) (a b : Reg) (s : State) : Result := mmaWord .rot true false w k n a b s

/-- `mma.rot.sd.z` (R187, R188). -/
def execMmaRotSdZ (w k : Bool) (n : BitVec 4) (a b : Reg) (s : State) : Result := mmaWord .rot true true w k n a b s

/-! ## Moving accumulators (R191, R255, R256) -/

/-- Address of 64-byte line `j` of the 32 rows of 128 bytes. -/
def bankLine (a b : Word) (j : Nat) : Word := a + word (j / 2) * b + word (64 * (j % 2))

/-- The last writer belongs to an open batch (R189, R256). -/
def writerOpen (s : State) (w : Option Writer) : Bool :=
  match w with
  | none => false
  | some w => w.stuck || (match getCtx s w.ctx with | some c => w.batch == nextBatch c.committed | none => false)

/-- R255. -/
def moveVerdict (wr bank : Bool) (a b : Word) (s : State) (k : Core) (c : Ctx) : Verdict :=
  if !mRoom k (me s) then .park .queue
  else if fld 0 6 a != 0 then .trap .misalign a
  else if fld 0 6 b != 0 then .trap .misalign b
  else
    match ((List.range 32).map fun i => a + word i * b).find? fun x => !canonical x with
    | some x => .trap .prot x
    | none =>
      match (List.range 64).findSome? fun j =>
          match pageCheck k c (bankLine a b j) (!wr) wr with
          | .error v => some v
          | .ok _ => none with
      | some (.walk va _ f) => .walk va wr f
      | some v => v
      | none => if writerOpen s (lastOf k bank) then .trap .acchaz (curWord s) else .go

/-- The commands that an `mstc` or `mldc` waits for: those of the bank's last writer's context, up to its batch, that have not completed,
in the queue or saved (R189, R256). -/
def afterIds (k : Core) (w : Option Writer) : List Nat :=
  match w with
  | none => []
  | some w =>
    ((k.mq ++ k.saved.flatMap (·.mq)).filter fun m => m.ctx == w.ctx && decide (batchDist w.batch m.batch < 2 ^ 31)).map (·.id)

/-- `mstc` and `mldc` (R187, R191, R255). -/
def moveWord (wr w bank : Bool) (a b : Reg) (s : State) : Result :=
  settle (check { srcs := [a, b], w := w, mem := true } (fun s k c => moveVerdict wr bank (src s a) (src s b) s k c) s)
    (fun s =>
      match curCtx s with
      | none => s
      | some c =>
        let k := my s
        let x := src s a
        let y := src s b
        let (i, s) := takeId s
        let pages := (List.range 64).map fun j => (pageEntry k c.vmid (bankLine x y j)).getD (pageIn [] c.vmid x)
        let m := { mCapture s c i (if wr then .mstc else .mldc) bank false false 0 x y with
          pages := pages, after := afterIds k (lastOf k bank) }
        let s := mIssue m s
        let s := if wr then
            claimLines s (matrixEngine (coreOf (me s))) i (me s) (pages.getD 0 (pageIn [] c.vmid x)) x
              ((List.range 64).map fun j => homePlace s (pages.getD j (pageIn [] c.vmid x)) (bankLine x y j) true)
          else setLast s (coreOf (me s)) bank (some { ctx := me s, batch := m.batch })
        done s) s

/-- `mstc` (R187, R191, R255). -/
def execMstc (w k : Bool) (a b : Reg) (s : State) : Result := moveWord true w k a b s

/-- `mldc` (R248, R255). -/
def execMldc (w k : Bool) (a b : Reg) (s : State) : Result := moveWord false w k a b s

/-! ## Batches (R189, R190) -/

/-- The last completed id, from the commands of the context still in the queue. -/
def refreshBatch (k : Core) (cid : Nat) (c : Ctx) : Ctx :=
  match (k.mq.find? fun m => m.ctx == cid && m.batch != nextBatch c.committed) with
  | none => { c with completed := c.committed }
  | some m => if m.batch = 1 then (if c.completed = 0 then c else { c with completed := allOnes 32 }) else { c with completed := m.batch - 1 }

/-- `mcommit` (R189): the id is full at once. -/
def execMcommit (d : Reg) (s : State) : Result :=
  settle (check { srcs := [], dst := some d, mem := true } plain s)
    (fun s =>
      match curCtx s with
      | none => s
      | some c =>
        let b := nextBatch c.committed
        let s := modCtx s (me s) fun c => refreshBatch (my s) (me s) { c with committed := b }
        settleWaits (done (writeReg s (me s) d (b.setWidth 64))) (coreOf (me s))) s

/-- `mwait` (R189, R190). -/
def execMwait (w : Bool) (a : Reg) (s : State) : Result :=
  settle (check { srcs := [a], w := w, mem := true } (fun s _ c =>
      let x := (src s a).extractLsb' 0 32
      if x != 0 && (c.committed = 0 || decide (2 ^ 31 ≤ batchDist c.committed x)) then .trap .acchaz (src s a) else .go) s)
    (fun s =>
      match curCtx s with
      | none => s
      | some c =>
        let x := (src s a).extractLsb' 0 32
        if batchDone c x then retire s else holdNow (.mwait x) s) s

/-! ## The engine's choice (R258) -/

/-- Effective priority (R258). -/
def MCmd.eff (m : MCmd) : Nat := min (m.prio.toNat + m.waited / 256) 23

/-- A command is uncompleted: in the queue of a core, or saved (R259). -/
def cmdLive (s : State) (id : Nat) : Bool :=
  (s.cores.any fun e => (e.2.mq.any fun m => m.id == id) || e.2.saved.any fun x => x.mq.any fun m => m.id == id) ||
  s.tenants.any fun t => t.2.savedSegs.any fun g => g.ctxs.any fun x => x.mq.any fun m => m.id == id

/-- The batches that an `mstc` or `mldc` waits for have completed. -/
def afterDone (s : State) (m : MCmd) : Bool := !m.after.any (cmdLive s)

/-- The candidates (R258): of each context its oldest command suspended or not yet started, if its bank is free for it; an
empty purse starts none (R334). -/
def mCandidates (s : State) (k : Core) : List MCmd :=
  let live := k.mq.filter fun m => m.state == .waiting || m.state == .suspended
  let oldest := live.filter fun m => match live.find? fun x => x.ctx == m.ctx with | some x => x.id == m.id | none => false
  oldest.filter fun m =>
    !(k.mq.any fun x => x.bank == m.bank && (x.state == .running || (x.state == .suspended && x.id != m.id))) &&
    !(k.mq.any fun x => x.state == .running && x.ctx == m.ctx) && afterDone s m &&
    (m.state == .suspended || !purseEmpty s ((getCtx s m.ctx).map (·.tslot) |>.getD 0))

/-- The best candidate: highest effective priority, a suspended one first, then the earliest issued (R258). -/
def mBest (cs : List MCmd) : Option MCmd :=
  cs.foldl (fun best m => match best with
    | none => some m
    | some b =>
      if b.eff < m.eff || (b.eff = m.eff && m.state = .suspended && b.state != .suspended) then some m else best) none

/-- Accumulator cells of a bank. -/
def bankOf (k : Core) (bank : Bool) : AMap (BitVec 32) := if bank then k.a1 else k.a0
def setBank (k : Core) (bank : Bool) (m : AMap (BitVec 32)) : Core := if bank then { k with a1 := m } else { k with a0 := m }

/-- The 1,024 cells in order, without those that are zero. -/
def packBank (f : Nat → BitVec 32) : AMap (BitVec 32) :=
  (List.range 1024).filterMap fun i => if f i = 0 then none else some (i, f i)

/-- A command starts or restarts: it takes the code table in force when it first starts, and Z clears its bank then (R187, R226, R258). -/
def mStart (k : Core) (m : MCmd) : Core :=
  let m' := { m with state := .running, frozen := m.eff, ctab := if m.state = .suspended then m.ctab else k.ctabBytes }
  let k := if m.state != .suspended && m.z then setBank k m.bank [] else k
  { k with mq := updWhere (fun x => x.id == m.id) (fun _ => m') k.mq }

/-- The engine's choice at an idle cycle or a boundary (R258). -/
def mSchedule (s : State) (core : Nat) : State :=
  let k := getCore s core
  match mBest (mCandidates s k) with
  | none => s
  | some x =>
    match k.mq.find? fun m => m.state == .running with
    | none => setCore s core (mStart k x)
    | some r =>
      if (r.kind = .mma || r.kind = .rot) && r.got.isEmpty && !(k.mq.any fun m => m.state == .suspended) && r.frozen < x.eff then
        let k := { k with mq := updWhere (fun m => m.id == r.id) (fun m => { m with state := .suspended, waited := 0 }) k.mq }
        setCore s core (mStart k x)
      else s

/-- MATRIX_ENGINE_SCHEDULE (R258): `unit` is the core; `pairs` gives, by command id, the cycles each command has waited. -/
def execMatrixEngineSchedule (s : State) : Result :=
  let core := s.arg.unit
  let s := modCore s core fun k => { k with mq := k.mq.map fun m =>
    if m.state = .waiting || m.state = .suspended then { m with waited := max m.waited (amGetD 0 s.arg.pairs m.id) } else m }
  .next (if coreStopped s core then s else mSchedule s core)

/-! ## Products and sums (R251, R253, R254) -/

/-- Code `m` of a row in a format. -/
def rowCode (fmt : Nat) (row : List Byte) (m : Nat) : Nat :=
  if fmt ≤ 1 then leNat ((row.drop (2 * m)).take 2)
  else if fmt = 2 then (row.getD m 0).toNat
  else (row.getD (m / 2) 0).toNat / 16 ^ (m % 2) % 16

/-- An element as an exact value under its format and scale line (R251). -/
def rowValue (fmt : Nat) (row scale : List Byte) (m : Nat) : FVal :=
  let c := rowCode fmt row m
  if fmt = 0 then unpack fp16 c
  else if fmt = 1 then unpack bf16 c
  else bdExact (if fmt = 2 then bd8 else bd4) c (scale.getD (2 * m) 0).toNat (scale.getD (2 * m + 1) 0).toNat

/-- An entry of the code table (R226). -/
def codeEntry (tab : List Byte) (c : Nat) : Int := (tab.getD c 0).toInt

/-- A row pair of a group: the A row and the B row with the scale lines in force. -/
structure RowPair where
  a : List Byte
  sa : List Byte
  b : List Byte
  sb : List Byte
  deriving DecidableEq, Repr

/-- The new cells after one group (R253, R254). -/
def groupCells (fa fb : Nat) (tab : List Byte) (old : AMap (BitVec 32)) (rows : List RowPair) : AMap (BitVec 32) :=
  if fa = 4 then
    let cols := rows.map fun r => ((List.range 32).map fun m => codeEntry tab (rowCode 4 r.a m),
      (List.range 32).map fun n => codeEntry tab (rowCode 4 r.b n))
    packBank fun i => amGetD 0 old i + BitVec.ofInt 32 (cols.foldl (fun acc (x, y) => acc + x.getD (i / 32) 0 * y.getD (i % 32) 0) 0)
  else
    let cols := rows.map fun r => ((List.range 32).map (rowValue fa r.a r.sa), (List.range 32).map (rowValue fb r.b r.sb))
    let z : FVal := .fin false 0 0
    packBank fun i => BitVec.ofNat 32 (groupSum (amGetD 0 old i).toNat
      (cols.map fun (x, y) => prodVal (x.getD (i / 32) z) (y.getD (i % 32) z)))

/-- The core whose latch takes the rows that a core passes on: the next in its segment's ring, or the core itself (R188, R249). -/
def eastOf (s : State) (core : Nat) : Nat :=
  match s.segs.find? fun e => e.2.cores.any fun x => x.2.1 == core with
  | none => core
  | some (_, g) =>
    let cs := g.cores.map (·.2.1)
    match (cs.dropWhile (· != core)).drop 1 with
    | n :: _ => n
    | [] => cs.headD core

/-- B row `j` of a command that takes its rows from scratchpad, with the scale line that goes with it (R251). -/
def spRow (k : Core) (m : MCmd) (j : Nat) : LatchRow :=
  let fb := fmtB m.mfmt
  { bytes := (engineSp k (m.b.toNat + rowBytes fb * j) (rowBytes fb)).1,
    scale := if isBD fb && j % 32 == 0 then some (engineSp k (m.msclb.toNat + 2 * j) 64).1 else none }

/-- The next B row of an `mma.rot`: from scratchpad, or the head row of the own latch, removed (R188, R251). -/
def takeRow (k : Core) (m : MCmd) : Option (LatchRow × Core) :=
  if m.sd then some (spRow k m (m.k + m.got.length), k)
  else match k.latch with
    | r :: rest => some (r, { k with latch := rest })
    | [] => none

/-- A row as the latch holds it: 64 bytes, those beyond the row left open (R188; log entry 3). -/
def latchForm (s : State) (r : LatchRow) : LatchRow × State :=
  if 64 ≤ r.bytes.length then (r, s)
  else
    let (f, s) := freeLine s
    ({ r with bytes := r.bytes ++ f.drop r.bytes.length }, s)

/-- The row that the engine holds for the east latch leaves, unless that latch and the rows on their way to it make 128 (R188). -/
def appendRow (s : State) (core : Nat) : State :=
  match (getCore s core).sending with
  | none => s
  | some r =>
    let east := eastOf s core
    let e := getCore s east
    if e.latch.length + e.inbound.length < 128 then
      modCore (modCore s core fun k => { k with sending := none }) east fun k => { k with inbound := k.inbound ++ [r] }
    else s

/-- The rows of a group of an `mma.rot`, one by one: each is taken once the one before it has been appended east (R188). -/
def rotRows (core id : Nat) : Nat → State → State
  | 0, s => s
  | n + 1, s =>
    let s := appendRow s core
    let k := getCore s core
    if k.sending.isSome then s
    else match k.mq.find? fun m => m.id == id with
      | none => s
      | some m =>
        if 8 ≤ m.got.length then s
        else match takeRow k m with
          | none => s
          | some (r, k) =>
            let s := setCore s core { k with mq := updWhere (fun x => x.id == id) (fun x => { x with got := x.got ++ [r] }) k.mq }
            let (r, s) := latchForm s r
            rotRows core id n (modCore s core fun k => { k with sending := some { r with cmd := id } })

/-- The sums of a group whose eight B rows are here (R253, R254), and what comes after it. -/
def sumGroup (s : State) (core : Nat) (m : MCmd) (rows : List LatchRow) : State :=
  let k := getCore s core
  let fa := fmtA m.mfmt
  let fb := fmtB m.mfmt
  -- the B scales in force: those that came with a row, else what the manual leaves open
  let (open_, s) := if isBD fb && m.bscale.isEmpty && (rows.headD ⟨[], none, 0⟩).scale.isNone then freeLine s else ([], s)
  let first := if m.bscale.isEmpty then open_ else m.bscale
  let (pairs, sb) := (rows.zip (List.range 8)).foldl (fun (acc, sb) (r, i) =>
    let j := m.k + i
    let sb := r.scale.getD sb
    let sa := if isBD fa then (engineSp k (m.mscla.toNat + 2 * (j / 32 * 32)) 64).1 else []
    (acc ++ [{ a := (engineSp k (m.a.toNat + rowBytes fa * j) (rowBytes fa)).1, sa := sa, b := r.bytes, sb := sb }], sb))
    (([] : List RowPair), first)
  let bad := spPoisoned k (m.a.toNat + rowBytes fa * m.k) (8 * rowBytes fa) ||
    (m.sd && spPoisoned k (m.b.toNat + rowBytes fb * m.k) (8 * rowBytes fb))
  let k := setBank k m.bank (groupCells fa fb m.ctab (bankOf k m.bank) pairs)
  let m' := { m with k := m.k + 8, bscale := sb, got := [], state := if m.depth ≤ m.k + 8 then .draining else .running }
  let s := setCore s core { k with mq := updWhere (fun x => x.id == m.id) (fun _ => m') k.mq }
  if bad then engineReport s ((getCtx s m.ctx).map (·.tslot) |>.getD 0) core (if m.bank then 1 else 0) ((getCtx s m.ctx).bind (·.node))
      .poison false (m.a + word (rowBytes fa * m.k))
    else s

/-- One group of a running `mma` or `mma.rot`; an `mma.rot` waits for each row that it takes and for each that it appends (R188). -/
def mmaGroup (s : State) (core : Nat) (m : MCmd) : State :=
  if m.kind = .rot then
    let s := rotRows core m.id 9 s
    match (getCore s core).mq.find? fun x => x.id == m.id with
    | some m => if 8 ≤ m.got.length then sumGroup s core m m.got else s
    | none => s
  else sumGroup s core m ((List.range 8).map fun i => spRow (getCore s core) m (m.k + i))

/-- MMA_GROUP (R253): `unit` is the core; its running `mma` or `mma.rot` performs one group. -/
def execMmaGroup (s : State) : Result :=
  let core := s.arg.unit
  match (getCore s core).mq.find? fun m => m.state == .running && (m.kind == .mma || m.kind == .rot) with
  | none => .next s
  | some m => .next (if coreStopped s core then s else mmaGroup s core m)

/-- LATCH_ROW_ARRIVE (R188, R213): `unit` is the core whose latch takes its next row, unless it holds 128. -/
def execLatchRowArrive (s : State) : Result :=
  .next (modCore s s.arg.unit fun k =>
    match k.inbound with
    | r :: rest => if k.latch.length < 128 then { k with latch := k.latch ++ [r], inbound := rest } else k
    | [] => k)

/-! ## Completion (R255, R257) -/

/-- Line `j` of a bank, as `mstc` writes it. -/
def bankBytes (b : AMap (BitVec 32)) (j : Nat) : List Byte := (List.range 16).flatMap fun i => leBytes 4 (amGetD 0 b (16 * j + i)).toNat

/-- The next line of a running `mstc`, once the claim is performed and the home is ready. -/
def mstcLine (s : State) (core : Nat) (m : MCmd) : State :=
  let va := bankLine m.a m.b m.k
  let p := m.pages.getD m.k (pageIn [] 0 va)
  let die := dieOf core
  let l := homePlace s p va true
  if !claimDone s m.id then s
  else if !mayAccess s die l p 64 (some (matrixEngine core, m.id)) true then countHold s die l p 64
  else
    let t := (getCtx s m.ctx).map (·.tslot) |>.getD 0
    let s := engineWrite s die t m.ctx m.id p va (bankBytes (bankOf (getCore s core) m.bank) m.k) false
    let later := (List.range 64).any fun j => decide (m.k < j) && homePlace s (m.pages.getD j p) (bankLine m.a m.b j) true == l
    let s := if later then s else unclaimLine s m.id l
    modCore s core fun k => { k with mq := updWhere (fun x => x.id == m.id) (fun x => { x with k := x.k + 1 }) k.mq }

/-- The next line of a running `mldc`: a poisoned or failed source gives zero cells and a record (R260). -/
def mldcLine (s : State) (core : Nat) (m : MCmd) : State :=
  let va := bankLine m.a m.b m.k
  let p := m.pages.getD m.k (pageIn [] 0 va)
  let die := dieOf core
  let l := homePlace s p va false
  if !engineReady s core p l 64 m.ctx (matrixEngine core) m.id then countHold s die l p 64
  else
    let s := touch s die l p .read 64
    let down := linkDown s l
    let bad := down || poisonedAt s l 64
    let bs := if bad then List.replicate 64 0 else readWide s l 64 s.arg.bytes p
    let s := if bad then engineReport s ((getCtx s m.ctx).map (·.tslot) |>.getD 0) core (if m.bank then 1 else 0)
        ((getCtx s m.ctx).bind (·.node))
        (if down then .rlink else .poison) false va else s
    modCore s core fun k =>
      let b := bankOf k m.bank
      let k := setBank k m.bank (packBank fun i =>
        if i / 16 = m.k then BitVec.ofNat 32 (leNat ((bs.drop (4 * (i % 16))).take 4)) else amGetD 0 b i)
      { k with mq := updWhere (fun x => x.id == m.id) (fun x => { x with k := x.k + 1 }) k.mq }

/-- A command leaves the queue: its lent ranges and claims end, and its batch may have completed (R189, R192, R257). -/
def mFinish (s : State) (core : Nat) (m : MCmd) : State :=
  let s := dropClaim s m.id
  let s := modCore s core fun k => { k with mq := k.mq.filter fun x => x.id != m.id }
  settleWaits (modCtx s m.ctx fun c => refreshBatch (getCore s core) m.ctx c) core

/-- A command of the queue ends, or goes on (R257). -/
def matrixComplete (s : State) (core : Nat) (m : MCmd) : State :=
  match m.kind with
  | .mma => if m.state = .draining then mFinish s core m else s
  | .rot =>
    if m.state != .draining then s
    else
      let s := appendRow s core
      let onWay := (getCore s core).sending.toList ++ (getCore s (eastOf s core)).inbound
      if onWay.any fun r => r.cmd == m.id then s else mFinish s core m
  | .mstc =>
    if m.state != .running then s else if 64 ≤ m.k then mFinish s core m else mstcLine s core m
  | .mldc =>
    if m.state != .running then s else if 64 ≤ m.k then mFinish s core m else mldcLine s core m

/-- MATRIX_COMMAND_COMPLETE (R257): `unit` is the core and `id` the command. An `mma` that has performed its last products completes; an
`mma.rot` once its last row is in the east latch too; an `mstc` or `mldc` moves its next line, and completes after its last. -/
def execMatrixCommandComplete (s : State) : Result :=
  let core := s.arg.unit
  match (getCore s core).mq.find? fun m => m.id == s.arg.id with
  | none => .next s
  | some m => .next (if coreStopped s core then s else matrixComplete s core m)

end Sys2Proof.Machine
end

