-- ==== Sys2Proof/Machine/Sequencer.lean ====
section
/-! DEFINITION. The words of the row sequencer, the row predicates, the end of a segment, and what each of its cores executes next (R72,
R194, R200 to R205, R212, R314). -/

namespace Sys2Proof.Machine

/-! ## Sequencer registers and words -/

/-- `k0` reads as zero (R72). -/
def kreg (g : Seg) (r : KReg) : Word := if r = 0 then 0 else amGetD 0 g.k r.toNat

/-- `k0` discards writes (R72). -/
def putK (g : Seg) (r : KReg) (v : Word) : Seg := if r = 0 then g else { g with k := amSet g.k r.toNat v }

/-- A sequencer word changes its segment, whose PC still names the word (R199). -/
def atSequencer (f : Seg → Seg) (s : State) : Result :=
  match s.cur.lane with
  | .sequencer k => match getSeg s k with
    | some g => .next (setSeg s k (f g))
    | none => .fault .noIssuer
  | _ => .fault .noIssuer

/-- A sequencer word with a result goes on at the next word. -/
def kResult (d : KReg) (v : Seg → Word) (s : State) : Result :=
  atSequencer (fun g => putK { g with pc := g.pc + 4 } d (v g)) s

/-- A taken branch goes on at its target after one bubble (R199, R201). -/
def kBranch (taken : Bool) (off : Word) (g : Seg) : Seg :=
  if taken then { g with pc := g.pc + off, bubbles := 1 } else { g with pc := g.pc + 4 }

/-- `kadd` (R201). -/
def execKadd (d a b : KReg) (s : State) : Result := kResult d (fun g => kreg g a + kreg g b) s

/-- `ksub` (R201). -/
def execKsub (d a b : KReg) (s : State) : Result := kResult d (fun g => kreg g a - kreg g b) s

/-- `kand` (R201). -/
def execKand (d a b : KReg) (s : State) : Result := kResult d (fun g => kreg g a &&& kreg g b) s

/-- `kor` (R201). -/
def execKor (d a b : KReg) (s : State) : Result := kResult d (fun g => kreg g a ||| kreg g b) s

/-- `kxor` (R201). -/
def execKxor (d a b : KReg) (s : State) : Result := kResult d (fun g => kreg g a ^^^ kreg g b) s

/-- `ksll` (R201): by bits 5:0, as R83. -/
def execKsll (d a b : KReg) (s : State) : Result := kResult d (fun g => kreg g a <<< fld 0 6 (kreg g b)) s

/-- `ksrl` (R201): by bits 5:0, as R83. -/
def execKsrl (d a b : KReg) (s : State) : Result := kResult d (fun g => kreg g a >>> fld 0 6 (kreg g b)) s

/-- `kmul` (R201): the low 64 bits. -/
def execKmul (d a b : KReg) (s : State) : Result := kResult d (fun g => kreg g a * kreg g b) s

/-- `kaddi` (R194). -/
def execKaddi (i : BitVec 11) (d a : KReg) (s : State) : Result := kResult d (fun g => kreg g a + sextImm i) s

/-- `kbeq` (R201). -/
def execKbeq (i : BitVec 11) (a b : KReg) (s : State) : Result :=
  atSequencer (fun g => kBranch (kreg g a == kreg g b) (off11 i) g) s

/-- `kbne` (R201). -/
def execKbne (i : BitVec 11) (a b : KReg) (s : State) : Result :=
  atSequencer (fun g => kBranch (kreg g a != kreg g b) (off11 i) g) s

/-- `kloop` (R194, R202). -/
def execKloop (i : BitVec 11) (a : KReg) (s : State) : Result :=
  atSequencer (fun g => let v := kreg g a - 1; kBranch (v != 0) (off11 i) (putK g a v)) s

/-- `kj` (R201). -/
def execKj (i : BitVec 18) (s : State) : Result := atSequencer (kBranch true (off18 i)) s

/-- `rend` (R194): no further word is sent. -/
def execRend (s : State) : Result := atSequencer (fun g => { g with pc := g.pc + 4, phase := .ending false }) s

/-! ## Row predicates (R203) -/

/-- A core's predicate joins the outstanding answer. -/
def joinPredicate (p : Bool) (g : Seg) : Seg :=
  match g.rowWait with
  | some (kd, any, acc, left) => { g with rowWait := some (kd, any, if any then acc || p else acc && p, left) }
  | none => g

/-- `rowany` and `rowall` at a core: the word's destination and kind stand in the sequencer, which sent it; in a barrel it is ILLOP
(R59). -/
def rowPredicate (w : Bool) (a : Reg) (s : State) : Result :=
  settle (check { srcs := [a], w := w } (fun s _ _ => match s.cur.lane with | .stream .. => .go | _ => .trap .illop (curWord s)) s)
    (fun s => match s.cur.lane with
      | .stream seg _ _ _ => done (modSeg s seg (joinPredicate (src s a != 0)))
      | _ => s) s

/-- `rowany` (R203). -/
def execRowany (w : Bool) (_d : KReg) (a : Reg) (s : State) : Result := rowPredicate w a s

/-- `rowall` (R203). -/
def execRowall (w : Bool) (_d : KReg) (a : Reg) (s : State) : Result := rowPredicate w a s

/-! ## The end of a segment (R205, R211, R301) -/

/-- The context ids of a segment. -/
def Seg.ids (g : Seg) : List Nat := g.cores.map fun x => ctxId x.2.1 x.2.2

/-- Every copy byte that a context issued has landed. -/
def copiesLanded (k : Core) (cid : Nat) : Bool :=
  !(k.chans.any fun e => e.2.ctx == some cid && e.2.kind == .copy && decide (e.2.done < e.2.len))

/-- A stream context may be freed (R205): its release is of what it did before `upto`. -/
def streamOver (s : State) (upto cid : Nat) : Bool :=
  nothingOwed s cid && noMatrix s cid && copiesLanded (getCore s (coreOf cid)) cid && fenceMet s cid 2 upto &&
  (match getCtx s cid with | some c => (match c.status with | .held _ => false | _ => true) | none => true)

/-- No record of the segment waits for room in the ring (R301). -/
def recordsWritten (s : State) (t k : Nat) : Bool := !((getTenant s t).faults.waiting.any fun r => r.seg == some k)

/-- Every core has executed every word sent. -/
def segDrained (g : Seg) : Bool :=
  (match g.phase with | .ending _ => true | _ => false) && g.pipe.all Option.isNone && g.rowWait.isNone && g.plan.isNone

/-- The conditions of R205. -/
def segOver (s : State) (k : Nat) (g : Seg) : Bool :=
  segDrained g && g.ids.all (streamOver s (g.upto.getD s.nextId)) && recordsWritten s g.tslot k

/-- A core leaves its segment: its latch is empty, `seg` and `ribpos` read 0 (R205). -/
def clearCore (k : Core) : Core := { k with latch := [], inbound := [], sending := none, seg := 0, ribpos := 0 }

/-! ## What a core executes next (R64, R212) -/

/-- The words sent that some core has still to execute, oldest first, each with the first position that has. -/
def wordsUnderWay (g : Seg) : List PipeWord :=
  (g.pipe.mapIdx fun p w => w.map fun w => { w with first := max w.first (p + 1) }).reverse.filterMap id ++ g.again

/-- `repc` of a run that resumes at repetition `i` (R64). -/
def resumeRep (i left : Nat) : Word := if i = 0 then 0 else repcWord i left

/-- The PC and `repc` at which a context of a segment resumes (R64, R212): the oldest word that it has still to execute, else the
sequencer's next; the word after it where its push has been made. -/
def coreNext (s : State) (g : Seg) (pos cid : Nat) : Word × Word :=
  let ws := (wordsUnderWay g).filter fun w => w.first ≤ pos
  let early := match getCtx s cid with | some c => c.early | none => false
  match (if early then ws.drop 1 else ws) with
  | w :: _ => (w.pc, match w.rep with | some r => resumeRep r.i r.left | none => 0)
  | [] =>
    let (pc, run) := match early && ws.isEmpty, (planBeat s g).1 with
      | true, .ok p => (p.pc, p.repRun)
      | _, _ => (g.pc, g.repRun)
    (pc, match run with | some (i, left) => resumeRep i left | none => 0)

/-- What is under way for a context is gone with its core: its buffered stores, walks, port operations, requests but drained stores,
and answers (R314; log entry 26). -/
def dropWork (s : State) (cid : Nat) : State :=
  let store := fun (op : ReqOp) => match op with | .store _ => true | _ => false
  let s := modCore s (coreOf cid) fun k => { k with sbuf := k.sbuf.filter fun e => e.ctx != cid, vq := k.vq.filter fun v => v.ctx != cid }
  { s with
    walks := s.walks.filter fun w => w.ctx != some cid
    ports := s.ports.filter fun o => o.ctx != cid
    reqs := s.reqs.filter fun r => r.ctx != cid || store r.op
    flights := s.flights.filter fun f => f.sender != .ctx cid
    tlbis := s.tlbis.filter fun t => t.ctx != some cid
    octets := s.octets.map fun o => (o.1, { o.2 with reqs := o.2.reqs.filter fun r => r.ctx != cid }) }

/-- A record of a core error (R314). -/
def coreRecord (s : State) (t : Nat) (n : Option NodeRef) (pc : Word) (who : Nat) : State :=
  (report s (.tenant t) (nodeWords s t n { kind := .coreError, cause := .poison, pc := pc, who := word who })).2

/-- A core in no segment has stopped: its contexts and waiting arrivals are recorded and freed, its engines' work is gone, and its
column is to be quarantined (R314, R315). -/
def killCore (s : State) (core : Nat) : State :=
  let k := getCore s core
  let s := k.ctxs.foldl (fun s e =>
    let cid := ctxId core e.1
    endCtx (dropWork (coreRecord s e.2.tslot e.2.node e.2.pc cid) cid) cid) s
  let s := k.arrivals.foldl (fun s c => countNode (coreRecord s c.tslot c.node c.pc (core * 64)) c.tslot c.node false) s
  let s := (k.mq.map (·.id) ++ k.chans.map fun e => e.2.id).foldl dropClaim s
  let s := modCore s core fun k => { k with arrivals := [], mq := [], chans := [], vq := [], sbuf := [], dead := true }
  match (getRow s (rowOf core)).physical (colOf core) with
  | some x => modRow s (rowOf core) fun r => if r.pending.contains x then r else { r with pending := r.pending ++ [x] }
  | none => s

/-- A core that an uncorrectable error stopped while its segment ran is quarantined once that has completed (R214). -/
def settleDead (s : State) (core : Nat) : State := if (getCore s core).dead then killCore s core else s

/-- The segment is gone: its contexts are freed, and its node has one segment less to wait for. -/
def endSegment (s : State) (k : Nat) (g : Seg) : State :=
  let s := g.ids.foldl (fun s cid => removeCtx (closeStep s cid) cid) s
  let s := g.cores.foldl (fun s x => settleDead (modCore s x.2.1 clearCore) x.2.1) s
  let s := { s with segs := amErase s.segs k }
  match g.node with
  | none => s
  | some n => modNode s g.tslot n fun x =>
    { x with segs := x.segs.filter (· != k), failed := x.failed || (match g.phase with | .ending f => f | _ => false) }

/-- SEGMENT_COMPLETE (R205): `unit` is the segment. -/
def execSegmentComplete (s : State) : Result :=
  match getSeg s s.arg.unit with
  | none => .next s
  | some g =>
    -- the release covers what was done when the last word had been executed (R117)
    let g := if segDrained g && g.upto.isNone then { g with upto := some s.nextId } else g
    let s := setSeg s s.arg.unit g
    .next (if segOver s s.arg.unit g then endSegment s s.arg.unit g else s)

end Sys2Proof.Machine
end

