-- ==== Sys2Proof/Machine/Nodes.lean ====
section
/-! DEFINITION. Starting nodes, initial threads, copy nodes, completions and graph signals (R128, R182, R204, R273 to R277, R283, R288,
R289). -/

namespace Sys2Proof.Machine

/-! ## The ready queue (R275) -/

/-- A ready node with what orders it. -/
structure Ready where
  launch : Launch
  node : Nat
  g : GNode
  cycle : Nat
  deriving DecidableEq, Repr

/-- The ready nodes of a launch. -/
def readyOf (x : Tenant) (l : Launch) : List Ready :=
  match amGet x.graphs l.handle with
  | none => []
  | some gr => (l.nodes.mapIdx fun i n => (i, n)).filterMap fun (i, n) =>
    match n.phase, gr.nodes[i]? with
    | .ready c, some g => some ⟨l, i, g, c⟩
    | _, _ => none

def allReady (x : Tenant) : List Ready := x.launches.flatMap (readyOf x)

/-- `a` leaves the queue before `b` (R275). -/
def Ready.before (a b : Ready) : Bool :=
  let e := fun (r : Ready) => r.launch.eligible.getD 0
  if a.g.prio != b.g.prio then decide (b.g.prio < a.g.prio)
  else if a.cycle != b.cycle then decide (a.cycle < b.cycle)
  else if e a != e b then decide (e a < e b)
  else decide (a.node < b.node)

/-- The head among ready nodes. -/
def headOf (rs : List Ready) : Option Ready :=
  rs.foldl (fun best r => match best with | none => some r | some b => if r.before b then some r else some b) none

/-- The head of a tenant's queue in cycle `c`: a node starts in the cycle after it became ready at the earliest. -/
def readyHead (x : Tenant) (c : Nat) : Option Ready := headOf ((allReady x).filter fun r => r.cycle < c)

/-- The cycle of the next start: `c` or later, after the last start and after some node became ready. -/
def startCycle (x : Tenant) (c : Nat) : Nat :=
  let c := max c x.startFrom
  match allReady x with
  | [] => c
  | r :: rest => max c (rest.foldl (fun m q => min m (q.cycle + 1)) (r.cycle + 1))

def Ready.ref (r : Ready) : NodeRef := ⟨r.launch.id, r.node⟩

/-- The launch of a node fails with a record of KIND 7 for the given cause (R289). -/
def failNode (s : State) (t : Nat) (n : NodeRef) (code : Nat) (c : Cause) : State := failLaunch s t (some n) code c true

/-! ## ROW nodes (R204, R288) -/

/-- A core can take a stream context of a tenant now (R204, R288, R315). -/
def coreFree (s : State) (t core allot : Nat) : Bool :=
  coreExists s core && ownsRow (getTenant s t) (rowOf core) && (getRow s (rowOf core)).pending.isEmpty &&
  !(s.segs.any fun e => e.2.cores.any fun x => x.2.1 == core) && (freeSlot s t core).isSome && (freeRun (getCore s core) allot).isSome

def segFree (s : State) (t key size allot : Nat) : Bool := (segCores key size).all fun c => coreFree s t c allot

/-- The segments that the dispatcher may choose from: those of a size in the tenant's rows, lowest core ids first (R288). -/
def tenantSegs (s : State) (t size : Nat) : List Nat :=
  (List.range 512).filter fun k => k % 4 * 4 % size == 0 && ownsRow (getTenant s t) (k / 4)

/-- The segments on which a ROW node starts now, if they can all be had. -/
def rowPlan (s : State) (t : Nat) (g : GNode) : Option (List Nat) :=
  let size := recSize g.words
  let n := recThreads g.words
  let ks := if g.word 2 = 0 then ((tenantSegs s t size).filter fun k => segFree s t k size g.kernel.allot).take n else g.segs
  if ks.length = n && ks.all (fun k => segFree s t k size g.kernel.allot) then some ks else none

/-- The physical column of a core, relative to the westmost core of its segment (R196). -/
def positionOf (s : State) (first core : Nat) : Nat :=
  let x := fun c => ((getRow s (rowOf c)).physical (colOf c)).getD 0
  x core - x first

/-- `seg` and `ribpos` of a core (R196). -/
def segWord (idx size : Nat) : Word := (1 <<< 63 : Word) ||| word (idx * 4 + (if size = 4 then 1 else if size = 8 then 2 else 3))
def ribWord (span pos : Nat) : BitVec 13 := BitVec.ofNat 13 (span * 256 + pos)

/-- The continuation of a stream context (R69, R204). -/
def rowCont (s : State) (t : Nat) (l : Launch) (i : Nat) (g : GNode) : Cont :=
  let head := putFld 53 4 (g.kernel.allot / 8 - 1) (putFld 48 5 g.kernel.prio.toNat ((recEntry g.words).extractLsb' 0 48 |>.setWidth 64))
  { words := [head, l.args, 0, 0, 0, 0, 0, 0], vmid := (getTenant s t).vmid, tslot := t, node := some ⟨l.id, i⟩, dclass := g.kernel.dclass,
    tvec := none, tcause := 0 }

/-- A stream context placed on a core of a segment; its slot comes back. -/
def placeStream (s : State) (t core : Nat) (c : Cont) : Nat × State :=
  match freeSlot s t core, freeRun (getCore s core) c.allot with
  | some slot, some base =>
    (slot, modCtx (placeAt s core slot base c) (ctxId core slot) fun x => { x with stream := true })
  | _, _ => (0, s)

/-- R204 on one segment, the `idx`-th of its node. -/
def startSegment (s : State) (t : Nat) (l : Launch) (i : Nat) (g : GNode) (idx key : Nat) : State :=
  let size := recSize g.words
  let cs := segCores key size
  let first := key * 4
  let span := positionOf s first (first + size - 1) + 1
  let place1 := fun (st : State × List (Nat × Nat × Nat)) core =>
    let (slot, s) := placeStream st.1 t core (rowCont s t l i g)
    let pos := positionOf s first core
    let s := modCore s core fun k =>
      { clearCore k with seg := segWord (key % 4 * 4 / size) size, ribpos := ribWord span pos }
    (s, st.2 ++ [(pos, core, slot)])
  let (s, placed) := cs.foldl place1 (s, [])
  let x : Seg :=
    { tslot := t, vmid := (getTenant s t).vmid, node := some ⟨l.id, i⟩, die := key / 256, row := key / 4 % 64, index := key % 4 * 4 / size,
      size := size, span := span, allot := g.kernel.allot, dclass := g.kernel.dclass, pc := recEntry g.words, cores := placed,
      pipe := List.replicate span none, div := cs.foldl (fun m c => max m (getCore s c).div) 1 }
  setSeg s key (putK (putK x 1 l.args) 2 (word idx))

def startRow (s : State) (t : Nat) (r : Ready) (ks : List Nat) : State :=
  let s := modNode s t r.ref fun x => { x with phase := .running, segs := ks }
  (ks.zip (List.range ks.length)).foldl (fun s (k, idx) => startSegment s t r.launch r.node r.g idx k) s

/-! ## SWARM nodes (R182, R273) -/

/-- Every page of a node's ring is mapped with HOME SLICE and write rights (R182). -/
def ringOk (s : State) (t : Nat) : List Word → Bool × State
  | [] => (true, s)
  | a :: rest =>
    match translate s t a with
    | (.ok p, s) => if p.home = .slice && p.wr then ringOk s t rest else (false, s)
    | (.error _, s) => (false, s)

/-- The bytes of a dispatcher's read at its home, or that it must wait there. -/
def homeRead (s : State) (p : Page) (a : Word) (n : Nat) : Option (List Byte) × State :=
  let l := homePlace s p a false
  if !mayAccess s (dieOfLoc l) l p n none false then (none, s)
  else
    let (ext, s) := freeLine s
    (some (readWide s l n ext p), touch s (dieOfLoc l) l p .read n)

/-- The placement address and the record of thread `k`, read now; a page that is no longer there is waited for as that of a placement
address is (log entry 18). -/
def readThread (s : State) (t : Nat) (g : GNode) (k : Nat) : Except (Option (WalkFault × Word)) (Word × List Word) × State :=
  let pa := g.word 2 + word (8 * k)
  let ba := g.word 3 + word (64 * k)
  match translate s t pa with
  | (.error e, s) => (.error (some (e, pa)), s)
  | (.ok p, s) =>
    match translate s t ba with
    | (.error e, s) => (.error (some (e, ba)), s)
    | (.ok q, s) =>
      if !p.rd then (.error (some (.stage1, pa)), s)
      else if !q.rd then (.error (some (.stage1, ba)), s)
      else match homeRead s p pa 8 with
        | (none, s) => (.error none, s)
        | (some a, s) => match homeRead s q ba 64 with
          | (none, s) => (.error none, s)
          | (some bs, s) => (.ok (word (leNat a), (List.range 8).map fun i => word (leNat ((bs.drop (8 * i)).take 8))), s)

/-- The placement addresses and records of a node that are still to be read, in order, up to the first that must wait: why it must
(R273). -/
def readThreads (t : Nat) (n : NodeRef) (g : GNode) : Nat → State → Option (WalkFault × Word) × State
  | 0, s => (none, s)
  | f + 1, s =>
    match nodeState s t (some n) with
    | none => (none, s)
    | some x =>
      if recThreads g.words ≤ x.places.length then (none, s)
      else match readThread s t g x.places.length with
        | (.error e, s) => (e, s)
        | (.ok (a, ws), s) => readThreads t n g f (modNode s t n fun x => { x with places := x.places ++ [a], boots := x.boots ++ [ws] })

/-- A SWARM node starts: its ring is checked, and its placement and continuation words are read (R182, R273). -/
def startSwarm (s : State) (t : Nat) (r : Ready) : State :=
  let w := r.g.word 4
  let (ok, s) := if w = 0 then (true, s) else ringOk s t (rangePieces (baseOf 6 w) (64 * 2 ^ fld 60 4 w))
  if !ok then failNode s t r.ref 9 .prot
  else
    let s := modNode s t r.ref fun x => { x with phase := .running }
    let (_, s) := readThreads t r.ref r.g (recThreads r.g.words) s
    modTenant s t fun x => { x with delivering := x.delivering ++ [(r.launch.id, r.node)], sendFrom := max x.sendFrom (s.cycle + 1) }

/-! ## COPY nodes (R283) -/

/-- The final SRC, DST and length (R282, R283). -/
def copySrc (g : GNode) (l : Launch) : Word := g.word 2 + (if bit 63 (g.word 1) then l.args else 0)
def copyDst (g : GNode) (l : Launch) : Word := g.word 3 + (if bit 62 (g.word 1) then l.args else 0)
def copyLen (g : GNode) : Nat := (g.word 4).toNat

/-- The pages of some addresses, or the first that cannot be used: with the fault of a missing one, and without one where a right is
missing. -/
def walkPieces (t : Nat) (write : Bool) : List Word → List Page → State → Except (Word × Option WalkFault) (List Page) × State
  | [], ps, s => (.ok ps, s)
  | a :: rest, ps, s =>
    match translate s t a with
    | (.error e, s) => (.error (a, some e), s)
    | (.ok p, s) => if (if write then p.wr else p.rd) then walkPieces t write rest (ps ++ [p]) s else (.error (a, none), s)

/-- The pages of both ranges. -/
def copyPages (s : State) (t : Nat) (src dst : Word) (n : Nat) : Except (Word × Bool × Option WalkFault) (List Page × List Page) × State :=
  match walkPieces t false (rangePieces src n) [] s with
  | (.error (a, e), s) => (.error (a, false, e), s)
  | (.ok ps, s) =>
    match walkPieces t true (rangePieces dst n) [] s with
    | (.error (a, e), s) => (.error (a, true, e), s)
    | (.ok qs, s) => (.ok (ps, qs), s)

/-- A fault record that a node waits on, to the ring of its stage (R302). -/
def waitReport (s : State) (t : Nat) (n : NodeRef) (e : WalkFault) (r : Report) : State :=
  let r := nodeWords s t (some n) r
  let (tok, s) := match e with
    | .stage1 => report s (.tenant t) r
    | .stage2 g => report s .hyp { r with stage2 := true, addr := word g }
  modNode s t n fun x => { x with token := tok }

/-- The loader that runs a COPY node, as a party: that of the stack of its first destination frame (R283). -/
def copyLoader (l : Loc) : Nat := loaderEngine (match l with | .hbm a => a / 2 ^ 36 | _ => 8)

/-- The home place of an address of a range whose pages have been checked. -/
def placeIn (s : State) (t : Nat) (ps : List Page) (a : Word) (write : Bool) : Loc := homePlace s (pageIn ps (getTenant s t).vmid a) a write

/-- The checks and the claims of a COPY node (R283 steps 1 to 3, R339): the claims are performed once no drained store and no overtaken
load of the loader's die comes before them (R130, R131). -/
def checkCopy (s : State) (t : Nat) (n : NodeRef) (l : Launch) (g : GNode) : State :=
  let src := copySrc g l
  let dst := copyDst g l
  let len := copyLen g
  let refuse := fun (s : State) => modNode (failNode s t n 3 .prot) t n fun x => { x with failed := true }
  if (notCanonical src len).isSome || (notCanonical dst len).isSome then refuse s
  else match copyPages s t src dst len with
    | (.error (_, _, none), s) => refuse s
    | (.error (a, wr, some e), s) =>
      waitReport s t n e { kind := .loader, cause := .pfault, wr := wr, addr := a, waiter := some (.loader n.launch n.node) }
    | (.ok (ps, qs), s) =>
      let first := placeIn s t qs dst true
      let places := (rangeLines dst len).map fun a => placeIn s t qs a true
      if !ownsLoader s t first then refuse s
      else if places.any fun l => drainedOver s.reqs (dieOfLoc first) l 64 || overtakenOver s (dieOfLoc first) l 64 then s
      else
        let (i, s) := takeId s
        let s := { s with claims := s.claims ++ [{ cmd := i, engine := copyLoader first, lines := places.map Loc.line, performed := true }] }
        modNode s t n fun x => { x with cmd := i, srcPages := ps, dstPages := qs }

/-- A COPY node with its bytes still to move. -/
structure CopyJob where
  t : Nat
  n : NodeRef
  src : Word
  dst : Word
  len : Nat
  node : LNode
  deriving DecidableEq, Repr

/-- Where its first destination byte lies, whose stack's loader runs it (R283). -/
def CopyJob.first (s : State) (j : CopyJob) : Loc := placeIn s j.t j.node.dstPages j.dst true
def CopyJob.die (s : State) (j : CopyJob) : Nat := dieOfLoc (j.first s)

/-- The units from `m` to the end of the destination line (R334). -/
def CopyJob.units (j : CopyJob) : List Nat :=
  let m := j.node.moved
  (List.range ((64 - fld 0 6 (j.dst + word m)) / 16)).map (fun i => m + 16 * i) |>.filter (· < j.len)

def CopyJob.srcAt (s : State) (j : CopyJob) (m : Nat) : Page × Loc :=
  let p := pageIn j.node.srcPages (getTenant s j.t).vmid (j.src + word m)
  (p, homePlace s p (j.src + word m) false)
def CopyJob.dstAt (s : State) (j : CopyJob) (m : Nat) : Page × Loc :=
  let p := pageIn j.node.dstPages (getTenant s j.t).vmid (j.dst + word m)
  (p, homePlace s p (j.dst + word m) true)

def CopyJob.ready (s : State) (j : CopyJob) : Bool :=
  let may := fun (x : Page × Loc) w => mayAccess s (j.die s) x.2 x.1 16 (some (copyLoader (j.first s), j.node.cmd)) w
  !purseEmpty s j.t && j.units.all fun m => may (j.srcAt s m) false && may (j.dstAt s m) true

/-- The node as a unit leaves it: which source line it has recorded, and which destination line it has written poisoned (R260). -/
def CopyJob.mark (j : CopyJob) (m : Nat) (bad : Bool) : CopyJob :=
  if bad then { j with node := { j.node with badLine := lineMark (j.src + word m), badDst := lineMark (j.dst + word m) } } else j

/-- One unit of a COPY node (R260, R264). A source line that is poisoned or whose device failed is recorded once, whichever of its units
meets it, and a destination line written poisoned stays so. -/
def copyUnit (js : CopyJob × State) (m : Nat) (ext : List Byte) : CopyJob × State :=
  let (j, s) := js
  let a := j.src + word m
  let (p, l) := j.srcAt s m
  let (q, _) := j.dstAt s m
  let s := touch s (j.die s) l p .read 16
  let whole := homePlace s p (a &&& ~~~(63 : Word)) false
  let bad : Option Cause := if linkDown s l then some .rlink else if poisonedAt s whole 64 then some .poison else none
  let s := match bad with
    | some c =>
      if j.node.badLine = lineMark a then s
      else (report s (.tenant j.t) (nodeWords s j.t (some j.n) { kind := .loader, cause := c, addr := a &&& ~~~(63 : Word) })).2
    | none => s
  let bs := if bad.isSome then List.replicate 16 0 else readWide s l 16 ext p
  let d := j.dst + word m
  (j.mark m bad.isSome,
    engineWrite s (j.die s) j.t noContext j.node.cmd q d bs (bad.isSome || j.node.badDst == lineMark d))

/-- The next line moves; its claim ends with the last bytes that the node writes there (R283). -/
def copyLine (s : State) (j : CopyJob) (ext : List Byte) : State :=
  let us := j.units
  let (j, s) := (us.zip (List.range us.length)).foldl (fun js (m, i) => copyUnit js m (ext.drop (16 * i))) (j, s)
  let m := j.node.moved + 16 * us.length
  let l := (j.dstAt s j.node.moved).2
  let later := (rangeLines (j.dst + word m) (j.len - m)).any fun a => (placeIn s j.t j.node.dstPages a true).line == l.line
  let s := if later then s else unclaimLine s j.node.cmd l
  let s := modNode s j.t j.n fun x => { x with moved := m, badLine := j.node.badLine, badDst := j.node.badDst }
  if j.len ≤ m then dropClaim s j.node.cmd else s

/-- A running node of a launch: its launch, record and progress. -/
def runningNode (s : State) (t : Nat) (n : NodeRef) : Option (Launch × GNode × LNode) :=
  match launchOf s t (some n), gnodeOf s t (some n), nodeState s t (some n) with
  | some l, some g, some x => if x.phase = .running then some (l, g, x) else none
  | _, _, _ => none

/-- The node that an event names: launch `id`, node `idx`. -/
def argNode (s : State) : NodeRef := ⟨s.arg.id, s.arg.idx⟩

/-- COPY_NODE_COMPLETE (R283): the COPY node `idx` of launch `id` moves its next 64-byte line, of which the last brings every byte to its
home; `bytes` is what a remote source answers. A node that a RESOLVE let go on is checked again first. -/
def execCopyNodeComplete (s : State) : Result :=
  let t := s.arg.slot
  let n := argNode s
  match runningNode s t n with
  | none => .next s
  | some (l, g, x) =>
    if g.kind != 2 || x.token.isSome || x.failed then .next s
    else if x.cmd = 0 then .next (checkCopy s t n l g)
    else
      let j : CopyJob := { t := t, n := n, src := copySrc g l, dst := copyDst g l, len := copyLen g, node := x }
      .next (if x.moved < j.len && j.ready s then copyLine s j s.arg.bytes else s)

/-! ## NODE_START (R275, R288) -/

/-- NODE_START (R288): `slot`; the head of the ready queue starts, `num` dispatcher cycles after the last event at the earliest. -/
def execNodeStart (s : State) : Result :=
  let t := s.arg.slot
  let x := getTenant s t
  let c := startCycle x (s.cycle + s.arg.num)
  match readyHead x c with
  | none => .next s
  | some r =>
    let started := fun (s : State) => modTenant { s with cycle := c } t fun x => { x with startFrom := c + 1 }
    match r.g.kind with
    | 0 => (match rowPlan s t r.g with
      | some ks => .next (startRow (started s) t r ks)
      | none => .next s)
    | 1 => .next (startSwarm (started s) t r)
    | _ => .next (checkCopy (modNode (started s) t r.ref fun x => { x with phase := .running }) t r.ref r.launch r.g)

/-! ## INITIAL_THREAD_DELIVER (R273, R275) -/

/-- The die whose memory holds a page's frame (R178). -/
def dieOfPage (p : Page) (a : Word) : Nat := match p.loc a with | .hbm pa => pa / 2 ^ 38 % 2 | _ => 0

/-- The dispatcher waits for RESOLVE before it sends the record (R273). -/
def waitThread (s : State) (t : Nat) (n : NodeRef) (e : WalkFault) (a : Word) : State :=
  waitReport s t n e { kind := .dispatcher, cause := .pfault, addr := a, waiter := some (.dispatch n.launch n.node) }

/-- The next record of a node has been dealt with. -/
def sentThread (s : State) (t : Nat) (n : NodeRef) (unsent : Bool) : State :=
  modNode s t n fun x => { x with started := x.started + 1, delivered := if unsent then x.delivered + 1 else x.delivered }

/-- A record goes to the home core of its placement address, or cannot be placed (R178, R273). -/
def sendThread (s : State) (t : Nat) (n : NodeRef) (g : GNode) (a : Word) (ws : List Word) : State :=
  let cannot := fun (s : State) => unplaced (sentThread s t n true) t n a
  if !canonical a then cannot s
  else match translate s t a with
    | (.error e, s) => waitThread s t n e a
    | (.ok p, s) =>
      if !p.rd then cannot s
      else
        match homeCoreOf p (dieOfPage p a) a with
        | none => cannot s
        | some core =>
          let c : Cont := { words := ws, vmid := (getTenant s t).vmid, tslot := t, node := some n, dclass := g.kernel.dclass, tvec := none,
                            tcause := 0 }
          let (i, s) := takeId s
          let f : Flight := { id := i, core := core, cont := c, sender := .node n.launch n.node, isGo := false, addr := a }
          sentThread { s with flights := s.flights ++ [f] } t n false

/-- INITIAL_THREAD_DELIVER (R273, R275): `slot`; the next record of the first started node goes out, `num` dispatcher cycles after the
last event at the earliest. -/
def execInitialThreadDeliver (s : State) : Result :=
  let t := s.arg.slot
  match (getTenant s t).delivering with
  | [] => .next s
  | (l, i) :: rest =>
    let n : NodeRef := ⟨l, i⟩
    match gnodeOf s t (some n), nodeState s t (some n) with
    | some g, some x =>
      if recThreads g.words ≤ x.started then .next (modTenant s t fun y => { y with delivering := rest })
      else if x.token.isSome then .next s
      else
        let c := max (s.cycle + s.arg.num) (getTenant s t).sendFrom
        let (e, s) := readThreads t n g (recThreads g.words - x.places.length) s
        match nodeState s t (some n) with
        | none => .next s
        | some x =>
          if x.started < x.places.length then
            let s := modTenant { s with cycle := c } t fun y =>
              { y with sendFrom := c + 1, delivering := if recThreads g.words ≤ x.started + 1 then rest else y.delivering }
            .next (sendThread s t n g (x.places.getD x.started 0) (x.boots.getD x.started []))
          else match e with
            | some (e, a) => .next (waitThread s t n e a)
            | none => .next s
    | _, _ => .next (modTenant s t fun y => { y with delivering := rest })

/-! ## Completions and signals (R274, R276, R277, R128) -/

/-- The cycle in which a decrement is applied: in one cycle they go in the order of R276. -/
def decCycle (c : Nat) (l : Launch) (node kind ctx : Nat) : Nat :=
  match l.lastDec with
  | none => c
  | some (c0, n0, k0, x0) =>
    if c0 < c then c
    else if n0 < node || (n0 = node && (k0 < kind || (k0 = kind && x0 < ctx))) then c0 else c0 + 1

/-- The lowest successor whose counter is zero. -/
def zeroSucc (l : Launch) (succs : List Nat) : Option Nat :=
  (succs.filter fun i => match l.nodes[i]? with | some n => n.counter == 0 | none => false).foldl
    (fun m i => match m with | none => some i | some j => some (min i j)) none

/-- The counters of a node's successors fall by 1, and each that reaches zero is ready (R274). -/
def decrement (c : Nat) (succs : List Nat) (l : Launch) : Launch :=
  { l with nodes := readyNodes c l.failed (l.nodes.mapIdx fun i n => if succs.contains i then { n with counter := n.counter - 1 } else n) }

/-- The node has done all that R274, R283 and R288 ask. -/
def nodeOver (g : GNode) (x : LNode) : Bool :=
  match g.kind with
  | 0 => x.segs.isEmpty
  | 1 => x.live == 0 && x.delivered == recThreads g.words && x.started == recThreads g.words
  | _ => x.cmd != 0 && x.moved == copyLen g

/-- A completion that finds a counter at zero: no counter changes, a record names the node and the successor, and the launch fails
(R277, R289; log entry 19). -/
def graphFault (s : State) (t : Nat) (n : NodeRef) (succ : Nat) : State :=
  let s := failLaunch s t (some n) 1 .graphuf false
  (report s (.tenant t) (nodeWords s t (some n) { kind := .dispatcher, cause := .graphuf, addr := word succ, tval := 1 })).2

/-- NODE_COMPLETE (R274, R277): the node `idx` of launch `id`, `num` dispatcher cycles after the last event at the earliest. A COPY node
that failed a check ends without completing. -/
def execNodeComplete (s : State) : Result :=
  let t := s.arg.slot
  let n := argNode s
  match runningNode s t n with
  | none => .next s
  | some (l, g, x) =>
    if g.kind = 2 && x.failed then .next (modNode s t n fun x => { x with phase := .dropped })
    else if !nodeOver g x then .next s
    else
      let c := decCycle (s.cycle + s.arg.num) l n.node 1 0
      let s := modNode { s with cycle := c } t n fun x => { x with phase := .complete }
      let s := modLaunch s t l.id fun l => { l with lastDec := some (c, n.node, 1, 0) }
      match zeroSucc l g.succs with
      | some i => .next (graphFault s t n i)
      | none => .next (modLaunch s t l.id (decrement c g.succs))

/-- The answer to a `tsig` (R128). -/
def answerSignal (s : State) (cid : Nat) (c : Option Cause) (tval : Word) : State :=
  modCtx s cid fun x => { x with status := .held (.tsigDone c tval) }

/-- A `tsig` that has reached the dispatcher (R128). -/
def acceptSignal (s : State) (cid : Nat) (c : Ctx) (v : Word) : State :=
  match c.node, launchOf s c.tslot c.node with
  | some r, some l =>
    let i := v.toNat
    (match gnodeOf s c.tslot (some ⟨r.launch, i⟩) with
      | none => answerSignal s cid (some .prot) v
      | some g =>
        let cy := decCycle (s.cycle + s.arg.num) l i 0 cid
        match zeroSucc l g.succs with
        | some x =>
          let s := modLaunch { s with cycle := cy } c.tslot l.id fun l => { l with lastDec := some (cy, i, 0, cid) }
          answerSignal s cid (some .graphuf) (word (x * 65536 + i))
        | none =>
          let s := modLaunch { s with cycle := cy } c.tslot l.id fun l => { decrement cy g.succs l with lastDec := some (cy, i, 0, cid) }
          answerSignal s cid none 0)
  | _, _ => answerSignal s cid (some .prot) v

/-- TSIG_ACCEPT (R128, R276): `id` is the signalling context, `num` the dispatcher cycles since the last event. -/
def execTsigAccept (s : State) : Result :=
  let cid := s.arg.id
  match getCtx s cid with
  | none => .next s
  | some c => match c.status with
    | .held (.tsig v) => .next (acceptSignal s cid c v)
    | _ => .next s

end Sys2Proof.Machine
end

