-- ==== Sys2Proof/Machine/Power.lean ====
section
/-! DEFINITION. The governor, the power controller, temperatures, purses and telemetry (R197, R321 to R336). -/

namespace Sys2Proof.Machine

/-! ## Points and dividers (R321, R322) -/

/-- The tenant slot that owns a row. -/
def rowOwner (s : State) (r : Nat) : Option Nat := (s.tenants.find? fun e => ownsRow e.2 r).map (·.1)

/-- The highest permitted point (R322). -/
def highest (s : State) (r : Nat) : Nat :=
  let x := getRow s r
  let cap := match rowOwner s r with | some t => (getTenant s t).rowcap.toNat | none => 7
  min (min x.thermal x.power) cap

/-- The cores of a row. -/
def rowCores (r : Nat) : List Nat := (List.range 16).map fun i => r * 16 + i

/-- A row holds a resident context, a waiting arrival, be it in a ring, or an unfinished engine command (R321). -/
def rowBusy (s : State) (r : Nat) : Bool :=
  (rowCores r).any fun c => let k := getCore s c; !k.ctxs.isEmpty || !k.arrivals.isEmpty || !ringEmpty k || !k.mq.isEmpty || !k.chans.isEmpty

/-- The point that a row runs at under a wish: not above *H*, and not at retention while it is busy (R321, R322). -/
def pointFor (s : State) (r p : Nat) : Nat :=
  let q := min p (highest s r)
  if rowBusy s r then max 1 q else q

/-- A segment takes a divider; after a change, eight beats are held (R197). -/
def setSegDiv (s : State) (key d : Nat) : State := modSeg s key fun g => if g.div = d then g else { g with div := d, hold := 8 }

/-- The segments of a row. -/
def rowSegs (s : State) (r : Nat) : List (Nat × Seg) := s.segs.filter fun e => e.2.die * 64 + e.2.row == r

/-- A core in no segment takes a divider. -/
def setCoreDiv (s : State) (core d : Nat) : State := modCore s core fun k => { k with div := d }

/-- A point set; dividers below its smallest are raised to it (R322). -/
def setPoint (s : State) (r p : Nat) : State :=
  let s := modRow s r fun x => { x with point := p }
  let s := (rowCores r).foldl (fun s c => if (getCore s c).div < minDiv p then setCoreDiv s c (minDiv p) else s) s
  (rowSegs s r).foldl (fun s e => if e.2.div < minDiv p then setSegDiv s e.1 (minDiv p) else s) s

/-- A row above *H* drops to it (R322). -/
def applyCap (s : State) (r : Nat) : State := if highest s r < (getRow s r).point then setPoint s r (pointFor s r (highest s r)) else s

/-! ## The governor (R325 to R327, R329) -/

/-- *m* of a deadline class (R327). -/
def marginOf (c : BitVec 3) : Nat :=
  match c.toNat with
  | 0 | 1 => 0
  | 2 => 2
  | 3 => 4
  | 4 => 8
  | 5 => 12
  | 6 => 16
  | _ => 24

/-- The target of a step, 64-fold: 64·*D* − (*D* − `time`)·*m* (R327). -/
def targetOf (s : State) (k : StepRec) : Int :=
  64 * (k.deadline.toNat : Int) - ((k.deadline.toNat : Int) - s.time.toNat) * marginOf k.dclass

/-- What the event says has been measured of a core: four numbers from core·4 on (R325; log entry 14). -/
def measured (s : State) (core : Nat) : Measured :=
  let f := fun (i d : Nat) => amGetD d s.arg.pairs (core * 4 + i)
  { busy := f 0 0, cycles := max 1 (f 1 1), divs := max 1 (f 2 1), time_ := f 3 1 }

/-- The prediction of a core's step, or of its segment: the latest *T*(*d*) over the cores (R325). -/
def stepTime (s : State) (core d : Nat) : Nat :=
  (stepsOf s (stepCores s core)).foldl (fun m x => max m (predict s x.2 d (measured s x.1))) s.time.toNat

/-- The prediction of a core's step lies after its deadline at a divider (R326). -/
def isLate (s : State) (core d : Nat) (k : StepRec) : Bool :=
  (stepsOf s (stepCores s core)).any fun x => predictedAfter s x.2 d (measured s x.1) k.deadline.toNat

/-- *T*(*d*) of a step is not after a target. -/
def inTime (s : State) (core d : Nat) (k : StepRec) (target : Int) : Bool :=
  decide (64 * (s.time.toNat : Int) ≤ target) &&
  (!k.moving || (let (n, den) := k.ends d (measured s core); decide (64 * (n : Int) ≤ target * den)))

/-- Every step of a list meets its target at a divider, where those of one segment have one prediction (R325, R326). -/
def meets (s : State) (d : Nat) (ks : List (Nat × StepRec)) : Bool :=
  ks.all fun x => (stepsOf s (stepCores s x.1)).all fun y => inTime s y.1 d y.2 (targetOf s x.2)

/-- The largest divider, `lo` at least, at which every step meets its target; `hard` where none does. -/
def slowest (s : State) (lo hard : Nat) (ks : List (Nat × StepRec)) : Nat :=
  ([8, 6, 4, 3, 2, 1].find? fun d => decide (lo ≤ d) && meets s d ks).getD hard

/-- A race hint with an open step (R329). -/
def races (s : State) (core : Nat) : Bool := (getCore s core).hint == 2 && (getCore s core).step.isSome

/-- The point that a row's steps ask for (R326, R329). -/
def rowPoint (s : State) (r : Nat) : Nat :=
  let ks := stepsOf s (rowCores r)
  let h := pointFor s r 7
  if ks.isEmpty then
    pointFor s r (match rowOwner s r with | some t => (getTenant s t).rowdef.toNat | none => 7)
  else if (rowCores r).any (races s) then h
  else ((List.range (h + 1)).find? fun p => decide (1 ≤ p) && meets s (minDiv p) ks).getD h

/-- A row's point and the dividers of its cores and segments (R326). -/
def governRow (s : State) (r : Nat) : State :=
  let p := rowPoint s r
  let hard := minDiv (pointFor s r 7)
  let s := setPoint s r p
  let pick := fun (s : State) (cs : List Nat) =>
    let ks := stepsOf s cs
    if cs.any (races s) then hard else if ks.isEmpty then minDiv p else slowest s (minDiv p) hard ks
  let inSeg := (rowSegs s r).flatMap fun e => e.2.cores.map (·.2.1)
  let s := (rowSegs s r).foldl (fun s e => setSegDiv s e.1 (pick s (e.2.cores.map (·.2.1)))) s
  (rowCores r).foldl (fun s c => if inSeg.contains c then s else setCoreDiv s c (pick s [c])) s

/-- The governor raises DRISK for a core's step that is predicted late at the smallest divider of *H* (R326). -/
def judgeStep (s : State) (core : Nat) : State :=
  match (getCore s core).step with
  | none => s
  | some k =>
    let d := minDiv (pointFor s (rowOf core) 7)
    if isLate s core d k then raiseRisk s core k (word (stepTime s core d - k.deadline.toNat)) else s

/-- GOVERNOR_EVALUATE (R326): `unit` is the core; `pairs` gives what has been measured for the predictions. -/
def execGovernorEvaluate (s : State) : Result := .next (governRow (judgeStep s s.arg.unit) (rowOf s.arg.unit))

/-! ## The power controller (R330) -/

/-- Package-wide, or a tenant slot's rows and contexts: 64 for the package. -/
def limitRow (s : State) (who r : Nat) : Bool := who == 64 || ownsRow (getTenant s who) r

/-- The class of a row: the highest among its open steps (R327). -/
def rowClass (s : State) (r : Nat) : Nat := (stepsOf s (rowCores r)).foldl (fun m x => max m x.2.dclass.toNat) 0

/-- The row to lower: of the lowest class the highest point, and of equal ones the lowest index; a row whose cap is 0 cannot be. -/
def rowToLower (s : State) (who : Nat) : Option Nat :=
  ((List.range 128).filter fun r => limitRow s who r && decide (0 < (getRow s r).power)).foldl (fun best r => match best with
    | none => some r
    | some b =>
      if rowClass s r < rowClass s b || (rowClass s r = rowClass s b && (getRow s b).point < (getRow s r).point) then some r else some b) none

/-- One row's power cap falls by one point. -/
def lowerCap (s : State) (who : Nat) : State :=
  match rowToLower s who with
  | none => s
  | some r => applyCap (modRow { s with lowered := (r, who) :: s.lowered } r fun x => { x with power := x.power - 1 }) r

/-- The cap that was lowered last for a limit rises by one point. -/
def raiseCap (s : State) (who : Nat) : State :=
  match s.lowered.find? fun e => e.2 == who with
  | none => s
  | some e => modRow { s with lowered := s.lowered.erase e } e.1 fun x => { x with power := min 7 (x.power + 1) }

/-- A limit in mW: SLOW, FAST, or a tenant's CAP; none where there is none. -/
def slowLimit (s : State) (who : Nat) : Option Nat :=
  if who = 64 then some (fld 32 32 s.plim) else if (getTenant s who).pcap = 0 then none else some (getTenant s who).pcap.toNat
def fastLimit (s : State) (who : Nat) : Option Nat :=
  if who = 64 then some (fld 0 32 s.plim) else if (getTenant s who).pcap = 0 then none else some (getTenant s who).pcap.toNat

/-- POWER_SLOW_CHECK (R330, R353): `slot` is 64 for SLOW, or a tenant slot for its CAP; `num` is the average over 1 ms in mW; with `flag`,
100 µs have passed since the last rise. Once the average exceeds its limit, caps fall until it is below. No cap rises during a switch of firmware. -/
def execPowerSlowCheck (s : State) : Result :=
  let who := s.arg.slot
  match slowLimit s who with
  | none => .next s
  | some lim =>
    .next (if lim < s.arg.num || (s.arg.num = lim && s.lowering.contains who) then
      lowerCap { s with lowering := if s.lowering.contains who then s.lowering else who :: s.lowering } who
    else
    let s := if s.arg.num < lim then { s with lowering := s.lowering.filter (· != who) } else s
    if s.arg.flag && s.arg.num * 100 < lim * 95 && !s.fw.switching then raiseCap s who
    else s)

/-- A context is benched for a cause: it withdraws from its group (R127, R174). -/
def benchCtx (s : State) (cid : Nat) (f : Ctx → Ctx) : State := modCtx (withdrawBar s cid) cid f

/-- The next contexts of a core to bench: lowest `prio` first, then highest slot (R175). -/
def benchNext (s : State) (who core : Nat) : Option Nat :=
  ((getCore s core).ctxs.filter fun e => !e.2.benchPower && (who == 64 || e.2.tslot == who)).foldl (fun best e => match best with
    | none => some e
    | some b => if e.2.prio.toNat ≤ b.2.prio.toNat then some e else some b) none |>.map (·.1)

def benchSome (who core : Nat) : Nat → State → State
  | 0, s => s
  | n + 1, s =>
    match benchNext s who core with
    | none => s
    | some slot =>
      let cid := ctxId core slot
      benchSome who core n (benchCtx { s with fastBench := s.fastBench ++ [(cid, who)] } cid fun c => { c with benchPower := true })

/-- The contexts benched for a limit issue again, but for those benched for another. -/
def unbenchFast (s : State) (who : Nat) : State :=
  let mine := s.fastBench.filter fun e => e.2 == who
  let rest := s.fastBench.filter fun e => e.2 != who
  mine.reverse.foldl (fun s e => if rest.any fun x => x.1 == e.1 then s else modCtx s e.1 fun c => { c with benchPower := false })
    { s with fastBench := rest }

/-- POWER_FAST_WINDOW (R330): `slot` is 64 for FAST, or a tenant slot for its CAP; `num` is the average of the window in mW; `pairs` gives
how many contexts the controller benches on which core. The benching ends after two windows below the limit. -/
def execPowerFastWindow (s : State) : Result :=
  let who := s.arg.slot
  match fastLimit s who with
  | none => .next s
  | some lim =>
    if lim < s.arg.num then
      .next (s.arg.pairs.foldl (fun s e => benchSome who e.1 e.2 s) { s with fastCalm := amSet s.fastCalm who 0 })
    else if s.arg.num < lim then
      let n := amGetD 0 s.fastCalm who + 1
      let s := { s with fastCalm := amSet s.fastCalm who (min n 2) }
      .next (if 2 ≤ n then unbenchFast s who else s)
    else .next { s with fastCalm := amSet s.fastCalm who 0 }

/-! ## Temperature (R331) -/

/-- The row of a physical engine *d*·1,088 + *y*·17 + column. -/
def engineRow (e : Nat) : Nat := e / 1088 * 64 + e % 1088 / 17

/-- The hottest of some readings: engine and 1/16 °C. -/
def hottestOf (xs : List (Nat × Nat)) : Option (Nat × Nat) :=
  xs.foldl (fun best x => match best with | none => some x | some b => if b.2 < x.2 then some x else some b) none

/-- A row's thermal cap, and its benching at or above CRIT (R331). -/
def heatRow (s : State) (r temp : Nat) : State :=
  let throt := fld 16 16 s.therm
  let crit := fld 0 16 s.therm
  let all := fun (s : State) (b : Bool) => (rowCores r).foldl (fun s c => (getCore s c).ctxs.foldl (fun s e =>
    let cid := ctxId c e.1
    if b then benchCtx s cid fun x => { x with benchHot := true } else modCtx s cid fun x => { x with benchHot := false }) s) s
  let s := if throt ≤ temp then modRow s r fun x => { x with thermal := x.thermal - 1 }
    else if temp + 32 < throt then modRow s r fun x => { x with thermal := min 7 (x.thermal + 1) }
    else s
  let s := applyCap s r
  let hot := fun (s : State) (b : Bool) => modRow s r fun x => { x with hot := b }
  if crit ≤ temp then setPoint (all (hot s true) true) r 1 else if temp < throt then all (hot s false) false else s

/-- THERMAL_READ (R331): `pairs` are the readings of the sensors by engine. -/
def execThermalRead (s : State) : Result :=
  let xs := s.arg.pairs.filter fun x => x.1 < 2176
  let s := match hottestOf xs with | some x => { s with hottest := BitVec.ofNat 32 (x.2 % 65536 * 65536 + x.1) } | none => s
  .next ((List.range 128).foldl (fun s r => match hottestOf (xs.filter fun x => engineRow x.1 == r) with
    | some x => heatRow s r x.2
    | none => s) s)

/-! ## Purses (R332 to R334) -/

/-- Every context of the tenant is benched, or issues again, as the purse says (R175, R334). -/
def settlePurse (s : State) (t : Nat) : State :=
  let empty := purseEmpty s t
  s.cores.foldl (fun s e => e.2.ctxs.foldl (fun s x =>
    if x.2.tslot != t || x.2.benchPurse == empty then s
    else if empty then benchCtx s (ctxId e.1 x.1) fun c => { c with benchPurse := true }
    else modCtx s (ctxId e.1 x.1) fun c => { c with benchPurse := false }) s) s

/-- A purse written: OVERDRAFT takes the larger of its value and the purse's negative magnitude. -/
def putPurse (s : State) (t : Nat) (v : Word) : State :=
  let s := modTenant s t fun x =>
    { x with purse := v, overdraft := if v.toInt < 0 && x.overdraft.toNat < (-v).toNat then -v else x.overdraft }
  settlePurse s t

/-- Where energy was drawn (R333). -/
inductive Drawn where
  /-- a core's issue, vector unit, SFU or engines, for a context or command of a tenant slot -/
  | work (core slot : Nat)
  /-- leakage of a core -/
  | leak (core : Nat)
  /-- a slice, the network or a memory controller, for a request tagged with a tenant slot -/
  | request (slot : Nat)
  /-- a Trailhead port, for a flow -/
  | flow (port flow : Nat)
  /-- the telemetry engine, for a tenant slot's ring -/
  | telemetry (slot : Nat)
  deriving DecidableEq, Repr

/-- A source by its number in the event: its kind above bit 24. -/
def drawnOf (n : Nat) : Drawn :=
  let i := n % 2 ^ 24
  match n / 2 ^ 24 with
  | 0 => .work (i / 64) (i % 64)
  | 1 => .leak i
  | 2 => .request i
  | 3 => .flow (i / 64) (i % 64)
  | _ => .telemetry i

/-- The tenant slot that pays (R333). -/
def payer (s : State) (x : Drawn) : Option Nat :=
  match x with
  | .work _ t | .request t | .telemetry t => some t
  | .leak c => rowOwner s (rowOf c)
  | .flow p i => (amGet (if p = 0 then s.trail0 else s.trail1).flows i).bind fun f => slotOfVmid s f.vmid

/-- A charge of a block is applied to the payer's PURSE and ENERGY, and a core's is added to its accumulator (R333, R334). -/
def applyCharge (s : State) (e : Nat × Nat) : State :=
  let x := drawnOf e.1
  let s := match payer s x with
    | some t => putPurse (modTenant s t fun y => { y with energy := y.energy + word e.2 }) t ((getTenant s t).purse - word e.2)
    | none => s
  match x with
  | .work c _ | .leak c => { s with energyPage := amSet s.energyPage c (amGetD 0 s.energyPage c + word e.2) }
  | _ => s

/-- ENERGY_CHARGE_APPLY (R333, R334): `pairs` are the totals in pJ by where they were drawn. -/
def execEnergyChargeApply (s : State) : Result := .next (s.arg.pairs.foldl applyCharge s)

/-- PSET (R332): `slot` and the value `v`. -/
def execPset (s : State) : Result := .next (putPurse s s.arg.slot s.arg.v)

/-- A sum that saturates at 2^63 − 1 and −2^63. -/
def addSat (a b : Word) : Word :=
  let n := a.toInt + b.toInt
  if 2 ^ 63 ≤ n then 0x7FFFFFFFFFFFFFFF else if n < -2 ^ 63 then 0x8000000000000000 else a + b

/-- PADD (R332): `slot` and the value `v`. -/
def execPadd (s : State) : Result := .next (putPurse s s.arg.slot (addSat (getTenant s s.arg.slot).purse s.arg.v))

/-! ## Telemetry (R335, R336) -/

/-- The tenant's cores that exist, and how many of them run at a divider. -/
def coresAt (s : State) (t d : Nat) : Nat :=
  ((List.range 2048).filter fun c => ownsRow (getTenant s t) (rowOf c) && coreExists s c && divOf s c == d).length

/-- The tenant's rows at a point. -/
def rowsAt (s : State) (t p : Nat) : Nat := ((List.range 128).filter fun r => ownsRow (getTenant s t) r && (getRow s r).point == p).length

/-- The tenant's benched contexts. -/
def benchedOf (s : State) (t : Nat) : Nat :=
  s.cores.foldl (fun n e => n + (e.2.ctxs.filter fun x => x.2.tslot == t && x.2.benched).length) 0

/-- The words of a sample (R336); the two averages come measured. -/
def sampleWords (s : State) (t pkg ten : Nat) : List Word :=
  let x := getTenant s t
  [ s.time, word (pkg % 2 ^ 32 * 2 ^ 32 + ten % 2 ^ 32), x.purse, x.energy,
    word ((List.range 8).foldl (fun n p => n + rowsAt s t p % 256 * 256 ^ p) 0),
    word (coresAt s t 1 * 2 ^ 48 + coresAt s t 2 * 2 ^ 32 + coresAt s t 3 * 2 ^ 16 + coresAt s t 4),
    word (coresAt s t 6 * 2 ^ 48 + coresAt s t 8 * 2 ^ 32) ||| s.hottest.setWidth 64,
    word (x.drisks * 2 ^ 32 + benchedOf s t % 2 ^ 32) ]

/-- TELEMETRY_SAMPLE (R335): one is due every PERIOD; `slot`; `num` and `num2` are the power of the package and of the tenant over the period, in mW. -/
def execTelemetrySample (s : State) : Result :=
  let t := s.arg.slot
  let x := getTenant s t
  if !x.telEn || s.time.toNat < x.telNext then .next s
  else
    let s := modTenant s t fun x => { x with telNext := x.telNext + x.telPeriod.toNat }
    let lost := fun (s : State) => modTenant s t fun x => { x with telLost := x.telLost + 1 }
    if 2 ^ x.telLog2n ≤ (x.telTail - x.telHead).toNat then .next (lost s)
    else
      let a := x.telBase + word (64 * (x.telTail.toNat % 2 ^ x.telLog2n))
      match translate s t a with
      | (.error _, s) => .next (lost s)
      | (.ok p, s) =>
        if !p.wr then .next (lost s)
        else
          let bs := (sampleWords s t s.arg.num s.arg.num2).flatMap fun w => leBytes 8 w.toNat
          let l := homePlace s p a true
          .next (modTenant (unpoison (writeHome (touch s 0 l p .write 64) l bs p) l 64) t fun x =>
            { x with telTail := x.telTail + 1, drisks := 0 })

end Sys2Proof.Machine
end

