-- ==== Sys2Proof/Machine/Shake.lean ====
section
/-! DEFINITION. SHAKE256, by which firmware images are measured (R350, R351). The manual names the function; its constants are those of FIPS
202 (PRESUMED; log entry 24). -/

namespace Sys2Proof.Machine

/-- The constants of the 24 rounds (FIPS 202). -/
def keccakConst : List (BitVec 64) :=
  [ 0x0000000000000001, 0x0000000000008082, 0x800000000000808A, 0x8000000080008000, 0x000000000000808B, 0x0000000080000001,
    0x8000000080008081, 0x8000000000008009, 0x000000000000008A, 0x0000000000000088, 0x0000000080008009, 0x000000008000000A,
    0x000000008000808B, 0x800000000000008B, 0x8000000000008089, 0x8000000000008003, 0x8000000000008002, 0x8000000000000080,
    0x000000000000800A, 0x800000008000000A, 0x8000000080008081, 0x8000000000008080, 0x0000000080000001, 0x8000000080008008 ]

/-- The rotation of lane *x* + 5·*y* (FIPS 202). -/
def keccakTurn : List Nat :=
  [0, 1, 62, 28, 27, 36, 44, 6, 55, 20, 3, 10, 43, 25, 39, 41, 45, 15, 21, 8, 18, 2, 61, 56, 14]

/-- One round on the 25 lanes. -/
def keccakRound (a : List (BitVec 64)) (rc : BitVec 64) : List (BitVec 64) :=
  let at_ := fun (l : List (BitVec 64)) (x y : Nat) => l.getD (x % 5 + 5 * (y % 5)) 0
  let c := (List.range 5).map fun x => (List.range 5).foldl (fun v y => v ^^^ at_ a x y) 0
  let d := (List.range 5).map fun x => c.getD ((x + 4) % 5) 0 ^^^ (c.getD ((x + 1) % 5) 0).rotateLeft 1
  let t := (List.range 25).map fun i => a.getD i 0 ^^^ d.getD (i % 5) 0
  let b := (List.range 25).map fun i =>
    let x := (i % 5 + 3 * (i / 5)) % 5
    let y := i % 5
    (at_ t x y).rotateLeft (keccakTurn.getD (x + 5 * y) 0)
  (List.range 25).map fun i =>
    let v := at_ b i (i / 5) ^^^ (~~~(at_ b (i % 5 + 1) (i / 5)) &&& at_ b (i % 5 + 2) (i / 5))
    if i = 0 then v ^^^ rc else v

/-- The permutation of 24 rounds. -/
def keccak (a : List (BitVec 64)) : List (BitVec 64) := keccakConst.foldl keccakRound a

/-- The number that eight bytes of a block make, least significant first. -/
def laneOf (bs : List Byte) (i : Nat) : BitVec 64 :=
  (List.range 8).foldl (fun v j => v ||| ((bs.getD (8 * i + j) 0).setWidth 64 <<< (8 * j))) 0

/-- A message padded for SHAKE to whole blocks of 136 bytes. -/
def shakePad (m : List Byte) : List Byte :=
  let k := 135 - m.length % 136
  if k = 0 then m ++ [0x9F] else m ++ [0x1F] ++ List.replicate (k - 1) 0 ++ [0x80]

/-- The first 64 bytes of SHAKE256 (R350, R351). -/
def shake256 (m : List Byte) : List Byte :=
  let p := shakePad m
  let z := (List.range (p.length / 136)).foldl (fun a n =>
    let block := (p.drop (136 * n)).take 136
    keccak (a.mapIdx fun i v => if i < 17 then v ^^^ laneOf block i else v)) (List.replicate 25 (0 : BitVec 64))
  (List.range 64).map fun i => ((z.getD (i / 8) 0) >>> (8 * (i % 8))).setWidth 8

end Sys2Proof.Machine
end

