-- ==== Sys2Proof/Machine/Trail.lean ====
section
/-! DEFINITION. The tick units, the scrubber, and the enabling of trail fields (R146, R147, R152 to R157, R166). -/

namespace Sys2Proof.Machine

/-- The slices of the package, *d*·64 + slice. -/
def allSlices : List Nat := List.range 128

/-! ## Enabling and disabling (R147, R166) -/

/-- A write of EN = 1 is refused (R147). -/
def enableRefused (f : Field) (v : Word) : Bool :=
  let last := f.base + word (f.bytes - 1)
  !canonical f.base || bit 47 f.base != bit 47 last || (bit 62 v && decide (f.period.toNat < 100))

/-- Word 0's fields, as a write stores them while the field is disabled. -/
def storeWord0 (f : Field) (v : Word) : Field :=
  { f with src := bit 62 v, num := v.extractLsb' 48 4, tick := v.extractLsb' 0 16, slices := [] }

/-- A write of EN = 1: nothing where the field is enabled or being enabled; else it is refused, or TICK goes to every slice. -/
def enableField (f : Field) (v : Word) : Field :=
  if f.en || f.enabling then f
  else if enableRefused f v then { f with err := true }
  else { storeWord0 f v with err := false, enabling := true, toEnable := allSlices }

/-- A mark operation of the field that has been accepted and is not performed. -/
def markPending (s : State) (t f : Nat) : Bool :=
  s.reqs.any fun r => !r.done && reqSlot s r == t && (match r.op with
    | .dep _ i _ | .peek i | .sense i _ => i.toNat == f
    | _ => false)

/-- A tick request waits, or is being delivered. -/
def Field.busy (f : Field) : Bool := f.unit != .idle || !f.queue.isEmpty || f.due != 0

/-- A disable takes effect once what was accepted has completed (R147); the pass is suspended (R154). -/
def settleDisable (s : State) (t i : Nat) : State :=
  let f := getField s t i
  if f.disabling && f.en && !f.busy && !markPending s t i then
    modField s t i fun f => { f with en := false, disabling := false }
  else s

/-- A write of word 0 (R146, R147). -/
def writeTrail0 (s : State) (t i : Nat) (v : Word) : State :=
  let f := getField s t i
  if bit 63 v then modField s t i fun f => enableField f v
  else if f.en || f.enabling then settleDisable (modField s t i fun f => { f with disabling := true }) t i
  else modField s t i fun f => storeWord0 f v

/-- TRAIL_ENABLE (R147): `slot` and `idx` name the field, `v` is the word written, with EN = 1. -/
def execTrailEnable (s : State) : Result := .next (if bit 63 s.arg.v then writeTrail0 s s.arg.slot s.arg.idx s.arg.v else s)

/-- A suspended pass goes on where it stopped, if that is still in the region: a region that has become smaller holds no word of it that is
left, and the pass is over (R154). -/
def Field.resumes (f : Field) : Bool := f.passOn && decide (4 * f.passPos < f.bytes)

/-- TRAIL_ENABLE_COMPLETE (R147): every slice holds the count, and EN reads 1. -/
def execTrailEnableComplete (s : State) : Result :=
  let t := s.arg.slot
  let i := s.arg.idx
  let f := getField s t i
  if f.enabling && f.toEnable.isEmpty then
    let s := modField s t i fun f =>
      { f with en := true, enabling := false, unit := .idle, due := 0, nextDue := s.time.toNat + f.period.toNat,
               passOn := true, passStart := if f.resumes then f.passStart else f.tick, passPos := if f.resumes then f.passPos else 0 }
    .next (settleDisable s t i)
  else .next s

/-- TRAIL_DISABLE (R147, R166): a write of EN = 0, or the moment at which one takes effect. -/
def execTrailDisable (s : State) : Result :=
  let t := s.arg.slot
  let i := s.arg.idx
  let f := getField s t i
  .next (if f.en || f.enabling then settleDisable (modField s t i fun f => { f with disabling := true }) t i else s)

/-! ## The tick unit (R152, R153) -/

/-- TIMEBASE_TICK_DUE (R152): the field reaches its next due time, and a request enters its unit. -/
def execTimebaseTickDue (s : State) : Result :=
  let t := s.arg.slot
  let i := s.arg.idx
  let f := getField s t i
  .next (if f.open_ && f.src && decide (f.nextDue ≤ s.time.toNat) then
    modField s t i fun f => { f with due := f.due + 1, dueAt := if f.due = 0 then f.nextDue else f.dueAt, nextDue := f.nextDue + f.period.toNat,
                                     unit := if f.unit = .idle then .hold else f.unit }
  else s)

/-- The scrubber holds the next count while its pass is not finished (R157). -/
def Field.held (f : Field) : Bool := (f.tick + 1 - f.passStart).toNat == 8192

/-- TICK_UNIT_SEND (R153): the unit leaves HOLD with its first request. -/
def execTickUnitSend (s : State) : Result :=
  let t := s.arg.slot
  let i := s.arg.idx
  let f := getField s t i
  match f.unit with
  | .ack .. => .next s
  | _ =>
    if !f.en || f.held || (f.queue.isEmpty && f.due = 0) then .next s
    else match f.queue with
      | cid :: rest => .next (modField s t i fun f => { f with queue := rest, fromBase := false, unit := .ack allSlices (some cid) })
      | [] => .next (modField s t i fun f => { f with fromBase := true, unit := .ack allSlices none })

/-- SLICE_TICK_APPLY (R153): `id` is the slice, which takes the count that an enable or the unit has sent. -/
def execSliceTickApply (s : State) : Result :=
  .next (modField s s.arg.slot s.arg.idx fun f =>
    if f.enabling then { f with toEnable := f.toEnable.filter (· != s.arg.id) }
    else match f.unit with
      | .ack acks _ => if acks.contains s.arg.id then { f with slices := amSet f.slices s.arg.id (f.tick + 1) } else f
      | _ => f)

/-- The last acknowledgement: TICK advances, the requester is answered, and a late timebase tick is counted (R152, R153). -/
def tickDone (s : State) (t i : Nat) (f : Field) (req : Option Nat) : State :=
  let late := f.fromBase && decide (f.dueAt + f.period.toNat < s.time.toNat)
  let due := if f.fromBase then f.due - 1 else f.due
  let g : Field :=
    { f with tick := f.tick + 1, slices := [], late := if late then f.late + 1 else f.late, due := due,
             dueAt := if f.fromBase then f.dueAt + f.period.toNat else f.dueAt,
             unit := if f.queue.isEmpty && due = 0 then .idle else .hold }
  let s := modField s t i fun _ => g
  let s := match req with
    | some cid => match getCtx s cid with
      | some c => if c.status = .held (.tick i) then rewake (wake s cid) (coreOf cid) else s
      | none => s
    | none => s
  settleDisable s t i

/-- TICK_ACK (R153): the acknowledgement of slice `id` arrives. -/
def execTickAck (s : State) : Result :=
  let t := s.arg.slot
  let i := s.arg.idx
  let f := getField s t i
  match f.unit with
  | .ack acks req =>
    if acks.contains s.arg.id && amGet f.slices s.arg.id = some (f.tick + 1) then
      let rest := acks.filter (· != s.arg.id)
      if rest.isEmpty then .next (tickDone s t i f req)
      else .next (modField s t i fun f => { f with unit := .ack rest req })
    else .next s
  | _ => .next s

/-! ## The scrubber (R154 to R157) -/

/-- The page is one that holds marks of the field (R148). -/
def scrubPage (p : Page) (i : Nat) : Bool :=
  p.trail == some (BitVec.ofNat 6 i) && (p.home == .cached || p.home == .slice) && (match p.out with | .hbm _ => true | _ => false)

/-- The die at which a line lies: that of the slice which holds it, else that of its frame (R156, R178). -/
def dieHolding (s : State) (l : Loc) : Nat :=
  match l with
  | .hbm a => match amGet s.lines (a / 64) with | some x => x.die | none => a / 2 ^ 38 % 2
  | .window c _ => dieOf c
  | _ => 0

/-- A word of the pass: refreshed if its due count is 8,192 or more (R154, R155). What the scrubber does is charged to no one (R344). -/
def refreshWord (s : State) (f : Field) (l : Loc) (p : Page) : State :=
  let die := dieHolding s l
  let t := f.at_ (sliceOf die l)
  let w : BitVec 32 := BitVec.ofNat 32 (leNat (readHome s l 4 0 p))
  if 8192 ≤ markDue (w.extractLsb' 16 16) t && !poisonedAt s l 4 then
    writeHome (touchLine false s die l p .amo 4) l (leBytes 4 (markWord t (faded f.num.toNat t w)).toNat) p
  else touchLine false s die l p .read 4

/-- The pass goes on to the next word, or ends; the next one starts at the count where it ended (R154). -/
def nextWord (f : Field) : Field :=
  if f.bytes ≤ 4 * (f.passPos + 1) then { f with passPos := 0, passStart := f.tick } else { f with passPos := f.passPos + 1 }

/-- SCRUBBER_REFRESH (R154 to R156): the pass of field `idx` of tenant `slot` visits its next word. -/
def execScrubberRefresh (s : State) : Result :=
  let t := s.arg.slot
  let i := s.arg.idx
  let f := getField s t i
  if !f.en then .next s
  else
    let va := f.base + word (4 * f.passPos)
    match translate s t va with
    | (.error _, s) => .next (modField s t i nextWord)
    | (.ok p, s) =>
      let l := p.loc va
      if !scrubPage p i then .next (modField s t i nextWord)
      else if !homeReady s (dieHolding s l) l 4 none || overtakenOver s (dieHolding s l) l 4 then .next s
      else .next (modField (refreshWord s f l p) t i nextWord)

/-! ## The clock (R152) -/

/-- PTP_CLOCK_STEP (R152): `delta` is the step of device time in ns. Due times are times of that clock, so a step backward delays ticks
and a step forward makes each tick it passes due at once (log entry 17). -/
def execPtpClockStep (s : State) : Result := .next { s with time := s.time + BitVec.ofInt 64 s.arg.delta }

end Sys2Proof.Machine
end

