-- ==== Sys2Proof/Machine/Partition.lean ====
section
/-! DEFINITION. The register pages, ownership and transfers, the Vault, the host's invalidations, counters, and firmware (R278, R300, R309,
R330, R332, R335, R337 to R353, R358, R363, R368). -/

namespace Sys2Proof.Machine

/-! ## Transfers (R341, R342) -/

/-- Which resource a TRANSFER names (R341). -/
inductive ResKind where
  | row | slice | channel | engine
  deriving DecidableEq, Repr

def ResKind.code (k : ResKind) : Nat := match k with | .row => 0 | .slice => 1 | .channel => 2 | .engine => 3
def ResKind.count (k : ResKind) : Nat := match k with | .row => 128 | .slice => 128 | .channel => 256 | .engine => 11

/-- A tenant owns a resource. -/
def Tenant.owns (x : Tenant) (k : ResKind) (i : Nat) : Bool :=
  match k with
  | .row => x.rows.getLsbD i
  | .slice => x.slices.getLsbD i
  | .channel => x.channels.getLsbD i
  | .engine => x.engines.getLsbD i

/-- A bit of a map set or cleared. -/
def putBit {n : Nat} (m : BitVec n) (i : Nat) (b : Bool) : BitVec n := if b then m ||| (1#n <<< i) else m &&& ~~~(1#n <<< i)

/-- Ownership of a resource given or taken. -/
def Tenant.setOwns (x : Tenant) (k : ResKind) (i : Nat) (b : Bool) : Tenant :=
  match k with
  | .row => { x with rows := putBit x.rows i b }
  | .slice => { x with slices := putBit x.slices i b }
  | .channel => { x with channels := putBit x.channels i b }
  | .engine => { x with engines := putBit x.engines i b }

/-- A ROW node of an eligible launch names a row (R341). -/
def rowNamed (s : State) (r : Nat) : Bool :=
  s.tenants.any fun e => e.2.launches.any fun l => l.eligible.isSome &&
    (match amGet e.2.graphs l.handle with | some g => g.nodes.any fun n => n.segs.any fun k => k / 4 == r | none => false)

/-- The stack whose loader copies from or to a page. -/
def stackOf (p : Page) : Option Nat := match p.out with | .hbm a => some (a / 2 ^ 36) | _ => none

/-- A subscription or a COPY node runs on the loader of a stack. -/
def loaderBusy (s : State) (k : Nat) : Bool :=
  (s.cores.any fun e => e.2.chans.any fun c => c.2.kind != .copy && (c.2.srcPages.head?.bind stackOf) == some k) ||
  s.tenants.any fun e => e.2.launches.any fun l => l.nodes.any fun n => n.phase == .running && (n.dstPages.head?.bind stackOf) == some k

/-- A resource is in use (R341). -/
def inUse (s : State) (k : ResKind) (i : Nat) : Bool :=
  match k with
  | .row => rowBusy s i || !(rowSegs s i).isEmpty || rowNamed s i
  | .engine =>
    if i < 2 then (if i = 0 then s.trail0 else s.trail1).flows.any fun f => f.2.en
    else if i = 10 then s.tenants.any fun e => e.2.telEn
    else loaderBusy s (i - 2)
  | _ => false

/-- A core passed to another owner (R342): everything that R342 names is cleared. -/
def passCore (k : Core) : Core :=
  { pcc := k.pcc, sbuf := k.sbuf, div := k.div, rot := k.rot, dead := k.dead, saved := k.saved, areaUsed := k.areaUsed, kept := k.kept }

/-- The work of a transfer (R340, R342): done at once, but for the invalidation of a channel, which is begun. -/
def transferWork (s : State) (k : ResKind) (i dest : Nat) (old : Option Nat) : State :=
  match k with
  | .row =>
    let s := (rowCores i).foldl (fun s c => modCore s c passCore) s
    -- the new owner's cap holds at once (R322)
    applyCap (modTenant s dest fun x => { x with grants := x.grants.filter fun e => e.1 / 16 != i }) i
  | .slice => dropLines s true fun e => e.2.die * 64 + e.1 % 64 == i
  | .channel =>
    let (id, s) := takeId s
    let v := match old with | some t => (getTenant s t).vmid | none => 0
    let t : Tlbi := { id := id, op := 4, vmid := v, addr := word i, ctx := none, upto := s.nextId, sent := false }
    dropLines { s with tlbis := s.tlbis ++ [t] } true fun e => e.1 * 64 / 2 ^ 31 == i
  | .engine => s

/-- A store to TRANSFER of one kind (R341): ignored while BUSY is 1 or with a reserved field that is not zero; the checks go index,
receiving slot, use (log entry 23). -/
def transfer (k : ResKind) (s : State) : State :=
  let v := s.arg.v
  let i := fld 0 8 v
  let dest := fld 48 6 v
  let refuse := fun (st : BitVec 8) => { s with tStatus := st }
  if s.tBusy || fld 62 2 v != k.code || fld 54 8 v != 0 || fld 8 40 v != 0 then s
  else if k.count ≤ i then refuse 2
  else if !(getTenant s dest).en then refuse 3
  else if inUse s k i then refuse 1
  else
    let old := (s.tenants.find? fun e => e.2.owns k i).map (·.1)
    let s := { s with tenants := s.tenants.map fun (e : Nat × Tenant) => (e.1, if e.2.owns k i then e.2.setOwns k i false else e.2) }
    transferWork (modTenant { s with tBusy := true } dest fun x => x.setOwns k i true) k i dest old

/-- TRANSFER_ROW (R341, R342): `v` is the word stored. -/
def execTransferRow (s : State) : Result := .next (unlessSwitching s .transferRow (transfer .row))

/-- TRANSFER_SLICE (R341, R342): `v` is the word stored. -/
def execTransferSlice (s : State) : Result := .next (unlessSwitching s .transferSlice (transfer .slice))

/-- TRANSFER_CHANNEL (R341, R342): `v` is the word stored. -/
def execTransferChannel (s : State) : Result := .next (unlessSwitching s .transferChannel (transfer .channel))

/-- TRANSFER_ENGINE (R341, R342): `v` is the word stored. -/
def execTransferEngine (s : State) : Result := .next (unlessSwitching s .transferEngine (transfer .engine))

/-- TRANSFER_COMPLETE (R342): TSTAT reads STATUS 0 and BUSY 0 once the work is done. -/
def execTransferComplete (s : State) : Result :=
  .next (if s.tBusy && !(s.tlbis.any fun t => t.op == 4) then { s with tBusy := false, tStatus := 0 } else s)

/-! ## The Vault (R347, R348) -/

/-- The fields of VCMD: no reserved bit, and the command asked for. -/
def vaultWord (s : State) (op : Nat) : Bool :=
  !s.vBusy && fld 62 2 s.arg.v == op && fld 48 14 s.arg.v == 0 && fld 8 24 s.arg.v == 0

/-- VAULT_GENERATE (R347): `v` is the word stored to VCMD. A new key is one that no line was written under. -/
def execVaultGenerate (s : State) : Result :=
  .next (unlessSwitching s .vaultGenerate fun s =>
    let id := fld 0 8 s.arg.v
    if !vaultWord s 1 then s
    else if id = 0 then { s with vStatus := 3 }
    else if (amGet s.vault id).isSome then { s with vStatus := 1 }
    else
      let (g, s) := takeId s
      { s with vault := amSet s.vault id (s.arg.v.extractLsb' 32 16), keyGen := amSet s.keyGen id g, vStatus := 0 })

/-- VAULT_DESTROY (R347, R348): `v` is the word stored to VCMD. -/
def execVaultDestroy (s : State) : Result :=
  .next (unlessSwitching s .vaultDestroy fun s =>
    let id := fld 0 8 s.arg.v
    if !vaultWord s 2 then s
    else if id = 0 then { s with vStatus := 3 }
    else if (amGet s.vault id).isNone then { s with vStatus := 2 }
    else
      let (i, s) := takeId s
      let t : Tlbi := { id := i, op := 5, vmid := 0, addr := word id, ctx := none, upto := s.nextId, sent := false }
      { s with vBusy := true, vJob := some (BitVec.ofNat 8 id), tlbis := s.tlbis ++ [t] })

/-- KEY_DESTROY_COMPLETE (R348): the requests, lines and translations of the key are gone, and its id is free. -/
def execKeyDestroyComplete (s : State) : Result :=
  match s.vJob with
  | none => .next s
  | some id =>
    .next (if s.tlbis.any fun t => t.op == 5 then s
      else { s with vault := amErase s.vault id.toNat, vJob := none, vBusy := false, vStatus := 0 })

/-! ## Invalidation from the host (R349) -/

/-- A store to INVCMD. -/
def hostTlbi (op : Nat) (s : State) : State :=
  let v := s.arg.v
  if s.invBusy || fld 62 2 v != op || fld 16 46 v != 0 then s
  else
    let (i, s) := takeId s
    let t : Tlbi := { id := i, op := op, vmid := v.extractLsb' 0 16, addr := s.invAddr, ctx := none, upto := s.nextId, sent := false }
    { s with invBusy := true, tlbis := s.tlbis ++ [t] }

/-- HOST_TLBI_VA (R349): `v` is the word stored to INVCMD. -/
def execHostTlbiVa (s : State) : Result := .next (hostTlbi 0 s)

/-- HOST_TLBI_VMID (R349): `v` is the word stored to INVCMD. -/
def execHostTlbiVmid (s : State) : Result := .next (hostTlbi 1 s)

/-- HOST_TLBI_S2 (R349): `v` is the word stored to INVCMD. -/
def execHostTlbiS2 (s : State) : Result := .next (hostTlbi 2 s)

/-- HOST_TLBI_ALL (R349): `v` is the word stored to INVCMD. -/
def execHostTlbiAll (s : State) : Result := .next (hostTlbi 3 s)

/-! ## Counters (R343) -/

/-- COUNTER_SELECT_WRITE (R343): counter `idx` of tenant `slot` takes `v` in SEL, and VAL is cleared. -/
def execCounterSelectWrite (s : State) : Result :=
  .next (if fld 9 47 s.arg.v != 0 || 8 ≤ s.arg.idx then s
  else modTenant s s.arg.slot fun x => { x with counters := amSet x.counters s.arg.idx { sel := s.arg.v, val := 0 } })

/-! ## Firmware (R350 to R353, R368) -/

def fwBank (f : Firmware) (b : Bool) : Bank := if b then f.bank1 else f.bank0
def setFwBank (f : Firmware) (b : Bool) (x : Bank) : Firmware := if b then { f with bank1 := x } else { f with bank0 := x }

/-- An image passes R350. -/
def imageGood (image : List Byte) : Bool :=
  Config.imageSigned image && decide (Config.fusedSvn.toNat ≤ (Config.imageSvn image).toNat)

/-- The measurement of an image (R350). -/
def measure (image : List Byte) : List Byte := shake256 image

/-- FW_UPDATE (R352): FWCMD OP 1; `num` is the length of the image at FWADDR. A command under way is not disturbed (log entry 24). -/
def execFwUpdate (s : State) : Result :=
  let f := s.fw
  if f.busy then .next s
  else
    let image := hbmBytes s 0 f.addr.toNat s.arg.num
    let ok := imageGood image && decide ((Config.imageSvn (fwBank f f.active).image).toNat ≤ (Config.imageSvn image).toNat)
    let g := if ok then setFwBank f (!f.active) { image := image, verified := true } else f
    .next { s with fw := { g with busy := true, result := if ok then 0 else 6 } }

/-- FW_SWITCH (R352): FWCMD OP 2. -/
def execFwSwitch (s : State) : Result :=
  let f := s.fw
  .next (if f.busy then s
  else if (fwBank f (!f.active)).verified then { s with fw := { f with busy := true, switching := true } }
  else { s with fw := { f with busy := true, result := 6 } })

/-- The switch is over: FWSTAT is written, and what the switch held is served in arrival order (R353). -/
def serveHeld (s : State) (f : Firmware) : State :=
  { s with fw := { f with switching := false, busy := false, status := f.result, heldStores := [] }, agenda := f.heldStores ++ s.agenda }

/-- FW_READY (R353): the new firmware reports ready. -/
def execFwReady (s : State) : Result :=
  let f := s.fw
  .next (if f.switching then
    serveHeld s { f with active := !f.active, result := 0, switches := if f.switches = allOnes 8 then f.switches else f.switches + 1 }
  else s)

/-- FW_SWITCH_TIMEOUT (R353): 100 ms have passed, and the old bank goes on. -/
def execFwSwitchTimeout (s : State) : Result :=
  .next (if s.fw.switching then serveHeld s { s.fw with result := 5 } else s)

/-- The first 256 bytes of a report (R351). -/
def reportHead (s : State) : List Byte :=
  let f := s.fw
  let run := (fwBank f f.active).image
  let other := fwBank f (!f.active)
  leBytes 4 0x54414B41 ++ leBytes 2 1 ++ leBytes 1 (if f.active then 1 else 0) ++ leBytes 1 f.switches.toNat ++
  leBytes 8 (Config.imageSvn run).toNat ++ leBytes 16 Config.serial.toNat ++ (List.range 4).flatMap (fun i => leBytes 8 (amGetD 0 f.nonce i).toNat) ++
  measure run ++ (if other.verified then measure other.image else List.replicate 64 0) ++ leBytes 8 s.time.toNat ++ List.replicate 56 0

/-- Bytes that firmware writes at a physical address, under key 0. The package has no HBM at 2^39 or above, and the manual does not say what
becomes of a byte there: it is lost (DESIGN CHOICE; log entry 24). -/
def putPhysical (s : State) (a : Nat) (bs : List Byte) : State :=
  let bs := bs.take (2 ^ 39 - a)
  let s := rekey (noteWrite s (.hbm a) bs.length) 0 a bs.length
  unpoison { s with mem := memPut s.mem a bs } (.hbm a) bs.length

/-- ATTESTATION_REPORT (R351): FWCMD OP 3. An FWADDR that is not a multiple of 64 gets no report (log entry 24). -/
def execAttestationReport (s : State) : Result :=
  .next (unlessSwitching s .attestationReport fun s =>
    let f := s.fw
    if f.busy || fld 0 6 f.addr != 0 then s
    else if 2 ^ 40 ≤ f.keyIndex then { s with fw := { f with busy := true, result := 4 } }
    else
      let head := reportHead s
      let s := putPhysical s f.addr.toNat (head ++ (List.range 9893).map (Config.identitySignature f.keyIndex head))
      { s with fw := { f with busy := true, result := 0, keyIndex := f.keyIndex + 1 } })

/-- FW_COMMAND_COMPLETE (R351): FWSTAT is written. -/
def execFwCommandComplete (s : State) : Result :=
  .next (if s.fw.busy && !s.fw.switching then { s with fw := { s.fw with busy := false, status := s.fw.result } } else s)

/-- The bank that the boot ROM starts (R350). -/
def bootBank (f : Firmware) : Option Bool :=
  if imageGood (fwBank f f.active).image then some f.active
  else if imageGood (fwBank f (!f.active)).image then some (!f.active)
  else none

/-- The bank that starts holds a verified image, and one that was tried first and failed does not (R350). -/
def verifiedBanks (f : Firmware) (b : Bool) : Firmware :=
  let f := if b = f.active then f else setFwBank f f.active { fwBank f f.active with verified := false }
  setFwBank f b { fwBank f b with verified := true }

/-- What outlasts a reset: the firmware banks, the identity key's index, and the quarantine map, which is then in force (R314, R351,
R368). -/
def powerUp (s : State) : State :=
  let rows := s.rows.filterMap fun e =>
    let q := e.2.quarantined ++ e.2.pending
    if q.isEmpty then none else some (e.1, ({ quarantined := q } : Row))
  let f : Firmware := { bank0 := s.fw.bank0, bank1 := s.fw.bank1, active := s.fw.active, keyIndex := s.fw.keyIndex }
  { State.reset with rows := rows, agenda := s.agenda, idleCore := s.idleCore, free := s.free, nextId := s.nextId, fw := f }

/-- POWER_ON (R350, R368): `v` is the last device time known to the host. -/
def execPowerOn (s : State) : Result :=
  let r := powerUp s
  .next (match bootBank r.fw with
  | some b => { r with fw := { verifiedBanks r.fw b with active := b }, hostUp := true, time := s.arg.v }
  | none => { r with fw := { r.fw with inReset := true }, out := r.out ++ [.bootFailed] })

/-! ## Register words (R337, R338) -/

/-- Words of a fault ring's page that have no event of their own (R300). -/
def writeFaultWord (f : FaultWords) (off : Nat) (v : Word) : FaultWords :=
  if off = 0x100 then (if canonical v && fld 0 2 v == 0 then { f with tdefvec := v } else f)
  else if off = 0x108 then (if fld 48 16 v != 0 || fld 0 12 v != 0 then f else { f with stroot := v })
  else if off = 0x140 then (if fld 48 12 v != 0 || fld 0 6 v != 0 then f else { f with log2n := fld 60 4 v, base := baseOf 6 v })
  else f

/-- The trail descriptor words 1 and 2: written while the field is disabled (R146, R147). -/
def writeTrailWord (f : Field) (w : Nat) (v : Word) : Field :=
  if f.en || f.enabling then f
  else if w = 1 then { f with base := v &&& ~~~(0x3FFF : Word) }
  else if w = 2 then { f with period := v.extractLsb' 32 32, pages := v.extractLsb' 0 16 }
  else f

/-- Eight GRANT bytes from a core on, each ignored alone where its reserved bit is not zero (R340). -/
def writeGrants (x : Tenant) (core : Nat) (v : Word) : Tenant :=
  { x with grants := (List.range 8).foldl (fun m i =>
      if bit (8 * i + 7) v then m else amSet m (core + i) (BitVec.ofNat 7 (min 64 (fld (8 * i) 7 v)))) x.grants }

/-- Telemetry word 2 (R335, R339): a write of EN = 1 without the engine is refused, and EN itself is refused below a period of 1,000. The
first sample is due one PERIOD after sampling is turned on or given another period. -/
def writeTelemetry (time : Word) (x : Tenant) (v : Word) : Tenant :=
  let p := v.extractLsb' 32 28
  let en := bit 63 v && decide (1000 ≤ p.toNat)
  if bit 63 v && !x.engines.getLsbD 10 then x
  else { x with telPeriod := p, telEn := en, telNext := if x.telEn && x.telPeriod = p then x.telNext else time.toNat + p.toNat }

/-- A word of a control page. -/
def writeControl (s : State) (t off : Nat) (v : Word) : State :=
  if off = 0x200 then
    (if fld 48 12 v != 0 || fld 0 6 v != 0 then s else modTenant s t fun x => { x with telLog2n := fld 60 4 v, telBase := baseOf 6 v })
  else if off = 0x208 then modTenant s t fun x => { x with telHead := v.extractLsb' 32 32 }
  else if off = 0x210 then modTenant s t fun x => writeTelemetry s.time x v
  else if off = 0x258 then modTenant s t fun x => { x with overdraft := x.overdraft &&& ~~~v }
  else if off = 0x268 then modTenant s t fun x => { x with rowdef := v.setWidth 3 }
  else if off = 0x270 then modTenant s t fun x => { x with pcap := v.setWidth 32 }
  else if off = 0x278 then
    (let s := modTenant s t fun x => { x with rowcap := v.setWidth 3 }
     (List.range 128).foldl (fun s r => if ownsRow (getTenant s t) r then applyCap s r else s) s)
  else if 0x800 ≤ off && off < 0x1000 then
    (let i := (off - 0x800) / 32
     let w := (off - 0x800) % 32 / 8
     if w = 0 then writeTrail0 s t i v else modField s t i fun f => writeTrailWord f w v)
  else if 0x1000 ≤ off && off < 0x1800 then modTenant s t fun x => writeGrants x (off - 0x1000) v
  else modTenant s t fun x => { x with faults := writeFaultWord x.faults off v }

/-- A word of a launch page (R278). -/
def writeLaunchPage (s : State) (t off : Nat) (v : Word) : State :=
  if off = 0x20 then (if fld 48 16 v != 0 || fld 0 6 v != 0 then s else modTenant s t fun x => { x with savebase := v.extractLsb' 6 42 })
  else if 0x800 ≤ off && off < 0xC00 && off % 16 = 0 then
    (if fld 53 10 v != 0 || fld 0 6 v != 0 then s
     else modQueue s t ((off - 0x800) / 16) fun y =>
      { y with en := bit 63 v, prio := BitVec.ofNat 5 (min 23 (fld 48 5 v)), argbase := v.extractLsb' 6 42 })
  else s

/-- Another enabled slot has a VMID. -/
def vmidTaken (s : State) (t : Nat) (v : BitVec 16) : Bool := s.tenants.any fun e => e.1 != t && e.2.en && e.2.vmid == v

/-- The token counts under a new RATE and BURST: at BURST where the tenant had no limit, else as they stand, brought up to date (R344). -/
def newTokens (s : State) (t : Nat) (rate burst : BitVec 32) : AMap (Int × Nat) :=
  let cap : Int := burst.toNat * 1000
  if rate = 0 || (getTenant s t).rate = 0 then []
  else (List.range 256).map fun ch => (ch, max (-cap) (min cap (tokensNow s t ch)), s.time.toNat)

/-- A word of a tenant slot (R338). -/
def writeSlot (s : State) (t w : Nat) (v : Word) : State :=
  if w = 0 then
    modTenant s t fun x =>
      let id := if x.en then x.vmid else v.setWidth 16
      let en := bit 63 v && (x.en || !vmidTaken s t id)
      -- a tenant is created with its groups zero (R123)
      { x with vmid := id, en := en, groups := if en && !x.en then [] else x.groups }
  else if w = 10 then (if fld 48 16 v != 0 || fld 0 12 v != 0 then s else modTenant s t fun x => { x with s2root := v.extractLsb' 12 36 })
  else if w = 11 then 
    modTenant s t fun x => { x with rate := v.extractLsb' 32 32, burst := v.setWidth 32,
                                    tokens := newTokens s t (v.extractLsb' 32 32) (v.setWidth 32) }
  else s

/-- A word of the partition page. -/
def writePartition (s : State) (off : Nat) (v : Word) : State :=
  if off = 0x400 then { s with plim := v }
  else if off = 0x408 then { s with therm := v &&& 0xFFFFFFFF }
  else if off = 0x500 then { s with invAddr := v }
  else if off = 0x808 then { s with fw := { s.fw with addr := v } }
  else if 0x810 ≤ off && off < 0x830 then { s with fw := { s.fw with nonce := amSet s.fw.nonce ((off - 0x810) / 8) v } }
  else if 0x1000 ≤ off && off < 0x3000 then writeSlot s ((off - 0x1000) / 128) ((off - 0x1000) % 128 / 8) v
  else { s with hyp := writeFaultWord s.hyp off v }

/-- A word of the general link page (R358); RESTORE is PEER_RESTORE's. -/
def writeLinkPage (s : State) (off : Nat) (v : Word) : State :=
  if off = 0 then { s with domEn := bit 63 v, dev := if s.domEn then s.dev else v.setWidth 6 }
  else if 0x100 ≤ off && off < 0x300 then
    (let n := (off - 0x100) / 8
     { s with peers := amSet s.peers n { amGetD ({} : Peer) s.peers n with ports := v.setWidth 16 } })
  else s

/-- EN of a flow may go from 0 to 1 (R363). -/
def flowOk (s : State) (p : Nat) (f : Flow) : Bool :=
  (match slotOfVmid s f.vmid with | some t => (getTenant s t).engines.getLsbD p | none => false) &&
  canonical f.stream && canonical f.buf && (f.entry == 0 || fld 0 2 f.entry == 0)

/-- Word 0 of a flow (R363): while EN is 1 a write changes only EN; a refused EN stays 0. -/
def writeFlow0 (s : State) (p i : Nat) (v : Word) : State :=
  modPort s p fun q =>
    let f := amGetD ({} : Flow) q.flows i
    let g : Flow :=
      if f.en then { f with en := bit 63 v }
      else
        let g : Flow := { f with prio := v.extractLsb' 48 5, vmid := v.extractLsb' 32 16, alloc := v.extractLsb' 24 4, off := v.extractLsb' 0 6 }
        { g with en := bit 63 v && flowOk s p g }
    { q with flows := amSet q.flows i g }

/-- A word of a Trailhead port's page (R363). -/
def writeTrailhead (s : State) (p off : Nat) (v : Word) : State :=
  let i := off / 64
  let w := off % 64 / 8
  if off = 0 then modPort s p fun q => { q with en := bit 63 v, maxlen := v.extractLsb' 0 14 }
  else if i = 0 then s
  else if w = 0 then writeFlow0 s p i v
  else
    modPort s p fun q =>
      let f := amGetD ({} : Flow) q.flows i
      if f.en then q
      else
        let g : Flow := match w with
          | 1 => { f with value := v }
          | 2 => { f with mask := v }
          | 3 => { f with stream := v }
          | 4 => { f with buf := v }
          | 5 => { f with entry := v }
          | _ => f
        { q with flows := amSet q.flows i g }

/-- A write of an aligned word of the register space (R337). -/
def writeRegister (s : State) (off : Nat) (v : Word) : State :=
  if off % 8 != 0 then s
  else if off < 0x4000 then writePartition s off v
  else if 0x100000 ≤ off && off < 0x200000 then writeControl s ((off - 0x100000) / 16384) (off % 16384) v
  else if 0x200000 ≤ off && off < 0x300000 then writeLaunchPage s ((off - 0x200000) / 16384) (off % 16384) v
  else if 0x380000 ≤ off && off < 0x384000 then writeLinkPage s (off - 0x380000) v
  else if 0x384000 ≤ off && off < 0x388000 then writeTrailhead s 0 (off - 0x384000) v
  else if 0x388000 ≤ off && off < 0x38C000 then writeTrailhead s 1 (off - 0x388000) v
  else s

/-- REGISTER_WRITE (R337): `num` is the offset and `v` the word; `num2` is the size of a store that is narrower than a word, which leaves the
word's other bytes (log entry 50). With `flag` it is the home-window size that system software sets for core
`unit`, 0, 16 KiB or 32 KiB, for which the manual names no word (R177; log entry 25). -/
def execRegisterWrite (s : State) : Result :=
  .next (if s.arg.flag then
    (if s.arg.num = 0 || s.arg.num = 16384 || s.arg.num = 32768 then
      refreshWin (modCore s s.arg.unit fun k => { k with winSet := s.arg.num }) s.arg.unit
    else s)
  else if s.arg.num2 = 0 then writeRegister s s.arg.num s.arg.v
  else regStoreBytes s s.arg.num (leBytes (min s.arg.num2 8) s.arg.v.toNat))

end Sys2Proof.Machine
end

