-- ==== Sys2Proof/Machine/Preempt.lean ====
section
/-! DEFINITION. Pre-emption: benching for higher launches, saving contexts and segments, and placing them back (R78, R79, R127, R212,
R247, R259, R290 to R293, R303, R316 to R320). -/

namespace Sys2Proof.Machine

/-! ## The save region (R316) -/

def saveBase (x : Tenant) : Word := sext48 (x.savebase.setWidth 64 <<< 6)
def slotAddr (x : Tenant) (cid : Nat) : Word := saveBase x + word (1152 * cid)
def areaAddr (x : Tenant) (core : Nat) : Word := saveBase x + word (0x9000000 + 0x20000 * core)
/-- The sequencer area of a segment: of index (*d*·64 + *y*)·4 + *s* (R316). -/
def seqAddr (x : Tenant) (g : Seg) : Word := saveBase x + word (0x19000000 + 256 * ((g.die * 64 + g.row) * 4 + g.index))

/-- Why a part of the region is not read or written: it cannot be, with the address, or its home units hold it. -/
inductive NoSave where
  | cannot (va : Word)
  | wait
  deriving DecidableEq, Repr

/-- The pages of a range of the region, if each may be written (or read) now. -/
def regionPages (s : State) (t : Nat) (write : Bool) (va : Word) (n : Nat) : Except NoSave (List Page) × State :=
  if (getTenant s t).savebase = 0 || (notCanonical va n).isSome then (.error (.cannot va), s)
  else match walkPieces t write (rangePieces va n) [] s with
    | (.error _, s) => (.error (.cannot va), s)
    | (.ok ps, s) =>
      let may := fun a => let l := placeIn s t ps a write
        mayAccess s (dieOfLoc l) l (pageIn ps (getTenant s t).vmid a) 64 none write
      (if (rangeLines va n).all may then .ok ps else .error .wait, s)

/-- Doublewords written from an address up, on pages that have been checked. -/
def putWords (t : Nat) (ps : List Page) (va : Word) (ws : List Word) (s : State) : State :=
  (ws.zip (List.range ws.length)).foldl (fun s (w, i) =>
    let a := va + word (8 * i)
    let p := pageIn ps (getTenant s t).vmid a
    let l := homePlace s p a true
    unpoison (writeHome (touch s (dieOfLoc l) l p .write 8) l (leBytes 8 w.toNat) p) l 8) s

/-- Doublewords read from an address up; those of a place outside the package are left open (log entry 3). -/
def getWords (t : Nat) (ps : List Page) (va : Word) (n : Nat) (s : State) : List Word × State :=
  (List.range n).foldl (fun (ws, s) i =>
    let a := va + word (8 * i)
    let p := pageIn ps (getTenant s t).vmid a
    let l := homePlace s p a false
    let (f, s) := takeFree s
    (ws ++ [word (leNat (readHome s l 8 f p))], touch s (dieOfLoc l) l p .read 8)) ([], s)

/-- Which of the doublewords from an address up are poisoned. -/
def badWords (s : State) (t : Nat) (ps : List Page) (va : Word) (n : Nat) : List Nat :=
  (List.range n).filter fun i => poisonedAt s (placeIn s t ps (va + word (8 * i)) false) 8

/-! ## The save area of a context (R78) -/

/-- The scale addresses as offset 0x070 holds them. -/
def scaleWord (a b : BitVec 17) : Word := word (b.toNat / 2 * 2 * 2 ^ 32 + a.toNat / 2 * 2)

/-- The words of a save area, with the PC to resume at. -/
def saveWords (k : Core) (c : Ctx) (pc : Word) : List Word :=
  let g := fun i => if i < c.size then (regEntry k c (BitVec.ofNat 7 i)).val else 0
  let head := (ofFlag c.hdlr <<< 59) ||| (ofFlag c.net <<< 58) ||| (1 <<< 57 : Word) ||| word ((c.size / 8 - 1) * 2 ^ 53 + c.prio.toNat * 2 ^ 48) |||
    (pc.extractLsb' 0 48).setWidth 64
  [head] ++ (List.range 7).map (fun i => g (i + 1)) ++
  [ c.epc, c.tval, c.tcause, c.tvec, c.repc,
    word (c.mfmt.toNat * 2 ^ 32 + c.fflags.toNat * 2 ^ 24 + c.frm.toNat * 2 ^ 16 + c.vlen.toNat),
    scaleWord c.mscla c.msclb,
    (match c.grp with | some h => (1 <<< 63 : Word) ||| word (h.toNat * 2 ^ 32) | none => 0) ||| c.smap.setWidth 64 ] ++
  (List.range (c.size - 8)).map fun i => g (i + 8)

/-- A context as its save area gives it, over what the device knows. -/
def loadCtx (known : Ctx) (ws : List Word) (base : Nat) : Ctx :=
  let w := fun i => ws.getD i 0
  { known with
    base := base, pc := sext48 (w 0) &&& ~~~(3 : Word), prio := BitVec.ofNat 5 (min (fld 48 5 (w 0)) 23),
    epc := w 8 &&& ~~~(3 : Word), tval := w 9, tcause := w 10 &&& (3 <<< 62 ||| 0xFF : Word), tvec := w 11 &&& ~~~(3 : Word),
    repc := w 12 &&& (1 <<< 63 ||| 0xFFFFFFFF : Word), mfmt := (w 13).extractLsb' 32 8, fflags := (w 13).extractLsb' 24 5,
    frm := (w 13).extractLsb' 16 2, vlen := (w 13).extractLsb' 0 13, mscla := BitVec.ofNat 17 (fld 1 16 (w 14) * 2),
    msclb := BitVec.ofNat 17 (fld 33 16 (w 14) * 2),
    grp := if bit 63 (w 15) then some ((w 15).extractLsb' 32 16) else none, smap := (w 15).extractLsb' 0 32,
    status := .ready, benchPre := false, saving := false, stopped := false, yields := 0 }

/-- Register `i` of a save area. -/
def savedReg (ws : List Word) (i : Nat) : Word := ws.getD (if i < 8 then i else i + 8) 0

/-! ## The core area (R317) -/

/-- Bytes as doublewords, least significant first, to `n` of them. -/
def packWords (n : Nat) (bs : List Byte) : List Word := (List.range n).map fun i => word (leNat ((bs.drop (8 * i)).take 8))

def padTo (n : Nat) (ws : List Word) : List Word := ws ++ List.replicate (n - ws.length) 0

/-- A running `mma` or `mma.rot` at its k-step boundary, as it is saved: suspended (R259). -/
def MCmd.stop (m : MCmd) : MCmd := if m.state = .running then { m with state := .suspended, waited := 0 } else m

def writerWord (cid : Nat) (w : Option Writer) : Word :=
  match w with
  | some x => if x.ctx = cid then (1 <<< 63 : Word) ||| word (x.batch.toNat % 2 ^ 31 * 2 ^ 32 + cid) else 0
  | none => 0

def queueWords (m : MCmd) : List Word :=
  [ word (m.ctx * 2 ^ 47 + (if m.state = .waiting then 0 else 1) * 2 ^ 44 + m.word.toNat), m.a, m.b,
    word (m.mfmt.toNat * 2 ^ 32 + m.batch.toNat), scaleWord m.mscla m.msclb, word (m.prio.toNat * 2 ^ 16 + (m.depth - m.k)),
    word m.waited, 0 ]

def chanWords (k : Core) (cid ch : Nat) : List Word :=
  match amGet k.chans ch with
  | some x => if x.ctx != some cid then [0, 0, 0, 0, 0, 0, 0, 0] else match x.kind with
    | .sub pull => [word ((if pull then 3 else 2) * 2 ^ 62 + amGetD 0 k.cwp ch), x.desc, word x.landed, word x.retired, 0, 0, 0, 0]
    | .copy => [0, 0, 0, 0, 0, 0, 0, 0]
  | none => [0, 0, 0, 0, 0, 0, 0, 0]

/-- The latch of a core as it is saved: the rows on their way have arrived. -/
def Core.rows (k : Core) : List LatchRow := k.latch ++ k.inbound

def stepWords (r : Option StepRec) : List Word :=
  match r with
  | none => List.replicate 8 0
  | some r => [ r.id.setWidth 64, r.deadline, r.work.setWidth 64, r.handler, r.t0, r.p, r.tl,
      (ofFlag r.drisk <<< 63) ||| (1 <<< 62 : Word) ||| word (r.dclass.toNat * 2 ^ 56 + r.ctx) ]

/-- The 128 KiB of a core area, for the context whose state it holds; for a scratchpad alone, none. -/
def areaWords (k : Core) (who : Option (Nat × Ctx)) : List Word :=
  let cid := match who with | some (i, _) => i | none => noContext
  packWords 12288 (spRead k 0 98304) ++
  packWords 512 ((List.range 64).flatMap (bankBytes k.a0)) ++ packWords 512 ((List.range 64).flatMap (bankBytes k.a1)) ++
  padTo 1024 (k.rows.flatMap fun r => packWords 8 r.bytes) ++
  padTo 32 ((k.rows.filterMap (·.scale)).flatMap (packWords 8)) ++
  [word k.rows.length, writerWord cid k.last0, writerWord cid k.last1] ++ List.replicate 5 0 ++
  padTo 64 ((k.mq.filter fun m => m.ctx == cid).flatMap fun m => queueWords m.stop) ++
  (List.range 4).flatMap (chanWords k cid) ++ packWords 2 k.ctabBytes ++ [match k.ctab with | some a => (1 <<< 63 : Word) ||| word a | none => 0] ++
  List.replicate 5 0 ++
  (List.range 64).map (fun i => match who with
    | some (_, c) => if i = slotOf cid then word (c.completed.toNat * 2 ^ 32 + c.committed.toNat) else 0
    | none => 0) ++
  stepWords k.step ++ List.replicate 1832 0

/-! ## When a context may be saved (R79, R184) -/

/-- Every register of a context is full. -/
def allFull (k : Core) (c : Ctx) : Bool := (List.range c.size).all fun i => (regEntry k c (BitVec.ofNat 7 i)).full

/-- A waiting word that saving undoes or ends: a port operation not yet served, an arrival at `bar`, a wait for an engine, a page that
is missing; a `park` completes (R79, R122, R127, R247, R303). -/
def quiesce (s : State) (cid : Nat) : State :=
  match getCtx s cid with
  | none => s
  | some c =>
    match c.status with
    | .parked (.page i) => modCtx { s with walks := s.walks.filter fun w => w.id != i } cid fun c => { c with status := .ready }
    | .parked _ => wake s cid
    | .held (.bar ..) => withdrawBar s cid
    | .held (.owe (.bar ..) _) => withdraw s cid
    | .held (.park none _) => endPark s cid
    -- a word of a stream has gone by, so its wait is waited for
    | .held (.mwait _) | .held .cfence | .held (.cwait ..) => if c.stream then s else withdraw s cid
    | .held (.pop _ i) | .held (.push _ i) =>
      (match s.ports.find? fun o => o.id == i && !o.answered with
        | none => s
        | some o =>
          let s := { s with ports := s.ports.filter fun x => x.id != i }
          let s := match o.dst with | some q => setFull s cid q true | none => s
          withdraw s cid)
    | _ => s

/-- A command that may not be saved yet: a started move, or an `mma` or `mma.rot` that is not at its k-step boundary (R259). -/
def MCmd.busy (m : MCmd) : Bool :=
  match m.kind with
  | .mstc | .mldc => m.state == .running || m.state == .draining
  | .mma => m.state == .draining
  | .rot => m.state == .running && !m.got.isEmpty

/-- Nothing of the context is on its way, its release at `.pkg` is met, and its started moves are complete (R79, R135, R184, R259, R291; log
entry 20). -/
def saveable (s : State) (cid : Nat) (c : Ctx) : Bool :=
  let k := getCore s (coreOf cid)
  c.status == .ready && allFull k c && nothingOwed s cid && c.duties.isEmpty && !(k.sbuf.any fun e => e.ctx == cid) &&
  !(s.reqs.any fun r => r.ctx == cid) && fenceMet s cid 2 c.saveFrom && !(k.chans.any fun e => e.2.ctx == some cid && e.2.kind == .copy) &&
  !(k.mq.any fun m => m.ctx == cid && m.busy)

/-- A context stops for a save (R79). -/
def stopCtx (s : State) (cid : Nat) : State :=
  modCtx s cid fun c => if c.saving then c else { c with saving := true, saveFrom := s.nextId }

/-- The context has state in its core's engines (R317). -/
def usesEngines (k : Core) (cid : Nat) : Bool :=
  (k.mq.any fun m => m.ctx == cid) || (k.chans.any fun e => e.2.ctx == some cid) || (writerWord cid k.last0 != 0) || writerWord cid k.last1 != 0

/-- Scratchpad bytes that the context's node reserves, from byte 0 up (R43; log entry 64). -/
def reserved (s : State) (c : Ctx) : Nat := match gnodeOf s c.tslot c.node with | some g => g.kernel.spbytes | none => 0

/-- A saved context stands under this id until it is placed back. -/
def savedId (mark : Nat) : Nat := noContext + mark

/-- What names a saved context names its new place. -/
def renameMq (new : Nat) (ms : List MCmd) : List MCmd := ms.map fun m => { m with ctx := new }
def renameChans (new : Nat) (cs : AMap Chan) : AMap Chan := cs.map fun e => (e.1, { e.2 with ctx := some new })
def renameWriter (new : Nat) (w : Option Writer) : Option Writer := w.map fun x => { x with ctx := new }
def renameStep (old new : Nat) (r : Option StepRec) : Option StepRec := r.map fun r => if r.ctx = old then { r with ctx := new } else r
def renameBench (old new : Nat) (bs : List (Nat × Nat)) : List (Nat × Nat) := bs.map fun e => if e.1 = old then (new, e.2) else e

/-- What the device knows of a context that it saves. The operand latch goes with a stream context, and with one that uses the engine of a
core in no segment, whose latch is a ring of its own (R188, R249, R259). -/
def savedCtx (s : State) (cid mark : Nat) (c : Ctx) (area : Bool) : SavedCtx :=
  let k := getCore s (coreOf cid)
  let mine := fun (w : Option Writer) => if writerWord cid w != 0 then w else none
  let ring := c.stream || (area && k.seg == 0)
  { id := cid, mark := mark, ctx := c, area := area,
    mq := renameMq (savedId mark) ((k.mq.filter fun m => m.ctx == cid).map MCmd.stop),
    chans := k.chans.filter fun e => e.2.ctx == some cid, last0 := mine k.last0, last1 := mine k.last1,
    ring := ring, latch := if ring then k.rows else [], sending := if ring then k.sending else none,
    step := if c.stream then k.step else none,
    drops := (s.dropped.filter fun d => d.ctx == cid).map fun d => (d.id, d.line),
    bad := (List.range c.size).filter fun i => (regEntry k c (BitVec.ofNat 7 i)).poison,
    spBad := k.spPoison.filter fun g => g * 4 < reserved s c }

/-- A bank record of a saved context: its batch stays open, or uncompleted, as it was (R189, R256). That of a segment goes with its banks
(R212, R259). -/
def keepWriter (sv : SavedCtx) (w : Option Writer) : Option Writer :=
  match w with
  | some x => if x.ctx = sv.id then if sv.ctx.stream then none else some { x with ctx := savedId sv.mark, stuck := x.stuck || x.batch == nextBatch sv.ctx.committed } else w
  | none => none

/-- A saved context leaves its core: slot, run and engine entries are free; its node's count and its group stay (R68, R292), and what names
it names its save. A saved segment takes every core's step record with it (R323). -/
def forgetCtx (s : State) (sv : SavedCtx) : State :=
  let core := coreOf sv.id
  let s := { s with watches := s.watches.filter fun w => w.ctx != sv.id, dropped := s.dropped.filter fun d => d.ctx != sv.id,
                    fastBench := renameBench sv.id (savedId sv.mark) s.fastBench }
  let s := modCore s core fun k =>
    { k with ctxs := amErase k.ctxs (slotOf sv.id), rot := { k.rot with gone := k.rot.gone ++ [slotOf sv.id] },
             mq := k.mq.filter fun m => m.ctx != sv.id, chans := k.chans.filter fun e => e.2.ctx != some sv.id,
             last0 := keepWriter sv k.last0, last1 := keepWriter sv k.last1,
             step := if sv.ctx.stream then none else renameStep sv.id (savedId sv.mark) k.step, areaUsed := k.areaUsed || sv.area }
  refreshWin (removeRing s core) core

/-- A context's bytes go to its save slot, and those of its core to the core area. -/
def writeSaved (s : State) (t cid : Nat) (c : Ctx) (pc : Word) (area : Bool) : Except NoSave State :=
  let x := getTenant s t
  let k := getCore s (coreOf cid)
  let ws := saveWords k c pc
  match regionPages s t true (slotAddr x cid) (8 * ws.length) with
  | (.error e, _) => .error e
  | (.ok ps, s) =>
    if !area then .ok (putWords t ps (slotAddr x cid) ws s)
    else match regionPages s t true (areaAddr x (coreOf cid)) 0x20000 with
      | (.error e, _) => .error e
      | (.ok qs, s) =>
        .ok (putWords t qs (areaAddr x (coreOf cid)) (areaWords k (some (cid, c))) (putWords t ps (slotAddr x cid) ws s))

/-- Nothing is saved or placed back: a record says so where it cannot be (R292). -/
def cannotSave (s : State) (t : Nat) (write : Bool) (e : NoSave) : State :=
  match e with
  | .cannot va => (report s (.tenant t) { kind := .dispatcher, cause := .pfault, wr := write, addr := va }).2
  | .wait => s

/-! ## Saving barrel contexts (R292) -/

/-- The launch priority of a context. -/
def ctxPrio (s : State) (c : Ctx) : Nat := launchPrio s c.tslot c.node

/-- Contexts of lower launches on a core are benched, and withdraw from their groups (R127, R292). -/
def benchLower (s : State) (t core prio : Nat) : State :=
  ((getCore s core).ctxs.filter fun e => e.2.tslot == t && e.2.node.isSome && !e.2.benchPre && decide (ctxPrio s e.2 < prio)).foldl
    (fun s e => modCtx (withdrawBar s (ctxId core e.1)) (ctxId core e.1) fun c => { c with benchPre := true }) s

/-- The next context to save for room: lowest launch priority, then highest slot. -/
def saveVictim (s : State) (t core prio : Nat) : Option (Nat × Ctx) :=
  ((getCore s core).ctxs.filter fun e => e.2.tslot == t && e.2.benchPre && !e.2.stream && decide (ctxPrio s e.2 < prio)).foldl
    (fun best e => match best with
      | none => some e
      | some b => if ctxPrio s e.2 ≤ ctxPrio s b.2 then some e else some b) none

/-- The core area holds the scratchpad bytes of a context's node already (R317). -/
def scratchKept (k : Core) (c : Ctx) : Bool :=
  (k.saved.any fun v => v.area && v.ctx.tslot == c.tslot && v.ctx.node == c.node) ||
  (match k.kept with | some x => x.tslot == c.tslot && x.node == c.node | none => false)

/-- One benched context is saved, once it may be (R79, R292); one that needs the core area waits while the area holds another state (R319).
`rival` is what the higher node reserves of the scratchpad. -/
def saveOne (s : State) (t core prio rival : Nat) : State :=
  match saveVictim s t core prio with
  | none => s
  | some (slot, _) =>
    let cid := ctxId core slot
    let s := quiesce (stopCtx s cid) cid
    match getCtx s cid with
    | none => s
    | some c =>
      let k := getCore s core
      let area := usesEngines k cid || (0 < rival && 0 < reserved s c && !scratchKept k c)
      if !saveable s cid c || (area && k.areaUsed) then s
      else match writeSaved s t cid c c.pc area with
        | .error e => cannotSave s t true e
        | .ok s =>
          let (m, s) := takeId s
          let sv := savedCtx s cid m c area
          modCore (forgetCtx s sv) core fun k => { k with saved := k.saved ++ [sv] }

/-- The scratchpad of benched contexts goes to the core area where a resident context of a higher node reserves bytes that overlap
theirs (R317). -/
def keepScratch (s : State) (t core : Nat) : State :=
  let k := getCore s core
  let mine := k.ctxs.filter fun e => e.2.tslot == t && 0 < reserved s e.2
  match mine.find? fun e => e.2.benchPre with
  | none => s
  | some (_, c) =>
    if k.areaUsed || !(mine.any fun e => !e.2.benchPre && decide (ctxPrio s c < ctxPrio s e.2)) then s
    else
      let va := areaAddr (getTenant s t) core
      match regionPages s t true va 0x20000 with
      | (.error e, s) => cannotSave s t true e
      | (.ok ps, s) =>
        let n := reserved s c
        modCore (putWords t ps va (areaWords { k with step := none } none) s) core fun k =>
          { k with areaUsed := true, kept := some { tslot := t, node := c.node, bytes := n, bad := k.spPoison.filter fun g => g * 4 < n } }

/-! ## Saving segments (R212, R291) -/

/-- What is under way in a segment restored at other positions: each word is sent again, for the cores that have still to execute it
(R212; log entry 22). -/
def resent (g : Seg) (at_ : List Nat) : List PipeWord :=
  (wordsUnderWay g).filterMap fun w => (((g.cores.map (·.1)).zip at_).find? fun x => w.first ≤ x.1).map fun x => { w with first := x.2 }

/-- A segment that was saved, at the positions of its new cores: where these are the old ones, its words stand as they stood. -/
def reposition (g : Seg) (at_ : List Nat) (span : Nat) : Seg :=
  if at_ = g.cores.map (·.1) then g else { g with span := span, pipe := List.replicate span none, again := resent g at_ }

/-- The words of a sequencer area (R318). -/
def seqWords (g : Seg) : List Word :=
  [g.pc, match g.repRun with | some (i, n) => repcWord i n | none => 0] ++ (List.range 15).map (fun i => amGetD 0 g.k (i + 1)) ++
  [word (g.index * 2 ^ 32 + g.row * 2 ^ 24 + g.die * 2 ^ 16 + g.span * 2 ^ 8 + (if g.size = 4 then 1 else if g.size = 8 then 2 else 3))] ++
  List.replicate 14 0

/-- Every context of the segment is written, with the word that its core would execute next, and leaves its core (R212). -/
def saveCores (t : Nat) (g : Seg) : List (Nat × Nat × Nat) → List SavedCtx → State → Except NoSave (List SavedCtx × State)
  | [], done, s => .ok (done, s)
  | (pos, core, slot) :: rest, done, s =>
    let cid := ctxId core slot
    match getCtx s cid with
    | none => .error .wait
    | some c =>
      let (pc, repc) := coreNext s g pos cid
      let c := { c with repc := repc }
      match writeSaved s t cid c pc true with
      | .error e => .error e
      | .ok s =>
        let (m, s) := takeId s
        let sv := savedCtx s cid m c true
        saveCores t g rest (done ++ [sv]) (forgetCtx s sv)

/-- The segment is saved and gone from its cores (R212, R316 to R318). -/
def saveSegment (s : State) (t key : Nat) (g : Seg) : Except NoSave State :=
  let x := getTenant s t
  match regionPages s t true (seqAddr x g) 256 with
  | (.error e, _) => .error e
  | (.ok ps, s) =>
    match saveCores t g g.cores [] (putWords t ps (seqAddr x g) (seqWords g) s) with
    | .error e => .error e
    | .ok (ctxs, s) =>
      let (i, s) := takeId s
      let sv : SavedSeg := { id := i, key := key, seg := g, ctxs := ctxs }
      let s := g.cores.foldl (fun s c => modCore s c.2.1 clearCore) s
      let s := { s with segs := amErase s.segs key, walks := s.walks.filter fun w => some w.id != g.walk }
      let s := modTenant s t fun x => { x with savedSegs := x.savedSegs ++ [sv] }
      match g.node with
      | none => .ok s
      | some n => .ok (modNode s t n fun x => { x with segs := x.segs.map fun k => if k = key then 512 + i else k })

/-- A victim segment is held from its next beat, and saved once its contexts may be (R212, R319). -/
def preemptSegment (s : State) (t key : Nat) (g : Seg) : State :=
  match g.phase with
  | .ending _ => s
  | .running =>
    if g.rowWait.isSome || g.plan.isSome || g.cores.any (fun x => (getCore s x.2.1).areaUsed) then s
    else if (getTenant s t).savebase = 0 then cannotSave s t true (.cannot 0)
    else g.ids.foldl stopCtx (setSeg s key { g with phase := .held })
  | .held =>
    let s := g.ids.foldl quiesce s
    if g.ids.all fun cid => match getCtx s cid with | some c => saveable s cid c | none => false then
      match saveSegment s t key g with
      | .ok s => s
      | .error .wait => s
      | .error e =>
        -- nothing is saved: the segment goes on (R292)
        let s := g.ids.foldl (fun s cid => modCtx s cid fun c => { c with saving := false }) (setSeg s key { g with phase := .running })
        cannotSave s t true e
    else s

/-- The launch priority and eligibility of a segment's node. -/
def segPrio (s : State) (t : Nat) (g : Seg) : Nat := launchPrio s t g.node
def segElig (s : State) (t : Nat) (g : Seg) : Nat := match launchOf s t g.node with | some l => l.eligible.getD 0 | none => 0

/-- A segment of a lower launch of the tenant. -/
def lowerSeg (s : State) (t prio : Nat) (g : Seg) : Bool := g.tslot == t && g.node.isSome && decide (segPrio s t g < prio)

/-- The victim is, among the segments that a node could take, that of the lowest launch priority, then of the latest eligible launch
(R290). -/
def isVictim (s : State) (t prio : Nat) (cores : List Nat) (g : Seg) : Bool :=
  (s.segs.filter fun e => lowerSeg s t prio e.2 && e.2.cores.any fun x => cores.contains x.2.1).all fun e =>
    decide (segPrio s t g < segPrio s t e.2) || (segPrio s t g == segPrio s t e.2 && decide (segElig s t e.2 ≤ segElig s t g))

/-- Every segment that a ROW node names is free but for work of lower launches (R290). -/
def onlyLower (s : State) (t prio : Nat) (g : GNode) : Bool :=
  g.segs.all fun k => (segCores k (recSize g.words)).all fun core =>
    s.segs.all fun e => !(e.2.cores.any fun x => x.2.1 == core) || lowerSeg s t prio e.2

/-- The segments, by key, on which a ROW node may start (R288). -/
def rowKeys (s : State) (t : Nat) (g : GNode) : List Nat := if g.word 2 = 0 then tenantSegs s t (recSize g.words) else g.segs

/-- The cores that a ROW node may take. -/
def rowChoice (s : State) (t : Nat) (g : GNode) : List Nat := (rowKeys s t g).flatMap fun k => segCores k (recSize g.words)

/-- Pre-emption for the ROW node at the head of the ready queue, at one core (R290, R291). -/
def preemptRow (s : State) (t core : Nat) (r : Ready) : State :=
  let prio := r.launch.prio.toNat
  let cores := rowChoice s t r.g
  if (rowPlan s t r.g).isSome || !cores.contains core || !onlyLower s t prio r.g then s
  else match s.segs.find? fun e => e.2.cores.any fun x => x.2.1 == core with
    | some (key, g) => if lowerSeg s t prio g && isVictim s t prio cores g then preemptSegment s t key g else s
    | none =>
      if coreFree s t core r.g.kernel.allot then s
      else saveOne (benchLower s t core prio) t core prio r.g.kernel.spbytes

/-- Pre-emption for the continuation that waits at a core (R292). -/
def preemptArrival (s : State) (t core : Nat) : State :=
  match (getCore s core).arrivals with
  | [] => s
  | c :: _ =>
    if c.tslot != t || ((freeSlot s t core).isSome && (freeRun (getCore s core) c.allot).isSome) then s
    else
      let rival := match gnodeOf s t c.node with | some g => g.kernel.spbytes | none => 0
      let prio := launchPrio s t c.node
      saveOne (benchLower s t core prio) t core prio rival

/-- PREEMPT (R290 to R292): the dispatcher acts at core `unit` for tenant `slot`: it benches contexts below a higher launch that is there and
keeps the scratchpad bytes that they share, and goes on with what the head of the ready queue and the waiting arrival need. -/
def execPreempt (s : State) : Result :=
  let t := s.arg.slot
  let core := s.arg.unit
  let top := ((getCore s core).ctxs.filter fun e => e.2.tslot == t).foldl (fun m e => max m (ctxPrio s e.2)) 0
  let s := benchLower s t core top
  let s := match readyHead (getTenant s t) (startCycle (getTenant s t) s.cycle) with
    | some r => if r.g.kind = 0 then preemptRow s t core r else s
    | none => s
  .next (keepScratch (preemptArrival s t core) t core)

/-! ## Placing back (R293, R320) -/

/-- Bytes `lo` to `lo + n - 1` of a core area. -/
def areaBytes (ws : List Word) (lo n : Nat) : List Byte := ((ws.drop (lo / 8)).take (n / 8)).flatMap fun w => leBytes 8 w.toNat

/-- A doubleword of a core area. -/
def areaWord (ws : List Word) (at_ : Nat) : Word := ws.getD (at_ / 8) 0

/-- The reserved scratchpad bytes of a core area written back, with the poison that they had (R317; log entry 64). -/
def loadScratch (n : Nat) (bad : List Nat) (ws : List Word) (k : Core) : Core :=
  { spWrite k 0 ((areaBytes ws 0 98304).take n) with spPoison := addAll (k.spPoison.filter fun g => !(g * 4 < n)) bad }

/-- The latch rows of a core area; which of them a scale line travels with, and which command passed it on, the device knows. -/
def loadRows (ws : List Word) (known : List LatchRow) : List LatchRow :=
  ((known.zip (List.range known.length)).foldl (fun (rows, used) (r, i) =>
    let row := areaBytes ws (0x1A000 + 64 * i) 64
    match r.scale with
    | some _ => (rows ++ [{ r with bytes := row, scale := some (areaBytes ws (0x1C000 + 64 * used) 64) }], used + 1)
    | none => (rows ++ [{ r with bytes := row }], used)) (([] : List LatchRow), 0)).1

/-- The part of a core area that is the core's: scratchpad, banks, latch and code table (R317, R320 step 1). -/
def loadCore (s : State) (sv : SavedCtx) (ws : List Word) (k : Core) : Core :=
  let bank := fun (lo : Nat) => let bs := areaBytes ws lo 4096; packBank fun i => BitVec.ofNat 32 (leNat ((bs.drop (4 * i)).take 4))
  let tab := areaWord ws 0x1C450
  let k := loadScratch (reserved s sv.ctx) sv.spBad ws k
  { k with
    a0 := bank 0x18000, a1 := bank 0x19000
    latch := if sv.ring then loadRows ws sv.latch else k.latch
    inbound := if sv.ring then [] else k.inbound
    sending := if sv.ring then sv.sending else k.sending
    ctabBytes := if bit 63 tab then areaBytes ws 0x1C440 16 else k.ctabBytes
    ctab := if bit 63 tab then some (fld 0 17 tab) else k.ctab }

/-- A command from the eight words of a queue entry (R317). -/
def cmdOf (w : Nat → Word) (new : Nat) (m : MCmd) : MCmd :=
  { m with
    ctx := new, word := (w 0).setWidth 32, a := w 1, b := w 2, mfmt := (w 3).extractLsb' 32 8, batch := (w 3).setWidth 32,
    mscla := BitVec.ofNat 17 (fld 1 16 (w 4) * 2), msclb := BitVec.ofNat 17 (fld 33 16 (w 4) * 2), prio := (w 5).extractLsb' 16 5,
    k := m.depth - fld 0 8 (w 5), waited := (w 6).toNat
    state := if m.state = .draining then .draining else if fld 44 3 (w 0) = 0 then .waiting else .suspended }

/-- Command `i` of a core area, over what the device knows of it beside: the pages and claims of its lines, the code table that it took,
its B scales, and the commands that it waits for (R317; log entry 21). -/
def loadCmd (ws : List Word) (new i : Nat) (m : MCmd) : MCmd := cmdOf (fun j => areaWord ws (0x1C140 + 64 * i + 8 * j)) new m

/-- A subscription of a core area: *L* and *D* from it, the rest of its progress as the device knows it (log entry 21). -/
def loadChan (ws : List Word) (new ch : Nat) (x : Chan) : Chan :=
  { x with ctx := some new, desc := areaWord ws (0x1C348 + 64 * ch), landed := (areaWord ws (0x1C350 + 64 * ch)).toNat,
           retired := (areaWord ws (0x1C358 + 64 * ch)).toNat }

/-- A bank record of a core area. -/
def loadWriter (ws : List Word) (new at_ : Nat) (w old : Option Writer) : Option Writer :=
  match w with
  | some x => some { x with ctx := new, batch := (x.batch &&& 0x80000000) ||| ((areaWord ws at_).extractLsb' 32 31).setWidth 32 }
  | none => old

/-- The step record of a core area, under the restored stream context (R317, R323). -/
def loadStep (ws : List Word) (new : Nat) (r old : Option StepRec) : Option StepRec :=
  match r with
  | some x =>
    let w := fun j => areaWord ws (0x1C680 + 8 * j)
    some { x with id := (w 0).setWidth 16, deadline := w 1, work := (w 2).setWidth 48, handler := w 3, t0 := w 4, p := w 5, tl := w 6,
                  drisk := bit 63 (w 7), dclass := (w 7).extractLsb' 56 3, ctx := new }
  | none => old

/-- The part of a core area that is its context's: commands, subscriptions, bank records, and for a stream its step record. -/
def loadOwn (sv : SavedCtx) (new : Nat) (ws : List Word) (k : Core) : Core :=
  { k with
    mq := k.mq ++ sv.mq.mapIdx (loadCmd ws new)
    chans := sv.chans.foldl (fun m e => amSet m e.1 (loadChan ws new e.1 e.2)) k.chans
    cwp := sv.chans.foldl (fun m e => amSet m e.1 (fld 0 17 (areaWord ws (0x1C340 + 64 * e.1)))) k.cwp
    last0 := loadWriter ws new 0x1C108 sv.last0 k.last0
    last1 := loadWriter ws new 0x1C110 sv.last1 k.last1
    step := loadStep ws new sv.step k.step }

/-- The batch records of a context in a core area. -/
def loadBatches (ws : List Word) (old : Nat) (c : Ctx) : Ctx :=
  let w := areaWord ws (0x1C480 + 8 * slotOf old)
  { c with completed := w.extractLsb' 32 32, committed := w.setWidth 32 }

/-- What is kept for a saved context of the core names its save no more, but its new id. -/
def renameSaved (new : Nat) (sv : SavedCtx) (k : Core) : Core :=
  let back := fun (w : Option Writer) => w.map fun x => if x.ctx = savedId sv.mark then { x with ctx := new } else x
  { k with step := renameStep (savedId sv.mark) new k.step, last0 := back k.last0, last1 := back k.last1 }

/-- The words of a saved context's core area. -/
def readArea (s : State) (t core : Nat) : Except NoSave (List Word × State) :=
  match regionPages s t false (areaAddr (getTenant s t) core) 0x20000 with
  | (.error e, _) => .error e
  | (.ok ps, s) => .ok (getWords t ps (areaAddr (getTenant s t) core) 16384 s)

/-- A core area written back, where the context has one that is not yet (R320 step 1). -/
def writeBackArea (s : State) (t core : Nat) (sv : SavedCtx) : Except NoSave State :=
  if !sv.area || sv.loaded then .ok s
  else match readArea s t (coreOf sv.id) with
    | .error e => .error e
    | .ok (ws, s) => .ok (modCore s core (loadCore s sv ws))

/-- The channels of a saved context's subscriptions are free on a core (R261). -/
def chansFree (k : Core) (sv : SavedCtx) : Bool := sv.chans.all fun e => (amGet k.chans e.1).isNone

/-- A saved context placed on a core in a slot and run, from its save slot and its core area (R320 step 2). -/
def restoreCtx (s : State) (t core slot base : Nat) (sv : SavedCtx) : Except NoSave State :=
  let x := getTenant s t
  let n := sv.ctx.size
  let new := ctxId core slot
  match regionPages s t false (slotAddr x sv.id) (64 + 8 * n) with
  | (.error e, _) => .error e
  | (.ok ps, s) =>
    let bad := badWords s t ps (slotAddr x sv.id) (8 + n)
    let (ws, s) := getWords t ps (slotAddr x sv.id) (8 + n) s
    match (if sv.area then readArea s t (coreOf sv.id) else .ok ([], s)) with
    | .error e => .error e
    | .ok (v, s) =>
      let benched := s.fastBench.any fun e => e.1 == savedId sv.mark
      let c := { loadCtx sv.ctx ws base with
        benchPurse := purseEmpty s t, benchPower := benched, benchHot := (getRow s (rowOf core)).hot }
      let c := if sv.area then loadBatches v sv.id c else c
      let rf := (getCore s core).rf.filter fun e => !(decide (base ≤ e.1) && decide (e.1 < base + n))
      let rf := (List.range n).foldl (fun m i =>
        let e : RegEntry :=
          { val := savedReg ws i, full := true, poison := sv.bad.contains i || bad.contains (if i < 8 then i else i + 8) }
        if i = 0 || e = RegEntry.zero then m else amSet m (base + i) e) rf
      let s := modCore s core fun k =>
        let k := renameSaved new sv { k with ctxs := amSet k.ctxs slot c, rf := rf }
        if sv.area then loadOwn sv new v k else k
      let s := { s with dropped := s.dropped ++ sv.drops.map fun d => { ctx := new, id := d.1, line := d.2 },
                        fastBench := renameBench (savedId sv.mark) new s.fastBench }
      let s := if sv.area then modCore s (coreOf sv.id) fun k => { k with areaUsed := false } else s
      let cont : Cont := { words := [], vmid := c.vmid, tslot := t, node := c.node, dclass := c.dclass, tvec := none, tcause := 0 }
      .ok (refreshWin (installRing (raiseRow s core) core cont) core)

/-- The scratchpad that was kept for benched contexts is written back once no higher launch is on the core (R293, R317). -/
def giveBack (s : State) (core : Nat) : Except NoSave State :=
  match (getCore s core).kept with
  | none => .ok s
  | some x =>
    if higherRemains s core x.tslot x.node then .ok s
    else match readArea s x.tslot core with
      | .error e => .error e
      | .ok (ws, s) => .ok (modCore s core fun k => { loadScratch x.bytes x.bad ws k with areaUsed := false, kept := none })

/-- Benched contexts of a core under which no higher launch remains issue again (R293). -/
def unbench (s : State) (t core : Nat) : State :=
  modCore s core fun k => mapCtxs k fun _ c =>
    if c.tslot == t && c.benchPre && !higherRemains s core t c.node then { c with benchPre := false, saving := false } else c

/-- The core areas of a core's saved contexts are written back before any of them is placed (R320). -/
def writeBackAll (core : Nat) : List SavedCtx → State → Except NoSave State
  | [], s => .ok s
  | sv :: rest, s =>
    match writeBackArea s sv.ctx.tslot core sv with
    | .error e => .error e
    | .ok s => writeBackAll core rest (modCore s core fun k =>
        { k with saved := updWhere (fun x => x.mark == sv.mark) (fun x => { x with loaded := true }) k.saved })

/-- The first saved context of a core is placed back, ahead of the arrival queue, where it fits and its channels are free (R261, R293). -/
def restoreFirst (s : State) (core : Nat) : State :=
  match (getCore s core).saved with
  | [] => s
  | sv :: rest =>
    if !restoreDue s core then s
    else match freeSlot s sv.ctx.tslot core, freeRun (getCore s core) sv.ctx.size with
      | some slot, some base =>
        if !chansFree (getCore s core) sv then s
        else match writeBackAll core (sv :: rest) s with
          | .error e => cannotSave s sv.ctx.tslot false e
          | .ok s =>
            match restoreCtx s sv.ctx.tslot core slot base sv with
            | .ok s => modCore s core fun k => { k with saved := k.saved.drop 1 }
            | .error e => cannotSave s sv.ctx.tslot false e
      | _, _ => s

/-- The contexts of a saved segment placed on the cores that take its positions, each after its core area. -/
def restoreCores (t : Nat) : List (SavedCtx × Nat × Nat) → List (Nat × Nat × Nat) → State → Except NoSave (List (Nat × Nat × Nat) × State)
  | [], done, s => .ok (done, s)
  | (sv, pos, core) :: rest, done, s =>
    match writeBackArea s t core sv with
    | .error e => .error e
    | .ok s =>
      match freeSlot s t core, freeRun (getCore s core) sv.ctx.size with
      | some slot, some base =>
        (match restoreCtx s t core slot base sv with
          | .ok s => restoreCores t rest (done ++ [(pos, core, slot)]) s
          | .error e => .error e)
      | _, _ => .error .wait

/-- Cores are free of every launch higher than a segment's (R290): of its contexts and waiting arrivals, and of the ROW node that waits at
the head of the ready queue. -/
def freeOfHigher (s : State) (t : Nat) (n : Option NodeRef) (cores : List Nat) : Bool :=
  !(cores.any fun c => higherRemains s c t n) &&
  (match readyHead (getTenant s t) (startCycle (getTenant s t) s.cycle) with
    | some r => r.g.kind != 0 || decide (r.launch.prio.toNat ≤ launchPrio s t n) || !((rowChoice s t r.g).any fun c => cores.contains c)
    | none => true)

/-- The segment that was saved last is placed on a segment of its size (R212, R290, R291, R320; log entry 22). -/
def restoreSegment (s : State) (t key : Nat) : State :=
  match (getTenant s t).savedSegs.getLast? with
  | none => s
  | some sv =>
    let g := sv.seg
    let cs := segCores key g.size
    let first := key * 4
    let at_ := cs.map (positionOf s first)
    let seq := seqAddr (getTenant s t) g
    if key % 4 * 4 % g.size != 0 || 512 ≤ key || !segFree s t key g.size g.allot || !freeOfHigher s t g.node cs ||
      !((sv.ctxs.zip cs).all fun (v, c) => chansFree (getCore s c) v) then s
    else match regionPages s t false seq 256 with
      | (.error e, s) => cannotSave s t false e
      | (.ok ps, s) =>
        let (ws, s) := getWords t ps seq 32 s
        match restoreCores t (sv.ctxs.zip (at_.zip cs)) [] s with
        | .error e => cannotSave s t false e
        | .ok (cores, s) =>
          let rep := ws.getD 1 0
          let ks := (List.range 15).foldl (fun m i => amSet m (i + 1) (ws.getD (i + 2) 0)) ([] : AMap Word)
          let g' : Seg :=
            { reposition g at_ (positionOf s first (first + g.size - 1) + 1) with
                     die := key / 256, row := key / 4 % 64, index := key % 4 * 4 / g.size, pc := ws.getD 0 0 &&& ~~~(3 : Word), k := ks,
                     phase := .running, walk := none, plan := none, probes := [], cores := cores,
                     repRun := if bit 63 rep then some (fld 16 16 rep, fld 0 16 rep) else none,
                     div := cs.foldl (fun m c => max m (getCore s c).div) 1 }
          let s := cores.foldl (fun s x => modCore s x.2.1 fun k =>
            { k with seg := segWord g'.index g.size, ribpos := ribWord g'.span x.1 }) (setSeg s key g')
          let s := modTenant s t fun x => { x with savedSegs := x.savedSegs.dropLast }
          match g.node with
          | none => s
          | some n => modNode s t n fun x => { x with segs := x.segs.map fun k => if k = 512 + sv.id then key else k }

/-- SAVED_CONTEXT_RESTORE (R290, R293, R320): core `unit` of tenant `slot`; with `flag`, the last saved segment on the segment of key
`idx`. -/
def execSavedContextRestore (s : State) : Result :=
  let t := s.arg.slot
  let core := s.arg.unit
  .next (if s.arg.flag then restoreSegment s t s.arg.idx
  else match giveBack s core with
    | .ok s => restoreFirst (unbench s t core) core
    | .error e => cannotSave s t false e)

end Sys2Proof.Machine
end

