-- ==== Sys2Proof/Machine/Links.lean ====
section
/-! DEFINITION. The host, the peers, the Trailhead ports, the debug freeze, and soft errors (R178, R214, R313 to R315, R354 to R367). -/

namespace Sys2Proof.Machine

/-! ## Host accesses (R356, R357) -/

/-- What a party outside asks for, as an operation at the home unit. -/
def peerReq (op : PeerOp) : ReqOp :=
  match op with
  | .read => .load 7 false
  | .write v => .store v
  | .atomic f b c => .amo f b c

/-- The operation at its home for a party outside, and its answer: the value, and whether its data is poisoned. -/
def outsideOp (s : State) (t : Nat) (l : Loc) (p : Page) (op : PeerOp) (n : Nat) (ext : Word) : Word × Bool × State :=
  let die := dieOfLoc l
  let (a, s) := performOp (touch s die l p (opAcc (peerReq op)) n) die t l (peerReq op) n ext p
  let v := match op with | .read => word (a.value.toNat % 2 ^ (8 * n)) | _ => a.value
  (v, a.poison, s)

/-- An access by a party outside may be performed at its home now. -/
def outsideMay (s : State) (l : Loc) (p : Page) (op : PeerOp) (n : Nat) : Bool := mayAccess s (dieOfLoc l) l p n none (op != .read)

/-- An access of 1, 2, 4 or 8 bytes at a multiple of its size. -/
def plainSize (a n : Nat) : Bool := (n == 1 || n == 2 || n == 4 || n == 8) && a % n == 0

/-- All ones of `n` bytes. -/
def onesOf (n : Nat) : Word := word (2 ^ (8 * min n 8) - 1)

/-- A host access that has no effect: a read is answered with all ones and an error, and a record tells why (R356; log entry 27). -/
def hostFault (s : State) (t n : Nat) (va : Word) (write : Bool) (c : Cause) (stage2 : Bool) : State :=
  let s := (report s (if stage2 then .hyp else .tenant t)
    { kind := .remote, cause := c, stage2 := stage2, wr := write, addr := va, vmid := some (getTenant s t).vmid }).2
  { s with out := s.out ++ [.host (onesOf n) true] }

/-- An access of 1 to 8 bytes by lines: one piece, or two where it crosses into the next line (log entry 29). -/
def hostPieces (va : Word) (n : Nat) : List (Word × Nat) :=
  let k := 64 - fld 0 6 va
  if n ≤ k then [(va, n)] else [(va, k), (va + word k, n - k)]

/-- The pages of an access, piece by piece, or why the first of them that cannot be used cannot. -/
def hostPages (t : Nat) (write : Bool) : List (Word × Nat) → State → Except (Cause × Bool) (List Page) × State
  | [], s => (.ok [], s)
  | (a, _) :: rest, s =>
    match translate s t a with
    | (.error .stage1, s) => (.error (.pfault, false), s)
    | (.error (.stage2 _), s) => (.error (.pfault, true), s)
    | (.ok p, s) =>
      if !(if write then p.wr else p.rd) then (.error (.prot, false), s)
      else if unplacedHere s (homePlace s p a write) then (.error (.pfault, true), s)
      else match hostPages t write rest s with
        | (.ok ps, s) => (.ok (p :: ps), s)
        | (.error e, s) => (.error e, s)

/-- The part of an operation that falls on a piece `k` bytes on. -/
def pieceOp (op : PeerOp) (k : Nat) : PeerOp :=
  match op with
  | .write v => .write (v >>> (8 * k))
  | x => x

/-- The place of a piece at its home. -/
def pieceLoc (s : State) (op : PeerOp) (x : (Word × Nat) × Page) : Loc := homePlace s x.2 x.1.1 (op != .read)

/-- The pieces performed at their homes in ascending order: the value read, and whether any of it is poisoned. -/
def hostPerform (t : Nat) (op : PeerOp) (ext : Word) : List ((Word × Nat) × Page) → Nat → State → Word × Bool × State
  | [], _, s => (0, false, s)
  | ((a, n), p) :: rest, k, s =>
    let (v, bad, s) := outsideOp s t (pieceLoc s op ((a, n), p)) p (pieceOp op k) n (ext >>> (8 * k))
    let (u, worse, s) := hostPerform t op ext rest (k + n) s
    (v ||| (u <<< (8 * n)), bad || worse, s)

/-- The host's accesses before this one that still wait: a release waits for all of them, and every access for an acquire (R357). -/
def hostOrder (s : State) (w : RemoteWait) : Bool := s.remoteWaits.any fun x => x.host && decide (x.id < w.id) && (w.rel || x.acq)

/-- The access waits at the host port or at its home unit. -/
def keepWait (s : State) (w : RemoteWait) : State := { s with remoteWaits := s.remoteWaits ++ [w] }

/-- A host access that meets a failed device: a read is answered with an error, a write is dropped (R359; log entry 57). -/
def hostDown (s : State) (t : Nat) (w : RemoteWait) (l : Loc) : State :=
  if w.op = .read then { s with out := s.out ++ [.host (onesOf w.size) true] }
  else { dropStore s t noContext w.id (word w.off) l with out := s.out ++ [.host 0 false] }

/-- A host access through the memory aperture (R356). -/
def serveMemory (s : State) (w : RemoteWait) (ext : Word) : State :=
  match slotOfVmid s w.vmid with
  | none => hostFault s 0 w.size (word w.off) (w.op != .read) .prot false
  | some t =>
    let pieces := hostPieces (word w.off) w.size
    match hostPages t (w.op != .read) pieces s with
    | (.error (c, stage2), s) => hostFault s t w.size (word w.off) (w.op != .read) c stage2
    | (.ok ps, s) =>
      let parts := pieces.zip ps
      match parts.find? fun x => linkDown s (pieceLoc s w.op x) with
      | some x => hostDown s t w (pieceLoc s w.op x)
      | none =>
        if !parts.all (fun x => outsideMay s (pieceLoc s w.op x) x.2 w.op x.1.2) then keepWait s w
        else
          let (v, bad, s) := hostPerform t w.op ext parts 0 s
          { s with out := s.out ++ [.host v bad] }

/-- A host access through the register aperture (R337, R356). -/
def serveRegister (s : State) (w : RemoteWait) : State :=
  match w.op with
  | .read => { s with out := s.out ++ [.host (word (leNat (regBytes s w.off w.size))) false] }
  | .write v => { regStoreBytes s w.off (leBytes w.size v.toNat) with out := s.out ++ [.host 0 false] }
  | .atomic .. => { s with out := s.out ++ [.host (onesOf w.size) true] }

/-- A host access, once what comes before it is performed. -/
def serveHost (s : State) (w : RemoteWait) (ext : Word) : State :=
  let s := { s with remoteWaits := s.remoteWaits.filter fun x => x.id != w.id }
  if hostOrder s w then keepWait s w else if w.reg then serveRegister s w else serveMemory s w ext

/-- HOST_MEMORY_ACCESS (R356, R357): `id` names a host access that waits, to be tried again; any other is new, with `slot` bits 53:48 of the
offset in the memory aperture, `v` its lower 48 bits, `num` the size, `op` what is asked, and `rel` and `acq` the link's attributes; with
`flag` it is an access of the register aperture at offset `v`. `v2` is what a place outside the package answers. -/
def execHostMemoryAccess (s : State) : Result :=
  let a := s.arg
  let n := a.num
  let atomic := match a.op with | .atomic .. => true | _ => false
  if !s.hostUp then .next { s with out := s.out ++ [.host (onesOf n) true] }
  else match s.remoteWaits.find? fun w => w.host && w.id == a.id with
    | some w => .next (serveHost s w a.v2)
    | none =>
      if n = 0 || 8 < n || ((atomic || a.flag) && !plainSize a.v.toNat n) || (a.flag && 2 ^ 22 ≤ a.v.toNat) then .next s
      else if !a.flag && !(getTenant s a.slot).en then .next (hostFault s a.slot n (sext48 a.v) (a.op != .read) .prot false)
      else
        let (i, s) := takeId s
        .next (serveHost s { id := i, token := none, vmid := (getTenant s a.slot).vmid, op := a.op,
                             off := if a.flag then a.v.toNat else (sext48 a.v).toNat, size := n, host := true, reg := a.flag, rel := a.rel,
                             acq := a.acq } a.v2)

/-- HOST_LINK_RETRAIN (R358): the host link is in use again. -/
def execHostLinkRetrain (s : State) : Result := .next { s with hostUp := true }

/-! ## Requests from peers (R354, R355) -/

/-- The page through which a peer's request reaches a frame. -/
def peerPage (vmid : BitVec 16) (r : S2) (off : Nat) : Page :=
  { vmid := vmid, va := word off, size := 64, out := r.loc, gpa := off, rd := !r.nr, wr := !r.nr && !r.ro, ex := false, home := .uncached,
    trail := none, key := r.key }

/-- A peer's request fails stage 2: a record of KIND 8 waits for RESOLVE, and the requester with it. -/
def peerFault (s : State) (w : RemoteWait) : State :=
  let (tok, s) := report s .hyp { kind := .remote, cause := .pfault, stage2 := true, wr := w.op != .read, addr := word w.off,
                                  vmid := some w.vmid, waiter := some (.remote w.id) }
  { s with remoteWaits := s.remoteWaits.filter (fun x => x.id != w.id) ++ [{ w with token := tok }] }

/-- A peer's request under stage 2 of its VMID's slot: answered, or waiting. -/
def servePeer (s : State) (w : RemoteWait) : State :=
  match slotOfVmid s w.vmid with
  | none => peerFault s w
  | some t =>
    match stage2 s (getTenant s t) w.off with
    | .error _ => peerFault s w
    | .ok r =>
      if r.nr || (w.op != .read && r.ro) then peerFault s w
      else
        let p := peerPage w.vmid r w.off
        if !outsideMay s r.loc p w.op w.size then { s with remoteWaits := s.remoteWaits.filter (fun x => x.id != w.id) ++ [{ w with token := none }] }
        else
          let (v, bad, s) := outsideOp { s with remoteWaits := s.remoteWaits.filter fun x => x.id != w.id } t r.loc p w.op w.size 0
          { s with out := s.out ++ [.peer v bad] }

/-- REMOTE_REQUEST (R354): `id` names a request that waits here, to be tried again after its RESOLVE; any other is new, with `v2` the VMID,
`num` the offset, `num2` the size and `op` what is asked. -/
def execRemoteRequest (s : State) : Result :=
  if !s.domEn then .next s
  else match s.remoteWaits.find? fun w => !w.host && w.id == s.arg.id with
    | some w => .next (if w.token.isSome then s else servePeer s w)
    | none =>
      if !plainSize s.arg.num s.arg.num2 || 2 ^ 40 ≤ s.arg.num then .next s
      else
        let (i, s) := takeId s
        .next (servePeer s { id := i, token := none, vmid := s.arg.v2.setWidth 16, op := s.arg.op, off := s.arg.num, size := s.arg.num2 })

/-! ## Failure and restoring (R358 to R360) -/

/-- A place on a device, or on the host as device 64. -/
def Loc.onDevice (l : Loc) (n : Nat) : Bool :=
  match l with
  | .remote d _ => d == n
  | .host _ => n == 64
  | _ => false

/-- A cached stage-1 result maps to a device (R354). -/
def S1.onDevice (x : S1) (n : Nat) : Bool :=
  fld 52 2 x.leaf.entry != 2 && (match outside (fld 14 34 x.leaf.entry * 16384) with | some l => l.onDevice n | none => false)

/-- Cached translations that map to a failed device are dropped (R359). -/
def dropPagesOf (s : State) (n : Nat) : State :=
  { s with s1cache := s.s1cache.filter fun x => !x.onDevice n,
           cores := s.cores.map fun e => (e.1, { e.2 with pcc := e.2.pcc.filter fun p => !p.out.onDevice n }) }

/-- The buffered stores of a core to a device are dropped (R359). -/
def dropBuffered (s : State) (core n : Nat) : State :=
  let gone := fun (e : SbEntry) => e.loc.onDevice n && (match e.op with | .store _ => true | _ => false)
  let lost := (getCore s core).sbuf.filter gone
  let s := modCore s core fun k => { k with sbuf := k.sbuf.filter fun e => !gone e }
  rewake (lost.foldl (fun s e => dropStore s ((slotOfVmid s e.page.vmid).getD 0) e.ctx e.id e.va e.loc) s) core

/-- What is outstanding to a device that fails, or that is still out of use when it is restored, completes as R359's table says: an access
made before RESTORE never reaches it (R360). -/
def failOutstanding (s : State) (n : Nat) : State :=
  let s := (s.reqs.filter fun r => r.loc.onDevice n && !r.done).foldl failReq s
  s.cores.foldl (fun s e => if e.2.sbuf.any fun x => x.loc.onDevice n then dropBuffered s e.1 n else s) s

/-- The host's link fails: its waiting accesses are gone, and those to it complete as R359's table says. -/
def failHost (s : State) : State :=
  failOutstanding (dropPagesOf { s with hostUp := false, hostEpoch := s.hostEpoch + 1, remoteWaits := s.remoteWaits.filter fun w => !w.host } 64) 64

/-- A device fails. -/
def failPeer (s : State) (n : Nat) : State :=
  let p := amGetD ({} : Peer) s.peers n
  failOutstanding (dropPagesOf { s with peers := amSet s.peers n { p with up := false, epoch := p.epoch + 1 } } n) n

/-- Every port that leads to a device has lost its link for 10 µs. -/
def portsLost (s : State) (n : Nat) : Bool :=
  let ports := (amGetD ({} : Peer) s.peers n).ports
  (List.range 16).all fun i => !ports.getLsbD i ||
    (!s.linkUp.getLsbD i && decide (amGetD 0 s.linkLost i + 10000 ≤ s.time.toNat))

/-- LINK_FAILURE (R359): device `unit`, 64 for the host. With `flag` the partner reports it; else every port must have lost its link. -/
def execLinkFailure (s : State) : Result :=
  let n := s.arg.unit
  if n = 64 then .next (if s.hostUp then failHost s else s)
  else .next (if (amGetD ({} : Peer) s.peers n).up && (s.arg.flag || portsLost s n) then failPeer s n else s)

/-- PEER_RESTORE (R358, R360): the word `v` written to PEER of device `unit`; RESTORE takes effect once its ports are trained. -/
def execPeerRestore (s : State) : Result :=
  let n := s.arg.unit
  let p := { amGetD ({} : Peer) s.peers n with ports := s.arg.v.setWidth 16 }
  let ok := bit 62 s.arg.v && p.ports != 0 && p.ports &&& ~~~s.linkUp == 0 && decide (n < 64)
  let s := if ok && !p.up then failOutstanding s n else s
  let s := { s with peers := amSet s.peers n { p with up := p.up || ok } }
  .next (if ok then { s with dropped := s.dropped.map fun d => if d.line.onDevice n then { d with old := true } else d } else s)

/-- PEER_PORT_LINK_CHANGE (R359, R360): port `unit` loses its link, or with `flag` has finished training. -/
def execPeerPortLinkChange (s : State) : Result :=
  let i := s.arg.unit
  .next (if s.arg.flag then { s with linkUp := putBit s.linkUp i true, linkLost := amErase s.linkLost i }
  else if s.linkUp.getLsbD i then { s with linkUp := putBit s.linkUp i false, linkLost := amSet s.linkLost i s.time.toNat }
  else s)

/-! ## Trailhead (R362 to R366) -/

def portAt (s : State) (p : Nat) : Port := if p = 0 then s.trail0 else s.trail1

/-- The match window of a frame (R364). -/
def window (bs : List Byte) (off : Nat) : Word := word (leNat ((bs.drop off).take 8))

/-- The lowest-numbered active flow that a frame belongs to (R364). -/
def classify (q : Port) (bs : List Byte) : Option Nat :=
  (q.flows.find? fun e => e.2.en && decide (1 ≤ e.1) && (window bs e.2.off.toNat &&& e.2.mask) == e.2.value).map (·.1)

def modFlow (q : Port) (i : Nat) (f : Flow → Flow) : Port := { q with flows := amSet q.flows i (f (amGetD {} q.flows i)) }

/-- Bytes in the staging buffer. -/
def staged (q : Port) : Nat := q.staging.foldl (fun n f => n + f.bytes.length) 0

/-- A frame at a port (R362 to R366): bytes without the FCS. -/
def takeFrame (q : Port) (bs : List Byte) (good : Bool) (stamp : Word) : Port :=
  if !q.en then q
  else if !good || q.maxlen.toNat < bs.length || bs.length < 60 then { q with bad := q.bad + 1 }
  else match classify q bs with
    | none => { q with noMatch := q.noMatch + 1 }
    | some i =>
      let f := amGetD ({} : Flow) q.flows i
      if 2 ^ 20 < staged q + bs.length then modFlow q i fun f => { f with drop := f.drop + 1 }
      else
        let q := { q with staging := q.staging ++ [{ flow := i, t := f.seq, stamp := stamp, drop := f.drop, bytes := bs }] }
        modFlow q i fun f => { f with seq := f.seq + 1 }

/-- FRAME_ARRIVE (R362): port `unit`; `bytes` is the frame without its FCS, `flag` a good FCS, `num` the ns since its start-frame delimiter.
A frozen package drops it and counts it (R367). -/
def execFrameArrive (s : State) : Result :=
  .next (if 2 ≤ s.arg.unit then s else modPort s s.arg.unit fun q =>
    if s.frozen then { q with bad := q.bad + 1 } else takeFrame q s.arg.bytes s.arg.flag (s.time - word s.arg.num))

/-- The first frame of a flow leaves the staging buffer. -/
def popFrame (q : Port) (i : Nat) : Port :=
  match q.staging.find? fun f => f.flow == i with
  | some f => { q with staging := q.staging.erase f }
  | none => q

/-- Bytes *S* of a slot (R365). -/
def slotBytes (q : Port) : Nat := 64 + (q.maxlen.toNat + 63) / 64 * 64

/-- The bytes of a slot: its header and the frame (R365). -/
def slotContent (p : Nat) (f : Frame) : List Byte :=
  leBytes 8 f.stamp.toNat ++ leBytes 8 (f.bytes.length * 2 ^ 48 + p % 2 * 2 ^ 40 + f.t.toNat % 2 ^ 32) ++ leBytes 8 f.drop.toNat ++
  List.replicate 40 0 ++ f.bytes

/-- The flow waits on a record (R366). -/
def frameFault (s : State) (p i t : Nat) (e : WalkFault) (a : Word) : State :=
  let r : Report := { kind := .streamUnit, cause := .pfault, wr := true, addr := a, vmid := some (getTenant s t).vmid, waiter := some (.trailhead p i) }
  let (tok, s) := match e with
    | .stage1 => report s (.tenant t) r
    | .stage2 g => report s .hyp { r with stage2 := true, addr := word g }
  modPort s p fun q =>
    match q.staging.find? fun f => f.flow == i with
    | some f => { q with staging := q.staging.map fun x => if x = f then { x with token := tok } else x }
    | none => q

/-- A frame whose pages lack the rights of a stream or buffer is dropped, with a record (log entry 28). -/
def frameRefused (s : State) (p i t : Nat) (a : Word) : State :=
  let s := (report s (.tenant t) { kind := .streamUnit, cause := .prot, wr := true, addr := a }).2
  modPort s p fun q => modFlow (popFrame q i) i fun f => { f with drop := f.drop + 1 }

/-- The arrival of a frame (R365 step 4). -/
def frameCont (t : Nat) (f : Flow) (fr : Frame) (slot : Word) (w1 : Word) : Cont :=
  let head := (1 <<< 58 : Word) ||| word (f.alloc.toNat * 2 ^ 53 + f.prio.toNat * 2 ^ 48) ||| (f.entry.extractLsb' 0 48).setWidth 64
  { words := [head, slot, fr.stamp, w1] ++ (List.range 4).map (fun i => window fr.bytes (8 * i)), vmid := f.vmid, tslot := t, node := none,
    dclass := 0, tvec := none, tcause := 0 }

/-- The arrival goes to the home core of STREAM (R178, R365). -/
def frameArrival (s : State) (p i t : Nat) (f : Flow) (fr : Frame) (page : Page) (slot w1 : Word) : State :=
  if f.entry = 0 then s
  else
    match homeCoreOf page (dieOfPage page f.stream) f.stream with
    | none => s
    | some core =>
      let (id, s) := takeId s
      let fl : Flight := { id := id, core := core, cont := frameCont t f fr slot w1, sender := .flow p i, isGo := false, addr := f.stream }
      { s with flights := s.flights ++ [fl] }

/-- The lines of a frame's slot, each with its page and its place. -/
def slotLines (s : State) (v : BitVec 16) (ps : List Page) (va : Word) (n : Nat) : List (Word × Page × Loc) :=
  (rangeLines va n).map fun a => let p := pageIn ps v a; (a, p, homePlace s p a true)

/-- The bytes of a frame's slot written line by line, on pages that have been checked, for its tenant (R359, R365). -/
def putBytes (t : Nat) (v : BitVec 16) (ps : List Page) (va : Word) (bs : List Byte) (s : State) : State :=
  (slotLines s v ps va bs.length).foldl (fun s (a, p, l) =>
    engineWrite s (dieOfLoc l) t noContext 0 p a ((bs.drop (a.toNat - va.toNat)).take 64) false) s

/-- A push waits at the unit of a stream, so that one that comes later is served after it (R245). -/
def pushWaits (s : State) (l : Loc) : Bool := s.ports.any fun o => o.push && o.arrived.isSome && !o.answered && o.page.loc o.desc == l

/-- The first frame of a flow is delivered if its stream has room (R365). -/
def deliverFrame (s : State) (p i : Nat) (fr : Frame) : State :=
  let q := portAt s p
  let f := amGetD ({} : Flow) q.flows i
  match slotOfVmid s f.vmid with
  | none => modPort s p fun q => modFlow (popFrame q i) i fun f => { f with drop := f.drop + 1 }
  | some t =>
    match translate s t f.stream with
    | (.error e, s) => frameFault s p i t e f.stream
    | (.ok page, s) =>
      if !elemOk page || fld 0 6 f.stream != 0 then frameRefused s p i t f.stream
      else
        let d := readDesc s page f.stream
        let at_ := page.loc f.stream
        if !mayAccess s (dieOfLoc at_) at_ page 192 none true || pushWaits s at_ || d.n ≤ (d.tail - d.head).toNat then s
        else
          let slot := f.buf + word (slotBytes q * (fr.t.toNat % (2 * d.n)))
          let bs := slotContent p fr
          match walkPieces t true (rangePieces slot bs.length) [] s with
          | (.error (a, some e), s) => frameFault s p i t e a
          | (.error (a, none), s) => frameRefused s p i t a
          | (.ok ps, s) =>
            let el := d.elem d.tail
            match translate s t el with
            | (.error e, s) => frameFault s p i t e el
            | (.ok ep, s) =>
              if !elemOk ep then frameRefused s p i t el
              else if !(slotLines s f.vmid ps slot bs.length).all (fun (_, p, l) => mayAccess s (dieOfLoc l) l p 64 none true) ||
                !mayAccess s (dieOfLoc (ep.loc el)) (ep.loc el) ep 8 none true then s
              else
                let s := putBytes t f.vmid ps slot bs s
                let s := touch s (dieOfLoc at_) at_ page .write 64
                let s := writeHome (touch s (dieOfLoc (ep.loc el)) (ep.loc el) ep .write 8) (ep.loc el) (leBytes 8 slot.toNat) ep
                let s := writeHome (unpoison s (ep.loc el) 8) (page.loc (f.stream + 0x80)) (leBytes 8 (d.tail + 1).toNat) page
                let w1 := word (leNat ((bs.drop 8).take 8))
                frameArrival (modPort s p fun q => popFrame q i) p i t f fr page slot w1

/-- TRAILHEAD_FRAME_DELIVER (R365, R366): flow `idx` of port `unit`. -/
def execTrailheadFrameDeliver (s : State) : Result :=
  let p := s.arg.unit
  match (portAt s p).staging.find? fun f => f.flow == s.arg.idx with
  | none => .next s
  | some fr => .next (if fr.token.isSome then s else deliverFrame s p s.arg.idx fr)

/-- FLOW_ENABLE (R363): the word `v` written to word 0 of flow `idx` of port `unit`. -/
def execFlowEnable (s : State) : Result :=
  .next (if s.arg.unit < 2 && 1 ≤ s.arg.idx && s.arg.idx ≤ 255 then writeFlow0 s s.arg.unit s.arg.idx s.arg.v else s)

/-! ## Debug freeze (R367) -/

/-- DEBUG_FREEZE (R367). -/
def execDebugFreeze (s : State) : Result := .next { s with frozen := true }

/-- DEBUG_THAW (R367). -/
def execDebugThaw (s : State) : Result := .next { s with frozen := false }

/-- A word of a list of words, and the list with the word replaced. -/
def setWord (ws : List Word) (i : Nat) (v : Word) : List Word := ws.set i v

/-- The words of a vector-queue entry, and the entry with word `i` replaced (log entry 65). -/
def vqWords (x : VCmd) : List Word := [word x.ctx, word x.d, word x.a, word x.b, word x.len, word x.step]
def vqPut (x : VCmd) (i : Nat) (v : Word) : VCmd :=
  match i with
  | 1 => { x with d := v.toNat }
  | 2 => { x with a := v.toNat }
  | 3 => { x with b := v.toNat }
  | 4 => { x with len := v.toNat }
  | 5 => { x with step := v.toNat }
  | _ => x

/-- The words of a store-buffer entry: address and value (log entry 65). -/
def sbWords (x : SbEntry) : List Word := [x.va, match x.op with | .store v => v | .claim i => word i]
def sbPut (x : SbEntry) (i : Nat) (v : Word) : SbEntry := match x.op with | .store _ => if i = 1 then { x with op := .store v } else x | _ => x

/-- The words of a busy copy channel (log entry 65). -/
def chWords (k : Core) (ch : Nat) (x : Chan) : List Word :=
  [word (amGetD 0 k.cwp ch), x.desc, word x.landed, word x.retired, x.src, x.dst, word x.len, word x.done]
def chPut (x : Chan) (i : Nat) (v : Word) : Chan :=
  match i with
  | 1 => { x with desc := v }
  | 2 => { x with landed := v.toNat }
  | 3 => { x with retired := v.toNat }
  | 4 => { x with src := v }
  | 5 => { x with dst := v }
  | 6 => { x with len := v.toNat }
  | 7 => { x with done := v.toNat }
  | _ => x

/-- The words of an accepted launch: its number, its LAUNCH word, its argument address, and whether it has failed (log entry 65). -/
def launchWords (l : Launch) : List Word := [l.number, word (l.handle * 2 ^ 54 + l.queue * 2 ^ 48), l.args, ofFlag l.failed]
def launchPut (l : Launch) (i : Nat) (v : Word) : Launch :=
  match i with
  | 0 => { l with number := v }
  | 2 => { l with args := v }
  | 3 => { l with failed := bit 0 v }
  | _ => l

/-- The columns of a row that are quarantined, and those that wait for the remap (R314, R315). -/
def quarantineWord (r : Row) : Word :=
  r.quarantined.foldl (fun v x => v ||| word (2 ^ x)) 0 ||| r.pending.foldl (fun v x => v ||| word (2 ^ (x + 32))) 0

/-- A word of a link page as the debug window writes it: read-only fields too (R358, R367). -/
def putLink (s : State) (off : Nat) (v : Word) : State :=
  if off = 0 then { s with domEn := bit 63 v, dev := v.setWidth 6 }
  else if off = 8 then { s with hostUp := bit 63 v, hostEpoch := v.setWidth 32 }
  else if 0x100 ≤ off && off < 0x300 then
    { s with peers := amSet s.peers ((off - 0x100) / 8) { up := bit 63 v, epoch := v.extractLsb' 32 16, ports := v.setWidth 16 } }
  else s

/-- A word of a Trailhead page as the debug window writes it (R363, R367). -/
def putTrailhead (s : State) (p off : Nat) (v : Word) : State :=
  modPort s p fun q =>
    if off = 0 then { q with en := bit 63 v, maxlen := v.setWidth 14 }
    else if off = 8 then { q with bad := v.extractLsb' 32 32, noMatch := v.setWidth 32 }
    else if off < 64 then q
    else modFlow q (off / 64) fun f => match off % 64 / 8 with
      | 0 => { f with en := bit 63 v, prio := v.extractLsb' 48 5, vmid := v.extractLsb' 32 16, alloc := v.extractLsb' 24 4, off := v.setWidth 6 }
      | 1 => { f with value := v }
      | 2 => { f with mask := v }
      | 3 => { f with stream := v }
      | 4 => { f with buf := v }
      | 5 => { f with entry := v }
      | 6 => { f with drop := v.extractLsb' 32 32, noarr := v.setWidth 32 }
      | _ => { f with seq := v }

/-- Entry `i` of a list changed. -/
def modAt {α : Type} (l : List α) (i : Nat) (f : α → α) : List α := l.mapIdx fun j x => if j = i then f x else x

/-- A piece of state as the debug window reads it. -/
def debugRead (s : State) (d : DbgSite) : Word :=
  let ctx := fun (core slot : Nat) (f : Ctx → Word) => match getCtx s (ctxId core slot) with | some c => f c | none => 0
  let at_ := fun (ws : Option (List Word)) (w : Nat) => (ws.getD []).getD w 0
  match d with
  | .reg core slot r => readReg s (ctxId core slot) r
  | .pc core slot => ctx core slot (·.pc)
  | .csr core slot n => ctx core slot fun c => (csrValue s (ctxId core slot) c n.toNat).getD 0
  | .scratch core a => (memGet (getCore s core).sp a).setWidth 64
  | .cell core bank row col => (amGetD 0 (bankOf (getCore s core) (bank != 0)) (row * 32 + col)).setWidth 64
  | .latch core row byte => match (getCore s core).latch[row]? with | some r => (r.bytes.getD byte 0).setWidth 64 | none => 0
  | .kreg g k => match getSeg s g with | some x => kreg x k | none => 0
  | .mem pa => (memGet s.mem pa).setWidth 64
  | .register off | .link off => readRegister s off
  | .full core slot r => ctx core slot fun c => ofFlag (regEntry (getCore s core) c r).full
  | .smap core slot => ctx core slot fun c => c.smap.setWidth 64
  | .grp core slot => ctx core slot fun c => match c.grp with | some h => (1 <<< 63 : Word) ||| h.setWidth 64 | none => 0
  | .batch core slot => ctx core slot fun c => word (c.completed.toNat * 2 ^ 32 + c.committed.toNat)
  | .mqueue core i w => at_ (((getCore s core).mq[i]?).map queueWords) w
  | .vqueue core i w => at_ (((getCore s core).vq[i]?).map vqWords) w
  | .arrival core i w => at_ (((getCore s core).arrivals[i]?).map (·.words)) w
  | .stores core i w => at_ (((getCore s core).sbuf[i]?).map sbWords) w
  | .channel core ch w => at_ ((amGet (getCore s core).chans ch).map (chWords (getCore s core) ch)) w
  | .launch t i w => at_ (((getTenant s t).launches[i]?).map launchWords) w
  | .sequencer g w => at_ ((getSeg s g).map seqWords) w
  | .quarantine r => quarantineWord (getRow s r)

/-- A piece of state as the debug window writes it. -/
def debugWrite (s : State) (d : DbgSite) (v : Word) : State :=
  match d with
  | .reg core slot r => match getCtx s (ctxId core slot) with
    | some c => putReg s (ctxId core slot) r { regEntry (getCore s core) c r with val := v, poison := false }
    | none => s
  | .pc core slot => modCtx s (ctxId core slot) fun c => { c with pc := v &&& ~~~(3 : Word) }
  | .csr core slot n => modCtx s (ctxId core slot) fun c =>
    if n = 0x010 then { c with fflags := v.setWidth 5 } else csrPut n.toNat (v &&& ~~~((csrReserved n.toNat).getD 0)) c
  | .scratch core a => if a < 98304 then modCore s core fun k => spWrite k a [v.setWidth 8] else s
  | .cell core bank row col =>
    if row < 32 && col < 32 then modCore s core fun k =>
      let m := bankOf k (bank != 0)
      setBank k (bank != 0) (packBank fun i => if i = row * 32 + col then v.setWidth 32 else amGetD 0 m i)
    else s
  | .latch core row byte => modCore s core fun k => { k with latch := modAt k.latch row fun r => { r with bytes := r.bytes.set byte (v.setWidth 8) } }
  | .kreg g k => modSeg s g fun x => putK x k v
  | .mem pa => if pa < 2 ^ 39 then { s with mem := memSet s.mem pa (v.setWidth 8) } else s
  | .register off => writeRegister s off v
  | .link off =>
    if off % 8 != 0 then s
    else if 0x380000 ≤ off && off < 0x384000 then putLink s (off - 0x380000) v
    else if 0x384000 ≤ off && off < 0x388000 then putTrailhead s 0 (off - 0x384000) v
    else if 0x388000 ≤ off && off < 0x38C000 then putTrailhead s 1 (off - 0x388000) v
    else s
  | .full core slot r => setFull s (ctxId core slot) r (bit 0 v)
  | .smap core slot => modCtx s (ctxId core slot) fun c => { c with smap := v.setWidth 32 }
  | .grp core slot => modCtx s (ctxId core slot) fun c => { c with grp := if bit 63 v then some (v.setWidth 16) else none }
  | .batch core slot => modCtx s (ctxId core slot) fun c => { c with completed := v.extractLsb' 32 32, committed := v.setWidth 32 }
  | .mqueue core i w => modCore s core fun k => { k with mq := modAt k.mq i fun m =>
      let ws := setWord (queueWords m) w v
      let x := cmdOf (fun j => ws.getD j 0) (fld 47 17 (ws.getD 0 0)) m
      if m.state = .running then { x with state := .running } else x }
  | .vqueue core i w => modCore s core fun k => { k with vq := modAt k.vq i fun x => vqPut x w v }
  | .arrival core i w => modCore s core fun k => { k with arrivals := modAt k.arrivals i fun c => { c with words := setWord c.words w v } }
  | .stores core i w => modCore s core fun k => { k with sbuf := modAt k.sbuf i fun x => sbPut x w v }
  | .channel core ch w => modCore s core fun k => match amGet k.chans ch with
    | some x => if w = 0 then { k with cwp := amSet k.cwp ch v.toNat } else { k with chans := amSet k.chans ch (chPut x w v) }
    | none => k
  | .launch t i w => modTenant s t fun x => { x with launches := modAt x.launches i fun l => launchPut l w v }
  | .sequencer g w => modSeg s g fun x =>
    if w = 0 then { x with pc := v &&& ~~~(3 : Word) }
    else if w = 1 then { x with repRun := if bit 63 v then some (fld 16 16 v, fld 0 16 v) else none }
    else if 2 ≤ w && w < 17 then { x with k := amSet x.k (w - 1) v }
    else x
  | .quarantine r => modRow s r fun x =>
    { x with quarantined := (List.range 17).filter (fun i => bit i v), pending := (List.range 17).filter fun i => bit (i + 32) v }

/-- DEBUG_WINDOW_ACCESS (R367): while the package is frozen, the piece `dbg` is read, or with `flag` written with `v`. -/
def execDebugWindowAccess (s : State) : Result :=
  .next (if !s.frozen then s
  else if s.arg.flag then debugWrite s s.arg.dbg s.arg.v
  else { s with out := s.out ++ [.debug (debugRead s s.arg.dbg)] })

/-! ## Soft errors (R214, R313 to R315) -/

/-- An error in the other logic of a core: its segment aborts at the word that the core would execute next, or it stops (R214, R298, R314). -/
def coreError (s : State) (core : Nat) : State :=
  match s.segs.find? fun e => e.2.cores.any fun x => x.2.1 == core with
  | some (key, g) =>
    let s := modCore s core fun k => { k with dead := true }
    (match g.cores.find? fun x => x.2.1 == core with
      | some (pos, _, slot) => abortSeg s key pos (ctxId core slot) .poison 0 (coreNext s g pos (ctxId core slot)).1
      | none => s)
  | none => killCore s core

/-- UNCORRECTABLE_ERROR (R313, R314): `err` says where, and for a line of memory `num` how many of its 4-byte words it takes from there on, 0
for the whole line. -/
def execUncorrectableError (s : State) : Result :=
  .next (match s.arg.err with
  | .reg core slot r => (match getCtx s (ctxId core slot) with
    | some c => putReg s (ctxId core slot) r { regEntry (getCore s core) c r with poison := true }
    | none => s)
  | .granule core a => modCore s core fun k => { k with spPoison := addAll k.spPoison [a / 4] }
  | .line pa =>
    let gs := if s.arg.num = 0 then granules (pa / 64 * 64) 64 else (List.range (min s.arg.num (16 - pa % 64 / 4))).map (pa / 4 + ·)
    { s with poisoned := addAll s.poisoned gs }
  | .logic core => coreError s core)

/-- CORRECTED_ERROR (R313, R331): counted, and the count goes out with telemetry (log entry 57). -/
def execCorrectedError (s : State) : Result :=
  .next { s with corrected := s.corrected + 1, out := s.out ++ [.corrected (s.corrected + 1)] }

/-- The remap point of a row (R315): no stream is active on it, and nothing is on its cores from a quarantined column eastward. -/
def remapPoint (s : State) (r : Nat) : Bool :=
  let x := getRow s r
  (rowSegs s r).isEmpty && x.pending.all fun p => (List.range 16).all fun i =>
    match x.physical i with
    | some q => decide (q < p) || (let k := getCore s (r * 16 + i); k.ctxs.isEmpty && k.arrivals.isEmpty && k.mq.isEmpty && k.chans.isEmpty)
    | none => true

/-- What a logical column keeps when another physical core takes it: its window, its ring descriptor and what waits for it (R315). -/
def takeColumn (old phys : Core) (zero : Bool) : Core :=
  let lo := 0x18000 - old.win
  let below := phys.sp.filter fun c => c.1 < lo
  { phys with
    sp := if zero then below else below ++ old.sp.filter fun c => lo ≤ c.1
    spPoison := (phys.spPoison.filter fun g => g * 4 < lo) ++ (if zero then [] else old.spPoison.filter fun g => lo ≤ g * 4)
    win := old.win, winSet := old.winSet, ring := old.ring, saved := old.saved, areaUsed := old.areaUsed, kept := old.kept, dead := false }

/-- One quarantined physical column is taken out of the map (R315). -/
def remapColumn (s : State) (r p : Nat) : State :=
  let x := getRow s r
  match (List.range 16).find? fun i => x.physical i == some p with
  | none => s
  | some q =>
    let olds := (List.range 17).map fun i => if i < 16 then getCore s (r * 16 + i) else ({} : Core)
    let s := (List.range 16).foldl (fun s i =>
      if i < q then s else setCore s (r * 16 + i) (takeColumn (olds.getD i {}) (olds.getD (i + 1) {}) (i == q))) s
    modRow s r fun x => { x with quarantined := x.quarantined ++ [p], pending := x.pending.filter (· != p) }

/-- The new map of a row. -/
def remapRow (s : State) (r : Nat) : State := (getRow s r).pending.foldl (fun s p => remapColumn s r p) s

/-- ROW_REMAP (R315): row `unit`, at its remap point. The owner's translations are first dropped as by `tlbi.vmid`, which is over once nothing
uses them, and dropped again with the new map. -/
def execRowRemap (s : State) : Result :=
  let r := s.arg.unit
  if (getRow s r).pending.isEmpty || !remapPoint s r then .next s
  else match rowOwner s r with
    | none => .next (remapRow s r)
    | some t =>
      match s.tlbis.find? fun x => x.op == 6 && x.addr == word r with
      | none =>
        let (i, s) := takeId s
        let x : Tlbi := { id := i, op := 6, vmid := (getTenant s t).vmid, addr := word r, ctx := none, upto := s.nextId, sent := false }
        .next (tlbiStep { s with tlbis := s.tlbis ++ [x] } x).1
      | some x =>
        let (s, isOver) := tlbiStep s x
        .next (if isOver then remapRow (dropEntries { s with tlbis := s.tlbis.filter fun y => y.id != x.id } x) r else s)

end Sys2Proof.Machine
end

