-- ==== Sys2Proof/Machine/Vector.lean ====
section
/-! DEFINITION. Vector words and the vector unit (R234 to R237). -/

namespace Sys2Proof.Machine

/-! ## Arrays (R234, R235) -/

/-- What an array holds: FP64, FP32 (and `vcpy` words), FP16 or BF16, BD8 and BD4 elements, scale pairs. -/
inductive Elem where
  | fp64 | fp32 | half | bd8 | bd4 | scale
  deriving DecidableEq, Repr

/-- Bytes of an array of `n` elements (R235). -/
def Elem.bytes (e : Elem) (n : Nat) : Nat :=
  match e with
  | .fp64 => 8 * n | .fp32 => 4 * n | .half => 2 * n | .bd8 => n | .bd4 => n / 2 | .scale => n / 16

/-- Alignment of an array (R235). -/
def Elem.align (e : Elem) : Nat :=
  match e with
  | .fp64 => 8 | .fp32 => 4 | .half => 2 | _ => 1

/-- The vector functions: opcode 0x40 to 0x45 and f3, the arrays D, A and B (R234). -/
def vArrays (op f3 : Nat) : Elem × Elem × Option Elem :=
  if op < 0x44 then (if 4 ≤ f3 then (.fp64, .fp64, some .fp64) else (.fp32, .fp32, some .fp32))
  else if op = 0x44 then
    (if f3 < 2 then (.fp32, .fp32, some .fp32) else if f3 < 4 then (.fp64, .fp64, some .fp64) else (.fp32, .fp32, none))
  else match f3 with
    | 0 | 2 => (.half, .fp32, none)
    | 1 | 3 => (.fp32, .half, none)
    | 4 => (.bd8, .fp32, some .scale)
    | 5 => (.fp32, .bd8, some .scale)
    | 6 => (.bd4, .fp32, some .scale)
    | _ => (.fp32, .bd4, some .scale)

/-- A form of the block formats (R235). -/
def isBDForm (op f3 : Nat) : Bool := op == 0x45 && decide (4 ≤ f3)

/-- A block encode writes its scale array (R235). -/
def isBDEncode (op f3 : Nat) : Bool := op == 0x45 && (f3 == 4 || f3 == 6)

/-- Elements of a step (R236). -/
def vStepLen (op f3 : Nat) : Nat := if (vArrays op f3).1 = .fp64 then 8 else 16

/-- The address and kind of each array, in the order D, A, B. -/
def vRanges (op f3 : Nat) (d a b : Word) : List (Word × Elem) :=
  let (ed, ea, eb) := vArrays op f3
  [(d, ed), (a, ea)] ++ (match eb with | some e => [(b, e)] | none => [])

/-- R235. -/
def vVerdict (op f3 : Nat) (d a b : Word) (s : State) (k : Core) (c : Ctx) : Verdict :=
  let n := c.vlen.toNat
  if n = 0 then .go
  else if isBDForm op f3 && n % 32 != 0 then .trap .illop (curWord s)
  else
    let rs := vRanges op f3 d a b
    match rs.find? fun r => r.1.toNat % r.2.align != 0 with
    | some r => .trap .misalign r.1
    | none =>
      match rs.find? fun r => decide (windowBase k < r.1.toNat + r.2.bytes n) with
      | some r => .trap .prot r.1
      | none =>
        let written := (rs.take 1) ++ (if isBDEncode op f3 then rs.drop 2 else [])
        match written.find? fun r => isLent k r.1.toNat (r.2.bytes n) with
        | some r => .trap .oplent r.1
        | none => .go

/-- A vector word: with no element it completes at once; else it goes to the core's vector unit and holds its context (R235, R237). -/
def vector (op f3 : Nat) (w : Bool) (d a b : Reg) (s : State) : Result :=
  let useB := (vArrays op f3).2.2.isSome
  let third := fun s => if useB then src s b else 0
  settle (check { srcs := if useB then [a, b, d] else [a, d], w := w, mem := true }
      (fun s k c => vVerdict op f3 (src s d) (src s a) (third s) s k c) s)
    (fun s =>
      match curCtx s with
      | none => s
      | some c =>
        if c.vlen = 0 then retire s
        else
          let v : VCmd :=
            { ctx := me s, op := op, f3 := f3, rd := d, ra := a, rb := b, d := (src s d).toNat, a := (src s a).toNat,
              b := (third s).toNat, len := c.vlen.toNat, frm := c.frm, step := 0, flags := 0, e0 := 0, e1 := 0 }
          holdNow .vector (modCore s (coreOf (me s)) fun k => { k with vq := k.vq ++ [v] })) s

/-- f3 of a form with a precision and a rounding (R234). -/
def vCode (p : Bool) (r : BitVec 2) : Nat := (if p then 4 else 0) + r.toNat

/-- `vadd` (R236). -/
def execVadd (p : Bool) (r : BitVec 2) (w : Bool) (d a b : Reg) (s : State) : Result := vector 0x40 (vCode p r) w d a b s

/-- `vsub` (R236). -/
def execVsub (p : Bool) (r : BitVec 2) (w : Bool) (d a b : Reg) (s : State) : Result := vector 0x41 (vCode p r) w d a b s

/-- `vmul` (R236). -/
def execVmul (p : Bool) (r : BitVec 2) (w : Bool) (d a b : Reg) (s : State) : Result := vector 0x42 (vCode p r) w d a b s

/-- `vfma` (R236). -/
def execVfma (p : Bool) (r : BitVec 2) (w : Bool) (d a b : Reg) (s : State) : Result := vector 0x43 (vCode p r) w d a b s

/-- `vmin.w` (R236). -/
def execVminW (w : Bool) (d a b : Reg) (s : State) : Result := vector 0x44 0 w d a b s

/-- `vmax.w` (R236). -/
def execVmaxW (w : Bool) (d a b : Reg) (s : State) : Result := vector 0x44 1 w d a b s

/-- `vmin` (R236). -/
def execVminD (w : Bool) (d a b : Reg) (s : State) : Result := vector 0x44 2 w d a b s

/-- `vmax` (R236). -/
def execVmaxD (w : Bool) (d a b : Reg) (s : State) : Result := vector 0x44 3 w d a b s

/-- `vcpy` (R236). -/
def execVcpy (w : Bool) (d a : Reg) (s : State) : Result := vector 0x44 4 w d a 0 s

/-- `vcvt.h.s` (R236). -/
def execVcvtHS (w : Bool) (d a : Reg) (s : State) : Result := vector 0x45 0 w d a 0 s

/-- `vcvt.s.h` (R236). -/
def execVcvtSH (w : Bool) (d a : Reg) (s : State) : Result := vector 0x45 1 w d a 0 s

/-- `vcvt.bf.s` (R236). -/
def execVcvtBfS (w : Bool) (d a : Reg) (s : State) : Result := vector 0x45 2 w d a 0 s

/-- `vcvt.s.bf` (R236). -/
def execVcvtSBf (w : Bool) (d a : Reg) (s : State) : Result := vector 0x45 3 w d a 0 s

/-- `vcvt.bd8.s` (R236). -/
def execVcvtBd8S (w : Bool) (d a b : Reg) (s : State) : Result := vector 0x45 4 w d a b s

/-- `vcvt.s.bd8` (R236). -/
def execVcvtSBd8 (w : Bool) (d a b : Reg) (s : State) : Result := vector 0x45 5 w d a b s

/-- `vcvt.bd4.s` (R236). -/
def execVcvtBd4S (w : Bool) (d a b : Reg) (s : State) : Result := vector 0x45 6 w d a b s

/-- `vcvt.s.bd4` (R236). -/
def execVcvtSBd4 (w : Bool) (d a b : Reg) (s : State) : Result := vector 0x45 7 w d a b s

/-! ## The vector unit -/

/-- The code of element `e` of an array, and whether its bytes are poisoned. -/
def vElem (k : Core) (kind : Elem) (at_ e : Nat) : Nat × Bool :=
  match kind with
  | .fp64 => (leNat (spRead k (at_ + 8 * e) 8), spPoisoned k (at_ + 8 * e) 8)
  | .fp32 => (leNat (spRead k (at_ + 4 * e) 4), spPoisoned k (at_ + 4 * e) 4)
  | .half => (leNat (spRead k (at_ + 2 * e) 2), spPoisoned k (at_ + 2 * e) 2)
  | .bd8 | .scale => (leNat (spRead k (at_ + e) 1), spPoisoned k (at_ + e) 1)
  | .bd4 => (leNat (spRead k (at_ + e / 2) 1) / 16 ^ (e % 2) % 16, spPoisoned k (at_ + e / 2) 1)

/-- The bytes of a run of codes of one kind. -/
def vBytes (kind : Elem) (cs : List Nat) : List Byte :=
  match kind with
  | .fp64 => cs.flatMap (leBytes 8)
  | .fp32 => cs.flatMap (leBytes 4)
  | .half => cs.flatMap (leBytes 2)
  | .bd8 | .scale => cs.flatMap (leBytes 1)
  | .bd4 => (List.range (cs.length / 2)).map fun i => BitVec.ofNat 8 (cs.getD (2 * i) 0 + 16 * cs.getD (2 * i + 1) 0)

/-- Where element `e` of an array begins. -/
def vPlace (kind : Elem) (at_ e : Nat) : Nat :=
  match kind with
  | .fp64 => at_ + 8 * e | .fp32 => at_ + 4 * e | .half => at_ + 2 * e | .bd8 | .scale => at_ + e | .bd4 => at_ + e / 2

/-- The scalar result of an element of the forms without blocks (R236). -/
def vScalar (op f3 : Nat) (frm : BitVec 2) (a b d : Nat) : Nat × FFlags :=
  let f := if (vArrays op f3).1 = .fp64 then fp64 else fp32
  let r := roundingOf (BitVec.ofNat 2 f3)
  match op with
  | 0x40 => fAdd f r a b
  | 0x41 => fSub f r a b
  | 0x42 => fMul f r a b
  | 0x43 => fFma f r false a b d
  | 0x44 => if f3 = 4 then (a, 0) else fMinMax f (f3 % 2 == 1) a b
  | _ =>
    match f3 with
    | 0 => fConvert fp32 fp16 (roundingOf frm) a
    | 1 => fConvert fp16 fp32 .rne a
    | 2 => fConvert fp32 bf16 (roundingOf frm) a
    | _ => fConvert bf16 fp32 .rne a

/-- What a step computed: destination codes, the block's scale pair and whether this step chose it, flags, and the addresses of poisoned
elements read. -/
structure VStep where
  codes : List Nat
  e0 : Nat
  e1 : Nat
  pair : Bool
  flags : FFlags
  bad : List Nat
  deriving DecidableEq, Repr

/-- Results of one step joined: an element with a poisoned source is 0 (log entry 9). -/
def vJoin (rs : List (Nat × FFlags × Option Nat)) (e0 e1 : Nat) (pair : Bool) (fl : FFlags) (bad : List Nat) : VStep :=
  { codes := rs.map (·.1), e0 := e0, e1 := e1, pair := pair, flags := rs.foldl (fun f r => f ||| r.2.1) fl,
    bad := bad ++ rs.filterMap (·.2.2) }

/-- The elements of a step without blocks. -/
def vPlain (k : Core) (v : VCmd) (es : List Nat) : VStep :=
  let (kd, ka, kb) := vArrays v.op v.f3
  let rs := es.map fun e =>
    let a := vElem k ka v.a e
    let b := match kb with | some x => vElem k x v.b e | none => (0, false)
    let d := if v.op = 0x43 then vElem k kd v.d e else (0, false)
    let bad := if a.2 then some (vPlace ka v.a e) else if b.2 then some (vPlace (kb.getD .fp32) v.b e)
      else if d.2 then some (vPlace kd v.d e) else none
    match bad with
    | some x => (0, (0 : FFlags), some x)
    | none => let r := vScalar v.op v.f3 v.frm a.1 b.1 d.1; (r.1, r.2, none)
  vJoin rs v.e0 v.e1 false 0 []

/-- The elements of a block decode: the pair is read in the block's first step (R236). -/
def vDecode (k : Core) (v : VCmd) (bd : BD) (es : List Nat) (first : Bool) (j : Nat) : VStep :=
  let (_, ka, _) := vArrays v.op v.f3
  let p0 := vElem k .scale v.b (2 * j)
  let p1 := vElem k .scale v.b (2 * j + 1)
  let e0 := if first then p0.1 else v.e0
  let e1 := if first then p1.1 else v.e1
  let rs := es.map fun e =>
    let c := vElem k ka v.a e
    if c.2 then (0, (0 : FFlags), some (vPlace ka v.a e)) else let r := bdValue bd c.1 e0 e1; (r.1, r.2, none)
  vJoin rs e0 e1 false 0 (if first && (p0.2 || p1.2) then [v.b + 2 * j] else [])

/-- The elements of a block encode: the first step reads all 32 sources and chooses the pair; the second step codes its own elements from
what the first read, which the command keeps (R236). -/
def vEncode (k : Core) (v : VCmd) (bd : BD) (es : List Nat) (first : Bool) (j : Nat) (held : List Nat) : VStep × List Nat :=
  let read := (List.range 32).map fun i => vElem k .fp32 v.a (32 * j + i)
  let xs := if first then read.map fun x => if x.2 then 0 else x.1 else held
  let (e0, e1) := if first then bdScale bd xs else (v.e0, v.e1)
  let rs := es.map fun e => let r := bdCode bd (xs.getD (e % 32) 0) e0 e1; (r.1, r.2, (none : Option Nat))
  let bad := if first then ((List.range 32).filter fun i => (read.getD i (0, false)).2).map fun i => vPlace .fp32 v.a (32 * j + i) else []
  (vJoin rs e0 e1 first 0 bad, if first then xs else [])

/-- Bytes written by an engine of the core: whole granules lose their poison, and bytes of a poisoned granule written in part stay as they
are, which the answer reports (R313). -/
def unitWrite (k : Core) (at_ : Nat) (bs : List Byte) : Core × Option Nat :=
  let part := (granules at_ bs.length).filter fun g => k.spPoison.contains g && !(decide (at_ ≤ g * 4) && decide (g * 4 + 4 ≤ at_ + bs.length))
  let k := (List.range bs.length).foldl (fun k i =>
    if part.contains ((at_ + i) / 4) then k else spWrite k (at_ + i) [bs.getD i 0]) k
  ({ k with spPoison := k.spPoison.filter fun g => part.contains g || !(decide (at_ ≤ g * 4) && decide (g * 4 + 4 ≤ at_ + bs.length)) },
    part.head?.map (· * 4))

/-- The address registers after the last step: each distinct one, once, by the bytes of its first array (R236). -/
def vAdvance (s : State) (v : VCmd) : State :=
  let (kd, ka, kb) := vArrays v.op v.f3
  let named := [(v.rd, kd.bytes v.len), (v.ra, ka.bytes v.len)] ++ (match kb with | some e => [(v.rb, e.bytes v.len)] | none => [])
  let once := named.foldl (fun acc x => if acc.any fun y => y.1 == x.1 then acc else acc ++ [x]) ([] : List (Reg × Nat))
  once.foldl (fun s x => writeReg s v.ctx x.1 (readReg s v.ctx x.1 + word x.2)) s

/-- The next step of the word at the head of a core's vector unit. -/
def vectorStep (core : Nat) (s : State) : State :=
  let k := getCore s core
  match k.vq with
  | [] => s
  | v :: rest =>
    let n := vStepLen v.op v.f3
    let es := (List.range (min n (v.len - v.step * n))).map (· + v.step * n)
    let j := v.step * n / 32
    let first := v.step % 2 == 0
    let bd := if v.f3 < 6 then bd8 else bd4
    let (r, keep) :=
      if isBDEncode v.op v.f3 then vEncode k v bd es first j v.held
      else if isBDForm v.op v.f3 then (vDecode k v bd es first j, [])
      else (vPlain k v es, [])
    let kd := (vArrays v.op v.f3).1
    -- the scale pair is written before the codes (R236)
    let (k, w1) := if r.pair then unitWrite k (v.b + 2 * j) (leBytes 1 r.e0 ++ leBytes 1 r.e1) else (k, none)
    let (k, w2) := unitWrite k (vPlace kd v.d (v.step * n)) (vBytes kd r.codes)
    let last := decide (v.len ≤ (v.step + 1) * n)
    let v' := { v with step := v.step + 1, e0 := r.e0, e1 := r.e1, held := keep }
    let s := setCore s core { k with vq := if last then rest else v' :: rest }
    let s := setFlags r.flags v.ctx s
    let bad := r.bad.take 1 ++ w1.toList ++ w2.toList
    let s := bad.foldl (fun s a => pendTrap s v.ctx .poison (word a)) s
    if last then rewake (wake (vAdvance s v) v.ctx) core else s

/-- VECTOR_STEP (R236, R237): `unit` is the core. -/
def execVectorStep (s : State) : Result := .next (if coreStopped s s.arg.unit then s else vectorStep s.arg.unit s)

end Sys2Proof.Machine
end

