-- ==== Sys2Proof/Machine/Dispatch.lean ====
section
/-! DEFINITION. What each instruction does: one arm for each constructor, a direct call of its meaning. -/

namespace Sys2Proof.Machine

def exec (i : Instr) (s : State) : Host.Outcome State Fault Refusal :=
  match i with
  | .add w d a b => Sys2Proof.Machine.execAdd w d a b s
  | .sub w d a b => Sys2Proof.Machine.execSub w d a b s
  | .and w d a b => Sys2Proof.Machine.execAnd w d a b s
  | .or w d a b => Sys2Proof.Machine.execOr w d a b s
  | .xor w d a b => Sys2Proof.Machine.execXor w d a b s
  | .sll w d a b => Sys2Proof.Machine.execSll w d a b s
  | .srl w d a b => Sys2Proof.Machine.execSrl w d a b s
  | .sra w d a b => Sys2Proof.Machine.execSra w d a b s
  | .slt w d a b => Sys2Proof.Machine.execSlt w d a b s
  | .sltu w d a b => Sys2Proof.Machine.execSltu w d a b s
  | .min w d a b => Sys2Proof.Machine.execMin w d a b s
  | .max w d a b => Sys2Proof.Machine.execMax w d a b s
  | .minu w d a b => Sys2Proof.Machine.execMinu w d a b s
  | .maxu w d a b => Sys2Proof.Machine.execMaxu w d a b s
  | .mul w d a b => Sys2Proof.Machine.execMul w d a b s
  | .mulh w d a b => Sys2Proof.Machine.execMulh w d a b s
  | .mulhu w d a b => Sys2Proof.Machine.execMulhu w d a b s
  | .mulhsu w d a b => Sys2Proof.Machine.execMulhsu w d a b s
  | .div w d a b => Sys2Proof.Machine.execDiv w d a b s
  | .divu w d a b => Sys2Proof.Machine.execDivu w d a b s
  | .rem w d a b => Sys2Proof.Machine.execRem w d a b s
  | .remu w d a b => Sys2Proof.Machine.execRemu w d a b s
  | .home w d a => Sys2Proof.Machine.execHome w d a s
  | .clz w d a => Sys2Proof.Machine.execClz w d a s
  | .ctz w d a => Sys2Proof.Machine.execCtz w d a s
  | .popc w d a => Sys2Proof.Machine.execPopc w d a s
  | .addi imm d a => Sys2Proof.Machine.execAddi imm d a s
  | .andi imm d a => Sys2Proof.Machine.execAndi imm d a s
  | .ori imm d a => Sys2Proof.Machine.execOri imm d a s
  | .xori imm d a => Sys2Proof.Machine.execXori imm d a s
  | .slli h d a => Sys2Proof.Machine.execSlli h d a s
  | .srli h d a => Sys2Proof.Machine.execSrli h d a s
  | .srai h d a => Sys2Proof.Machine.execSrai h d a s
  | .slti imm d a => Sys2Proof.Machine.execSlti imm d a s
  | .sltiu imm d a => Sys2Proof.Machine.execSltiu imm d a s
  | .lui imm d => Sys2Proof.Machine.execLui imm d s
  | .adpc imm d => Sys2Proof.Machine.execAdpc imm d s
  | .ld imm z d a => Sys2Proof.Machine.execLd imm z d a s
  | .ldBy imm z d a => Sys2Proof.Machine.execLdBy imm z d a s
  | .st imm z a b => Sys2Proof.Machine.execSt imm z a b s
  | .lds imm z d a => Sys2Proof.Machine.execLds imm z d a s
  | .sts imm z a b => Sys2Proof.Machine.execSts imm z a b s
  | .beq imm a b => Sys2Proof.Machine.execBeq imm a b s
  | .bne imm a b => Sys2Proof.Machine.execBne imm a b s
  | .blt imm a b => Sys2Proof.Machine.execBlt imm a b s
  | .bge imm a b => Sys2Proof.Machine.execBge imm a b s
  | .bltu imm a b => Sys2Proof.Machine.execBltu imm a b s
  | .bgeu imm a b => Sys2Proof.Machine.execBgeu imm a b s
  | .jal imm d => Sys2Proof.Machine.execJal imm d s
  | .jalr imm d a => Sys2Proof.Machine.execJalr imm d a s
  | .ldAcq h imm z d a => Sys2Proof.Machine.execLdAcq h imm z d a s
  | .stRel h imm z a b => Sys2Proof.Machine.execStRel h imm z a b s
  | .amoAdd w d a b => Sys2Proof.Machine.execAmoAdd w d a b s
  | .amoAnd w d a b => Sys2Proof.Machine.execAmoAnd w d a b s
  | .amoOr w d a b => Sys2Proof.Machine.execAmoOr w d a b s
  | .amoXor w d a b => Sys2Proof.Machine.execAmoXor w d a b s
  | .amoSwap w d a b => Sys2Proof.Machine.execAmoSwap w d a b s
  | .amoMin w d a b => Sys2Proof.Machine.execAmoMin w d a b s
  | .amoMax w d a b => Sys2Proof.Machine.execAmoMax w d a b s
  | .amoCas w d a b => Sys2Proof.Machine.execAmoCas w d a b s
  | .amoAddAcq w d a b => Sys2Proof.Machine.execAmoAddAcq w d a b s
  | .amoAndAcq w d a b => Sys2Proof.Machine.execAmoAndAcq w d a b s
  | .amoOrAcq w d a b => Sys2Proof.Machine.execAmoOrAcq w d a b s
  | .amoXorAcq w d a b => Sys2Proof.Machine.execAmoXorAcq w d a b s
  | .amoSwapAcq w d a b => Sys2Proof.Machine.execAmoSwapAcq w d a b s
  | .amoMinAcq w d a b => Sys2Proof.Machine.execAmoMinAcq w d a b s
  | .amoMaxAcq w d a b => Sys2Proof.Machine.execAmoMaxAcq w d a b s
  | .amoCasAcq w d a b => Sys2Proof.Machine.execAmoCasAcq w d a b s
  | .amoAddRel w d a b => Sys2Proof.Machine.execAmoAddRel w d a b s
  | .amoAndRel w d a b => Sys2Proof.Machine.execAmoAndRel w d a b s
  | .amoOrRel w d a b => Sys2Proof.Machine.execAmoOrRel w d a b s
  | .amoXorRel w d a b => Sys2Proof.Machine.execAmoXorRel w d a b s
  | .amoSwapRel w d a b => Sys2Proof.Machine.execAmoSwapRel w d a b s
  | .amoMinRel w d a b => Sys2Proof.Machine.execAmoMinRel w d a b s
  | .amoMaxRel w d a b => Sys2Proof.Machine.execAmoMaxRel w d a b s
  | .amoCasRel w d a b => Sys2Proof.Machine.execAmoCasRel w d a b s
  | .amoAddAr w d a b => Sys2Proof.Machine.execAmoAddAr w d a b s
  | .amoAndAr w d a b => Sys2Proof.Machine.execAmoAndAr w d a b s
  | .amoOrAr w d a b => Sys2Proof.Machine.execAmoOrAr w d a b s
  | .amoXorAr w d a b => Sys2Proof.Machine.execAmoXorAr w d a b s
  | .amoSwapAr w d a b => Sys2Proof.Machine.execAmoSwapAr w d a b s
  | .amoMinAr w d a b => Sys2Proof.Machine.execAmoMinAr w d a b s
  | .amoMaxAr w d a b => Sys2Proof.Machine.execAmoMaxAr w d a b s
  | .amoCasAr w d a b => Sys2Proof.Machine.execAmoCasAr w d a b s
  | .amoMinu w d a b => Sys2Proof.Machine.execAmoMinu w d a b s
  | .amoMaxu w d a b => Sys2Proof.Machine.execAmoMaxu w d a b s
  | .amoFaddD w d a b => Sys2Proof.Machine.execAmoFaddD w d a b s
  | .amoFaddW w d a b => Sys2Proof.Machine.execAmoFaddW w d a b s
  | .amoFaddH w d a b => Sys2Proof.Machine.execAmoFaddH w d a b s
  | .amoBfadd w d a b => Sys2Proof.Machine.execAmoBfadd w d a b s
  | .amoMinuAcq w d a b => Sys2Proof.Machine.execAmoMinuAcq w d a b s
  | .amoMaxuAcq w d a b => Sys2Proof.Machine.execAmoMaxuAcq w d a b s
  | .amoFaddDAcq w d a b => Sys2Proof.Machine.execAmoFaddDAcq w d a b s
  | .amoFaddWAcq w d a b => Sys2Proof.Machine.execAmoFaddWAcq w d a b s
  | .amoFaddHAcq w d a b => Sys2Proof.Machine.execAmoFaddHAcq w d a b s
  | .amoBfaddAcq w d a b => Sys2Proof.Machine.execAmoBfaddAcq w d a b s
  | .amoMinuRel w d a b => Sys2Proof.Machine.execAmoMinuRel w d a b s
  | .amoMaxuRel w d a b => Sys2Proof.Machine.execAmoMaxuRel w d a b s
  | .amoFaddDRel w d a b => Sys2Proof.Machine.execAmoFaddDRel w d a b s
  | .amoFaddWRel w d a b => Sys2Proof.Machine.execAmoFaddWRel w d a b s
  | .amoFaddHRel w d a b => Sys2Proof.Machine.execAmoFaddHRel w d a b s
  | .amoBfaddRel w d a b => Sys2Proof.Machine.execAmoBfaddRel w d a b s
  | .amoMinuAr w d a b => Sys2Proof.Machine.execAmoMinuAr w d a b s
  | .amoMaxuAr w d a b => Sys2Proof.Machine.execAmoMaxuAr w d a b s
  | .amoFaddDAr w d a b => Sys2Proof.Machine.execAmoFaddDAr w d a b s
  | .amoFaddWAr w d a b => Sys2Proof.Machine.execAmoFaddWAr w d a b s
  | .amoFaddHAr w d a b => Sys2Proof.Machine.execAmoFaddHAr w d a b s
  | .amoBfaddAr w d a b => Sys2Proof.Machine.execAmoBfaddAr w d a b s
  | .amosAdd w d a b => Sys2Proof.Machine.execAmosAdd w d a b s
  | .amosAnd w d a b => Sys2Proof.Machine.execAmosAnd w d a b s
  | .amosOr w d a b => Sys2Proof.Machine.execAmosOr w d a b s
  | .amosXor w d a b => Sys2Proof.Machine.execAmosXor w d a b s
  | .amosSwap w d a b => Sys2Proof.Machine.execAmosSwap w d a b s
  | .amosMin w d a b => Sys2Proof.Machine.execAmosMin w d a b s
  | .amosMax w d a b => Sys2Proof.Machine.execAmosMax w d a b s
  | .amosCas w d a b => Sys2Proof.Machine.execAmosCas w d a b s
  | .amosMinu w d a b => Sys2Proof.Machine.execAmosMinu w d a b s
  | .amosMaxu w d a b => Sys2Proof.Machine.execAmosMaxu w d a b s
  | .amosFaddD w d a b => Sys2Proof.Machine.execAmosFaddD w d a b s
  | .amosFaddW w d a b => Sys2Proof.Machine.execAmosFaddW w d a b s
  | .amosFaddH w d a b => Sys2Proof.Machine.execAmosFaddH w d a b s
  | .amosBfadd w d a b => Sys2Proof.Machine.execAmosBfadd w d a b s
  | .depAdd w a b => Sys2Proof.Machine.execDepAdd w a b s
  | .depMax w a b => Sys2Proof.Machine.execDepMax w a b s
  | .peek w d a => Sys2Proof.Machine.execPeek w d a s
  | .sense w d a b => Sys2Proof.Machine.execSense w d a b s
  | .depAddRel w a b => Sys2Proof.Machine.execDepAddRel w a b s
  | .depMaxRel w a b => Sys2Proof.Machine.execDepMaxRel w a b s
  | .tick w a => Sys2Proof.Machine.execTick w a s
  | .fadd p r w d a b => Sys2Proof.Machine.execFadd p r w d a b s
  | .fsub p r w d a b => Sys2Proof.Machine.execFsub p r w d a b s
  | .fmul p r w d a b => Sys2Proof.Machine.execFmul p r w d a b s
  | .fdiv p r w d a b => Sys2Proof.Machine.execFdiv p r w d a b s
  | .fma p r w d a b => Sys2Proof.Machine.execFma p r w d a b s
  | .fnma p r w d a b => Sys2Proof.Machine.execFnma p r w d a b s
  | .fsqrt p r w d a => Sys2Proof.Machine.execFsqrt p r w d a s
  | .fminW w d a b => Sys2Proof.Machine.execFminW w d a b s
  | .fmaxW w d a b => Sys2Proof.Machine.execFmaxW w d a b s
  | .feqW w d a b => Sys2Proof.Machine.execFeqW w d a b s
  | .fltW w d a b => Sys2Proof.Machine.execFltW w d a b s
  | .fleW w d a b => Sys2Proof.Machine.execFleW w d a b s
  | .fsgnjW w d a b => Sys2Proof.Machine.execFsgnjW w d a b s
  | .fsgnjnW w d a b => Sys2Proof.Machine.execFsgnjnW w d a b s
  | .fclassW w d a => Sys2Proof.Machine.execFclassW w d a s
  | .fminD w d a b => Sys2Proof.Machine.execFminD w d a b s
  | .fmaxD w d a b => Sys2Proof.Machine.execFmaxD w d a b s
  | .feqD w d a b => Sys2Proof.Machine.execFeqD w d a b s
  | .fltD w d a b => Sys2Proof.Machine.execFltD w d a b s
  | .fleD w d a b => Sys2Proof.Machine.execFleD w d a b s
  | .fsgnjD w d a b => Sys2Proof.Machine.execFsgnjD w d a b s
  | .fsgnjnD w d a b => Sys2Proof.Machine.execFsgnjnD w d a b s
  | .fclassD w d a => Sys2Proof.Machine.execFclassD w d a s
  | .cvtSD r w d a => Sys2Proof.Machine.execCvtSD r w d a s
  | .cvtDS w d a => Sys2Proof.Machine.execCvtDS w d a s
  | .cvtHS r w d a => Sys2Proof.Machine.execCvtHS r w d a s
  | .cvtSH w d a => Sys2Proof.Machine.execCvtSH w d a s
  | .cvtBfS r w d a => Sys2Proof.Machine.execCvtBfS r w d a s
  | .cvtSBf w d a => Sys2Proof.Machine.execCvtSBf w d a s
  | .cvtSL r w d a => Sys2Proof.Machine.execCvtSL r w d a s
  | .cvtDL r w d a => Sys2Proof.Machine.execCvtDL r w d a s
  | .cvtLS r w d a => Sys2Proof.Machine.execCvtLS r w d a s
  | .cvtLD r w d a => Sys2Proof.Machine.execCvtLD r w d a s
  | .cvtDLu r w d a => Sys2Proof.Machine.execCvtDLu r w d a s
  | .cvtLuD r w d a => Sys2Proof.Machine.execCvtLuD r w d a s
  | .vadd p r w d a b => Sys2Proof.Machine.execVadd p r w d a b s
  | .vsub p r w d a b => Sys2Proof.Machine.execVsub p r w d a b s
  | .vmul p r w d a b => Sys2Proof.Machine.execVmul p r w d a b s
  | .vfma p r w d a b => Sys2Proof.Machine.execVfma p r w d a b s
  | .vminW w d a b => Sys2Proof.Machine.execVminW w d a b s
  | .vmaxW w d a b => Sys2Proof.Machine.execVmaxW w d a b s
  | .vminD w d a b => Sys2Proof.Machine.execVminD w d a b s
  | .vmaxD w d a b => Sys2Proof.Machine.execVmaxD w d a b s
  | .vcpy w d a => Sys2Proof.Machine.execVcpy w d a s
  | .vcvtHS w d a => Sys2Proof.Machine.execVcvtHS w d a s
  | .vcvtSH w d a => Sys2Proof.Machine.execVcvtSH w d a s
  | .vcvtBfS w d a => Sys2Proof.Machine.execVcvtBfS w d a s
  | .vcvtSBf w d a => Sys2Proof.Machine.execVcvtSBf w d a s
  | .vcvtBd8S w d a b => Sys2Proof.Machine.execVcvtBd8S w d a b s
  | .vcvtSBd8 w d a b => Sys2Proof.Machine.execVcvtSBd8 w d a b s
  | .vcvtBd4S w d a b => Sys2Proof.Machine.execVcvtBd4S w d a b s
  | .vcvtSBd4 w d a b => Sys2Proof.Machine.execVcvtSBd4 w d a b s
  | .sfuExp2 w d a => Sys2Proof.Machine.execSfuExp2 w d a s
  | .sfuLog2 w d a => Sys2Proof.Machine.execSfuLog2 w d a s
  | .sfuRcp w d a => Sys2Proof.Machine.execSfuRcp w d a s
  | .sfuRsq w d a => Sys2Proof.Machine.execSfuRsq w d a s
  | .sfuSin w d a => Sys2Proof.Machine.execSfuSin w d a s
  | .sfuCos w d a => Sys2Proof.Machine.execSfuCos w d a s
  | .sfuTanh w d a => Sys2Proof.Machine.execSfuTanh w d a s
  | .sfuSigm w d a => Sys2Proof.Machine.execSfuSigm w d a s
  | .sbindIn w d a => Sys2Proof.Machine.execSbindIn w d a s
  | .sbindOut w d a => Sys2Proof.Machine.execSbindOut w d a s
  | .sunbind d => Sys2Proof.Machine.execSunbind d s
  | .ctab w a => Sys2Proof.Machine.execCtab w a s
  | .mma w k n a b => Sys2Proof.Machine.execMma w k n a b s
  | .mmaZ w k n a b => Sys2Proof.Machine.execMmaZ w k n a b s
  | .mmaRot w k n a => Sys2Proof.Machine.execMmaRot w k n a s
  | .mmaRotZ w k n a => Sys2Proof.Machine.execMmaRotZ w k n a s
  | .mmaRotSd w k n a b => Sys2Proof.Machine.execMmaRotSd w k n a b s
  | .mmaRotSdZ w k n a b => Sys2Proof.Machine.execMmaRotSdZ w k n a b s
  | .mstc w k a b => Sys2Proof.Machine.execMstc w k a b s
  | .mldc w k a b => Sys2Proof.Machine.execMldc w k a b s
  | .mcommit d => Sys2Proof.Machine.execMcommit d s
  | .mwait w a => Sys2Proof.Machine.execMwait w a s
  | .cpyGg w c a b => Sys2Proof.Machine.execCpyGg w c a b s
  | .cpyGs w c a b => Sys2Proof.Machine.execCpyGs w c a b s
  | .cpySg w c a b => Sys2Proof.Machine.execCpySg w c a b s
  | .cpySs w c a b => Sys2Proof.Machine.execCpySs w c a b s
  | .cpySub w c a => Sys2Proof.Machine.execCpySub w c a s
  | .cpySubPull w c a => Sys2Proof.Machine.execCpySubPull w c a s
  | .cpySubRet w c a => Sys2Proof.Machine.execCpySubRet w c a s
  | .cwait w a b => Sys2Proof.Machine.execCwait w a b s
  | .spawn w d a b => Sys2Proof.Machine.execSpawn w d a b s
  | .go w a => Sys2Proof.Machine.execGo w a s
  | .park w a b => Sys2Proof.Machine.execPark w a b s
  | .join w d a => Sys2Proof.Machine.execJoin w d a s
  | .leave w d a => Sys2Proof.Machine.execLeave w d a s
  | .bar w d a => Sys2Proof.Machine.execBar w d a s
  | .tsig w a => Sys2Proof.Machine.execTsig w a s
  | .kadd d a b => Sys2Proof.Machine.execKadd d a b s
  | .ksub d a b => Sys2Proof.Machine.execKsub d a b s
  | .kand d a b => Sys2Proof.Machine.execKand d a b s
  | .kor d a b => Sys2Proof.Machine.execKor d a b s
  | .kxor d a b => Sys2Proof.Machine.execKxor d a b s
  | .ksll d a b => Sys2Proof.Machine.execKsll d a b s
  | .ksrl d a b => Sys2Proof.Machine.execKsrl d a b s
  | .kmul d a b => Sys2Proof.Machine.execKmul d a b s
  | .kaddi imm d a => Sys2Proof.Machine.execKaddi imm d a s
  | .kbeq imm a b => Sys2Proof.Machine.execKbeq imm a b s
  | .kbne imm a b => Sys2Proof.Machine.execKbne imm a b s
  | .kloop imm a => Sys2Proof.Machine.execKloop imm a s
  | .kj imm => Sys2Proof.Machine.execKj imm s
  | .rowany w d a => Sys2Proof.Machine.execRowany w d a s
  | .rowall w d a => Sys2Proof.Machine.execRowall w d a s
  | .csrr c d => Sys2Proof.Machine.execCsrr c d s
  | .csrrw c d a => Sys2Proof.Machine.execCsrrw c d a s
  | .csrs c d a => Sys2Proof.Machine.execCsrs c d a s
  | .csrc c d a => Sys2Proof.Machine.execCsrc c d a s
  | .tlbiVa w a => Sys2Proof.Machine.execTlbiVa w a s
  | .tlbiS2 w a b => Sys2Proof.Machine.execTlbiS2 w a b s
  | .dline w d a b => Sys2Proof.Machine.execDline w d a b s
  | .prog w a => Sys2Proof.Machine.execProg w a s
  | .pwrHint w a => Sys2Proof.Machine.execPwrHint w a s
  | .rep c x y z n => Sys2Proof.Machine.execRep c x y z n s
  | .repOs c x y z n => Sys2Proof.Machine.execRepOs c x y z n s
  | .fenceCore => Sys2Proof.Machine.execFenceCore s
  | .fenceDie => Sys2Proof.Machine.execFenceDie s
  | .fencePkg => Sys2Proof.Machine.execFencePkg s
  | .fenceDom => Sys2Proof.Machine.execFenceDom s
  | .vectorStep => Sys2Proof.Machine.execVectorStep s
  | .sfuAccept => Sys2Proof.Machine.execSfuAccept s
  | .streamPop => Sys2Proof.Machine.execStreamPop s
  | .streamPush => Sys2Proof.Machine.execStreamPush s
  | .matrixEngineSchedule => Sys2Proof.Machine.execMatrixEngineSchedule s
  | .mmaGroup => Sys2Proof.Machine.execMmaGroup s
  | .latchRowArrive => Sys2Proof.Machine.execLatchRowArrive s
  | .matrixCommandComplete => Sys2Proof.Machine.execMatrixCommandComplete s
  | .copyUnitTransfer => Sys2Proof.Machine.execCopyUnitTransfer s
  | .copyCommandComplete => Sys2Proof.Machine.execCopyCommandComplete s
  | .subscriptionTileLand => Sys2Proof.Machine.execSubscriptionTileLand s
  | .subscriptionPullBack => Sys2Proof.Machine.execSubscriptionPullBack s
  | .cfence => Sys2Proof.Machine.execCfence s
  | .quit => Sys2Proof.Machine.execQuit s
  | .yield => Sys2Proof.Machine.execYield s
  | .parkWake => Sys2Proof.Machine.execParkWake s
  | .parkTimeout => Sys2Proof.Machine.execParkTimeout s
  | .heldAnswer => Sys2Proof.Machine.execHeldAnswer s
  | .rend => Sys2Proof.Machine.execRend s
  | .streamBeat => Sys2Proof.Machine.execStreamBeat s
  | .segmentComplete => Sys2Proof.Machine.execSegmentComplete s
  | .ecall => Sys2Proof.Machine.execEcall s
  | .brk => Sys2Proof.Machine.execBrk s
  | .tret => Sys2Proof.Machine.execTret s
  | .tlbiVmid => Sys2Proof.Machine.execTlbiVmid s
  | .tlbiAll => Sys2Proof.Machine.execTlbiAll s
  | .tlbiComplete => Sys2Proof.Machine.execTlbiComplete s
  | .barrelCycle => Sys2Proof.Machine.execBarrelCycle s
  | .resultReturn => Sys2Proof.Machine.execResultReturn s
  | .storeDrain => Sys2Proof.Machine.execStoreDrain s
  | .dutyMet => Sys2Proof.Machine.execDutyMet s
  | .sliceRequest => Sys2Proof.Machine.execSliceRequest s
  | .pageCheckFill => Sys2Proof.Machine.execPageCheckFill s
  | .stage1Walk => Sys2Proof.Machine.execStage1Walk s
  | .fringHeadWrite => Sys2Proof.Machine.execFringHeadWrite s
  | .resolveReplay => Sys2Proof.Machine.execResolveReplay s
  | .resolveFail => Sys2Proof.Machine.execResolveFail s
  | .arrivalDeliver => Sys2Proof.Machine.execArrivalDeliver s
  | .arrivalQueuePlace => Sys2Proof.Machine.execArrivalQueuePlace s
  | .timebaseTickDue => Sys2Proof.Machine.execTimebaseTickDue s
  | .tickUnitSend => Sys2Proof.Machine.execTickUnitSend s
  | .sliceTickApply => Sys2Proof.Machine.execSliceTickApply s
  | .tickAck => Sys2Proof.Machine.execTickAck s
  | .scrubberRefresh => Sys2Proof.Machine.execScrubberRefresh s
  | .trailEnable => Sys2Proof.Machine.execTrailEnable s
  | .trailEnableComplete => Sys2Proof.Machine.execTrailEnableComplete s
  | .trailDisable => Sys2Proof.Machine.execTrailDisable s
  | .regStore => Sys2Proof.Machine.execRegStore s
  | .registrationComplete => Sys2Proof.Machine.execRegistrationComplete s
  | .unregStore => Sys2Proof.Machine.execUnregStore s
  | .handleRelease => Sys2Proof.Machine.execHandleRelease s
  | .launchStore => Sys2Proof.Machine.execLaunchStore s
  | .launchEligible => Sys2Proof.Machine.execLaunchEligible s
  | .nodeStart => Sys2Proof.Machine.execNodeStart s
  | .initialThreadDeliver => Sys2Proof.Machine.execInitialThreadDeliver s
  | .copyNodeComplete => Sys2Proof.Machine.execCopyNodeComplete s
  | .nodeComplete => Sys2Proof.Machine.execNodeComplete s
  | .tsigAccept => Sys2Proof.Machine.execTsigAccept s
  | .launchFinish => Sys2Proof.Machine.execLaunchFinish s
  | .preempt => Sys2Proof.Machine.execPreempt s
  | .savedContextRestore => Sys2Proof.Machine.execSavedContextRestore s
  | .governorEvaluate => Sys2Proof.Machine.execGovernorEvaluate s
  | .powerSlowCheck => Sys2Proof.Machine.execPowerSlowCheck s
  | .powerFastWindow => Sys2Proof.Machine.execPowerFastWindow s
  | .thermalRead => Sys2Proof.Machine.execThermalRead s
  | .energyChargeApply => Sys2Proof.Machine.execEnergyChargeApply s
  | .pset => Sys2Proof.Machine.execPset s
  | .padd => Sys2Proof.Machine.execPadd s
  | .telemetrySample => Sys2Proof.Machine.execTelemetrySample s
  | .transferRow => Sys2Proof.Machine.execTransferRow s
  | .transferSlice => Sys2Proof.Machine.execTransferSlice s
  | .transferChannel => Sys2Proof.Machine.execTransferChannel s
  | .transferEngine => Sys2Proof.Machine.execTransferEngine s
  | .transferComplete => Sys2Proof.Machine.execTransferComplete s
  | .vaultGenerate => Sys2Proof.Machine.execVaultGenerate s
  | .vaultDestroy => Sys2Proof.Machine.execVaultDestroy s
  | .keyDestroyComplete => Sys2Proof.Machine.execKeyDestroyComplete s
  | .hostTlbiVa => Sys2Proof.Machine.execHostTlbiVa s
  | .hostTlbiVmid => Sys2Proof.Machine.execHostTlbiVmid s
  | .hostTlbiS2 => Sys2Proof.Machine.execHostTlbiS2 s
  | .hostTlbiAll => Sys2Proof.Machine.execHostTlbiAll s
  | .counterSelectWrite => Sys2Proof.Machine.execCounterSelectWrite s
  | .rateLimitAdmit => Sys2Proof.Machine.execRateLimitAdmit s
  | .fwUpdate => Sys2Proof.Machine.execFwUpdate s
  | .fwSwitch => Sys2Proof.Machine.execFwSwitch s
  | .fwReady => Sys2Proof.Machine.execFwReady s
  | .fwSwitchTimeout => Sys2Proof.Machine.execFwSwitchTimeout s
  | .attestationReport => Sys2Proof.Machine.execAttestationReport s
  | .fwCommandComplete => Sys2Proof.Machine.execFwCommandComplete s
  | .powerOn => Sys2Proof.Machine.execPowerOn s
  | .hostMemoryAccess => Sys2Proof.Machine.execHostMemoryAccess s
  | .remoteRequest => Sys2Proof.Machine.execRemoteRequest s
  | .linkFailure => Sys2Proof.Machine.execLinkFailure s
  | .peerRestore => Sys2Proof.Machine.execPeerRestore s
  | .hostLinkRetrain => Sys2Proof.Machine.execHostLinkRetrain s
  | .frameArrive => Sys2Proof.Machine.execFrameArrive s
  | .trailheadFrameDeliver => Sys2Proof.Machine.execTrailheadFrameDeliver s
  | .flowEnable => Sys2Proof.Machine.execFlowEnable s
  | .debugFreeze => Sys2Proof.Machine.execDebugFreeze s
  | .debugThaw => Sys2Proof.Machine.execDebugThaw s
  | .debugWindowAccess => Sys2Proof.Machine.execDebugWindowAccess s
  | .uncorrectableError => Sys2Proof.Machine.execUncorrectableError s
  | .correctedError => Sys2Proof.Machine.execCorrectedError s
  | .rowRemap => Sys2Proof.Machine.execRowRemap s
  | .registerWrite => Sys2Proof.Machine.execRegisterWrite s
  | .ptpClockStep => Sys2Proof.Machine.execPtpClockStep s
  | .parkEarlyComplete => Sys2Proof.Machine.execParkEarlyComplete s
  | .peerPortLinkChange => Sys2Proof.Machine.execPeerPortLinkChange s
  | .remoteFaultResolved => Sys2Proof.Machine.execRemoteFaultResolved s

end Sys2Proof.Machine
end

