-- ==== Sys2Proof/Machine/Step.lean ====
section
/-! DEFINITION. One step of the package: a word that must issue, the next event, or a cycle of one core. -/

namespace Sys2Proof.Machine

/-- The step: words queued by what went before issue first, as one step of the part with it; else the event that is due; else a
barrel cycle of `idleCore`. -/
def step (s : State) : Host.Outcome State Fault Refusal :=
  match nextUp s with
  | .issue i s =>
    match prepare i s with
    | .run x s => exec x s
    | .stop r => r
  | .decide g s => .next (decideBeat g s)
  | .event x s => exec x s
  | .idle s => .next s

/-- The machine with a word where the next step issues it: core 0 slot 0, or segment 0 for a word that only a stream executes. -/
def State.withFetchWord (s : State) (nbits w : Nat) : State := placeWord s nbits w

end Sys2Proof.Machine
end

