-- ==== Sys2Proof/Safety.lean ====
section
/-! DEFINITION. The terms that claims about a word are made in: when it may issue, where it leaves its context, and what it changes. -/

namespace Sys2Proof.Machine

/-- A word that names these registers passes the checks of R56 that precede execution, none of its registers being bound to a port: the
word is issued for real by the context `c`, no order duty holds it, its registers lie in the allotment, its sources and its destination
are full, and no source is poisoned. -/
structure CanIssue (s : State) (c : Ctx) (u : Use) : Prop where
  ctx : curCtx s = some c
  real : s.cur.probe = false
  calm : c.portTrap = none
  free : heldByDuty c u = false
  unbound : ∀ r ∈ u.regs, portOf (my s) c r = none
  inside : ∀ r ∈ u.regs, r.toNat < c.size
  top : u.top < c.size
  full : ∀ r ∈ u.regs, (regEntry (my s) c r).full = true
  sound : ∀ r ∈ u.srcs, (regEntry (my s) c r).poison = false

/-- The value of a register of the issuing context. -/
def val (s : State) (c : Ctx) (r : Reg) : Word := (regEntry (my s) c r).val

/-- The context past its word (R50, R63 to R65): the next word, the next repetition of a run, or the word after the run's target. -/
def pastWord (i : Issue) (c : Ctx) : Ctx :=
  let c := { c with popped := none, cover := none, portTrap := none }
  match i.lane, i.rep with
  | .stream .., _ => { c with pc := i.pc + 4 }
  | _, none => { c with pc := i.pc + 4 }
  | _, some r =>
    if r.left ≤ 1 then { c with repc := 0, pc := r.p + 8 }
    else { c with repc := repcWord (r.i + 1) (r.left - 1), pc := r.p }

/-- Nothing changes but contexts, register files and the record of the rotation: no memory, no scratchpad, no accumulator, no queue, no
control register of a core, and nothing of the package. -/
def OnlyContexts (s t : State) : Prop :=
  t = { s with cores := t.cores } ∧
  ∀ k, getCore t k = { getCore s k with rf := (getCore t k).rf, ctxs := (getCore t k).ctxs, rot := (getCore t k).rot }

/-- The register files of `t` are those of `s`, but for register `d` of the context `c` of the word, which holds `e`; `g0` never changes
(R66). -/
def OneRegister (s t : State) (c : Ctx) (d : Reg) (e : RegEntry) : Prop :=
  ∀ k n, amGet (getCore t k).rf n =
    if k = coreOf (me s) ∧ d ≠ 0 ∧ n = c.base + d.toNat then some e else amGet (getCore s k).rf n

/-- The only context that changes is the word's, which becomes `c'`. -/
def OneContext (s t : State) (c' : Ctx) : Prop :=
  getCtx t (me s) = some c' ∧ ∀ id, id ≠ me s → getCtx t id = getCtx s id

/-- What a word that only writes a register does: `d` holds `v`, full and unpoisoned, `f` is ORed into the flags, the context goes on past
the word, and everything else is as before. -/
structure Wrote (s t : State) (c : Ctx) (d : Reg) (v : Word) (f : BitVec 5) : Prop where
  rest : OnlyContexts s t
  regs : OneRegister s t c d { val := v, full := true, poison := false }
  ctxs : OneContext s t (pastWord s.cur { c with fflags := c.fflags ||| f })

/-- The instruction completes with that effect. -/
def Gives (s : State) (i : Instr) (c : Ctx) (d : Reg) (v : Word) (f : BitVec 5) : Prop :=
  ∃ t, exec i s = .next t ∧ Wrote s t c d v f

/-! ## Words with further effects -/

/-- Around the contexts, the register files and the record of the rotation everything is as in the package `u`, but for the word's core,
which is as `o`, and the other cores, which are as before. -/
def Around (s t u : State) (o : Core) : Prop :=
  t = { u with cores := t.cores } ∧
  ∀ k, getCore t k = { (if k = coreOf (me s) then o else getCore s k) with
    rf := (getCore t k).rf, ctxs := (getCore t k).ctxs, rot := (getCore t k).rot }

/-- What a word does: the package becomes `u` and the word's core `o`, register `d` of the word's context `c` holds `e`, that context becomes
`c'`, and everything else is as before. -/
structure Did (s t : State) (c : Ctx) (u : State) (o : Core) (d : Reg) (e : RegEntry) (c' : Ctx) : Prop where
  around : Around s t u o
  regs : OneRegister s t c d e
  ctxs : OneContext s t c'

/-- The instruction completes with that effect. -/
def Does (s : State) (i : Instr) (c : Ctx) (u : State) (o : Core) (d : Reg) (e : RegEntry) (c' : Ctx) : Prop :=
  ∃ t, exec i s = .next t ∧ Did s t c u o d e c'

/-- The instruction completes, no register changes, and the context becomes `c'`. -/
def Leaves (s : State) (i : Instr) (c : Ctx) (u : State) (o : Core) (c' : Ctx) : Prop := Does s i c u o 0 RegEntry.zero c'

/-- A register with a value: full, and not poisoned. -/
def filled (v : Word) : RegEntry := { val := v, full := true, poison := false }

/-- A destination while its result is on its way (R70). -/
def emptied (s : State) (c : Ctx) (d : Reg) : RegEntry := { regEntry (my s) c d with full := false }

/-- The context held by its word (R172), which stands at `heldPc` for a trap or withdrawal. -/
def heldBy (s : State) (c : Ctx) (h : Hold) : Ctx :=
  { pastWord s.cur { c with heldPc := trapPc s, heldRepc := runOf s c } with
    status := .held h }

/-- The trap of a word is taken (R295): a context with a vector outside a handler goes on there, with the word's address, the cause and
`tval` saved, and no register, memory or other context changed. -/
def Traps (s : State) (i : Instr) (c : Ctx) (cause : Cause) (tval : Word) : Prop :=
  Leaves s i c s (my s)
    { c with repc := runOf s c,
             epc := trapPc s, tval := tval, tcause := causeWord cause, pc := c.tvec, status := .ready, popped := none, cover := none,
             portTrap := none }

/-- A barrel context that has a handler and is not in it (R294, R295). -/
structure HasHandler (s : State) (c : Ctx) : Prop where
  barrel : ∃ core slot others, s.cur.lane = .barrel core slot others
  vector : c.tvec ≠ 0
  outside : c.tcause.getLsbD 62 = false

/-- The context that goes on at `t` (R101, R102). In a row stream the sequencer orders the words: a target beyond the next word makes the
core skip what lies between, and any other has no effect (R103). -/
def jumpedTo (i : Issue) (t : Word) (c : Ctx) : Ctx :=
  match i.lane with
  | .stream .. =>
    if (i.pc + 4).toNat < t.toNat then { pastWord i c with skip := some (i.pc + 4, t) } else pastWord i c
  | _ => { c with pc := t, popped := none, cover := none, portTrap := none }

/-- An access of `n` bytes at `va` passes R89 and finds the page `p` with the rights that it needs (R90). -/
structure Reaches (s : State) (c : Ctx) (va : Word) (n : Nat) (rd wr : Bool) (p : Page) : Prop where
  aligned : va.toNat % n = 0
  canon : ∀ i, 47 ≤ i → i < 64 → va.getLsbD i = va.getLsbD 47
  page : pageEntry (my s) c.vmid va = some p
  reads : rd = true → p.rd = true
  writes : wr = true → p.wr = true

/-- A request leaves its core. -/
def sent (s : State) (r : Req) : State := { s with nextId := s.nextId + 1, reqs := s.reqs ++ [r] }

/-- An order duty comes on a context (R105). -/
def bound (c : Ctx) (x : Duty) : Ctx := { c with duties := c.duties ++ [x] }

/-- The store of a word enters the buffer of its core (R95). -/
def stored (s : State) (c : Ctx) (va : Word) (n : Nat) (v : Word) (p : Page) (rel : Option (BitVec 2)) : Core :=
  { my s with sbuf := (my s).sbuf ++ [{ id := s.nextId, ctx := me s, op := .store v, va := va, size := n, loc := p.loc va, page := p, rel := rel,
                                        pc := trapPc s, repc := runOf s c, node := c.node }] }

/-- The instruction answers the park of its context, with nothing else done (R13). -/
def Parks (s : State) (i : Instr) (w : Why) : Prop := exec i s = .next (parkNow s w)

/-! ## Matrix and copy words -/

/-- A product may enter the queue: there is room, the formats go together, and its rows and scales are aligned and below the home window
(R189, R250, R252, R257). -/
structure ProductOk (s : State) (c : Ctx) (sd : Bool) (d : Nat) (a b : Word) : Prop where
  room : mRoom (my s) (me s) = true
  formats : fmtOk c.mfmt d = true
  rows : ∀ r ∈ (mmaRanges c.mfmt c.mscla c.msclb sd d a b).1, r.1.toNat % 64 = 0 ∧ r.1.toNat + r.2 ≤ windowBase (my s)
  scales : ∀ r ∈ (mmaRanges c.mfmt c.mscla c.msclb sd d a b).2, r.1.toNat % 2 = 0 ∧ r.1.toNat + r.2 ≤ windowBase (my s)

/-- A move of an accumulator may enter the queue, but for the bank's last writer: there is room, its rows are aligned and canonical, and
their pages have the right that it needs (R255). -/
structure MoveOk (s : State) (c : Ctx) (wr : Bool) (a b : Word) : Prop where
  room : mRoom (my s) (me s) = true
  base : a.toNat % 64 = 0
  stride : b.toNat % 64 = 0
  rows : ∀ i, i < 32 → canonical (a + BitVec.ofNat 64 i * b) = true
  lines : ∀ j, j < 64 → ∃ p, pageEntry (my s) c.vmid (bankLine a b j) = some p ∧ (if wr then p.wr else p.rd) = true

/-- A range of a copy may be accessed: in the scratchpad it lies below the home window; in global memory it is canonical and its pages have
the right that it needs (R263). -/
structure RangeOk (s : State) (c : Ctx) (sp wr : Bool) (a : Word) (n : Nat) : Prop where
  aligned : a.toNat % 16 = 0
  below : sp = true → a.toNat + n ≤ windowBase (my s)
  canon : sp = false → notCanonical a n = none
  pages : sp = false → ∀ x ∈ rangePieces a n, ∃ p, pageEntry (my s) c.vmid x = some p ∧ (if wr then p.wr else p.rd) = true

/-- A copy may start: its channel is free, its ranges may be accessed, and no byte that it will write is lent (R263). -/
structure CopyOk (s : State) (c : Ctx) (fromSp toSp : Bool) (ch : Nat) (src dst : Word) (n : Nat) : Prop where
  channel : amGet (my s).chans ch = none
  source : RangeOk s c fromSp false src n
  destination : RangeOk s c toSp true dst n
  own : toSp = true → isLent (my s) dst.toNat n = false

/-- A subscription may start: its channel is free; its descriptor is aligned, on a page with the right to read, may be read at its home now,
and meets R265 with its ring below the home window; its tiles are canonical and their pages have the rights that they need; and the tenant
owns the loader of the stack that holds its source (R266, R338, R339). -/
structure SubOk (s : State) (c : Ctx) (pull : Bool) (ch : Nat) (va : Word) (p : Page) : Prop where
  channel : amGet (my s).chans ch = none
  reaches : Reaches s c va 64 true false p
  home : engineReady s (coreOf (me s)) p (homePlace s p va false) 64 (me s) (copyEngine (coreOf (me s))) s.nextId = true
  shape : (subDesc s p va).ok (my s) pull = true
  canon : ∀ a ∈ tiles (subDesc s p va).sbase (subDesc s p va).sstride (subDesc s p va).count ++
    (if pull then tiles (subDesc s p va).dbase (subDesc s p va).dstride (subDesc s p va).count else []),
    notCanonical a (subDesc s p va).slotb = none
  sources : ∀ a ∈ tiles (subDesc s p va).sbase (subDesc s p va).sstride (subDesc s p va).count, ∀ x ∈ rangePieces a (subDesc s p va).slotb,
    ∃ q, pageEntry (my s) c.vmid x = some q ∧ q.rd = true
  pulls : pull = true → ∀ a ∈ tiles (subDesc s p va).dbase (subDesc s p va).dstride (subDesc s p va).count,
    ∀ x ∈ rangePieces a (subDesc s p va).slotb, ∃ q, pageEntry (my s) c.vmid x = some q ∧ q.wr = true
  loader : ∀ q, pageEntry (my s) c.vmid (subDesc s p va).sbase = some q →
    ownsLoader s c.tslot (homePlace s q (subDesc s p va).sbase false) = true

/-! ## Fetching -/
/-- The word at `pc` is `w`: the core has the page with the right to execute it, its line was written under the page's key, and its four
bytes, least significant first, are those of the launch's image and have not been written since (R50, R100, R346). -/
structure Fetches (s : State) (core : Nat) (c : Ctx) (pc : Word) (w : W32) : Prop where
  canon : canonical pc = true
  page : ∃ p a, pageEntry (getCore s core) c.vmid pc = some p ∧ p.ex = true ∧ p.loc pc = .hbm a ∧ keyed s p.key a 4 = true ∧
    ∀ i, i < 4 → memGet s.mem (a + i) = w.extractLsb' (8 * i) 8 ∧ memGet (imageOf s c.node) (a + i) = w.extractLsb' (8 * i) 8

/-! ## The atomics of the table -/

/-- The atomics of global memory: function code, order class, instruction (R109). -/
def globalAtomics : List (AmoFn × Class × (Bool → Reg → Reg → Reg → Instr)) := List.flatten [
  [(0, .pl, .amoAdd), (1, .pl, .amoAnd), (2, .pl, .amoOr), (3, .pl, .amoXor), (4, .pl, .amoSwap), (5, .pl, .amoMin), (6, .pl, .amoMax),
   (7, .pl, .amoCas), (8, .pl, .amoMinu), (9, .pl, .amoMaxu), (10, .pl, .amoFaddD), (11, .pl, .amoFaddW), (12, .pl, .amoFaddH),
   (13, .pl, .amoBfadd)],
  [(0, .acq, .amoAddAcq), (1, .acq, .amoAndAcq), (2, .acq, .amoOrAcq), (3, .acq, .amoXorAcq), (4, .acq, .amoSwapAcq),
   (5, .acq, .amoMinAcq), (6, .acq, .amoMaxAcq), (7, .acq, .amoCasAcq), (8, .acq, .amoMinuAcq), (9, .acq, .amoMaxuAcq),
   (10, .acq, .amoFaddDAcq), (11, .acq, .amoFaddWAcq), (12, .acq, .amoFaddHAcq), (13, .acq, .amoBfaddAcq)],
  [(0, .rel, .amoAddRel), (1, .rel, .amoAndRel), (2, .rel, .amoOrRel), (3, .rel, .amoXorRel), (4, .rel, .amoSwapRel),
   (5, .rel, .amoMinRel), (6, .rel, .amoMaxRel), (7, .rel, .amoCasRel), (8, .rel, .amoMinuRel), (9, .rel, .amoMaxuRel),
   (10, .rel, .amoFaddDRel), (11, .rel, .amoFaddWRel), (12, .rel, .amoFaddHRel), (13, .rel, .amoBfaddRel)],
  [(0, .ar, .amoAddAr), (1, .ar, .amoAndAr), (2, .ar, .amoOrAr), (3, .ar, .amoXorAr), (4, .ar, .amoSwapAr), (5, .ar, .amoMinAr),
   (6, .ar, .amoMaxAr), (7, .ar, .amoCasAr), (8, .ar, .amoMinuAr), (9, .ar, .amoMaxuAr), (10, .ar, .amoFaddDAr), (11, .ar, .amoFaddWAr),
   (12, .ar, .amoFaddHAr), (13, .ar, .amoBfaddAr)]]

/-- The atomics of the scratchpad: function code, instruction (R114). -/
def scratchAtomics : List (AmoFn × (Bool → Reg → Reg → Reg → Instr)) :=
  [(0, .amosAdd), (1, .amosAnd), (2, .amosOr), (3, .amosXor), (4, .amosSwap), (5, .amosMin), (6, .amosMax), (7, .amosCas), (8, .amosMinu),
   (9, .amosMaxu), (10, .amosFaddD), (11, .amosFaddW), (12, .amosFaddH), (13, .amosBfadd)]

/-! ## Fences -/

/-- A word that names these registers is next of the context `c`, and nothing but an order duty or its operands can stop it before its own
checks: it is issued for real, none of its registers is bound to a port, and they lie in the allotment. -/
structure Comes (s : State) (c : Ctx) (u : Use) : Prop where
  ctx : curCtx s = some c
  real : s.cur.probe = false
  calm : c.portTrap = none
  unbound : ∀ r ∈ u.regs, portOf (my s) c r = none
  inside : ∀ r ∈ u.regs, r.toNat < c.size
  top : u.top < c.size

/-- Words that name the same registers. -/
def naming (u : Use) (js : List Instr) : List (Use × Instr) := js.map fun j => (u, j)

/-- Loads, stores, and the words that name two sources and write no register, of those that R105 and R115 speak of. -/
def accessWords (w k : Bool) (d a b : Reg) (i : BitVec 8) (z : BitVec 3) (y : BitVec 2) (n : BitVec 4) : List (Use × Instr) :=
  naming { srcs := [a], dst := some d, mem := true } [.ld i z d a, .ldBy i z d a, .ldAcq y i k d a, .lds i z d a] ++
  naming { srcs := [a, b], mem := true, store := true } [.st i y a b, .stRel y i k a b] ++
  naming { srcs := [a, b], mem := true } [.sts i y a b] ++
  naming { srcs := [a, b], w := w, mem := true }
    [.depAdd w a b, .depMax w a b, .depAddRel w a b, .depMaxRel w a b, .park w a b, .mma w k n a b, .mmaZ w k n a b, .mmaRotSd w k n a b,
     .mmaRotSdZ w k n a b, .mstc w k a b, .mldc w k a b, .cpyGg w y a b, .cpyGs w y a b, .cpySg w y a b, .cpySs w y a b, .cwait w a b] ++
  naming { srcs := [a], w := w, mem := true }
    [.ctab w a, .mmaRot w k n a, .mmaRotZ w k n a, .mwait w a, .cpySub w y a, .cpySubPull w y a, .cpySubRet w y a] ++
  naming { srcs := [a], dst := some d, w := w, mem := true } [.peek w d a] ++
  naming { srcs := [a, b], dst := some d, w := w, mem := true } [.sense w d a b] ++
  naming { srcs := [], dst := some d, mem := true } [.mcommit d] ++
  naming { srcs := [], mem := true } [.cfence]

/-- The vector words. -/
def vectorUses (w k : Bool) (d a b : Reg) (y : BitVec 2) : List (Use × Instr) :=
  naming { srcs := [a, b, d], w := w, mem := true }
    [.vadd k y w d a b, .vsub k y w d a b, .vmul k y w d a b, .vfma k y w d a b, .vminW w d a b, .vmaxW w d a b, .vminD w d a b, .vmaxD w d a b,
     .vcvtBd8S w d a b, .vcvtSBd8 w d a b, .vcvtBd4S w d a b, .vcvtSBd4 w d a b] ++
  naming { srcs := [a, d], w := w, mem := true } [.vcpy w d a, .vcvtHS w d a, .vcvtSH w d a, .vcvtBfS w d a, .vcvtSBf w d a]

/-- The words that access memory, scratchpad, a mark or an engine queue (R105, R115), with what each names, over the fields that their
forms have. -/
def memoryWords (w k : Bool) (d a b : Reg) (i : BitVec 8) (z : BitVec 3) (y : BitVec 2) (n : BitVec 4) : List (Use × Instr) :=
  accessWords w k d a b i z y n ++ vectorUses w k d a b y ++
  globalAtomics.map (fun x => (amoUse x.1 w d a b, x.2.2 w d a b)) ++ scratchAtomics.map (fun x => (amoUse x.1 w d a b, x.2 w d a b))

/-! ## What engines leave as it is -/

/-- Nothing changes but what the slices hold and count (R343, R344, R370): their lines, the tenants' counters and counts, and the supply of
free values. -/
def OnlyCounts (s t : State) : Prop := t = { s with tenants := t.tenants, lines := t.lines, free := t.free }

/-- Memory becomes `m`; besides it only counts, the slices' lines, poison, watches and claims change. -/
def OnlyStored (s t : State) (m : Memory) : Prop :=
  t = { s with mem := m, tenants := t.tenants, lines := t.lines, free := t.free, poisoned := t.poisoned, watches := t.watches, claims := t.claims }

/-! ## What every step keeps -/

/-- The memories are in their one form: that of the package, the scratchpad of every core, and the instruction images of the launches. -/
def MemoriesWf (s : State) : Prop :=
  s.mem.wf = true ∧ (∀ c, (getCore s c).sp.wf = true) ∧ ∀ x ∈ s.images, x.mem.wf = true

end Sys2Proof.Machine
end

