-- ==== Sys2Proof/Certificates/Slice0/Obligations.lean ====
section
/-! DEFINITION. What is claimed of the model, for the provers. -/

open Sys2Proof Sys2Proof.Machine

/-! ## Integer words -/

/-- R83, R84: every register form of the integer table completes, writes its table entry to `rd` and changes nothing else. -/
def Obligations.IntegerRegisterForms : Prop :=
  ∀ (s : State) (c : Ctx) (w : Bool) (d a b : Reg), CanIssue s c { srcs := [a, b], dst := some d, w := w, ports := true } →
    let x := val s c a
    let y := val s c b
    let n := y.toNat % 64
    Gives s (.add w d a b) c d (x + y) 0 ∧
    Gives s (.sub w d a b) c d (x - y) 0 ∧
    Gives s (.and w d a b) c d (x &&& y) 0 ∧
    Gives s (.or w d a b) c d (x ||| y) 0 ∧
    Gives s (.xor w d a b) c d (x ^^^ y) 0 ∧
    Gives s (.sll w d a b) c d (x <<< n) 0 ∧
    Gives s (.srl w d a b) c d (x >>> n) 0 ∧
    Gives s (.sra w d a b) c d (x.sshiftRight n) 0 ∧
    Gives s (.slt w d a b) c d (if x.toInt < y.toInt then 1 else 0) 0 ∧
    Gives s (.sltu w d a b) c d (if x.toNat < y.toNat then 1 else 0) 0 ∧
    Gives s (.min w d a b) c d (if y.toInt < x.toInt then y else x) 0 ∧
    Gives s (.max w d a b) c d (if x.toInt < y.toInt then y else x) 0 ∧
    Gives s (.minu w d a b) c d (if y.toNat < x.toNat then y else x) 0 ∧
    Gives s (.maxu w d a b) c d (if x.toNat < y.toNat then y else x) 0 ∧
    Gives s (.mul w d a b) c d (BitVec.ofInt 64 (x.toInt * y.toInt)) 0 ∧
    Gives s (.mulh w d a b) c d (BitVec.ofInt 64 (x.toInt * y.toInt / 2 ^ 64)) 0 ∧
    Gives s (.mulhu w d a b) c d (BitVec.ofNat 64 (x.toNat * y.toNat / 2 ^ 64)) 0 ∧
    Gives s (.mulhsu w d a b) c d (BitVec.ofInt 64 (x.toInt * (y.toNat : Int) / 2 ^ 64)) 0 ∧
    Gives s (.div w d a b) c d (if y = 0 then -1 else BitVec.ofInt 64 (x.toInt.tdiv y.toInt)) 0 ∧
    Gives s (.divu w d a b) c d (if y = 0 then -1 else BitVec.ofNat 64 (x.toNat / y.toNat)) 0 ∧
    Gives s (.rem w d a b) c d (if y = 0 then x else BitVec.ofInt 64 (x.toInt - y.toInt * x.toInt.tdiv y.toInt)) 0 ∧
    Gives s (.remu w d a b) c d (if y = 0 then x else BitVec.ofNat 64 (x.toNat % y.toNat)) 0

/-- R83, R85: the forms of one register. The counts are stated by the bits they count. -/
def Obligations.IntegerUnaryForms : Prop :=
  ∀ (s : State) (c : Ctx) (w : Bool) (d a : Reg), CanIssue s c { srcs := [a], dst := some d, w := w, ports := true } →
    let x := val s c a
    Gives s (.home w d a) c d (BitVec.ofNat 64 (coreOf (me s) / 1024 * 64 + x.toNat / 64 % 64)) 0 ∧
    (∃ n ≤ 64, (∀ i < n, x.getLsbD (63 - i) = false) ∧ (n < 64 → x.getLsbD (63 - n) = true) ∧
      Gives s (.clz w d a) c d (BitVec.ofNat 64 n) 0) ∧
    (∃ n ≤ 64, (∀ i < n, x.getLsbD i = false) ∧ (n < 64 → x.getLsbD n = true) ∧ Gives s (.ctz w d a) c d (BitVec.ofNat 64 n) 0) ∧
    Gives s (.popc w d a) c d (BitVec.ofNat 64 ((List.range 64).countP fun i => x.getLsbD i)) 0

/-- R86, R87: the immediate forms, with the sign-extended immediate; `lui` and `adpc`. -/
def Obligations.IntegerImmediateForms : Prop :=
  (∀ (s : State) (c : Ctx) (d a : Reg), CanIssue s c { srcs := [a], dst := some d, ports := true } →
     let x := val s c a
     (∀ i : BitVec 11,
       let y : Word := i.signExtend 64
       Gives s (.addi i d a) c d (x + y) 0 ∧
       Gives s (.andi i d a) c d (x &&& y) 0 ∧
       Gives s (.ori i d a) c d (x ||| y) 0 ∧
       Gives s (.xori i d a) c d (x ^^^ y) 0 ∧
       Gives s (.slti i d a) c d (if x.toInt < i.toInt then 1 else 0) 0 ∧
       Gives s (.sltiu i d a) c d (if x.toNat < y.toNat then 1 else 0) 0) ∧
     (∀ n : BitVec 6,
       Gives s (.slli n d a) c d (x <<< n.toNat) 0 ∧
       Gives s (.srli n d a) c d (x >>> n.toNat) 0 ∧
       Gives s (.srai n d a) c d (x.sshiftRight n.toNat) 0)) ∧
  (∀ (s : State) (c : Ctx) (d : Reg) (i : BitVec 18), CanIssue s c { srcs := [], dst := some d } →
     let v : Word := ((i.setWidth 32 : BitVec 32) <<< 14).signExtend 64
     Gives s (.lui i d) c d v 0 ∧ Gives s (.adpc i d) c d (s.cur.pc + v) 0)

/-! ## Branches, jumps and the repeat prefix -/

/-- R101, R103: a branch goes on at its target where its condition holds, and at the next word where it does not; nothing else changes. -/
def Obligations.Branches : Prop :=
  ∀ (s : State) (c : Ctx) (a b : Reg) (i : BitVec 11), CanIssue s c { srcs := [a, b] } →
    let x := val s c a
    let y := val s c b
    let goes := fun (taken : Prop) [Decidable taken] =>
      if taken then jumpedTo s.cur (s.cur.pc + BitVec.ofInt 64 (4 * i.toInt)) c else pastWord s.cur c
    Leaves s (.beq i a b) c s (my s) (goes (x = y)) ∧
    Leaves s (.bne i a b) c s (my s) (goes (x ≠ y)) ∧
    Leaves s (.blt i a b) c s (my s) (goes (x.toInt < y.toInt)) ∧
    Leaves s (.bge i a b) c s (my s) (goes (y.toInt ≤ x.toInt)) ∧
    Leaves s (.bltu i a b) c s (my s) (goes (x.toNat < y.toNat)) ∧
    Leaves s (.bgeu i a b) c s (my s) (goes (y.toNat ≤ x.toNat))

/-- R102, R103: a jump to a multiple of 4 links and goes on there, with the base read before the link is written; one to any other
address traps MISALIGN with that address (R50), and links nothing. -/
def Obligations.Jumps : Prop :=
  ∀ (s : State) (c : Ctx) (d : Reg),
    (∀ i : BitVec 18, CanIssue s c { srcs := [], dst := some d } →
      let t := s.cur.pc + BitVec.ofInt 64 (4 * i.toInt)
      (t.toNat % 4 = 0 → Does s (.jal i d) c s (my s) d (filled (s.cur.pc + 4)) (jumpedTo s.cur t c)) ∧
      (t.toNat % 4 ≠ 0 → HasHandler s c → Traps s (.jal i d) c .misalign t)) ∧
    (∀ (i : BitVec 11) (a : Reg), CanIssue s c { srcs := [a], dst := some d } →
      let t := val s c a + i.signExtend 64
      (t.toNat % 4 = 0 → Does s (.jalr i d a) c s (my s) d (filled (s.cur.pc + 4)) (jumpedTo s.cur t c)) ∧
      (t.toNat % 4 ≠ 0 → HasHandler s c → Traps s (.jalr i d a) c .misalign t))

/-- R63 to R65: a prefix whose count is 0 consumes both words; else the repetition that is due issues next: the target with its register
fields advanced by the stride of each, and with `rep.os` its offset by the width. An interrupted run resumes from `repc`. A target that may
not be repeated, or names a bound register where none may stand (R244), traps ILLOP, and then one whose registers leave the allotment traps
ALLOT. -/
def Obligations.RepeatPrefix : Prop :=
  ∀ (s : State) (c : Ctx) (ci : Bool) (x y z : BitVec 2) (n : Reg),
    let resumed := c.repc.getLsbD 63
    let i := if resumed then c.repc.toNat / 65536 % 65536 else 0
    let left := if resumed then c.repc.toNat % 65536 else if ci then n.toNat else (val s c n).toNat % 65536
    CanIssue s c (if ci || resumed then { srcs := [] } else { srcs := [n] }) →
    (left = 0 →
      Leaves s (.rep ci x y z n) c s (my s) { c with repc := 0, pc := s.cur.pc + 8 } ∧
      Leaves s (.repOs ci x y z n) c s (my s) { c with repc := 0, pc := s.cur.pc + 8 }) ∧
    (∀ w, left ≠ 0 → fetch s (coreOf (me s)) c.vmid c.node (s.cur.pc + 4) = (.ok w, s) →
      let goes := fun (os : Bool) (j : Instr) =>
        let r : Rep := { sa := z, sb := y, sc := x, os := os }
        let may := repTargetOk r w = true ∧ badPort (targetUse w) (my s) c = false
        (may → repBeyond r w c.size i left = false →
          Leaves s j c
            { s with issuing :=
                { s.cur with word := some (repWord r w i),
                             rep := some { p := s.cur.pc, i := i, left := left, off := repOffset r w i } } :: s.issuing }
            (my s) c) ∧
        (HasHandler s c →
          (¬ may → Traps s j c .illop (w.setWidth 64)) ∧ (may → repBeyond r w c.size i left = true → Traps s j c .allot (w.setWidth 64)))
      goes false (.rep ci x y z n) ∧ goes true (.repOs ci x y z n))

/-! ## Loads and stores -/

/-- R88, R91, R92: a load whose bytes the buffer or the L1 has completes with them, extended; one that the home must serve leaves its
destination empty and sends a request; one that a buffered store covers in part parks. `ld.by` never takes the L1's bytes. What the width codes make of the loaded bytes. -/
def Obligations.GlobalLoads : Prop :=
  (∀ (s : State) (c : Ctx) (i : BitVec 8) (z : BitVec 3) (d a : Reg) (p : Page), CanIssue s c { srcs := [a], dst := some d, mem := true } →
     let n := widthBytes z.toNat
     let va := memAddr s (val s c a) i n
     let fills := (p.home = .cached ∨ p.home = .slice) ∧ p.trail = none
     let goes := fun (l1 fill : Bool) (j : Instr) =>
       (∀ v, loadSource (my s) c p va n l1 = .value v → pendingAccess s (me s) = false →
         Does s j c s (my s) d (filled (extend z.toNat v)) (pastWord s.cur c)) ∧
       (loadSource (my s) c p va n l1 = .request →
         Does s j c (sent s (request s c (.load z.toNat fill) va n p d [])) (my s) d (emptied s c d) (pastWord s.cur c)) ∧
       (loadSource (my s) c p va n l1 = .wait → Parks s j .cover)
     Reaches s c va n true false p →
       (fills → goes true true (.ld i z d a)) ∧ (¬ fills → goes true false (.ld i z d a)) ∧ goes false false (.ldBy i z d a)) ∧
  (∀ v : Word,
     extend 0 v = (v.setWidth 8).signExtend 64 ∧ extend 1 v = (v.setWidth 16).signExtend 64 ∧ extend 2 v = (v.setWidth 32).signExtend 64 ∧
     extend 3 v = v ∧ (extend 4 v).toNat = v.toNat % 2 ^ 8 ∧ (extend 5 v).toNat = v.toNat % 2 ^ 16 ∧ (extend 6 v).toNat = v.toNat % 2 ^ 32)

/-- R107: the acquire load asks no L1, and one that the home serves binds later words of its context until it has its value (R105). -/
def Obligations.AcquireLoad : Prop :=
  ∀ (s : State) (c : Ctx) (h : BitVec 2) (i : BitVec 8) (z : Bool) (d a : Reg) (p : Page),
    CanIssue s c { srcs := [a], dst := some d, mem := true } →
    let n := if z then 8 else 4
    let w := if z then 3 else 2
    let va := memAddr s (val s c a) i n
    Reaches s c va n true false p →
      (∀ v, loadSource (my s) c p va n false = .value v → pendingAccess s (me s) = false →
        Does s (.ldAcq h i z d a) c s (my s) d (filled (extend w v)) (pastWord s.cur c)) ∧
      (loadSource (my s) c p va n false = .request →
        Does s (.ldAcq h i z d a) c (sent s (request s c (.load w false) va n p d [])) (my s) d (emptied s c d)
          (pastWord s.cur (bound c (.acq s.nextId)))) ∧
      (loadSource (my s) c p va n false = .wait → Parks s (.ldAcq h i z d a) .cover)

/-- R88, R91, R95, R107: a store goes into the buffer of its core, which holds 32; at a full buffer it parks. Memory has not changed. A load of the bytes that the
youngest store of the buffer covers has that store's bytes. -/
def Obligations.GlobalStores : Prop :=
  (∀ (s : State) (c : Ctx) (i : BitVec 8) (a b : Reg) (p : Page), CanIssue s c { srcs := [a, b], mem := true, store := true } →
     let goes := fun (n : Nat) (rel : Option (BitVec 2)) (j : Instr) =>
       let va := memAddr s (val s c a) i n
       Reaches s c va n false true p →
         (bufferUsed (my s) < 32 →
           Leaves s j c { s with nextId := s.nextId + 1 } (stored s c va n (val s c b) p rel) (pastWord s.cur c)) ∧
         (32 ≤ bufferUsed (my s) → Parks s j .buffer)
     (∀ z : BitVec 2, goes (2 ^ z.toNat) none (.st i z a b)) ∧
     (∀ (h : BitVec 2) (z : Bool), goes (if z then 8 else 4) (some h) (.stRel h i z a b))) ∧
  (∀ (k : Core) (c : Ctx) (p : Page) (va v : Word) (z : Nat) (l1 : Bool) (e : SbEntry),
     c.cover = none → e.op = .store v → e.size = widthBytes z → e.loc = p.loc va →
       loadSource { k with sbuf := k.sbuf ++ [e] } c p va (widthBytes z) l1 = .value (BitVec.ofNat 64 (v.toNat % 256 ^ widthBytes z)))

/-- R88, R97, R313: a scratchpad load reads at issue; over a poisoned granule it gives 0 and leaves a POISON trap to come (R94). -/
def Obligations.ScratchpadLoads : Prop :=
  ∀ (s : State) (c : Ctx) (i : BitVec 8) (z : BitVec 3) (d a : Reg), CanIssue s c { srcs := [a], dst := some d, mem := true } →
    let n := widthBytes z.toNat
    let va := memAddr s (val s c a) i n
    va.toNat % n = 0 → va.toNat + n ≤ windowBase (my s) →
      (spPoisoned (my s) va.toNat n = false →
        Does s (.lds i z d a) c s (my s) d (filled (extend z.toNat (BitVec.ofNat 64 (leNat (memBytes (my s).sp va.toNat n)))))
          (pastWord s.cur c)) ∧
      (spPoisoned (my s) va.toNat n = true →
        Does s (.lds i z d a) c s (my s) d (filled 0) (pastWord s.cur { c with pend := c.pend ++ [(BitVec.ofNat 8 Cause.poison.code, va)] }))

/-- R88, R97, R98: a scratchpad store writes at issue; outside its bytes the scratchpad is as before. -/
def Obligations.ScratchpadStores : Prop :=
  ∀ (s : State) (c : Ctx) (i : BitVec 8) (z : BitVec 2) (a b : Reg), CanIssue s c { srcs := [a, b], mem := true } →
    let n := 2 ^ z.toNat
    let va := memAddr s (val s c a) i n
    va.toNat % n = 0 → va.toNat + n ≤ windowBase (my s) → isLent (my s) va.toNat n = false →
    (4 ≤ n ∨ spPoisoned (my s) va.toNat n = false) → (my s).sp.wf = true →
      ∃ o : Core, Leaves s (.sts i z a b) c s o (pastWord s.cur c) ∧
        o = { my s with sp := o.sp, spPoison := o.spPoison } ∧
        ∀ x, memGet o.sp x =
          if va.toNat ≤ x ∧ x < va.toNat + n then BitVec.ofNat 8 ((val s c b).toNat / 256 ^ (x - va.toNat)) else memGet (my s).sp x

/-- R89, R97, R98: the traps of loads and stores, in the order of their checks. That a store narrower than a poisoned granule traps POISON is
the model's reading of R313 (log entry 9). -/
def Obligations.AccessTraps : Prop :=
  ∀ (s : State) (c : Ctx), HasHandler s c →
    let global := fun (n : Nat) (wr : Bool) (va : Word) (j : Instr) =>
      (va.toNat % n ≠ 0 → Traps s j c .misalign va) ∧
      (va.toNat % n = 0 → ¬ (∀ i, 47 ≤ i → i < 64 → va.getLsbD i = va.getLsbD 47) → Traps s j c .prot va) ∧
      (∀ p, va.toNat % n = 0 → (∀ i, 47 ≤ i → i < 64 → va.getLsbD i = va.getLsbD 47) → pageEntry (my s) c.vmid va = some p →
        (if wr then p.wr else p.rd) = false → Traps s j c .prot va)
    let scratch := fun (n : Nat) (wr : Bool) (va : Word) (j : Instr) =>
      (va.toNat % n ≠ 0 → Traps s j c .misalign va) ∧
      (va.toNat % n = 0 → windowBase (my s) < va.toNat + n → Traps s j c .prot va) ∧
      (va.toNat % n = 0 → va.toNat + n ≤ windowBase (my s) → wr = true → isLent (my s) va.toNat n = true → Traps s j c .oplent va) ∧
      (va.toNat % n = 0 → va.toNat + n ≤ windowBase (my s) → wr = true → isLent (my s) va.toNat n = false → n < 4 →
        spPoisoned (my s) va.toNat n = true → Traps s j c .poison va)
    (∀ (i : BitVec 8) (z : BitVec 3) (d a : Reg), CanIssue s c { srcs := [a], dst := some d, mem := true } →
      let n := widthBytes z.toNat
      let va := memAddr s (val s c a) i n
      global n false va (.ld i z d a) ∧ global n false va (.ldBy i z d a) ∧ scratch n false va (.lds i z d a)) ∧
    (∀ (i : BitVec 8) (z : BitVec 2) (a b : Reg), CanIssue s c { srcs := [a, b], mem := true, store := true } →
      global (2 ^ z.toNat) true (memAddr s (val s c a) i (2 ^ z.toNat)) (.st i z a b)) ∧
    (∀ (i : BitVec 8) (z : BitVec 2) (a b : Reg), CanIssue s c { srcs := [a, b], mem := true } →
      scratch (2 ^ z.toNat) true (memAddr s (val s c a) i (2 ^ z.toNat)) (.sts i z a b))

/-! ## Atomics, fences and mark operations -/

/-- R105, R109, R110: each of the 56 global atomics sends its operation to the home, leaves `rd` empty and lays its order duty on its
context; on a page of a trail field it traps TFIELD. The duty of an atomic with acquire makes every later
memory word wait; of one without, every later store. -/
def Obligations.GlobalAtomics : Prop :=
  (∀ x ∈ globalAtomics, ∀ (s : State) (c : Ctx) (w : Bool) (d a b : Reg) (p : Page), CanIssue s c (amoUse x.1 w d a b) →
     let va := val s c a
     let n := amoSize x.1
     Reaches s c va n true true p →
       (p.trail = none →
         Does s (x.2.2 w d a b) c
           (sent s (request s c (.amo x.1 (val s c b) (val s c d)) va n p d (classAfter s x.2.1 (me s) (p.loc va) n)))
           (my s) d (emptied s c d) (pastWord s.cur (bound c (classDuty x.2.1 s.nextId)))) ∧
       (p.trail ≠ none → HasHandler s c → Traps s (x.2.2 w d a b) c .tfield va)) ∧
  (∀ id : Nat, classDuty .pl id = .noStore id ∧ classDuty .rel id = .noStore id ∧ classDuty .acq id = .acq id ∧ classDuty .ar id = .acq id)

/-- R112: the integer functions of an atomic: what stands in memory after it, from the old value, the operand and the compare value. -/
def Obligations.AtomicFunctions : Prop :=
  ∀ old b c : Word,
    amoNew 0 old b c = (old.toNat + b.toNat) % 2 ^ 64 ∧ amoNew 1 old b c = (old &&& b).toNat ∧ amoNew 2 old b c = (old ||| b).toNat ∧
    amoNew 3 old b c = (old ^^^ b).toNat ∧ amoNew 4 old b c = b.toNat ∧
    (amoNew 5 old b c = old.toNat ∨ amoNew 5 old b c = b.toNat) ∧ (BitVec.ofNat 64 (amoNew 5 old b c)).toInt = Min.min old.toInt b.toInt ∧
    (amoNew 6 old b c = old.toNat ∨ amoNew 6 old b c = b.toNat) ∧ (BitVec.ofNat 64 (amoNew 6 old b c)).toInt = Max.max old.toInt b.toInt ∧
    amoNew 7 old b c = (if old = c then b.toNat else old.toNat) ∧
    amoNew 8 old b c = Min.min old.toNat b.toNat ∧ amoNew 9 old b c = Max.max old.toNat b.toNat ∧
    (amoWrites 7 old c = true ↔ old = c) ∧ ∀ f, f ≠ 7 → amoWrites f old c = true

/-- R114, R313: each of the 14 scratchpad atomics is performed at issue, and its old value is on its way to `rd`; a poisoned granule is
left as it stands. -/
def Obligations.ScratchpadAtomics : Prop :=
  ∀ x ∈ scratchAtomics, ∀ (s : State) (c : Ctx) (w : Bool) (d a b : Reg), CanIssue s c (amoUse x.1 w d a b) →
    let va := val s c a
    let n := amoSize x.1
    let old : Word := BitVec.ofNat 64 (leNat (memBytes (my s).sp va.toNat n))
    let bad := spPoisoned (my s) va.toNat n
    va.toNat % n = 0 → va.toNat + n ≤ windowBase (my s) → isLent (my s) va.toNat n = false →
      ∃ r : Req, r.id = s.nextId ∧ r.ctx = me s ∧ r.op = .amos ∧ r.rd = d ∧ r.done = true ∧ r.poison = bad ∧
        r.value = (if bad then 0 else old) ∧
        Does s (x.2 w d a b) c (sent s r)
          (if bad || !amoWrites x.1 old (val s c d) then my s
           else { my s with sp := memPut (my s).sp va.toNat (leBytes n (amoNew x.1 old (val s c b) (val s c d))) })
          d (emptied s c d) (pastWord s.cur c)

/-- R105, R115, R143: a fence issues, and its context goes on with the next word; from then on each word of the context that accesses
memory, scratchpad, a mark or an engine queue parks, until the fence's condition holds: then the fence is over, and not before. What the
condition of each of the four is, for the fence that took the number `upto`. -/
def Obligations.Fences : Prop :=
  (∀ (s : State) (c : Ctx), CanIssue s c { srcs := [] } →
     let goes := fun (scope : BitVec 2) (j : Instr) =>
       Leaves s j c { s with nextId := s.nextId + 1 } (my s) (pastWord s.cur (bound c (.fence scope s.nextId s.cur.pc)))
     goes 0 .fenceCore ∧ goes 1 .fenceDie ∧ goes 2 .fencePkg ∧ goes 3 .fenceDom) ∧
  (∀ (s : State) (c : Ctx) (scope : BitVec 2) (upto : Nat) (pc : Word), .fence scope upto pc ∈ c.duties →
     ∀ (w k : Bool) (d a b : Reg) (i : BitVec 8) (z : BitVec 3) (y : BitVec 2) (n : BitVec 4), ∀ x ∈ memoryWords w k d a b i z y n,
       Comes s c x.1 → Parks s x.2 .duty) ∧
  (∀ (s : State) (id upto : Nat),
     let valued := ∀ r ∈ s.reqs, r.ctx = id → r.id < upto → (∃ v, r.op = .store v) ∨ (r.done = true ∧ ∃ m f v, r.op = .dep m f v)
     let drained := ∀ e ∈ (getCore s (coreOf id)).sbuf, upto ≤ e.id
     let out := fun (r : Req) => r ∈ s.reqs ∧ coreOf r.ctx = coreOf id ∧ r.id < upto ∧ ∃ v, r.op = .store v
     (fenceMet s id 0 upto = true ↔ valued) ∧
     (fenceMet s id 1 upto = true ↔ valued ∧ drained) ∧
     (fenceMet s id 2 upto = true ↔ valued ∧ drained ∧ ∀ r, out r → leavesPackage s r.loc = true) ∧
     (fenceMet s id 3 upto = true ↔ valued ∧ drained ∧ ∀ r, ¬ out r)) ∧
  (∀ (s : State) (c : Ctx) (scope : BitVec 2) (upto : Nat) (pc : Word), getCtx s s.arg.id = some c → c.status = .ready →
     c.duties = [.fence scope upto pc] →
     (fenceMet s s.arg.id scope upto = false → exec .dutyMet s = .next s) ∧
     (fenceMet s s.arg.id scope upto = true → (scope = 3 → s.dropped = []) →
       ∃ t, exec .dutyMet s = .next t ∧ OnlyContexts s t ∧ (∀ j, (getCore t j).rf = (getCore s j).rf) ∧
         getCtx t s.arg.id = some { c with duties := [], domSeen := if scope = 3 then upto else c.domSeen }))

/-- R158, R159: a deposit on a mark page sends the low 16 bits of its operand to the slice; on any other page it traps TFIELD. -/
def Obligations.Deposits : Prop :=
  ∀ (s : State) (c : Ctx) (w : Bool) (a b : Reg) (p : Page), CanIssue s c { srcs := [a, b], w := w, mem := true } →
    let va := val s c a
    let goes := fun (most : Bool) (cls : Machine.Class) (j : Instr) =>
      (markPage s c p va = true →
        Leaves s j c
          (sent s (request s c (.dep most (p.trail.getD 0) ((val s c b).setWidth 16)) va 4 p 0 (classAfter s cls (me s) (p.loc va) 4)))
          (my s) (pastWord s.cur (bound c (.noStore s.nextId)))) ∧
      (markPage s c p va = false → HasHandler s c → Traps s j c .tfield va)
    Reaches s c va 4 true true p →
      goes false .pl (.depAdd w a b) ∧ goes true .pl (.depMax w a b) ∧ goes false .rel (.depAddRel w a b) ∧ goes true .rel (.depMaxRel w a b)

/-- R158, R159: `peek` and `sense` on a mark page send their request and leave `rd` empty; on any other page they trap TFIELD. -/
def Obligations.MarkReads : Prop :=
  ∀ (s : State) (c : Ctx) (w : Bool) (d a : Reg) (p : Page),
    let va := val s c a
    let goes := fun (n : Nat) (op : ReqOp) (j : Instr) =>
      Reaches s c va n true false p →
      (markPage s c p va = true →
        Does s j c (sent s (request s c op va n p d (bufferedIds (my s) (p.loc va) n))) (my s) d (emptied s c d) (pastWord s.cur c)) ∧
      (markPage s c p va = false → HasHandler s c → Traps s j c .tfield va)
    (CanIssue s c { srcs := [a], dst := some d, w := w, mem := true } → goes 4 (.peek (p.trail.getD 0)) (.peek w d a)) ∧
    ∀ b, CanIssue s c { srcs := [a, b], dst := some d, w := w, mem := true } →
      goes 64 (.sense (p.trail.getD 0) ((val s c b).setWidth 16)) (.sense w d a b)

/-! ## Floating point, special functions and vectors -/

/-- R229, R231: the arithmetic of both precisions: the code that the exact value rounds to, zero-extended, and its flags ORed into the
sticky ones. -/
def Obligations.FloatArithmetic : Prop :=
  ∀ (s : State) (c : Ctx) (p : Bool) (r : BitVec 2) (w : Bool) (d a : Reg),
    let f := if p then fp64 else fp32
    let m := roundingOf r
    let x := (val s c a).toNat
    let goes := fun (j : Instr) (v : Nat × FFlags) => Gives s j c d (BitVec.ofNat 64 v.1) v.2
    (CanIssue s c { srcs := [a], dst := some d, w := w, ports := true } → goes (.fsqrt p r w d a) (fSqrt f m x)) ∧
    ∀ b : Reg,
      let y := (val s c b).toNat
      let z := (val s c d).toNat
      (CanIssue s c { srcs := [a, b], dst := some d, w := w, ports := true } →
        goes (.fadd p r w d a b) (fAdd f m x y) ∧ goes (.fsub p r w d a b) (fSub f m x y) ∧ goes (.fmul p r w d a b) (fMul f m x y) ∧
        goes (.fdiv p r w d a b) (fDiv f m x y)) ∧
      (CanIssue s c { srcs := [a, b, d], dst := some d, w := w, ports := true } →
        goes (.fma p r w d a b) (fFma f m false x y z) ∧ goes (.fnma p r w d a b) (fFma f m true x y z))

/-- R232: comparison, sign and class. The sign forms are stated by their bits: `fsgnj` takes all but the sign from its first operand. -/
def Obligations.FloatComparison : Prop :=
  ∀ (s : State) (c : Ctx) (w : Bool) (d a : Reg),
    let x := (val s c a).toNat
    let goes := fun (j : Instr) (v : Nat × FFlags) => Gives s j c d (BitVec.ofNat 64 v.1) v.2
    (CanIssue s c { srcs := [a], dst := some d, w := w, ports := true } →
      goes (.fclassW w d a) (fClass fp32 x, 0) ∧ goes (.fclassD w d a) (fClass fp64 x, 0)) ∧
    ∀ b : Reg, CanIssue s c { srcs := [a, b], dst := some d, w := w, ports := true } →
      let y := (val s c b).toNat
      goes (.fminW w d a b) (fMinMax fp32 false x y) ∧ goes (.fminD w d a b) (fMinMax fp64 false x y) ∧
      goes (.fmaxW w d a b) (fMinMax fp32 true x y) ∧ goes (.fmaxD w d a b) (fMinMax fp64 true x y) ∧
      goes (.feqW w d a b) (fCompare fp32 true (fun o => o == 0) x y) ∧ goes (.feqD w d a b) (fCompare fp64 true (fun o => o == 0) x y) ∧
      goes (.fltW w d a b) (fCompare fp32 false (fun o => decide (o < 0)) x y) ∧
      goes (.fltD w d a b) (fCompare fp64 false (fun o => decide (o < 0)) x y) ∧
      goes (.fleW w d a b) (fCompare fp32 false (fun o => decide (o ≤ 0)) x y) ∧
      goes (.fleD w d a b) (fCompare fp64 false (fun o => decide (o ≤ 0)) x y) ∧
      goes (.fsgnjW w d a b) (x % 2 ^ 31 + y / 2 ^ 31 % 2 * 2 ^ 31, 0) ∧ goes (.fsgnjD w d a b) (x % 2 ^ 63 + y / 2 ^ 63 % 2 * 2 ^ 63, 0) ∧
      goes (.fsgnjnW w d a b) (x % 2 ^ 31 + (1 - y / 2 ^ 31 % 2) * 2 ^ 31, 0) ∧
      goes (.fsgnjnD w d a b) (x % 2 ^ 63 + (1 - y / 2 ^ 63 % 2) * 2 ^ 63, 0)

/-- R221, R233: the conversions between formats, and to and from integers. -/
def Obligations.FloatConversion : Prop :=
  ∀ (s : State) (c : Ctx) (r : BitVec 2) (w : Bool) (d a : Reg), CanIssue s c { srcs := [a], dst := some d, w := w, ports := true } →
    let x := val s c a
    let m := roundingOf r
    let goes := fun (j : Instr) (v : Nat × FFlags) => Gives s j c d (BitVec.ofNat 64 v.1) v.2
    let whole := fun (j : Instr) (v : Int × FFlags) => Gives s j c d (BitVec.ofInt 64 v.1) v.2
    goes (.cvtSD r w d a) (fConvert fp64 fp32 m x.toNat) ∧ goes (.cvtHS r w d a) (fConvert fp32 fp16 m x.toNat) ∧
    goes (.cvtBfS r w d a) (fConvert fp32 bf16 m x.toNat) ∧ goes (.cvtDS w d a) (fConvert fp32 fp64 .rne x.toNat) ∧
    goes (.cvtSH w d a) (fConvert fp16 fp32 .rne x.toNat) ∧ goes (.cvtSBf w d a) (fConvert bf16 fp32 .rne x.toNat) ∧
    goes (.cvtSL r w d a) (fFromInt fp32 m x.toInt) ∧ goes (.cvtDL r w d a) (fFromInt fp64 m x.toInt) ∧
    goes (.cvtDLu r w d a) (fFromInt fp64 m x.toNat) ∧
    whole (.cvtLS r w d a) (fToInt fp32 m (-2 ^ 63) (2 ^ 63 - 1) x.toNat) ∧
    whole (.cvtLD r w d a) (fToInt fp64 m (-2 ^ 63) (2 ^ 63 - 1) x.toNat) ∧ whole (.cvtLuD r w d a) (fToInt fp64 m 0 (2 ^ 64 - 1) x.toNat)

/-- R215, R216, R218: rounding changes no value that a format holds: in each format and mode, the exact value of a code that is neither
zero nor special rounds to that code, with no flag. -/
def Obligations.RoundingExact : Prop :=
  ∀ f ∈ [fp64, fp32, fp16, bf16], ∀ (mode : Rounding) (code : Nat) (sign : Bool) (m : Nat) (e : Int),
    code < 2 ^ (f.ew + f.fw + 1) → unpack f code = .fin sign m e → m ≠ 0 → roundTo f mode sign m e = (code, 0)

/-- R185, R239: a special function takes a credit and sends its operand to the octet's unit, or parks where the 8 credits are taken. -/
def Obligations.SpecialFunctions : Prop :=
  ∀ (s : State) (c : Ctx) (w : Bool) (d a : Reg), CanIssue s c { srcs := [a], dst := some d, w := w } →
    let unit := octetOf (coreOf (me s))
    let was := amGetD {} s.octets unit
    let goes := fun (fn : Nat) (j : Instr) =>
      let r : SfuReq := { id := s.nextId, ctx := me s, rd := d, fn := fn, x := (val s c a).setWidth 32, accepted := false }
      ((my s).sfuUsed < 8 →
        Does s j c { s with nextId := s.nextId + 1, octets := amSet s.octets unit { was with reqs := was.reqs ++ [r] } }
          { my s with sfuUsed := (my s).sfuUsed + 1 } d (emptied s c d) (pastWord s.cur c)) ∧
      (8 ≤ (my s).sfuUsed → Parks s j .credit)
    goes 0 (.sfuExp2 w d a) ∧ goes 1 (.sfuLog2 w d a) ∧ goes 2 (.sfuRcp w d a) ∧ goes 3 (.sfuRsq w d a) ∧ goes 4 (.sfuSin w d a) ∧
    goes 5 (.sfuCos w d a) ∧ goes 6 (.sfuTanh w d a) ∧ goes 7 (.sfuSigm w d a)

/-- R235, R237: a vector word of no elements has no effect; any other that passes its checks goes to the core's vector unit with its
operands, and holds its context; one that fails a check traps. -/
def Obligations.VectorWords : Prop :=
  ∀ (s : State) (c : Ctx) (w : Bool) (d a b : Reg),
    let goes := fun (op f3 : Nat) (b : Reg) (j : Instr) =>
      let x := val s c a
      let y := val s c b
      let z := val s c d
      let cmd : VCmd := { ctx := me s, op := op, f3 := f3, rd := d, ra := a, rb := b, d := z.toNat, a := x.toNat, b := y.toNat,
                          len := c.vlen.toNat, frm := c.frm, step := 0, flags := 0, e0 := 0, e1 := 0 }
      (c.vlen = 0 → Leaves s j c s (my s) (pastWord s.cur c)) ∧
      (c.vlen ≠ 0 → vVerdict op f3 z x y s (my s) c = .go → Leaves s j c s { my s with vq := (my s).vq ++ [cmd] } (heldBy s c .vector)) ∧
      (∀ cause tval, vVerdict op f3 z x y s (my s) c = .trap cause tval → HasHandler s c → Traps s j c cause tval)
    (CanIssue s c { srcs := [a, b, d], w := w, mem := true } →
      (∀ (p : Bool) (r : BitVec 2),
        let f3 := (if p then 4 else 0) + r.toNat
        goes 0x40 f3 b (.vadd p r w d a b) ∧ goes 0x41 f3 b (.vsub p r w d a b) ∧ goes 0x42 f3 b (.vmul p r w d a b) ∧
        goes 0x43 f3 b (.vfma p r w d a b)) ∧
      goes 0x44 0 b (.vminW w d a b) ∧ goes 0x44 1 b (.vmaxW w d a b) ∧ goes 0x44 2 b (.vminD w d a b) ∧ goes 0x44 3 b (.vmaxD w d a b) ∧
      goes 0x45 4 b (.vcvtBd8S w d a b) ∧ goes 0x45 5 b (.vcvtSBd8 w d a b) ∧ goes 0x45 6 b (.vcvtBd4S w d a b) ∧
      goes 0x45 7 b (.vcvtSBd4 w d a b)) ∧
    (CanIssue s c { srcs := [a, d], w := w, mem := true } →
      goes 0x44 4 0 (.vcpy w d a) ∧ goes 0x45 0 0 (.vcvtHS w d a) ∧ goes 0x45 1 0 (.vcvtSH w d a) ∧ goes 0x45 2 0 (.vcvtBfS w d a) ∧
      goes 0x45 3 0 (.vcvtSBf w d a))

/-! ## Threads, groups and waits -/

/-- R117 to R119, R126, R128, R161: `spawn`, `go`, `bar`, `tsig` and `tick` that pass their checks hold their context for what they owe
(R172), and carry it out at once where its duty is met. -/
def Obligations.OwingWords : Prop :=
  ∀ (s : State) (c : Ctx) (w : Bool) (d a b : Reg),
    let x := val s c a
    let goes := fun (o : Owed) (j : Instr) =>
      ∃ t, Did s t c s (my s) 0 RegEntry.zero (heldBy s c (.owe o s.nextId)) ∧ exec j s = .next (tryOwed t (me s))
    (CanIssue s c { srcs := a :: fiveFrom b, dst := some d, w := w, top := b.toNat + 4 } → placeVerdict x s (my s) c = .go →
      goes (.spawn d (placeCore x s) x (spawnWords s b c)) (.spawn w d a b)) ∧
    (CanIssue s c { srcs := [a, 1, 2, 3, 4, 5, 6, 7], w := w } → anyBound c.smap = false → noMatrix s (me s) = true →
      placeVerdict x s (my s) c = .go → grantOf s c.tslot (placeCore x s) ≠ 0 → goes (.go (placeCore x s) x (goWords s c)) (.go w a)) ∧
    (CanIssue s c { srcs := [a], dst := some d, w := w } → x.toNat / 2 ^ 12 = 0 → goes (.bar d x.toNat) (.bar w d a)) ∧
    (CanIssue s c { srcs := [a], w := w } → x.toNat / 2 ^ 10 = 0 → goes (.tsig x) (.tsig w a)) ∧
    (CanIssue s c { srcs := [a], w := w } →
      let f := getField s c.tslot (x.toNat % 64)
      f.open_ = true → f.src = false → goes (.tick x) (.tick w a))

/-- R117 to R119, R126, R127, R161: what is owed waits for its duty, and then is carried out: a continuation leaves for its core, a
context arrives at its group unless it is benched, and a tick request takes its place. -/
def Obligations.OwedCarriedOut : Prop :=
  ∀ (s : State) (cid : Nat) (c : Ctx) (o : Owed) (upto : Nat), getCtx s cid = some c → c.status = .held (.owe o upto) →
    (owedMet s cid o upto = false → tryOwed s cid = s) ∧
    (owedMet s cid o upto = true →
      let leaves := fun (isGo : Bool) (core : Nat) (a : Word) (ws : List Word) (h : Hold) =>
        let f : Flight := { id := s.nextId, core := core, cont := contFrom c ws, sender := .ctx cid, isGo := isGo, addr := a }
        setCtx { s with nextId := s.nextId + 1, flights := s.flights ++ [f] } cid { c with status := .held h }
      (∀ d core a ws, o = .spawn d core a ws → tryOwed s cid = leaves false core a ws (.spawn d s.nextId)) ∧
      (∀ core a ws, o = .go core a ws → tryOwed s cid = leaves true core a ws (.go s.nextId)) ∧
      (∀ d h, o = .bar d h → c.benched = true → tryOwed s cid = s) ∧
      (∀ d h, o = .bar d h → c.benched = false → (getGroup s c.tslot h).members = 0 →
        tryOwed s cid = setCtx s cid { c with status := .held (.answer d (allOnes 64)) }) ∧
      (∀ n, o = .tsig n → tryOwed s cid = setCtx s cid { c with status := .held (.tsig n) }) ∧
      (∀ x, o = .tick x → (getField s c.tslot (x.toNat % 64)).open_ = true → (getField s c.tslot (x.toNat % 64)).src = false →
        getCtx (tryOwed s cid) cid = some { c with status := .held (.tick (x.toNat % 64)) } ∧
        (getField (tryOwed s cid) c.tslot (x.toNat % 64)).queue = (getField s c.tslot (x.toNat % 64)).queue ++ [cid]))

/-- R123, R124: `join` attaches its context, counts it unless it only attaches, and holds for its answer: 1 where the context is in a
group, 2 where the group is full, 0 else. -/
def Obligations.Join : Prop :=
  ∀ (s : State) (c : Ctx) (w : Bool) (d a : Reg), CanIssue s c { srcs := [a], dst := some d, w := w } →
    let x := val s c a
    let h := x.toNat % 2 ^ 12
    let g := getGroup s c.tslot h
    let inside := { c with grp := some (BitVec.ofNat 16 h) }
    x.toNat / 2 ^ 12 % 2 ^ 51 = 0 →
      (c.grp ≠ none → Leaves s (.join w d a) c s (my s) (heldBy s c (.answer d 1))) ∧
      (c.grp = none → x.getLsbD 63 = true → Leaves s (.join w d a) c s (my s) (heldBy s inside (.answer d 0))) ∧
      (c.grp = none → x.getLsbD 63 = false → g.members = allOnes 32 →
        Leaves s (.join w d a) c s (my s) (heldBy s c (.answer d 2))) ∧
      (c.grp = none → x.getLsbD 63 = false → g.members ≠ allOnes 32 →
        Leaves s (.join w d a) c (setGroup s c.tslot h { g with members := g.members + 1 }) (my s) (heldBy s inside (.answer d 0)))

/-- R123, R125: `leave` holds for its answer: 1 of a group without members, else 0, and the context and one member leave the group. -/
def Obligations.Leave : Prop :=
  ∀ (s : State) (c : Ctx) (w : Bool) (d a : Reg), CanIssue s c { srcs := [a], dst := some d, w := w } →
    let x := val s c a
    let h := x.toNat % 2 ^ 12
    x.toNat / 2 ^ 12 = 0 →
      ((getGroup s c.tslot h).members = 0 → Leaves s (.leave w d a) c s (my s) (heldBy s c (.answer d 1))) ∧
      ((getGroup s c.tslot h).members ≠ 0 →
        ∃ t, Did s t c s (my s) 0 RegEntry.zero { c with grp := if c.grp = some (BitVec.ofNat 16 h) then none else c.grp } ∧
          exec (.leave w d a) s = .next (holdNow (.answer d 0) (leaveGroup t c.tslot h)))

/-- R123, R128: a handle or a node index with bits that must be zero traps PROT. -/
def Obligations.HandleTraps : Prop :=
  ∀ (s : State) (c : Ctx) (w : Bool) (d a : Reg), HasHandler s c →
    let x := val s c a
    (CanIssue s c { srcs := [a], dst := some d, w := w } →
      (x.toNat / 2 ^ 12 % 2 ^ 51 ≠ 0 → Traps s (.join w d a) c .prot x) ∧
      (x.toNat / 2 ^ 12 ≠ 0 → Traps s (.leave w d a) c .prot x ∧ Traps s (.bar w d a) c .prot x)) ∧
    (CanIssue s c { srcs := [a], w := w } → x.toNat / 2 ^ 10 ≠ 0 → Traps s (.tsig w a) c .prot x)

/-- R122: `park` ends at once where its word differs, watches its line where it does not, and asks the home where no buffered store has
the bytes. -/
def Obligations.Park : Prop :=
  ∀ (s : State) (c : Ctx) (w : Bool) (a b : Reg) (p : Page), CanIssue s c { srcs := [a, b], w := w, mem := true } →
    let va := val s c a
    let want := val s c b
    Reaches s c va 8 true false p →
      (p.trail ≠ none → HasHandler s c → Traps s (.park w a b) c .tfield va) ∧
      (p.trail = none → pendingAccess s (me s) = false → ∀ v, loadSource (my s) c p va 8 false = .value v →
        (v ≠ want → Leaves s (.park w a b) c s (my s) (pastWord s.cur c)) ∧
        (v = want → Leaves s (.park w a b) c (watchLine s (me s) (p.loc va)) (my s) (heldBy s c (.park none (p.loc va))))) ∧
      (p.trail = none → loadSource (my s) c p va 8 false = .request →
        Leaves s (.park w a b) c (sent s (request s c (.parkRead want) va 8 p 0 [])) (my s)
          (heldBy s c (.park (some s.nextId) (p.loc va))))

/-- R120: `quit` holds its context until its results have returned, its matrix commands are complete and its release is met, and then
the context ends. -/
def Obligations.Quit : Prop :=
  ∀ (s : State) (c : Ctx), CanIssue s c { srcs := [] } →
    ∃ t, Did s t c s (my s) 0 RegEntry.zero (heldBy s c (.quit s.nextId)) ∧
      exec .quit s = .next (if mayEnd s (me s) s.nextId then endCtx t (me s) else t)

/-- R121, R138, R268, R269: `yield` passes its next turn; `cfence` and `cwait` go on where what they wait for is over, and hold their
context where it is not. -/
def Obligations.YieldAndWaits : Prop :=
  ∀ (s : State) (c : Ctx),
    (CanIssue s c { srcs := [] } → Leaves s .yield c s (my s) (pastWord s.cur { c with yields := 1 })) ∧
    (CanIssue s c { srcs := [], mem := true } →
      Leaves s .cfence c s (my s) (if copiesDone (my s) (me s) then pastWord s.cur c else heldBy s c .cfence)) ∧
    (∀ (w : Bool) (a b : Reg), CanIssue s c { srcs := [a, b], w := w, mem := true } →
      let ch := (val s c a).toNat % 4
      let x := val s c b
      Leaves s (.cwait w a b) c s (my s) (if cwaitDone (my s) ch x then pastWord s.cur c else heldBy s c (.cwait ch x)))

/-! ## Stream ports, the code table, the row sequencer -/

/-- R243: a binding that passes its checks writes the descriptor's address, and the direction, to its register and names it in `smap`;
`sunbind` takes it out; one of a register beyond the allotment traps. -/
def Obligations.StreamBindings : Prop :=
  ∀ (s : State) (c : Ctx),
    (∀ (w : Bool) (d a : Reg), CanIssue s c { srcs := [a], dst := some d, w := w } → bindVerdict d (val s c a) s (my s) c = .go →
      let into := pastWord s.cur { c with smap := bindField c.smap d }
      Does s (.sbindIn w d a) c s (my s) d (filled (val s c a)) into ∧ Does s (.sbindOut w d a) c s (my s) d (filled (val s c a + 1)) into) ∧
    (∀ d : Reg, CanIssue s c { srcs := [] } →
      (d.toNat < c.size → Leaves s (.sunbind d) c s (my s) (pastWord s.cur { c with smap := unbindField c.smap d })) ∧
      (c.size ≤ d.toNat → HasHandler s c → Traps s (.sunbind d) c .allot (curWord s)))

/-- R241: `ctab` takes the 16 bytes at its operand, which must be aligned and below the home window. -/
def Obligations.CodeTable : Prop :=
  ∀ (s : State) (c : Ctx) (w : Bool) (a : Reg), CanIssue s c { srcs := [a], w := w, mem := true } →
    let x := val s c a
    (x.toNat % 16 ≠ 0 → HasHandler s c → Traps s (.ctab w a) c .misalign x) ∧
    (x.toNat % 16 = 0 → windowBase (my s) < x.toNat + 16 → HasHandler s c → Traps s (.ctab w a) c .prot x) ∧
    (x.toNat % 16 = 0 → x.toNat + 16 ≤ windowBase (my s) →
      Leaves s (.ctab w a) c s { my s with ctab := some x.toNat, ctabBytes := memBytes (my s).sp x.toNat 16 } (pastWord s.cur c))

/-- R72, R194, R199, R201, R202: the sequencer's words change its segment and nothing else. `k0` reads as zero and takes no value. -/
def Obligations.SequencerWords : Prop :=
  ∀ (s : State) (k : Nat) (g : Seg), s.cur.lane = .sequencer k → getSeg s k = some g →
    let leaves := fun (j : Instr) (g' : Seg) => exec j s = .next (setSeg s k g')
    let gives := fun (d : KReg) (j : Instr) (v : Word) =>
      leaves j { g with pc := g.pc + 4, k := if d = 0 then g.k else amSet g.k d.toNat v }
    let goes := fun (taken : Bool) (i : Int) (g : Seg) =>
      if taken then { g with pc := g.pc + BitVec.ofInt 64 (4 * i), bubbles := 1 } else { g with pc := g.pc + 4 }
    (∀ d a b : KReg,
      let x := kreg g a
      let y := kreg g b
      gives d (.kadd d a b) (x + y) ∧ gives d (.ksub d a b) (x - y) ∧ gives d (.kand d a b) (x &&& y) ∧ gives d (.kor d a b) (x ||| y) ∧
      gives d (.kxor d a b) (x ^^^ y) ∧ gives d (.ksll d a b) (x <<< (y.toNat % 64)) ∧ gives d (.ksrl d a b) (x >>> (y.toNat % 64)) ∧
      gives d (.kmul d a b) (x * y)) ∧
    (∀ (i : BitVec 11) (a b : KReg),
      gives a (.kaddi i a b) (kreg g b + i.signExtend 64) ∧
      leaves (.kbeq i a b) (goes (kreg g a = kreg g b) i.toInt g) ∧ leaves (.kbne i a b) (goes (kreg g a ≠ kreg g b) i.toInt g) ∧
      leaves (.kloop i a) (goes (kreg g a ≠ 1) i.toInt { g with k := if a = 0 then g.k else amSet g.k a.toNat (kreg g a - 1) })) ∧
    (∀ i : BitVec 18, leaves (.kj i) (goes true i.toInt g)) ∧
    leaves .rend { g with pc := g.pc + 4, phase := .ending false }

/-- R203: in a row stream a predicate joins the answer of its row, by `or` or by `and`; a barrel context traps ILLOP (R59). -/
def Obligations.RowPredicates : Prop :=
  ∀ (s : State) (c : Ctx) (w : Bool) (d : KReg) (a : Reg), CanIssue s c { srcs := [a], w := w } →
    let p := val s c a != 0
    (∀ n pos core slot g, s.cur.lane = .stream n pos core slot → getSeg s n = some g →
      let u := setSeg s n { g with rowWait := g.rowWait.map fun (k, any, acc, left) => (k, any, if any then acc || p else acc && p, left) }
      Leaves s (.rowany w d a) c u (my s) (pastWord s.cur c) ∧ Leaves s (.rowall w d a) c u (my s) (pastWord s.cur c)) ∧
    (HasHandler s c → Traps s (.rowany w d a) c .illop (curWord s) ∧ Traps s (.rowall w d a) c .illop (curWord s))

/-! ## Control registers, traps and invalidation -/

/-- R74 to R76, R299: a control-register word that passes its checks answers the old value; where it writes, the register takes the new
one: `csrrw` the operand, `csrs` with its bits set, `csrc` with its bits cleared. A read of `energy` returns the low half and copies the high half to `energyh`. What the control
registers read as. -/
def Obligations.ControlRegisters : Prop :=
  (∀ (s : State) (c : Ctx) (n : BitVec 11) (d : Reg) (old : Word), csrValue s (me s) c n.toNat = some old →
     let u := if n = 0x102 then { s with free := s.free + 16 } else s
     let c' := if n = 0x104 then { c with energyh := (getTenant s c.tslot).energy.extractLsb' 32 32 } else c
     let goes := fun (f : CsrWrite) (x : Word) (j : Instr) =>
       csrVerdict f n.toNat x s c = .go →
         Does s j c u (my s) d (filled old) (pastWord s.cur (if f.writes x then csrPut n.toNat (f.value n.toNat old x) c' else c'))
     (CanIssue s c { srcs := [], dst := some d } → goes .none 0 (.csrr n d)) ∧
     (∀ a : Reg, CanIssue s c { srcs := [a], dst := some d } →
       goes .all (val s c a) (.csrrw n d a) ∧ goes .set (val s c a) (.csrs n d a) ∧ goes .clear (val s c a) (.csrc n d a))) ∧
  (∀ (s : State) (id : Nat) (c : Ctx),
     let v := fun (n : Nat) (x : Word) => csrValue s id c n = some x
     v 0x000 (BitVec.ofNat 64 id) ∧ v 0x001 (c.vmid.setWidth 64) ∧ v 0x003 (c.prio.setWidth 64) ∧ v 0x005 (c.smap.setWidth 64) ∧
     v 0x010 (c.fflags.setWidth 64) ∧ v 0x011 (c.frm.setWidth 64) ∧ v 0x012 (c.vlen.setWidth 64) ∧ v 0x020 (c.mfmt.setWidth 64) ∧
     v 0x021 (c.mscla.setWidth 64) ∧ v 0x022 (c.msclb.setWidth 64) ∧ v 0x080 c.tvec ∧ v 0x081 c.tcause ∧ v 0x082 c.tval ∧ v 0x083 c.epc ∧
     v 0x084 c.repc ∧ v 0x100 s.time ∧ v 0x103 (getTenant s c.tslot).purse ∧
     v 0x104 (((getTenant s c.tslot).energy.extractLsb' 0 32).setWidth 64) ∧ v 0x105 (c.energyh.setWidth 64) ∧ v 0x106 (s.hottest.setWidth 64) ∧
     csrValue s id c 0x006 = none ∧ csrValue s id c 0x013 = none ∧ csrValue s id c 0x107 = none ∧ csrValue s id c 0x7FF = none)

/-- R74, R299: a number that R75 does not list traps ILLOP, and so does a write to a read-only register. -/
def Obligations.ControlRegisterTraps : Prop :=
  ∀ (s : State) (c : Ctx) (n : BitVec 11) (d : Reg), HasHandler s c →
    (csrValue s (me s) c n.toNat = none →
      (CanIssue s c { srcs := [], dst := some d } → Traps s (.csrr n d) c .illop (curWord s)) ∧
      (∀ a : Reg, CanIssue s c { srcs := [a], dst := some d } →
        Traps s (.csrrw n d a) c .illop (curWord s) ∧ Traps s (.csrs n d a) c .illop (curWord s) ∧
        Traps s (.csrc n d a) c .illop (curWord s))) ∧
    (csrReserved n.toNat = none → ∀ a : Reg, CanIssue s c { srcs := [a], dst := some d } →
      Traps s (.csrrw n d a) c .illop (curWord s) ∧
      (val s c a ≠ 0 → Traps s (.csrs n d a) c .illop (curWord s) ∧ Traps s (.csrc n d a) c .illop (curWord s)))

/-- R295, R297: `ecall` and `break` trap at their word; `tret` leaves the handler for the word that `epc` names. -/
def Obligations.TrapWords : Prop :=
  ∀ (s : State) (c : Ctx), CanIssue s c { srcs := [] } →
    (HasHandler s c → Traps s .ecall c .ecall (curWord s) ∧ Traps s .brk c .brk (curWord s)) ∧
    Leaves s .tret c s (my s) { c with tcause := c.tcause &&& ~~~(1 <<< 62 : Word), pc := c.epc }

/-- R309, R310: an invalidation joins those under way and holds its context; the two for tenant 0 trap PROT elsewhere. -/
def Obligations.Invalidations : Prop :=
  ∀ (s : State) (c : Ctx),
    let goes := fun (op : Nat) (vmid : BitVec 16) (addr : Word) (j : Instr) =>
      let t : Tlbi := { id := s.nextId, op := op, vmid := vmid, addr := addr, ctx := some (me s), upto := s.nextId, sent := false }
      Leaves s j c { s with nextId := s.nextId + 1, tlbis := s.tlbis ++ [t] } (my s) (heldBy s c (.tlbi s.nextId))
    (∀ (w : Bool) (a : Reg), CanIssue s c { srcs := [a], w := w } → goes 0 c.vmid (val s c a) (.tlbiVa w a)) ∧
    (CanIssue s c { srcs := [] } → goes 1 c.vmid 0 .tlbiVmid) ∧
    (∀ (w : Bool) (a b : Reg), CanIssue s c { srcs := [a, b], w := w } →
      (c.tslot = 0 → goes 2 ((val s c b).setWidth 16) (val s c a) (.tlbiS2 w a b)) ∧
      (c.tslot ≠ 0 → HasHandler s c → Traps s (.tlbiS2 w a b) c .prot (curWord s))) ∧
    (CanIssue s c { srcs := [] } →
      (c.tslot = 0 → goes 3 0 0 .tlbiAll) ∧ (c.tslot ≠ 0 → HasHandler s c → Traps s .tlbiAll c .prot (curWord s)))

/-! ## Steps and the power hint -/

/-- R193, R323, R325, R328, R329: a `dline` that names a handler opens its step; `prog` moves the progress of an open step on, and closes it
at its end; the hint of `pwr.hint` is its operand's low bits. The deadline has not passed, or the step has a prediction of its own; and the
header's page does not ask for zeroing (R308). The reads of the header's walk are charged and counted for the tenant (R343, R344). -/
def Obligations.StepWords : Prop :=
  ∀ (s : State) (c : Ctx) (w : Bool) (a : Reg),
    (∀ d b : Reg, CanIssue s c { srcs := [d, a, b], w := w } → handlerVerdict (val s c b) s c = .go → s.time.toNat ≤ (val s c d).toNat →
      (∀ l, stage1 s (getTenant s c.tslot) (val s c b - 64) = .ok l → l.entry.getLsbD 54 = false) →
      let u := chargeWalk s c.tslot (val s c b - 64)
      ∃ r, Leaves s (.dline w d a b) c { s with free := s.free + 8, tenants := u.tenants } { my s with step := some r } (pastWord s.cur c) ∧
        ((getTenant s c.tslot).rate = 0 → (getTenant s c.tslot).counters = [] → u.tenants = s.tenants) ∧
        r.id = (val s c a).extractLsb' 48 16 ∧ r.deadline = val s c d ∧ r.work = (val s c a).extractLsb' 0 48 ∧ r.handler = val s c b ∧
        r.ctx = me s ∧ r.tslot = c.tslot ∧ r.t0 = s.time ∧ r.p = 0 ∧ r.tl = s.time ∧ r.drisk = false) ∧
    (CanIssue s c { srcs := [a], w := w } →
      ((my s).step = none → Leaves s (.prog w a) c s (my s) (pastWord s.cur c)) ∧
      (∀ r, (my s).step = some r → r.work.toNat ≤ (val s c a).toNat →
        Leaves s (.prog w a) c s { my s with step := none } (pastWord s.cur c)) ∧
      (∀ r, (my s).step = some r → (val s c a).toNat < r.work.toNat → val s c a ≠ 0 ∨ s.time.toNat ≤ r.deadline.toNat →
        Leaves s (.prog w a) c s { my s with step := some { r with p := val s c a, tl := s.time } } (pastWord s.cur c)) ∧
      Leaves s (.pwrHint w a) c s { my s with hint := (val s c a).extractLsb' 0 2 } (pastWord s.cur c))

/-! ## Matrix and copy words -/

/-- R187 to R189, R248, R250, R256: a product whose command has room, whose formats go together, and whose rows and scales are aligned and
below the home window enters the queue in the open batch, and the context goes on at once; the bank's last writer is that batch. It waits for room in the
queue; with room, formats that do not go together trap ILLOP. -/
def Obligations.MatrixProducts : Prop :=
  (∀ (s : State) (c : Ctx) (w k : Bool) (n : BitVec 4) (a b : Reg),
     let x := val s c a
     let goes := fun (kind : MKind) (sd z : Bool) (y : Word) (j : Instr) =>
       ProductOk s c sd (8 * (n.toNat + 1)) x y →
         let m := mCapture s c s.nextId kind k sd z (8 * (n.toNat + 1)) x y
         let writer : Option Writer := some { ctx := me s, batch := nextBatch c.committed }
         let o := { my s with mq := (my s).mq ++ [m] }
         Leaves s j c { s with nextId := s.nextId + 1 } (if k then { o with last1 := writer } else { o with last0 := writer }) (pastWord s.cur c)
     (CanIssue s c { srcs := [a, b], w := w, mem := true } →
       goes .mma true false (val s c b) (.mma w k n a b) ∧ goes .mma true true (val s c b) (.mmaZ w k n a b) ∧
       goes .rot true false (val s c b) (.mmaRotSd w k n a b) ∧ goes .rot true true (val s c b) (.mmaRotSdZ w k n a b)) ∧
     (CanIssue s c { srcs := [a], w := w, mem := true } →
       goes .rot false false 0 (.mmaRot w k n a) ∧ goes .rot false true 0 (.mmaRotZ w k n a))) ∧
  (∀ (s : State) (c : Ctx) (w k : Bool) (n : BitVec 4) (a b : Reg),
     let stops := fun (j : Instr) =>
       (mRoom (my s) (me s) = false → Parks s j .queue) ∧
       (mRoom (my s) (me s) = true → fmtOk c.mfmt (8 * (n.toNat + 1)) = false → HasHandler s c → Traps s j c .illop (curWord s))
     (CanIssue s c { srcs := [a, b], w := w, mem := true } →
       stops (.mma w k n a b) ∧ stops (.mmaZ w k n a b) ∧ stops (.mmaRotSd w k n a b) ∧ stops (.mmaRotSdZ w k n a b)) ∧
     (CanIssue s c { srcs := [a], w := w, mem := true } → stops (.mmaRot w k n a) ∧ stops (.mmaRotZ w k n a)))

/-- R191, R255, R256: `mstc` and `mldc` enter the queue behind the bank's last batch. An `mstc` claims its lines; an `mldc` is the bank's
last writer. A last writer whose batch is open traps ACCHAZ. -/
def Obligations.AccumulatorMoves : Prop :=
  ∀ (s : State) (c : Ctx) (w k : Bool) (a b : Reg), CanIssue s c { srcs := [a, b], w := w, mem := true } →
    let x := val s c a
    let y := val s c b
    let page := fun j => (pageEntry (my s) c.vmid (bankLine x y j)).getD (pageIn [] c.vmid x)
    let cmd := fun (kind : MKind) =>
      { mCapture s c s.nextId kind k false false 0 x y with
        pages := (List.range 64).map page, after := afterIds (my s) (if k then (my s).last1 else (my s).last0) }
    (MoveOk s c true x y → writerOpen s (if k then (my s).last1 else (my s).last0) = false →
      let claim : SbEntry :=
        { id := s.nextId, ctx := me s, op := .claim s.nextId, va := x, size := 0, loc := (page 0).loc x, page := page 0, rel := none }
      let lines := (List.range 64).map fun j => homePlace s (((List.range 64).map page).getD j (pageIn [] c.vmid x)) (bankLine x y j) true
      Leaves s (.mstc w k a b) c
        { s with nextId := s.nextId + 1,
                 claims := s.claims ++
                   [{ cmd := s.nextId, engine := matrixEngine (coreOf (me s)), lines := lines.map Loc.line, performed := false }] }
        { my s with mq := (my s).mq ++ [cmd .mstc], sbuf := (my s).sbuf ++ [claim] } (pastWord s.cur c)) ∧
    (MoveOk s c false x y → writerOpen s (if k then (my s).last1 else (my s).last0) = false →
      let writer : Option Writer := some { ctx := me s, batch := nextBatch c.committed }
      let o := { my s with mq := (my s).mq ++ [cmd .mldc] }
      Leaves s (.mldc w k a b) c { s with nextId := s.nextId + 1 } (if k then { o with last1 := writer } else { o with last0 := writer })
        (pastWord s.cur c)) ∧
    (∀ wr, MoveOk s c wr x y → writerOpen s (if k then (my s).last1 else (my s).last0) = true → HasHandler s c →
      Traps s (if wr then .mstc w k a b else .mldc w k a b) c .acchaz (curWord s))

/-- R189, R190: `mcommit` closes the context's batch and answers its id; no other context changes, but that parked words are tried again and
waits that are over end.
`mwait` goes on once the batch that its operand names is complete, and holds its context until then; an id that names no committed batch
traps ACCHAZ. -/
def Obligations.Batches : Prop :=
  (∀ (s : State) (c : Ctx) (d : Reg), CanIssue s c { srcs := [], dst := some d, mem := true } → c.status = .ready →
     let b := nextBatch c.committed
     ∃ t, exec (.mcommit d) s = .next t ∧
       Around s t s (my s) ∧ OneRegister s t c d (filled (b.setWidth 64)) ∧
       getCtx t (me s) = some (pastWord s.cur (refreshBatch (my s) (me s) { c with committed := b })) ∧
       ∀ id, id ≠ me s → (getCtx t id).map (fun x => { x with status := .ready }) = (getCtx s id).map fun x => { x with status := .ready }) ∧
  (∀ (s : State) (c : Ctx) (w : Bool) (a : Reg), CanIssue s c { srcs := [a], w := w, mem := true } →
     let x := (val s c a).extractLsb' 0 32
     let known := x = 0 ∨ (c.committed ≠ 0 ∧ batchDist c.committed x < 2 ^ 31)
     (known → batchDone c x = true → Leaves s (.mwait w a) c s (my s) (pastWord s.cur c)) ∧
     (known → batchDone c x = false → Leaves s (.mwait w a) c s (my s) (heldBy s c (.mwait x))) ∧
     (¬ known → HasHandler s c → Traps s (.mwait w a) c .acchaz (val s c a)))

/-- R123, R136, R137, R262, R263: a copy of no bytes does nothing; a copy that may start takes its channel, counts its bytes in the group of
its context, claims the global lines that it will write, and sets the channel's pointer where it writes the scratchpad. -/
def Obligations.Copies : Prop :=
  ∀ (s : State) (c : Ctx) (w : Bool) (ch : BitVec 2) (a b : Reg), CanIssue s c { srcs := [a, b], w := w, mem := true } →
    let src := val s c a
    let dst := ((val s c b).extractLsb' 0 48).signExtend 64
    let n := 16 * ((val s c b).toNat / 2 ^ 48)
    let pages := fun x => pagesOf (my s) c (rangePieces x n)
    let starts := fun (fromSp toSp : Bool) (j : Instr) =>
      (n = 0 → Leaves s j c s (my s) (pastWord s.cur c)) ∧
      (n ≠ 0 → CopyOk s c fromSp toSp ch.toNat src dst n →
        let dest := if toSp then [] else pages dst
        let x : Chan :=
          { id := s.nextId, ctx := some (me s), node := c.node, tslot := c.tslot, kind := .copy, srcSp := fromSp, dstSp := toSp, src := src,
            dst := dst, len := n, done := 0, group := c.grp, srcPages := if fromSp then [] else pages src, dstPages := dest }
        let claim : SbEntry :=
          { id := s.nextId, ctx := me s, op := .claim s.nextId, va := dst, size := 0, loc := (pageIn dest c.vmid dst).loc dst,
            page := pageIn dest c.vmid dst, rel := none }
        let lines := (rangeLines dst n).map fun v => (homePlace s (pageIn dest c.vmid v) v true).line
        let taken : Claim := { cmd := s.nextId, engine := copyEngine (coreOf (me s)), lines := lines, performed := false }
        let u := { s with nextId := s.nextId + 1, claims := if toSp then s.claims else s.claims ++ [taken] }
        let u := match c.grp with
          | some h => setGroup u c.tslot h.toNat
              { getGroup s c.tslot h.toNat with pending := (getGroup s c.tslot h.toNat).pending + BitVec.ofNat 64 n }
          | none => u
        Leaves s j c u
          { my s with chans := amSet (my s).chans ch.toNat x,
                      cwp := if toSp then amSet (my s).cwp ch.toNat dst.toNat else (my s).cwp,
                      sbuf := if toSp then (my s).sbuf else (my s).sbuf ++ [claim] } (pastWord s.cur c)) ∧
      (n ≠ 0 → (amGet (my s).chans ch.toNat).isSome = true → Parks s j .queue)
    starts false false (.cpyGg w ch a b) ∧ starts false true (.cpyGs w ch a b) ∧ starts true false (.cpySg w ch a b) ∧
    starts true true (.cpySs w ch a b)

/-- R137, R265 to R267: a subscription whose descriptor passes the checks of R266 takes its channel with nothing landed, and sets the
channel's pointer to its ring; one that pulls claims the lines of its tiles. One whose channel is taken waits; one whose descriptor does not
meet R265 traps PROT. `cpy.sub.ret` retires tiles that have landed. -/
def Obligations.Subscriptions : Prop :=
  ∀ (s : State) (c : Ctx) (w : Bool) (ch : BitVec 2) (a : Reg), CanIssue s c { srcs := [a], w := w, mem := true } →
    (let starts := fun (pull : Bool) (j : Instr) =>
      let va := val s c a
      (∀ p, SubOk s c pull ch.toNat va p →
        let f := subDesc s p va
        let v := touch s (dieOf (coreOf (me s))) (homePlace s p va false) p .read 64
        let dsts := if pull then tiles f.dbase f.dstride f.count else []
        let dest := pagesOf (my s) c (dsts.flatMap fun x => rangePieces x f.slotb)
        let x : Chan :=
          { id := s.nextId, ctx := some (me s), node := c.node, tslot := c.tslot, kind := .sub pull, srcSp := false, dstSp := true,
            src := f.sbase, dst := f.dbase, len := 0, done := 0, group := none,
            srcPages := pagesOf (my s) c ((tiles f.sbase f.sstride f.count).flatMap fun x => rangePieces x f.slotb), dstPages := dest,
            desc := va, sstride := f.sstride, dstride := f.dstride, count := f.count, slotb := f.slotb, slots := f.slots, ring := f.ring,
            landed := 0, retired := 0, pulled := 0 }
        let claim : SbEntry :=
          { id := s.nextId, ctx := me s, op := .claim s.nextId, va := f.dbase, size := 0, loc := (pageIn dest c.vmid f.dbase).loc f.dbase,
            page := pageIn dest c.vmid f.dbase, rel := none }
        let lines := (dsts.flatMap fun x => (rangeLines x f.slotb).map fun y => homePlace v (pageIn dest c.vmid y) y true).map Loc.line
        let taken : Claim := { cmd := s.nextId, engine := copyEngine (coreOf (me s)), lines := lines, performed := false }
        OnlyCounts s v ∧
        Leaves s j c { v with free := v.free + 8, nextId := s.nextId + 1, claims := if pull then s.claims ++ [taken] else s.claims }
          { my s with chans := amSet (my s).chans ch.toNat x, cwp := amSet (my s).cwp ch.toNat f.ring,
                      sbuf := if pull then (my s).sbuf ++ [claim] else (my s).sbuf } (pastWord s.cur c)) ∧
      ((amGet (my s).chans ch.toNat).isSome = true → Parks s j .queue) ∧
      (∀ p, amGet (my s).chans ch.toNat = none → Reaches s c va 64 true false p →
        engineReady s (coreOf (me s)) p (homePlace s p va false) 64 (me s) (copyEngine (coreOf (me s))) s.nextId = true →
        (subDesc s p va).ok (my s) pull = false → HasHandler s c → Traps s j c .prot va)
    starts false (.cpySub w ch a) ∧ starts true (.cpySubPull w ch a)) ∧
    (∀ x pull, amGet (my s).chans ch.toNat = some x → x.kind = .sub pull →
      (x.retired + (val s c a).toNat ≤ x.landed →
        Leaves s (.cpySubRet w ch a) c s
          { my s with chans := amSet (my s).chans ch.toNat { x with retired := x.retired + (val s c a).toNat } } (pastWord s.cur c)) ∧
      (x.landed < x.retired + (val s c a).toNat → HasHandler s c → Traps s (.cpySubRet w ch a) c .prot (val s c a))) ∧
    (amGet (my s).chans ch.toNat = none → HasHandler s c → Traps s (.cpySubRet w ch a) c .prot (val s c a))

/-! ## Encoding and stepping -/

/-- R50 to R58: for each instruction that a word encodes, decoding its word gives it back, with every operand at every value that is well
formed; and a word that decodes at all is the word of the instruction that it decodes to, which is well formed: no bit of a word goes unread,
and no field that must be zero is anything else. -/
def Obligations.RoundTrip : Prop :=
  (∀ i : Instr, i.wellFormed = true → ∀ v, encode i = some v → decode v = some i) ∧
  ∀ (v : W32) (i : Instr), decode v = some i → i.wellFormed = true ∧ encode i = some v

/-- R51, R58, R60: words written out from the formats, and those of the table of worked encodings. -/
def Obligations.SampleWords : Prop :=
  decode 0x010044A2 = some (.amoAdd false 9 1 8) ∧ decode 0x00624505 = some (.andi 3 10 9) ∧ decode 0x00C28508 = some (.slli 6 10 10) ∧
  decode 0x10A285A0 = some (.ldAcq 2 16 true 11 10) ∧ decode 0xFFE24599 = some (.bne (-1) 11 9) ∧
  decode 0x10A285A1 = some (.stRel 2 16 true 10 11) ∧ decode 0x11628291 = some (.ldBy 17 3 5 10) ∧
  decode 0x00A0C180 = some (.add false 3 3 5) ∧ decode 0x10A0C180 = some (.add true 3 3 5) ∧ decode 0x20000061 = some .quit ∧
  decode 0b0000000001_1_0_01_10_11_0000101_1111111 = none ∧ decode 0b0000000000_1_0_01_10_11_0000101_1111111 = some (.rep true 1 2 3 5) ∧
  decode 0b100_1_0000011_0000010_0000001_0110000 = some (.fadd true 0 true 1 2 3) ∧
  decode 0x00C14553 = some (.cpyGs false 2 5 6) ∧ decode 0x0101D9D0 = some (.mmaZ false true 3 7 8) ∧
  decode 0b00000000001_000_0010_000_0001_1101001 = some (.kaddi 1 1 2) ∧ decode 0 = none ∧ decode 4 = some (.addi 0 0 0)

/-- R57, R59: the reserved major opcodes and the word of zeros are no instructions; a context that issues a word that is none, or one that only
a row stream may issue, traps ILLOP, with the word in `tval`. -/
def Obligations.IllegalWords : Prop :=
  (∀ v : W32, (v.toNat % 128 ∈ [0x0F, 0x15, 0x16, 0x17, 0x2F, 0x3F] ∨ (0x49 ≤ v.toNat % 128 ∧ v.toNat % 128 ≤ 0x4F) ∨
      (0x55 ≤ v.toNat % 128 ∧ v.toNat % 128 ≤ 0x5F) ∨ (0x64 ≤ v.toNat % 128 ∧ v.toNat % 128 ≤ 0x67) ∨
      (0x78 ≤ v.toNat % 128 ∧ v.toNat % 128 ≤ 0x7E) ∨ v = 0) → decode v = none) ∧
  (∀ (s : State) (i : Issue) (rest : List Issue) (core slot : Nat) (others : List Nat) (c : Ctx) (w : W32),
    s.fw.inReset = false → s.issuing = i :: rest → i.lane = .barrel core slot others → i.probe = false → i.word = none → i.rep = none →
    getCtx s (ctxId core slot) = some c → c.pend = [] → c.tvec ≠ 0 → c.tcause.getLsbD 62 = false → Fetches s core c i.pc w →
    (decode w = none ∨ (0x68 ≤ w.toNat % 128 ∧ w.toNat % 128 ≤ 0x6F)) →
      let u := { s with issuing := rest, cur := { i with word := some w } }
      ∃ t, step s = .next t ∧
        Did u t c u (my u) 0 RegEntry.zero
          { c with epc := i.pc, tval := w.setWidth 64, tcause := causeWord .illop, pc := c.tvec, status := .ready, popped := none,
                   cover := none, portTrap := none })

/-- R50, R56, R94, R100, R171, R198, R199: a step runs the decoded instruction. A word due to issue at a barrel is the four bytes at its
address; one of a row stream or a sequencer was fetched by the sequencer. With no word due, the next event of the agenda happens at its time;
with none, a core of the model's choice has a cycle (log entries 4 and 6 say what of this is the model's). -/
def Obligations.StepRunsWord : Prop :=
  ∀ s : State, s.fw.inReset = false → s.frozen = false →
    (∀ (i : Issue) (rest : List Issue) (x : Instr) (w : W32), s.issuing = i :: rest →
      let u := { s with issuing := rest, cur := { i with word := some w } }
      (∀ core slot others c, i.lane = .barrel core slot others → i.word = none → i.rep = none → getCtx s (ctxId core slot) = some c →
        c.pend = [] → Fetches s core c i.pc w → decode w = some x → ¬ (0x68 ≤ w.toNat % 128 ∧ w.toNat % 128 ≤ 0x6F) → step s = exec x u) ∧
      (∀ n pos core slot c, i.lane = .stream n pos core slot → i.rep = none → getCtx s (ctxId core slot) = some c → c.pend = [] →
        i.word = some w → decode w = some x → step s = exec x u) ∧
      (∀ n, i.lane = .sequencer n → i.word = some w → decode w = some x → step s = exec x u)) ∧
    (∀ (d : Due) (rest : List Due), s.issuing = [] → s.agenda = d :: rest → encode d.ev = none →
      step s = exec d.ev { s with agenda := rest, arg := d.arg, time := s.time + BitVec.ofNat 64 d.dt }) ∧
    (s.issuing = [] → s.agenda = [] → step s = exec .barrelCycle { s with arg := { unit := s.idleCore } })

/-- R73, R338, R347: what reset leaves: tenant 0 alone, with VMID 0 and every resource; key 0 alone, with VMID 0; no context; accumulators of
zeros; no store to any memory.
That memory which nothing has written reads as zero is the model's choice (log entry 1). -/
def Obligations.ResetValues : Prop :=
  let s := State.reset
  (getTenant s 0).en = true ∧ (getTenant s 0).vmid = 0 ∧
  (∀ i, i < 128 → (getTenant s 0).rows.getLsbD i = true ∧ (getTenant s 0).slices.getLsbD i = true) ∧
  (∀ i, i < 256 → (getTenant s 0).channels.getLsbD i = true) ∧ (∀ i, i < 11 → (getTenant s 0).engines.getLsbD i = true) ∧
  (∀ n, n ≠ 0 → (getTenant s n).en = false) ∧ amGet s.vault 0 = some 0 ∧ (∀ n, n ≠ 0 → amGet s.vault n = none) ∧
  (∀ id, getCtx s id = none) ∧ (∀ k i, amGetD 0 (getCore s k).a0 i = 0 ∧ amGetD 0 (getCore s k).a1 i = 0) ∧ MemoriesWf s ∧ s.mem = []

/-- R9, R73, R74 as the model holds them: every step keeps the memories in their one form, so that equal memories are equal data (log entry 1
names that form, which is the model's). -/
def Obligations.MemoriesKeepForm : Prop := ∀ s t : State, MemoriesWf s → step s = .next t → MemoriesWf t

/-! ## The engines' own steps -/

/-- R186, R188, R213, R236, R245, R246, R249, R253, R254, R257, R258, R261, R264, R266, R267: what the units of a core do by themselves, each with
its whole effect where nothing stands in its way, and with none where something does: the SFU takes a waiting request; a row enters a latch; the
vector unit does a step of its word; the matrix engine starts, restarts or pre-empts a command, performs a group, moves a line and ends a command;
a copy moves its last 16 bytes and ends; a tile of a subscription lands and is carried back; a stream unit pops and pushes.
When such an event happens, and the operands it comes with, are the model's agenda (log entry 6). -/
def Obligations.EngineEvents : Prop :=
  ∀ s : State,
    let n := s.arg.unit
    let k := getCore s n
    -- the special function unit of octet `n`
    (let o : Octet := amGetD {} s.octets n
     (∀ (j : Nat) (r : SfuReq), j < 8 → coreStopped s (8 * n) = false ∨ (getRow s (n / 2)).point ≠ 0 →
        let pos := fun (i : Nat) => (o.last + 1 + i) % 8
        (∀ i < j, ∀ x ∈ o.reqs, x.accepted = false → coreOf x.ctx % 8 ≠ pos i) →
        o.reqs.find? (fun x => !x.accepted && coreOf x.ctx % 8 == pos j) = some r →
        let served : Octet := { last := pos j, reqs := o.reqs.map fun x => if x.id = r.id then { x with accepted := true } else x }
        exec .sfuAccept s = .next { s with octets := amSet s.octets n served }) ∧
     ((∀ x ∈ o.reqs, x.accepted = true) → exec .sfuAccept s = .next s)) ∧
    -- the operand latch
    (∀ r rest, k.inbound = r :: rest →
      (k.latch.length < 128 → exec .latchRowArrive s = .next (setCore s n { k with latch := k.latch ++ [r], inbound := rest })) ∧
      (128 ≤ k.latch.length → exec .latchRowArrive s = .next (setCore s n k))) ∧
    (k.inbound = [] → exec .latchRowArrive s = .next (setCore s n k)) ∧
    (coreStopped s n = false →
      -- the choice of the matrix engine, where no wait has grown
      (s.arg.pairs = [] →
        let v := setCore s n k
        (mBest (mCandidates v k) = none → exec .matrixEngineSchedule s = .next v) ∧
        (∀ m, mBest (mCandidates v k) = some m →
          let starts := fun (k : Core) => setCore s n { (if m.state ≠ .suspended ∧ m.z = true then setBank k m.bank [] else k) with
            mq := k.mq.map fun x => if x.id = m.id then
              { m with state := .running, frozen := m.eff, ctab := if m.state = .suspended then m.ctab else k.ctabBytes } else x }
          ((∀ x ∈ k.mq, x.state ≠ .running) → exec .matrixEngineSchedule s = .next (starts k)) ∧
          (∀ r, k.mq.find? (fun x => x.state == .running) = some r →
            let yields := (r.kind = .mma ∨ r.kind = .rot) ∧ r.got = [] ∧ (∀ x ∈ k.mq, x.state ≠ .suspended) ∧ r.frozen < m.eff
            (yields → exec .matrixEngineSchedule s =
              .next (starts { k with mq := k.mq.map fun x => if x.id = r.id then { x with state := .suspended, waited := 0 } else x })) ∧
            (¬ yields → exec .matrixEngineSchedule s = .next v)))) ∧
      (∀ m : MCmd, s.arg.pairs = [] → k.mq = [m] → m.state = .waiting → m.after = [] →
        purseEmpty s (((getCtx s m.ctx).map (·.tslot)).getD 0) = false →
        exec .matrixEngineSchedule s = .next (setCore s n { (if m.z then setBank k m.bank [] else k) with
          mq := [{ m with state := .running, frozen := m.eff, ctab := k.ctabBytes }] })) ∧
      -- a group of eight rows of B that lie in scratchpad
      (∀ m : MCmd, k.mq.find? (fun x => x.state == .running && (x.kind == .mma || x.kind == .rot)) = some m → m.kind = .mma → m.sd = true →
        m.k % 8 = 0 → k.spPoison = [] →
        let fa := fmtA m.mfmt
        let fb := fmtB m.mfmt
        let row := fun (base size i : Nat) => memBytes k.sp (base + size * (m.k + i)) size
        let sa := if isBD fa then memBytes k.sp (m.mscla.toNat + 2 * (m.k / 32 * 32)) 64 else []
        let sb := if isBD fb ∧ m.k % 32 = 0 then memBytes k.sp (m.msclb.toNat + 2 * m.k) 64 else m.bscale
        let rows := (List.range 8).map fun i => ({ a := row m.a.toNat (rowBytes fa) i, sa := sa, b := row m.b.toNat (rowBytes fb) i, sb := sb } : RowPair)
        (isBD fb = true → m.k % 32 ≠ 0 → m.bscale ≠ []) →
        exec .mmaGroup s = .next (setCore s n { setBank k m.bank (groupCells fa fb m.ctab (bankOf k m.bank) rows) with
          mq := k.mq.map fun x => if x.id = m.id then
            { m with k := m.k + 8, bscale := sb, got := [], state := if m.depth ≤ m.k + 8 then .draining else .running } else x })) ∧
      -- a command of the matrix engine ends, or moves its next line
      (∀ m : MCmd, k.mq.find? (fun x => x.id == s.arg.id) = some m →
        let ends := ∃ t, exec .matrixCommandComplete s = .next t ∧
          OnlyContexts (modCore (dropClaim s m.id) n fun k => { k with mq := k.mq.filter fun x => x.id != m.id }) t ∧
          ∀ c, coreOf m.ctx = n → getCtx s m.ctx = some c → (∀ x ∈ k.mq, x.ctx = m.ctx → x.id = m.id) →
            ∃ d, getCtx t m.ctx = some d ∧ d.completed = c.committed
        let moved := { k with mq := k.mq.map fun x => if x.id = m.id then { x with k := x.k + 1 } else x }
        let va := bankLine m.a m.b m.k
        let p := m.pages.getD m.k (pageIn [] 0 va)
        (m.kind = .mma → if m.state = .draining then ends else exec .matrixCommandComplete s = .next s) ∧
        (m.kind = .rot → m.state ≠ .draining → exec .matrixCommandComplete s = .next s) ∧
        (m.kind = .rot → m.state = .draining → k.sending = none → (∀ r ∈ (getCore s (eastOf s n)).inbound, r.cmd ≠ m.id) → ends) ∧
        (m.kind = .mstc ∨ m.kind = .mldc → m.state = .running → 64 ≤ m.k → ends) ∧
        (m.kind = .mstc → m.state = .running → m.k < 64 → claimDone s m.id = false → exec .matrixCommandComplete s = .next s) ∧
        (∀ a, m.kind = .mstc → m.state = .running → m.k < 64 → claimDone s m.id = true → p.loc va = .hbm a → keyed s p.key a 64 = true →
          mayAccess s (dieOf n) (.hbm a) p 64 (some (matrixEngine n, m.id)) true = true →
          ∃ t, exec .matrixCommandComplete s = .next t ∧ OnlyStored (setCore s n moved) t (memPut s.mem a (bankBytes (bankOf k m.bank) m.k))) ∧
        (∀ a, m.kind = .mldc → m.state = .running → m.k < 64 → p.loc va = .hbm a → keyed s p.key a 64 = true → poisonedAt s (.hbm a) 64 = false →
          engineReady s n p (.hbm a) 64 m.ctx (matrixEngine n) m.id = true →
          let cells := packBank fun i => if i / 16 = m.k then BitVec.ofNat 32 (leNat (memBytes s.mem (a + 4 * (i % 16)) 4))
            else amGetD 0 (bankOf k m.bank) i
          ∃ t, exec .matrixCommandComplete s = .next t ∧ OnlyCounts (setCore s n { setBank k m.bank cells with mq := moved.mq }) t)) ∧
      -- a step of the vector unit
      (k.vq = [] → exec .vectorStep s = .next s) ∧
      (∀ (v : VCmd) (rest : List VCmd) (c : Ctx), k.vq = v :: rest → k.spPoison = [] → getCtx s v.ctx = some c →
        let size := vStepLen v.op v.f3
        let es := (List.range (min size (v.len - v.step * size))).map (· + v.step * size)
        let j := v.step * size / 32
        let bd := if v.f3 < 6 then bd8 else bd4
        let r := if isBDEncode v.op v.f3 then vEncode k v bd es (v.step % 2 == 0) j v.held
          else (if isBDForm v.op v.f3 then vDecode k v bd es (v.step % 2 == 0) j else vPlain k v es, [])
        let kinds := vArrays v.op v.f3
        let paired := if isBDEncode v.op v.f3 ∧ v.step % 2 = 0 then memPut k.sp (v.b + 2 * j) (leBytes 1 r.1.e0 ++ leBytes 1 r.1.e1) else k.sp
        let sp := memPut paired (vPlace kinds.1 v.d (v.step * size)) (vBytes kinds.1 r.1.codes)
        ((v.step + 1) * size < v.len →
          ∃ t, exec .vectorStep s = .next t ∧
            OnlyContexts (setCore s n { k with sp := sp, vq := { v with step := v.step + 1, e0 := r.1.e0, e1 := r.1.e1, held := r.2 } :: rest }) t ∧
            getCtx t v.ctx = some { c with fflags := c.fflags ||| r.1.flags }) ∧
        (v.len ≤ (v.step + 1) * size →
          ∃ t, exec .vectorStep s = .next t ∧ OnlyContexts (setCore s n { k with sp := sp, vq := rest }) t ∧
            getCtx t v.ctx = some { c with fflags := c.fflags ||| r.1.flags, status := .ready } ∧
            (v.rd ≠ 0 → readReg t v.ctx v.rd = readReg s v.ctx v.rd + BitVec.ofNat 64 (kinds.1.bytes v.len)) ∧
            (v.ra ≠ 0 → v.ra ≠ v.rd → readReg t v.ctx v.ra = readReg s v.ctx v.ra + BitVec.ofNat 64 (kinds.2.1.bytes v.len)) ∧
            (∀ e, kinds.2.2 = some e → v.rb ≠ 0 → v.rb ≠ v.rd → v.rb ≠ v.ra →
              readReg t v.ctx v.rb = readReg s v.ctx v.rb + BitVec.ofNat 64 (e.bytes v.len)))) ∧
      -- the last unit of a copy
      ((∀ ch x, amGet k.chans ch = some x → unitReady s n x = false) →
        ∃ t, exec .copyUnitTransfer s = .next t ∧ OnlyContexts s t) ∧
      (∀ (ch : Nat) (x : Chan) (a b l : Nat), ch < 4 → k.chans = [(ch, x)] → unitReady s n x = true → x.group = none → x.done + 16 = x.len →
        (x.srcSp = true → spPoisoned k x.from_.toNat 16 = false) →
        (x.srcSp = false → (x.srcPage x.from_).loc x.from_ = .hbm a ∧ keyed s (x.srcPage x.from_).key a 16 = true ∧
          (x.srcPage (x.from_ &&& ~~~(63 : Word))).loc (x.from_ &&& ~~~(63 : Word)) = .hbm l ∧ poisonedAt s (.hbm l) 64 = false) →
        (x.dstSp = false → (x.dstPage x.to_).loc x.to_ = .hbm b ∧ keyed s (x.dstPage x.to_).key b 16 = true ∧ x.badDst ≠ lineMark x.to_) →
        let bs := if x.srcSp then memBytes k.sp x.from_.toNat 16 else memBytes s.mem a 16
        let k' := { (if x.dstSp then spStore k x.to_.toNat bs else k) with
          chans := [(ch, { x with done := x.len })], lastChan := ch, cwp := if x.dstSp then amSet k.cwp ch (x.to_.toNat + 16) else k.cwp }
        ∃ v t, exec .copyUnitTransfer s = .next t ∧ OnlyStored (setCore s n k') v (if x.dstSp then s.mem else memPut s.mem b bs) ∧
          OnlyContexts v t)) ∧
    (∀ x : Chan, amGet k.chans s.arg.idx = some x →
      let over_ := match x.kind with
        | .copy => x.done = x.len
        | .sub pull => x.landed = x.count ∧ x.retired = x.count ∧ (pull = true → x.pulled = x.count)
      (over_ → ∃ t, exec .copyCommandComplete s = .next t ∧
        OnlyContexts (modCore (dropClaim s x.id) n fun k => { k with chans := amErase k.chans s.arg.idx }) t) ∧
      (¬ over_ → exec .copyCommandComplete s = .next s)) ∧
    -- a tile of a subscription
    (∀ (x : Chan) (a : Nat → Nat), amGet k.chans s.arg.idx = some x →
      (tileReady s n x = false → exec .subscriptionTileLand s = .next s) ∧
      (tileReady s n x = true →
        (∀ i, i < x.slotb / 64 → let va := x.src + BitVec.ofNat 64 x.landed * x.sstride + BitVec.ofNat 64 (64 * i)
          (x.srcPage va).loc va = .hbm (a i) ∧ keyed s (x.srcPage va).key (a i) 64 = true ∧ poisonedAt s (.hbm (a i)) 64 = false) →
        ∃ v t, exec .subscriptionTileLand s = .next t ∧
          OnlyCounts (setCore s n
            { (List.range (x.slotb / 64)).foldl (fun k i => spStore k (x.slotAt x.landed + 64 * i) (memBytes s.mem (a i) 64)) k with
              chans := amSet k.chans s.arg.idx { x with landed := x.landed + 1 },
              cwp := amSet k.cwp s.arg.idx (x.ring + x.slotb * (x.landed % x.slots + 1)) }) v ∧ OnlyContexts v t) ∧
      (pullReady s n x = false → exec .subscriptionPullBack s = .next s) ∧
      (pullReady s n x = true →
        (∀ i, i < x.slotb / 64 → let va := x.dst + BitVec.ofNat 64 x.pulled * x.dstride + BitVec.ofNat 64 (64 * i)
          (x.dstPage va).loc va = .hbm (a i) ∧ keyed s (x.dstPage va).key (a i) 64 = true ∧
            spPoisoned k (x.slotAt x.pulled + 64 * i) 64 = false) →
        ∃ v t, exec .subscriptionPullBack s = .next t ∧
          OnlyStored (setCore s n { k with chans := amSet k.chans s.arg.idx { x with pulled := x.pulled + 1 } }) v
            ((List.range (x.slotb / 64)).foldl (fun m i => memPut m (a i) (memBytes k.sp (x.slotAt x.pulled + 64 * i) 64)) s.mem) ∧
          OnlyContexts v t)) ∧
    -- the stream units, with the one operation that waits
    (∀ (o : PortOp) (c : Ctx), s.ports = [o] → o.id = s.arg.id → o.answered = false → getCtx s o.ctx = some c → c.stream = false →
      c.benched = false →
      let die := dieOf (coreOf o.ctx)
      let s1 : State := if o.arrived.isNone then { s with nextId := s.nextId + 1, ports := [{ o with arrived := some s.nextId }] } else s
      let s2 := touch s1 die (o.page.loc o.desc) o.page .write 64
      let d := readDesc s2 o.page o.desc
      let arrives := o.push = false ∨ o.arrived ≠ none ∨ fenceMet s o.ctx 2 o.upto = true
      (¬ arrives → ∃ t, exec .streamPush s = .next t ∧ OnlyCounts s t) ∧
      (arrives → portReady s1 o = false → ∃ t, exec (if o.push then .streamPush else .streamPop) s = .next t ∧ OnlyCounts s1 t) ∧
      (∀ h, arrives → portReady s1 o = true → keyed s o.page.key h 8 = true →
        (o.push = true → d.n ≤ (d.tail - d.head).toNat → ∃ t, exec .streamPush s = .next t ∧ OnlyCounts s1 t) ∧
        (o.push = false → d.tail = d.head → o.w = false → ∃ t, exec .streamPop s = .next t ∧ OnlyCounts s1 t) ∧
        (∀ r, o.push = false → d.tail = d.head → o.w = true → c.status = .held (.pop r o.id) →
          ∃ t, exec .streamPop s = .next t ∧ t.mem = s.mem ∧ t.ports = [] ∧
            getCtx t o.ctx = some { c with status := .ready, popped := none, portTrap := some (.empty, o.desc) }) ∧
        (∀ r e p, o.push = false → c.status = .held (.pop r o.id) → d.tail ≠ d.head → elemPage s2 o (d.elem d.head) = (some p, s2) →
          o.page.loc (o.desc + 0x40) = .hbm h → elemOk p = true → p.loc (d.elem d.head) = .hbm e → mayAccess s2 die (.hbm e) p 8 none false = true → keyed s p.key e 8 = true →
          poisonedAt s (.hbm e) 8 = false →
          ∃ t, exec .streamPop s = .next t ∧ t.mem = memPut s.mem h (leBytes 8 (d.head + 1).toNat) ∧ t.ports = [] ∧
            getCtx t o.ctx = some { c with status := .ready, popped := some (BitVec.ofNat 64 (leNat (memBytes s.mem e 8))), portTrap := none }) ∧
        (∀ r e p, o.push = true → c.status = .held (.push r o.id) → (d.tail - d.head).toNat < d.n →
          elemPage s2 o (d.elem d.tail) = (some p, s2) → o.page.loc (o.desc + 0x80) = .hbm h → elemOk p = true → p.loc (d.elem d.tail) = .hbm e →
          mayAccess s2 die (.hbm e) p 8 none true = true → keyed s p.key e 8 = true →
          ∃ t, exec .streamPush s = .next t ∧ t.mem = memPut (memPut s.mem e (leBytes 8 o.v.toNat)) h (leBytes 8 (d.tail + 1).toNat) ∧
            t.ports = [] ∧ getCtx t o.ctx = some { c with status := .ready, fflags := c.fflags ||| c.heldFlags })))

/-- R17, R70, R90, R105, R111, R130, R131, R143, R300, R302, R307, R310, R344: what each event of a request, a walk, a fault ring and an
invalidation does, in the cases named: the store that drains or waits, the access performed at its home or held by its channel, the result's
register, the page found, the waiting party that goes on. When such an event happens, and the operands it comes with, are the model's agenda
(log entry 6); which older loads a load passes is log entry 8. -/
def Obligations.MemoryEvents : Prop :=
  ∀ s : State,
    let n := s.arg.unit
    -- a store leaves its core's buffer
    ((getCore s n).sbuf = [] → exec .storeDrain s = .next s) ∧
    (∀ (e : SbEntry) (rest : List SbEntry) (v : Word), (getCore s n).sbuf = e :: rest → e.op = .store v →
      let waits := olderPending s e.ctx e.id false e.loc e.size = true ∨ releaseMet s n e = false ∨ overtakenOver s (dieOf n) e.loc e.size = true
      let r : Req := { id := e.id, ctx := e.ctx, vmid := e.page.vmid, op := .store v, va := e.va, size := e.size, loc := e.loc, page := e.page,
                       rd := 0, pc := e.pc, repc := e.repc, node := e.node }
      (waits → exec .storeDrain s = .next s) ∧
      (¬ waits → ∃ t, exec .storeDrain s = .next t ∧
        OnlyContexts (modCore { s with reqs := s.reqs ++ [r] } n fun k => { k with sbuf := rest }) t)) ∧
    -- an access at its home in HBM
    (∀ (r : Req) (l : Loc) (a : Nat) (p : Page) (v : State), s.reqs.find? (fun x => x.id == s.arg.id) = some r →
      leavesPackage s r.loc = false → ownPlace s (reqSlot s r) r.loc (opWrites r.op) = .ok l →
      frameNow s (reqSlot s r) l r.page (opWrites r.op) = ((.hbm a, p), v) →
      let die := dieOf (coreOf r.ctx)
      let free := channelFree v die (.hbm a) p r.size
      let answered := fun (y : Word) (bad : Bool) (line : List Byte) (x : Req) =>
        ({ x with done := true, value := y, poison := bad, rlink := false, line := line } : Req)
      let word_ := BitVec.ofNat 64 (leNat (memBytes s.mem a r.size))
      (reqReady s r = false → exec .sliceRequest s = .next s) ∧
      (reqReady s r = true → r.admitted = false → free = false → ∃ t, exec .sliceRequest s = .next t ∧ OnlyCounts s t) ∧
      (reqReady s r = true → (r.admitted = true ∨ free = true) → keyed s p.key a r.size = true →
        (∀ x, r.op = .store x → ∃ u t, exec .sliceRequest s = .next t ∧
          OnlyStored { s with reqs := s.reqs.filter fun x => x.id != r.id } u (memPut s.mem a (leBytes r.size x.toNat)) ∧ OnlyContexts u t) ∧
        (∀ z fill, r.op = .load z fill → poisonedAt s (.hbm a) r.size = false → (fill = true → keyed s p.key (a / 64 * 64) 64 = true) →
          let passed := fun (x : Req) => x.ctx = r.ctx ∧ x.id < r.id ∧ x.done = false ∧ isPlainLoad x.op = true
          let line := if fill then memBytes s.mem (a / 64 * 64) 64 else []
          let one := fun (x : Req) =>
            if x.id = r.id then answered (extend z word_) false line x else if passed x then { x with overtaken := true } else x
          ∃ t, exec .sliceRequest s = .next t ∧ OnlyCounts { s with reqs := s.reqs.map one } t) ∧
        (∀ fn b c, r.op = .amo fn b c →
          (poisonedAt s (.hbm a) r.size = true → ∃ t, exec .sliceRequest s = .next t ∧
            OnlyCounts { s with reqs := s.reqs.map fun x => if x.id = r.id then answered 0 true [] x else x } t) ∧
          (poisonedAt s (.hbm a) r.size = false → ∃ t, exec .sliceRequest s = .next t ∧
            OnlyStored { s with reqs := s.reqs.map fun x => if x.id = r.id then answered word_ false [] x else x } t
              (if amoWrites fn word_ c then memPut s.mem a (leBytes r.size (amoNew fn word_ b c)) else s.mem))) ∧
        (∀ mx f b, r.op = .dep mx f b → r.size = 4 → poisonedAt s (.hbm a) 4 = false →
          let x := getField s (reqSlot s r) f.toNat
          ∃ t, exec .sliceRequest s = .next t ∧
            OnlyStored { s with reqs := s.reqs.map fun x => if x.id = r.id then answered 0 false [] x else x } t
              (memPut s.mem a (leBytes 4 (deposited mx x.num.toNat (x.at_ (sliceOf die (.hbm a))) (word_.setWidth 32) b).toNat))) ∧
        (∀ f, r.op = .peek f → poisonedAt s (.hbm a) r.size = false →
          let x := getField s (reqSlot s r) f.toNat
          let now := BitVec.ofNat 64 (faded x.num.toNat (x.at_ (sliceOf die (.hbm a))) (word_.setWidth 32))
          ∃ t, exec .sliceRequest s = .next t ∧
            OnlyCounts { s with reqs := s.reqs.map fun y => if y.id = r.id then answered now false [] y else y } t))) ∧
    -- its result
    (∀ (r : Req) (c : Ctx) (z : Nat) (fill : Bool), s.reqs.find? (fun x => x.id == s.arg.id) = some r → r.done = true → r.op = .load z fill →
      r.poison = false → r.rlink = false → r.line = [] → r.rd ≠ 0 → getCtx s r.ctx = some c →
      ∃ t, exec .resultReturn s = .next t ∧ t.mem = s.mem ∧ t.reqs = s.reqs.filter (fun x => x.id != r.id) ∧
        (getCore t (coreOf r.ctx)).rf = amSet (getCore s (coreOf r.ctx)).rf (c.base + r.rd.toNat) { val := r.value, full := true, poison := false }) ∧
    -- its channel
    (∀ (r : Req) (ch m : Nat), s.reqs.find? (fun x => x.id == s.arg.id) = some r → r.admitted = false → r.done = false →
      channelUse s (dieOf (coreOf r.ctx)) r.loc r.page r.size = some (ch, m) →
      let t := pageSlot s r.page
      let x := getTenant s t
      let q := s.reqs.map fun y => if y.id = r.id then { y with admitted := true } else y
      (x.rate = 0 → exec .rateLimitAdmit s = .next { s with reqs := q }) ∧
      (x.rate ≠ 0 → 0 ≤ tokensNow s t ch →
        exec .rateLimitAdmit s =
          .next { setTenant s t { x with tokens := amSet x.tokens ch (max (tokensNow s t ch - m * 1000) (-(x.burst.toNat * 1000 : Int)), s.time.toNat) }
                  with reqs := q }) ∧
      (x.rate ≠ 0 → tokensNow s t ch < 0 → ∃ u, exec .rateLimitAdmit s = .next u ∧ OnlyCounts s u)) ∧
    -- a walk, and the entry of a page check cache
    (∀ (w : Walk), s.walks.find? (fun x => x.id == s.arg.id) = some w →
      let t := (slotOfVmid s w.vmid).getD 0
      let found := fun (p : Page) (v : State) => { v with walks := v.walks.map fun x => if x.id = w.id then { x with page := some p } else x }
      let cached := s.s1cache.find? fun x => x.covers w.vmid w.va
      (w.page ≠ none ∨ w.token ≠ none → exec .stage1Walk s = .next s) ∧
      (∀ x p v, w.page = none → w.token = none → cached = some x → fromLeaf s t w.va x.leaf = (.ok p, v) →
        exec .stage1Walk s = .next (found p v)) ∧
      (w.page = none → w.token = none → cached = none → walkHeld s t w.va = true → exec .stage1Walk s = .next s) ∧
      (∀ l p v, w.page = none → w.token = none → cached = none → walkHeld s t w.va = false → stage1 s (getTenant s t) w.va = .ok l →
        fromLeaf (chargeWalk s t w.va) t w.va l = (.ok p, v) →
        let kept : S1 := { vmid := w.vmid, va := w.va, leaf := { l with entry := l.entry &&& ~~~(1 <<< 54 : Word) } }
        exec .stage1Walk s = .next (found p { v with s1cache := v.s1cache ++ [kept] })) ∧
      (w.page = none → exec .pageCheckFill s = .next s) ∧
      (∀ p id c, w.page = some p → w.ctx = some id → getCtx s id = some c → c.status = .parked (.page w.id) →
        let others := (getCore s w.core).pcc.filter fun q => !(q.vmid == p.vmid && q.va == p.va && q.size == p.size)
        (others.length < 64 →
          ∃ t, exec .pageCheckFill s = .next t ∧ t.mem = s.mem ∧ t.walks = s.walks.filter (fun x => x.id != w.id) ∧
            (getCore t w.core).pcc = others ++ [p] ∧ getCtx t id = some { c with status := .ready }) ∧
        (others.length = 64 →
          ∃ i < 64, ∃ t, exec .pageCheckFill s = .next t ∧ t.mem = s.mem ∧ t.walks = s.walks.filter (fun x => x.id != w.id) ∧
            (getCore t w.core).pcc = others.eraseIdx i ++ [p] ∧ getCtx t id = some { c with status := .ready }))) ∧
    -- the words of a fault ring
    (∀ (f : FaultWords), let rid := if s.arg.flag then RingId.hyp else .tenant s.arg.slot
      getFaults s rid = f →
      (f.waiting = [] → exec .fringHeadWrite s = .next (setFaults s rid { f with head := s.arg.v.extractLsb' 32 32 })) ∧
      (∀ (tok : BitVec 32) (addr : Word) (w : Walk) (id : Nat) (c : Ctx), f.waiters = [(tok, (.walk w.id, addr))] →
        s.walks = [w] → w.ctx = some id → w.seg = none → getCtx s id = some c → c.status = .parked (.page w.id) →
        (s.arg.v = (1#2 ++ 0#30 ++ tok) →
          ∃ t, exec .resolveReplay s = .next t ∧ t.mem = s.mem ∧ t.walks = [] ∧ (getFaults t rid).waiters = [] ∧
            getCtx t id = some { c with status := .ready }) ∧
        (s.arg.v = (2#2 ++ 0#30 ++ tok) → c.tvec ≠ 0 → c.tcause.getLsbD 62 = false →
          ∃ t, exec .resolveFail s = .next t ∧ t.mem = s.mem ∧ t.walks = [] ∧ (getFaults t rid).waiters = [] ∧
            getCtx t id = some { c with status := .ready, pc := c.tvec, epc := w.pc, tval := addr, tcause := causeWord .pfault,
                                        popped := none, cover := none, portTrap := none }))) ∧
    -- a fault at a peer
    (s.arg.flag = true → exec .remoteFaultResolved s = .next s) ∧
    (∀ (r : Req) (v : Word) (c : Ctx) (d o : Nat), s.arg.flag = false → s.reqs = [r] → r.id = s.arg.id → r.done = false → r.loc = .remote d o →
      r.op = .store v → getCtx s r.ctx = some c → c.stream = false → c.status = .ready ∨ c.status = .parked (.page r.id) →
      ∃ t, exec .remoteFaultResolved s = .next t ∧ t.mem = s.mem ∧ t.reqs = [] ∧
        getCtx t r.ctx = some { c with status := .ready, pc := r.pc, repc := r.repc,
                                       pend := c.pend ++ [(BitVec.ofNat 8 Cause.pfault.code, r.va)] }) ∧
    -- an invalidation, and an order duty
    (∀ (x : Tlbi) (id : Nat) (c : Ctx), s.tlbis = [x] → x.id = s.arg.id → x.sent = true → x.ctx = some id → getCtx s id = some c →
      c.status = .held (.tlbi x.id) → x.op ≤ 3 →
      (usesDropped s x = true → exec .tlbiComplete s = .next s) ∧
      (usesDropped s x = false →
        ∃ t, exec .tlbiComplete s = .next t ∧ t.mem = s.mem ∧ t.tlbis = [] ∧ getCtx t id = some { c with status := .ready })) ∧
    (∀ (x : Tlbi), s.tlbis = [x] → x.id = s.arg.id → x.sent = false → x.ctx = none → x.op = 3 →
      usesDropped s { x with sent := true, upto := s.nextId } = false →
      ∃ t, exec .tlbiComplete s = .next t ∧ t.mem = s.mem ∧ t.tlbis = [] ∧ t.invBusy = false ∧ t.s1cache = [] ∧
        ∀ j, (getCore t j).pcc = []) ∧
    (∀ (c : Ctx) (r : Nat), getCtx s s.arg.id = some c → c.status = .ready → c.duties = [.acq r] → s.reqs.any (fun q => q.id == r) = false →
      ∃ t, exec .dutyMet s = .next t ∧ t.mem = s.mem ∧ getCtx t s.arg.id = some { c with duties := [] })

/-- R68, R69, R117, R122, R171, R179, R180, R198, R205, R292, R293: what each event of a context does, in the cases named: a `park` that ends, an
answer that comes back, a continuation that is placed, a turn, a beat, a segment that ends, benching and its end.
When such an event happens, and the operands it comes with, are the model's agenda (log entry 6). -/
def Obligations.ContextEvents : Prop :=
  ∀ s : State,
    let id := s.arg.id
    let n := s.arg.unit
    let t := s.arg.slot
    (∀ (c : Ctx) (l : Loc), getCtx s id = some c → c.status = .held (.park none l) →
      let u := setCtx { s with watches := s.watches.filter fun w => w.ctx != id } id { c with status := .ready }
      exec .parkTimeout s = .next u ∧ exec .parkEarlyComplete s = .next u ∧
      exec .parkWake s = .next (if s.watches.any (fun w => w.ctx == id && w.written) then u else s)) ∧
    (∀ (c : Ctx) (d : Reg) (v : Word), getCtx s id = some c → c.status = .held (.answer d v) → d ≠ 0 →
      ∃ u, exec .heldAnswer s = .next u ∧ u.mem = s.mem ∧ getCtx u id = some { c with status := .ready } ∧
        (getCore u (coreOf id)).rf = amSet (getCore s (coreOf id)).rf (c.base + d.toNat) { val := v, full := true, poison := false }) ∧
    (∀ (f : Flight) (c : Cont) (slot base : Nat), f.cont = c → c.node = none → slot < 64 → freeSlot s c.tslot f.core = some slot →
      freeRun (getCore s f.core) c.allot = some base → (getCore s f.core).ring = none →
      (s.flights = [f] → f.id = id → f.answer = none → f.isGo = true → f.sender = .ctx n → grantOf s c.tslot f.core ≠ 0 →
        (getCore s f.core).arrivals = [] →
        ∃ u, exec .arrivalDeliver s = .next u ∧ u.mem = s.mem ∧ u.flights = [{ f with answer := some (.status 0) }] ∧
          ∃ x, getCtx u (ctxId f.core slot) = some x ∧ x.pc = c.pc ∧ x.base = base ∧ x.size = c.allot ∧ x.vmid = c.vmid ∧ x.status = .ready) ∧
      (∀ rest, f.core = n → coreExists s n = true → restoreDue s n = false → (getCore s n).arrivals = c :: rest →
        ∃ u, exec .arrivalQueuePlace s = .next u ∧ u.mem = s.mem ∧ (getCore u n).arrivals = rest ∧
          ∃ x, getCtx u (ctxId n slot) = some x ∧ x.pc = c.pc ∧ x.base = base ∧ x.size = c.allot ∧ x.vmid = c.vmid ∧ x.status = .ready)) ∧
    (∀ g : Seg, getSeg s n = some g →
      (g.phase = .running → segWaits s g = false → g.walk = none → g.cores.any (fun x => coreStopped s x.2.1) = false → g.hold = 0 → 0 < g.bubbles →
        ∃ u, exec .streamBeat s = .next u ∧ u.mem = s.mem ∧
          getSeg u n = some { g with plan := some { pc := g.pc, bubbles := g.bubbles - 1, again := g.again }, probes := [] } ∧
          u.issuing = (beatWords s g (shifted g none)).map (laneIssue n true) ++ [{ Issue.none with lane := .decide n }] ++ s.issuing) ∧
      (g.phase = .running → 0 < g.hold → segWaits s g = false → g.walk = none → g.cores.any (fun x => coreStopped s x.2.1) = false →
        exec .streamBeat s = .next (setSeg s n { g with hold := g.hold - 1 })) ∧
      (let g' := if segDrained g && g.upto.isNone then { g with upto := some s.nextId } else g
       let v := setSeg s n g'
       (segOver v n g' = true → ∃ u, exec .segmentComplete s = .next u ∧ getSeg u n = none) ∧
       (segOver v n g' = false → exec .segmentComplete s = .next v))) ∧
    (coreStopped s n = true → exec .barrelCycle s = .next s) ∧
    (∀ (c : Ctx) (slot : Nat), slot < 64 → coreStopped s n = false → (getCore s n).ctxs = [(slot, c)] →
      (getCore s n).rot = { order := [slot], turn := 0, issued := [], gone := [] } →
      let k := { getCore s n with rot := { order := [slot], turn := 1, issued := [], gone := [] }, ctxs := [(slot, { c with stopped := c.benched })] }
      (c.benched = true → exec .barrelCycle s = .next (setCore s n k)) ∧
      (c.benched = false → c.status = .ready → c.stream = false → c.saving = false → c.yields ≠ 2 →
        exec .barrelCycle s = .next { setCore s n k with
          issuing := { lane := .barrel n slot [], probe := false, word := none, pc := c.pc, rep := none } :: s.issuing })) ∧
    (∀ (a b : Ctx) (i j : Nat), i < 64 → j < 64 → i ≠ j → (getCore s n).ctxs = [(i, a), (j, b)] → a.tslot = t → b.tslot = t → a.node ≠ none →
      a.status = .ready → a.benchPre = false → ctxPrio s a < ctxPrio s b → (getCore s n).arrivals = [] →
      readyHead (getTenant s t) (startCycle (getTenant s t) s.cycle) = none → reserved s b = 0 →
      exec .preempt s = .next (setCtx s (ctxId n i) { a with benchPre := true })) ∧
    (∀ (c : Ctx) (i : Nat), i < 64 → s.arg.flag = false → (getCore s n).saved = [] → (getCore s n).kept = none → getCtx s (ctxId n i) = some c → c.tslot = t → c.benchPre = true →
      higherRemains s n t c.node = false →
      ∃ u, exec .savedContextRestore s = .next u ∧ u.mem = s.mem ∧ getCtx u (ctxId n i) = some { c with benchPre := false, saving := false })

/-- R147, R152 to R157, R362 to R366: what each event of a trail field, of the clock and of a Trailhead port does, in the cases named.
When such an event happens, and the operands it comes with, are the model's agenda (log entry 6). -/
def Obligations.TrailEvents : Prop :=
  ∀ s : State,
    let t := s.arg.slot
    let i := s.arg.idx
    let f := getField s t i
    let sets := fun (g : Field) => modField s t i fun _ => g
    (s.arg.v.getLsbD 63 = true → f.en = false → f.enabling = false →
      (enableRefused f s.arg.v = true → exec .trailEnable s = .next (sets { f with err := true })) ∧
      (enableRefused f s.arg.v = false →
        exec .trailEnable s = .next (sets { f with src := s.arg.v.getLsbD 62, num := s.arg.v.extractLsb' 48 4, tick := s.arg.v.extractLsb' 0 16,
                                                   slices := [], err := false, enabling := true, toEnable := List.range 128 }))) ∧
    (f.enabling = true → exec .sliceTickApply s = .next (sets { f with toEnable := f.toEnable.filter (· != s.arg.id) })) ∧
    (f.enabling = true → f.toEnable = [] → f.disabling = false →
      exec .trailEnableComplete s = .next (sets { f with en := true, enabling := false, unit := .idle, due := 0, nextDue := s.time.toNat + f.period.toNat,
                                                         passOn := true, passStart := if f.resumes then f.passStart else f.tick,
                                                         passPos := if f.resumes then f.passPos else 0 })) ∧
    (f.en = true → f.unit = .idle → f.queue = [] → f.due = 0 → markPending (sets { f with disabling := true }) t i = false →
      exec .trailDisable s = .next (sets { f with en := false, disabling := false })) ∧
    (f.en = true → f.queue ≠ [] → exec .trailDisable s = .next (sets { f with disabling := true })) ∧
    (f.en = true → f.disabling = false → f.src = true → f.nextDue ≤ s.time.toNat →
      exec .timebaseTickDue s = .next (sets { f with due := f.due + 1, dueAt := if f.due = 0 then f.nextDue else f.dueAt,
                                                     nextDue := f.nextDue + f.period.toNat, unit := if f.unit = .idle then .hold else f.unit })) ∧
    (f.unit = .hold → f.en = true → (f.tick + 1 - f.passStart).toNat ≠ 8192 →
      (∀ id rest, f.queue = id :: rest →
        exec .tickUnitSend s = .next (sets { f with queue := rest, fromBase := false, unit := .ack (List.range 128) (some id) })) ∧
      (f.queue = [] → f.due ≠ 0 → exec .tickUnitSend s = .next (sets { f with fromBase := true, unit := .ack (List.range 128) none }))) ∧
    (f.unit = .hold → (f.tick + 1 - f.passStart).toNat = 8192 → exec .tickUnitSend s = .next s) ∧
    (∀ acks id, f.unit = .ack acks id → f.enabling = false → s.arg.id ∈ acks →
      exec .sliceTickApply s = .next (sets { f with slices := amSet f.slices s.arg.id (f.tick + 1) })) ∧
    (∀ acks r, f.unit = .ack acks r → s.arg.id ∈ acks → amGet f.slices s.arg.id = some (f.tick + 1) →
      (acks.filter (· != s.arg.id) ≠ [] → exec .tickAck s = .next (sets { f with unit := .ack (acks.filter (· != s.arg.id)) r })) ∧
      (∀ id c, acks.filter (· != s.arg.id) = [] → r = some id → f.fromBase = false → f.queue = [] → f.due = 0 → f.disabling = false →
        getCtx s id = some c → c.status = .held (.tick i) →
        ∃ u, exec .tickAck s = .next u ∧ u.mem = s.mem ∧ getField u t i = { f with tick := f.tick + 1, slices := [], unit := .idle } ∧
          getCtx u id = some { c with status := .ready })) ∧
    (∀ (p : Page) (a : Nat), f.en = true → let va := f.base + BitVec.ofNat 64 (4 * f.passPos)
      translate s t va = (.ok p, s) → scrubPage p i = true → p.loc va = .hbm a → homeReady s (dieHolding s (.hbm a)) (.hbm a) 4 none = true →
      overtakenOver s (dieHolding s (.hbm a)) (.hbm a) 4 = false → poisonedAt s (.hbm a) 4 = false → keyed s p.key a 4 = true →
      let w : BitVec 32 := BitVec.ofNat 32 (leNat (memBytes s.mem a 4))
      let n := f.at_ (sliceOf (dieHolding s (.hbm a)) (.hbm a))
      let next := if f.bytes ≤ 4 * (f.passPos + 1) then { f with passPos := 0, passStart := f.tick } else { f with passPos := f.passPos + 1 }
      ∃ u, exec .scrubberRefresh s = .next u ∧ getField u t i = next ∧
        u.mem = if 8192 ≤ markDue (w.extractLsb' 16 16) n then memPut s.mem a (leBytes 4 (markWord n (faded f.num.toNat n w)).toNat) else s.mem) ∧
    exec .ptpClockStep s = .next { s with time := s.time + BitVec.ofInt 64 s.arg.delta } ∧
    (let q := portAt s s.arg.unit
     let bs := s.arg.bytes
     (s.arg.unit < 2 → s.frozen = true → exec .frameArrive s = .next (modPort s s.arg.unit fun _ => { q with bad := q.bad + 1 })) ∧
     (s.arg.unit < 2 → s.frozen = false → q.en = true →
       (s.arg.flag = false ∨ q.maxlen.toNat < bs.length ∨ bs.length < 60 →
         exec .frameArrive s = .next (modPort s s.arg.unit fun _ => { q with bad := q.bad + 1 })) ∧
       (s.arg.flag = true → bs.length ≤ q.maxlen.toNat → 60 ≤ bs.length →
         (classify q bs = none → exec .frameArrive s = .next (modPort s s.arg.unit fun _ => { q with noMatch := q.noMatch + 1 })) ∧
         (∀ j, classify q bs = some j → let x : Flow := amGetD {} q.flows j
           (staged q + bs.length ≤ 2 ^ 20 →
             exec .frameArrive s = .next (modPort s s.arg.unit fun _ =>
               { q with staging := q.staging ++ [{ flow := j, t := x.seq, stamp := s.time - BitVec.ofNat 64 s.arg.num, drop := x.drop, bytes := bs }],
                        flows := amSet q.flows j { x with seq := x.seq + 1 } })) ∧
           (2 ^ 20 < staged q + bs.length →
             exec .frameArrive s = .next (modPort s s.arg.unit fun _ => { q with flows := amSet q.flows j { x with drop := x.drop + 1 } }))))) ∧
     (∀ (fr : Frame) (ts : Nat) (page ep : Page) (ps : List Page) (h e : Nat), q.staging = [fr] → fr.flow = i → fr.token = none →
       let x : Flow := amGetD {} q.flows i
       let d := readDesc s page x.stream
       let slot := x.buf + BitVec.ofNat 64 (slotBytes q * (fr.t.toNat % (2 * d.n)))
       let el := d.elem d.tail
       x.entry = 0 → slotOfVmid s x.vmid = some ts → translate s ts x.stream = (.ok page, s) → elemOk page = true → x.stream.toNat % 64 = 0 →
       mayAccess s (dieOfLoc (page.loc x.stream)) (page.loc x.stream) page 192 none true = true → pushWaits s (page.loc x.stream) = false →
       (d.tail - d.head).toNat < d.n → walkPieces ts true (rangePieces slot (slotContent s.arg.unit fr).length) [] s = (.ok ps, s) →
       translate s ts el = (.ok ep, s) → elemOk ep = true →
       (slotLines s x.vmid ps slot (slotContent s.arg.unit fr).length).all (fun (_, p, l) => mayAccess s (dieOfLoc l) l p 64 none true) = true →
       mayAccess s (dieOfLoc (ep.loc el)) (ep.loc el) ep 8 none true = true →
       let v := putBytes ts x.vmid ps slot (slotContent s.arg.unit fr) s
       ep.loc el = .hbm e → page.loc (x.stream + 0x80) = .hbm h → keyed v ep.key e 8 = true → keyed v page.key h 8 = true →
       (portAt v s.arg.unit).staging = [fr] →
       ∃ u, exec .trailheadFrameDeliver s = .next u ∧ (portAt u s.arg.unit).staging = [] ∧
         u.mem = memPut (memPut v.mem e (leBytes 8 slot.toNat)) h (leBytes 8 (d.tail + 1).toNat))) ∧
    (s.arg.unit < 2 → 1 ≤ i → i ≤ 255 →
      let q := portAt s s.arg.unit
      let x : Flow := amGetD {} q.flows i
      let v := s.arg.v
      let y : Flow := { x with prio := v.extractLsb' 48 5, vmid := v.extractLsb' 32 16, alloc := v.extractLsb' 24 4, off := v.extractLsb' 0 6 }
      let puts := fun (z : Flow) => modPort s s.arg.unit fun _ => { q with flows := amSet q.flows i z }
      (x.en = true → exec .flowEnable s = .next (puts { x with en := v.getLsbD 63 })) ∧
      (x.en = false → v.getLsbD 63 = false → exec .flowEnable s = .next (puts y)) ∧
      (x.en = false → v.getLsbD 63 = true → exec .flowEnable s = .next (puts { y with en := flowOk s s.arg.unit y })))

/-- R128, R272 to R274, R278 to R288: what each event of the graph dispatcher does, in the cases named: registration and release, a launch accepted,
made eligible and finished, a node started, its threads sent, its bytes moved, its completion and its signal.
When such an event happens, and the operands it comes with, are the model's agenda (log entry 6). -/
def Obligations.GraphEvents : Prop :=
  ∀ s : State,
    let t := s.arg.slot
    let x := getTenant s t
    let v := s.arg.v
    let queueOf := fun (q : Nat) => (amGetD {} x.queues q : Queue)
    (s.fw.switching = false →
      (x.regBusy = false → exec .regStore s = .next (setTenant s t { x with regBusy := true, regJob := some v })) ∧
      (x.regBusy = true → exec .regStore s = .next (setTenant s t x)) ∧
      (∀ g, x.regBusy = false → v.toNat < 1024 → amGet x.graphs v.toNat = some g →
        exec .unregStore s = .next (setTenant s t { x with regBusy := true, unregJob := some v.toNat,
                                                           graphs := amSet x.graphs v.toNat { g with releasing := true } }))) ∧
    (∀ image, x.regJob = some image →
      (∀ h gs u, (dispGraph t image).run.run s = (.ok (h, gs), u) →
        exec .registrationComplete s = .next (setTenant u t { getTenant u t with
          graphs := amSet (getTenant u t).graphs h { nodes := gs }, regBusy := false, regJob := none, regHandle := BitVec.ofNat 10 h, regStatus := 0 })) ∧
      ((∀ h < 1024, amGet x.graphs h ≠ none) →
        exec .registrationComplete s = .next (setTenant s t { x with regBusy := false, regJob := none, regStatus := 4 }))) ∧
    (∀ h, x.unregJob = some h →
      (x.launches.any (fun l => l.handle == h) = false →
        exec .handleRelease s = .next (setTenant s t { x with regBusy := false, unregJob := none, graphs := amErase x.graphs h })) ∧
      (x.launches.any (fun l => l.handle == h) = true → exec .handleRelease s = .next (setTenant s t x))) ∧
    (∀ (q : Nat) (g : Graph), q < 64 → v.extractLsb' 48 6 = BitVec.ofNat 6 q → v.extractLsb' 40 8 = 0 → v.extractLsb' 0 6 = 0 →
      let h := (v.extractLsb' 54 10).toNat
      (queueOf q).en = true → amGet x.graphs h = some g → g.releasing = false →
      (x.launches.filter fun l => l.queue == q).length < 256 → canonical (argAddress (queueOf q).argbase v) = true →
      ∃ u, exec .launchStore s = .next u ∧ u.mem = s.mem ∧ u.images = s.images ++ [{ launch := s.nextId, mem := s.mem }] ∧
        (amGetD {} (getTenant u t).queues q : Queue) = { queueOf q with accepted := (queueOf q).accepted + 1 } ∧
        (getTenant u t).launches = x.launches ++
          [{ id := s.nextId, number := (queueOf q).accepted + 1, queue := q, handle := h, args := argAddress (queueOf q).argbase v,
             since := s.cycle + s.arg.num, eligible := none, prio := (queueOf q).prio, nodes := freshNodes g.nodes }]) ∧
    (∀ l : Launch, (List.range 64).filterMap (waitingHead x) = [l] →
      let c := max (s.cycle + s.arg.num) (headFrom x l)
      let p := (queueOf l.queue).prio
      ∃ u, exec .launchEligible s = .next u ∧ u.mem = s.mem ∧ u.cycle = c ∧ (getTenant u t).lastQueue = l.queue ∧
        (getTenant u t).eligFrom = c + 1 ∧ (getTenant u t).launches = x.launches.map fun y =>
          if y.id = l.id then { y with eligible := some c, prio := p, nodes := readyNodes c false y.nodes } else y) ∧
    (∀ l : Launch, x.launches.find? (fun l => l.id == s.arg.id) = some l →
      (launchOver s l = true →
        ∃ u, exec .launchFinish s = .next u ∧ u.mem = s.mem ∧ (getTenant u t).launches = x.launches.filter (fun y => y.id != l.id) ∧
          u.images = s.images.filter (fun i => i.launch != l.id) ∧
          (amGetD {} (getTenant u t).queues l.queue : Queue) =
            { queueOf l.queue with failed := if l.failed then (queueOf l.queue).failed + 1 else (queueOf l.queue).failed,
                                   done := (queueOf l.queue).done + 1, idleFrom := s.cycle + s.arg.num + 1 }) ∧
      (launchOver s l = false → exec .launchFinish s = .next s)) ∧
    (∀ (r : Ready) (y : LNode), let c := startCycle x (s.cycle + s.arg.num)
      let runs := modNode (modTenant { s with cycle := c } t fun y => { y with startFrom := c + 1 }) t r.ref fun z => { z with phase := .running }
      let goes := fun (u : State) => exec .nodeStart s = .next (modTenant u t fun y =>
        { y with delivering := y.delivering ++ [(r.launch.id, r.node)], sendFrom := max y.sendFrom (u.cycle + 1) })
      readyHead x c = some r → r.g.kind = 1 → r.g.word 4 = 0 → 1 ≤ recThreads r.g.words → nodeState runs t (some r.ref) = some y →
      y.places = [] →
      (∀ e u, readThread runs t r.g 0 = (.error e, u) → goes u) ∧
      (∀ a ws u, recThreads r.g.words = 1 → readThread runs t r.g 0 = (.ok (a, ws), u) →
        goes (modNode u t r.ref fun z => { z with places := z.places ++ [a], boots := z.boots ++ [ws] }))) ∧
    (∀ (l i : Nat) (rest : List (Nat × Nat)) (g : GNode) (y : LNode), x.delivering = (l, i) :: rest → gnodeOf s t (some ⟨l, i⟩) = some g →
      nodeState s t (some ⟨l, i⟩) = some y →
      (recThreads g.words ≤ y.started → exec .initialThreadDeliver s = .next (setTenant s t { x with delivering := rest })) ∧
      (∀ p core, y.started + 1 < recThreads g.words → y.token = none → y.places.length = recThreads g.words →
        let a := y.places.getD y.started 0
        let ws := y.boots.getD y.started []
        let c := max (s.cycle + s.arg.num) x.sendFrom
        let u := setTenant { s with cycle := c } t { x with sendFrom := c + 1 }
        canonical a = true → translate u t a = (.ok p, u) → p.rd = true → homeCoreOf p (dieOfPage p a) a = some core →
        ∃ w, exec .initialThreadDeliver s = .next w ∧ w.mem = s.mem ∧ w.cycle = c ∧ (getTenant w t).sendFrom = c + 1 ∧
          w.flights = s.flights ++
            [{ id := s.nextId, core := core, cont := { words := ws, vmid := x.vmid, tslot := t, node := some ⟨l, i⟩, dclass := g.kernel.dclass,
                                                       tvec := none, tcause := 0 },
               sender := .node l i, isGo := false, addr := a }])) ∧
    (∀ (l : Launch) (g : GNode) (y : LNode) (a b : Nat), let n := argNode s
      runningNode s t n = some (l, g, y) →
      (g.kind = 2 → y.token = none → y.failed = false → y.cmd ≠ 0 →
        let j : CopyJob := { t := t, n := n, src := copySrc g l, dst := copyDst g l, len := copyLen g, node := y }
        let src := j.src + BitVec.ofNat 64 y.moved
        let p := (j.srcAt s y.moved).1
        let q := (j.dstAt s y.moved).1
        y.moved + 16 = copyLen g → j.units = [y.moved] → j.ready s = true → p.loc src = .hbm a →
        q.loc (j.dst + BitVec.ofNat 64 y.moved) = .hbm b → keyed s p.key a 16 = true → keyed s q.key b 16 = true →
        ∀ line, p.loc (src &&& ~~~(63 : Word)) = .hbm line → poisonedAt s (.hbm line) 64 = false → y.badDst ≠ lineMark (j.dst + BitVec.ofNat 64 y.moved) →
        ∃ u, exec .copyNodeComplete s = .next u ∧ u.mem = memPut s.mem b (memBytes s.mem a 16) ∧
          u.claims = s.claims.filter (fun c => c.cmd != y.cmd)) ∧
      (nodeOver g y = true → (g.kind = 2 → y.failed = false) → g.succs = [] →
        ∃ u, exec .nodeComplete s = .next u ∧ u.mem = s.mem ∧ nodeState u t (some n) = some { y with phase := .complete }) ∧
      (nodeOver g y = false → (g.kind = 2 → y.failed = false) → exec .nodeComplete s = .next s)) ∧
    (∀ (c : Ctx) (w : Word) (r : NodeRef) (l : Launch) (g : GNode), getCtx s s.arg.id = some c → c.status = .held (.tsig w) → c.node = some r →
      launchOf s c.tslot c.node = some l → gnodeOf s c.tslot (some ⟨r.launch, w.toNat⟩) = some g → zeroSucc l g.succs = none →
      let cy := decCycle (s.cycle + s.arg.num) l w.toNat 0 s.arg.id
      ∃ u, exec .tsigAccept s = .next u ∧ u.mem = s.mem ∧ u.cycle = cy ∧
        getCtx u s.arg.id = some { c with status := .held (.tsigDone none 0) } ∧
        launchOf u c.tslot c.node = some { decrement cy g.succs l with lastDec := some (cy, w.toNat, 0, s.arg.id) })

/-- R337 to R353, R368: what each event of the partition page, of the Vault, of the host's invalidations, of the counters and of the firmware
does, in the cases named.
When such an event happens, and the operands it comes with, are the model's agenda (log entry 6). -/
def Obligations.PartitionEvents : Prop :=
  ∀ s : State,
    let t := s.arg.slot
    let v := s.arg.v
    let x := getTenant s t
    let f := s.fw
    let i := (v.extractLsb' 0 8).toNat
    let dest := (v.extractLsb' 48 6).toNat
    (∀ (k : ResKind) (e : Instr), (k, e) ∈ [(.row, .transferRow), (.slice, .transferSlice), (.channel, .transferChannel), (.engine, .transferEngine)] →
      f.switching = false → s.tBusy = false → v.extractLsb' 62 2 = BitVec.ofNat 2 k.code → v.extractLsb' 54 8 = 0 → v.extractLsb' 8 40 = 0 →
      (k.count ≤ i → exec e s = .next { s with tStatus := 2 }) ∧
      (i < k.count → (getTenant s dest).en = false → exec e s = .next { s with tStatus := 3 }) ∧
      (i < k.count → (getTenant s dest).en = true → inUse s k i = true → exec e s = .next { s with tStatus := 1 }) ∧
      (i < k.count → (getTenant s dest).en = true → inUse s k i = false →
        ∃ u, exec e s = .next u ∧ u.mem = s.mem ∧ u.tBusy = true ∧ ∀ y, (getTenant u y).owns k i = decide (y = dest))) ∧
    (s.tBusy = true → s.tlbis.any (fun t => t.op == 4) = false → exec .transferComplete s = .next { s with tBusy := false, tStatus := 0 }) ∧
    (f.switching = false → s.vBusy = false → v.extractLsb' 48 14 = 0 → v.extractLsb' 8 24 = 0 →
      (v.extractLsb' 62 2 = 1 →
        (i = 0 → exec .vaultGenerate s = .next { s with vStatus := 3 }) ∧
        (i ≠ 0 → amGet s.vault i ≠ none → exec .vaultGenerate s = .next { s with vStatus := 1 }) ∧
        (i ≠ 0 → amGet s.vault i = none →
          exec .vaultGenerate s = .next { s with nextId := s.nextId + 1, vault := amSet s.vault i (v.extractLsb' 32 16),
                                                 keyGen := amSet s.keyGen i s.nextId, vStatus := 0 })) ∧
      (v.extractLsb' 62 2 = 2 →
        (i = 0 → exec .vaultDestroy s = .next { s with vStatus := 3 }) ∧
        (i ≠ 0 → amGet s.vault i = none → exec .vaultDestroy s = .next { s with vStatus := 2 }) ∧
        (i ≠ 0 → amGet s.vault i ≠ none →
          exec .vaultDestroy s = .next { s with
            nextId := s.nextId + 1, vBusy := true, vJob := some (BitVec.ofNat 8 i),
            tlbis := s.tlbis ++ [{ id := s.nextId, op := 5, vmid := 0, addr := BitVec.ofNat 64 i, ctx := none, upto := s.nextId + 1,
                                   sent := false }] }))) ∧
    (∀ id, s.vJob = some id → s.tlbis.any (fun t => t.op == 5) = false →
      exec .keyDestroyComplete s = .next { s with vault := amErase s.vault id.toNat, vJob := none, vBusy := false, vStatus := 0 }) ∧
    (∀ (op : Nat) (e : Instr), (op, e) ∈ [(0, .hostTlbiVa), (1, .hostTlbiVmid), (2, .hostTlbiS2), (3, .hostTlbiAll)] →
      v.extractLsb' 62 2 = BitVec.ofNat 2 op → v.extractLsb' 16 46 = 0 →
      (s.invBusy = true → exec e s = .next s) ∧
      (s.invBusy = false →
        exec e s = .next { s with
          nextId := s.nextId + 1, invBusy := true,
          tlbis := s.tlbis ++ [{ id := s.nextId, op := op, vmid := v.extractLsb' 0 16, addr := s.invAddr, ctx := none, upto := s.nextId + 1,
                                 sent := false }] })) ∧
    (s.arg.idx < 8 → v.extractLsb' 9 47 = 0 →
      exec .counterSelectWrite s = .next (setTenant s t { x with counters := amSet x.counters s.arg.idx { sel := v, val := 0 } })) ∧
    (f.busy = false → keyed s 0 f.addr.toNat s.arg.num = true → let image := memBytes s.mem f.addr.toNat s.arg.num
      let ok := imageGood image && decide ((Config.imageSvn (fwBank f f.active).image).toNat ≤ (Config.imageSvn image).toNat)
      (ok = true → exec .fwUpdate s =
        .next { s with fw := { setFwBank f (!f.active) { image := image, verified := true } with busy := true, result := 0 } }) ∧
      (ok = false → exec .fwUpdate s = .next { s with fw := { f with busy := true, result := 6 } })) ∧
    (f.busy = false →
      ((fwBank f (!f.active)).verified = true →
        exec .fwSwitch s = .next { s with fw := { f with busy := true, switching := true } }) ∧
      ((fwBank f (!f.active)).verified = false →
        exec .fwSwitch s = .next { s with fw := { f with busy := true, result := 6 } })) ∧
    (f.switching = true →
      (let idle : Firmware := { f with switching := false, busy := false, heldStores := [] }
       exec .fwReady s = .next { s with
         fw := { idle with active := !f.active, result := 0, status := 0, switches := if f.switches = 255 then 255 else f.switches + 1 },
         agenda := f.heldStores ++ s.agenda } ∧
       exec .fwSwitchTimeout s = .next { s with fw := { idle with result := 5, status := 5 }, agenda := f.heldStores ++ s.agenda })) ∧
    (f.switching = false → f.busy = false → f.addr.extractLsb' 0 6 = 0 →
      (2 ^ 40 ≤ f.keyIndex → exec .attestationReport s = .next { s with fw := { f with busy := true, result := 4 } }) ∧
      (f.keyIndex < 2 ^ 40 →
        ∃ u, exec .attestationReport s = .next u ∧
          u.fw = { f with busy := true, result := 0, keyIndex := f.keyIndex + 1 } ∧ (reportHead s).length = 256 ∧
          (f.addr.toNat + 10149 ≤ 2 ^ 39 → keyed s 0 f.addr.toNat 10149 = true →
            u.mem = memPut s.mem f.addr.toNat
              (reportHead s ++ (List.range 9893).map (Config.identitySignature f.keyIndex (reportHead s)))))) ∧
    (f.busy = true → f.switching = false →
      exec .fwCommandComplete s = .next { s with fw := { f with busy := false, status := f.result } }) ∧
    (∀ b, bootBank (powerUp s).fw = some b →
      ∃ u, exec .powerOn s = .next u ∧ u.mem = State.reset.mem ∧ u.cores = State.reset.cores ∧ u.tenants = State.reset.tenants ∧
        u.time = v ∧ u.hostUp = true ∧ u.fw.active = b ∧ u.fw.keyIndex = f.keyIndex ∧ u.fw.inReset = false) ∧
    (bootBank (powerUp s).fw = none →
      exec .powerOn s = .next { powerUp s with fw := { (powerUp s).fw with inReset := true }, out := (powerUp s).out ++ [.bootFailed] }) ∧
    (s.arg.flag = false → s.arg.num2 ≠ 0 → s.arg.num2 ≤ 8 →
      exec .registerWrite s = .next (regStoreBytes s s.arg.num (leBytes s.arg.num2 v.toNat))) ∧
    (s.arg.flag = false → s.arg.num2 = 0 →
      exec .registerWrite s = .next (writeRegister s s.arg.num v) ∧
      (s.arg.num % 8 ≠ 0 → exec .registerWrite s = .next s) ∧
      (s.arg.num = 0x400 → exec .registerWrite s = .next { s with plim := v }) ∧
      (s.arg.num = 0x500 → exec .registerWrite s = .next { s with invAddr := v })) ∧
    (s.arg.flag = true → s.arg.num = 0 ∨ s.arg.num = 16384 ∨ s.arg.num = 32768 →
      exec .registerWrite s = .next (refreshWin (modCore s s.arg.unit fun k => { k with winSet := s.arg.num }) s.arg.unit))

/-- R197, R321 to R336: what the governor, the power controller, the thermal sensors, the purses and the telemetry do by themselves, in the cases
named.
When such an event happens, and the operands it comes with, are the model's agenda (log entry 6). -/
def Obligations.PowerEvents : Prop :=
  ∀ s : State,
    let n := s.arg.unit
    let r := rowOf n
    let t := s.arg.slot
    let x := getTenant s t
    let mw := s.arg.num
    (stepsOf s (rowCores r) = [] → rowSegs s r = [] →
      let p := pointFor s r (match rowOwner s r with | some t => (getTenant s t).rowdef.toNat | none => 7)
      ∃ u, exec .governorEvaluate s = .next u ∧ u.mem = s.mem ∧ (getRow u r).point = p ∧ ∀ c ∈ rowCores r, (getCore u c).div = minDiv p) ∧
    (∀ k, (getCore s n).step = some k → let d := minDiv (pointFor s r 7)
      isLate s n d k = true →
      exec .governorEvaluate s = .next (governRow (raiseRisk s n k (BitVec.ofNat 64 (stepTime s n d - k.deadline.toNat))) r)) ∧
    (∀ k, (getCore s n).step = some k → isLate s n (minDiv (pointFor s r 7)) k = false → exec .governorEvaluate s = .next (governRow s r)) ∧
    (∀ lim, slowLimit s t = some lim →
      let lowers := lim < mw ∨ (mw = lim ∧ s.lowering.contains t = true)
      (∀ low, lowers → rowToLower s t = some low →
        exec .powerSlowCheck s =
          .next (applyCap (modRow { s with lowering := if s.lowering.contains t then s.lowering else t :: s.lowering,
                                           lowered := (low, t) :: s.lowered } low fun y => { y with power := y.power - 1 }) low)) ∧
      (∀ e, mw * 100 < lim * 95 → s.arg.flag = true → s.fw.switching = false → s.lowered.find? (fun e => e.2 == t) = some e →
        exec .powerSlowCheck s = .next (modRow { s with lowering := s.lowering.filter (· != t), lowered := s.lowered.erase e } e.1
          fun y => { y with power := min 7 (y.power + 1) })) ∧
      (mw < lim → s.arg.flag = false → exec .powerSlowCheck s = .next { s with lowering := s.lowering.filter (· != t) }) ∧
      (mw = lim → s.lowering.contains t = false → exec .powerSlowCheck s = .next s)) ∧
    (∀ lim, fastLimit s t = some lim →
      (∀ core i c, lim < mw → s.arg.pairs = [(core, 1)] → benchNext s t core = some i → getCtx s (ctxId core i) = some c → c.status = .ready →
        ∃ u, exec .powerFastWindow s = .next u ∧ u.mem = s.mem ∧ u.fastBench = s.fastBench ++ [(ctxId core i, t)] ∧ amGetD 0 u.fastCalm t = 0 ∧
          getCtx u (ctxId core i) = some { c with benchPower := true }) ∧
      (mw < lim → amGetD 0 s.fastCalm t = 0 → exec .powerFastWindow s = .next { s with fastCalm := amSet s.fastCalm t 1 }) ∧
      (∀ id c, mw < lim → amGetD 0 s.fastCalm t = 1 → s.fastBench = [(id, t)] → getCtx s id = some c →
        ∃ u, exec .powerFastWindow s = .next u ∧ u.mem = s.mem ∧ u.fastBench = [] ∧ getCtx u id = some { c with benchPower := false })) ∧
    (∀ e temp, s.arg.pairs = [(e, temp)] → e < 2176 → temp < (s.therm.extractLsb' 0 16).toNat →
      let h := { s with hottest := BitVec.ofNat 32 (temp % 65536 * 65536 + e) }
      let throt := (s.therm.extractLsb' 16 16).toNat
      (throt ≤ temp →
        exec .thermalRead s = .next (applyCap (modRow h (engineRow e) fun y => { y with thermal := y.thermal - 1 }) (engineRow e))) ∧
      (temp + 32 < throt →
        ∃ u, exec .thermalRead s = .next u ∧ u.mem = s.mem ∧
          u.rows = (modRow (applyCap (modRow h (engineRow e) fun y => { y with thermal := min 7 (y.thermal + 1) }) (engineRow e))
            (engineRow e) fun y => { y with hot := false }).rows)) ∧
    (∀ a m, s.arg.pairs = [(a, m)] →
      ∃ u, exec .energyChargeApply s = .next u ∧ u.mem = s.mem ∧
        (∀ y, payer s (drawnOf a) = some y → (getTenant u y).energy = (getTenant s y).energy + BitVec.ofNat 64 m ∧
          (getTenant u y).purse = (getTenant s y).purse - BitVec.ofNat 64 m) ∧
        u.energyPage = match drawnOf a with
          | .work core _ | .leak core => amSet s.energyPage core (amGetD 0 s.energyPage core + BitVec.ofNat 64 m)
          | _ => s.energyPage) ∧
    (∃ u, exec .pset s = .next u ∧ u.mem = s.mem ∧ (getTenant u t).energy = x.energy ∧ (getTenant u t).purse = s.arg.v ∧
      (getTenant u t).overdraft = if s.arg.v.toInt < 0 ∧ x.overdraft.toNat < (-s.arg.v).toNat then -s.arg.v else x.overdraft) ∧
    (∃ u, exec .padd s = .next u ∧ u.mem = s.mem ∧ (getTenant u t).energy = x.energy ∧
      (getTenant u t).purse.toInt = max (-2 ^ 63) (min (2 ^ 63 - 1) (x.purse.toInt + s.arg.v.toInt))) ∧
    (x.telEn = false ∨ s.time.toNat < x.telNext → exec .telemetrySample s = .next s) ∧
    (x.telEn = true → x.telNext ≤ s.time.toNat →
      let y : Tenant := { x with telNext := x.telNext + x.telPeriod.toNat }
      (2 ^ x.telLog2n ≤ (x.telTail - x.telHead).toNat → exec .telemetrySample s = .next (setTenant s t { y with telLost := x.telLost + 1 })) ∧
      (∀ (p : Page) (a : Nat), (x.telTail - x.telHead).toNat < 2 ^ x.telLog2n →
        let va := x.telBase + BitVec.ofNat 64 (64 * (x.telTail.toNat % 2 ^ x.telLog2n))
        let v := setTenant s t y
        translate v t va = (.ok p, v) → p.wr = true → p.loc va = .hbm a → keyed s p.key a 64 = true →
        ∃ u, exec .telemetrySample s = .next u ∧
          u.mem = memPut s.mem a ((sampleWords v t mw s.arg.num2).flatMap fun w => leBytes 8 w.toNat) ∧
          (getTenant u t).telTail = x.telTail + 1 ∧ (getTenant u t).drisks = 0 ∧ (getTenant u t).telLost = x.telLost ∧
          (getTenant u t).telNext = x.telNext + x.telPeriod.toNat))

/-- R313 to R315, R354 to R360, R367: what the host, the peers, the links, the debug window and soft errors do, in the cases named.
When such an event happens, and the operands it comes with, are the model's agenda (log entry 6). -/
def Obligations.LinkEvents : Prop :=
  ∀ s : State,
    let n := s.arg.unit
    let t := s.arg.slot
    let va := sext48 s.arg.v
    let m := s.arg.num
    (s.hostUp = false → exec .hostMemoryAccess s = .next { s with out := s.out ++ [.host (onesOf m) true] }) ∧
    (s.hostUp = true → s.arg.flag = false → 1 ≤ m → m ≤ 8 → (∀ f b c, s.arg.op = .atomic f b c → plainSize s.arg.v.toNat m = true) →
      (getTenant s t).en = false → s.remoteWaits.find? (fun w => w.host && w.id == s.arg.id) = none →
      exec .hostMemoryAccess s = .next (hostFault s t m va (s.arg.op != .read) .prot false)) ∧
    (∀ (p : Page) (a : Nat), s.hostUp = true → s.arg.flag = false → 1 ≤ m → m ≤ 8 → m + va.toNat % 64 ≤ 64 →
      (∀ f b c, s.arg.op ≠ .atomic f b c) → (getTenant s t).en = true → slotOfVmid s (getTenant s t).vmid = some t → s.remoteWaits = [] →
      let s1 := { s with nextId := s.nextId + 1 }
      translate s1 t va = (.ok p, s1) → p.loc va = .hbm a →
      ((if s.arg.op = .read then p.rd else p.wr) = false →
        exec .hostMemoryAccess s = .next (hostFault s1 t m va (s.arg.op != .read) .prot false)) ∧
      ((if s.arg.op = .read then p.rd else p.wr) = true → outsideMay s1 (.hbm a) p s.arg.op m = false →
        exec .hostMemoryAccess s = .next { s1 with
          remoteWaits := [{ id := s.nextId, token := none, vmid := (getTenant s t).vmid, op := s.arg.op, off := va.toNat, size := m, host := true,
                            rel := s.arg.rel, acq := s.arg.acq }] }) ∧
      (outsideMay s1 (.hbm a) p s.arg.op m = true → keyed s p.key a m = true →
        (s.arg.op = .read → p.rd = true → poisonedAt s (.hbm a) m = false →
          ∃ u, exec .hostMemoryAccess s = .next u ∧ u.mem = s.mem ∧
            u.out = s.out ++ [.host (BitVec.ofNat 64 (leNat (memBytes s.mem a m) % 2 ^ (8 * m))) false]) ∧
        (∀ v, s.arg.op = .write v → p.wr = true →
          ∃ u, exec .hostMemoryAccess s = .next u ∧ u.mem = memPut s.mem a (leBytes m v.toNat) ∧ u.out = s.out ++ [.host 0 false]))) ∧
    (s.hostUp = true → s.arg.flag = true → plainSize s.arg.v.toNat m = true → s.arg.v.toNat < 2 ^ 22 → s.remoteWaits = [] →
      let s1 := { s with nextId := s.nextId + 1 }
      (s.arg.op = .read →
        exec .hostMemoryAccess s = .next { s1 with out := s.out ++ [.host (BitVec.ofNat 64 (leNat (regBytes s1 s.arg.v.toNat m))) false] }) ∧
      (∀ v, s.arg.op = .write v →
        exec .hostMemoryAccess s = .next { regStoreBytes s1 s.arg.v.toNat (leBytes m v.toNat) with out := s.out ++ [.host 0 false] })) ∧
    (s.domEn = false → exec .remoteRequest s = .next s) ∧
    (∀ w, s.domEn = true → s.remoteWaits.find? (fun w => !w.host && w.id == s.arg.id) = some w → w.token ≠ none →
      exec .remoteRequest s = .next s) ∧
    (s.domEn = true → s.remoteWaits.find? (fun w => !w.host && w.id == s.arg.id) = none → plainSize m s.arg.num2 = true → m < 2 ^ 40 →
      let w : RemoteWait := { id := s.nextId, token := none, vmid := s.arg.v2.setWidth 16, op := s.arg.op, off := m, size := s.arg.num2 }
      let s1 := { s with nextId := s.nextId + 1 }
      (slotOfVmid s w.vmid = none → exec .remoteRequest s = .next (peerFault s1 w)) ∧
      (∀ slot r, slotOfVmid s w.vmid = some slot → stage2 s (getTenant s slot) m = .ok r → r.nr = false →
        let page := peerPage w.vmid r m
        (s.arg.op ≠ .read → r.ro = true → exec .remoteRequest s = .next (peerFault s1 w)) ∧
        (s.arg.op = .read ∨ r.ro = false → outsideMay s1 r.loc page s.arg.op w.size = false →
          exec .remoteRequest s = .next { s1 with remoteWaits := s.remoteWaits.filter (fun x => x.id != s.nextId) ++ [w] }) ∧
        (∀ a, r.loc = .hbm a → outsideMay s1 r.loc page s.arg.op w.size = true → keyed s r.key a w.size = true →
          (∀ v, s.arg.op = .write v → r.ro = false →
            ∃ u, exec .remoteRequest s = .next u ∧ u.mem = memPut s.mem a (leBytes w.size v.toNat) ∧ u.out = s.out ++ [.peer 0 false]) ∧
          (s.arg.op = .read → poisonedAt s (.hbm a) w.size = false →
            ∃ u, exec .remoteRequest s = .next u ∧ u.mem = s.mem ∧
              u.out = s.out ++ [.peer (BitVec.ofNat 64 (leNat (memBytes s.mem a w.size) % 2 ^ (8 * w.size))) false])))) ∧
    (let waits := s.reqs.filter fun x => x.loc.onDevice n && !x.done
     let gone := fun (u : State) =>
       (waits = [] → exec .linkFailure s = .next u) ∧ (∀ x z y, waits = [x] → x.op = .load z y → exec .linkFailure s = .next (putReq u x {} true))
     let p : Peer := amGetD {} s.peers n
     ((∀ e ∈ s.cores, e.2.sbuf.any (fun x => x.loc.onDevice n) = false) →
       (n = 64 → s.hostUp = true → gone (dropPagesOf
         { s with hostUp := false, hostEpoch := s.hostEpoch + 1, remoteWaits := s.remoteWaits.filter fun w => !w.host } 64)) ∧
       (n ≠ 64 → p.up = true → s.arg.flag = true ∨ portsLost s n = true →
         gone (dropPagesOf { s with peers := amSet s.peers n { p with up := false, epoch := p.epoch + 1 } } n))) ∧
     (n = 64 → s.hostUp = false → exec .linkFailure s = .next s) ∧
     (n ≠ 64 → p.up = false → exec .linkFailure s = .next s)) ∧
    (n < 64 → let p : Peer := amGetD {} s.peers n
      let ports : BitVec 16 := s.arg.v.setWidth 16
      (s.arg.v.getLsbD 62 = false → exec .peerRestore s = .next { s with peers := amSet s.peers n { p with ports := ports } }) ∧
      (s.arg.v.getLsbD 62 = true → ports ≠ 0 → ports &&& ~~~s.linkUp = 0 → (∀ x ∈ s.reqs, x.loc.onDevice n = true → x.done = true) →
        (∀ e ∈ s.cores, e.2.sbuf.any (fun x => x.loc.onDevice n) = false) →
        exec .peerRestore s = .next { s with peers := amSet s.peers n { p with ports := ports, up := true },
                                             dropped := s.dropped.map fun d => if d.line.onDevice n then { d with old := true } else d })) ∧
    exec .hostLinkRetrain s = .next { s with hostUp := true } ∧
    (s.arg.flag = true → exec .peerPortLinkChange s = .next { s with linkUp := putBit s.linkUp n true, linkLost := amErase s.linkLost n }) ∧
    (s.arg.flag = false → s.linkUp.getLsbD n = true →
      exec .peerPortLinkChange s = .next { s with linkUp := putBit s.linkUp n false, linkLost := amSet s.linkLost n s.time.toNat }) ∧
    exec .debugFreeze s = .next { s with frozen := true } ∧
    exec .debugThaw s = .next { s with frozen := false } ∧
    (s.frozen = false → exec .debugWindowAccess s = .next s) ∧
    (s.frozen = true →
      (s.arg.flag = false → exec .debugWindowAccess s = .next { s with out := s.out ++ [.debug (debugRead s s.arg.dbg)] }) ∧
      (∀ pa, s.arg.flag = true → s.arg.dbg = .mem pa → pa < 2 ^ 39 →
        exec .debugWindowAccess s = .next { s with mem := memSet s.mem pa (s.arg.v.setWidth 8) }) ∧
      (∀ core i c, s.arg.flag = true → s.arg.dbg = .pc core i → getCtx s (ctxId core i) = some c →
        exec .debugWindowAccess s = .next (setCtx s (ctxId core i) { c with pc := s.arg.v &&& ~~~(3 : Word) }))) ∧
    (∀ pa, s.arg.err = .line pa → m = 0 →
      exec .uncorrectableError s = .next { s with poisoned := addAll s.poisoned (granules (pa / 64 * 64) 64) }) ∧
    (∀ pa, s.arg.err = .line pa → m = 1 → exec .uncorrectableError s = .next { s with poisoned := addAll s.poisoned [pa / 4] }) ∧
    (∀ core a, s.arg.err = .granule core a →
      exec .uncorrectableError s = .next (setCore s core { getCore s core with spPoison := addAll (getCore s core).spPoison [a / 4] })) ∧
    (∀ core, s.arg.err = .logic core → exec .uncorrectableError s = .next (coreError s core)) ∧
    exec .correctedError s = .next { s with corrected := s.corrected + 1, out := s.out ++ [.corrected (s.corrected + 1)] } ∧
    ((getRow s n).pending = [] → exec .rowRemap s = .next s) ∧
    (remapPoint s n = false → exec .rowRemap s = .next s) ∧
    (∀ q i, (getRow s n).pending = [q] → remapPoint s n = true → rowOwner s n = none → (List.range 16).find? (fun i => (getRow s n).physical i == some q) = some i →
      ∃ u, exec .rowRemap s = .next u ∧ u.mem = s.mem ∧ (getRow u n).quarantined = (getRow s n).quarantined ++ [q] ∧ (getRow u n).pending = [])
end

