-- ==== Sys2Proof/Laws/State.lean ====
section
/-! SUPPORT. What each update of the state leaves and what it writes: one lemma for each field and update. -/

namespace Sys2Proof.Machine

/-! ### setCore -/

@[simp] theorem setCore_time (s : State) (c : Nat) (k : Core) : (setCore s c k).time = s.time := rfl
@[simp] theorem setCore_cores (s : State) (c : Nat) (k : Core) : (setCore s c k).cores = amSet s.cores c k := rfl
@[simp] theorem setCore_rows (s : State) (c : Nat) (k : Core) : (setCore s c k).rows = s.rows := rfl
@[simp] theorem setCore_segs (s : State) (c : Nat) (k : Core) : (setCore s c k).segs = s.segs := rfl
@[simp] theorem setCore_tenants (s : State) (c : Nat) (k : Core) : (setCore s c k).tenants = s.tenants := rfl
@[simp] theorem setCore_hyp (s : State) (c : Nat) (k : Core) : (setCore s c k).hyp = s.hyp := rfl
@[simp] theorem setCore_mem (s : State) (c : Nat) (k : Core) : (setCore s c k).mem = s.mem := rfl
@[simp] theorem setCore_poisoned (s : State) (c : Nat) (k : Core) : (setCore s c k).poisoned = s.poisoned := rfl
@[simp] theorem setCore_lineKeys (s : State) (c : Nat) (k : Core) : (setCore s c k).lineKeys = s.lineKeys := rfl
@[simp] theorem setCore_lines (s : State) (c : Nat) (k : Core) : (setCore s c k).lines = s.lines := rfl
@[simp] theorem setCore_images (s : State) (c : Nat) (k : Core) : (setCore s c k).images = s.images := rfl
@[simp] theorem setCore_claims (s : State) (c : Nat) (k : Core) : (setCore s c k).claims = s.claims := rfl
@[simp] theorem setCore_reqs (s : State) (c : Nat) (k : Core) : (setCore s c k).reqs = s.reqs := rfl
@[simp] theorem setCore_walks (s : State) (c : Nat) (k : Core) : (setCore s c k).walks = s.walks := rfl
@[simp] theorem setCore_s1cache (s : State) (c : Nat) (k : Core) : (setCore s c k).s1cache = s.s1cache := rfl
@[simp] theorem setCore_flights (s : State) (c : Nat) (k : Core) : (setCore s c k).flights = s.flights := rfl
@[simp] theorem setCore_octets (s : State) (c : Nat) (k : Core) : (setCore s c k).octets = s.octets := rfl
@[simp] theorem setCore_ports (s : State) (c : Nat) (k : Core) : (setCore s c k).ports = s.ports := rfl
@[simp] theorem setCore_tlbis (s : State) (c : Nat) (k : Core) : (setCore s c k).tlbis = s.tlbis := rfl
@[simp] theorem setCore_remoteWaits (s : State) (c : Nat) (k : Core) : (setCore s c k).remoteWaits = s.remoteWaits := rfl
@[simp] theorem setCore_dropped (s : State) (c : Nat) (k : Core) : (setCore s c k).dropped = s.dropped := rfl
@[simp] theorem setCore_watches (s : State) (c : Nat) (k : Core) : (setCore s c k).watches = s.watches := rfl
@[simp] theorem setCore_vault (s : State) (c : Nat) (k : Core) : (setCore s c k).vault = s.vault := rfl
@[simp] theorem setCore_keyGen (s : State) (c : Nat) (k : Core) : (setCore s c k).keyGen = s.keyGen := rfl
@[simp] theorem setCore_vBusy (s : State) (c : Nat) (k : Core) : (setCore s c k).vBusy = s.vBusy := rfl
@[simp] theorem setCore_vStatus (s : State) (c : Nat) (k : Core) : (setCore s c k).vStatus = s.vStatus := rfl
@[simp] theorem setCore_vJob (s : State) (c : Nat) (k : Core) : (setCore s c k).vJob = s.vJob := rfl
@[simp] theorem setCore_tBusy (s : State) (c : Nat) (k : Core) : (setCore s c k).tBusy = s.tBusy := rfl
@[simp] theorem setCore_tStatus (s : State) (c : Nat) (k : Core) : (setCore s c k).tStatus = s.tStatus := rfl
@[simp] theorem setCore_invAddr (s : State) (c : Nat) (k : Core) : (setCore s c k).invAddr = s.invAddr := rfl
@[simp] theorem setCore_invBusy (s : State) (c : Nat) (k : Core) : (setCore s c k).invBusy = s.invBusy := rfl
@[simp] theorem setCore_plim (s : State) (c : Nat) (k : Core) : (setCore s c k).plim = s.plim := rfl
@[simp] theorem setCore_therm (s : State) (c : Nat) (k : Core) : (setCore s c k).therm = s.therm := rfl
@[simp] theorem setCore_fastBench (s : State) (c : Nat) (k : Core) : (setCore s c k).fastBench = s.fastBench := rfl
@[simp] theorem setCore_fastCalm (s : State) (c : Nat) (k : Core) : (setCore s c k).fastCalm = s.fastCalm := rfl
@[simp] theorem setCore_lowering (s : State) (c : Nat) (k : Core) : (setCore s c k).lowering = s.lowering := rfl
@[simp] theorem setCore_lowered (s : State) (c : Nat) (k : Core) : (setCore s c k).lowered = s.lowered := rfl
@[simp] theorem setCore_hottest (s : State) (c : Nat) (k : Core) : (setCore s c k).hottest = s.hottest := rfl
@[simp] theorem setCore_energyPage (s : State) (c : Nat) (k : Core) : (setCore s c k).energyPage = s.energyPage := rfl
@[simp] theorem setCore_fw (s : State) (c : Nat) (k : Core) : (setCore s c k).fw = s.fw := rfl
@[simp] theorem setCore_domEn (s : State) (c : Nat) (k : Core) : (setCore s c k).domEn = s.domEn := rfl
@[simp] theorem setCore_dev (s : State) (c : Nat) (k : Core) : (setCore s c k).dev = s.dev := rfl
@[simp] theorem setCore_hostUp (s : State) (c : Nat) (k : Core) : (setCore s c k).hostUp = s.hostUp := rfl
@[simp] theorem setCore_hostEpoch (s : State) (c : Nat) (k : Core) : (setCore s c k).hostEpoch = s.hostEpoch := rfl
@[simp] theorem setCore_peers (s : State) (c : Nat) (k : Core) : (setCore s c k).peers = s.peers := rfl
@[simp] theorem setCore_linkUp (s : State) (c : Nat) (k : Core) : (setCore s c k).linkUp = s.linkUp := rfl
@[simp] theorem setCore_linkLost (s : State) (c : Nat) (k : Core) : (setCore s c k).linkLost = s.linkLost := rfl
@[simp] theorem setCore_trail0 (s : State) (c : Nat) (k : Core) : (setCore s c k).trail0 = s.trail0 := rfl
@[simp] theorem setCore_trail1 (s : State) (c : Nat) (k : Core) : (setCore s c k).trail1 = s.trail1 := rfl
@[simp] theorem setCore_frozen (s : State) (c : Nat) (k : Core) : (setCore s c k).frozen = s.frozen := rfl
@[simp] theorem setCore_corrected (s : State) (c : Nat) (k : Core) : (setCore s c k).corrected = s.corrected := rfl
@[simp] theorem setCore_nextId (s : State) (c : Nat) (k : Core) : (setCore s c k).nextId = s.nextId := rfl
@[simp] theorem setCore_cycle (s : State) (c : Nat) (k : Core) : (setCore s c k).cycle = s.cycle := rfl
@[simp] theorem setCore_free (s : State) (c : Nat) (k : Core) : (setCore s c k).free = s.free := rfl
@[simp] theorem setCore_out (s : State) (c : Nat) (k : Core) : (setCore s c k).out = s.out := rfl
@[simp] theorem setCore_issuing (s : State) (c : Nat) (k : Core) : (setCore s c k).issuing = s.issuing := rfl
@[simp] theorem setCore_cur (s : State) (c : Nat) (k : Core) : (setCore s c k).cur = s.cur := rfl
@[simp] theorem setCore_arg (s : State) (c : Nat) (k : Core) : (setCore s c k).arg = s.arg := rfl
@[simp] theorem setCore_agenda (s : State) (c : Nat) (k : Core) : (setCore s c k).agenda = s.agenda := rfl
@[simp] theorem setCore_idleCore (s : State) (c : Nat) (k : Core) : (setCore s c k).idleCore = s.idleCore := rfl

/-! ### modCore -/

@[simp] theorem modCore_time (s : State) (c : Nat) (f : Core → Core) : (modCore s c f).time = s.time := rfl
@[simp] theorem modCore_cores (s : State) (c : Nat) (f : Core → Core) : (modCore s c f).cores = amSet s.cores c (f (getCore s c)) := rfl
@[simp] theorem modCore_rows (s : State) (c : Nat) (f : Core → Core) : (modCore s c f).rows = s.rows := rfl
@[simp] theorem modCore_segs (s : State) (c : Nat) (f : Core → Core) : (modCore s c f).segs = s.segs := rfl
@[simp] theorem modCore_tenants (s : State) (c : Nat) (f : Core → Core) : (modCore s c f).tenants = s.tenants := rfl
@[simp] theorem modCore_hyp (s : State) (c : Nat) (f : Core → Core) : (modCore s c f).hyp = s.hyp := rfl
@[simp] theorem modCore_mem (s : State) (c : Nat) (f : Core → Core) : (modCore s c f).mem = s.mem := rfl
@[simp] theorem modCore_poisoned (s : State) (c : Nat) (f : Core → Core) : (modCore s c f).poisoned = s.poisoned := rfl
@[simp] theorem modCore_lineKeys (s : State) (c : Nat) (f : Core → Core) : (modCore s c f).lineKeys = s.lineKeys := rfl
@[simp] theorem modCore_lines (s : State) (c : Nat) (f : Core → Core) : (modCore s c f).lines = s.lines := rfl
@[simp] theorem modCore_images (s : State) (c : Nat) (f : Core → Core) : (modCore s c f).images = s.images := rfl
@[simp] theorem modCore_claims (s : State) (c : Nat) (f : Core → Core) : (modCore s c f).claims = s.claims := rfl
@[simp] theorem modCore_reqs (s : State) (c : Nat) (f : Core → Core) : (modCore s c f).reqs = s.reqs := rfl
@[simp] theorem modCore_walks (s : State) (c : Nat) (f : Core → Core) : (modCore s c f).walks = s.walks := rfl
@[simp] theorem modCore_s1cache (s : State) (c : Nat) (f : Core → Core) : (modCore s c f).s1cache = s.s1cache := rfl
@[simp] theorem modCore_flights (s : State) (c : Nat) (f : Core → Core) : (modCore s c f).flights = s.flights := rfl
@[simp] theorem modCore_octets (s : State) (c : Nat) (f : Core → Core) : (modCore s c f).octets = s.octets := rfl
@[simp] theorem modCore_ports (s : State) (c : Nat) (f : Core → Core) : (modCore s c f).ports = s.ports := rfl
@[simp] theorem modCore_tlbis (s : State) (c : Nat) (f : Core → Core) : (modCore s c f).tlbis = s.tlbis := rfl
@[simp] theorem modCore_remoteWaits (s : State) (c : Nat) (f : Core → Core) : (modCore s c f).remoteWaits = s.remoteWaits := rfl
@[simp] theorem modCore_dropped (s : State) (c : Nat) (f : Core → Core) : (modCore s c f).dropped = s.dropped := rfl
@[simp] theorem modCore_watches (s : State) (c : Nat) (f : Core → Core) : (modCore s c f).watches = s.watches := rfl
@[simp] theorem modCore_vault (s : State) (c : Nat) (f : Core → Core) : (modCore s c f).vault = s.vault := rfl
@[simp] theorem modCore_keyGen (s : State) (c : Nat) (f : Core → Core) : (modCore s c f).keyGen = s.keyGen := rfl
@[simp] theorem modCore_vBusy (s : State) (c : Nat) (f : Core → Core) : (modCore s c f).vBusy = s.vBusy := rfl
@[simp] theorem modCore_vStatus (s : State) (c : Nat) (f : Core → Core) : (modCore s c f).vStatus = s.vStatus := rfl
@[simp] theorem modCore_vJob (s : State) (c : Nat) (f : Core → Core) : (modCore s c f).vJob = s.vJob := rfl
@[simp] theorem modCore_tBusy (s : State) (c : Nat) (f : Core → Core) : (modCore s c f).tBusy = s.tBusy := rfl
@[simp] theorem modCore_tStatus (s : State) (c : Nat) (f : Core → Core) : (modCore s c f).tStatus = s.tStatus := rfl
@[simp] theorem modCore_invAddr (s : State) (c : Nat) (f : Core → Core) : (modCore s c f).invAddr = s.invAddr := rfl
@[simp] theorem modCore_invBusy (s : State) (c : Nat) (f : Core → Core) : (modCore s c f).invBusy = s.invBusy := rfl
@[simp] theorem modCore_plim (s : State) (c : Nat) (f : Core → Core) : (modCore s c f).plim = s.plim := rfl
@[simp] theorem modCore_therm (s : State) (c : Nat) (f : Core → Core) : (modCore s c f).therm = s.therm := rfl
@[simp] theorem modCore_fastBench (s : State) (c : Nat) (f : Core → Core) : (modCore s c f).fastBench = s.fastBench := rfl
@[simp] theorem modCore_fastCalm (s : State) (c : Nat) (f : Core → Core) : (modCore s c f).fastCalm = s.fastCalm := rfl
@[simp] theorem modCore_lowering (s : State) (c : Nat) (f : Core → Core) : (modCore s c f).lowering = s.lowering := rfl
@[simp] theorem modCore_lowered (s : State) (c : Nat) (f : Core → Core) : (modCore s c f).lowered = s.lowered := rfl
@[simp] theorem modCore_hottest (s : State) (c : Nat) (f : Core → Core) : (modCore s c f).hottest = s.hottest := rfl
@[simp] theorem modCore_energyPage (s : State) (c : Nat) (f : Core → Core) : (modCore s c f).energyPage = s.energyPage := rfl
@[simp] theorem modCore_fw (s : State) (c : Nat) (f : Core → Core) : (modCore s c f).fw = s.fw := rfl
@[simp] theorem modCore_domEn (s : State) (c : Nat) (f : Core → Core) : (modCore s c f).domEn = s.domEn := rfl
@[simp] theorem modCore_dev (s : State) (c : Nat) (f : Core → Core) : (modCore s c f).dev = s.dev := rfl
@[simp] theorem modCore_hostUp (s : State) (c : Nat) (f : Core → Core) : (modCore s c f).hostUp = s.hostUp := rfl
@[simp] theorem modCore_hostEpoch (s : State) (c : Nat) (f : Core → Core) : (modCore s c f).hostEpoch = s.hostEpoch := rfl
@[simp] theorem modCore_peers (s : State) (c : Nat) (f : Core → Core) : (modCore s c f).peers = s.peers := rfl
@[simp] theorem modCore_linkUp (s : State) (c : Nat) (f : Core → Core) : (modCore s c f).linkUp = s.linkUp := rfl
@[simp] theorem modCore_linkLost (s : State) (c : Nat) (f : Core → Core) : (modCore s c f).linkLost = s.linkLost := rfl
@[simp] theorem modCore_trail0 (s : State) (c : Nat) (f : Core → Core) : (modCore s c f).trail0 = s.trail0 := rfl
@[simp] theorem modCore_trail1 (s : State) (c : Nat) (f : Core → Core) : (modCore s c f).trail1 = s.trail1 := rfl
@[simp] theorem modCore_frozen (s : State) (c : Nat) (f : Core → Core) : (modCore s c f).frozen = s.frozen := rfl
@[simp] theorem modCore_corrected (s : State) (c : Nat) (f : Core → Core) : (modCore s c f).corrected = s.corrected := rfl
@[simp] theorem modCore_nextId (s : State) (c : Nat) (f : Core → Core) : (modCore s c f).nextId = s.nextId := rfl
@[simp] theorem modCore_cycle (s : State) (c : Nat) (f : Core → Core) : (modCore s c f).cycle = s.cycle := rfl
@[simp] theorem modCore_free (s : State) (c : Nat) (f : Core → Core) : (modCore s c f).free = s.free := rfl
@[simp] theorem modCore_out (s : State) (c : Nat) (f : Core → Core) : (modCore s c f).out = s.out := rfl
@[simp] theorem modCore_issuing (s : State) (c : Nat) (f : Core → Core) : (modCore s c f).issuing = s.issuing := rfl
@[simp] theorem modCore_cur (s : State) (c : Nat) (f : Core → Core) : (modCore s c f).cur = s.cur := rfl
@[simp] theorem modCore_arg (s : State) (c : Nat) (f : Core → Core) : (modCore s c f).arg = s.arg := rfl
@[simp] theorem modCore_agenda (s : State) (c : Nat) (f : Core → Core) : (modCore s c f).agenda = s.agenda := rfl
@[simp] theorem modCore_idleCore (s : State) (c : Nat) (f : Core → Core) : (modCore s c f).idleCore = s.idleCore := rfl

/-! ### setTenant -/

@[simp] theorem setTenant_time (s : State) (t : Nat) (x : Tenant) : (setTenant s t x).time = s.time := rfl
@[simp] theorem setTenant_cores (s : State) (t : Nat) (x : Tenant) : (setTenant s t x).cores = s.cores := rfl
@[simp] theorem setTenant_rows (s : State) (t : Nat) (x : Tenant) : (setTenant s t x).rows = s.rows := rfl
@[simp] theorem setTenant_segs (s : State) (t : Nat) (x : Tenant) : (setTenant s t x).segs = s.segs := rfl
@[simp] theorem setTenant_tenants (s : State) (t : Nat) (x : Tenant) : (setTenant s t x).tenants = amSet s.tenants t x := rfl
@[simp] theorem setTenant_hyp (s : State) (t : Nat) (x : Tenant) : (setTenant s t x).hyp = s.hyp := rfl
@[simp] theorem setTenant_mem (s : State) (t : Nat) (x : Tenant) : (setTenant s t x).mem = s.mem := rfl
@[simp] theorem setTenant_poisoned (s : State) (t : Nat) (x : Tenant) : (setTenant s t x).poisoned = s.poisoned := rfl
@[simp] theorem setTenant_lineKeys (s : State) (t : Nat) (x : Tenant) : (setTenant s t x).lineKeys = s.lineKeys := rfl
@[simp] theorem setTenant_lines (s : State) (t : Nat) (x : Tenant) : (setTenant s t x).lines = s.lines := rfl
@[simp] theorem setTenant_images (s : State) (t : Nat) (x : Tenant) : (setTenant s t x).images = s.images := rfl
@[simp] theorem setTenant_claims (s : State) (t : Nat) (x : Tenant) : (setTenant s t x).claims = s.claims := rfl
@[simp] theorem setTenant_reqs (s : State) (t : Nat) (x : Tenant) : (setTenant s t x).reqs = s.reqs := rfl
@[simp] theorem setTenant_walks (s : State) (t : Nat) (x : Tenant) : (setTenant s t x).walks = s.walks := rfl
@[simp] theorem setTenant_s1cache (s : State) (t : Nat) (x : Tenant) : (setTenant s t x).s1cache = s.s1cache := rfl
@[simp] theorem setTenant_flights (s : State) (t : Nat) (x : Tenant) : (setTenant s t x).flights = s.flights := rfl
@[simp] theorem setTenant_octets (s : State) (t : Nat) (x : Tenant) : (setTenant s t x).octets = s.octets := rfl
@[simp] theorem setTenant_ports (s : State) (t : Nat) (x : Tenant) : (setTenant s t x).ports = s.ports := rfl
@[simp] theorem setTenant_tlbis (s : State) (t : Nat) (x : Tenant) : (setTenant s t x).tlbis = s.tlbis := rfl
@[simp] theorem setTenant_remoteWaits (s : State) (t : Nat) (x : Tenant) : (setTenant s t x).remoteWaits = s.remoteWaits := rfl
@[simp] theorem setTenant_dropped (s : State) (t : Nat) (x : Tenant) : (setTenant s t x).dropped = s.dropped := rfl
@[simp] theorem setTenant_watches (s : State) (t : Nat) (x : Tenant) : (setTenant s t x).watches = s.watches := rfl
@[simp] theorem setTenant_vault (s : State) (t : Nat) (x : Tenant) : (setTenant s t x).vault = s.vault := rfl
@[simp] theorem setTenant_keyGen (s : State) (t : Nat) (x : Tenant) : (setTenant s t x).keyGen = s.keyGen := rfl
@[simp] theorem setTenant_vBusy (s : State) (t : Nat) (x : Tenant) : (setTenant s t x).vBusy = s.vBusy := rfl
@[simp] theorem setTenant_vStatus (s : State) (t : Nat) (x : Tenant) : (setTenant s t x).vStatus = s.vStatus := rfl
@[simp] theorem setTenant_vJob (s : State) (t : Nat) (x : Tenant) : (setTenant s t x).vJob = s.vJob := rfl
@[simp] theorem setTenant_tBusy (s : State) (t : Nat) (x : Tenant) : (setTenant s t x).tBusy = s.tBusy := rfl
@[simp] theorem setTenant_tStatus (s : State) (t : Nat) (x : Tenant) : (setTenant s t x).tStatus = s.tStatus := rfl
@[simp] theorem setTenant_invAddr (s : State) (t : Nat) (x : Tenant) : (setTenant s t x).invAddr = s.invAddr := rfl
@[simp] theorem setTenant_invBusy (s : State) (t : Nat) (x : Tenant) : (setTenant s t x).invBusy = s.invBusy := rfl
@[simp] theorem setTenant_plim (s : State) (t : Nat) (x : Tenant) : (setTenant s t x).plim = s.plim := rfl
@[simp] theorem setTenant_therm (s : State) (t : Nat) (x : Tenant) : (setTenant s t x).therm = s.therm := rfl
@[simp] theorem setTenant_fastBench (s : State) (t : Nat) (x : Tenant) : (setTenant s t x).fastBench = s.fastBench := rfl
@[simp] theorem setTenant_fastCalm (s : State) (t : Nat) (x : Tenant) : (setTenant s t x).fastCalm = s.fastCalm := rfl
@[simp] theorem setTenant_lowering (s : State) (t : Nat) (x : Tenant) : (setTenant s t x).lowering = s.lowering := rfl
@[simp] theorem setTenant_lowered (s : State) (t : Nat) (x : Tenant) : (setTenant s t x).lowered = s.lowered := rfl
@[simp] theorem setTenant_hottest (s : State) (t : Nat) (x : Tenant) : (setTenant s t x).hottest = s.hottest := rfl
@[simp] theorem setTenant_energyPage (s : State) (t : Nat) (x : Tenant) : (setTenant s t x).energyPage = s.energyPage := rfl
@[simp] theorem setTenant_fw (s : State) (t : Nat) (x : Tenant) : (setTenant s t x).fw = s.fw := rfl
@[simp] theorem setTenant_domEn (s : State) (t : Nat) (x : Tenant) : (setTenant s t x).domEn = s.domEn := rfl
@[simp] theorem setTenant_dev (s : State) (t : Nat) (x : Tenant) : (setTenant s t x).dev = s.dev := rfl
@[simp] theorem setTenant_hostUp (s : State) (t : Nat) (x : Tenant) : (setTenant s t x).hostUp = s.hostUp := rfl
@[simp] theorem setTenant_hostEpoch (s : State) (t : Nat) (x : Tenant) : (setTenant s t x).hostEpoch = s.hostEpoch := rfl
@[simp] theorem setTenant_peers (s : State) (t : Nat) (x : Tenant) : (setTenant s t x).peers = s.peers := rfl
@[simp] theorem setTenant_linkUp (s : State) (t : Nat) (x : Tenant) : (setTenant s t x).linkUp = s.linkUp := rfl
@[simp] theorem setTenant_linkLost (s : State) (t : Nat) (x : Tenant) : (setTenant s t x).linkLost = s.linkLost := rfl
@[simp] theorem setTenant_trail0 (s : State) (t : Nat) (x : Tenant) : (setTenant s t x).trail0 = s.trail0 := rfl
@[simp] theorem setTenant_trail1 (s : State) (t : Nat) (x : Tenant) : (setTenant s t x).trail1 = s.trail1 := rfl
@[simp] theorem setTenant_frozen (s : State) (t : Nat) (x : Tenant) : (setTenant s t x).frozen = s.frozen := rfl
@[simp] theorem setTenant_corrected (s : State) (t : Nat) (x : Tenant) : (setTenant s t x).corrected = s.corrected := rfl
@[simp] theorem setTenant_nextId (s : State) (t : Nat) (x : Tenant) : (setTenant s t x).nextId = s.nextId := rfl
@[simp] theorem setTenant_cycle (s : State) (t : Nat) (x : Tenant) : (setTenant s t x).cycle = s.cycle := rfl
@[simp] theorem setTenant_free (s : State) (t : Nat) (x : Tenant) : (setTenant s t x).free = s.free := rfl
@[simp] theorem setTenant_out (s : State) (t : Nat) (x : Tenant) : (setTenant s t x).out = s.out := rfl
@[simp] theorem setTenant_issuing (s : State) (t : Nat) (x : Tenant) : (setTenant s t x).issuing = s.issuing := rfl
@[simp] theorem setTenant_cur (s : State) (t : Nat) (x : Tenant) : (setTenant s t x).cur = s.cur := rfl
@[simp] theorem setTenant_arg (s : State) (t : Nat) (x : Tenant) : (setTenant s t x).arg = s.arg := rfl
@[simp] theorem setTenant_agenda (s : State) (t : Nat) (x : Tenant) : (setTenant s t x).agenda = s.agenda := rfl
@[simp] theorem setTenant_idleCore (s : State) (t : Nat) (x : Tenant) : (setTenant s t x).idleCore = s.idleCore := rfl

/-! ### modTenant -/

@[simp] theorem modTenant_time (s : State) (t : Nat) (f : Tenant → Tenant) : (modTenant s t f).time = s.time := rfl
@[simp] theorem modTenant_cores (s : State) (t : Nat) (f : Tenant → Tenant) : (modTenant s t f).cores = s.cores := rfl
@[simp] theorem modTenant_rows (s : State) (t : Nat) (f : Tenant → Tenant) : (modTenant s t f).rows = s.rows := rfl
@[simp] theorem modTenant_segs (s : State) (t : Nat) (f : Tenant → Tenant) : (modTenant s t f).segs = s.segs := rfl
@[simp] theorem modTenant_tenants (s : State) (t : Nat) (f : Tenant → Tenant) : (modTenant s t f).tenants = amSet s.tenants t (f (getTenant s t)) := rfl
@[simp] theorem modTenant_hyp (s : State) (t : Nat) (f : Tenant → Tenant) : (modTenant s t f).hyp = s.hyp := rfl
@[simp] theorem modTenant_mem (s : State) (t : Nat) (f : Tenant → Tenant) : (modTenant s t f).mem = s.mem := rfl
@[simp] theorem modTenant_poisoned (s : State) (t : Nat) (f : Tenant → Tenant) : (modTenant s t f).poisoned = s.poisoned := rfl
@[simp] theorem modTenant_lineKeys (s : State) (t : Nat) (f : Tenant → Tenant) : (modTenant s t f).lineKeys = s.lineKeys := rfl
@[simp] theorem modTenant_lines (s : State) (t : Nat) (f : Tenant → Tenant) : (modTenant s t f).lines = s.lines := rfl
@[simp] theorem modTenant_images (s : State) (t : Nat) (f : Tenant → Tenant) : (modTenant s t f).images = s.images := rfl
@[simp] theorem modTenant_claims (s : State) (t : Nat) (f : Tenant → Tenant) : (modTenant s t f).claims = s.claims := rfl
@[simp] theorem modTenant_reqs (s : State) (t : Nat) (f : Tenant → Tenant) : (modTenant s t f).reqs = s.reqs := rfl
@[simp] theorem modTenant_walks (s : State) (t : Nat) (f : Tenant → Tenant) : (modTenant s t f).walks = s.walks := rfl
@[simp] theorem modTenant_s1cache (s : State) (t : Nat) (f : Tenant → Tenant) : (modTenant s t f).s1cache = s.s1cache := rfl
@[simp] theorem modTenant_flights (s : State) (t : Nat) (f : Tenant → Tenant) : (modTenant s t f).flights = s.flights := rfl
@[simp] theorem modTenant_octets (s : State) (t : Nat) (f : Tenant → Tenant) : (modTenant s t f).octets = s.octets := rfl
@[simp] theorem modTenant_ports (s : State) (t : Nat) (f : Tenant → Tenant) : (modTenant s t f).ports = s.ports := rfl
@[simp] theorem modTenant_tlbis (s : State) (t : Nat) (f : Tenant → Tenant) : (modTenant s t f).tlbis = s.tlbis := rfl
@[simp] theorem modTenant_remoteWaits (s : State) (t : Nat) (f : Tenant → Tenant) : (modTenant s t f).remoteWaits = s.remoteWaits := rfl
@[simp] theorem modTenant_dropped (s : State) (t : Nat) (f : Tenant → Tenant) : (modTenant s t f).dropped = s.dropped := rfl
@[simp] theorem modTenant_watches (s : State) (t : Nat) (f : Tenant → Tenant) : (modTenant s t f).watches = s.watches := rfl
@[simp] theorem modTenant_vault (s : State) (t : Nat) (f : Tenant → Tenant) : (modTenant s t f).vault = s.vault := rfl
@[simp] theorem modTenant_keyGen (s : State) (t : Nat) (f : Tenant → Tenant) : (modTenant s t f).keyGen = s.keyGen := rfl
@[simp] theorem modTenant_vBusy (s : State) (t : Nat) (f : Tenant → Tenant) : (modTenant s t f).vBusy = s.vBusy := rfl
@[simp] theorem modTenant_vStatus (s : State) (t : Nat) (f : Tenant → Tenant) : (modTenant s t f).vStatus = s.vStatus := rfl
@[simp] theorem modTenant_vJob (s : State) (t : Nat) (f : Tenant → Tenant) : (modTenant s t f).vJob = s.vJob := rfl
@[simp] theorem modTenant_tBusy (s : State) (t : Nat) (f : Tenant → Tenant) : (modTenant s t f).tBusy = s.tBusy := rfl
@[simp] theorem modTenant_tStatus (s : State) (t : Nat) (f : Tenant → Tenant) : (modTenant s t f).tStatus = s.tStatus := rfl
@[simp] theorem modTenant_invAddr (s : State) (t : Nat) (f : Tenant → Tenant) : (modTenant s t f).invAddr = s.invAddr := rfl
@[simp] theorem modTenant_invBusy (s : State) (t : Nat) (f : Tenant → Tenant) : (modTenant s t f).invBusy = s.invBusy := rfl
@[simp] theorem modTenant_plim (s : State) (t : Nat) (f : Tenant → Tenant) : (modTenant s t f).plim = s.plim := rfl
@[simp] theorem modTenant_therm (s : State) (t : Nat) (f : Tenant → Tenant) : (modTenant s t f).therm = s.therm := rfl
@[simp] theorem modTenant_fastBench (s : State) (t : Nat) (f : Tenant → Tenant) : (modTenant s t f).fastBench = s.fastBench := rfl
@[simp] theorem modTenant_fastCalm (s : State) (t : Nat) (f : Tenant → Tenant) : (modTenant s t f).fastCalm = s.fastCalm := rfl
@[simp] theorem modTenant_lowering (s : State) (t : Nat) (f : Tenant → Tenant) : (modTenant s t f).lowering = s.lowering := rfl
@[simp] theorem modTenant_lowered (s : State) (t : Nat) (f : Tenant → Tenant) : (modTenant s t f).lowered = s.lowered := rfl
@[simp] theorem modTenant_hottest (s : State) (t : Nat) (f : Tenant → Tenant) : (modTenant s t f).hottest = s.hottest := rfl
@[simp] theorem modTenant_energyPage (s : State) (t : Nat) (f : Tenant → Tenant) : (modTenant s t f).energyPage = s.energyPage := rfl
@[simp] theorem modTenant_fw (s : State) (t : Nat) (f : Tenant → Tenant) : (modTenant s t f).fw = s.fw := rfl
@[simp] theorem modTenant_domEn (s : State) (t : Nat) (f : Tenant → Tenant) : (modTenant s t f).domEn = s.domEn := rfl
@[simp] theorem modTenant_dev (s : State) (t : Nat) (f : Tenant → Tenant) : (modTenant s t f).dev = s.dev := rfl
@[simp] theorem modTenant_hostUp (s : State) (t : Nat) (f : Tenant → Tenant) : (modTenant s t f).hostUp = s.hostUp := rfl
@[simp] theorem modTenant_hostEpoch (s : State) (t : Nat) (f : Tenant → Tenant) : (modTenant s t f).hostEpoch = s.hostEpoch := rfl
@[simp] theorem modTenant_peers (s : State) (t : Nat) (f : Tenant → Tenant) : (modTenant s t f).peers = s.peers := rfl
@[simp] theorem modTenant_linkUp (s : State) (t : Nat) (f : Tenant → Tenant) : (modTenant s t f).linkUp = s.linkUp := rfl
@[simp] theorem modTenant_linkLost (s : State) (t : Nat) (f : Tenant → Tenant) : (modTenant s t f).linkLost = s.linkLost := rfl
@[simp] theorem modTenant_trail0 (s : State) (t : Nat) (f : Tenant → Tenant) : (modTenant s t f).trail0 = s.trail0 := rfl
@[simp] theorem modTenant_trail1 (s : State) (t : Nat) (f : Tenant → Tenant) : (modTenant s t f).trail1 = s.trail1 := rfl
@[simp] theorem modTenant_frozen (s : State) (t : Nat) (f : Tenant → Tenant) : (modTenant s t f).frozen = s.frozen := rfl
@[simp] theorem modTenant_corrected (s : State) (t : Nat) (f : Tenant → Tenant) : (modTenant s t f).corrected = s.corrected := rfl
@[simp] theorem modTenant_nextId (s : State) (t : Nat) (f : Tenant → Tenant) : (modTenant s t f).nextId = s.nextId := rfl
@[simp] theorem modTenant_cycle (s : State) (t : Nat) (f : Tenant → Tenant) : (modTenant s t f).cycle = s.cycle := rfl
@[simp] theorem modTenant_free (s : State) (t : Nat) (f : Tenant → Tenant) : (modTenant s t f).free = s.free := rfl
@[simp] theorem modTenant_out (s : State) (t : Nat) (f : Tenant → Tenant) : (modTenant s t f).out = s.out := rfl
@[simp] theorem modTenant_issuing (s : State) (t : Nat) (f : Tenant → Tenant) : (modTenant s t f).issuing = s.issuing := rfl
@[simp] theorem modTenant_cur (s : State) (t : Nat) (f : Tenant → Tenant) : (modTenant s t f).cur = s.cur := rfl
@[simp] theorem modTenant_arg (s : State) (t : Nat) (f : Tenant → Tenant) : (modTenant s t f).arg = s.arg := rfl
@[simp] theorem modTenant_agenda (s : State) (t : Nat) (f : Tenant → Tenant) : (modTenant s t f).agenda = s.agenda := rfl
@[simp] theorem modTenant_idleCore (s : State) (t : Nat) (f : Tenant → Tenant) : (modTenant s t f).idleCore = s.idleCore := rfl

/-! ### setSeg -/

@[simp] theorem setSeg_time (s : State) (k : Nat) (g : Seg) : (setSeg s k g).time = s.time := rfl
@[simp] theorem setSeg_cores (s : State) (k : Nat) (g : Seg) : (setSeg s k g).cores = s.cores := rfl
@[simp] theorem setSeg_rows (s : State) (k : Nat) (g : Seg) : (setSeg s k g).rows = s.rows := rfl
@[simp] theorem setSeg_segs (s : State) (k : Nat) (g : Seg) : (setSeg s k g).segs = amSet s.segs k g := rfl
@[simp] theorem setSeg_tenants (s : State) (k : Nat) (g : Seg) : (setSeg s k g).tenants = s.tenants := rfl
@[simp] theorem setSeg_hyp (s : State) (k : Nat) (g : Seg) : (setSeg s k g).hyp = s.hyp := rfl
@[simp] theorem setSeg_mem (s : State) (k : Nat) (g : Seg) : (setSeg s k g).mem = s.mem := rfl
@[simp] theorem setSeg_poisoned (s : State) (k : Nat) (g : Seg) : (setSeg s k g).poisoned = s.poisoned := rfl
@[simp] theorem setSeg_lineKeys (s : State) (k : Nat) (g : Seg) : (setSeg s k g).lineKeys = s.lineKeys := rfl
@[simp] theorem setSeg_lines (s : State) (k : Nat) (g : Seg) : (setSeg s k g).lines = s.lines := rfl
@[simp] theorem setSeg_images (s : State) (k : Nat) (g : Seg) : (setSeg s k g).images = s.images := rfl
@[simp] theorem setSeg_claims (s : State) (k : Nat) (g : Seg) : (setSeg s k g).claims = s.claims := rfl
@[simp] theorem setSeg_reqs (s : State) (k : Nat) (g : Seg) : (setSeg s k g).reqs = s.reqs := rfl
@[simp] theorem setSeg_walks (s : State) (k : Nat) (g : Seg) : (setSeg s k g).walks = s.walks := rfl
@[simp] theorem setSeg_s1cache (s : State) (k : Nat) (g : Seg) : (setSeg s k g).s1cache = s.s1cache := rfl
@[simp] theorem setSeg_flights (s : State) (k : Nat) (g : Seg) : (setSeg s k g).flights = s.flights := rfl
@[simp] theorem setSeg_octets (s : State) (k : Nat) (g : Seg) : (setSeg s k g).octets = s.octets := rfl
@[simp] theorem setSeg_ports (s : State) (k : Nat) (g : Seg) : (setSeg s k g).ports = s.ports := rfl
@[simp] theorem setSeg_tlbis (s : State) (k : Nat) (g : Seg) : (setSeg s k g).tlbis = s.tlbis := rfl
@[simp] theorem setSeg_remoteWaits (s : State) (k : Nat) (g : Seg) : (setSeg s k g).remoteWaits = s.remoteWaits := rfl
@[simp] theorem setSeg_dropped (s : State) (k : Nat) (g : Seg) : (setSeg s k g).dropped = s.dropped := rfl
@[simp] theorem setSeg_watches (s : State) (k : Nat) (g : Seg) : (setSeg s k g).watches = s.watches := rfl
@[simp] theorem setSeg_vault (s : State) (k : Nat) (g : Seg) : (setSeg s k g).vault = s.vault := rfl
@[simp] theorem setSeg_keyGen (s : State) (k : Nat) (g : Seg) : (setSeg s k g).keyGen = s.keyGen := rfl
@[simp] theorem setSeg_vBusy (s : State) (k : Nat) (g : Seg) : (setSeg s k g).vBusy = s.vBusy := rfl
@[simp] theorem setSeg_vStatus (s : State) (k : Nat) (g : Seg) : (setSeg s k g).vStatus = s.vStatus := rfl
@[simp] theorem setSeg_vJob (s : State) (k : Nat) (g : Seg) : (setSeg s k g).vJob = s.vJob := rfl
@[simp] theorem setSeg_tBusy (s : State) (k : Nat) (g : Seg) : (setSeg s k g).tBusy = s.tBusy := rfl
@[simp] theorem setSeg_tStatus (s : State) (k : Nat) (g : Seg) : (setSeg s k g).tStatus = s.tStatus := rfl
@[simp] theorem setSeg_invAddr (s : State) (k : Nat) (g : Seg) : (setSeg s k g).invAddr = s.invAddr := rfl
@[simp] theorem setSeg_invBusy (s : State) (k : Nat) (g : Seg) : (setSeg s k g).invBusy = s.invBusy := rfl
@[simp] theorem setSeg_plim (s : State) (k : Nat) (g : Seg) : (setSeg s k g).plim = s.plim := rfl
@[simp] theorem setSeg_therm (s : State) (k : Nat) (g : Seg) : (setSeg s k g).therm = s.therm := rfl
@[simp] theorem setSeg_fastBench (s : State) (k : Nat) (g : Seg) : (setSeg s k g).fastBench = s.fastBench := rfl
@[simp] theorem setSeg_fastCalm (s : State) (k : Nat) (g : Seg) : (setSeg s k g).fastCalm = s.fastCalm := rfl
@[simp] theorem setSeg_lowering (s : State) (k : Nat) (g : Seg) : (setSeg s k g).lowering = s.lowering := rfl
@[simp] theorem setSeg_lowered (s : State) (k : Nat) (g : Seg) : (setSeg s k g).lowered = s.lowered := rfl
@[simp] theorem setSeg_hottest (s : State) (k : Nat) (g : Seg) : (setSeg s k g).hottest = s.hottest := rfl
@[simp] theorem setSeg_energyPage (s : State) (k : Nat) (g : Seg) : (setSeg s k g).energyPage = s.energyPage := rfl
@[simp] theorem setSeg_fw (s : State) (k : Nat) (g : Seg) : (setSeg s k g).fw = s.fw := rfl
@[simp] theorem setSeg_domEn (s : State) (k : Nat) (g : Seg) : (setSeg s k g).domEn = s.domEn := rfl
@[simp] theorem setSeg_dev (s : State) (k : Nat) (g : Seg) : (setSeg s k g).dev = s.dev := rfl
@[simp] theorem setSeg_hostUp (s : State) (k : Nat) (g : Seg) : (setSeg s k g).hostUp = s.hostUp := rfl
@[simp] theorem setSeg_hostEpoch (s : State) (k : Nat) (g : Seg) : (setSeg s k g).hostEpoch = s.hostEpoch := rfl
@[simp] theorem setSeg_peers (s : State) (k : Nat) (g : Seg) : (setSeg s k g).peers = s.peers := rfl
@[simp] theorem setSeg_linkUp (s : State) (k : Nat) (g : Seg) : (setSeg s k g).linkUp = s.linkUp := rfl
@[simp] theorem setSeg_linkLost (s : State) (k : Nat) (g : Seg) : (setSeg s k g).linkLost = s.linkLost := rfl
@[simp] theorem setSeg_trail0 (s : State) (k : Nat) (g : Seg) : (setSeg s k g).trail0 = s.trail0 := rfl
@[simp] theorem setSeg_trail1 (s : State) (k : Nat) (g : Seg) : (setSeg s k g).trail1 = s.trail1 := rfl
@[simp] theorem setSeg_frozen (s : State) (k : Nat) (g : Seg) : (setSeg s k g).frozen = s.frozen := rfl
@[simp] theorem setSeg_corrected (s : State) (k : Nat) (g : Seg) : (setSeg s k g).corrected = s.corrected := rfl
@[simp] theorem setSeg_nextId (s : State) (k : Nat) (g : Seg) : (setSeg s k g).nextId = s.nextId := rfl
@[simp] theorem setSeg_cycle (s : State) (k : Nat) (g : Seg) : (setSeg s k g).cycle = s.cycle := rfl
@[simp] theorem setSeg_free (s : State) (k : Nat) (g : Seg) : (setSeg s k g).free = s.free := rfl
@[simp] theorem setSeg_out (s : State) (k : Nat) (g : Seg) : (setSeg s k g).out = s.out := rfl
@[simp] theorem setSeg_issuing (s : State) (k : Nat) (g : Seg) : (setSeg s k g).issuing = s.issuing := rfl
@[simp] theorem setSeg_cur (s : State) (k : Nat) (g : Seg) : (setSeg s k g).cur = s.cur := rfl
@[simp] theorem setSeg_arg (s : State) (k : Nat) (g : Seg) : (setSeg s k g).arg = s.arg := rfl
@[simp] theorem setSeg_agenda (s : State) (k : Nat) (g : Seg) : (setSeg s k g).agenda = s.agenda := rfl
@[simp] theorem setSeg_idleCore (s : State) (k : Nat) (g : Seg) : (setSeg s k g).idleCore = s.idleCore := rfl

/-! ### modRow -/

@[simp] theorem modRow_time (s : State) (r : Nat) (f : Row → Row) : (modRow s r f).time = s.time := rfl
@[simp] theorem modRow_cores (s : State) (r : Nat) (f : Row → Row) : (modRow s r f).cores = s.cores := rfl
@[simp] theorem modRow_rows (s : State) (r : Nat) (f : Row → Row) : (modRow s r f).rows = amSet s.rows r (f (getRow s r)) := rfl
@[simp] theorem modRow_segs (s : State) (r : Nat) (f : Row → Row) : (modRow s r f).segs = s.segs := rfl
@[simp] theorem modRow_tenants (s : State) (r : Nat) (f : Row → Row) : (modRow s r f).tenants = s.tenants := rfl
@[simp] theorem modRow_hyp (s : State) (r : Nat) (f : Row → Row) : (modRow s r f).hyp = s.hyp := rfl
@[simp] theorem modRow_mem (s : State) (r : Nat) (f : Row → Row) : (modRow s r f).mem = s.mem := rfl
@[simp] theorem modRow_poisoned (s : State) (r : Nat) (f : Row → Row) : (modRow s r f).poisoned = s.poisoned := rfl
@[simp] theorem modRow_lineKeys (s : State) (r : Nat) (f : Row → Row) : (modRow s r f).lineKeys = s.lineKeys := rfl
@[simp] theorem modRow_lines (s : State) (r : Nat) (f : Row → Row) : (modRow s r f).lines = s.lines := rfl
@[simp] theorem modRow_images (s : State) (r : Nat) (f : Row → Row) : (modRow s r f).images = s.images := rfl
@[simp] theorem modRow_claims (s : State) (r : Nat) (f : Row → Row) : (modRow s r f).claims = s.claims := rfl
@[simp] theorem modRow_reqs (s : State) (r : Nat) (f : Row → Row) : (modRow s r f).reqs = s.reqs := rfl
@[simp] theorem modRow_walks (s : State) (r : Nat) (f : Row → Row) : (modRow s r f).walks = s.walks := rfl
@[simp] theorem modRow_s1cache (s : State) (r : Nat) (f : Row → Row) : (modRow s r f).s1cache = s.s1cache := rfl
@[simp] theorem modRow_flights (s : State) (r : Nat) (f : Row → Row) : (modRow s r f).flights = s.flights := rfl
@[simp] theorem modRow_octets (s : State) (r : Nat) (f : Row → Row) : (modRow s r f).octets = s.octets := rfl
@[simp] theorem modRow_ports (s : State) (r : Nat) (f : Row → Row) : (modRow s r f).ports = s.ports := rfl
@[simp] theorem modRow_tlbis (s : State) (r : Nat) (f : Row → Row) : (modRow s r f).tlbis = s.tlbis := rfl
@[simp] theorem modRow_remoteWaits (s : State) (r : Nat) (f : Row → Row) : (modRow s r f).remoteWaits = s.remoteWaits := rfl
@[simp] theorem modRow_dropped (s : State) (r : Nat) (f : Row → Row) : (modRow s r f).dropped = s.dropped := rfl
@[simp] theorem modRow_watches (s : State) (r : Nat) (f : Row → Row) : (modRow s r f).watches = s.watches := rfl
@[simp] theorem modRow_vault (s : State) (r : Nat) (f : Row → Row) : (modRow s r f).vault = s.vault := rfl
@[simp] theorem modRow_keyGen (s : State) (r : Nat) (f : Row → Row) : (modRow s r f).keyGen = s.keyGen := rfl
@[simp] theorem modRow_vBusy (s : State) (r : Nat) (f : Row → Row) : (modRow s r f).vBusy = s.vBusy := rfl
@[simp] theorem modRow_vStatus (s : State) (r : Nat) (f : Row → Row) : (modRow s r f).vStatus = s.vStatus := rfl
@[simp] theorem modRow_vJob (s : State) (r : Nat) (f : Row → Row) : (modRow s r f).vJob = s.vJob := rfl
@[simp] theorem modRow_tBusy (s : State) (r : Nat) (f : Row → Row) : (modRow s r f).tBusy = s.tBusy := rfl
@[simp] theorem modRow_tStatus (s : State) (r : Nat) (f : Row → Row) : (modRow s r f).tStatus = s.tStatus := rfl
@[simp] theorem modRow_invAddr (s : State) (r : Nat) (f : Row → Row) : (modRow s r f).invAddr = s.invAddr := rfl
@[simp] theorem modRow_invBusy (s : State) (r : Nat) (f : Row → Row) : (modRow s r f).invBusy = s.invBusy := rfl
@[simp] theorem modRow_plim (s : State) (r : Nat) (f : Row → Row) : (modRow s r f).plim = s.plim := rfl
@[simp] theorem modRow_therm (s : State) (r : Nat) (f : Row → Row) : (modRow s r f).therm = s.therm := rfl
@[simp] theorem modRow_fastBench (s : State) (r : Nat) (f : Row → Row) : (modRow s r f).fastBench = s.fastBench := rfl
@[simp] theorem modRow_fastCalm (s : State) (r : Nat) (f : Row → Row) : (modRow s r f).fastCalm = s.fastCalm := rfl
@[simp] theorem modRow_lowering (s : State) (r : Nat) (f : Row → Row) : (modRow s r f).lowering = s.lowering := rfl
@[simp] theorem modRow_lowered (s : State) (r : Nat) (f : Row → Row) : (modRow s r f).lowered = s.lowered := rfl
@[simp] theorem modRow_hottest (s : State) (r : Nat) (f : Row → Row) : (modRow s r f).hottest = s.hottest := rfl
@[simp] theorem modRow_energyPage (s : State) (r : Nat) (f : Row → Row) : (modRow s r f).energyPage = s.energyPage := rfl
@[simp] theorem modRow_fw (s : State) (r : Nat) (f : Row → Row) : (modRow s r f).fw = s.fw := rfl
@[simp] theorem modRow_domEn (s : State) (r : Nat) (f : Row → Row) : (modRow s r f).domEn = s.domEn := rfl
@[simp] theorem modRow_dev (s : State) (r : Nat) (f : Row → Row) : (modRow s r f).dev = s.dev := rfl
@[simp] theorem modRow_hostUp (s : State) (r : Nat) (f : Row → Row) : (modRow s r f).hostUp = s.hostUp := rfl
@[simp] theorem modRow_hostEpoch (s : State) (r : Nat) (f : Row → Row) : (modRow s r f).hostEpoch = s.hostEpoch := rfl
@[simp] theorem modRow_peers (s : State) (r : Nat) (f : Row → Row) : (modRow s r f).peers = s.peers := rfl
@[simp] theorem modRow_linkUp (s : State) (r : Nat) (f : Row → Row) : (modRow s r f).linkUp = s.linkUp := rfl
@[simp] theorem modRow_linkLost (s : State) (r : Nat) (f : Row → Row) : (modRow s r f).linkLost = s.linkLost := rfl
@[simp] theorem modRow_trail0 (s : State) (r : Nat) (f : Row → Row) : (modRow s r f).trail0 = s.trail0 := rfl
@[simp] theorem modRow_trail1 (s : State) (r : Nat) (f : Row → Row) : (modRow s r f).trail1 = s.trail1 := rfl
@[simp] theorem modRow_frozen (s : State) (r : Nat) (f : Row → Row) : (modRow s r f).frozen = s.frozen := rfl
@[simp] theorem modRow_corrected (s : State) (r : Nat) (f : Row → Row) : (modRow s r f).corrected = s.corrected := rfl
@[simp] theorem modRow_nextId (s : State) (r : Nat) (f : Row → Row) : (modRow s r f).nextId = s.nextId := rfl
@[simp] theorem modRow_cycle (s : State) (r : Nat) (f : Row → Row) : (modRow s r f).cycle = s.cycle := rfl
@[simp] theorem modRow_free (s : State) (r : Nat) (f : Row → Row) : (modRow s r f).free = s.free := rfl
@[simp] theorem modRow_out (s : State) (r : Nat) (f : Row → Row) : (modRow s r f).out = s.out := rfl
@[simp] theorem modRow_issuing (s : State) (r : Nat) (f : Row → Row) : (modRow s r f).issuing = s.issuing := rfl
@[simp] theorem modRow_cur (s : State) (r : Nat) (f : Row → Row) : (modRow s r f).cur = s.cur := rfl
@[simp] theorem modRow_arg (s : State) (r : Nat) (f : Row → Row) : (modRow s r f).arg = s.arg := rfl
@[simp] theorem modRow_agenda (s : State) (r : Nat) (f : Row → Row) : (modRow s r f).agenda = s.agenda := rfl
@[simp] theorem modRow_idleCore (s : State) (r : Nat) (f : Row → Row) : (modRow s r f).idleCore = s.idleCore := rfl

end Sys2Proof.Machine
end

