-- ==== Sys2Proof/Laws/Maps.lean ====
section
/-! SUPPORT. Reading a map after it is written, and the accessors of cores, contexts, tenants and segments over the updates. -/

namespace Sys2Proof.Machine

@[simp] theorem amGet_amSet_same {α : Type} (m : AMap α) (k : Nat) (v : α) : amGet (amSet m k v) k = some v := by
  induction m with
  | nil => simp [amSet, amGet]
  | cons e r ih =>
    obtain ⟨i, x⟩ := e
    simp only [amSet]
    split
    · simp [amGet]
    · split
      · simp [amGet]
      · rename_i h; simp [amGet, Ne.symm h, ih]

theorem amGet_amSet_other {α : Type} (m : AMap α) (k j : Nat) (v : α) (h : j ≠ k) : amGet (amSet m k v) j = amGet m j := by
  induction m with
  | nil => simp [amSet, amGet, Ne.symm h]
  | cons e r ih =>
    obtain ⟨i, x⟩ := e
    simp only [amSet]
    split
    · simp [amGet, Ne.symm h]
    · split
      · rename_i h2; subst h2; simp [amGet, Ne.symm h]
      · simp [amGet, ih]

theorem amGet_amSet {α : Type} (m : AMap α) (k j : Nat) (v : α) : amGet (amSet m k v) j = if j = k then some v else amGet m j := by
  split
  · rename_i h; subst h; simp
  · rename_i h; exact amGet_amSet_other m k j v h

theorem amGetD_amSet {α : Type} (d : α) (m : AMap α) (k j : Nat) (v : α) :
    amGetD d (amSet m k v) j = if j = k then v else amGetD d m j := by
  simp only [amGetD, amGet_amSet]; split <;> rfl

theorem getCore_setCore (s : State) (c j : Nat) (k : Core) : getCore (setCore s c k) j = if j = c then k else getCore s j := by
  simp [getCore, amGetD_amSet]

theorem getCore_modCore (s : State) (c j : Nat) (f : Core → Core) :
    getCore (modCore s c f) j = if j = c then f (getCore s c) else getCore s j := getCore_setCore _ _ _ _

theorem getTenant_setTenant (s : State) (t j : Nat) (x : Tenant) : getTenant (setTenant s t x) j = if j = t then x else getTenant s j := by
  simp [getTenant, amGetD_amSet]

theorem getTenant_modTenant (s : State) (t j : Nat) (f : Tenant → Tenant) :
    getTenant (modTenant s t f) j = if j = t then f (getTenant s t) else getTenant s j := getTenant_setTenant _ _ _ _

theorem getSeg_setSeg (s : State) (k j : Nat) (g : Seg) : getSeg (setSeg s k g) j = if j = k then some g else getSeg s j := by
  simp [getSeg, amGet_amSet]

/-- A context id is its core and its slot (R4). -/
theorem core_slot_ext {a b : Nat} (h : coreOf a = coreOf b) (h' : slotOf a = slotOf b) : a = b := by
  simp only [coreOf, slotOf] at h h'; omega

/-- Context `id` when the contexts of one core are changed. -/
theorem getCtx_setCtx (s : State) (cid id : Nat) (c : Ctx) : getCtx (setCtx s cid c) id = if id = cid then some c else getCtx s id := by
  simp only [getCtx, setCtx, getCore_modCore]
  by_cases hc : coreOf id = coreOf cid
  · simp only [hc, if_true, amGet_amSet]
    by_cases hs : slotOf id = slotOf cid
    · simp [core_slot_ext hc hs]
    · have : id ≠ cid := fun h => hs (by rw [h])
      simp [hs, this]
  · have : id ≠ cid := fun h => hc (by rw [h])
    simp [hc, this]

theorem getCtx_modCtx (s : State) (cid id : Nat) (f : Ctx → Ctx) :
    getCtx (modCtx s cid f) id = if id = cid then (getCtx s cid).map f else getCtx s id := by
  unfold modCtx
  split
  · rename_i c h; rw [getCtx_setCtx, h]; rfl
  · rename_i h; split
    · rename_i h2; subst h2; simp [h]
    · rfl

/-- A change of a core that leaves its contexts leaves every context. -/
theorem getCtx_modCore (s : State) (k : Nat) (f : Core → Core) (h : (f (getCore s k)).ctxs = (getCore s k).ctxs) (id : Nat) :
    getCtx (modCore s k f) id = getCtx s id := by
  simp only [getCtx, getCore_modCore]
  split
  · rename_i hk; rw [h, hk]
  · rfl

theorem amSet_amSet {α : Type} (m : AMap α) (k : Nat) (v w : α) : amSet (amSet m k v) k w = amSet m k w := by
  induction m with
  | nil => simp [amSet]
  | cons e r ih =>
    obtain ⟨i, x⟩ := e
    by_cases h1 : k < i
    · simp [amSet, h1]
    · by_cases h2 : k = i
      · subst h2; simp [amSet]
      · simp [amSet, h1, h2, ih]

end Sys2Proof.Machine
end

