-- ==== Sys2Proof/Laws/Memory.lean ====
section
/-! SUPPORT. Memory: reading after a write, and the canonical form, which every operation keeps. -/

namespace Sys2Proof.Machine

theorem memFrom_mono {m : Memory} {l k : Nat} (h : memFrom (some l) m = true) (hk : k ≤ l) : memFrom (some k) m = true := by
  cases m with
  | nil => rfl
  | cons e r =>
    obtain ⟨a, v⟩ := e
    simp only [memFrom, Bool.and_eq_true, decide_eq_true_eq] at h ⊢
    exact ⟨⟨by omega, h.1.2⟩, h.2⟩

theorem memFrom_none {m : Memory} {l : Nat} (h : memFrom (some l) m = true) : memFrom none m = true := by
  cases m with
  | nil => rfl
  | cons e r =>
    obtain ⟨a, v⟩ := e
    simp only [memFrom, Bool.and_eq_true, Bool.true_and] at h ⊢
    exact ⟨h.1.2, h.2⟩

theorem memGet_below {m : Memory} {l : Nat} (h : memFrom (some l) m = true) {a : Nat} (ha : a ≤ l) : memGet m a = 0 := by
  induction m generalizing l with
  | nil => rfl
  | cons e r ih =>
    obtain ⟨b, v⟩ := e
    simp only [memFrom, Bool.and_eq_true, decide_eq_true_eq] at h
    have hb : ¬ b = a := by omega
    simp only [memGet, hb, if_false]
    exact ih h.2 (by omega)

theorem memFrom_cons {lo : Option Nat} {a : Nat} {v : Byte} {r : Memory} :
    memFrom lo ((a, v) :: r) = true ↔ (∀ l, lo = some l → l < a) ∧ v ≠ 0 ∧ memFrom (some a) r = true := by
  cases lo <;> simp [memFrom, and_assoc]

theorem memSet_from {m : Memory} (lo : Option Nat) (a : Nat) (v : Byte) (hlo : ∀ l, lo = some l → l < a) (h : memFrom lo m = true) :
    memFrom lo (memSet m a v) = true := by
  induction m generalizing lo with
  | nil =>
    simp only [memSet]
    split
    · rfl
    · rename_i hv; exact memFrom_cons.2 ⟨hlo, hv, rfl⟩
  | cons e r ih =>
    obtain ⟨b, w⟩ := e
    have h' := memFrom_cons.1 h
    simp only [memSet]
    split
    · rename_i hab
      split
      · exact h
      · rename_i hv
        exact memFrom_cons.2 ⟨hlo, hv, memFrom_cons.2 ⟨fun l hl => by cases hl; exact hab, h'.2⟩⟩
    · split
      · rename_i hab; subst hab
        split
        · cases lo with
          | none => exact memFrom_none h'.2.2
          | some l => exact memFrom_mono h'.2.2 (by have := hlo l rfl; omega)
        · rename_i hv; exact memFrom_cons.2 ⟨hlo, hv, h'.2.2⟩
      · exact memFrom_cons.2 ⟨h'.1, h'.2.1, ih (some b) (fun l hl => by cases hl; omega) h'.2.2⟩

/-- A byte written keeps the canonical form. -/
theorem memSet_wf {m : Memory} (h : m.wf = true) (a : Nat) (v : Byte) : (memSet m a v).wf = true :=
  memSet_from none a v (fun _ h => by cases h) h

/-- Bytes written keep the canonical form. -/
theorem memPut_wf {m : Memory} (h : m.wf = true) (a : Nat) (bs : List Byte) : (memPut m a bs).wf = true := by
  induction bs generalizing m a with
  | nil => exact h
  | cons b r ih => exact ih (memSet_wf h a b) (a + 1)

theorem memGet_memSet {m : Memory} {lo : Option Nat} (h : memFrom lo m = true) (a b : Nat) (v : Byte) :
    memGet (memSet m a v) b = if b = a then v else memGet m b := by
  induction m generalizing lo with
  | nil =>
    simp only [memSet]
    split
    · rename_i hv; subst hv; split <;> rfl
    · simp only [memGet]; by_cases hb : b = a
      · subst hb; simp
      · simp [hb, Ne.symm hb]
  | cons e r ih =>
    obtain ⟨c, w⟩ := e
    simp only [memFrom, Bool.and_eq_true] at h
    simp only [memSet]
    split
    · rename_i hac
      have hlow : memGet ((c, w) :: r) a = 0 := by
        have : ¬ c = a := by omega
        simp only [memGet, this, if_false]; exact memGet_below h.2 (by omega)
      split
      · rename_i hv; subst hv
        split
        · rename_i hb; subst hb; exact hlow
        · rfl
      · by_cases hb : b = a
        · subst hb; simp [memGet]
        · conv => lhs; unfold memGet
          simp [hb, Ne.symm hb]
    · split
      · rename_i hac; subst hac
        split
        · rename_i hv; subst hv
          by_cases hb : b = a
          · subst hb; simp [memGet_below h.2 (Nat.le_refl _)]
          · simp [memGet, hb, Ne.symm hb]
        · by_cases hb : b = a
          · subst hb; simp [memGet]
          · simp [memGet, hb, Ne.symm hb]
      · rename_i h1 h2
        simp only [memGet]
        by_cases hc : c = b
        · have : ¬ b = a := by omega
          simp [hc, this]
        · simp only [hc, if_false]; exact ih h.2

/-- A byte read after a byte was written. -/
theorem memGet_memSet_wf {m : Memory} (h : m.wf = true) (a b : Nat) (v : Byte) :
    memGet (memSet m a v) b = if b = a then v else memGet m b := memGet_memSet h a b v

/-- A byte read after bytes were written. -/
theorem memGet_memPut {m : Memory} (h : m.wf = true) (a : Nat) (bs : List Byte) (b : Nat) :
    memGet (memPut m a bs) b = if a ≤ b ∧ b < a + bs.length then bs.getD (b - a) 0 else memGet m b := by
  induction bs generalizing m a with
  | nil => rw [memPut, if_neg (by simp only [List.length_nil]; omega)]
  | cons x r ih =>
    rw [memPut, ih (memSet_wf h a x), memGet_memSet_wf h]
    by_cases hb : b = a
    · subst hb
      rw [if_neg (by omega), if_pos rfl, if_pos ⟨Nat.le_refl _, by simp only [List.length_cons]; omega⟩]; simp
    · by_cases h2 : a + 1 ≤ b ∧ b < a + 1 + r.length
      · rw [if_pos h2, if_pos (by simp only [List.length_cons]; omega)]
        have : b - a = (b - (a + 1)) + 1 := by omega
        rw [this]; simp
      · rw [if_neg h2, if_neg hb, if_neg (by simp only [List.length_cons]; omega)]

theorem leBytes_length (n v : Nat) : (leBytes n v).length = n := by
  induction n generalizing v with
  | zero => rfl
  | succ n ih => simp [leBytes, ih]

theorem memBytes_length (m : Memory) (a n : Nat) : (memBytes m a n).length = n := by simp [memBytes]

/-! ## Places, and the numbers that bytes make -/

theorem meets_add (l : Loc) (i j n m : Nat) : (l.add i).meets n (l.add j) m = (decide (i < j + m) && decide (j < i + n)) := by
  cases l <;> simp only [Loc.add, Loc.meets, overlaps, beq_self_eq_true, Bool.true_and] <;>
  · rw [Bool.eq_iff_iff]; simp only [Bool.and_eq_true, decide_eq_true_eq]; omega

theorem Loc.add_zero (l : Loc) : l.add 0 = l := by cases l <;> rfl

theorem find_range_eq (i n : Nat) (p : Nat → Bool) (hi : i < n) (h : ∀ j, p j = decide (j = i)) : (List.range n).find? p = some i := by
  rw [List.find?_eq_some_iff_append]
  refine ⟨by simp [h], List.range i, (List.range (n - i - 1)).map (· + (i + 1)), ?_, ?_⟩
  · apply List.ext_getElem
    · simp; omega
    · intro k h1 h2
      simp only [List.length_range] at h1
      simp only [List.getElem_range]
      by_cases hk : k < i
      · rw [List.getElem_append_left (by simpa using hk)]; simp
      · rw [List.getElem_append_right (by simpa using Nat.le_of_not_lt hk)]
        by_cases hk2 : k = i
        · subst hk2; simp
        · obtain ⟨q, hq⟩ : ∃ q, k = i + 1 + q := ⟨k - i - 1, by omega⟩
          subst hq
          have : i + 1 + q - i = q + 1 := by omega
          simp [this]; omega
  · intro a ha; simp only [List.mem_range] at ha; simp [h]; omega

theorem leNat_map (n v : Nat) : leNat ((List.range n).map fun i => BitVec.ofNat 8 (v / 256 ^ i)) = v % 256 ^ n := by
  induction n generalizing v with
  | zero => simp [leNat, Nat.mod_one]
  | succ n ih =>
    have : (List.range (n + 1)).map (fun i => (BitVec.ofNat 8 (v / 256 ^ i) : Byte)) = BitVec.ofNat 8 v :: (List.range n).map fun i => BitVec.ofNat 8 (v / 256 / 256 ^ i) := by
      rw [List.range_succ_eq_map]
      simp only [List.map_cons, List.map_map, Nat.pow_zero, Nat.div_one]
      congr 1
      apply List.map_congr_left
      intro i _
      simp only [Function.comp, Nat.pow_succ', Nat.div_div_eq_div_mul]
    rw [this, leNat, ih]
    simp only [BitVec.toNat_ofNat, Nat.reducePow]
    rw [Nat.pow_succ', Nat.mod_mul]

end Sys2Proof.Machine
end

