-- ==== Sys2Proof/Laws/Dispatch.lean ====
section
/-! SUPPORT. The meaning that each constructor is dispatched to, one equation each. -/

namespace Sys2Proof.Machine

theorem exec_add (w : Bool) (d : Reg) (a : Reg) (b : Reg) (s : State) : exec (.add w d a b) s = execAdd w d a b s := rfl
theorem exec_sub (w : Bool) (d : Reg) (a : Reg) (b : Reg) (s : State) : exec (.sub w d a b) s = execSub w d a b s := rfl
theorem exec_and (w : Bool) (d : Reg) (a : Reg) (b : Reg) (s : State) : exec (.and w d a b) s = execAnd w d a b s := rfl
theorem exec_or (w : Bool) (d : Reg) (a : Reg) (b : Reg) (s : State) : exec (.or w d a b) s = execOr w d a b s := rfl
theorem exec_xor (w : Bool) (d : Reg) (a : Reg) (b : Reg) (s : State) : exec (.xor w d a b) s = execXor w d a b s := rfl
theorem exec_sll (w : Bool) (d : Reg) (a : Reg) (b : Reg) (s : State) : exec (.sll w d a b) s = execSll w d a b s := rfl
theorem exec_srl (w : Bool) (d : Reg) (a : Reg) (b : Reg) (s : State) : exec (.srl w d a b) s = execSrl w d a b s := rfl
theorem exec_sra (w : Bool) (d : Reg) (a : Reg) (b : Reg) (s : State) : exec (.sra w d a b) s = execSra w d a b s := rfl
theorem exec_slt (w : Bool) (d : Reg) (a : Reg) (b : Reg) (s : State) : exec (.slt w d a b) s = execSlt w d a b s := rfl
theorem exec_sltu (w : Bool) (d : Reg) (a : Reg) (b : Reg) (s : State) : exec (.sltu w d a b) s = execSltu w d a b s := rfl
theorem exec_min (w : Bool) (d : Reg) (a : Reg) (b : Reg) (s : State) : exec (.min w d a b) s = execMin w d a b s := rfl
theorem exec_max (w : Bool) (d : Reg) (a : Reg) (b : Reg) (s : State) : exec (.max w d a b) s = execMax w d a b s := rfl
theorem exec_minu (w : Bool) (d : Reg) (a : Reg) (b : Reg) (s : State) : exec (.minu w d a b) s = execMinu w d a b s := rfl
theorem exec_maxu (w : Bool) (d : Reg) (a : Reg) (b : Reg) (s : State) : exec (.maxu w d a b) s = execMaxu w d a b s := rfl
theorem exec_mul (w : Bool) (d : Reg) (a : Reg) (b : Reg) (s : State) : exec (.mul w d a b) s = execMul w d a b s := rfl
theorem exec_mulh (w : Bool) (d : Reg) (a : Reg) (b : Reg) (s : State) : exec (.mulh w d a b) s = execMulh w d a b s := rfl
theorem exec_mulhu (w : Bool) (d : Reg) (a : Reg) (b : Reg) (s : State) : exec (.mulhu w d a b) s = execMulhu w d a b s := rfl
theorem exec_mulhsu (w : Bool) (d : Reg) (a : Reg) (b : Reg) (s : State) : exec (.mulhsu w d a b) s = execMulhsu w d a b s := rfl
theorem exec_div (w : Bool) (d : Reg) (a : Reg) (b : Reg) (s : State) : exec (.div w d a b) s = execDiv w d a b s := rfl
theorem exec_divu (w : Bool) (d : Reg) (a : Reg) (b : Reg) (s : State) : exec (.divu w d a b) s = execDivu w d a b s := rfl
theorem exec_rem (w : Bool) (d : Reg) (a : Reg) (b : Reg) (s : State) : exec (.rem w d a b) s = execRem w d a b s := rfl
theorem exec_remu (w : Bool) (d : Reg) (a : Reg) (b : Reg) (s : State) : exec (.remu w d a b) s = execRemu w d a b s := rfl
theorem exec_home (w : Bool) (d : Reg) (a : Reg) (s : State) : exec (.home w d a) s = execHome w d a s := rfl
theorem exec_clz (w : Bool) (d : Reg) (a : Reg) (s : State) : exec (.clz w d a) s = execClz w d a s := rfl
theorem exec_ctz (w : Bool) (d : Reg) (a : Reg) (s : State) : exec (.ctz w d a) s = execCtz w d a s := rfl
theorem exec_popc (w : Bool) (d : Reg) (a : Reg) (s : State) : exec (.popc w d a) s = execPopc w d a s := rfl
theorem exec_addi (i : BitVec 11) (d : Reg) (a : Reg) (s : State) : exec (.addi i d a) s = execAddi i d a s := rfl
theorem exec_andi (i : BitVec 11) (d : Reg) (a : Reg) (s : State) : exec (.andi i d a) s = execAndi i d a s := rfl
theorem exec_ori (i : BitVec 11) (d : Reg) (a : Reg) (s : State) : exec (.ori i d a) s = execOri i d a s := rfl
theorem exec_xori (i : BitVec 11) (d : Reg) (a : Reg) (s : State) : exec (.xori i d a) s = execXori i d a s := rfl
theorem exec_slli (h : BitVec 6) (d : Reg) (a : Reg) (s : State) : exec (.slli h d a) s = execSlli h d a s := rfl
theorem exec_srli (h : BitVec 6) (d : Reg) (a : Reg) (s : State) : exec (.srli h d a) s = execSrli h d a s := rfl
theorem exec_srai (h : BitVec 6) (d : Reg) (a : Reg) (s : State) : exec (.srai h d a) s = execSrai h d a s := rfl
theorem exec_slti (i : BitVec 11) (d : Reg) (a : Reg) (s : State) : exec (.slti i d a) s = execSlti i d a s := rfl
theorem exec_sltiu (i : BitVec 11) (d : Reg) (a : Reg) (s : State) : exec (.sltiu i d a) s = execSltiu i d a s := rfl
theorem exec_lui (i : BitVec 18) (d : Reg) (s : State) : exec (.lui i d) s = execLui i d s := rfl
theorem exec_adpc (i : BitVec 18) (d : Reg) (s : State) : exec (.adpc i d) s = execAdpc i d s := rfl
theorem exec_ld (i : BitVec 8) (z : BitVec 3) (d : Reg) (a : Reg) (s : State) : exec (.ld i z d a) s = execLd i z d a s := rfl
theorem exec_ldBy (i : BitVec 8) (z : BitVec 3) (d : Reg) (a : Reg) (s : State) : exec (.ldBy i z d a) s = execLdBy i z d a s := rfl
theorem exec_st (i : BitVec 8) (z : BitVec 2) (a : Reg) (b : Reg) (s : State) : exec (.st i z a b) s = execSt i z a b s := rfl
theorem exec_lds (i : BitVec 8) (z : BitVec 3) (d : Reg) (a : Reg) (s : State) : exec (.lds i z d a) s = execLds i z d a s := rfl
theorem exec_sts (i : BitVec 8) (z : BitVec 2) (a : Reg) (b : Reg) (s : State) : exec (.sts i z a b) s = execSts i z a b s := rfl
theorem exec_beq (i : BitVec 11) (a : Reg) (b : Reg) (s : State) : exec (.beq i a b) s = execBeq i a b s := rfl
theorem exec_bne (i : BitVec 11) (a : Reg) (b : Reg) (s : State) : exec (.bne i a b) s = execBne i a b s := rfl
theorem exec_blt (i : BitVec 11) (a : Reg) (b : Reg) (s : State) : exec (.blt i a b) s = execBlt i a b s := rfl
theorem exec_bge (i : BitVec 11) (a : Reg) (b : Reg) (s : State) : exec (.bge i a b) s = execBge i a b s := rfl
theorem exec_bltu (i : BitVec 11) (a : Reg) (b : Reg) (s : State) : exec (.bltu i a b) s = execBltu i a b s := rfl
theorem exec_bgeu (i : BitVec 11) (a : Reg) (b : Reg) (s : State) : exec (.bgeu i a b) s = execBgeu i a b s := rfl
theorem exec_jal (i : BitVec 18) (d : Reg) (s : State) : exec (.jal i d) s = execJal i d s := rfl
theorem exec_jalr (i : BitVec 11) (d : Reg) (a : Reg) (s : State) : exec (.jalr i d a) s = execJalr i d a s := rfl
theorem exec_ldAcq (h : BitVec 2) (i : BitVec 8) (z : Bool) (d : Reg) (a : Reg) (s : State) : exec (.ldAcq h i z d a) s = execLdAcq h i z d a s := rfl
theorem exec_stRel (h : BitVec 2) (i : BitVec 8) (z : Bool) (a : Reg) (b : Reg) (s : State) : exec (.stRel h i z a b) s = execStRel h i z a b s := rfl
theorem exec_amoAdd (w : Bool) (d : Reg) (a : Reg) (b : Reg) (s : State) : exec (.amoAdd w d a b) s = execAmoAdd w d a b s := rfl
theorem exec_amoAnd (w : Bool) (d : Reg) (a : Reg) (b : Reg) (s : State) : exec (.amoAnd w d a b) s = execAmoAnd w d a b s := rfl
theorem exec_amoOr (w : Bool) (d : Reg) (a : Reg) (b : Reg) (s : State) : exec (.amoOr w d a b) s = execAmoOr w d a b s := rfl
theorem exec_amoXor (w : Bool) (d : Reg) (a : Reg) (b : Reg) (s : State) : exec (.amoXor w d a b) s = execAmoXor w d a b s := rfl
theorem exec_amoSwap (w : Bool) (d : Reg) (a : Reg) (b : Reg) (s : State) : exec (.amoSwap w d a b) s = execAmoSwap w d a b s := rfl
theorem exec_amoMin (w : Bool) (d : Reg) (a : Reg) (b : Reg) (s : State) : exec (.amoMin w d a b) s = execAmoMin w d a b s := rfl
theorem exec_amoMax (w : Bool) (d : Reg) (a : Reg) (b : Reg) (s : State) : exec (.amoMax w d a b) s = execAmoMax w d a b s := rfl
theorem exec_amoCas (w : Bool) (d : Reg) (a : Reg) (b : Reg) (s : State) : exec (.amoCas w d a b) s = execAmoCas w d a b s := rfl
theorem exec_amoAddAcq (w : Bool) (d : Reg) (a : Reg) (b : Reg) (s : State) : exec (.amoAddAcq w d a b) s = execAmoAddAcq w d a b s := rfl
theorem exec_amoAndAcq (w : Bool) (d : Reg) (a : Reg) (b : Reg) (s : State) : exec (.amoAndAcq w d a b) s = execAmoAndAcq w d a b s := rfl
theorem exec_amoOrAcq (w : Bool) (d : Reg) (a : Reg) (b : Reg) (s : State) : exec (.amoOrAcq w d a b) s = execAmoOrAcq w d a b s := rfl
theorem exec_amoXorAcq (w : Bool) (d : Reg) (a : Reg) (b : Reg) (s : State) : exec (.amoXorAcq w d a b) s = execAmoXorAcq w d a b s := rfl
theorem exec_amoSwapAcq (w : Bool) (d : Reg) (a : Reg) (b : Reg) (s : State) : exec (.amoSwapAcq w d a b) s = execAmoSwapAcq w d a b s := rfl
theorem exec_amoMinAcq (w : Bool) (d : Reg) (a : Reg) (b : Reg) (s : State) : exec (.amoMinAcq w d a b) s = execAmoMinAcq w d a b s := rfl
theorem exec_amoMaxAcq (w : Bool) (d : Reg) (a : Reg) (b : Reg) (s : State) : exec (.amoMaxAcq w d a b) s = execAmoMaxAcq w d a b s := rfl
theorem exec_amoCasAcq (w : Bool) (d : Reg) (a : Reg) (b : Reg) (s : State) : exec (.amoCasAcq w d a b) s = execAmoCasAcq w d a b s := rfl
theorem exec_amoAddRel (w : Bool) (d : Reg) (a : Reg) (b : Reg) (s : State) : exec (.amoAddRel w d a b) s = execAmoAddRel w d a b s := rfl
theorem exec_amoAndRel (w : Bool) (d : Reg) (a : Reg) (b : Reg) (s : State) : exec (.amoAndRel w d a b) s = execAmoAndRel w d a b s := rfl
theorem exec_amoOrRel (w : Bool) (d : Reg) (a : Reg) (b : Reg) (s : State) : exec (.amoOrRel w d a b) s = execAmoOrRel w d a b s := rfl
theorem exec_amoXorRel (w : Bool) (d : Reg) (a : Reg) (b : Reg) (s : State) : exec (.amoXorRel w d a b) s = execAmoXorRel w d a b s := rfl
theorem exec_amoSwapRel (w : Bool) (d : Reg) (a : Reg) (b : Reg) (s : State) : exec (.amoSwapRel w d a b) s = execAmoSwapRel w d a b s := rfl
theorem exec_amoMinRel (w : Bool) (d : Reg) (a : Reg) (b : Reg) (s : State) : exec (.amoMinRel w d a b) s = execAmoMinRel w d a b s := rfl
theorem exec_amoMaxRel (w : Bool) (d : Reg) (a : Reg) (b : Reg) (s : State) : exec (.amoMaxRel w d a b) s = execAmoMaxRel w d a b s := rfl
theorem exec_amoCasRel (w : Bool) (d : Reg) (a : Reg) (b : Reg) (s : State) : exec (.amoCasRel w d a b) s = execAmoCasRel w d a b s := rfl
theorem exec_amoAddAr (w : Bool) (d : Reg) (a : Reg) (b : Reg) (s : State) : exec (.amoAddAr w d a b) s = execAmoAddAr w d a b s := rfl
theorem exec_amoAndAr (w : Bool) (d : Reg) (a : Reg) (b : Reg) (s : State) : exec (.amoAndAr w d a b) s = execAmoAndAr w d a b s := rfl
theorem exec_amoOrAr (w : Bool) (d : Reg) (a : Reg) (b : Reg) (s : State) : exec (.amoOrAr w d a b) s = execAmoOrAr w d a b s := rfl
theorem exec_amoXorAr (w : Bool) (d : Reg) (a : Reg) (b : Reg) (s : State) : exec (.amoXorAr w d a b) s = execAmoXorAr w d a b s := rfl
theorem exec_amoSwapAr (w : Bool) (d : Reg) (a : Reg) (b : Reg) (s : State) : exec (.amoSwapAr w d a b) s = execAmoSwapAr w d a b s := rfl
theorem exec_amoMinAr (w : Bool) (d : Reg) (a : Reg) (b : Reg) (s : State) : exec (.amoMinAr w d a b) s = execAmoMinAr w d a b s := rfl
theorem exec_amoMaxAr (w : Bool) (d : Reg) (a : Reg) (b : Reg) (s : State) : exec (.amoMaxAr w d a b) s = execAmoMaxAr w d a b s := rfl
theorem exec_amoCasAr (w : Bool) (d : Reg) (a : Reg) (b : Reg) (s : State) : exec (.amoCasAr w d a b) s = execAmoCasAr w d a b s := rfl
theorem exec_amoMinu (w : Bool) (d : Reg) (a : Reg) (b : Reg) (s : State) : exec (.amoMinu w d a b) s = execAmoMinu w d a b s := rfl
theorem exec_amoMaxu (w : Bool) (d : Reg) (a : Reg) (b : Reg) (s : State) : exec (.amoMaxu w d a b) s = execAmoMaxu w d a b s := rfl
theorem exec_amoFaddD (w : Bool) (d : Reg) (a : Reg) (b : Reg) (s : State) : exec (.amoFaddD w d a b) s = execAmoFaddD w d a b s := rfl
theorem exec_amoFaddW (w : Bool) (d : Reg) (a : Reg) (b : Reg) (s : State) : exec (.amoFaddW w d a b) s = execAmoFaddW w d a b s := rfl
theorem exec_amoFaddH (w : Bool) (d : Reg) (a : Reg) (b : Reg) (s : State) : exec (.amoFaddH w d a b) s = execAmoFaddH w d a b s := rfl
theorem exec_amoBfadd (w : Bool) (d : Reg) (a : Reg) (b : Reg) (s : State) : exec (.amoBfadd w d a b) s = execAmoBfadd w d a b s := rfl
theorem exec_amoMinuAcq (w : Bool) (d : Reg) (a : Reg) (b : Reg) (s : State) : exec (.amoMinuAcq w d a b) s = execAmoMinuAcq w d a b s := rfl
theorem exec_amoMaxuAcq (w : Bool) (d : Reg) (a : Reg) (b : Reg) (s : State) : exec (.amoMaxuAcq w d a b) s = execAmoMaxuAcq w d a b s := rfl
theorem exec_amoFaddDAcq (w : Bool) (d : Reg) (a : Reg) (b : Reg) (s : State) : exec (.amoFaddDAcq w d a b) s = execAmoFaddDAcq w d a b s := rfl
theorem exec_amoFaddWAcq (w : Bool) (d : Reg) (a : Reg) (b : Reg) (s : State) : exec (.amoFaddWAcq w d a b) s = execAmoFaddWAcq w d a b s := rfl
theorem exec_amoFaddHAcq (w : Bool) (d : Reg) (a : Reg) (b : Reg) (s : State) : exec (.amoFaddHAcq w d a b) s = execAmoFaddHAcq w d a b s := rfl
theorem exec_amoBfaddAcq (w : Bool) (d : Reg) (a : Reg) (b : Reg) (s : State) : exec (.amoBfaddAcq w d a b) s = execAmoBfaddAcq w d a b s := rfl
theorem exec_amoMinuRel (w : Bool) (d : Reg) (a : Reg) (b : Reg) (s : State) : exec (.amoMinuRel w d a b) s = execAmoMinuRel w d a b s := rfl
theorem exec_amoMaxuRel (w : Bool) (d : Reg) (a : Reg) (b : Reg) (s : State) : exec (.amoMaxuRel w d a b) s = execAmoMaxuRel w d a b s := rfl
theorem exec_amoFaddDRel (w : Bool) (d : Reg) (a : Reg) (b : Reg) (s : State) : exec (.amoFaddDRel w d a b) s = execAmoFaddDRel w d a b s := rfl
theorem exec_amoFaddWRel (w : Bool) (d : Reg) (a : Reg) (b : Reg) (s : State) : exec (.amoFaddWRel w d a b) s = execAmoFaddWRel w d a b s := rfl
theorem exec_amoFaddHRel (w : Bool) (d : Reg) (a : Reg) (b : Reg) (s : State) : exec (.amoFaddHRel w d a b) s = execAmoFaddHRel w d a b s := rfl
theorem exec_amoBfaddRel (w : Bool) (d : Reg) (a : Reg) (b : Reg) (s : State) : exec (.amoBfaddRel w d a b) s = execAmoBfaddRel w d a b s := rfl
theorem exec_amoMinuAr (w : Bool) (d : Reg) (a : Reg) (b : Reg) (s : State) : exec (.amoMinuAr w d a b) s = execAmoMinuAr w d a b s := rfl
theorem exec_amoMaxuAr (w : Bool) (d : Reg) (a : Reg) (b : Reg) (s : State) : exec (.amoMaxuAr w d a b) s = execAmoMaxuAr w d a b s := rfl
theorem exec_amoFaddDAr (w : Bool) (d : Reg) (a : Reg) (b : Reg) (s : State) : exec (.amoFaddDAr w d a b) s = execAmoFaddDAr w d a b s := rfl
theorem exec_amoFaddWAr (w : Bool) (d : Reg) (a : Reg) (b : Reg) (s : State) : exec (.amoFaddWAr w d a b) s = execAmoFaddWAr w d a b s := rfl
theorem exec_amoFaddHAr (w : Bool) (d : Reg) (a : Reg) (b : Reg) (s : State) : exec (.amoFaddHAr w d a b) s = execAmoFaddHAr w d a b s := rfl
theorem exec_amoBfaddAr (w : Bool) (d : Reg) (a : Reg) (b : Reg) (s : State) : exec (.amoBfaddAr w d a b) s = execAmoBfaddAr w d a b s := rfl
theorem exec_amosAdd (w : Bool) (d : Reg) (a : Reg) (b : Reg) (s : State) : exec (.amosAdd w d a b) s = execAmosAdd w d a b s := rfl
theorem exec_amosAnd (w : Bool) (d : Reg) (a : Reg) (b : Reg) (s : State) : exec (.amosAnd w d a b) s = execAmosAnd w d a b s := rfl
theorem exec_amosOr (w : Bool) (d : Reg) (a : Reg) (b : Reg) (s : State) : exec (.amosOr w d a b) s = execAmosOr w d a b s := rfl
theorem exec_amosXor (w : Bool) (d : Reg) (a : Reg) (b : Reg) (s : State) : exec (.amosXor w d a b) s = execAmosXor w d a b s := rfl
theorem exec_amosSwap (w : Bool) (d : Reg) (a : Reg) (b : Reg) (s : State) : exec (.amosSwap w d a b) s = execAmosSwap w d a b s := rfl
theorem exec_amosMin (w : Bool) (d : Reg) (a : Reg) (b : Reg) (s : State) : exec (.amosMin w d a b) s = execAmosMin w d a b s := rfl
theorem exec_amosMax (w : Bool) (d : Reg) (a : Reg) (b : Reg) (s : State) : exec (.amosMax w d a b) s = execAmosMax w d a b s := rfl
theorem exec_amosCas (w : Bool) (d : Reg) (a : Reg) (b : Reg) (s : State) : exec (.amosCas w d a b) s = execAmosCas w d a b s := rfl
theorem exec_amosMinu (w : Bool) (d : Reg) (a : Reg) (b : Reg) (s : State) : exec (.amosMinu w d a b) s = execAmosMinu w d a b s := rfl
theorem exec_amosMaxu (w : Bool) (d : Reg) (a : Reg) (b : Reg) (s : State) : exec (.amosMaxu w d a b) s = execAmosMaxu w d a b s := rfl
theorem exec_amosFaddD (w : Bool) (d : Reg) (a : Reg) (b : Reg) (s : State) : exec (.amosFaddD w d a b) s = execAmosFaddD w d a b s := rfl
theorem exec_amosFaddW (w : Bool) (d : Reg) (a : Reg) (b : Reg) (s : State) : exec (.amosFaddW w d a b) s = execAmosFaddW w d a b s := rfl
theorem exec_amosFaddH (w : Bool) (d : Reg) (a : Reg) (b : Reg) (s : State) : exec (.amosFaddH w d a b) s = execAmosFaddH w d a b s := rfl
theorem exec_amosBfadd (w : Bool) (d : Reg) (a : Reg) (b : Reg) (s : State) : exec (.amosBfadd w d a b) s = execAmosBfadd w d a b s := rfl
theorem exec_depAdd (w : Bool) (a : Reg) (b : Reg) (s : State) : exec (.depAdd w a b) s = execDepAdd w a b s := rfl
theorem exec_depMax (w : Bool) (a : Reg) (b : Reg) (s : State) : exec (.depMax w a b) s = execDepMax w a b s := rfl
theorem exec_peek (w : Bool) (d : Reg) (a : Reg) (s : State) : exec (.peek w d a) s = execPeek w d a s := rfl
theorem exec_sense (w : Bool) (d : Reg) (a : Reg) (b : Reg) (s : State) : exec (.sense w d a b) s = execSense w d a b s := rfl
theorem exec_depAddRel (w : Bool) (a : Reg) (b : Reg) (s : State) : exec (.depAddRel w a b) s = execDepAddRel w a b s := rfl
theorem exec_depMaxRel (w : Bool) (a : Reg) (b : Reg) (s : State) : exec (.depMaxRel w a b) s = execDepMaxRel w a b s := rfl
theorem exec_tick (w : Bool) (a : Reg) (s : State) : exec (.tick w a) s = execTick w a s := rfl
theorem exec_fadd (p : Bool) (r : BitVec 2) (w : Bool) (d : Reg) (a : Reg) (b : Reg) (s : State) : exec (.fadd p r w d a b) s = execFadd p r w d a b s := rfl
theorem exec_fsub (p : Bool) (r : BitVec 2) (w : Bool) (d : Reg) (a : Reg) (b : Reg) (s : State) : exec (.fsub p r w d a b) s = execFsub p r w d a b s := rfl
theorem exec_fmul (p : Bool) (r : BitVec 2) (w : Bool) (d : Reg) (a : Reg) (b : Reg) (s : State) : exec (.fmul p r w d a b) s = execFmul p r w d a b s := rfl
theorem exec_fdiv (p : Bool) (r : BitVec 2) (w : Bool) (d : Reg) (a : Reg) (b : Reg) (s : State) : exec (.fdiv p r w d a b) s = execFdiv p r w d a b s := rfl
theorem exec_fma (p : Bool) (r : BitVec 2) (w : Bool) (d : Reg) (a : Reg) (b : Reg) (s : State) : exec (.fma p r w d a b) s = execFma p r w d a b s := rfl
theorem exec_fnma (p : Bool) (r : BitVec 2) (w : Bool) (d : Reg) (a : Reg) (b : Reg) (s : State) : exec (.fnma p r w d a b) s = execFnma p r w d a b s := rfl
theorem exec_fsqrt (p : Bool) (r : BitVec 2) (w : Bool) (d : Reg) (a : Reg) (s : State) : exec (.fsqrt p r w d a) s = execFsqrt p r w d a s := rfl
theorem exec_fminW (w : Bool) (d : Reg) (a : Reg) (b : Reg) (s : State) : exec (.fminW w d a b) s = execFminW w d a b s := rfl
theorem exec_fmaxW (w : Bool) (d : Reg) (a : Reg) (b : Reg) (s : State) : exec (.fmaxW w d a b) s = execFmaxW w d a b s := rfl
theorem exec_feqW (w : Bool) (d : Reg) (a : Reg) (b : Reg) (s : State) : exec (.feqW w d a b) s = execFeqW w d a b s := rfl
theorem exec_fltW (w : Bool) (d : Reg) (a : Reg) (b : Reg) (s : State) : exec (.fltW w d a b) s = execFltW w d a b s := rfl
theorem exec_fleW (w : Bool) (d : Reg) (a : Reg) (b : Reg) (s : State) : exec (.fleW w d a b) s = execFleW w d a b s := rfl
theorem exec_fsgnjW (w : Bool) (d : Reg) (a : Reg) (b : Reg) (s : State) : exec (.fsgnjW w d a b) s = execFsgnjW w d a b s := rfl
theorem exec_fsgnjnW (w : Bool) (d : Reg) (a : Reg) (b : Reg) (s : State) : exec (.fsgnjnW w d a b) s = execFsgnjnW w d a b s := rfl
theorem exec_fclassW (w : Bool) (d : Reg) (a : Reg) (s : State) : exec (.fclassW w d a) s = execFclassW w d a s := rfl
theorem exec_fminD (w : Bool) (d : Reg) (a : Reg) (b : Reg) (s : State) : exec (.fminD w d a b) s = execFminD w d a b s := rfl
theorem exec_fmaxD (w : Bool) (d : Reg) (a : Reg) (b : Reg) (s : State) : exec (.fmaxD w d a b) s = execFmaxD w d a b s := rfl
theorem exec_feqD (w : Bool) (d : Reg) (a : Reg) (b : Reg) (s : State) : exec (.feqD w d a b) s = execFeqD w d a b s := rfl
theorem exec_fltD (w : Bool) (d : Reg) (a : Reg) (b : Reg) (s : State) : exec (.fltD w d a b) s = execFltD w d a b s := rfl
theorem exec_fleD (w : Bool) (d : Reg) (a : Reg) (b : Reg) (s : State) : exec (.fleD w d a b) s = execFleD w d a b s := rfl
theorem exec_fsgnjD (w : Bool) (d : Reg) (a : Reg) (b : Reg) (s : State) : exec (.fsgnjD w d a b) s = execFsgnjD w d a b s := rfl
theorem exec_fsgnjnD (w : Bool) (d : Reg) (a : Reg) (b : Reg) (s : State) : exec (.fsgnjnD w d a b) s = execFsgnjnD w d a b s := rfl
theorem exec_fclassD (w : Bool) (d : Reg) (a : Reg) (s : State) : exec (.fclassD w d a) s = execFclassD w d a s := rfl
theorem exec_cvtSD (r : BitVec 2) (w : Bool) (d : Reg) (a : Reg) (s : State) : exec (.cvtSD r w d a) s = execCvtSD r w d a s := rfl
theorem exec_cvtDS (w : Bool) (d : Reg) (a : Reg) (s : State) : exec (.cvtDS w d a) s = execCvtDS w d a s := rfl
theorem exec_cvtHS (r : BitVec 2) (w : Bool) (d : Reg) (a : Reg) (s : State) : exec (.cvtHS r w d a) s = execCvtHS r w d a s := rfl
theorem exec_cvtSH (w : Bool) (d : Reg) (a : Reg) (s : State) : exec (.cvtSH w d a) s = execCvtSH w d a s := rfl
theorem exec_cvtBfS (r : BitVec 2) (w : Bool) (d : Reg) (a : Reg) (s : State) : exec (.cvtBfS r w d a) s = execCvtBfS r w d a s := rfl
theorem exec_cvtSBf (w : Bool) (d : Reg) (a : Reg) (s : State) : exec (.cvtSBf w d a) s = execCvtSBf w d a s := rfl
theorem exec_cvtSL (r : BitVec 2) (w : Bool) (d : Reg) (a : Reg) (s : State) : exec (.cvtSL r w d a) s = execCvtSL r w d a s := rfl
theorem exec_cvtDL (r : BitVec 2) (w : Bool) (d : Reg) (a : Reg) (s : State) : exec (.cvtDL r w d a) s = execCvtDL r w d a s := rfl
theorem exec_cvtLS (r : BitVec 2) (w : Bool) (d : Reg) (a : Reg) (s : State) : exec (.cvtLS r w d a) s = execCvtLS r w d a s := rfl
theorem exec_cvtLD (r : BitVec 2) (w : Bool) (d : Reg) (a : Reg) (s : State) : exec (.cvtLD r w d a) s = execCvtLD r w d a s := rfl
theorem exec_cvtDLu (r : BitVec 2) (w : Bool) (d : Reg) (a : Reg) (s : State) : exec (.cvtDLu r w d a) s = execCvtDLu r w d a s := rfl
theorem exec_cvtLuD (r : BitVec 2) (w : Bool) (d : Reg) (a : Reg) (s : State) : exec (.cvtLuD r w d a) s = execCvtLuD r w d a s := rfl
theorem exec_vadd (p : Bool) (r : BitVec 2) (w : Bool) (d : Reg) (a : Reg) (b : Reg) (s : State) : exec (.vadd p r w d a b) s = execVadd p r w d a b s := rfl
theorem exec_vsub (p : Bool) (r : BitVec 2) (w : Bool) (d : Reg) (a : Reg) (b : Reg) (s : State) : exec (.vsub p r w d a b) s = execVsub p r w d a b s := rfl
theorem exec_vmul (p : Bool) (r : BitVec 2) (w : Bool) (d : Reg) (a : Reg) (b : Reg) (s : State) : exec (.vmul p r w d a b) s = execVmul p r w d a b s := rfl
theorem exec_vfma (p : Bool) (r : BitVec 2) (w : Bool) (d : Reg) (a : Reg) (b : Reg) (s : State) : exec (.vfma p r w d a b) s = execVfma p r w d a b s := rfl
theorem exec_vminW (w : Bool) (d : Reg) (a : Reg) (b : Reg) (s : State) : exec (.vminW w d a b) s = execVminW w d a b s := rfl
theorem exec_vmaxW (w : Bool) (d : Reg) (a : Reg) (b : Reg) (s : State) : exec (.vmaxW w d a b) s = execVmaxW w d a b s := rfl
theorem exec_vminD (w : Bool) (d : Reg) (a : Reg) (b : Reg) (s : State) : exec (.vminD w d a b) s = execVminD w d a b s := rfl
theorem exec_vmaxD (w : Bool) (d : Reg) (a : Reg) (b : Reg) (s : State) : exec (.vmaxD w d a b) s = execVmaxD w d a b s := rfl
theorem exec_vcpy (w : Bool) (d : Reg) (a : Reg) (s : State) : exec (.vcpy w d a) s = execVcpy w d a s := rfl
theorem exec_vcvtHS (w : Bool) (d : Reg) (a : Reg) (s : State) : exec (.vcvtHS w d a) s = execVcvtHS w d a s := rfl
theorem exec_vcvtSH (w : Bool) (d : Reg) (a : Reg) (s : State) : exec (.vcvtSH w d a) s = execVcvtSH w d a s := rfl
theorem exec_vcvtBfS (w : Bool) (d : Reg) (a : Reg) (s : State) : exec (.vcvtBfS w d a) s = execVcvtBfS w d a s := rfl
theorem exec_vcvtSBf (w : Bool) (d : Reg) (a : Reg) (s : State) : exec (.vcvtSBf w d a) s = execVcvtSBf w d a s := rfl
theorem exec_vcvtBd8S (w : Bool) (d : Reg) (a : Reg) (b : Reg) (s : State) : exec (.vcvtBd8S w d a b) s = execVcvtBd8S w d a b s := rfl
theorem exec_vcvtSBd8 (w : Bool) (d : Reg) (a : Reg) (b : Reg) (s : State) : exec (.vcvtSBd8 w d a b) s = execVcvtSBd8 w d a b s := rfl
theorem exec_vcvtBd4S (w : Bool) (d : Reg) (a : Reg) (b : Reg) (s : State) : exec (.vcvtBd4S w d a b) s = execVcvtBd4S w d a b s := rfl
theorem exec_vcvtSBd4 (w : Bool) (d : Reg) (a : Reg) (b : Reg) (s : State) : exec (.vcvtSBd4 w d a b) s = execVcvtSBd4 w d a b s := rfl
theorem exec_sfuExp2 (w : Bool) (d : Reg) (a : Reg) (s : State) : exec (.sfuExp2 w d a) s = execSfuExp2 w d a s := rfl
theorem exec_sfuLog2 (w : Bool) (d : Reg) (a : Reg) (s : State) : exec (.sfuLog2 w d a) s = execSfuLog2 w d a s := rfl
theorem exec_sfuRcp (w : Bool) (d : Reg) (a : Reg) (s : State) : exec (.sfuRcp w d a) s = execSfuRcp w d a s := rfl
theorem exec_sfuRsq (w : Bool) (d : Reg) (a : Reg) (s : State) : exec (.sfuRsq w d a) s = execSfuRsq w d a s := rfl
theorem exec_sfuSin (w : Bool) (d : Reg) (a : Reg) (s : State) : exec (.sfuSin w d a) s = execSfuSin w d a s := rfl
theorem exec_sfuCos (w : Bool) (d : Reg) (a : Reg) (s : State) : exec (.sfuCos w d a) s = execSfuCos w d a s := rfl
theorem exec_sfuTanh (w : Bool) (d : Reg) (a : Reg) (s : State) : exec (.sfuTanh w d a) s = execSfuTanh w d a s := rfl
theorem exec_sfuSigm (w : Bool) (d : Reg) (a : Reg) (s : State) : exec (.sfuSigm w d a) s = execSfuSigm w d a s := rfl
theorem exec_sbindIn (w : Bool) (d : Reg) (a : Reg) (s : State) : exec (.sbindIn w d a) s = execSbindIn w d a s := rfl
theorem exec_sbindOut (w : Bool) (d : Reg) (a : Reg) (s : State) : exec (.sbindOut w d a) s = execSbindOut w d a s := rfl
theorem exec_sunbind (d : Reg) (s : State) : exec (.sunbind d) s = execSunbind d s := rfl
theorem exec_ctab (w : Bool) (a : Reg) (s : State) : exec (.ctab w a) s = execCtab w a s := rfl
theorem exec_mma (w : Bool) (k : Bool) (n : BitVec 4) (a : Reg) (b : Reg) (s : State) : exec (.mma w k n a b) s = execMma w k n a b s := rfl
theorem exec_mmaZ (w : Bool) (k : Bool) (n : BitVec 4) (a : Reg) (b : Reg) (s : State) : exec (.mmaZ w k n a b) s = execMmaZ w k n a b s := rfl
theorem exec_mmaRot (w : Bool) (k : Bool) (n : BitVec 4) (a : Reg) (s : State) : exec (.mmaRot w k n a) s = execMmaRot w k n a s := rfl
theorem exec_mmaRotZ (w : Bool) (k : Bool) (n : BitVec 4) (a : Reg) (s : State) : exec (.mmaRotZ w k n a) s = execMmaRotZ w k n a s := rfl
theorem exec_mmaRotSd (w : Bool) (k : Bool) (n : BitVec 4) (a : Reg) (b : Reg) (s : State) : exec (.mmaRotSd w k n a b) s = execMmaRotSd w k n a b s := rfl
theorem exec_mmaRotSdZ (w : Bool) (k : Bool) (n : BitVec 4) (a : Reg) (b : Reg) (s : State) : exec (.mmaRotSdZ w k n a b) s = execMmaRotSdZ w k n a b s := rfl
theorem exec_mstc (w : Bool) (k : Bool) (a : Reg) (b : Reg) (s : State) : exec (.mstc w k a b) s = execMstc w k a b s := rfl
theorem exec_mldc (w : Bool) (k : Bool) (a : Reg) (b : Reg) (s : State) : exec (.mldc w k a b) s = execMldc w k a b s := rfl
theorem exec_mcommit (d : Reg) (s : State) : exec (.mcommit d) s = execMcommit d s := rfl
theorem exec_mwait (w : Bool) (a : Reg) (s : State) : exec (.mwait w a) s = execMwait w a s := rfl
theorem exec_cpyGg (w : Bool) (c : BitVec 2) (a : Reg) (b : Reg) (s : State) : exec (.cpyGg w c a b) s = execCpyGg w c a b s := rfl
theorem exec_cpyGs (w : Bool) (c : BitVec 2) (a : Reg) (b : Reg) (s : State) : exec (.cpyGs w c a b) s = execCpyGs w c a b s := rfl
theorem exec_cpySg (w : Bool) (c : BitVec 2) (a : Reg) (b : Reg) (s : State) : exec (.cpySg w c a b) s = execCpySg w c a b s := rfl
theorem exec_cpySs (w : Bool) (c : BitVec 2) (a : Reg) (b : Reg) (s : State) : exec (.cpySs w c a b) s = execCpySs w c a b s := rfl
theorem exec_cpySub (w : Bool) (c : BitVec 2) (a : Reg) (s : State) : exec (.cpySub w c a) s = execCpySub w c a s := rfl
theorem exec_cpySubPull (w : Bool) (c : BitVec 2) (a : Reg) (s : State) : exec (.cpySubPull w c a) s = execCpySubPull w c a s := rfl
theorem exec_cpySubRet (w : Bool) (c : BitVec 2) (a : Reg) (s : State) : exec (.cpySubRet w c a) s = execCpySubRet w c a s := rfl
theorem exec_cwait (w : Bool) (a : Reg) (b : Reg) (s : State) : exec (.cwait w a b) s = execCwait w a b s := rfl
theorem exec_spawn (w : Bool) (d : Reg) (a : Reg) (b : Reg) (s : State) : exec (.spawn w d a b) s = execSpawn w d a b s := rfl
theorem exec_go (w : Bool) (a : Reg) (s : State) : exec (.go w a) s = execGo w a s := rfl
theorem exec_park (w : Bool) (a : Reg) (b : Reg) (s : State) : exec (.park w a b) s = execPark w a b s := rfl
theorem exec_join (w : Bool) (d : Reg) (a : Reg) (s : State) : exec (.join w d a) s = execJoin w d a s := rfl
theorem exec_leave (w : Bool) (d : Reg) (a : Reg) (s : State) : exec (.leave w d a) s = execLeave w d a s := rfl
theorem exec_bar (w : Bool) (d : Reg) (a : Reg) (s : State) : exec (.bar w d a) s = execBar w d a s := rfl
theorem exec_tsig (w : Bool) (a : Reg) (s : State) : exec (.tsig w a) s = execTsig w a s := rfl
theorem exec_kadd (d : KReg) (a : KReg) (b : KReg) (s : State) : exec (.kadd d a b) s = execKadd d a b s := rfl
theorem exec_ksub (d : KReg) (a : KReg) (b : KReg) (s : State) : exec (.ksub d a b) s = execKsub d a b s := rfl
theorem exec_kand (d : KReg) (a : KReg) (b : KReg) (s : State) : exec (.kand d a b) s = execKand d a b s := rfl
theorem exec_kor (d : KReg) (a : KReg) (b : KReg) (s : State) : exec (.kor d a b) s = execKor d a b s := rfl
theorem exec_kxor (d : KReg) (a : KReg) (b : KReg) (s : State) : exec (.kxor d a b) s = execKxor d a b s := rfl
theorem exec_ksll (d : KReg) (a : KReg) (b : KReg) (s : State) : exec (.ksll d a b) s = execKsll d a b s := rfl
theorem exec_ksrl (d : KReg) (a : KReg) (b : KReg) (s : State) : exec (.ksrl d a b) s = execKsrl d a b s := rfl
theorem exec_kmul (d : KReg) (a : KReg) (b : KReg) (s : State) : exec (.kmul d a b) s = execKmul d a b s := rfl
theorem exec_kaddi (i : BitVec 11) (d : KReg) (a : KReg) (s : State) : exec (.kaddi i d a) s = execKaddi i d a s := rfl
theorem exec_kbeq (i : BitVec 11) (a : KReg) (b : KReg) (s : State) : exec (.kbeq i a b) s = execKbeq i a b s := rfl
theorem exec_kbne (i : BitVec 11) (a : KReg) (b : KReg) (s : State) : exec (.kbne i a b) s = execKbne i a b s := rfl
theorem exec_kloop (i : BitVec 11) (a : KReg) (s : State) : exec (.kloop i a) s = execKloop i a s := rfl
theorem exec_kj (i : BitVec 18) (s : State) : exec (.kj i) s = execKj i s := rfl
theorem exec_rowany (w : Bool) (d : KReg) (a : Reg) (s : State) : exec (.rowany w d a) s = execRowany w d a s := rfl
theorem exec_rowall (w : Bool) (d : KReg) (a : Reg) (s : State) : exec (.rowall w d a) s = execRowall w d a s := rfl
theorem exec_csrr (c : BitVec 11) (d : Reg) (s : State) : exec (.csrr c d) s = execCsrr c d s := rfl
theorem exec_csrrw (c : BitVec 11) (d : Reg) (a : Reg) (s : State) : exec (.csrrw c d a) s = execCsrrw c d a s := rfl
theorem exec_csrs (c : BitVec 11) (d : Reg) (a : Reg) (s : State) : exec (.csrs c d a) s = execCsrs c d a s := rfl
theorem exec_csrc (c : BitVec 11) (d : Reg) (a : Reg) (s : State) : exec (.csrc c d a) s = execCsrc c d a s := rfl
theorem exec_tlbiVa (w : Bool) (a : Reg) (s : State) : exec (.tlbiVa w a) s = execTlbiVa w a s := rfl
theorem exec_tlbiS2 (w : Bool) (a : Reg) (b : Reg) (s : State) : exec (.tlbiS2 w a b) s = execTlbiS2 w a b s := rfl
theorem exec_dline (w : Bool) (d : Reg) (a : Reg) (b : Reg) (s : State) : exec (.dline w d a b) s = execDline w d a b s := rfl
theorem exec_prog (w : Bool) (a : Reg) (s : State) : exec (.prog w a) s = execProg w a s := rfl
theorem exec_pwrHint (w : Bool) (a : Reg) (s : State) : exec (.pwrHint w a) s = execPwrHint w a s := rfl
theorem exec_rep (c : Bool) (x : BitVec 2) (y : BitVec 2) (z : BitVec 2) (n : Reg) (s : State) : exec (.rep c x y z n) s = execRep c x y z n s := rfl
theorem exec_repOs (c : Bool) (x : BitVec 2) (y : BitVec 2) (z : BitVec 2) (n : Reg) (s : State) : exec (.repOs c x y z n) s = execRepOs c x y z n s := rfl
theorem exec_fenceCore (s : State) : exec (.fenceCore) s = execFenceCore s := rfl
theorem exec_fenceDie (s : State) : exec (.fenceDie) s = execFenceDie s := rfl
theorem exec_fencePkg (s : State) : exec (.fencePkg) s = execFencePkg s := rfl
theorem exec_fenceDom (s : State) : exec (.fenceDom) s = execFenceDom s := rfl
theorem exec_vectorStep (s : State) : exec (.vectorStep) s = execVectorStep s := rfl
theorem exec_sfuAccept (s : State) : exec (.sfuAccept) s = execSfuAccept s := rfl
theorem exec_streamPop (s : State) : exec (.streamPop) s = execStreamPop s := rfl
theorem exec_streamPush (s : State) : exec (.streamPush) s = execStreamPush s := rfl
theorem exec_matrixEngineSchedule (s : State) : exec (.matrixEngineSchedule) s = execMatrixEngineSchedule s := rfl
theorem exec_mmaGroup (s : State) : exec (.mmaGroup) s = execMmaGroup s := rfl
theorem exec_latchRowArrive (s : State) : exec (.latchRowArrive) s = execLatchRowArrive s := rfl
theorem exec_matrixCommandComplete (s : State) : exec (.matrixCommandComplete) s = execMatrixCommandComplete s := rfl
theorem exec_copyUnitTransfer (s : State) : exec (.copyUnitTransfer) s = execCopyUnitTransfer s := rfl
theorem exec_copyCommandComplete (s : State) : exec (.copyCommandComplete) s = execCopyCommandComplete s := rfl
theorem exec_subscriptionTileLand (s : State) : exec (.subscriptionTileLand) s = execSubscriptionTileLand s := rfl
theorem exec_subscriptionPullBack (s : State) : exec (.subscriptionPullBack) s = execSubscriptionPullBack s := rfl
theorem exec_cfence (s : State) : exec (.cfence) s = execCfence s := rfl
theorem exec_quit (s : State) : exec (.quit) s = execQuit s := rfl
theorem exec_yield (s : State) : exec (.yield) s = execYield s := rfl
theorem exec_parkWake (s : State) : exec (.parkWake) s = execParkWake s := rfl
theorem exec_parkTimeout (s : State) : exec (.parkTimeout) s = execParkTimeout s := rfl
theorem exec_heldAnswer (s : State) : exec (.heldAnswer) s = execHeldAnswer s := rfl
theorem exec_rend (s : State) : exec (.rend) s = execRend s := rfl
theorem exec_streamBeat (s : State) : exec (.streamBeat) s = execStreamBeat s := rfl
theorem exec_segmentComplete (s : State) : exec (.segmentComplete) s = execSegmentComplete s := rfl
theorem exec_ecall (s : State) : exec (.ecall) s = execEcall s := rfl
theorem exec_brk (s : State) : exec (.brk) s = execBrk s := rfl
theorem exec_tret (s : State) : exec (.tret) s = execTret s := rfl
theorem exec_tlbiVmid (s : State) : exec (.tlbiVmid) s = execTlbiVmid s := rfl
theorem exec_tlbiAll (s : State) : exec (.tlbiAll) s = execTlbiAll s := rfl
theorem exec_tlbiComplete (s : State) : exec (.tlbiComplete) s = execTlbiComplete s := rfl
theorem exec_barrelCycle (s : State) : exec (.barrelCycle) s = execBarrelCycle s := rfl
theorem exec_resultReturn (s : State) : exec (.resultReturn) s = execResultReturn s := rfl
theorem exec_storeDrain (s : State) : exec (.storeDrain) s = execStoreDrain s := rfl
theorem exec_dutyMet (s : State) : exec (.dutyMet) s = execDutyMet s := rfl
theorem exec_sliceRequest (s : State) : exec (.sliceRequest) s = execSliceRequest s := rfl
theorem exec_pageCheckFill (s : State) : exec (.pageCheckFill) s = execPageCheckFill s := rfl
theorem exec_stage1Walk (s : State) : exec (.stage1Walk) s = execStage1Walk s := rfl
theorem exec_fringHeadWrite (s : State) : exec (.fringHeadWrite) s = execFringHeadWrite s := rfl
theorem exec_resolveReplay (s : State) : exec (.resolveReplay) s = execResolveReplay s := rfl
theorem exec_resolveFail (s : State) : exec (.resolveFail) s = execResolveFail s := rfl
theorem exec_arrivalDeliver (s : State) : exec (.arrivalDeliver) s = execArrivalDeliver s := rfl
theorem exec_arrivalQueuePlace (s : State) : exec (.arrivalQueuePlace) s = execArrivalQueuePlace s := rfl
theorem exec_timebaseTickDue (s : State) : exec (.timebaseTickDue) s = execTimebaseTickDue s := rfl
theorem exec_tickUnitSend (s : State) : exec (.tickUnitSend) s = execTickUnitSend s := rfl
theorem exec_sliceTickApply (s : State) : exec (.sliceTickApply) s = execSliceTickApply s := rfl
theorem exec_tickAck (s : State) : exec (.tickAck) s = execTickAck s := rfl
theorem exec_scrubberRefresh (s : State) : exec (.scrubberRefresh) s = execScrubberRefresh s := rfl
theorem exec_trailEnable (s : State) : exec (.trailEnable) s = execTrailEnable s := rfl
theorem exec_trailEnableComplete (s : State) : exec (.trailEnableComplete) s = execTrailEnableComplete s := rfl
theorem exec_trailDisable (s : State) : exec (.trailDisable) s = execTrailDisable s := rfl
theorem exec_regStore (s : State) : exec (.regStore) s = execRegStore s := rfl
theorem exec_registrationComplete (s : State) : exec (.registrationComplete) s = execRegistrationComplete s := rfl
theorem exec_unregStore (s : State) : exec (.unregStore) s = execUnregStore s := rfl
theorem exec_handleRelease (s : State) : exec (.handleRelease) s = execHandleRelease s := rfl
theorem exec_launchStore (s : State) : exec (.launchStore) s = execLaunchStore s := rfl
theorem exec_launchEligible (s : State) : exec (.launchEligible) s = execLaunchEligible s := rfl
theorem exec_nodeStart (s : State) : exec (.nodeStart) s = execNodeStart s := rfl
theorem exec_initialThreadDeliver (s : State) : exec (.initialThreadDeliver) s = execInitialThreadDeliver s := rfl
theorem exec_copyNodeComplete (s : State) : exec (.copyNodeComplete) s = execCopyNodeComplete s := rfl
theorem exec_nodeComplete (s : State) : exec (.nodeComplete) s = execNodeComplete s := rfl
theorem exec_tsigAccept (s : State) : exec (.tsigAccept) s = execTsigAccept s := rfl
theorem exec_launchFinish (s : State) : exec (.launchFinish) s = execLaunchFinish s := rfl
theorem exec_preempt (s : State) : exec (.preempt) s = execPreempt s := rfl
theorem exec_savedContextRestore (s : State) : exec (.savedContextRestore) s = execSavedContextRestore s := rfl
theorem exec_governorEvaluate (s : State) : exec (.governorEvaluate) s = execGovernorEvaluate s := rfl
theorem exec_powerSlowCheck (s : State) : exec (.powerSlowCheck) s = execPowerSlowCheck s := rfl
theorem exec_powerFastWindow (s : State) : exec (.powerFastWindow) s = execPowerFastWindow s := rfl
theorem exec_thermalRead (s : State) : exec (.thermalRead) s = execThermalRead s := rfl
theorem exec_energyChargeApply (s : State) : exec (.energyChargeApply) s = execEnergyChargeApply s := rfl
theorem exec_pset (s : State) : exec (.pset) s = execPset s := rfl
theorem exec_padd (s : State) : exec (.padd) s = execPadd s := rfl
theorem exec_telemetrySample (s : State) : exec (.telemetrySample) s = execTelemetrySample s := rfl
theorem exec_transferRow (s : State) : exec (.transferRow) s = execTransferRow s := rfl
theorem exec_transferSlice (s : State) : exec (.transferSlice) s = execTransferSlice s := rfl
theorem exec_transferChannel (s : State) : exec (.transferChannel) s = execTransferChannel s := rfl
theorem exec_transferEngine (s : State) : exec (.transferEngine) s = execTransferEngine s := rfl
theorem exec_transferComplete (s : State) : exec (.transferComplete) s = execTransferComplete s := rfl
theorem exec_vaultGenerate (s : State) : exec (.vaultGenerate) s = execVaultGenerate s := rfl
theorem exec_vaultDestroy (s : State) : exec (.vaultDestroy) s = execVaultDestroy s := rfl
theorem exec_keyDestroyComplete (s : State) : exec (.keyDestroyComplete) s = execKeyDestroyComplete s := rfl
theorem exec_hostTlbiVa (s : State) : exec (.hostTlbiVa) s = execHostTlbiVa s := rfl
theorem exec_hostTlbiVmid (s : State) : exec (.hostTlbiVmid) s = execHostTlbiVmid s := rfl
theorem exec_hostTlbiS2 (s : State) : exec (.hostTlbiS2) s = execHostTlbiS2 s := rfl
theorem exec_hostTlbiAll (s : State) : exec (.hostTlbiAll) s = execHostTlbiAll s := rfl
theorem exec_counterSelectWrite (s : State) : exec (.counterSelectWrite) s = execCounterSelectWrite s := rfl
theorem exec_rateLimitAdmit (s : State) : exec (.rateLimitAdmit) s = execRateLimitAdmit s := rfl
theorem exec_fwUpdate (s : State) : exec (.fwUpdate) s = execFwUpdate s := rfl
theorem exec_fwSwitch (s : State) : exec (.fwSwitch) s = execFwSwitch s := rfl
theorem exec_fwReady (s : State) : exec (.fwReady) s = execFwReady s := rfl
theorem exec_fwSwitchTimeout (s : State) : exec (.fwSwitchTimeout) s = execFwSwitchTimeout s := rfl
theorem exec_attestationReport (s : State) : exec (.attestationReport) s = execAttestationReport s := rfl
theorem exec_fwCommandComplete (s : State) : exec (.fwCommandComplete) s = execFwCommandComplete s := rfl
theorem exec_powerOn (s : State) : exec (.powerOn) s = execPowerOn s := rfl
theorem exec_hostMemoryAccess (s : State) : exec (.hostMemoryAccess) s = execHostMemoryAccess s := rfl
theorem exec_remoteRequest (s : State) : exec (.remoteRequest) s = execRemoteRequest s := rfl
theorem exec_linkFailure (s : State) : exec (.linkFailure) s = execLinkFailure s := rfl
theorem exec_peerRestore (s : State) : exec (.peerRestore) s = execPeerRestore s := rfl
theorem exec_hostLinkRetrain (s : State) : exec (.hostLinkRetrain) s = execHostLinkRetrain s := rfl
theorem exec_frameArrive (s : State) : exec (.frameArrive) s = execFrameArrive s := rfl
theorem exec_trailheadFrameDeliver (s : State) : exec (.trailheadFrameDeliver) s = execTrailheadFrameDeliver s := rfl
theorem exec_flowEnable (s : State) : exec (.flowEnable) s = execFlowEnable s := rfl
theorem exec_debugFreeze (s : State) : exec (.debugFreeze) s = execDebugFreeze s := rfl
theorem exec_debugThaw (s : State) : exec (.debugThaw) s = execDebugThaw s := rfl
theorem exec_debugWindowAccess (s : State) : exec (.debugWindowAccess) s = execDebugWindowAccess s := rfl
theorem exec_uncorrectableError (s : State) : exec (.uncorrectableError) s = execUncorrectableError s := rfl
theorem exec_correctedError (s : State) : exec (.correctedError) s = execCorrectedError s := rfl
theorem exec_rowRemap (s : State) : exec (.rowRemap) s = execRowRemap s := rfl
theorem exec_registerWrite (s : State) : exec (.registerWrite) s = execRegisterWrite s := rfl
theorem exec_ptpClockStep (s : State) : exec (.ptpClockStep) s = execPtpClockStep s := rfl
theorem exec_parkEarlyComplete (s : State) : exec (.parkEarlyComplete) s = execParkEarlyComplete s := rfl
theorem exec_peerPortLinkChange (s : State) : exec (.peerPortLinkChange) s = execPeerPortLinkChange s := rfl
theorem exec_remoteFaultResolved (s : State) : exec (.remoteFaultResolved) s = execRemoteFaultResolved s := rfl

end Sys2Proof.Machine
end

