-- ==== Sys2Proof/Laws/Issue.lean ====
section
/-! SUPPORT. How a word is settled: the checks that it passes, the marks of its issue, and the ways it leaves its context. -/

namespace Sys2Proof.Machine

/-! ## The issuing context -/

@[simp] theorem curId_cur (s t : State) (h : t.cur = s.cur) : curId t = curId s := by simp [curId, h]

theorem me_cur (s t : State) (h : t.cur = s.cur) : me t = me s := by simp [me, curId, h]

theorem getCtx_of_curCtx {s : State} {c : Ctx} (h : curCtx s = some c) : getCtx s (me s) = some c := by
  unfold curCtx at h
  cases hc : curId s with
  | none => rw [hc] at h; cases h
  | some i => rw [hc] at h; simpa [me, hc] using h

theorem curCtx_of_getCtx {s t : State} {c c' : Ctx} (hs : curCtx s = some c) (hcur : t.cur = s.cur)
    (h : getCtx t (me s) = some c') : curCtx t = some c' := by
  unfold curCtx at hs ⊢
  rw [curId_cur s t hcur]
  cases hc : curId s with
  | none => rw [hc] at hs; cases hs
  | some i => simpa [me, hc] using h

/-! ## Checks -/

/-- A word that can issue is judged by its own checks alone (R56). -/
theorem check_go {s : State} {c : Ctx} {u : Use} (h : CanIssue s c u) (own : State → Core → Ctx → Verdict) :
    check u own s = own s (my s) c := by
  have hb : badPort u (my s) c = false := by
    unfold badPort
    have hn : ∀ (b : Bool) (l : List Reg), (∀ r ∈ l, r ∈ u.regs) → l.filter (fun r => portOf (my s) c r == some b) = [] := by
      intro b l hl
      rw [List.filter_eq_nil_iff]
      intro r hr; rw [h.unbound r (hl r hr)]; simp
    have hs : ∀ r ∈ u.srcs, r ∈ u.regs := fun r hr => List.mem_append_left _ hr
    have hd : ∀ r ∈ u.dst, r ∈ u.regs := fun r hr => List.mem_append_right _ (by simpa using hr)
    split
    · simp only [Bool.or_eq_false_iff]
      refine ⟨⟨?_, ?_⟩, ?_⟩
      · rw [List.any_eq_false]; intro r hr; rw [h.unbound r (hs r hr)]; simp
      · cases hdst : u.dst with
        | none => rfl
        | some d => have := h.unbound d (hd d (by simp [hdst])); simp [this]
      · rw [hn false u.srcs hs]; decide
    · rw [List.any_eq_false]; intro r hr; rw [h.unbound r hr]; simp
  have hy : beyond u c = false := by
    unfold beyond
    simp only [Bool.or_eq_false_iff, decide_eq_false_iff_not, Nat.not_le, List.any_eq_false, decide_eq_true_eq]
    exact ⟨fun r hr => by have := h.inside r hr; omega, h.top⟩
  have he : u.srcs.any (isEmpty (my s) c) = false := by
    rw [List.any_eq_false]; intro r hr; simp [isEmpty, h.full r (List.mem_append_left _ hr)]
  have hd : u.dst.any (isEmpty (my s) c) = false := by
    cases hdst : u.dst with
    | none => rfl
    | some d =>
      have := h.full d (List.mem_append_right _ (by simp [hdst]))
      simp [isEmpty, this]
  have hp : (u.srcs.find? fun r => (regEntry (my s) c r).poison) = none := by
    rw [List.find?_eq_none]; intro r hr; simp [h.sound r hr]
  have hw : (u.regs.find? fun r => u.ports && (portOf (my s) c r).isSome && (pageEntry (my s) c.vmid (portDesc (my s) c r)).isNone) = none := by
    rw [List.find?_eq_none]; intro r hr; simp [h.unbound r hr]
  have hi : (u.srcs.find? fun r => portOf (my s) c r == some false) = none := by
    rw [List.find?_eq_none]; intro r hr; simp [h.unbound r (List.mem_append_left _ hr)]
  have hm : u.withPorts (my s) c = u := by
    have : (u.regs.any fun r => (portOf (my s) c r).isSome) = false := by
      rw [List.any_eq_false]; intro r hr; simp [h.unbound r hr]
    unfold Use.withPorts; rw [this]; simp
  have hq : ∀ v, u.passed (my s) c v = v := by
    intro v
    have : (u.dst.any fun r => portOf (my s) c r == some true) = false := by
      cases hdst : u.dst with
      | none => rfl
      | some d => simp [h.unbound d (List.mem_append_right _ (by simp [hdst]))]
    simp [Use.passed, this]
  unfold check
  simp [h.ctx, hb, hy, h.calm, hm, hq, h.free, he, hd, hp, hw, hi]

/-- A settled word that goes on carries out its effect, and has used its turn. -/
theorem settle_go {s : State} {c : Ctx} (hc : curCtx s = some c) (hp : s.cur.probe = false) (eff : State → State) :
    settle .go eff s = .next (eff (markIssued s)) := by
  simp [settle, hc, hp]

/-- A settled word that traps takes the trap. -/
theorem settle_trap {s : State} {c : Ctx} (hc : curCtx s = some c) (hp : s.cur.probe = false) (x : Cause) (v : Word) (eff : State → State) :
    settle (.trap x v) eff s = .next (trapNow (markIssued s) x v) := by
  simp [settle, hc, hp]

/-- A settled word that cannot issue parks. -/
theorem settle_park {s : State} {c : Ctx} (hc : curCtx s = some c) (hp : s.cur.probe = false) (w : Why) (eff : State → State) :
    settle (.park w) eff s = .next (parkNow s w) := by
  simp [settle, hc, hp]

/-! ## The mark of an issue -/

/-- Only the record of the rotation changes. -/
structure Marked (s t : State) : Prop where
  rest : t = { s with cores := t.cores }
  core : ∀ k, getCore t k = { getCore s k with rot := (getCore t k).rot }

theorem markIssued_marked (s : State) : Marked s (markIssued s) := by
  unfold markIssued
  split
  · constructor
    · rfl
    · intro k; simp only [getCore_modCore]; split
      · rename_i h; subst h; rfl
      · rfl
  · exact ⟨rfl, fun _ => rfl⟩

theorem Marked.cur {s t : State} (h : Marked s t) : t.cur = s.cur := by rw [h.rest]
theorem Marked.me {s t : State} (h : Marked s t) : Machine.me t = Machine.me s := me_cur s t h.cur
theorem Marked.rf {s t : State} (h : Marked s t) (k : Nat) : (getCore t k).rf = (getCore s k).rf := by rw [h.core k]
theorem Marked.ctxs {s t : State} (h : Marked s t) (k : Nat) : (getCore t k).ctxs = (getCore s k).ctxs := by rw [h.core k]
theorem Marked.getCtx {s t : State} (h : Marked s t) (id : Nat) : Machine.getCtx t id = Machine.getCtx s id := by
  simp [Machine.getCtx, h.ctxs]
theorem Marked.curCtx {s t : State} (h : Marked s t) : Machine.curCtx t = Machine.curCtx s := by
  unfold Machine.curCtx
  rw [curId_cur s t h.cur]
  cases curId s <;> simp [h.getCtx]
theorem Marked.regEntry {s t : State} (h : Marked s t) (c : Ctx) (r : Reg) : Machine.regEntry (my t) c r = Machine.regEntry (my s) c r := by
  simp [Machine.regEntry, my, h.me, h.rf]
theorem Marked.portOf {s t : State} (h : Marked s t) (c : Ctx) (r : Reg) : Machine.portOf (my t) c r = Machine.portOf (my s) c r := by
  simp [Machine.portOf, h.regEntry]

/-- The operand of an unbound register is its value. -/
theorem src_val {s t : State} {c : Ctx} (h : Marked s t) (hc : curCtx s = some c) {r : Reg} (hr : portOf (my s) c r = none) :
    src t r = val s c r := by
  simp [src, h.curCtx, hc, h.portOf, hr, h.regEntry, val]

/-! ## Leaving the context -/

theorem retire_eq (s : State) : retire s = modCtx s (me s) (pastWord s.cur) := by
  unfold retire pastWord
  congr 1
  funext c
  cases s.cur.lane <;> cases s.cur.rep <;> rfl

theorem modCtx_some {s : State} {id : Nat} {c : Ctx} (h : getCtx s id = some c) (f : Ctx → Ctx) : modCtx s id f = setCtx s id (f c) := by
  simp [modCtx, h]

theorem setCtx_cur (s : State) (id : Nat) (c : Ctx) : (setCtx s id c).cur = s.cur := rfl

theorem setCtx_only (s : State) (id : Nat) (c : Ctx) : OnlyContexts s (setCtx s id c) := by
  refine ⟨rfl, fun k => ?_⟩
  simp only [setCtx, getCore_modCore]
  split
  · rename_i h; subst h; rfl
  · rfl

theorem setCtx_rf (s : State) (id k : Nat) (c : Ctx) : (getCore (setCtx s id c) k).rf = (getCore s k).rf := by
  simp only [setCtx, getCore_modCore]; split
  · rename_i h; subst h; rfl
  · rfl

theorem OnlyContexts.trans {s t u : State} (h : OnlyContexts s t) (g : OnlyContexts t u) : OnlyContexts s u := by
  refine ⟨?_, fun k => ?_⟩
  · rw [g.1, h.1]
  · rw [g.2 k, h.2 k]

theorem Marked.only {s t : State} (h : Marked s t) : OnlyContexts s t := by
  refine ⟨h.rest, fun k => ?_⟩
  have := h.core k
  rw [h.rf k, h.ctxs k]; exact this

/-- A result in a register of the current context, over the marked state. -/
theorem writeReg_unbound {s t : State} {c : Ctx} (hm : Marked s t) (hc : curCtx s = some c) (d : Reg) (v : Word) (f : BitVec 5) :
    Wrote s (retire (writeReg (setFlags f (me t) t) (me (setFlags f (me t) t)) d v)) c d v f := by
  have hg : getCtx s (me s) = some c := getCtx_of_curCtx hc
  have hgt : getCtx t (me s) = some c := by rw [hm.getCtx]; exact hg
  rw [hm.me]
  have hsf : setFlags f (me s) t = setCtx t (me s) { c with fflags := c.fflags ||| f } := by
    unfold setFlags; exact modCtx_some hgt _
  rw [hsf]
  rw [me_cur t (setCtx t (me s) { c with fflags := c.fflags ||| f }) (setCtx_cur _ _ _), hm.me]
  generalize hu : setCtx t (me s) { c with fflags := c.fflags ||| f } = u
  have hucur : u.cur = s.cur := by rw [← hu, setCtx_cur]; exact hm.cur
  have hug : getCtx u (me s) = some { c with fflags := c.fflags ||| f } := by rw [← hu, getCtx_setCtx]; simp
  have huo : ∀ id, id ≠ me s → getCtx u id = getCtx s id := by
    intro id hid; rw [← hu, getCtx_setCtx]; simp [hid, hm.getCtx]
  have hurf : ∀ k, (getCore u k).rf = (getCore s k).rf := by intro k; rw [← hu, setCtx_rf, hm.rf]
  have huonly : OnlyContexts s u := by rw [← hu]; exact hm.only.trans (setCtx_only _ _ _)
  -- the write
  have hw : ∃ u', writeReg u (me s) d v = u' ∧ u'.cur = s.cur ∧ (∀ id, getCtx u' id = getCtx u id) ∧ OnlyContexts s u' ∧
      OneRegister s u' c d { val := v, full := true, poison := false } := by
    refine ⟨_, rfl, ?_⟩
    unfold writeReg putReg
    by_cases hd : d = 0
    · subst hd
      refine ⟨hucur, fun _ => rfl, huonly, fun k n => ?_⟩
      simp [hurf]
    · simp only [hd, if_false, hug]
      refine ⟨hucur, fun id => getCtx_modCore _ _ _ rfl id, huonly.trans ⟨rfl, fun k => ?_⟩, fun k n => ?_⟩
      · simp only [getCore_modCore]; split
        · rename_i hk; subst hk; rfl
        · rfl
      · simp only [getCore_modCore]
        by_cases hk : k = coreOf (me s)
        · subst hk; have hd' : ¬ d = 0#7 := hd; simp [amGet_amSet, hd', hurf]
        · simp [hk, hurf]
  obtain ⟨u', h1, h2, h3, h4, h5⟩ := hw
  rw [h1, retire_eq, me_cur s u' h2, modCtx_some (by rw [h3]; exact hug), h2]
  refine ⟨h4.trans (setCtx_only _ _ _), fun k n => ?_, ?_, fun id hid => ?_⟩
  · rw [setCtx_rf]; exact h5 k n
  · rw [getCtx_setCtx]; simp
  · rw [getCtx_setCtx]; simp [hid, h3, huo id hid]

/-- `finish` on an unbound destination writes the register and leaves everything else. -/
theorem finish_wrote {s t : State} {c : Ctx} (hm : Marked s t) (hc : curCtx s = some c) (d : Reg) (v : Word) (f : BitVec 5)
    (hd : portOf (my s) c d = none) : Wrote s (finish d v f t) c d v f := by
  have hgt : getCtx t (me s) = some c := by rw [hm.getCtx]; exact getCtx_of_curCtx hc
  have hw := writeReg_unbound hm hc d v f
  rw [hm.me] at hw
  have hme : me (setFlags f (me s) t) = me s := by
    unfold setFlags; rw [modCtx_some hgt, me_cur t _ (setCtx_cur _ _ _), hm.me]
  rw [hme] at hw
  unfold finish
  simpa [hm.me, hm.curCtx, hc, hm.portOf, hd] using hw

end Sys2Proof.Machine
end

