-- ==== Sys2Proof/Laws/Words.lean ====
section
/-! SUPPORT. How the effect of a word is put together: each update of the state, as a change of what the word did so far. -/

namespace Sys2Proof.Machine

theorem Does.of {s : State} {i : Instr} {r : Result} {c : Ctx} {u : State} {o : Core} {d : Reg} {e : RegEntry} {c' : Ctx}
    (h : exec i s = r) (g : ∃ t, r = .next t ∧ Did s t c u o d e c') : Does s i c u o d e c' := by
  obtain ⟨t, h', hw⟩ := g
  exact ⟨t, h.trans h', hw⟩

/-- A settled word does what its effect does. -/
theorem settle_does {s : State} {c : Ctx} {k : Use} {own : State → Core → Ctx → Verdict} {eff : State → State} {u : State} {o : Core}
    {d : Reg} {e : RegEntry} {c' : Ctx} (hu : CanIssue s c k) (hown : own s (my s) c = .go)
    (h : Did s (eff (markIssued s)) c u o d e c') : ∃ t, settle (check k own s) eff s = .next t ∧ Did s t c u o d e c' :=
  ⟨_, by rw [check_go hu, hown, settle_go hu.ctx hu.real], h⟩

/-- A word that has only issued. -/
theorem Did.start {s t : State} {c : Ctx} (hm : Marked s t) (hc : curCtx s = some c) :
    Did s t c s (my s) 0 RegEntry.zero c := by
  refine ⟨⟨hm.rest, fun k => ?_⟩, fun k n => ?_, ?_, fun id _ => hm.getCtx id⟩
  · have := hm.core k
    split
    · rename_i hk; subst hk; rw [hm.rf, hm.ctxs]; exact this
    · rw [hm.rf, hm.ctxs]; exact this
  · simp [hm.rf]
  · rw [hm.getCtx]; exact getCtx_of_curCtx hc

/-- The context of a lane; with it a context id reads the same in every state on the way of a word. -/
def laneCtx : Lane → Nat
  | .barrel core slot _ => ctxId core slot
  | .stream _ _ core slot => ctxId core slot
  | .sequencer _ | .decide _ => 0

theorem me_lane (s : State) : me s = laneCtx s.cur.lane := by
  unfold me curId laneCtx; cases s.cur.lane <;> rfl

/-- A settled word does what its effect does to any state in which the word has only issued. -/
theorem settle_law {s : State} {c : Ctx} {k : Use} {own : State → Core → Ctx → Verdict} {eff : State → State} {u : State} {o : Core}
    {d : Reg} {e : RegEntry} {c' : Ctx} (hu : CanIssue s c k) (hown : own s (my s) c = .go)
    (h : ∀ m, Marked s m → Did s m c s (my s) 0 RegEntry.zero c → Did s (eff m) c u o d e c') :
    ∃ t, settle (check k own s) eff s = .next t ∧ Did s t c u o d e c' :=
  settle_does hu hown (h _ (markIssued_marked s) (Did.start (markIssued_marked s) hu.ctx))

variable {s t u : State} {c c' : Ctx} {o : Core} {d : Reg} {e : RegEntry}

theorem Did.ctx (h : Did s t c u o d e c') (f : Ctx → Ctx) : Did s (modCtx t (me s) f) c u o d e (f c') := by
  have hg := h.ctxs.1
  rw [modCtx_some hg]
  refine ⟨⟨?_, fun k => ?_⟩, fun k n => ?_, ?_, fun id hid => ?_⟩
  · have := h.around.1
    simp only [setCtx, modCore, setCore]; rw [this]
  · have := h.around.2 k
    simp only [setCtx, getCore_modCore]
    by_cases hk : k = coreOf (me s)
    · subst hk; rw [if_pos rfl]; rw [this]
    · rw [if_neg hk]; exact this
  · rw [setCtx_rf]; exact h.regs k n
  · rw [getCtx_setCtx]; simp
  · rw [getCtx_setCtx]; simp [hid, h.ctxs.2 id hid]

theorem Did.ctxAt (h : Did s t c u o d e c') {id : Nat} (hid : id = me s) (f : Ctx → Ctx) : Did s (modCtx t id f) c u o d e (f c') :=
  hid ▸ h.ctx f

theorem Did.set (h : Did s t c u o d e c') (x : Ctx) : Did s (setCtx t (me s) x) c u o d e x := by
  have := h.ctx (fun _ => x)
  rwa [modCtx_some h.ctxs.1] at this

theorem Did.reg (h : Did s t c u o 0 e c') (hb : c'.base = c.base) (d : Reg) (e' : RegEntry) :
    Did s (putReg t (me s) d e') c u o d e' c' := by
  unfold putReg
  by_cases hd : d = 0
  · subst hd
    refine ⟨h.around, fun k n => ?_, h.ctxs⟩
    have := h.regs k n
    simpa using this
  · simp only [hd, if_false, h.ctxs.1]
    refine ⟨⟨?_, fun k => ?_⟩, fun k n => ?_, ?_, fun id hid => ?_⟩
    · have := h.around.1
      simp only [modCore, setCore]; rw [this]
    · have := h.around.2 k
      simp only [getCore_modCore]
      by_cases hk : k = coreOf (me s)
      · subst hk; rw [if_pos rfl]; rw [this]
      · rw [if_neg hk]; exact this
    · have := h.regs k n
      simp only [getCore_modCore]
      by_cases hk : k = coreOf (me s)
      · subst hk
        have hd' : ¬ d = 0#7 := hd
        simp only [ne_eq, not_true_eq_false, false_and, and_false, if_false] at this
        rw [if_pos rfl]
        simp only [amGet_amSet, hb, this]
        simp [hd']
      · simpa [hk] using this
    · rw [getCtx_modCore _ _ _ rfl]; exact h.ctxs.1
    · rw [getCtx_modCore _ _ _ rfl]; exact h.ctxs.2 id hid

/-- A change of the word's core that concerns neither contexts nor registers. -/
theorem Did.core (h : Did s t c u o d e c') (f : Core → Core)
    (hf : ∀ k a b r, f { k with rf := a, ctxs := b, rot := r } = { f k with rf := a, ctxs := b, rot := r }) :
    Did s (modCore t (coreOf (me s)) f) c u (f o) d e c' := by
  have hrf : ∀ k : Core, (f k).rf = k.rf := fun k => by have := congrArg Core.rf (hf k k.rf k.ctxs k.rot); exact this
  have hcx : ∀ k : Core, (f k).ctxs = k.ctxs := fun k => by have := congrArg Core.ctxs (hf k k.rf k.ctxs k.rot); exact this
  have hrot : ∀ k : Core, (f k).rot = k.rot := fun k => by have := congrArg Core.rot (hf k k.rf k.ctxs k.rot); exact this
  refine ⟨⟨?_, fun k => ?_⟩, fun k n => ?_, ?_, fun id hid => ?_⟩
  · have := h.around.1
    simp only [modCore, setCore]; rw [this]
  · have := h.around.2 k
    simp only [getCore_modCore]
    by_cases hk : k = coreOf (me s)
    · subst hk
      simp only [if_true] at this ⊢
      rw [hrf, hcx, hrot]
      conv => lhs; rw [this]
      rw [hf]
    · simp only [hk, if_false] at this ⊢; exact this
  · have := h.regs k n
    simp only [getCore_modCore]
    split
    · rename_i hk; rw [hrf]; subst hk; exact this
    · exact this
  · rw [getCtx_modCore _ _ _ (hcx _)]; exact h.ctxs.1
  · rw [getCtx_modCore _ _ _ (hcx _)]; exact h.ctxs.2 id hid

/-- A change of the package around the cores. -/
theorem Did.pkg (h : Did s t c u o d e c') (g : State → State) (hg : ∀ v cs, g { v with cores := cs } = { g v with cores := cs }) :
    Did s (g t) c (g u) o d e c' := by
  have hc : ∀ v : State, (g v).cores = v.cores := fun v => by
    have h1 := congrArg State.cores (hg v v.cores)
    exact h1
  have hk : ∀ k, getCore (g t) k = getCore t k := fun k => by simp [getCore, hc]
  refine ⟨⟨?_, fun k => ?_⟩, fun k n => ?_, ?_, fun id hid => ?_⟩
  · have := h.around.1
    rw [hc]
    conv => lhs; rw [this]
    rw [hg]
  · rw [hk]; exact h.around.2 k
  · rw [hk]; exact h.regs k n
  · have := h.ctxs.1; simpa [Machine.getCtx, hk] using this
  · have := h.ctxs.2 id hid; simpa [Machine.getCtx, hk] using this

/-! ## What stays readable on the way -/

theorem Did.getCtx (h : Did s t c u o d e c') : Machine.getCtx t (Machine.me s) = some c' := h.ctxs.1

theorem Did.field (h : Did s t c u o d e c') {α : Type} (f : State → α) (hf : ∀ v cs, f { v with cores := cs } = f v) : f t = f u := by
  have := h.around.1
  rw [this, hf]

theorem Did.cur (h : Did s t c u o d e c') (hu : u.cur = s.cur) : t.cur = s.cur := by
  rw [h.field State.cur (fun _ _ => rfl), hu]

theorem Did.me (h : Did s t c u o d e c') (hu : u.cur = s.cur) : Machine.me t = Machine.me s := me_cur s t (h.cur hu)

theorem Did.curCtx (h : Did s t c u o d e c') (hu : u.cur = s.cur) (hc : Machine.curCtx s = some c) : Machine.curCtx t = some c' :=
  curCtx_of_getCtx hc (h.cur hu) h.ctxs.1

theorem Did.my (h : Did s t c u o d e c') (hu : u.cur = s.cur) :
    Machine.my t = { o with rf := (Machine.my t).rf, ctxs := (Machine.my t).ctxs, rot := (Machine.my t).rot } := by
  have := h.around.2 (coreOf (Machine.me s))
  simp only [if_true] at this
  unfold Machine.my
  rw [h.me hu]; exact this

/-- No register has been written yet: each reads as before. -/
theorem Did.regEntry (h : Did s t c u o 0 e c') (hu : u.cur = s.cur) (r : Reg) : Machine.regEntry (Machine.my t) c r = Machine.regEntry (Machine.my s) c r := by
  unfold Machine.regEntry
  split
  · rfl
  · have := h.regs (coreOf (Machine.me s)) (c.base + r.toNat)
    simp only [ne_eq, not_true_eq_false, false_and, and_false, if_false] at this
    unfold Machine.my amGetD
    rw [h.me hu, this]

theorem Did.src (h : Did s t c u o 0 e c) (hu : u.cur = s.cur) (hc : Machine.curCtx s = some c) {r : Reg}
    (hr : portOf (Machine.my s) c r = none) : Machine.src t r = val s c r := by
  have hp : portOf (Machine.my t) c r = portOf (Machine.my s) c r := by unfold portOf; rw [h.regEntry hu]
  simp [Machine.src, h.curCtx hu hc, hp, hr, h.regEntry hu, val]

/-- The word leaves its context at the next one. -/
theorem Did.retire (h : Did s t c u o d e c') (hu : u.cur = s.cur) : Did s (Machine.retire t) c u o d e (pastWord s.cur c') := by
  rw [retire_eq, h.me hu, h.cur hu]
  exact h.ctx _

theorem Did.done (h : Did s t c u o d e c') (hu : u.cur = s.cur) : Did s (Machine.done t) c u o d e (pastWord s.cur c') := h.retire hu

theorem trapPc_cur (h : t.cur = s.cur) : trapPc t = trapPc s := by simp [trapPc, h]
theorem runOf_cur (h : t.cur = s.cur) (c : Ctx) : runOf t c = runOf s c := by simp [runOf, h]

/-- The word holds its context. -/
theorem Did.hold (h : Did s t c u o d e c') (hu : u.cur = s.cur) (w : Hold) : Did s (holdNow w t) c u o d e (heldBy s c' w) := by
  unfold holdNow heldBy
  simp only [trapPc_cur (h.cur hu), runOf_cur (h.cur hu)]
  have h1 := (h.ctxAt (h.me hu) fun c => { c with heldPc := trapPc s, heldRepc := runOf s c }).retire hu
  exact h1.ctxAt (h1.me hu) _

/-- A destination emptied, read where it stood. -/
theorem Did.empty (h : Did s t c u o 0 e c') (hu : u.cur = s.cur) (hb : c'.base = c.base) (d : Reg) :
    Did s (emptyReg t (Machine.me s) d) c u o d (emptied s c d) c' := by
  unfold emptyReg setFull
  simp only [h.ctxs.1]
  have : Machine.regEntry (getCore t (coreOf (Machine.me s))) c' d = Machine.regEntry (Machine.my s) c d := by
    have h2 := h.regEntry hu d
    unfold Machine.my at h2
    rw [h.me hu] at h2
    rw [← show Machine.regEntry (getCore s (coreOf (Machine.me s))) c d = Machine.regEntry (Machine.my s) c d from rfl, ← h2]
    simp [Machine.regEntry, hb]
  rw [this]
  exact h.reg hb d _

theorem Did.emptyAt (h : Did s t c u o 0 e c') (hu : u.cur = s.cur) (hb : c'.base = c.base) {id : Nat} (hid : id = Machine.me s) (d : Reg) :
    Did s (emptyReg t id d) c u o d (emptied s c d) c' := hid ▸ h.empty hu hb d

theorem Did.write (h : Did s t c u o 0 e c') (hb : c'.base = c.base) (d : Reg) (v : Word) :
    Did s (writeReg t (Machine.me s) d v) c u o d (filled v) c' := h.reg hb d _

theorem takeId_eq (s : State) : takeId s = (s.nextId, { s with nextId := s.nextId + 1 }) := rfl

/-! ## Traps -/

/-- Taking a trap outside a handler (R295). -/
theorem Did.trap (h : Did s t c u o d e c') (hv : c'.tvec ≠ 0) (hb : c'.tcause.getLsbD 62 = false) (x : Cause) (v pc : Word) :
    Did s (takeTrap t (Machine.me s) x v pc) c u o d e
      { c' with epc := pc, tval := v, tcause := causeWord x, pc := c'.tvec, status := .ready, popped := none, cover := none, portTrap := none } := by
  unfold takeTrap
  simp only [h.ctxs.1]
  have hb' : bit 62 c'.tcause = false := hb
  simp only [hb', hv, Bool.false_or, decide_false, if_false, Bool.false_eq_true]
  exact h.set _

theorem check_trap {s : State} {c : Ctx} {k : Use} {own : State → Core → Ctx → Verdict} {x : Cause} {v : Word} {eff : State → State}
    (hu : CanIssue s c k) (hh : HasHandler s c) (hown : own s (Machine.my s) c = .trap x v) {i : Instr}
    (hi : exec i s = settle (check k own s) eff s) : Traps s i c x v := by
  obtain ⟨core, slot, others, hl⟩ := hh.barrel
  refine ⟨trapNow (markIssued s) x v, by rw [hi, check_go hu, hown, settle_trap hu.ctx hu.real], ?_⟩
  have hm := markIssued_marked s
  have h0 := Did.start hm hu.ctx
  have hid : ctxId core slot = Machine.me s := by simp [Machine.me, curId, hl]
  have hpc : ∀ w : State, w.cur = s.cur → trapPc w = trapPc s := fun w h => trapPc_cur h
  unfold trapNow runOf
  simp only [hm.cur, hl, hid]
  cases hr : s.cur.rep with
  | none =>
    simp only
    rw [hpc _ hm.cur]
    exact h0.trap hh.vector hh.outside x v (trapPc s)
  | some r =>
    have h1 := h0.ctx fun y => { y with repc := repcWord r.i r.left }
    simp only
    rw [hpc _ (h1.cur rfl)]
    exact h1.trap hh.vector hh.outside x v (trapPc s)

end Sys2Proof.Machine
end

