-- ==== Sys2Proof/Laws/Access.lean ====
section
/-! SUPPORT. What loads, stores and atomics do once they may issue, and where they trap. -/

namespace Sys2Proof.Machine

variable {s t u : State} {c c' : Ctx} {o : Core} {d : Reg} {e : RegEntry} {i : Instr}

theorem Marked.my (hm : Marked s t) : Machine.my t = { Machine.my s with rot := (Machine.my t).rot } := by
  have := hm.core (coreOf (Machine.me s))
  unfold Machine.my; rw [hm.me]; exact this

theorem widthBytes_pow : ∀ z : BitVec 2, widthBytes z.toNat = 2 ^ z.toNat := by decide

/-- The canonical test as R89 words it. -/
theorem canonical_iff (a : Word) : canonical a = true ↔ ∀ i, 47 ≤ i → i < 64 → a.getLsbD i = a.getLsbD 47 := by
  unfold canonical sext48
  rw [beq_iff_eq]
  have hm : (a.extractLsb' 0 48).msb = a.getLsbD 47 := by
    rw [BitVec.msb_eq_getLsbD_last, BitVec.getLsbD_extractLsb']; simp
  constructor
  · intro h i h1 h2
    by_cases h3 : i = 47
    · rw [h3]
    · have := congrArg (fun x : Word => x.getLsbD i) h
      simp only [BitVec.getLsbD_signExtend, h2, hm] at this
      rw [if_neg (by omega)] at this
      simpa using this.symm
  · intro h
    apply BitVec.eq_of_getLsbD_eq
    intro i hi
    rw [BitVec.getLsbD_signExtend, hm]
    by_cases h3 : i < 48
    · simp [h3, hi]
    · simp only [h3, if_false, hi]; simpa using (h i (by omega) hi).symm

theorem globalCheck_go {va : Word} {n : Nat} {rd wr : Bool} {p : Page} (h : Reaches s c va n rd wr p) :
    globalCheck (my s) c va n rd wr = .ok p := by
  have hc := (canonical_iff va).2 h.canon
  have hr : (rd && !p.rd) = false := by cases rd with | false => rfl | true => simp [h.reads rfl]
  have hw : (wr && !p.wr) = false := by cases wr with | false => rfl | true => simp [h.writes rfl]
  simp [globalCheck, h.aligned, hc, pageCheck, h.page, hr, hw]

theorem takeId_my (s : State) : my (takeId s).2 = my s := rfl

/-- A source of a word is its value, before and after the mark of the issue. -/
theorem CanIssue.src {k : Use} (hu : CanIssue s c k) (hm : Marked s t) {r : Reg} (hr : r ∈ k.regs) : Machine.src t r = val s c r :=
  src_val hm hu.ctx (hu.unbound r hr)

theorem Marked.refl (s : State) : Marked s s := ⟨rfl, fun _ => rfl⟩

theorem memAddr_cur (h : t.cur = s.cur) (b : Word) (off : BitVec 8) (n : Nat) : memAddr t b off n = memAddr s b off n := by
  simp [memAddr, h]


/-- The mark of an issue changes no request. -/
theorem Marked.request (hm : Marked s t) (c : Ctx) (op : ReqOp) (va : Word) (n : Nat) (p : Page) (d : Reg) (after : List Nat) :
    Machine.request t c op va n p d after = Machine.request s c op va n p d after := by
  simp [Machine.request, hm.me, trapPc_cur hm.cur, runOf_cur hm.cur, show t.nextId = s.nextId by rw [hm.rest]]

/-- A request leaves its core. -/
theorem Did.send (h : Did s t c s (Machine.my s) 0 e c') (r : Req) :
    Did s { t with nextId := t.nextId + 1, reqs := t.reqs ++ [r] } c (sent s r) (Machine.my s) 0 e c' := by
  have := h.pkg (fun v => { v with nextId := v.nextId + 1, reqs := v.reqs ++ [r] }) (fun _ _ => rfl)
  exact this

/-- The check of a load (R89, R90, R130). -/
theorem loadVerdict_eq {va : Word} {z : Nat} {ca : Bool} {p : Page} (h : Reaches s c va (widthBytes z) true false p) :
    loadVerdict s va z ca (my s) c = sourceVerdict s (loadSource (my s) c p va (widthBytes z) ca) := by
  simp [loadVerdict, globalCheck_go h]

theorem Marked.loadSource (hm : Marked s t) (p : Page) (va : Word) (n : Nat) (ca : Bool) :
    Machine.loadSource (Machine.my t) c p va n ca = Machine.loadSource (Machine.my s) c p va n ca := by
  rw [hm.my]; rfl

theorem Marked.pageEntry (hm : Marked s t) (v : BitVec 16) (va : Word) :
    Machine.pageEntry (Machine.my t) v va = Machine.pageEntry (Machine.my s) v va := by
  rw [hm.my]; rfl

/-- What a load does once it may issue (R91, R92). -/
theorem load_law {own : State → Core → Ctx → Verdict} {va : Word} {z : Nat} {ca acq : Bool} {p : Page} {k : Use} (hu : CanIssue s c k)
    (hr : Reaches s c va (widthBytes z) true false p) (hown : own s (my s) c = loadVerdict s va z ca (my s) c) (f : State → Word)
    (hf : f (markIssued s) = va) :
    (∀ v, loadSource (my s) c p va (widthBytes z) ca = .value v → pendingAccess s (me s) = false →
      ∃ t, settle (check k own s) (fun s => loadEffect (f s) z ca acq d s) s = .next t ∧
        Did s t c s (my s) d (filled (extend z v)) (pastWord s.cur c)) ∧
    (loadSource (my s) c p va (widthBytes z) ca = .request →
      ∃ t, settle (check k own s) (fun s => loadEffect (f s) z ca acq d s) s = .next t ∧
        Did s t c (sent s (request s c (.load z (ca && (p.home = .cached || p.home = .slice) && p.trail.isNone)) va (widthBytes z) p d []))
          (my s) d (emptied s c d) (pastWord s.cur (if acq then bound c (.acq s.nextId) else c))) ∧
    (loadSource (my s) c p va (widthBytes z) ca = .wait →
      settle (check k own s) (fun s => loadEffect (f s) z ca acq d s) s = .next (parkNow s .cover)) := by
  have hm := markIssued_marked s
  have h := Did.start hm hu.ctx
  rw [loadVerdict_eq hr] at hown
  have he : ∀ x, loadSource (my s) c p va (widthBytes z) ca = x →
      loadEffect va z ca acq d (markIssued s) =
        (match x with
         | .value v => retire (writeReg (markIssued s) (me (markIssued s)) d (extend z v))
         | _ =>
          let r := request s c (.load z (ca && (p.home = .cached || p.home = .slice) && p.trail.isNone)) va (widthBytes z) p d []
          let t := { markIssued s with nextId := s.nextId + 1, reqs := (markIssued s).reqs ++ [r] }
          let t := if acq then modCtx t (me t) fun c => bound c (.acq s.nextId) else t
          retire (emptyReg t (me t) d)) := by
    intro x hx
    unfold loadEffect
    rw [hm.curCtx, hu.ctx]
    simp only [hm.pageEntry, hr.page, hm.loadSource, hx]
    cases x with
    | value v => rfl
    | wait => simp only [takeId_eq, hm.request]; rw [show (markIssued s).nextId = s.nextId by rw [hm.rest]]; rfl
    | request => simp only [takeId_eq, hm.request]; rw [show (markIssued s).nextId = s.nextId by rw [hm.rest]]; rfl
  refine ⟨fun v hv hp => ?_, fun hv => ?_, fun hv => ?_⟩
  · refine settle_does hu (by rw [hown, hv]; simp [sourceVerdict, hp]) ?_
    simp only [hf, he _ hv, hm.me]
    exact (h.write rfl d _).retire rfl
  · refine settle_does hu (by rw [hown, hv]; rfl) ?_
    simp only [hf, he _ hv]
    have h1 := h.send (request s c (.load z (ca && (p.home = .cached || p.home = .slice) && p.trail.isNone)) va (widthBytes z) p d [])
    rw [show (markIssued s).nextId = s.nextId by rw [hm.rest]] at h1
    cases acq with
    | false =>
      have h2 := h1.empty rfl rfl d
      rw [← h1.me rfl] at h2
      exact h2.retire rfl
    | true =>
      have h2 := h1.ctxAt (h1.me rfl) fun c => bound c (.acq s.nextId)
      have h3 := h2.empty rfl rfl d
      rw [← h2.me rfl] at h3
      exact h3.retire rfl
  · rw [check_go hu, hown, hv]
    exact settle_park hu.ctx hu.real _ _

/-- Another result of a change of the word's core that concerns neither contexts nor registers. -/
theorem Did.coreAt (h : Did s t c u o d e c') {j : Nat} (hj : j = coreOf (Machine.me s)) (f : Core → Core)
    (hf : ∀ k a b r, f { k with rf := a, ctxs := b, rot := r } = { f k with rf := a, ctxs := b, rot := r }) :
    Did s (modCore t j f) c u (f o) d e c' := hj ▸ h.core f hf

/-- What a store does once it may issue (R95). -/
theorem store_law {n : Nat} {rel : Option (BitVec 2)} {off : BitVec 8} {a b : Reg} {p : Page}
    (hu : CanIssue s c { srcs := [a, b], mem := true, store := true })
    (hr : Reaches s c (memAddr s (val s c a) off n) n false true p) :
    (bufferUsed (my s) < 32 →
      ∃ t, store n rel off a b s = .next t ∧ Did s t c { s with nextId := s.nextId + 1 }
        (stored s c (memAddr s (val s c a) off n) n (val s c b) p rel) 0 RegEntry.zero (pastWord s.cur c)) ∧
    (32 ≤ bufferUsed (my s) → store n rel off a b s = .next (parkNow s .buffer)) := by
  have hm := markIssued_marked s
  have h := Did.start hm hu.ctx
  have ha : ∀ t, Marked s t → memAddr t (src t a) off n = memAddr s (val s c a) off n := fun t ht => by
    rw [hu.src ht (by simp [Use.regs]), memAddr_cur ht.cur]
  have hb : src (markIssued s) b = val s c b := hu.src hm (by simp [Use.regs])
  have hv : storeVerdict (memAddr s (src s a) off n) n (my s) c = if 32 ≤ bufferUsed (my s) then .park .buffer else .go := by
    rw [ha s (.refl s)]; simp [storeVerdict, globalCheck_go hr]
  constructor
  · intro hl
    refine settle_does hu (by rw [hv, if_neg (by omega)]) ?_
    simp only [ha _ hm, hb]
    unfold storeEffect
    rw [hm.curCtx, hu.ctx]
    simp only [hm.pageEntry, hr.page, takeId_eq]
    have h1 := h.pkg (fun v => { v with nextId := v.nextId + 1 }) (fun _ _ => rfl)
    have hme : me { markIssued s with nextId := s.nextId + 1 } = me s := h.me rfl
    rw [show (markIssued s).nextId = s.nextId by rw [hm.rest]] at h1 ⊢
    have h2 := fun x : SbEntry => (h1.coreAt (congrArg coreOf hme) (fun k => { k with sbuf := k.sbuf ++ [x] }) (fun _ _ _ _ => rfl)).retire rfl
    unfold stored
    have hcu : ({ markIssued s with nextId := s.nextId + 1 } : State).cur = s.cur := hm.cur
    rw [trapPc_cur hcu, runOf_cur hcu]
    rw [hme] at h2 ⊢
    exact h2 _
  · intro hl
    unfold store
    extract_lets va
    rw [check_go hu, hv, if_pos hl]
    exact settle_park hu.ctx hu.real _ _

theorem spCheck_go {va : Word} {n : Nat} {w : Bool} {k : Core} (h1 : va.toNat % n = 0) (h2 : va.toNat + n ≤ windowBase k)
    (h3 : w = true → isLent k va.toNat n = false) : spCheck k va n w = .go := by
  unfold spCheck
  have : ¬ windowBase k < va.toNat + n := by omega
  cases w with
  | false => simp [h1, this]
  | true => simp [h1, this, h3 rfl]

theorem Did.sp (h : Did s t c u o d e c') (hu : u.cur = s.cur) : (Machine.my t).sp = o.sp := by rw [h.my hu]
theorem Did.spPoison (h : Did s t c u o d e c') (hu : u.cur = s.cur) (a n : Nat) : spPoisoned (Machine.my t) a n = spPoisoned o a n := by
  rw [h.my hu]; rfl

theorem execLds_settle (off : BitVec 8) (z : BitVec 3) (d a : Reg) (s : State) : ∃ eff, execLds off z d a s =
    settle (check { srcs := [a], dst := some d, mem := true }
      (fun s k _ => spCheck k (memAddr s (src s a) off (widthBytes z.toNat)) (widthBytes z.toNat) false) s) eff s := by unfold execLds; extract_lets; exact ⟨_, rfl⟩

theorem execSts_settle (off : BitVec 8) (z : BitVec 2) (a b : Reg) (s : State) : ∃ eff, execSts off z a b s =
    settle (check { srcs := [a, b], mem := true }
      (fun s k _ => spWriteCheck k (memAddr s (src s a) off (widthBytes z.toNat)) (widthBytes z.toNat)) s) eff s := by unfold execSts; extract_lets; exact ⟨_, rfl⟩

theorem lds_law {z : BitVec 3} {off : BitVec 8} {a : Reg} {n : Nat} {va : Word} (hn : n = widthBytes z.toNat)
    (hva : va = memAddr s (val s c a) off n) (hu : CanIssue s c { srcs := [a], dst := some d, mem := true })
    (h1 : va.toNat % n = 0) (h2 : va.toNat + n ≤ windowBase (my s)) :
    (spPoisoned (my s) va.toNat n = false →
      ∃ t, execLds off z d a s = .next t ∧ Did s t c s (my s) d
        (filled (extend z.toNat (BitVec.ofNat 64 (leNat (memBytes (my s).sp va.toNat n))))) (pastWord s.cur c)) ∧
    (spPoisoned (my s) va.toNat n = true →
      ∃ t, execLds off z d a s = .next t ∧ Did s t c s (my s) d (filled 0)
        (pastWord s.cur { c with pend := c.pend ++ [(BitVec.ofNat 8 Cause.poison.code, va)] })) := by
  have hm := markIssued_marked s
  have h := Did.start hm hu.ctx
  have ha : ∀ t, Marked s t → memAddr t (src t a) off n = va := fun t ht => by
    rw [hu.src ht (by simp [Use.regs]), memAddr_cur ht.cur, hva]
  unfold execLds
  simp only [← hn]
  constructor
  · intro hp
    refine settle_does hu (by rw [ha s (.refl s)]; exact spCheck_go h1 h2 (by simp)) ?_
    simp only [ha _ hm, h.spPoison rfl, hp, Bool.false_eq_true, if_false, spRead, h.sp rfl, hm.me]
    exact (h.write rfl d _).retire rfl
  · intro hp
    refine settle_does hu (by rw [ha s (.refl s)]; exact spCheck_go h1 h2 (by simp)) ?_
    simp only [ha _ hm, h.spPoison rfl, hp, if_true, hm.me, poisonLoad]
    have h3 := h.write rfl d 0
    exact (h3.ctxAt rfl _).retire rfl

theorem spStore_eq (k : Core) (a : Nat) (bs : List Byte) :
    spStore k a bs = { k with sp := memPut k.sp a bs, spPoison := (spStore k a bs).spPoison } := rfl

theorem leBytes_getD (n v i : Nat) (h : i < n) : (leBytes n v).getD i 0 = BitVec.ofNat 8 (v / 256 ^ i) := by
  induction n generalizing v i with
  | zero => omega
  | succ n ih =>
    cases i with
    | zero => simp [leBytes]
    | succ i => simp only [leBytes, List.getD_cons_succ]; rw [ih _ _ (by omega), Nat.div_div_eq_div_mul, Nat.pow_succ, Nat.mul_comm]

theorem sts_law {z : BitVec 2} {off : BitVec 8} {a b : Reg} {n : Nat} {va : Word} (hn : n = widthBytes z.toNat)
    (hva : va = memAddr s (val s c a) off n) (hu : CanIssue s c { srcs := [a, b], mem := true })
    (h1 : va.toNat % n = 0) (h2 : va.toNat + n ≤ windowBase (my s)) (h3 : isLent (my s) va.toNat n = false)
    (h4 : 4 ≤ n ∨ spPoisoned (my s) va.toNat n = false) :
    ∃ t, execSts off z a b s = .next t ∧
      Did s t c s (spStore (my s) va.toNat (leBytes n (val s c b).toNat)) 0 RegEntry.zero (pastWord s.cur c) := by
  have hm := markIssued_marked s
  have h := Did.start hm hu.ctx
  have ha : ∀ t, Marked s t → memAddr t (src t a) off n = va := fun t ht => by
    rw [hu.src ht (by simp [Use.regs]), memAddr_cur ht.cur, hva]
  unfold execSts
  simp only [← hn]
  refine settle_does hu ?_ ?_
  · rw [ha s (.refl s)]
    unfold spWriteCheck
    rw [spCheck_go h1 h2 (fun _ => h3)]
    rcases h4 with h4 | h4
    · have : ¬ n < 4 := by omega
      simp [this]
    · simp [h4]
  · simp only [ha _ hm, hu.src hm (r := b) (by simp [Use.regs])]
    exact (h.coreAt (congrArg coreOf hm.me) (fun k => spStore k va.toNat (leBytes n (val s c b).toNat)) (fun _ _ _ _ => rfl)).retire rfl

/-! ## Atomics and mark operations -/

theorem Marked.nextId (hm : Marked s t) : t.nextId = s.nextId := by rw [hm.rest]

theorem Marked.classAfter (hm : Marked s t) (cls : Class) (l : Loc) (n : Nat) :
    Machine.classAfter t cls (Machine.me s) l n = Machine.classAfter s cls (Machine.me s) l n := by
  unfold Machine.classAfter coreStores
  rw [hm.core (coreOf (Machine.me s)), show t.reqs = s.reqs by rw [hm.rest]]
  rfl

/-- What a request with class duties does (R105, R110). -/
theorem sendClass_law {cls : Class} {op : ReqOp} {n : Nat} {va : Word} {p : Page} {k : Use} {own : State → Core → Ctx → Verdict}
    {eff : State → State} (hu : CanIssue s c k) (hp : pageEntry (my s) c.vmid va = some p) (hown : own s (my s) c = .go)
    (heff : eff (markIssued s) = sendClass cls op n va d (markIssued s)) :
    ∃ t, settle (check k own s) eff s = .next t ∧
      Did s t c (sent s (request s c op va n p d (classAfter s cls (me s) (p.loc va) n))) (my s) d (emptied s c d)
        (pastWord s.cur (bound c (classDuty cls s.nextId))) := by
  have hm := markIssued_marked s
  have h := Did.start hm hu.ctx
  refine settle_does hu hown ?_
  rw [heff]
  unfold sendClass
  rw [hm.curCtx, hu.ctx]
  simp only [hm.pageEntry, hp, takeId_eq, hm.me, hm.classAfter, hm.nextId, hm.request]
  have h1 := h.send (request s c op va n p d (classAfter s cls (me s) (p.loc va) n))
  rw [hm.nextId] at h1
  have hme' : me { markIssued s with nextId := s.nextId + 1 } = me s := hm.me
  rw [hme']
  have h2 := h1.ctxAt rfl fun c => bound c (classDuty cls s.nextId)
  exact (h2.emptyAt rfl rfl (h2.me rfl) d).retire rfl

/-- What a request without duties does (R141). -/
theorem sendRead_law {op : ReqOp} {n : Nat} {va : Word} {p : Page} {k : Use} {own : State → Core → Ctx → Verdict}
    {eff : State → State} (hu : CanIssue s c k) (hp : pageEntry (my s) c.vmid va = some p) (hown : own s (my s) c = .go)
    (heff : eff (markIssued s) = sendRead op n va d (markIssued s)) :
    ∃ t, settle (check k own s) eff s = .next t ∧
      Did s t c (sent s (request s c op va n p d (bufferedIds (my s) (p.loc va) n))) (my s) d (emptied s c d) (pastWord s.cur c) := by
  have hm := markIssued_marked s
  have h := Did.start hm hu.ctx
  refine settle_does hu hown ?_
  rw [heff]
  unfold sendRead
  rw [hm.curCtx, hu.ctx]
  simp only [hm.pageEntry, hp, hm.nextId, hm.request]
  have hb : bufferedIds (my (markIssued s)) (p.loc va) n = bufferedIds (my s) (p.loc va) n := by rw [hm.my]; rfl
  have h1 := h.send (request s c op va n p d (bufferedIds (my s) (p.loc va) n))
  rw [hm.nextId] at h1
  rw [hb, hm.me]
  exact (h1.emptyAt rfl rfl rfl d).retire rfl

theorem amoVerdict_go {fn : AmoFn} {va : Word} {p : Page} (h : Reaches s c va (amoSize fn) true true p) (ht : p.trail = none) :
    amoVerdict fn va (my s) c = .go := by
  simp [amoVerdict, globalCheck_go h, ht]

theorem amoVerdict_trail {fn : AmoFn} {va : Word} {p : Page} (h : Reaches s c va (amoSize fn) true true p) (ht : p.trail ≠ none) :
    amoVerdict fn va (my s) c = .trap .tfield va := by
  have : p.trail.isSome = true := by cases hx : p.trail with | none => exact absurd hx ht | some _ => rfl
  simp [amoVerdict, globalCheck_go h, this]

theorem amoUse_mem (fn : AmoFn) (w : Bool) (d a b : Reg) : a ∈ (amoUse fn w d a b).regs ∧ b ∈ (amoUse fn w d a b).regs ∧ d ∈ (amoUse fn w d a b).regs := by
  unfold amoUse Use.regs; split <;> simp

theorem amo_law {fn : AmoFn} {cls : Class} {w : Bool} {a b : Reg} {p : Page} (hu : CanIssue s c (amoUse fn w d a b))
    (h : Reaches s c (val s c a) (amoSize fn) true true p) (ht : p.trail = none) :
    ∃ t, amo fn cls w d a b s = .next t ∧
      Did s t c (sent s (request s c (.amo fn (val s c b) (val s c d)) (val s c a) (amoSize fn) p d
        (classAfter s cls (me s) (p.loc (val s c a)) (amoSize fn)))) (my s) d (emptied s c d)
        (pastWord s.cur (bound c (classDuty cls s.nextId))) := by
  have hm := markIssued_marked s
  have ⟨ha, hb, hd⟩ := amoUse_mem fn w d a b
  refine sendClass_law hu h.page ?_ ?_
  · simp only [hu.src (.refl s) ha]; exact amoVerdict_go h ht
  · simp only [hu.src hm ha, hu.src hm hb, hu.src hm hd]

theorem amo_trail {fn : AmoFn} {cls : Class} {w : Bool} {a b : Reg} {p : Page} (hu : CanIssue s c (amoUse fn w d a b)) (hh : HasHandler s c)
    (h : Reaches s c (val s c a) (amoSize fn) true true p) (ht : p.trail ≠ none) (hi : exec i s = amo fn cls w d a b s) :
    Traps s i c .tfield (val s c a) := by
  have ⟨ha, _, _⟩ := amoUse_mem fn w d a b
  refine check_trap hu hh ?_ hi
  simp only [hu.src (.refl s) ha]; exact amoVerdict_trail h ht

/-- What a scratchpad atomic does (R114, R313). -/
theorem amos_law {fn : AmoFn} {w : Bool} {a b : Reg} {va : Word} {n : Nat} (hva : va = val s c a) (hn : n = amoSize fn)
    (hu : CanIssue s c (amoUse fn w d a b)) (h1 : va.toNat % n = 0) (h2 : va.toNat + n ≤ windowBase (my s))
    (h3 : isLent (my s) va.toNat n = false) :
    ∃ t r, amos fn w d a b s = .next t ∧
      Did s t c (sent s r)
        (if spPoisoned (my s) va.toNat n || !amoWrites fn (BitVec.ofNat 64 (leNat (memBytes (my s).sp va.toNat n))) (val s c d) then my s
         else spWrite (my s) va.toNat (leBytes n (amoNew fn (BitVec.ofNat 64 (leNat (memBytes (my s).sp va.toNat n))) (val s c b) (val s c d))))
        d (emptied s c d) (pastWord s.cur c) ∧
      r.id = s.nextId ∧ r.ctx = me s ∧ r.op = .amos ∧ r.rd = d ∧ r.done = true ∧ r.poison = spPoisoned (my s) va.toNat n ∧
      r.value = if spPoisoned (my s) va.toNat n then 0 else BitVec.ofNat 64 (leNat (memBytes (my s).sp va.toNat n)) := by
  have hm := markIssued_marked s
  have h := Did.start hm hu.ctx
  have ⟨ha, hb, hd⟩ := amoUse_mem fn w d a b
  subst hva hn
  have hown : spCheck (my s) (src s a) (amoSize fn) true = .go := by
    rw [hu.src (.refl s) ha]; exact spCheck_go h1 h2 (fun _ => h3)
  unfold amos
  rw [check_go hu]
  simp only [hown]
  rw [settle_go hu.ctx hu.real]
  simp only [hu.src hm ha, hu.src hm hb, hu.src hm hd]
  unfold amosEffect
  simp only [h.spPoison rfl, spRead, h.sp rfl, word, takeId_eq, hm.me]
  generalize hbad : spPoisoned (my s) (val s c a).toNat (amoSize fn) = bad
  generalize hold : BitVec.ofNat 64 (leNat (memBytes (my s).sp (val s c a).toNat (amoSize fn))) = old
  generalize hnew : leBytes (amoSize fn) (amoNew fn old (val s c b) (val s c d)) = bs
  have key : ∃ v o, (if (bad || !amoWrites fn old (val s c d)) = true then markIssued s
      else modCore (markIssued s) (coreOf (me s)) fun k => spWrite k (val s c a).toNat bs) = v ∧
      o = (if (bad || !amoWrites fn old (val s c d)) = true then my s else spWrite (my s) (val s c a).toNat bs) ∧
      Did s v c s o 0 RegEntry.zero c ∧ v.nextId = s.nextId := by
    refine ⟨_, _, rfl, rfl, ?_, ?_⟩
    · split
      · exact h
      · exact h.coreAt rfl (fun k => spWrite k (val s c a).toNat bs) (fun _ _ _ _ => rfl)
    · split
      · exact hm.nextId
      · exact hm.nextId
  obtain ⟨v, o, hv, ho, hd1, hid⟩ := key
  rw [hv, ← ho, hid]
  have h2 := fun r : Req => hd1.pkg (fun v => { v with nextId := v.nextId + 1, reqs := v.reqs ++ [r] }) (fun _ _ => rfl)
  rw [hid] at h2
  have hme' : me { v with nextId := s.nextId + 1 } = me s := hd1.me rfl
  simp only [hme']
  refine ⟨_, ?r, rfl, ?h, ?c⟩
  case h => exact ((h2 _).emptyAt rfl rfl rfl d).retire rfl
  case c => exact ⟨rfl, rfl, rfl, rfl, rfl, rfl, rfl⟩

/-- What a fence does (R115). -/
theorem fence_law {scope : BitVec 2} (hu : CanIssue s c { srcs := [] }) :
    ∃ t, fence scope s = .next t ∧
      Did s t c { s with nextId := s.nextId + 1 } (my s) 0 RegEntry.zero (pastWord s.cur (bound c (.fence scope s.nextId s.cur.pc))) := by
  have hm := markIssued_marked s
  have h := Did.start hm hu.ctx
  refine settle_does hu rfl ?_
  simp only [takeId_eq]
  have h1 := h.pkg (fun v => { v with nextId := v.nextId + 1 }) (fun _ _ => rfl)
  have h2 := (h1.ctxAt (h1.me rfl) fun c => bound c (.fence scope s.nextId s.cur.pc)).retire rfl
  simp only [hm.nextId, hm.cur, bound] at h2 ⊢
  exact h2

theorem markVerdict_go {va : Word} {n : Nat} {wr : Bool} {p : Page} (h : Reaches s c va n true wr p) (ht : markPage s c p va = true) :
    markVerdict va n wr s (my s) c = .go := by
  simp [markVerdict, globalCheck_go h, ht]

theorem markVerdict_trap {va : Word} {n : Nat} {wr : Bool} {p : Page} (h : Reaches s c va n true wr p) (ht : markPage s c p va = false) :
    markVerdict va n wr s (my s) c = .trap .tfield va := by
  simp [markVerdict, globalCheck_go h, ht]

theorem fieldAt_eq (hm : Marked s t) (hc : curCtx s = some c) {va : Word} {p : Page} (h : pageEntry (my s) c.vmid va = some p) :
    fieldAt t va = p.trail.getD 0 := by
  simp [fieldAt, hm.curCtx, hc, hm.pageEntry, h]

/-! ## Traps of an access -/

theorem global_traps {k : Use} {own : State → Core → Ctx → Verdict} {eff : State → State} {n : Nat} {rd wr : Bool} {va : Word}
    (hu : CanIssue s c k) (hh : HasHandler s c) (hi : exec i s = settle (check k own s) eff s)
    (hown : ∀ v, globalCheck (my s) c va n rd wr = .error v → own s (my s) c = v) :
    (va.toNat % n ≠ 0 → Traps s i c .misalign va) ∧
    (va.toNat % n = 0 → ¬ (∀ i, 47 ≤ i → i < 64 → va.getLsbD i = va.getLsbD 47) → Traps s i c .prot va) ∧
    (∀ p, va.toNat % n = 0 → (∀ i, 47 ≤ i → i < 64 → va.getLsbD i = va.getLsbD 47) → pageEntry (my s) c.vmid va = some p →
      ((rd && !p.rd) || (wr && !p.wr)) = true → Traps s i c .prot va) := by
  refine ⟨fun h => check_trap hu hh (hown _ ?_) hi, fun h h' => check_trap hu hh (hown _ ?_) hi, fun p h h' hp hx => check_trap hu hh (hown _ ?_) hi⟩
  · simp [globalCheck, h]
  · have : canonical va = false := by rw [← canonical_iff] at h'; simpa using h'
    simp [globalCheck, h, this]
  · have := (canonical_iff va).2 h'
    simp [globalCheck, h, this, pageCheck, hp, hx]

theorem scratch_traps {k : Use} {own : State → Core → Ctx → Verdict} {eff : State → State} {n : Nat} {wr : Bool} {va : Word}
    (hu : CanIssue s c k) (hh : HasHandler s c) (hi : exec i s = settle (check k own s) eff s)
    (hown : ∀ v x, spCheck (my s) va n wr = .trap v x → own s (my s) c = .trap v x) :
    (va.toNat % n ≠ 0 → Traps s i c .misalign va) ∧
    (va.toNat % n = 0 → windowBase (my s) < va.toNat + n → Traps s i c .prot va) ∧
    (va.toNat % n = 0 → va.toNat + n ≤ windowBase (my s) → wr = true → isLent (my s) va.toNat n = true → Traps s i c .oplent va) := by
  refine ⟨fun h => check_trap hu hh (hown _ _ ?_) hi, fun h h' => check_trap hu hh (hown _ _ ?_) hi,
    fun h h' hw hx => check_trap hu hh (hown _ _ ?_) hi⟩
  · simp [spCheck, h]
  · simp [spCheck, h, h']
  · have : ¬ windowBase (my s) < va.toNat + n := by omega
    simp [spCheck, h, this, hw, hx]

end Sys2Proof.Machine
end

