-- ==== Sys2Proof/Laws/Control.lean ====
section
/-! SUPPORT. What branches, jumps and the repeat prefix do. -/

namespace Sys2Proof.Machine

theorem off_eq {n : Nat} (i : BitVec n) (h : n ≤ 64) : (i.signExtend 64 : Word) <<< 2 = BitVec.ofInt 64 (4 * i.toInt) := by
  have h1 : (i.signExtend 64 : Word) = BitVec.ofInt 64 i.toInt := by
    apply BitVec.eq_of_toInt_eq
    rw [BitVec.toInt_signExtend_of_le h, BitVec.toInt_ofInt]
    have h2 := BitVec.toInt_signExtend_of_le h (x := i)
    rw [← h2, ← BitVec.toInt_ofInt, BitVec.ofInt_toInt]
  rw [h1, Int.mul_comm, BitVec.ofInt_mul, BitVec.shiftLeft_eq_mul_twoPow]
  rfl

variable {s t u : State} {c c' : Ctx} {o : Core} {d : Reg} {e : RegEntry}

theorem Did.goTo (h : Did s t c u o d e c') (hu : u.cur = s.cur) (x : Word) :
    Did s (goTo x t) c u o d e (jumpedTo s.cur x c') := by
  unfold Machine.goTo jumpedTo
  simp only [h.cur hu]
  cases hl : s.cur.lane with
  | stream a b p q =>
    simp only
    have h1 := h.retire hu
    split
    · exact h1.ctxAt (h1.me hu) _
    · exact h1
  | barrel a b p => simp only [h.me hu]; exact h.ctx _
  | sequencer a => simp only [h.me hu]; exact h.ctx _
  | decide a => simp only [h.me hu]; exact h.ctx _

theorem branch_law {a b : Reg} (hu : CanIssue s c { srcs := [a, b] }) (cond : Word → Word → Bool) (i : BitVec 11) :
    ∃ t, branch cond i a b s = .next t ∧ Did s t c s (my s) 0 RegEntry.zero
      (if cond (val s c a) (val s c b) then jumpedTo s.cur (s.cur.pc + BitVec.ofInt 64 (4 * i.toInt)) c else pastWord s.cur c) := by
  refine settle_does hu rfl ?_
  have h := Did.start (markIssued_marked s) hu.ctx
  simp only [h.src rfl hu.ctx (hu.unbound a (by simp [Use.regs])), h.src rfl hu.ctx (hu.unbound b (by simp [Use.regs])), h.cur rfl,
    off11, off_eq i (by omega)]
  split
  · exact h.goTo rfl _
  · exact h.retire rfl

theorem fld_eq (lo n : Nat) (w : Word) : fld lo n w = w.toNat / 2 ^ lo % 2 ^ n := by simp [fld, Nat.shiftRight_eq_div_pow]

theorem jumpOk_go {t : Word} (h : t.toNat % 4 = 0) : jumpOk t = .go := by simp [jumpOk, fld_eq, h]
theorem jumpOk_trap {t : Word} (h : t.toNat % 4 ≠ 0) : jumpOk t = .trap .misalign t := by simp [jumpOk, fld_eq, h]

theorem Did.link (h : Did s t c u o 0 e c') (hu : u.cur = s.cur) (hb : c'.base = c.base) (d : Reg) (x : Word) :
    Did s (link d x t) c u o d (filled (s.cur.pc + 4)) (jumpedTo s.cur x c') := by
  unfold Machine.link
  rw [h.me hu, h.cur hu]
  exact (h.write hb d _).goTo hu x

/-- A fetch that costs nothing answers the same once the word has issued. -/
theorem fetch_marked {s t : State} (hm : Marked s t) {k : Nat} {v n pc w} (h : fetch s k v n pc = (.ok w, s)) : fetch t k v n pc = (.ok w, t) := by
  have hp : pageEntry (getCore t k) v pc = pageEntry (getCore s k) v pc := by unfold pageEntry; rw [hm.core k]
  have e1 : t.mem = s.mem := by rw [hm.rest]
  have e2 : imageOf t n = imageOf s n := by unfold imageOf; rw [show t.images = s.images by rw [hm.rest], e1]
  have e3 : ∀ slot l, ownPlace t slot l false = ownPlace s slot l false := by intros; rw [hm.rest]; rfl
  have e4 : ∀ p, pageSlot t p = pageSlot s p := by intro p; rw [hm.rest]; rfl
  have e5 : ∀ key a, hbmBytes t key a 4 = hbmBytes s key a 4 := by intros; rw [hm.rest]; rfl
  have e6 : ∀ key a, keyed t key a 4 = keyed s key a 4 := by intros; rw [hm.rest]; rfl
  have hne : s.free + 1 ≠ s.free := by omega
  have key : ∀ l p, fetchWord s n l p = (w, s) → fetchWord t n l p = (w, t) := by
    intro l p h
    simp only [fetchWord, e2, e3, e4, e5, e6] at h ⊢
    split at h
    · split at h
      · rename_i h4
        rw [if_pos h4]; simp_all
      · exact absurd (congrArg (fun x => x.2.free) h) hne
    · simp only [Prod.mk.injEq, and_true] at h ⊢
      rw [← h]
      simp only [readHome, spRead, windowBase]
      rename_i c _ _
      rw [show (getCore t c).sp = (getCore s c).sp by rw [hm.core c], show (getCore t c).win = (getCore s c).win by rw [hm.core c]]
    · exact absurd (congrArg (fun x => x.2.free) h) hne
  unfold fetch at h ⊢
  rw [hp]
  by_cases hc : canonical pc = true
  · simp only [hc, Bool.not_true, Bool.false_eq_true, if_false] at h ⊢
    cases hq : pageEntry (getCore s k) v pc with
    | none => simp [hq] at h
    | some p =>
      simp only [hq] at h ⊢
      by_cases hx : p.ex = true
      · simp only [hx, Bool.not_true, Bool.false_eq_true, if_false] at h ⊢
        have h' : fetchWord s n (p.loc pc) p = (w, s) := by
          simp only [Prod.mk.injEq, Except.ok.injEq] at h; exact Prod.ext h.1 h.2
        rw [key _ _ h']
      · simp [hx] at h
  · simp [hc] at h

/-- What a repeat prefix does from the repetition `i` with `left` to go. -/
theorem rep_law {s : State} {c : Ctx} {os ci : Bool} {x y z : BitVec 2} {n : Reg} {i left : Nat}
   (hu : CanIssue s c (if ci || bit 63 c.repc then { srcs := [] } else { srcs := [n] }))
   (hs : ∀ t, Marked s t → repStart ci n c t = (i, left)) :
   (left = 0 → ∃ t, repPrefix os ci x y z n s = .next t ∧ Did s t c s (my s) 0 RegEntry.zero { c with repc := 0, pc := s.cur.pc + 8 }) ∧
   (∀ w, left ≠ 0 → fetch s (coreOf (me s)) c.vmid c.node (s.cur.pc + 4) = (.ok w, s) → repTargetOk ⟨z, y, x, os⟩ w = true → badPort (targetUse w) (my s) c = false → repBeyond ⟨z, y, x, os⟩ w c.size i left = false →
     ∃ t, repPrefix os ci x y z n s = .next t ∧ Did s t c { s with issuing :=
                { s.cur with word := some (repWord ⟨z, y, x, os⟩ w i),
                             rep := some { p := s.cur.pc, i := i, left := left, off := repOffset ⟨z, y, x, os⟩ w i } } :: s.issuing } (my s) 0 RegEntry.zero c) := by
  have hm := markIssued_marked s
  have h := Did.start hm hu.ctx
  have hrefl : Marked s s := ⟨rfl, fun _ => rfl⟩
  constructor
  · intro h0
    unfold repPrefix
    simp only [hu.ctx]
    refine settle_does hu ?_ ?_
    · simp only [hs s hrefl, h0]; rfl
    · simp only [hs _ hm, h0, if_true, hm.me, hm.cur]; exact h.ctx _
  · intro w h0 hf hok hbp hb
    unfold repPrefix
    simp only [hu.ctx]
    refine settle_does hu ?_ ?_
    · simp only [hs s hrefl, h0, if_false, repTarget, hf, repChecks, hok, hbp, hb]; rfl
    · simp only [hs _ hm, h0, if_false, repTarget, hm.me, hm.cur, fetch_marked hm hf]
      have := h.pkg (fun v => { v with issuing := { s.cur with word := some (repWord ⟨z, y, x, os⟩ w i), rep := some { p := s.cur.pc, i := i, left := left, off := repOffset ⟨z, y, x, os⟩ w i } } :: v.issuing }) (fun _ _ => rfl)
      simp only [hm.cur] at this; exact this

end Sys2Proof.Machine
end

