-- ==== Sys2Proof/Laws/Duties.lean ====
section
/-! SUPPORT. The words that access memory, scratchpad, a mark or an engine queue: what each is settled by, and that an order duty holds it. -/

namespace Sys2Proof.Machine

/-- An order duty of a fence parks a word that accesses memory (R115). -/
theorem check_duty {s : State} {c : Ctx} {u : Use} (h : Comes s c u) (hm : u.mem = true) {scope : BitVec 2} {upto : Nat} {pc : Word}
    (hd : Duty.fence scope upto pc ∈ c.duties) (own : State → Core → Ctx → Verdict) : check u own s = .park .duty := by
  unfold check
  simp only [h.ctx]
  have h1 : badPort u (my s) c = false := by
    unfold badPort
    have hn : ∀ (b : Bool) (l : List Reg), (∀ r ∈ l, r ∈ u.regs) → l.filter (fun r => portOf (my s) c r == some b) = [] := by
      intro b l hl
      rw [List.filter_eq_nil_iff]
      intro r hr; rw [h.unbound r (hl r hr)]; simp
    have hs : ∀ r ∈ u.srcs, r ∈ u.regs := fun r hr => List.mem_append_left _ hr
    have hd : ∀ r ∈ u.dst, r ∈ u.regs := fun r hr => List.mem_append_right _ (by simpa using hr)
    split
    · simp only [Bool.or_eq_false_iff]
      refine ⟨⟨?_, ?_⟩, ?_⟩
      · rw [List.any_eq_false]; intro r hr; rw [h.unbound r (hs r hr)]; simp
      · cases hdst : u.dst with
        | none => rfl
        | some d => have := h.unbound d (hd d (by simp [hdst])); simp [this]
      · rw [hn false u.srcs hs]; decide
    · rw [List.any_eq_false]; intro r hr; rw [h.unbound r hr]; simp
  have h2 : beyond u c = false := by
    unfold beyond
    simp only [Bool.or_eq_false_iff, decide_eq_false_iff_not, Nat.not_le, List.any_eq_false, decide_eq_true_eq]
    exact ⟨fun r hr => by have := h.inside r hr; omega, h.top⟩
  have h3 : heldByDuty c (u.withPorts (my s) c) = true := by
    unfold heldByDuty
    rw [List.any_eq_true]
    exact ⟨_, hd, by simp [Use.withPorts, hm]⟩
  simp [h1, h2, h3, h.calm]

theorem held_word {s : State} {c : Ctx} {u : Use} (h : Comes s c u) (hm : u.mem = true) {scope : BitVec 2} {upto : Nat} {pc : Word}
    (hd : Duty.fence scope upto pc ∈ c.duties) (own : State → Core → Ctx → Verdict) (eff : State → State) :
    settle (check u own s) eff s = .next (parkNow s .duty) := by
  rw [check_duty h hm hd, settle_park h.ctx h.real]

/-- The word is settled by the check of what it names. -/
def Settles (s : State) (u : Use) (j : Instr) : Prop := u.mem = true ∧ ∃ own eff, exec j s = settle (check u own s) eff s

theorem access_settles (s : State) (w k : Bool) (d a b : Reg) (i : BitVec 8) (z : BitVec 3) (y : BitVec 2) (n : BitVec 4) :
    ∀ x ∈ accessWords w k d a b i z y n, Settles s x.1 x.2 := by
  simp only [accessWords, naming, List.map, List.forall_mem_append, List.forall_mem_cons, List.not_mem_nil, false_implies, implies_true, and_true]
  refine ⟨⟨⟨⟨⟨⟨⟨⟨⟨?_, ?_, ?_, ?_⟩, ?_, ?_⟩, ?_⟩, ?_, ?_, ?_, ?_, ?_, ?_, ?_, ?_, ?_, ?_, ?_, ?_, ?_, ?_, ?_, ?_⟩, ?_, ?_, ?_, ?_, ?_, ?_, ?_⟩, ?_⟩, ?_⟩, ?_⟩, ?_⟩
  all_goals
    refine ⟨rfl, ?_, ?_, ?_⟩
    rotate_left 2
    · dsimp only [exec, execLd, execLdBy, execLdAcq, load, execSt, execStRel, store, execDepAdd, execDepMax, execDepAddRel, execDepMaxRel, deposit, execLds, execSts, execMma, execMmaZ, execMmaRot, execMmaRotZ, execMmaRotSd, execMmaRotSdZ, mmaWord, execMstc, execMldc, moveWord, execCpyGg, execCpyGs, execCpySg, execCpySs, cpy,
         execCwait, execMwait, execCpySub, execCpySubPull, subscribe, execCpySubRet, execPeek, execSense, execMcommit, execCfence, execPark, execCtab]
      rfl

theorem vector_settle (op f3 : Nat) (w : Bool) (d a b : Reg) (s : State) :
    ∃ own eff, vector op f3 w d a b s = settle (check { srcs := if (vArrays op f3).2.2.isSome then [a, b, d] else [a, d], w := w, mem := true } own s) eff s := by
  refine ⟨?_, ?_, ?_⟩
  rotate_left 2
  · unfold vector; rfl

theorem vector_three {op f3 : Nat} {w : Bool} {d a b : Reg} {s : State} {j : Instr} (hj : exec j s = vector op f3 w d a b s) (h : (vArrays op f3).2.2.isSome = true) :
    Settles s { srcs := [a, b, d], w := w, mem := true } j := by
  obtain ⟨own, eff, he⟩ := vector_settle op f3 w d a b s
  rw [if_pos h] at he
  exact ⟨rfl, own, eff, hj.trans he⟩

theorem vector_two {op f3 : Nat} {w : Bool} {d a b : Reg} {s : State} {j : Instr} (hj : exec j s = vector op f3 w d a b s) (h : (vArrays op f3).2.2.isSome = false) :
    Settles s { srcs := [a, d], w := w, mem := true } j := by
  obtain ⟨own, eff, he⟩ := vector_settle op f3 w d a b s
  rw [if_neg (by rw [h]; decide)] at he
  exact ⟨rfl, own, eff, hj.trans he⟩

theorem vector_settles (s : State) (w k : Bool) (d a b : Reg) (y : BitVec 2) : ∀ x ∈ vectorUses w k d a b y, Settles s x.1 x.2 := by
  simp only [vectorUses, naming, List.map, List.forall_mem_append, List.forall_mem_cons, List.not_mem_nil, false_implies, implies_true, and_true]
  exact ⟨⟨vector_three (exec_vadd ..) (by unfold vArrays; rw [if_pos (by decide)]; split <;> rfl), vector_three (exec_vsub ..) (by unfold vArrays; rw [if_pos (by decide)]; split <;> rfl), vector_three (exec_vmul ..) (by unfold vArrays; rw [if_pos (by decide)]; split <;> rfl), vector_three (exec_vfma ..) (by unfold vArrays; rw [if_pos (by decide)]; split <;> rfl), vector_three (exec_vminW ..) rfl, vector_three (exec_vmaxW ..) rfl, vector_three (exec_vminD ..) rfl, vector_three (exec_vmaxD ..) rfl, vector_three (exec_vcvtBd8S ..) rfl, vector_three (exec_vcvtSBd8 ..) rfl, vector_three (exec_vcvtBd4S ..) rfl, vector_three (exec_vcvtSBd4 ..) rfl⟩,
    vector_two (exec_vcpy ..) rfl, vector_two (exec_vcvtHS ..) rfl, vector_two (exec_vcvtSH ..) rfl, vector_two (exec_vcvtBfS ..) rfl, vector_two (exec_vcvtSBf ..) rfl⟩

theorem globalAtomics_settle (s : State) (w : Bool) (d a b : Reg) : ∀ x ∈ globalAtomics, Settles s (amoUse x.1 w d a b) (x.2.2 w d a b) := by
  have h : ∀ x ∈ globalAtomics, exec (x.2.2 w d a b) s = amo x.1 x.2.1 w d a b s := by
    simp only [globalAtomics, List.flatten_cons, List.flatten_nil, List.append_nil, List.forall_mem_append, List.forall_mem_cons, List.not_mem_nil, false_implies, implies_true, and_true]
    refine ⟨⟨?_, ?_, ?_, ?_, ?_, ?_, ?_, ?_, ?_, ?_, ?_, ?_, ?_, ?_⟩, ⟨?_, ?_, ?_, ?_, ?_, ?_, ?_, ?_, ?_, ?_, ?_, ?_, ?_, ?_⟩, ⟨?_, ?_, ?_, ?_, ?_, ?_, ?_, ?_, ?_, ?_, ?_, ?_, ?_, ?_⟩, ?_, ?_, ?_, ?_, ?_, ?_, ?_, ?_, ?_, ?_, ?_, ?_, ?_, ?_⟩
    all_goals rfl
  intro x hx
  refine ⟨by unfold amoUse; split <;> rfl, ?_, ?_, ?_⟩
  rotate_left 2
  · rw [h x hx]; rfl

theorem scratchAtomics_settle (s : State) (w : Bool) (d a b : Reg) : ∀ x ∈ scratchAtomics, Settles s (amoUse x.1 w d a b) (x.2 w d a b) := by
  have h : ∀ x ∈ scratchAtomics, exec (x.2 w d a b) s = amos x.1 w d a b s := by
    simp only [scratchAtomics, List.forall_mem_cons, List.not_mem_nil, false_implies, implies_true, and_true]
    refine ⟨?_, ?_, ?_, ?_, ?_, ?_, ?_, ?_, ?_, ?_, ?_, ?_, ?_, ?_⟩
    all_goals rfl
  intro x hx
  refine ⟨by unfold amoUse; split <;> rfl, ?_, ?_, ?_⟩
  rotate_left 2
  · rw [h x hx]; rfl

theorem memoryWords_settle (s : State) (w k : Bool) (d a b : Reg) (i : BitVec 8) (z : BitVec 3) (y : BitVec 2) (n : BitVec 4) :
    ∀ x ∈ memoryWords w k d a b i z y n, Settles s x.1 x.2 := by
  simp only [memoryWords, List.forall_mem_append, List.forall_mem_map]
  exact ⟨⟨⟨access_settles s w k d a b i z y n, vector_settles s w k d a b y⟩, globalAtomics_settle s w d a b⟩, scratchAtomics_settle s w d a b⟩

end Sys2Proof.Machine
end

