-- ==== Sys2Proof/Laws/PerInstr.lean ====
section
/-! SUPPORT. One lemma per instruction: decoding its word gives it back. -/

namespace Sys2Proof.Laws

/-- A field above the last part of a word is the field of what stands before it. -/
theorem up {n m lo k : Nat} {hi : BitVec n} {low : BitVec m} {x : BitVec k} (h : hi.extractLsb' lo k = x) :
    (hi ++ low).extractLsb' (lo + m) k = x := by
  rw [BitVec.extractLsb'_append_eq_of_le (by omega), Nat.add_sub_cancel, h]

theorem last {n m : Nat} {hi : BitVec n} {low : BitVec m} : (hi ++ low).extractLsb' 0 m = low := by
  rw [BitVec.extractLsb'_append_eq_of_add_le (by omega)]; simp

theorem only {n : Nat} {x : BitVec n} : x.extractLsb' 0 n = x := by simp

theorem flag_eq {lo : Nat} {v : W32} {w : Bool} (h : bits lo 1 v = BitVec.ofBool w) : flag lo v = w := by
  unfold flag; unfold bits at h; rw [h]; cases w <;> rfl

/-! ## The fields of a word, by the widths of its parts -/

theorem parts_3_1_7_7_7_7 (x0 : BitVec 3) (x1 : BitVec 1) (x2 : BitVec 7) (x3 : BitVec 7) (x4 : BitVec 7) (x5 : BitVec 7) :
    let v : W32 := x0 ++ x1 ++ x2 ++ x3 ++ x4 ++ x5
    bits 0 7 v = x5 ∧ bits 7 7 v = x4 ∧ bits 14 7 v = x3 ∧ bits 21 7 v = x2 ∧ bits 28 1 v = x1 ∧ bits 29 3 v = x0 :=
  ⟨last, up last, up (up last), up (up (up last)), up (up (up (up last))), up (up (up (up (up only))))⟩

theorem parts_11_7_7_7 (x0 : BitVec 11) (x1 : BitVec 7) (x2 : BitVec 7) (x3 : BitVec 7) :
    let v : W32 := x0 ++ x1 ++ x2 ++ x3
    bits 0 7 v = x3 ∧ bits 7 7 v = x2 ∧ bits 14 7 v = x1 ∧ bits 21 11 v = x0 :=
  ⟨last, up last, up (up last), up (up (up only))⟩

theorem parts_5_6_7_7_7 (x0 : BitVec 5) (x1 : BitVec 6) (x2 : BitVec 7) (x3 : BitVec 7) (x4 : BitVec 7) :
    let v : W32 := x0 ++ x1 ++ x2 ++ x3 ++ x4
    bits 0 7 v = x4 ∧ bits 7 7 v = x3 ∧ bits 14 7 v = x2 ∧ bits 21 6 v = x1 ∧ bits 27 5 v = x0 :=
  ⟨last, up last, up (up last), up (up (up last)), up (up (up (up only)))⟩

theorem parts_18_7_7 (x0 : BitVec 18) (x1 : BitVec 7) (x2 : BitVec 7) :
    let v : W32 := x0 ++ x1 ++ x2
    bits 0 7 v = x2 ∧ bits 7 7 v = x1 ∧ bits 14 18 v = x0 :=
  ⟨last, up last, up (up only)⟩

theorem parts_8_3_7_7_7 (x0 : BitVec 8) (x1 : BitVec 3) (x2 : BitVec 7) (x3 : BitVec 7) (x4 : BitVec 7) :
    let v : W32 := x0 ++ x1 ++ x2 ++ x3 ++ x4
    bits 0 7 v = x4 ∧ bits 7 7 v = x3 ∧ bits 14 7 v = x2 ∧ bits 21 3 v = x1 ∧ bits 24 8 v = x0 :=
  ⟨last, up last, up (up last), up (up (up last)), up (up (up (up only)))⟩

theorem parts_8_1_2_7_7_7 (x0 : BitVec 8) (x1 : BitVec 1) (x2 : BitVec 2) (x3 : BitVec 7) (x4 : BitVec 7) (x5 : BitVec 7) :
    let v : W32 := x0 ++ x1 ++ x2 ++ x3 ++ x4 ++ x5
    bits 0 7 v = x5 ∧ bits 7 7 v = x4 ∧ bits 14 7 v = x3 ∧ bits 21 2 v = x2 ∧ bits 23 1 v = x1 ∧ bits 24 8 v = x0 :=
  ⟨last, up last, up (up last), up (up (up last)), up (up (up (up last))), up (up (up (up (up only))))⟩

theorem parts_8_2_1_7_7_7 (x0 : BitVec 8) (x1 : BitVec 2) (x2 : BitVec 1) (x3 : BitVec 7) (x4 : BitVec 7) (x5 : BitVec 7) :
    let v : W32 := x0 ++ x1 ++ x2 ++ x3 ++ x4 ++ x5
    bits 0 7 v = x5 ∧ bits 7 7 v = x4 ∧ bits 14 7 v = x3 ∧ bits 21 1 v = x2 ∧ bits 22 2 v = x1 ∧ bits 24 8 v = x0 :=
  ⟨last, up last, up (up last), up (up (up last)), up (up (up (up last))), up (up (up (up (up only))))⟩

theorem parts_1_2_1_7_7_7_7 (x0 : BitVec 1) (x1 : BitVec 2) (x2 : BitVec 1) (x3 : BitVec 7) (x4 : BitVec 7) (x5 : BitVec 7) (x6 : BitVec 7) :
    let v : W32 := x0 ++ x1 ++ x2 ++ x3 ++ x4 ++ x5 ++ x6
    bits 0 7 v = x6 ∧ bits 7 7 v = x5 ∧ bits 14 7 v = x4 ∧ bits 21 7 v = x3 ∧ bits 28 1 v = x2 ∧ bits 29 2 v = x1 ∧ bits 31 1 v = x0 :=
  ⟨last, up last, up (up last), up (up (up last)), up (up (up (up last))), up (up (up (up (up last)))), up (up (up (up (up (up only)))))⟩

theorem parts_3_1_7_7_1_1_1_4_7 (x0 : BitVec 3) (x1 : BitVec 1) (x2 : BitVec 7) (x3 : BitVec 7) (x4 : BitVec 1) (x5 : BitVec 1) (x6 : BitVec 1) (x7 : BitVec 4) (x8 : BitVec 7) :
    let v : W32 := x0 ++ x1 ++ x2 ++ x3 ++ x4 ++ x5 ++ x6 ++ x7 ++ x8
    bits 0 7 v = x8 ∧ bits 7 4 v = x7 ∧ bits 11 1 v = x6 ∧ bits 12 1 v = x5 ∧ bits 13 1 v = x4 ∧ bits 14 7 v = x3 ∧ bits 21 7 v = x2 ∧ bits 28 1 v = x1 ∧ bits 29 3 v = x0 :=
  ⟨last, up last, up (up last), up (up (up last)), up (up (up (up last))), up (up (up (up (up last)))), up (up (up (up (up (up last))))), up (up (up (up (up (up (up last)))))), up (up (up (up (up (up (up (up only)))))))⟩

theorem parts_3_1_7_7_3_1_1_2_7 (x0 : BitVec 3) (x1 : BitVec 1) (x2 : BitVec 7) (x3 : BitVec 7) (x4 : BitVec 3) (x5 : BitVec 1) (x6 : BitVec 1) (x7 : BitVec 2) (x8 : BitVec 7) :
    let v : W32 := x0 ++ x1 ++ x2 ++ x3 ++ x4 ++ x5 ++ x6 ++ x7 ++ x8
    bits 0 7 v = x8 ∧ bits 7 2 v = x7 ∧ bits 9 1 v = x6 ∧ bits 10 1 v = x5 ∧ bits 11 3 v = x4 ∧ bits 14 7 v = x3 ∧ bits 21 7 v = x2 ∧ bits 28 1 v = x1 ∧ bits 29 3 v = x0 :=
  ⟨last, up last, up (up last), up (up (up last)), up (up (up (up last))), up (up (up (up (up last)))), up (up (up (up (up (up last))))), up (up (up (up (up (up (up last)))))), up (up (up (up (up (up (up (up only)))))))⟩

theorem parts_3_1_3_4_3_4_3_4_7 (x0 : BitVec 3) (x1 : BitVec 1) (x2 : BitVec 3) (x3 : BitVec 4) (x4 : BitVec 3) (x5 : BitVec 4) (x6 : BitVec 3) (x7 : BitVec 4) (x8 : BitVec 7) :
    let v : W32 := x0 ++ x1 ++ x2 ++ x3 ++ x4 ++ x5 ++ x6 ++ x7 ++ x8
    bits 0 7 v = x8 ∧ bits 7 4 v = x7 ∧ bits 11 3 v = x6 ∧ bits 14 4 v = x5 ∧ bits 18 3 v = x4 ∧ bits 21 4 v = x3 ∧ bits 25 3 v = x2 ∧ bits 28 1 v = x1 ∧ bits 29 3 v = x0 :=
  ⟨last, up last, up (up last), up (up (up last)), up (up (up (up last))), up (up (up (up (up last)))), up (up (up (up (up (up last))))), up (up (up (up (up (up (up last)))))), up (up (up (up (up (up (up (up only)))))))⟩

theorem parts_11_3_4_3_4_7 (x0 : BitVec 11) (x1 : BitVec 3) (x2 : BitVec 4) (x3 : BitVec 3) (x4 : BitVec 4) (x5 : BitVec 7) :
    let v : W32 := x0 ++ x1 ++ x2 ++ x3 ++ x4 ++ x5
    bits 0 7 v = x5 ∧ bits 7 4 v = x4 ∧ bits 11 3 v = x3 ∧ bits 14 4 v = x2 ∧ bits 18 3 v = x1 ∧ bits 21 11 v = x0 :=
  ⟨last, up last, up (up last), up (up (up last)), up (up (up (up last))), up (up (up (up (up only))))⟩

theorem parts_11_7_3_4_7 (x0 : BitVec 11) (x1 : BitVec 7) (x2 : BitVec 3) (x3 : BitVec 4) (x4 : BitVec 7) :
    let v : W32 := x0 ++ x1 ++ x2 ++ x3 ++ x4
    bits 0 7 v = x4 ∧ bits 7 4 v = x3 ∧ bits 11 3 v = x2 ∧ bits 14 7 v = x1 ∧ bits 21 11 v = x0 :=
  ⟨last, up last, up (up last), up (up (up last)), up (up (up (up only)))⟩

theorem parts_3_1_7_7_3_4_7 (x0 : BitVec 3) (x1 : BitVec 1) (x2 : BitVec 7) (x3 : BitVec 7) (x4 : BitVec 3) (x5 : BitVec 4) (x6 : BitVec 7) :
    let v : W32 := x0 ++ x1 ++ x2 ++ x3 ++ x4 ++ x5 ++ x6
    bits 0 7 v = x6 ∧ bits 7 4 v = x5 ∧ bits 11 3 v = x4 ∧ bits 14 7 v = x3 ∧ bits 21 7 v = x2 ∧ bits 28 1 v = x1 ∧ bits 29 3 v = x0 :=
  ⟨last, up last, up (up last), up (up (up last)), up (up (up (up last))), up (up (up (up (up last)))), up (up (up (up (up (up only)))))⟩

theorem parts_10_1_1_2_2_2_7_7 (x0 : BitVec 10) (x1 : BitVec 1) (x2 : BitVec 1) (x3 : BitVec 2) (x4 : BitVec 2) (x5 : BitVec 2) (x6 : BitVec 7) (x7 : BitVec 7) :
    let v : W32 := x0 ++ x1 ++ x2 ++ x3 ++ x4 ++ x5 ++ x6 ++ x7
    bits 0 7 v = x7 ∧ bits 7 7 v = x6 ∧ bits 14 2 v = x5 ∧ bits 16 2 v = x4 ∧ bits 18 2 v = x3 ∧ bits 20 1 v = x2 ∧ bits 21 1 v = x1 ∧ bits 22 10 v = x0 :=
  ⟨last, up last, up (up last), up (up (up last)), up (up (up (up last))), up (up (up (up (up last)))), up (up (up (up (up (up last))))), up (up (up (up (up (up (up only))))))⟩

/-! ## The instructions -/

/-- Decoding the word of the instruction gives the instruction back. -/
def RoundTrip.Statement (i : Instr) : Prop := i.wellFormed = true → ∀ v, encode i = some v → decode v = some i

namespace RoundTrip

theorem add (w : Bool) (d : Reg) (a : Reg) (b : Reg) : Statement (.add w d a b) := by
  rintro hw _ ⟨⟩
  obtain ⟨h0, h1, h2, h3, h4, h5⟩ := parts_3_1_7_7_7_7 0#3 (BitVec.ofBool w) b a d 0x00#7
  unfold decode; rw [h0]; show decode00 _ = _
  have hz : (0#3 ++ BitVec.ofBool w ++ b ++ a ++ d ++ 0x00#7 : W32) ≠ 0 := fun h => by
    rw [h] at h1 h2 h3 h4; subst h1 h2 h3; revert hw; cases w <;> simp_all [Instr.wellFormed, bits]
  simp only [decode00, h1, h2, h3, flag_eq h4, h5]; rw [if_pos ⟨rfl, hz⟩]
theorem sub (w : Bool) (d : Reg) (a : Reg) (b : Reg) : Statement (.sub w d a b) := by
  rintro _ _ ⟨⟩
  obtain ⟨h0, h1, h2, h3, h4, h5⟩ := parts_3_1_7_7_7_7 1#3 (BitVec.ofBool w) b a d 0x00#7
  unfold decode; rw [h0]; show decode00 _ = _
  simp only [decode00, h1, h2, h3, flag_eq h4, h5]; simp
theorem and (w : Bool) (d : Reg) (a : Reg) (b : Reg) : Statement (.and w d a b) := by
  rintro _ _ ⟨⟩
  obtain ⟨h0, h1, h2, h3, h4, h5⟩ := parts_3_1_7_7_7_7 2#3 (BitVec.ofBool w) b a d 0x00#7
  unfold decode; rw [h0]; show decode00 _ = _
  simp only [decode00, h1, h2, h3, flag_eq h4, h5]; simp
theorem or (w : Bool) (d : Reg) (a : Reg) (b : Reg) : Statement (.or w d a b) := by
  rintro _ _ ⟨⟩
  obtain ⟨h0, h1, h2, h3, h4, h5⟩ := parts_3_1_7_7_7_7 3#3 (BitVec.ofBool w) b a d 0x00#7
  unfold decode; rw [h0]; show decode00 _ = _
  simp only [decode00, h1, h2, h3, flag_eq h4, h5]; simp
theorem xor (w : Bool) (d : Reg) (a : Reg) (b : Reg) : Statement (.xor w d a b) := by
  rintro _ _ ⟨⟩
  obtain ⟨h0, h1, h2, h3, h4, h5⟩ := parts_3_1_7_7_7_7 4#3 (BitVec.ofBool w) b a d 0x00#7
  unfold decode; rw [h0]; show decode00 _ = _
  simp only [decode00, h1, h2, h3, flag_eq h4, h5]; simp
theorem sll (w : Bool) (d : Reg) (a : Reg) (b : Reg) : Statement (.sll w d a b) := by
  rintro _ _ ⟨⟩
  obtain ⟨h0, h1, h2, h3, h4, h5⟩ := parts_3_1_7_7_7_7 5#3 (BitVec.ofBool w) b a d 0x00#7
  unfold decode; rw [h0]; show decode00 _ = _
  simp only [decode00, h1, h2, h3, flag_eq h4, h5]; simp
theorem srl (w : Bool) (d : Reg) (a : Reg) (b : Reg) : Statement (.srl w d a b) := by
  rintro _ _ ⟨⟩
  obtain ⟨h0, h1, h2, h3, h4, h5⟩ := parts_3_1_7_7_7_7 6#3 (BitVec.ofBool w) b a d 0x00#7
  unfold decode; rw [h0]; show decode00 _ = _
  simp only [decode00, h1, h2, h3, flag_eq h4, h5]; simp
theorem sra (w : Bool) (d : Reg) (a : Reg) (b : Reg) : Statement (.sra w d a b) := by
  rintro _ _ ⟨⟩
  obtain ⟨h0, h1, h2, h3, h4, h5⟩ := parts_3_1_7_7_7_7 7#3 (BitVec.ofBool w) b a d 0x00#7
  unfold decode; rw [h0]; show decode00 _ = _
  simp only [decode00, h1, h2, h3, flag_eq h4, h5]; simp
theorem slt (w : Bool) (d : Reg) (a : Reg) (b : Reg) : Statement (.slt w d a b) := by
  rintro _ _ ⟨⟩
  obtain ⟨h0, h1, h2, h3, h4, h5⟩ := parts_3_1_7_7_7_7 0#3 (BitVec.ofBool w) b a d 0x01#7
  unfold decode; rw [h0]; show decode01 _ = _
  simp only [decode01, h1, h2, h3, flag_eq h4, h5]; simp
theorem sltu (w : Bool) (d : Reg) (a : Reg) (b : Reg) : Statement (.sltu w d a b) := by
  rintro _ _ ⟨⟩
  obtain ⟨h0, h1, h2, h3, h4, h5⟩ := parts_3_1_7_7_7_7 1#3 (BitVec.ofBool w) b a d 0x01#7
  unfold decode; rw [h0]; show decode01 _ = _
  simp only [decode01, h1, h2, h3, flag_eq h4, h5]; simp
theorem min (w : Bool) (d : Reg) (a : Reg) (b : Reg) : Statement (.min w d a b) := by
  rintro _ _ ⟨⟩
  obtain ⟨h0, h1, h2, h3, h4, h5⟩ := parts_3_1_7_7_7_7 2#3 (BitVec.ofBool w) b a d 0x01#7
  unfold decode; rw [h0]; show decode01 _ = _
  simp only [decode01, h1, h2, h3, flag_eq h4, h5]; simp
theorem max (w : Bool) (d : Reg) (a : Reg) (b : Reg) : Statement (.max w d a b) := by
  rintro _ _ ⟨⟩
  obtain ⟨h0, h1, h2, h3, h4, h5⟩ := parts_3_1_7_7_7_7 3#3 (BitVec.ofBool w) b a d 0x01#7
  unfold decode; rw [h0]; show decode01 _ = _
  simp only [decode01, h1, h2, h3, flag_eq h4, h5]; simp
theorem minu (w : Bool) (d : Reg) (a : Reg) (b : Reg) : Statement (.minu w d a b) := by
  rintro _ _ ⟨⟩
  obtain ⟨h0, h1, h2, h3, h4, h5⟩ := parts_3_1_7_7_7_7 4#3 (BitVec.ofBool w) b a d 0x01#7
  unfold decode; rw [h0]; show decode01 _ = _
  simp only [decode01, h1, h2, h3, flag_eq h4, h5]; simp
theorem maxu (w : Bool) (d : Reg) (a : Reg) (b : Reg) : Statement (.maxu w d a b) := by
  rintro _ _ ⟨⟩
  obtain ⟨h0, h1, h2, h3, h4, h5⟩ := parts_3_1_7_7_7_7 5#3 (BitVec.ofBool w) b a d 0x01#7
  unfold decode; rw [h0]; show decode01 _ = _
  simp only [decode01, h1, h2, h3, flag_eq h4, h5]; simp
theorem mul (w : Bool) (d : Reg) (a : Reg) (b : Reg) : Statement (.mul w d a b) := by
  rintro _ _ ⟨⟩
  obtain ⟨h0, h1, h2, h3, h4, h5⟩ := parts_3_1_7_7_7_7 0#3 (BitVec.ofBool w) b a d 0x02#7
  unfold decode; rw [h0]; show decode02 _ = _
  simp only [decode02, h1, h2, h3, flag_eq h4, h5]; simp
theorem mulh (w : Bool) (d : Reg) (a : Reg) (b : Reg) : Statement (.mulh w d a b) := by
  rintro _ _ ⟨⟩
  obtain ⟨h0, h1, h2, h3, h4, h5⟩ := parts_3_1_7_7_7_7 1#3 (BitVec.ofBool w) b a d 0x02#7
  unfold decode; rw [h0]; show decode02 _ = _
  simp only [decode02, h1, h2, h3, flag_eq h4, h5]; simp
theorem mulhu (w : Bool) (d : Reg) (a : Reg) (b : Reg) : Statement (.mulhu w d a b) := by
  rintro _ _ ⟨⟩
  obtain ⟨h0, h1, h2, h3, h4, h5⟩ := parts_3_1_7_7_7_7 2#3 (BitVec.ofBool w) b a d 0x02#7
  unfold decode; rw [h0]; show decode02 _ = _
  simp only [decode02, h1, h2, h3, flag_eq h4, h5]; simp
theorem mulhsu (w : Bool) (d : Reg) (a : Reg) (b : Reg) : Statement (.mulhsu w d a b) := by
  rintro _ _ ⟨⟩
  obtain ⟨h0, h1, h2, h3, h4, h5⟩ := parts_3_1_7_7_7_7 3#3 (BitVec.ofBool w) b a d 0x02#7
  unfold decode; rw [h0]; show decode02 _ = _
  simp only [decode02, h1, h2, h3, flag_eq h4, h5]; simp
theorem div (w : Bool) (d : Reg) (a : Reg) (b : Reg) : Statement (.div w d a b) := by
  rintro _ _ ⟨⟩
  obtain ⟨h0, h1, h2, h3, h4, h5⟩ := parts_3_1_7_7_7_7 4#3 (BitVec.ofBool w) b a d 0x02#7
  unfold decode; rw [h0]; show decode02 _ = _
  simp only [decode02, h1, h2, h3, flag_eq h4, h5]; simp
theorem divu (w : Bool) (d : Reg) (a : Reg) (b : Reg) : Statement (.divu w d a b) := by
  rintro _ _ ⟨⟩
  obtain ⟨h0, h1, h2, h3, h4, h5⟩ := parts_3_1_7_7_7_7 5#3 (BitVec.ofBool w) b a d 0x02#7
  unfold decode; rw [h0]; show decode02 _ = _
  simp only [decode02, h1, h2, h3, flag_eq h4, h5]; simp
theorem rem (w : Bool) (d : Reg) (a : Reg) (b : Reg) : Statement (.rem w d a b) := by
  rintro _ _ ⟨⟩
  obtain ⟨h0, h1, h2, h3, h4, h5⟩ := parts_3_1_7_7_7_7 6#3 (BitVec.ofBool w) b a d 0x02#7
  unfold decode; rw [h0]; show decode02 _ = _
  simp only [decode02, h1, h2, h3, flag_eq h4, h5]; simp
theorem remu (w : Bool) (d : Reg) (a : Reg) (b : Reg) : Statement (.remu w d a b) := by
  rintro _ _ ⟨⟩
  obtain ⟨h0, h1, h2, h3, h4, h5⟩ := parts_3_1_7_7_7_7 7#3 (BitVec.ofBool w) b a d 0x02#7
  unfold decode; rw [h0]; show decode02 _ = _
  simp only [decode02, h1, h2, h3, flag_eq h4, h5]; simp
theorem home (w : Bool) (d : Reg) (a : Reg) : Statement (.home w d a) := by
  rintro _ _ ⟨⟩
  obtain ⟨h0, h1, h2, h3, h4, h5⟩ := parts_3_1_7_7_7_7 0#3 (BitVec.ofBool w) 0#7 a d 0x03#7
  unfold decode; rw [h0]; show decode03 _ = _
  simp only [decode03, h1, h2, h3, flag_eq h4, h5]; simp
theorem clz (w : Bool) (d : Reg) (a : Reg) : Statement (.clz w d a) := by
  rintro _ _ ⟨⟩
  obtain ⟨h0, h1, h2, h3, h4, h5⟩ := parts_3_1_7_7_7_7 1#3 (BitVec.ofBool w) 0#7 a d 0x03#7
  unfold decode; rw [h0]; show decode03 _ = _
  simp only [decode03, h1, h2, h3, flag_eq h4, h5]; simp
theorem ctz (w : Bool) (d : Reg) (a : Reg) : Statement (.ctz w d a) := by
  rintro _ _ ⟨⟩
  obtain ⟨h0, h1, h2, h3, h4, h5⟩ := parts_3_1_7_7_7_7 2#3 (BitVec.ofBool w) 0#7 a d 0x03#7
  unfold decode; rw [h0]; show decode03 _ = _
  simp only [decode03, h1, h2, h3, flag_eq h4, h5]; simp
theorem popc (w : Bool) (d : Reg) (a : Reg) : Statement (.popc w d a) := by
  rintro _ _ ⟨⟩
  obtain ⟨h0, h1, h2, h3, h4, h5⟩ := parts_3_1_7_7_7_7 3#3 (BitVec.ofBool w) 0#7 a d 0x03#7
  unfold decode; rw [h0]; show decode03 _ = _
  simp only [decode03, h1, h2, h3, flag_eq h4, h5]; simp
theorem addi (i : BitVec 11) (d : Reg) (a : Reg) : Statement (.addi i d a) := by
  rintro _ _ ⟨⟩
  obtain ⟨h0, h1, h2, h3⟩ := parts_11_7_7_7 i a d 0x04#7
  unfold decode; rw [h0]; show decode04 _ = _
  simp only [decode04, h1, h2, h3]
theorem andi (i : BitVec 11) (d : Reg) (a : Reg) : Statement (.andi i d a) := by
  rintro _ _ ⟨⟩
  obtain ⟨h0, h1, h2, h3⟩ := parts_11_7_7_7 i a d 0x05#7
  unfold decode; rw [h0]; show decode05 _ = _
  simp only [decode05, h1, h2, h3]
theorem ori (i : BitVec 11) (d : Reg) (a : Reg) : Statement (.ori i d a) := by
  rintro _ _ ⟨⟩
  obtain ⟨h0, h1, h2, h3⟩ := parts_11_7_7_7 i a d 0x06#7
  unfold decode; rw [h0]; show decode06 _ = _
  simp only [decode06, h1, h2, h3]
theorem xori (i : BitVec 11) (d : Reg) (a : Reg) : Statement (.xori i d a) := by
  rintro _ _ ⟨⟩
  obtain ⟨h0, h1, h2, h3⟩ := parts_11_7_7_7 i a d 0x07#7
  unfold decode; rw [h0]; show decode07 _ = _
  simp only [decode07, h1, h2, h3]
theorem slli (s : BitVec 6) (d : Reg) (a : Reg) : Statement (.slli s d a) := by
  rintro _ _ ⟨⟩
  obtain ⟨h0, h1, h2, h3, h4⟩ := parts_5_6_7_7_7 0#5 s a d 0x08#7
  unfold decode; rw [h0]; show decode08 _ = _
  simp only [decode08, h1, h2, h3, h4]; simp
theorem srli (s : BitVec 6) (d : Reg) (a : Reg) : Statement (.srli s d a) := by
  rintro _ _ ⟨⟩
  obtain ⟨h0, h1, h2, h3, h4⟩ := parts_5_6_7_7_7 0#5 s a d 0x09#7
  unfold decode; rw [h0]; show decode09 _ = _
  simp only [decode09, h1, h2, h3, h4]; simp
theorem srai (s : BitVec 6) (d : Reg) (a : Reg) : Statement (.srai s d a) := by
  rintro _ _ ⟨⟩
  obtain ⟨h0, h1, h2, h3, h4⟩ := parts_5_6_7_7_7 0#5 s a d 0x0A#7
  unfold decode; rw [h0]; show decode0A _ = _
  simp only [decode0A, h1, h2, h3, h4]; simp
theorem slti (i : BitVec 11) (d : Reg) (a : Reg) : Statement (.slti i d a) := by
  rintro _ _ ⟨⟩
  obtain ⟨h0, h1, h2, h3⟩ := parts_11_7_7_7 i a d 0x0B#7
  unfold decode; rw [h0]; show decode0B _ = _
  simp only [decode0B, h1, h2, h3]
theorem sltiu (i : BitVec 11) (d : Reg) (a : Reg) : Statement (.sltiu i d a) := by
  rintro _ _ ⟨⟩
  obtain ⟨h0, h1, h2, h3⟩ := parts_11_7_7_7 i a d 0x0C#7
  unfold decode; rw [h0]; show decode0C _ = _
  simp only [decode0C, h1, h2, h3]
theorem lui (i : BitVec 18) (d : Reg) : Statement (.lui i d) := by
  rintro _ _ ⟨⟩
  obtain ⟨h0, h1, h2⟩ := parts_18_7_7 i d 0x0D#7
  unfold decode; rw [h0]; show decode0D _ = _
  simp only [decode0D, h1, h2]
theorem adpc (i : BitVec 18) (d : Reg) : Statement (.adpc i d) := by
  rintro _ _ ⟨⟩
  obtain ⟨h0, h1, h2⟩ := parts_18_7_7 i d 0x0E#7
  unfold decode; rw [h0]; show decode0E _ = _
  simp only [decode0E, h1, h2]
theorem ld (i : BitVec 8) (z : BitVec 3) (d : Reg) (a : Reg) : Statement (.ld i z d a) := by
  rintro hw _ ⟨⟩
  obtain ⟨h0, h1, h2, h3, h4⟩ := parts_8_3_7_7_7 i z a d 0x10#7
  unfold decode; rw [h0]; show decode10 _ = _
  have hz : z ≠ 7 := by simpa [Instr.wellFormed] using hw
  simp only [decode10, h1, h2, h3, h4, ne_eq, hz, not_false_eq_true, if_true]
theorem ldBy (i : BitVec 8) (z : BitVec 3) (d : Reg) (a : Reg) : Statement (.ldBy i z d a) := by
  rintro hw _ ⟨⟩
  obtain ⟨h0, h1, h2, h3, h4⟩ := parts_8_3_7_7_7 i z a d 0x11#7
  unfold decode; rw [h0]; show decode11 _ = _
  have hz : z ≠ 7 := by simpa [Instr.wellFormed] using hw
  simp only [decode11, h1, h2, h3, h4, ne_eq, hz, not_false_eq_true, if_true]
theorem st (i : BitVec 8) (z : BitVec 2) (a : Reg) (b : Reg) : Statement (.st i z a b) := by
  rintro _ _ ⟨⟩
  obtain ⟨h0, h1, h2, h3, h4, h5⟩ := parts_8_1_2_7_7_7 i 0#1 z a b 0x12#7
  unfold decode; rw [h0]; show decode12 _ = _
  simp only [decode12, h1, h2, h3, h4, h5]; simp
theorem lds (i : BitVec 8) (z : BitVec 3) (d : Reg) (a : Reg) : Statement (.lds i z d a) := by
  rintro hw _ ⟨⟩
  obtain ⟨h0, h1, h2, h3, h4⟩ := parts_8_3_7_7_7 i z a d 0x13#7
  unfold decode; rw [h0]; show decode13 _ = _
  have hz : z ≠ 7 := by simpa [Instr.wellFormed] using hw
  simp only [decode13, h1, h2, h3, h4, ne_eq, hz, not_false_eq_true, if_true]
theorem sts (i : BitVec 8) (z : BitVec 2) (a : Reg) (b : Reg) : Statement (.sts i z a b) := by
  rintro _ _ ⟨⟩
  obtain ⟨h0, h1, h2, h3, h4, h5⟩ := parts_8_1_2_7_7_7 i 0#1 z a b 0x14#7
  unfold decode; rw [h0]; show decode14 _ = _
  simp only [decode14, h1, h2, h3, h4, h5]; simp
theorem beq (i : BitVec 11) (a : Reg) (b : Reg) : Statement (.beq i a b) := by
  rintro _ _ ⟨⟩
  obtain ⟨h0, h1, h2, h3⟩ := parts_11_7_7_7 i b a 0x18#7
  unfold decode; rw [h0]; show decode18 _ = _
  simp only [decode18, h1, h2, h3]
theorem bne (i : BitVec 11) (a : Reg) (b : Reg) : Statement (.bne i a b) := by
  rintro _ _ ⟨⟩
  obtain ⟨h0, h1, h2, h3⟩ := parts_11_7_7_7 i b a 0x19#7
  unfold decode; rw [h0]; show decode19 _ = _
  simp only [decode19, h1, h2, h3]
theorem blt (i : BitVec 11) (a : Reg) (b : Reg) : Statement (.blt i a b) := by
  rintro _ _ ⟨⟩
  obtain ⟨h0, h1, h2, h3⟩ := parts_11_7_7_7 i b a 0x1A#7
  unfold decode; rw [h0]; show decode1A _ = _
  simp only [decode1A, h1, h2, h3]
theorem bge (i : BitVec 11) (a : Reg) (b : Reg) : Statement (.bge i a b) := by
  rintro _ _ ⟨⟩
  obtain ⟨h0, h1, h2, h3⟩ := parts_11_7_7_7 i b a 0x1B#7
  unfold decode; rw [h0]; show decode1B _ = _
  simp only [decode1B, h1, h2, h3]
theorem bltu (i : BitVec 11) (a : Reg) (b : Reg) : Statement (.bltu i a b) := by
  rintro _ _ ⟨⟩
  obtain ⟨h0, h1, h2, h3⟩ := parts_11_7_7_7 i b a 0x1C#7
  unfold decode; rw [h0]; show decode1C _ = _
  simp only [decode1C, h1, h2, h3]
theorem bgeu (i : BitVec 11) (a : Reg) (b : Reg) : Statement (.bgeu i a b) := by
  rintro _ _ ⟨⟩
  obtain ⟨h0, h1, h2, h3⟩ := parts_11_7_7_7 i b a 0x1D#7
  unfold decode; rw [h0]; show decode1D _ = _
  simp only [decode1D, h1, h2, h3]
theorem jal (i : BitVec 18) (d : Reg) : Statement (.jal i d) := by
  rintro _ _ ⟨⟩
  obtain ⟨h0, h1, h2⟩ := parts_18_7_7 i d 0x1E#7
  unfold decode; rw [h0]; show decode1E _ = _
  simp only [decode1E, h1, h2]
theorem jalr (i : BitVec 11) (d : Reg) (a : Reg) : Statement (.jalr i d a) := by
  rintro _ _ ⟨⟩
  obtain ⟨h0, h1, h2, h3⟩ := parts_11_7_7_7 i a d 0x1F#7
  unfold decode; rw [h0]; show decode1F _ = _
  simp only [decode1F, h1, h2, h3]
theorem ldAcq (s : BitVec 2) (i : BitVec 8) (z : Bool) (d : Reg) (a : Reg) : Statement (.ldAcq s i z d a) := by
  rintro _ _ ⟨⟩
  obtain ⟨h0, h1, h2, h3, h4, h5⟩ := parts_8_2_1_7_7_7 i s (BitVec.ofBool z) a d 0x20#7
  unfold decode; rw [h0]; show decode20 _ = _
  simp only [decode20, h1, h2, flag_eq h3, h4, h5]
theorem stRel (s : BitVec 2) (i : BitVec 8) (z : Bool) (a : Reg) (b : Reg) : Statement (.stRel s i z a b) := by
  rintro _ _ ⟨⟩
  obtain ⟨h0, h1, h2, h3, h4, h5⟩ := parts_8_2_1_7_7_7 i s (BitVec.ofBool z) a b 0x21#7
  unfold decode; rw [h0]; show decode21 _ = _
  simp only [decode21, h1, h2, flag_eq h3, h4, h5]
theorem amoAdd (w : Bool) (d : Reg) (a : Reg) (b : Reg) : Statement (.amoAdd w d a b) := by
  rintro _ _ ⟨⟩
  obtain ⟨h0, h1, h2, h3, h4, h5⟩ := parts_3_1_7_7_7_7 0#3 (BitVec.ofBool w) b a d 0x22#7
  unfold decode; rw [h0]; show decode22 _ = _
  simp only [decode22, h1, h2, h3, flag_eq h4, h5]; simp
theorem amoAnd (w : Bool) (d : Reg) (a : Reg) (b : Reg) : Statement (.amoAnd w d a b) := by
  rintro _ _ ⟨⟩
  obtain ⟨h0, h1, h2, h3, h4, h5⟩ := parts_3_1_7_7_7_7 1#3 (BitVec.ofBool w) b a d 0x22#7
  unfold decode; rw [h0]; show decode22 _ = _
  simp only [decode22, h1, h2, h3, flag_eq h4, h5]; simp
theorem amoOr (w : Bool) (d : Reg) (a : Reg) (b : Reg) : Statement (.amoOr w d a b) := by
  rintro _ _ ⟨⟩
  obtain ⟨h0, h1, h2, h3, h4, h5⟩ := parts_3_1_7_7_7_7 2#3 (BitVec.ofBool w) b a d 0x22#7
  unfold decode; rw [h0]; show decode22 _ = _
  simp only [decode22, h1, h2, h3, flag_eq h4, h5]; simp
theorem amoXor (w : Bool) (d : Reg) (a : Reg) (b : Reg) : Statement (.amoXor w d a b) := by
  rintro _ _ ⟨⟩
  obtain ⟨h0, h1, h2, h3, h4, h5⟩ := parts_3_1_7_7_7_7 3#3 (BitVec.ofBool w) b a d 0x22#7
  unfold decode; rw [h0]; show decode22 _ = _
  simp only [decode22, h1, h2, h3, flag_eq h4, h5]; simp
theorem amoSwap (w : Bool) (d : Reg) (a : Reg) (b : Reg) : Statement (.amoSwap w d a b) := by
  rintro _ _ ⟨⟩
  obtain ⟨h0, h1, h2, h3, h4, h5⟩ := parts_3_1_7_7_7_7 4#3 (BitVec.ofBool w) b a d 0x22#7
  unfold decode; rw [h0]; show decode22 _ = _
  simp only [decode22, h1, h2, h3, flag_eq h4, h5]; simp
theorem amoMin (w : Bool) (d : Reg) (a : Reg) (b : Reg) : Statement (.amoMin w d a b) := by
  rintro _ _ ⟨⟩
  obtain ⟨h0, h1, h2, h3, h4, h5⟩ := parts_3_1_7_7_7_7 5#3 (BitVec.ofBool w) b a d 0x22#7
  unfold decode; rw [h0]; show decode22 _ = _
  simp only [decode22, h1, h2, h3, flag_eq h4, h5]; simp
theorem amoMax (w : Bool) (d : Reg) (a : Reg) (b : Reg) : Statement (.amoMax w d a b) := by
  rintro _ _ ⟨⟩
  obtain ⟨h0, h1, h2, h3, h4, h5⟩ := parts_3_1_7_7_7_7 6#3 (BitVec.ofBool w) b a d 0x22#7
  unfold decode; rw [h0]; show decode22 _ = _
  simp only [decode22, h1, h2, h3, flag_eq h4, h5]; simp
theorem amoCas (w : Bool) (d : Reg) (a : Reg) (b : Reg) : Statement (.amoCas w d a b) := by
  rintro _ _ ⟨⟩
  obtain ⟨h0, h1, h2, h3, h4, h5⟩ := parts_3_1_7_7_7_7 7#3 (BitVec.ofBool w) b a d 0x22#7
  unfold decode; rw [h0]; show decode22 _ = _
  simp only [decode22, h1, h2, h3, flag_eq h4, h5]; simp
theorem amoAddAcq (w : Bool) (d : Reg) (a : Reg) (b : Reg) : Statement (.amoAddAcq w d a b) := by
  rintro _ _ ⟨⟩
  obtain ⟨h0, h1, h2, h3, h4, h5⟩ := parts_3_1_7_7_7_7 0#3 (BitVec.ofBool w) b a d 0x23#7
  unfold decode; rw [h0]; show decode23 _ = _
  simp only [decode23, h1, h2, h3, flag_eq h4, h5]; simp
theorem amoAndAcq (w : Bool) (d : Reg) (a : Reg) (b : Reg) : Statement (.amoAndAcq w d a b) := by
  rintro _ _ ⟨⟩
  obtain ⟨h0, h1, h2, h3, h4, h5⟩ := parts_3_1_7_7_7_7 1#3 (BitVec.ofBool w) b a d 0x23#7
  unfold decode; rw [h0]; show decode23 _ = _
  simp only [decode23, h1, h2, h3, flag_eq h4, h5]; simp
theorem amoOrAcq (w : Bool) (d : Reg) (a : Reg) (b : Reg) : Statement (.amoOrAcq w d a b) := by
  rintro _ _ ⟨⟩
  obtain ⟨h0, h1, h2, h3, h4, h5⟩ := parts_3_1_7_7_7_7 2#3 (BitVec.ofBool w) b a d 0x23#7
  unfold decode; rw [h0]; show decode23 _ = _
  simp only [decode23, h1, h2, h3, flag_eq h4, h5]; simp
theorem amoXorAcq (w : Bool) (d : Reg) (a : Reg) (b : Reg) : Statement (.amoXorAcq w d a b) := by
  rintro _ _ ⟨⟩
  obtain ⟨h0, h1, h2, h3, h4, h5⟩ := parts_3_1_7_7_7_7 3#3 (BitVec.ofBool w) b a d 0x23#7
  unfold decode; rw [h0]; show decode23 _ = _
  simp only [decode23, h1, h2, h3, flag_eq h4, h5]; simp
theorem amoSwapAcq (w : Bool) (d : Reg) (a : Reg) (b : Reg) : Statement (.amoSwapAcq w d a b) := by
  rintro _ _ ⟨⟩
  obtain ⟨h0, h1, h2, h3, h4, h5⟩ := parts_3_1_7_7_7_7 4#3 (BitVec.ofBool w) b a d 0x23#7
  unfold decode; rw [h0]; show decode23 _ = _
  simp only [decode23, h1, h2, h3, flag_eq h4, h5]; simp
theorem amoMinAcq (w : Bool) (d : Reg) (a : Reg) (b : Reg) : Statement (.amoMinAcq w d a b) := by
  rintro _ _ ⟨⟩
  obtain ⟨h0, h1, h2, h3, h4, h5⟩ := parts_3_1_7_7_7_7 5#3 (BitVec.ofBool w) b a d 0x23#7
  unfold decode; rw [h0]; show decode23 _ = _
  simp only [decode23, h1, h2, h3, flag_eq h4, h5]; simp
theorem amoMaxAcq (w : Bool) (d : Reg) (a : Reg) (b : Reg) : Statement (.amoMaxAcq w d a b) := by
  rintro _ _ ⟨⟩
  obtain ⟨h0, h1, h2, h3, h4, h5⟩ := parts_3_1_7_7_7_7 6#3 (BitVec.ofBool w) b a d 0x23#7
  unfold decode; rw [h0]; show decode23 _ = _
  simp only [decode23, h1, h2, h3, flag_eq h4, h5]; simp
theorem amoCasAcq (w : Bool) (d : Reg) (a : Reg) (b : Reg) : Statement (.amoCasAcq w d a b) := by
  rintro _ _ ⟨⟩
  obtain ⟨h0, h1, h2, h3, h4, h5⟩ := parts_3_1_7_7_7_7 7#3 (BitVec.ofBool w) b a d 0x23#7
  unfold decode; rw [h0]; show decode23 _ = _
  simp only [decode23, h1, h2, h3, flag_eq h4, h5]; simp
theorem amoAddRel (w : Bool) (d : Reg) (a : Reg) (b : Reg) : Statement (.amoAddRel w d a b) := by
  rintro _ _ ⟨⟩
  obtain ⟨h0, h1, h2, h3, h4, h5⟩ := parts_3_1_7_7_7_7 0#3 (BitVec.ofBool w) b a d 0x24#7
  unfold decode; rw [h0]; show decode24 _ = _
  simp only [decode24, h1, h2, h3, flag_eq h4, h5]; simp
theorem amoAndRel (w : Bool) (d : Reg) (a : Reg) (b : Reg) : Statement (.amoAndRel w d a b) := by
  rintro _ _ ⟨⟩
  obtain ⟨h0, h1, h2, h3, h4, h5⟩ := parts_3_1_7_7_7_7 1#3 (BitVec.ofBool w) b a d 0x24#7
  unfold decode; rw [h0]; show decode24 _ = _
  simp only [decode24, h1, h2, h3, flag_eq h4, h5]; simp
theorem amoOrRel (w : Bool) (d : Reg) (a : Reg) (b : Reg) : Statement (.amoOrRel w d a b) := by
  rintro _ _ ⟨⟩
  obtain ⟨h0, h1, h2, h3, h4, h5⟩ := parts_3_1_7_7_7_7 2#3 (BitVec.ofBool w) b a d 0x24#7
  unfold decode; rw [h0]; show decode24 _ = _
  simp only [decode24, h1, h2, h3, flag_eq h4, h5]; simp
theorem amoXorRel (w : Bool) (d : Reg) (a : Reg) (b : Reg) : Statement (.amoXorRel w d a b) := by
  rintro _ _ ⟨⟩
  obtain ⟨h0, h1, h2, h3, h4, h5⟩ := parts_3_1_7_7_7_7 3#3 (BitVec.ofBool w) b a d 0x24#7
  unfold decode; rw [h0]; show decode24 _ = _
  simp only [decode24, h1, h2, h3, flag_eq h4, h5]; simp
theorem amoSwapRel (w : Bool) (d : Reg) (a : Reg) (b : Reg) : Statement (.amoSwapRel w d a b) := by
  rintro _ _ ⟨⟩
  obtain ⟨h0, h1, h2, h3, h4, h5⟩ := parts_3_1_7_7_7_7 4#3 (BitVec.ofBool w) b a d 0x24#7
  unfold decode; rw [h0]; show decode24 _ = _
  simp only [decode24, h1, h2, h3, flag_eq h4, h5]; simp
theorem amoMinRel (w : Bool) (d : Reg) (a : Reg) (b : Reg) : Statement (.amoMinRel w d a b) := by
  rintro _ _ ⟨⟩
  obtain ⟨h0, h1, h2, h3, h4, h5⟩ := parts_3_1_7_7_7_7 5#3 (BitVec.ofBool w) b a d 0x24#7
  unfold decode; rw [h0]; show decode24 _ = _
  simp only [decode24, h1, h2, h3, flag_eq h4, h5]; simp
theorem amoMaxRel (w : Bool) (d : Reg) (a : Reg) (b : Reg) : Statement (.amoMaxRel w d a b) := by
  rintro _ _ ⟨⟩
  obtain ⟨h0, h1, h2, h3, h4, h5⟩ := parts_3_1_7_7_7_7 6#3 (BitVec.ofBool w) b a d 0x24#7
  unfold decode; rw [h0]; show decode24 _ = _
  simp only [decode24, h1, h2, h3, flag_eq h4, h5]; simp
theorem amoCasRel (w : Bool) (d : Reg) (a : Reg) (b : Reg) : Statement (.amoCasRel w d a b) := by
  rintro _ _ ⟨⟩
  obtain ⟨h0, h1, h2, h3, h4, h5⟩ := parts_3_1_7_7_7_7 7#3 (BitVec.ofBool w) b a d 0x24#7
  unfold decode; rw [h0]; show decode24 _ = _
  simp only [decode24, h1, h2, h3, flag_eq h4, h5]; simp
theorem amoAddAr (w : Bool) (d : Reg) (a : Reg) (b : Reg) : Statement (.amoAddAr w d a b) := by
  rintro _ _ ⟨⟩
  obtain ⟨h0, h1, h2, h3, h4, h5⟩ := parts_3_1_7_7_7_7 0#3 (BitVec.ofBool w) b a d 0x25#7
  unfold decode; rw [h0]; show decode25 _ = _
  simp only [decode25, h1, h2, h3, flag_eq h4, h5]; simp
theorem amoAndAr (w : Bool) (d : Reg) (a : Reg) (b : Reg) : Statement (.amoAndAr w d a b) := by
  rintro _ _ ⟨⟩
  obtain ⟨h0, h1, h2, h3, h4, h5⟩ := parts_3_1_7_7_7_7 1#3 (BitVec.ofBool w) b a d 0x25#7
  unfold decode; rw [h0]; show decode25 _ = _
  simp only [decode25, h1, h2, h3, flag_eq h4, h5]; simp
theorem amoOrAr (w : Bool) (d : Reg) (a : Reg) (b : Reg) : Statement (.amoOrAr w d a b) := by
  rintro _ _ ⟨⟩
  obtain ⟨h0, h1, h2, h3, h4, h5⟩ := parts_3_1_7_7_7_7 2#3 (BitVec.ofBool w) b a d 0x25#7
  unfold decode; rw [h0]; show decode25 _ = _
  simp only [decode25, h1, h2, h3, flag_eq h4, h5]; simp
theorem amoXorAr (w : Bool) (d : Reg) (a : Reg) (b : Reg) : Statement (.amoXorAr w d a b) := by
  rintro _ _ ⟨⟩
  obtain ⟨h0, h1, h2, h3, h4, h5⟩ := parts_3_1_7_7_7_7 3#3 (BitVec.ofBool w) b a d 0x25#7
  unfold decode; rw [h0]; show decode25 _ = _
  simp only [decode25, h1, h2, h3, flag_eq h4, h5]; simp
theorem amoSwapAr (w : Bool) (d : Reg) (a : Reg) (b : Reg) : Statement (.amoSwapAr w d a b) := by
  rintro _ _ ⟨⟩
  obtain ⟨h0, h1, h2, h3, h4, h5⟩ := parts_3_1_7_7_7_7 4#3 (BitVec.ofBool w) b a d 0x25#7
  unfold decode; rw [h0]; show decode25 _ = _
  simp only [decode25, h1, h2, h3, flag_eq h4, h5]; simp
theorem amoMinAr (w : Bool) (d : Reg) (a : Reg) (b : Reg) : Statement (.amoMinAr w d a b) := by
  rintro _ _ ⟨⟩
  obtain ⟨h0, h1, h2, h3, h4, h5⟩ := parts_3_1_7_7_7_7 5#3 (BitVec.ofBool w) b a d 0x25#7
  unfold decode; rw [h0]; show decode25 _ = _
  simp only [decode25, h1, h2, h3, flag_eq h4, h5]; simp
theorem amoMaxAr (w : Bool) (d : Reg) (a : Reg) (b : Reg) : Statement (.amoMaxAr w d a b) := by
  rintro _ _ ⟨⟩
  obtain ⟨h0, h1, h2, h3, h4, h5⟩ := parts_3_1_7_7_7_7 6#3 (BitVec.ofBool w) b a d 0x25#7
  unfold decode; rw [h0]; show decode25 _ = _
  simp only [decode25, h1, h2, h3, flag_eq h4, h5]; simp
theorem amoCasAr (w : Bool) (d : Reg) (a : Reg) (b : Reg) : Statement (.amoCasAr w d a b) := by
  rintro _ _ ⟨⟩
  obtain ⟨h0, h1, h2, h3, h4, h5⟩ := parts_3_1_7_7_7_7 7#3 (BitVec.ofBool w) b a d 0x25#7
  unfold decode; rw [h0]; show decode25 _ = _
  simp only [decode25, h1, h2, h3, flag_eq h4, h5]; simp
theorem amoMinu (w : Bool) (d : Reg) (a : Reg) (b : Reg) : Statement (.amoMinu w d a b) := by
  rintro _ _ ⟨⟩
  obtain ⟨h0, h1, h2, h3, h4, h5⟩ := parts_3_1_7_7_7_7 0#3 (BitVec.ofBool w) b a d 0x26#7
  unfold decode; rw [h0]; show decode26 _ = _
  simp only [decode26, h1, h2, h3, flag_eq h4, h5]; simp
theorem amoMaxu (w : Bool) (d : Reg) (a : Reg) (b : Reg) : Statement (.amoMaxu w d a b) := by
  rintro _ _ ⟨⟩
  obtain ⟨h0, h1, h2, h3, h4, h5⟩ := parts_3_1_7_7_7_7 1#3 (BitVec.ofBool w) b a d 0x26#7
  unfold decode; rw [h0]; show decode26 _ = _
  simp only [decode26, h1, h2, h3, flag_eq h4, h5]; simp
theorem amoFaddD (w : Bool) (d : Reg) (a : Reg) (b : Reg) : Statement (.amoFaddD w d a b) := by
  rintro _ _ ⟨⟩
  obtain ⟨h0, h1, h2, h3, h4, h5⟩ := parts_3_1_7_7_7_7 2#3 (BitVec.ofBool w) b a d 0x26#7
  unfold decode; rw [h0]; show decode26 _ = _
  simp only [decode26, h1, h2, h3, flag_eq h4, h5]; simp
theorem amoFaddW (w : Bool) (d : Reg) (a : Reg) (b : Reg) : Statement (.amoFaddW w d a b) := by
  rintro _ _ ⟨⟩
  obtain ⟨h0, h1, h2, h3, h4, h5⟩ := parts_3_1_7_7_7_7 3#3 (BitVec.ofBool w) b a d 0x26#7
  unfold decode; rw [h0]; show decode26 _ = _
  simp only [decode26, h1, h2, h3, flag_eq h4, h5]; simp
theorem amoFaddH (w : Bool) (d : Reg) (a : Reg) (b : Reg) : Statement (.amoFaddH w d a b) := by
  rintro _ _ ⟨⟩
  obtain ⟨h0, h1, h2, h3, h4, h5⟩ := parts_3_1_7_7_7_7 4#3 (BitVec.ofBool w) b a d 0x26#7
  unfold decode; rw [h0]; show decode26 _ = _
  simp only [decode26, h1, h2, h3, flag_eq h4, h5]; simp
theorem amoBfadd (w : Bool) (d : Reg) (a : Reg) (b : Reg) : Statement (.amoBfadd w d a b) := by
  rintro _ _ ⟨⟩
  obtain ⟨h0, h1, h2, h3, h4, h5⟩ := parts_3_1_7_7_7_7 5#3 (BitVec.ofBool w) b a d 0x26#7
  unfold decode; rw [h0]; show decode26 _ = _
  simp only [decode26, h1, h2, h3, flag_eq h4, h5]; simp
theorem amoMinuAcq (w : Bool) (d : Reg) (a : Reg) (b : Reg) : Statement (.amoMinuAcq w d a b) := by
  rintro _ _ ⟨⟩
  obtain ⟨h0, h1, h2, h3, h4, h5⟩ := parts_3_1_7_7_7_7 0#3 (BitVec.ofBool w) b a d 0x27#7
  unfold decode; rw [h0]; show decode27 _ = _
  simp only [decode27, h1, h2, h3, flag_eq h4, h5]; simp
theorem amoMaxuAcq (w : Bool) (d : Reg) (a : Reg) (b : Reg) : Statement (.amoMaxuAcq w d a b) := by
  rintro _ _ ⟨⟩
  obtain ⟨h0, h1, h2, h3, h4, h5⟩ := parts_3_1_7_7_7_7 1#3 (BitVec.ofBool w) b a d 0x27#7
  unfold decode; rw [h0]; show decode27 _ = _
  simp only [decode27, h1, h2, h3, flag_eq h4, h5]; simp
theorem amoFaddDAcq (w : Bool) (d : Reg) (a : Reg) (b : Reg) : Statement (.amoFaddDAcq w d a b) := by
  rintro _ _ ⟨⟩
  obtain ⟨h0, h1, h2, h3, h4, h5⟩ := parts_3_1_7_7_7_7 2#3 (BitVec.ofBool w) b a d 0x27#7
  unfold decode; rw [h0]; show decode27 _ = _
  simp only [decode27, h1, h2, h3, flag_eq h4, h5]; simp
theorem amoFaddWAcq (w : Bool) (d : Reg) (a : Reg) (b : Reg) : Statement (.amoFaddWAcq w d a b) := by
  rintro _ _ ⟨⟩
  obtain ⟨h0, h1, h2, h3, h4, h5⟩ := parts_3_1_7_7_7_7 3#3 (BitVec.ofBool w) b a d 0x27#7
  unfold decode; rw [h0]; show decode27 _ = _
  simp only [decode27, h1, h2, h3, flag_eq h4, h5]; simp
theorem amoFaddHAcq (w : Bool) (d : Reg) (a : Reg) (b : Reg) : Statement (.amoFaddHAcq w d a b) := by
  rintro _ _ ⟨⟩
  obtain ⟨h0, h1, h2, h3, h4, h5⟩ := parts_3_1_7_7_7_7 4#3 (BitVec.ofBool w) b a d 0x27#7
  unfold decode; rw [h0]; show decode27 _ = _
  simp only [decode27, h1, h2, h3, flag_eq h4, h5]; simp
theorem amoBfaddAcq (w : Bool) (d : Reg) (a : Reg) (b : Reg) : Statement (.amoBfaddAcq w d a b) := by
  rintro _ _ ⟨⟩
  obtain ⟨h0, h1, h2, h3, h4, h5⟩ := parts_3_1_7_7_7_7 5#3 (BitVec.ofBool w) b a d 0x27#7
  unfold decode; rw [h0]; show decode27 _ = _
  simp only [decode27, h1, h2, h3, flag_eq h4, h5]; simp
theorem amoMinuRel (w : Bool) (d : Reg) (a : Reg) (b : Reg) : Statement (.amoMinuRel w d a b) := by
  rintro _ _ ⟨⟩
  obtain ⟨h0, h1, h2, h3, h4, h5⟩ := parts_3_1_7_7_7_7 0#3 (BitVec.ofBool w) b a d 0x28#7
  unfold decode; rw [h0]; show decode28 _ = _
  simp only [decode28, h1, h2, h3, flag_eq h4, h5]; simp
theorem amoMaxuRel (w : Bool) (d : Reg) (a : Reg) (b : Reg) : Statement (.amoMaxuRel w d a b) := by
  rintro _ _ ⟨⟩
  obtain ⟨h0, h1, h2, h3, h4, h5⟩ := parts_3_1_7_7_7_7 1#3 (BitVec.ofBool w) b a d 0x28#7
  unfold decode; rw [h0]; show decode28 _ = _
  simp only [decode28, h1, h2, h3, flag_eq h4, h5]; simp
theorem amoFaddDRel (w : Bool) (d : Reg) (a : Reg) (b : Reg) : Statement (.amoFaddDRel w d a b) := by
  rintro _ _ ⟨⟩
  obtain ⟨h0, h1, h2, h3, h4, h5⟩ := parts_3_1_7_7_7_7 2#3 (BitVec.ofBool w) b a d 0x28#7
  unfold decode; rw [h0]; show decode28 _ = _
  simp only [decode28, h1, h2, h3, flag_eq h4, h5]; simp
theorem amoFaddWRel (w : Bool) (d : Reg) (a : Reg) (b : Reg) : Statement (.amoFaddWRel w d a b) := by
  rintro _ _ ⟨⟩
  obtain ⟨h0, h1, h2, h3, h4, h5⟩ := parts_3_1_7_7_7_7 3#3 (BitVec.ofBool w) b a d 0x28#7
  unfold decode; rw [h0]; show decode28 _ = _
  simp only [decode28, h1, h2, h3, flag_eq h4, h5]; simp
theorem amoFaddHRel (w : Bool) (d : Reg) (a : Reg) (b : Reg) : Statement (.amoFaddHRel w d a b) := by
  rintro _ _ ⟨⟩
  obtain ⟨h0, h1, h2, h3, h4, h5⟩ := parts_3_1_7_7_7_7 4#3 (BitVec.ofBool w) b a d 0x28#7
  unfold decode; rw [h0]; show decode28 _ = _
  simp only [decode28, h1, h2, h3, flag_eq h4, h5]; simp
theorem amoBfaddRel (w : Bool) (d : Reg) (a : Reg) (b : Reg) : Statement (.amoBfaddRel w d a b) := by
  rintro _ _ ⟨⟩
  obtain ⟨h0, h1, h2, h3, h4, h5⟩ := parts_3_1_7_7_7_7 5#3 (BitVec.ofBool w) b a d 0x28#7
  unfold decode; rw [h0]; show decode28 _ = _
  simp only [decode28, h1, h2, h3, flag_eq h4, h5]; simp
theorem amoMinuAr (w : Bool) (d : Reg) (a : Reg) (b : Reg) : Statement (.amoMinuAr w d a b) := by
  rintro _ _ ⟨⟩
  obtain ⟨h0, h1, h2, h3, h4, h5⟩ := parts_3_1_7_7_7_7 0#3 (BitVec.ofBool w) b a d 0x29#7
  unfold decode; rw [h0]; show decode29 _ = _
  simp only [decode29, h1, h2, h3, flag_eq h4, h5]; simp
theorem amoMaxuAr (w : Bool) (d : Reg) (a : Reg) (b : Reg) : Statement (.amoMaxuAr w d a b) := by
  rintro _ _ ⟨⟩
  obtain ⟨h0, h1, h2, h3, h4, h5⟩ := parts_3_1_7_7_7_7 1#3 (BitVec.ofBool w) b a d 0x29#7
  unfold decode; rw [h0]; show decode29 _ = _
  simp only [decode29, h1, h2, h3, flag_eq h4, h5]; simp
theorem amoFaddDAr (w : Bool) (d : Reg) (a : Reg) (b : Reg) : Statement (.amoFaddDAr w d a b) := by
  rintro _ _ ⟨⟩
  obtain ⟨h0, h1, h2, h3, h4, h5⟩ := parts_3_1_7_7_7_7 2#3 (BitVec.ofBool w) b a d 0x29#7
  unfold decode; rw [h0]; show decode29 _ = _
  simp only [decode29, h1, h2, h3, flag_eq h4, h5]; simp
theorem amoFaddWAr (w : Bool) (d : Reg) (a : Reg) (b : Reg) : Statement (.amoFaddWAr w d a b) := by
  rintro _ _ ⟨⟩
  obtain ⟨h0, h1, h2, h3, h4, h5⟩ := parts_3_1_7_7_7_7 3#3 (BitVec.ofBool w) b a d 0x29#7
  unfold decode; rw [h0]; show decode29 _ = _
  simp only [decode29, h1, h2, h3, flag_eq h4, h5]; simp
theorem amoFaddHAr (w : Bool) (d : Reg) (a : Reg) (b : Reg) : Statement (.amoFaddHAr w d a b) := by
  rintro _ _ ⟨⟩
  obtain ⟨h0, h1, h2, h3, h4, h5⟩ := parts_3_1_7_7_7_7 4#3 (BitVec.ofBool w) b a d 0x29#7
  unfold decode; rw [h0]; show decode29 _ = _
  simp only [decode29, h1, h2, h3, flag_eq h4, h5]; simp
theorem amoBfaddAr (w : Bool) (d : Reg) (a : Reg) (b : Reg) : Statement (.amoBfaddAr w d a b) := by
  rintro _ _ ⟨⟩
  obtain ⟨h0, h1, h2, h3, h4, h5⟩ := parts_3_1_7_7_7_7 5#3 (BitVec.ofBool w) b a d 0x29#7
  unfold decode; rw [h0]; show decode29 _ = _
  simp only [decode29, h1, h2, h3, flag_eq h4, h5]; simp
theorem amosAdd (w : Bool) (d : Reg) (a : Reg) (b : Reg) : Statement (.amosAdd w d a b) := by
  rintro _ _ ⟨⟩
  obtain ⟨h0, h1, h2, h3, h4, h5⟩ := parts_3_1_7_7_7_7 0#3 (BitVec.ofBool w) b a d 0x2A#7
  unfold decode; rw [h0]; show decode2A _ = _
  simp only [decode2A, h1, h2, h3, flag_eq h4, h5]; simp
theorem amosAnd (w : Bool) (d : Reg) (a : Reg) (b : Reg) : Statement (.amosAnd w d a b) := by
  rintro _ _ ⟨⟩
  obtain ⟨h0, h1, h2, h3, h4, h5⟩ := parts_3_1_7_7_7_7 1#3 (BitVec.ofBool w) b a d 0x2A#7
  unfold decode; rw [h0]; show decode2A _ = _
  simp only [decode2A, h1, h2, h3, flag_eq h4, h5]; simp
theorem amosOr (w : Bool) (d : Reg) (a : Reg) (b : Reg) : Statement (.amosOr w d a b) := by
  rintro _ _ ⟨⟩
  obtain ⟨h0, h1, h2, h3, h4, h5⟩ := parts_3_1_7_7_7_7 2#3 (BitVec.ofBool w) b a d 0x2A#7
  unfold decode; rw [h0]; show decode2A _ = _
  simp only [decode2A, h1, h2, h3, flag_eq h4, h5]; simp
theorem amosXor (w : Bool) (d : Reg) (a : Reg) (b : Reg) : Statement (.amosXor w d a b) := by
  rintro _ _ ⟨⟩
  obtain ⟨h0, h1, h2, h3, h4, h5⟩ := parts_3_1_7_7_7_7 3#3 (BitVec.ofBool w) b a d 0x2A#7
  unfold decode; rw [h0]; show decode2A _ = _
  simp only [decode2A, h1, h2, h3, flag_eq h4, h5]; simp
theorem amosSwap (w : Bool) (d : Reg) (a : Reg) (b : Reg) : Statement (.amosSwap w d a b) := by
  rintro _ _ ⟨⟩
  obtain ⟨h0, h1, h2, h3, h4, h5⟩ := parts_3_1_7_7_7_7 4#3 (BitVec.ofBool w) b a d 0x2A#7
  unfold decode; rw [h0]; show decode2A _ = _
  simp only [decode2A, h1, h2, h3, flag_eq h4, h5]; simp
theorem amosMin (w : Bool) (d : Reg) (a : Reg) (b : Reg) : Statement (.amosMin w d a b) := by
  rintro _ _ ⟨⟩
  obtain ⟨h0, h1, h2, h3, h4, h5⟩ := parts_3_1_7_7_7_7 5#3 (BitVec.ofBool w) b a d 0x2A#7
  unfold decode; rw [h0]; show decode2A _ = _
  simp only [decode2A, h1, h2, h3, flag_eq h4, h5]; simp
theorem amosMax (w : Bool) (d : Reg) (a : Reg) (b : Reg) : Statement (.amosMax w d a b) := by
  rintro _ _ ⟨⟩
  obtain ⟨h0, h1, h2, h3, h4, h5⟩ := parts_3_1_7_7_7_7 6#3 (BitVec.ofBool w) b a d 0x2A#7
  unfold decode; rw [h0]; show decode2A _ = _
  simp only [decode2A, h1, h2, h3, flag_eq h4, h5]; simp
theorem amosCas (w : Bool) (d : Reg) (a : Reg) (b : Reg) : Statement (.amosCas w d a b) := by
  rintro _ _ ⟨⟩
  obtain ⟨h0, h1, h2, h3, h4, h5⟩ := parts_3_1_7_7_7_7 7#3 (BitVec.ofBool w) b a d 0x2A#7
  unfold decode; rw [h0]; show decode2A _ = _
  simp only [decode2A, h1, h2, h3, flag_eq h4, h5]; simp
theorem amosMinu (w : Bool) (d : Reg) (a : Reg) (b : Reg) : Statement (.amosMinu w d a b) := by
  rintro _ _ ⟨⟩
  obtain ⟨h0, h1, h2, h3, h4, h5⟩ := parts_3_1_7_7_7_7 0#3 (BitVec.ofBool w) b a d 0x2B#7
  unfold decode; rw [h0]; show decode2B _ = _
  simp only [decode2B, h1, h2, h3, flag_eq h4, h5]; simp
theorem amosMaxu (w : Bool) (d : Reg) (a : Reg) (b : Reg) : Statement (.amosMaxu w d a b) := by
  rintro _ _ ⟨⟩
  obtain ⟨h0, h1, h2, h3, h4, h5⟩ := parts_3_1_7_7_7_7 1#3 (BitVec.ofBool w) b a d 0x2B#7
  unfold decode; rw [h0]; show decode2B _ = _
  simp only [decode2B, h1, h2, h3, flag_eq h4, h5]; simp
theorem amosFaddD (w : Bool) (d : Reg) (a : Reg) (b : Reg) : Statement (.amosFaddD w d a b) := by
  rintro _ _ ⟨⟩
  obtain ⟨h0, h1, h2, h3, h4, h5⟩ := parts_3_1_7_7_7_7 2#3 (BitVec.ofBool w) b a d 0x2B#7
  unfold decode; rw [h0]; show decode2B _ = _
  simp only [decode2B, h1, h2, h3, flag_eq h4, h5]; simp
theorem amosFaddW (w : Bool) (d : Reg) (a : Reg) (b : Reg) : Statement (.amosFaddW w d a b) := by
  rintro _ _ ⟨⟩
  obtain ⟨h0, h1, h2, h3, h4, h5⟩ := parts_3_1_7_7_7_7 3#3 (BitVec.ofBool w) b a d 0x2B#7
  unfold decode; rw [h0]; show decode2B _ = _
  simp only [decode2B, h1, h2, h3, flag_eq h4, h5]; simp
theorem amosFaddH (w : Bool) (d : Reg) (a : Reg) (b : Reg) : Statement (.amosFaddH w d a b) := by
  rintro _ _ ⟨⟩
  obtain ⟨h0, h1, h2, h3, h4, h5⟩ := parts_3_1_7_7_7_7 4#3 (BitVec.ofBool w) b a d 0x2B#7
  unfold decode; rw [h0]; show decode2B _ = _
  simp only [decode2B, h1, h2, h3, flag_eq h4, h5]; simp
theorem amosBfadd (w : Bool) (d : Reg) (a : Reg) (b : Reg) : Statement (.amosBfadd w d a b) := by
  rintro _ _ ⟨⟩
  obtain ⟨h0, h1, h2, h3, h4, h5⟩ := parts_3_1_7_7_7_7 5#3 (BitVec.ofBool w) b a d 0x2B#7
  unfold decode; rw [h0]; show decode2B _ = _
  simp only [decode2B, h1, h2, h3, flag_eq h4, h5]; simp
theorem depAdd (w : Bool) (a : Reg) (b : Reg) : Statement (.depAdd w a b) := by
  rintro _ _ ⟨⟩
  obtain ⟨h0, h1, h2, h3, h4, h5⟩ := parts_3_1_7_7_7_7 0#3 (BitVec.ofBool w) b a 0#7 0x2D#7
  unfold decode; rw [h0]; show decode2D _ = _
  simp only [decode2D, h1, h2, h3, flag_eq h4, h5]; simp
theorem depMax (w : Bool) (a : Reg) (b : Reg) : Statement (.depMax w a b) := by
  rintro _ _ ⟨⟩
  obtain ⟨h0, h1, h2, h3, h4, h5⟩ := parts_3_1_7_7_7_7 1#3 (BitVec.ofBool w) b a 0#7 0x2D#7
  unfold decode; rw [h0]; show decode2D _ = _
  simp only [decode2D, h1, h2, h3, flag_eq h4, h5]; simp
theorem peek (w : Bool) (d : Reg) (a : Reg) : Statement (.peek w d a) := by
  rintro _ _ ⟨⟩
  obtain ⟨h0, h1, h2, h3, h4, h5⟩ := parts_3_1_7_7_7_7 2#3 (BitVec.ofBool w) 0#7 a d 0x2D#7
  unfold decode; rw [h0]; show decode2D _ = _
  simp only [decode2D, h1, h2, h3, flag_eq h4, h5]; simp
theorem sense (w : Bool) (d : Reg) (a : Reg) (b : Reg) : Statement (.sense w d a b) := by
  rintro _ _ ⟨⟩
  obtain ⟨h0, h1, h2, h3, h4, h5⟩ := parts_3_1_7_7_7_7 3#3 (BitVec.ofBool w) b a d 0x2D#7
  unfold decode; rw [h0]; show decode2D _ = _
  simp only [decode2D, h1, h2, h3, flag_eq h4, h5]; simp
theorem depAddRel (w : Bool) (a : Reg) (b : Reg) : Statement (.depAddRel w a b) := by
  rintro _ _ ⟨⟩
  obtain ⟨h0, h1, h2, h3, h4, h5⟩ := parts_3_1_7_7_7_7 4#3 (BitVec.ofBool w) b a 0#7 0x2D#7
  unfold decode; rw [h0]; show decode2D _ = _
  simp only [decode2D, h1, h2, h3, flag_eq h4, h5]; simp
theorem depMaxRel (w : Bool) (a : Reg) (b : Reg) : Statement (.depMaxRel w a b) := by
  rintro _ _ ⟨⟩
  obtain ⟨h0, h1, h2, h3, h4, h5⟩ := parts_3_1_7_7_7_7 5#3 (BitVec.ofBool w) b a 0#7 0x2D#7
  unfold decode; rw [h0]; show decode2D _ = _
  simp only [decode2D, h1, h2, h3, flag_eq h4, h5]; simp
theorem tick (w : Bool) (a : Reg) : Statement (.tick w a) := by
  rintro _ _ ⟨⟩
  obtain ⟨h0, h1, h2, h3, h4, h5⟩ := parts_3_1_7_7_7_7 0#3 (BitVec.ofBool w) 0#7 a 0#7 0x2E#7
  unfold decode; rw [h0]; show decode2E _ = _
  simp only [decode2E, h1, h2, h3, flag_eq h4, h5]; simp
theorem fadd (p : Bool) (r : BitVec 2) (w : Bool) (d : Reg) (a : Reg) (b : Reg) : Statement (.fadd p r w d a b) := by
  rintro _ _ ⟨⟩
  obtain ⟨h0, h1, h2, h3, h4, h5, h6⟩ := parts_1_2_1_7_7_7_7 (BitVec.ofBool p) r (BitVec.ofBool w) b a d 0x30#7
  unfold decode; rw [h0]; show decode30 _ = _
  simp only [decode30, h1, h2, h3, flag_eq h4, h5, flag_eq h6]
theorem fsub (p : Bool) (r : BitVec 2) (w : Bool) (d : Reg) (a : Reg) (b : Reg) : Statement (.fsub p r w d a b) := by
  rintro _ _ ⟨⟩
  obtain ⟨h0, h1, h2, h3, h4, h5, h6⟩ := parts_1_2_1_7_7_7_7 (BitVec.ofBool p) r (BitVec.ofBool w) b a d 0x31#7
  unfold decode; rw [h0]; show decode31 _ = _
  simp only [decode31, h1, h2, h3, flag_eq h4, h5, flag_eq h6]
theorem fmul (p : Bool) (r : BitVec 2) (w : Bool) (d : Reg) (a : Reg) (b : Reg) : Statement (.fmul p r w d a b) := by
  rintro _ _ ⟨⟩
  obtain ⟨h0, h1, h2, h3, h4, h5, h6⟩ := parts_1_2_1_7_7_7_7 (BitVec.ofBool p) r (BitVec.ofBool w) b a d 0x32#7
  unfold decode; rw [h0]; show decode32 _ = _
  simp only [decode32, h1, h2, h3, flag_eq h4, h5, flag_eq h6]
theorem fdiv (p : Bool) (r : BitVec 2) (w : Bool) (d : Reg) (a : Reg) (b : Reg) : Statement (.fdiv p r w d a b) := by
  rintro _ _ ⟨⟩
  obtain ⟨h0, h1, h2, h3, h4, h5, h6⟩ := parts_1_2_1_7_7_7_7 (BitVec.ofBool p) r (BitVec.ofBool w) b a d 0x33#7
  unfold decode; rw [h0]; show decode33 _ = _
  simp only [decode33, h1, h2, h3, flag_eq h4, h5, flag_eq h6]
theorem fma (p : Bool) (r : BitVec 2) (w : Bool) (d : Reg) (a : Reg) (b : Reg) : Statement (.fma p r w d a b) := by
  rintro _ _ ⟨⟩
  obtain ⟨h0, h1, h2, h3, h4, h5, h6⟩ := parts_1_2_1_7_7_7_7 (BitVec.ofBool p) r (BitVec.ofBool w) b a d 0x34#7
  unfold decode; rw [h0]; show decode34 _ = _
  simp only [decode34, h1, h2, h3, flag_eq h4, h5, flag_eq h6]
theorem fnma (p : Bool) (r : BitVec 2) (w : Bool) (d : Reg) (a : Reg) (b : Reg) : Statement (.fnma p r w d a b) := by
  rintro _ _ ⟨⟩
  obtain ⟨h0, h1, h2, h3, h4, h5, h6⟩ := parts_1_2_1_7_7_7_7 (BitVec.ofBool p) r (BitVec.ofBool w) b a d 0x35#7
  unfold decode; rw [h0]; show decode35 _ = _
  simp only [decode35, h1, h2, h3, flag_eq h4, h5, flag_eq h6]
theorem fsqrt (p : Bool) (r : BitVec 2) (w : Bool) (d : Reg) (a : Reg) : Statement (.fsqrt p r w d a) := by
  rintro _ _ ⟨⟩
  obtain ⟨h0, h1, h2, h3, h4, h5, h6⟩ := parts_1_2_1_7_7_7_7 (BitVec.ofBool p) r (BitVec.ofBool w) 0#7 a d 0x36#7
  unfold decode; rw [h0]; show decode36 _ = _
  simp only [decode36, h1, h2, h3, flag_eq h4, h5, flag_eq h6]; simp
theorem fminW (w : Bool) (d : Reg) (a : Reg) (b : Reg) : Statement (.fminW w d a b) := by
  rintro _ _ ⟨⟩
  obtain ⟨h0, h1, h2, h3, h4, h5⟩ := parts_3_1_7_7_7_7 0#3 (BitVec.ofBool w) b a d 0x37#7
  unfold decode; rw [h0]; show decode37 _ = _
  simp only [decode37, h1, h2, h3, flag_eq h4, h5]; simp
theorem fmaxW (w : Bool) (d : Reg) (a : Reg) (b : Reg) : Statement (.fmaxW w d a b) := by
  rintro _ _ ⟨⟩
  obtain ⟨h0, h1, h2, h3, h4, h5⟩ := parts_3_1_7_7_7_7 1#3 (BitVec.ofBool w) b a d 0x37#7
  unfold decode; rw [h0]; show decode37 _ = _
  simp only [decode37, h1, h2, h3, flag_eq h4, h5]; simp
theorem feqW (w : Bool) (d : Reg) (a : Reg) (b : Reg) : Statement (.feqW w d a b) := by
  rintro _ _ ⟨⟩
  obtain ⟨h0, h1, h2, h3, h4, h5⟩ := parts_3_1_7_7_7_7 2#3 (BitVec.ofBool w) b a d 0x37#7
  unfold decode; rw [h0]; show decode37 _ = _
  simp only [decode37, h1, h2, h3, flag_eq h4, h5]; simp
theorem fltW (w : Bool) (d : Reg) (a : Reg) (b : Reg) : Statement (.fltW w d a b) := by
  rintro _ _ ⟨⟩
  obtain ⟨h0, h1, h2, h3, h4, h5⟩ := parts_3_1_7_7_7_7 3#3 (BitVec.ofBool w) b a d 0x37#7
  unfold decode; rw [h0]; show decode37 _ = _
  simp only [decode37, h1, h2, h3, flag_eq h4, h5]; simp
theorem fleW (w : Bool) (d : Reg) (a : Reg) (b : Reg) : Statement (.fleW w d a b) := by
  rintro _ _ ⟨⟩
  obtain ⟨h0, h1, h2, h3, h4, h5⟩ := parts_3_1_7_7_7_7 4#3 (BitVec.ofBool w) b a d 0x37#7
  unfold decode; rw [h0]; show decode37 _ = _
  simp only [decode37, h1, h2, h3, flag_eq h4, h5]; simp
theorem fsgnjW (w : Bool) (d : Reg) (a : Reg) (b : Reg) : Statement (.fsgnjW w d a b) := by
  rintro _ _ ⟨⟩
  obtain ⟨h0, h1, h2, h3, h4, h5⟩ := parts_3_1_7_7_7_7 5#3 (BitVec.ofBool w) b a d 0x37#7
  unfold decode; rw [h0]; show decode37 _ = _
  simp only [decode37, h1, h2, h3, flag_eq h4, h5]; simp
theorem fsgnjnW (w : Bool) (d : Reg) (a : Reg) (b : Reg) : Statement (.fsgnjnW w d a b) := by
  rintro _ _ ⟨⟩
  obtain ⟨h0, h1, h2, h3, h4, h5⟩ := parts_3_1_7_7_7_7 6#3 (BitVec.ofBool w) b a d 0x37#7
  unfold decode; rw [h0]; show decode37 _ = _
  simp only [decode37, h1, h2, h3, flag_eq h4, h5]; simp
theorem fclassW (w : Bool) (d : Reg) (a : Reg) : Statement (.fclassW w d a) := by
  rintro _ _ ⟨⟩
  obtain ⟨h0, h1, h2, h3, h4, h5⟩ := parts_3_1_7_7_7_7 7#3 (BitVec.ofBool w) 0#7 a d 0x37#7
  unfold decode; rw [h0]; show decode37 _ = _
  simp only [decode37, h1, h2, h3, flag_eq h4, h5]; simp
theorem fminD (w : Bool) (d : Reg) (a : Reg) (b : Reg) : Statement (.fminD w d a b) := by
  rintro _ _ ⟨⟩
  obtain ⟨h0, h1, h2, h3, h4, h5⟩ := parts_3_1_7_7_7_7 0#3 (BitVec.ofBool w) b a d 0x38#7
  unfold decode; rw [h0]; show decode38 _ = _
  simp only [decode38, h1, h2, h3, flag_eq h4, h5]; simp
theorem fmaxD (w : Bool) (d : Reg) (a : Reg) (b : Reg) : Statement (.fmaxD w d a b) := by
  rintro _ _ ⟨⟩
  obtain ⟨h0, h1, h2, h3, h4, h5⟩ := parts_3_1_7_7_7_7 1#3 (BitVec.ofBool w) b a d 0x38#7
  unfold decode; rw [h0]; show decode38 _ = _
  simp only [decode38, h1, h2, h3, flag_eq h4, h5]; simp
theorem feqD (w : Bool) (d : Reg) (a : Reg) (b : Reg) : Statement (.feqD w d a b) := by
  rintro _ _ ⟨⟩
  obtain ⟨h0, h1, h2, h3, h4, h5⟩ := parts_3_1_7_7_7_7 2#3 (BitVec.ofBool w) b a d 0x38#7
  unfold decode; rw [h0]; show decode38 _ = _
  simp only [decode38, h1, h2, h3, flag_eq h4, h5]; simp
theorem fltD (w : Bool) (d : Reg) (a : Reg) (b : Reg) : Statement (.fltD w d a b) := by
  rintro _ _ ⟨⟩
  obtain ⟨h0, h1, h2, h3, h4, h5⟩ := parts_3_1_7_7_7_7 3#3 (BitVec.ofBool w) b a d 0x38#7
  unfold decode; rw [h0]; show decode38 _ = _
  simp only [decode38, h1, h2, h3, flag_eq h4, h5]; simp
theorem fleD (w : Bool) (d : Reg) (a : Reg) (b : Reg) : Statement (.fleD w d a b) := by
  rintro _ _ ⟨⟩
  obtain ⟨h0, h1, h2, h3, h4, h5⟩ := parts_3_1_7_7_7_7 4#3 (BitVec.ofBool w) b a d 0x38#7
  unfold decode; rw [h0]; show decode38 _ = _
  simp only [decode38, h1, h2, h3, flag_eq h4, h5]; simp
theorem fsgnjD (w : Bool) (d : Reg) (a : Reg) (b : Reg) : Statement (.fsgnjD w d a b) := by
  rintro _ _ ⟨⟩
  obtain ⟨h0, h1, h2, h3, h4, h5⟩ := parts_3_1_7_7_7_7 5#3 (BitVec.ofBool w) b a d 0x38#7
  unfold decode; rw [h0]; show decode38 _ = _
  simp only [decode38, h1, h2, h3, flag_eq h4, h5]; simp
theorem fsgnjnD (w : Bool) (d : Reg) (a : Reg) (b : Reg) : Statement (.fsgnjnD w d a b) := by
  rintro _ _ ⟨⟩
  obtain ⟨h0, h1, h2, h3, h4, h5⟩ := parts_3_1_7_7_7_7 6#3 (BitVec.ofBool w) b a d 0x38#7
  unfold decode; rw [h0]; show decode38 _ = _
  simp only [decode38, h1, h2, h3, flag_eq h4, h5]; simp
theorem fclassD (w : Bool) (d : Reg) (a : Reg) : Statement (.fclassD w d a) := by
  rintro _ _ ⟨⟩
  obtain ⟨h0, h1, h2, h3, h4, h5⟩ := parts_3_1_7_7_7_7 7#3 (BitVec.ofBool w) 0#7 a d 0x38#7
  unfold decode; rw [h0]; show decode38 _ = _
  simp only [decode38, h1, h2, h3, flag_eq h4, h5]; simp
theorem cvtSD (r : BitVec 2) (w : Bool) (d : Reg) (a : Reg) : Statement (.cvtSD r w d a) := by
  rintro _ _ ⟨⟩
  obtain ⟨h0, h1, h2, h3, h4, h5, h6⟩ := parts_1_2_1_7_7_7_7 0#1 r (BitVec.ofBool w) 0#7 a d 0x39#7
  unfold decode; rw [h0]; show decode39 _ = _
  simp only [decode39, h1, h2, h3, flag_eq h4, h5, h6]; simp
theorem cvtDS (w : Bool) (d : Reg) (a : Reg) : Statement (.cvtDS w d a) := by
  rintro _ _ ⟨⟩
  obtain ⟨h0, h1, h2, h3, h4, h5, h6⟩ := parts_1_2_1_7_7_7_7 1#1 0#2 (BitVec.ofBool w) 0#7 a d 0x39#7
  unfold decode; rw [h0]; show decode39 _ = _
  simp only [decode39, h1, h2, h3, flag_eq h4, h5, h6]; simp
theorem cvtHS (r : BitVec 2) (w : Bool) (d : Reg) (a : Reg) : Statement (.cvtHS r w d a) := by
  rintro _ _ ⟨⟩
  obtain ⟨h0, h1, h2, h3, h4, h5, h6⟩ := parts_1_2_1_7_7_7_7 0#1 r (BitVec.ofBool w) 0#7 a d 0x3A#7
  unfold decode; rw [h0]; show decode3A _ = _
  simp only [decode3A, h1, h2, h3, flag_eq h4, h5, h6]; simp
theorem cvtSH (w : Bool) (d : Reg) (a : Reg) : Statement (.cvtSH w d a) := by
  rintro _ _ ⟨⟩
  obtain ⟨h0, h1, h2, h3, h4, h5, h6⟩ := parts_1_2_1_7_7_7_7 1#1 0#2 (BitVec.ofBool w) 0#7 a d 0x3A#7
  unfold decode; rw [h0]; show decode3A _ = _
  simp only [decode3A, h1, h2, h3, flag_eq h4, h5, h6]; simp
theorem cvtBfS (r : BitVec 2) (w : Bool) (d : Reg) (a : Reg) : Statement (.cvtBfS r w d a) := by
  rintro _ _ ⟨⟩
  obtain ⟨h0, h1, h2, h3, h4, h5, h6⟩ := parts_1_2_1_7_7_7_7 0#1 r (BitVec.ofBool w) 0#7 a d 0x3B#7
  unfold decode; rw [h0]; show decode3B _ = _
  simp only [decode3B, h1, h2, h3, flag_eq h4, h5, h6]; simp
theorem cvtSBf (w : Bool) (d : Reg) (a : Reg) : Statement (.cvtSBf w d a) := by
  rintro _ _ ⟨⟩
  obtain ⟨h0, h1, h2, h3, h4, h5, h6⟩ := parts_1_2_1_7_7_7_7 1#1 0#2 (BitVec.ofBool w) 0#7 a d 0x3B#7
  unfold decode; rw [h0]; show decode3B _ = _
  simp only [decode3B, h1, h2, h3, flag_eq h4, h5, h6]; simp
theorem cvtSL (r : BitVec 2) (w : Bool) (d : Reg) (a : Reg) : Statement (.cvtSL r w d a) := by
  rintro _ _ ⟨⟩
  obtain ⟨h0, h1, h2, h3, h4, h5, h6⟩ := parts_1_2_1_7_7_7_7 0#1 r (BitVec.ofBool w) 0#7 a d 0x3C#7
  unfold decode; rw [h0]; show decode3C _ = _
  simp only [decode3C, h1, h2, h3, flag_eq h4, h5, h6]; simp
theorem cvtDL (r : BitVec 2) (w : Bool) (d : Reg) (a : Reg) : Statement (.cvtDL r w d a) := by
  rintro _ _ ⟨⟩
  obtain ⟨h0, h1, h2, h3, h4, h5, h6⟩ := parts_1_2_1_7_7_7_7 1#1 r (BitVec.ofBool w) 0#7 a d 0x3C#7
  unfold decode; rw [h0]; show decode3C _ = _
  simp only [decode3C, h1, h2, h3, flag_eq h4, h5, h6]; simp
theorem cvtLS (r : BitVec 2) (w : Bool) (d : Reg) (a : Reg) : Statement (.cvtLS r w d a) := by
  rintro _ _ ⟨⟩
  obtain ⟨h0, h1, h2, h3, h4, h5, h6⟩ := parts_1_2_1_7_7_7_7 0#1 r (BitVec.ofBool w) 0#7 a d 0x3D#7
  unfold decode; rw [h0]; show decode3D _ = _
  simp only [decode3D, h1, h2, h3, flag_eq h4, h5, h6]; simp
theorem cvtLD (r : BitVec 2) (w : Bool) (d : Reg) (a : Reg) : Statement (.cvtLD r w d a) := by
  rintro _ _ ⟨⟩
  obtain ⟨h0, h1, h2, h3, h4, h5, h6⟩ := parts_1_2_1_7_7_7_7 1#1 r (BitVec.ofBool w) 0#7 a d 0x3D#7
  unfold decode; rw [h0]; show decode3D _ = _
  simp only [decode3D, h1, h2, h3, flag_eq h4, h5, h6]; simp
theorem cvtDLu (r : BitVec 2) (w : Bool) (d : Reg) (a : Reg) : Statement (.cvtDLu r w d a) := by
  rintro _ _ ⟨⟩
  obtain ⟨h0, h1, h2, h3, h4, h5, h6⟩ := parts_1_2_1_7_7_7_7 0#1 r (BitVec.ofBool w) 0#7 a d 0x3E#7
  unfold decode; rw [h0]; show decode3E _ = _
  simp only [decode3E, h1, h2, h3, flag_eq h4, h5, h6]; simp
theorem cvtLuD (r : BitVec 2) (w : Bool) (d : Reg) (a : Reg) : Statement (.cvtLuD r w d a) := by
  rintro _ _ ⟨⟩
  obtain ⟨h0, h1, h2, h3, h4, h5, h6⟩ := parts_1_2_1_7_7_7_7 1#1 r (BitVec.ofBool w) 0#7 a d 0x3E#7
  unfold decode; rw [h0]; show decode3E _ = _
  simp only [decode3E, h1, h2, h3, flag_eq h4, h5, h6]; simp
theorem vadd (p : Bool) (r : BitVec 2) (w : Bool) (d : Reg) (a : Reg) (b : Reg) : Statement (.vadd p r w d a b) := by
  rintro _ _ ⟨⟩
  obtain ⟨h0, h1, h2, h3, h4, h5, h6⟩ := parts_1_2_1_7_7_7_7 (BitVec.ofBool p) r (BitVec.ofBool w) b a d 0x40#7
  unfold decode; rw [h0]; show decode40 _ = _
  simp only [decode40, h1, h2, h3, flag_eq h4, h5, flag_eq h6]
theorem vsub (p : Bool) (r : BitVec 2) (w : Bool) (d : Reg) (a : Reg) (b : Reg) : Statement (.vsub p r w d a b) := by
  rintro _ _ ⟨⟩
  obtain ⟨h0, h1, h2, h3, h4, h5, h6⟩ := parts_1_2_1_7_7_7_7 (BitVec.ofBool p) r (BitVec.ofBool w) b a d 0x41#7
  unfold decode; rw [h0]; show decode41 _ = _
  simp only [decode41, h1, h2, h3, flag_eq h4, h5, flag_eq h6]
theorem vmul (p : Bool) (r : BitVec 2) (w : Bool) (d : Reg) (a : Reg) (b : Reg) : Statement (.vmul p r w d a b) := by
  rintro _ _ ⟨⟩
  obtain ⟨h0, h1, h2, h3, h4, h5, h6⟩ := parts_1_2_1_7_7_7_7 (BitVec.ofBool p) r (BitVec.ofBool w) b a d 0x42#7
  unfold decode; rw [h0]; show decode42 _ = _
  simp only [decode42, h1, h2, h3, flag_eq h4, h5, flag_eq h6]
theorem vfma (p : Bool) (r : BitVec 2) (w : Bool) (d : Reg) (a : Reg) (b : Reg) : Statement (.vfma p r w d a b) := by
  rintro _ _ ⟨⟩
  obtain ⟨h0, h1, h2, h3, h4, h5, h6⟩ := parts_1_2_1_7_7_7_7 (BitVec.ofBool p) r (BitVec.ofBool w) b a d 0x43#7
  unfold decode; rw [h0]; show decode43 _ = _
  simp only [decode43, h1, h2, h3, flag_eq h4, h5, flag_eq h6]
theorem vminW (w : Bool) (d : Reg) (a : Reg) (b : Reg) : Statement (.vminW w d a b) := by
  rintro _ _ ⟨⟩
  obtain ⟨h0, h1, h2, h3, h4, h5⟩ := parts_3_1_7_7_7_7 0#3 (BitVec.ofBool w) b a d 0x44#7
  unfold decode; rw [h0]; show decode44 _ = _
  simp only [decode44, h1, h2, h3, flag_eq h4, h5]; simp
theorem vmaxW (w : Bool) (d : Reg) (a : Reg) (b : Reg) : Statement (.vmaxW w d a b) := by
  rintro _ _ ⟨⟩
  obtain ⟨h0, h1, h2, h3, h4, h5⟩ := parts_3_1_7_7_7_7 1#3 (BitVec.ofBool w) b a d 0x44#7
  unfold decode; rw [h0]; show decode44 _ = _
  simp only [decode44, h1, h2, h3, flag_eq h4, h5]; simp
theorem vminD (w : Bool) (d : Reg) (a : Reg) (b : Reg) : Statement (.vminD w d a b) := by
  rintro _ _ ⟨⟩
  obtain ⟨h0, h1, h2, h3, h4, h5⟩ := parts_3_1_7_7_7_7 2#3 (BitVec.ofBool w) b a d 0x44#7
  unfold decode; rw [h0]; show decode44 _ = _
  simp only [decode44, h1, h2, h3, flag_eq h4, h5]; simp
theorem vmaxD (w : Bool) (d : Reg) (a : Reg) (b : Reg) : Statement (.vmaxD w d a b) := by
  rintro _ _ ⟨⟩
  obtain ⟨h0, h1, h2, h3, h4, h5⟩ := parts_3_1_7_7_7_7 3#3 (BitVec.ofBool w) b a d 0x44#7
  unfold decode; rw [h0]; show decode44 _ = _
  simp only [decode44, h1, h2, h3, flag_eq h4, h5]; simp
theorem vcpy (w : Bool) (d : Reg) (a : Reg) : Statement (.vcpy w d a) := by
  rintro _ _ ⟨⟩
  obtain ⟨h0, h1, h2, h3, h4, h5⟩ := parts_3_1_7_7_7_7 4#3 (BitVec.ofBool w) 0#7 a d 0x44#7
  unfold decode; rw [h0]; show decode44 _ = _
  simp only [decode44, h1, h2, h3, flag_eq h4, h5]; simp
theorem vcvtHS (w : Bool) (d : Reg) (a : Reg) : Statement (.vcvtHS w d a) := by
  rintro _ _ ⟨⟩
  obtain ⟨h0, h1, h2, h3, h4, h5⟩ := parts_3_1_7_7_7_7 0#3 (BitVec.ofBool w) 0#7 a d 0x45#7
  unfold decode; rw [h0]; show decode45 _ = _
  simp only [decode45, h1, h2, h3, flag_eq h4, h5]; simp
theorem vcvtSH (w : Bool) (d : Reg) (a : Reg) : Statement (.vcvtSH w d a) := by
  rintro _ _ ⟨⟩
  obtain ⟨h0, h1, h2, h3, h4, h5⟩ := parts_3_1_7_7_7_7 1#3 (BitVec.ofBool w) 0#7 a d 0x45#7
  unfold decode; rw [h0]; show decode45 _ = _
  simp only [decode45, h1, h2, h3, flag_eq h4, h5]; simp
theorem vcvtBfS (w : Bool) (d : Reg) (a : Reg) : Statement (.vcvtBfS w d a) := by
  rintro _ _ ⟨⟩
  obtain ⟨h0, h1, h2, h3, h4, h5⟩ := parts_3_1_7_7_7_7 2#3 (BitVec.ofBool w) 0#7 a d 0x45#7
  unfold decode; rw [h0]; show decode45 _ = _
  simp only [decode45, h1, h2, h3, flag_eq h4, h5]; simp
theorem vcvtSBf (w : Bool) (d : Reg) (a : Reg) : Statement (.vcvtSBf w d a) := by
  rintro _ _ ⟨⟩
  obtain ⟨h0, h1, h2, h3, h4, h5⟩ := parts_3_1_7_7_7_7 3#3 (BitVec.ofBool w) 0#7 a d 0x45#7
  unfold decode; rw [h0]; show decode45 _ = _
  simp only [decode45, h1, h2, h3, flag_eq h4, h5]; simp
theorem vcvtBd8S (w : Bool) (d : Reg) (a : Reg) (b : Reg) : Statement (.vcvtBd8S w d a b) := by
  rintro _ _ ⟨⟩
  obtain ⟨h0, h1, h2, h3, h4, h5⟩ := parts_3_1_7_7_7_7 4#3 (BitVec.ofBool w) b a d 0x45#7
  unfold decode; rw [h0]; show decode45 _ = _
  simp only [decode45, h1, h2, h3, flag_eq h4, h5]; simp
theorem vcvtSBd8 (w : Bool) (d : Reg) (a : Reg) (b : Reg) : Statement (.vcvtSBd8 w d a b) := by
  rintro _ _ ⟨⟩
  obtain ⟨h0, h1, h2, h3, h4, h5⟩ := parts_3_1_7_7_7_7 5#3 (BitVec.ofBool w) b a d 0x45#7
  unfold decode; rw [h0]; show decode45 _ = _
  simp only [decode45, h1, h2, h3, flag_eq h4, h5]; simp
theorem vcvtBd4S (w : Bool) (d : Reg) (a : Reg) (b : Reg) : Statement (.vcvtBd4S w d a b) := by
  rintro _ _ ⟨⟩
  obtain ⟨h0, h1, h2, h3, h4, h5⟩ := parts_3_1_7_7_7_7 6#3 (BitVec.ofBool w) b a d 0x45#7
  unfold decode; rw [h0]; show decode45 _ = _
  simp only [decode45, h1, h2, h3, flag_eq h4, h5]; simp
theorem vcvtSBd4 (w : Bool) (d : Reg) (a : Reg) (b : Reg) : Statement (.vcvtSBd4 w d a b) := by
  rintro _ _ ⟨⟩
  obtain ⟨h0, h1, h2, h3, h4, h5⟩ := parts_3_1_7_7_7_7 7#3 (BitVec.ofBool w) b a d 0x45#7
  unfold decode; rw [h0]; show decode45 _ = _
  simp only [decode45, h1, h2, h3, flag_eq h4, h5]; simp
theorem sfuExp2 (w : Bool) (d : Reg) (a : Reg) : Statement (.sfuExp2 w d a) := by
  rintro _ _ ⟨⟩
  obtain ⟨h0, h1, h2, h3, h4, h5⟩ := parts_3_1_7_7_7_7 0#3 (BitVec.ofBool w) 0#7 a d 0x46#7
  unfold decode; rw [h0]; show decode46 _ = _
  simp only [decode46, h1, h2, h3, flag_eq h4, h5]; simp
theorem sfuLog2 (w : Bool) (d : Reg) (a : Reg) : Statement (.sfuLog2 w d a) := by
  rintro _ _ ⟨⟩
  obtain ⟨h0, h1, h2, h3, h4, h5⟩ := parts_3_1_7_7_7_7 1#3 (BitVec.ofBool w) 0#7 a d 0x46#7
  unfold decode; rw [h0]; show decode46 _ = _
  simp only [decode46, h1, h2, h3, flag_eq h4, h5]; simp
theorem sfuRcp (w : Bool) (d : Reg) (a : Reg) : Statement (.sfuRcp w d a) := by
  rintro _ _ ⟨⟩
  obtain ⟨h0, h1, h2, h3, h4, h5⟩ := parts_3_1_7_7_7_7 2#3 (BitVec.ofBool w) 0#7 a d 0x46#7
  unfold decode; rw [h0]; show decode46 _ = _
  simp only [decode46, h1, h2, h3, flag_eq h4, h5]; simp
theorem sfuRsq (w : Bool) (d : Reg) (a : Reg) : Statement (.sfuRsq w d a) := by
  rintro _ _ ⟨⟩
  obtain ⟨h0, h1, h2, h3, h4, h5⟩ := parts_3_1_7_7_7_7 3#3 (BitVec.ofBool w) 0#7 a d 0x46#7
  unfold decode; rw [h0]; show decode46 _ = _
  simp only [decode46, h1, h2, h3, flag_eq h4, h5]; simp
theorem sfuSin (w : Bool) (d : Reg) (a : Reg) : Statement (.sfuSin w d a) := by
  rintro _ _ ⟨⟩
  obtain ⟨h0, h1, h2, h3, h4, h5⟩ := parts_3_1_7_7_7_7 4#3 (BitVec.ofBool w) 0#7 a d 0x46#7
  unfold decode; rw [h0]; show decode46 _ = _
  simp only [decode46, h1, h2, h3, flag_eq h4, h5]; simp
theorem sfuCos (w : Bool) (d : Reg) (a : Reg) : Statement (.sfuCos w d a) := by
  rintro _ _ ⟨⟩
  obtain ⟨h0, h1, h2, h3, h4, h5⟩ := parts_3_1_7_7_7_7 5#3 (BitVec.ofBool w) 0#7 a d 0x46#7
  unfold decode; rw [h0]; show decode46 _ = _
  simp only [decode46, h1, h2, h3, flag_eq h4, h5]; simp
theorem sfuTanh (w : Bool) (d : Reg) (a : Reg) : Statement (.sfuTanh w d a) := by
  rintro _ _ ⟨⟩
  obtain ⟨h0, h1, h2, h3, h4, h5⟩ := parts_3_1_7_7_7_7 6#3 (BitVec.ofBool w) 0#7 a d 0x46#7
  unfold decode; rw [h0]; show decode46 _ = _
  simp only [decode46, h1, h2, h3, flag_eq h4, h5]; simp
theorem sfuSigm (w : Bool) (d : Reg) (a : Reg) : Statement (.sfuSigm w d a) := by
  rintro _ _ ⟨⟩
  obtain ⟨h0, h1, h2, h3, h4, h5⟩ := parts_3_1_7_7_7_7 7#3 (BitVec.ofBool w) 0#7 a d 0x46#7
  unfold decode; rw [h0]; show decode46 _ = _
  simp only [decode46, h1, h2, h3, flag_eq h4, h5]; simp
theorem sbindIn (w : Bool) (d : Reg) (a : Reg) : Statement (.sbindIn w d a) := by
  rintro _ _ ⟨⟩
  obtain ⟨h0, h1, h2, h3, h4, h5⟩ := parts_3_1_7_7_7_7 0#3 (BitVec.ofBool w) 0#7 a d 0x47#7
  unfold decode; rw [h0]; show decode47 _ = _
  simp only [decode47, h1, h2, h3, flag_eq h4, h5]; simp
theorem sbindOut (w : Bool) (d : Reg) (a : Reg) : Statement (.sbindOut w d a) := by
  rintro _ _ ⟨⟩
  obtain ⟨h0, h1, h2, h3, h4, h5⟩ := parts_3_1_7_7_7_7 1#3 (BitVec.ofBool w) 0#7 a d 0x47#7
  unfold decode; rw [h0]; show decode47 _ = _
  simp only [decode47, h1, h2, h3, flag_eq h4, h5]; simp
theorem sunbind (d : Reg) : Statement (.sunbind d) := by
  rintro _ _ ⟨⟩
  obtain ⟨h0, h1, h2, h3, h4, h5⟩ := parts_3_1_7_7_7_7 2#3 0#1 0#7 0#7 d 0x47#7
  unfold decode; rw [h0]; show decode47 _ = _
  simp only [decode47, h1, h2, h3, h4, h5]; simp
theorem ctab (w : Bool) (a : Reg) : Statement (.ctab w a) := by
  rintro _ _ ⟨⟩
  obtain ⟨h0, h1, h2, h3, h4, h5⟩ := parts_3_1_7_7_7_7 0#3 (BitVec.ofBool w) 0#7 a 0#7 0x48#7
  unfold decode; rw [h0]; show decode48 _ = _
  simp only [decode48, h1, h2, h3, flag_eq h4, h5]; simp
theorem mma (w : Bool) (k : Bool) (n : BitVec 4) (a : Reg) (b : Reg) : Statement (.mma w k n a b) := by
  rintro _ _ ⟨⟩
  obtain ⟨h0, h1, h2, h3, h4, h5, h6, h7, h8⟩ := parts_3_1_7_7_1_1_1_4_7 0#3 (BitVec.ofBool w) b a 0#1 0#1 (BitVec.ofBool k) n 0x50#7
  unfold decode; rw [h0]; show decode50 _ = _
  simp only [decode50, h1, flag_eq h2, h3, h4, h5, h6, flag_eq h7, h8]; simp
theorem mmaZ (w : Bool) (k : Bool) (n : BitVec 4) (a : Reg) (b : Reg) : Statement (.mmaZ w k n a b) := by
  rintro _ _ ⟨⟩
  obtain ⟨h0, h1, h2, h3, h4, h5, h6, h7, h8⟩ := parts_3_1_7_7_1_1_1_4_7 0#3 (BitVec.ofBool w) b a 0#1 1#1 (BitVec.ofBool k) n 0x50#7
  unfold decode; rw [h0]; show decode50 _ = _
  simp only [decode50, h1, flag_eq h2, h3, h4, h5, h6, flag_eq h7, h8]; simp
theorem mmaRot (w : Bool) (k : Bool) (n : BitVec 4) (a : Reg) : Statement (.mmaRot w k n a) := by
  rintro _ _ ⟨⟩
  obtain ⟨h0, h1, h2, h3, h4, h5, h6, h7, h8⟩ := parts_3_1_7_7_1_1_1_4_7 1#3 (BitVec.ofBool w) 0#7 a 0#1 0#1 (BitVec.ofBool k) n 0x50#7
  unfold decode; rw [h0]; show decode50 _ = _
  simp only [decode50, h1, flag_eq h2, h3, h4, h5, h6, flag_eq h7, h8]; simp
theorem mmaRotZ (w : Bool) (k : Bool) (n : BitVec 4) (a : Reg) : Statement (.mmaRotZ w k n a) := by
  rintro _ _ ⟨⟩
  obtain ⟨h0, h1, h2, h3, h4, h5, h6, h7, h8⟩ := parts_3_1_7_7_1_1_1_4_7 1#3 (BitVec.ofBool w) 0#7 a 0#1 1#1 (BitVec.ofBool k) n 0x50#7
  unfold decode; rw [h0]; show decode50 _ = _
  simp only [decode50, h1, flag_eq h2, h3, h4, h5, h6, flag_eq h7, h8]; simp
theorem mmaRotSd (w : Bool) (k : Bool) (n : BitVec 4) (a : Reg) (b : Reg) : Statement (.mmaRotSd w k n a b) := by
  rintro _ _ ⟨⟩
  obtain ⟨h0, h1, h2, h3, h4, h5, h6, h7, h8⟩ := parts_3_1_7_7_1_1_1_4_7 1#3 (BitVec.ofBool w) b a 1#1 0#1 (BitVec.ofBool k) n 0x50#7
  unfold decode; rw [h0]; show decode50 _ = _
  simp only [decode50, h1, flag_eq h2, h3, h4, h5, h6, flag_eq h7, h8]; simp
theorem mmaRotSdZ (w : Bool) (k : Bool) (n : BitVec 4) (a : Reg) (b : Reg) : Statement (.mmaRotSdZ w k n a b) := by
  rintro _ _ ⟨⟩
  obtain ⟨h0, h1, h2, h3, h4, h5, h6, h7, h8⟩ := parts_3_1_7_7_1_1_1_4_7 1#3 (BitVec.ofBool w) b a 1#1 1#1 (BitVec.ofBool k) n 0x50#7
  unfold decode; rw [h0]; show decode50 _ = _
  simp only [decode50, h1, flag_eq h2, h3, h4, h5, h6, flag_eq h7, h8]; simp
theorem mstc (w : Bool) (k : Bool) (a : Reg) (b : Reg) : Statement (.mstc w k a b) := by
  rintro _ _ ⟨⟩
  obtain ⟨h0, h1, h2, h3, h4, h5, h6, h7, h8⟩ := parts_3_1_7_7_1_1_1_4_7 0#3 (BitVec.ofBool w) b a 0#1 0#1 (BitVec.ofBool k) 0#4 0x51#7
  unfold decode; rw [h0]; show decode51 _ = _
  simp only [decode51, h1, flag_eq h2, h3, h4, h5, h6, flag_eq h7, h8]; simp
theorem mldc (w : Bool) (k : Bool) (a : Reg) (b : Reg) : Statement (.mldc w k a b) := by
  rintro _ _ ⟨⟩
  obtain ⟨h0, h1, h2, h3, h4, h5, h6, h7, h8⟩ := parts_3_1_7_7_1_1_1_4_7 1#3 (BitVec.ofBool w) b a 0#1 0#1 (BitVec.ofBool k) 0#4 0x51#7
  unfold decode; rw [h0]; show decode51 _ = _
  simp only [decode51, h1, flag_eq h2, h3, h4, h5, h6, flag_eq h7, h8]; simp
theorem mcommit (d : Reg) : Statement (.mcommit d) := by
  rintro _ _ ⟨⟩
  obtain ⟨h0, h1, h2, h3, h4, h5⟩ := parts_3_1_7_7_7_7 0#3 0#1 0#7 0#7 d 0x52#7
  unfold decode; rw [h0]; show decode52 _ = _
  simp only [decode52, h1, h2, h3, h4, h5]; simp
theorem mwait (w : Bool) (a : Reg) : Statement (.mwait w a) := by
  rintro _ _ ⟨⟩
  obtain ⟨h0, h1, h2, h3, h4, h5⟩ := parts_3_1_7_7_7_7 1#3 (BitVec.ofBool w) 0#7 a 0#7 0x52#7
  unfold decode; rw [h0]; show decode52 _ = _
  simp only [decode52, h1, h2, h3, flag_eq h4, h5]; simp
theorem cpyGg (w : Bool) (c : BitVec 2) (a : Reg) (b : Reg) : Statement (.cpyGg w c a b) := by
  rintro _ _ ⟨⟩
  obtain ⟨h0, h1, h2, h3, h4, h5, h6, h7, h8⟩ := parts_3_1_7_7_3_1_1_2_7 0#3 (BitVec.ofBool w) b a 0#3 0#1 0#1 c 0x53#7
  unfold decode; rw [h0]; show decode53 _ = _
  simp only [decode53, h1, h2, h3, h4, h5, h6, flag_eq h7, h8]; simp
theorem cpyGs (w : Bool) (c : BitVec 2) (a : Reg) (b : Reg) : Statement (.cpyGs w c a b) := by
  rintro _ _ ⟨⟩
  obtain ⟨h0, h1, h2, h3, h4, h5, h6, h7, h8⟩ := parts_3_1_7_7_3_1_1_2_7 0#3 (BitVec.ofBool w) b a 0#3 1#1 0#1 c 0x53#7
  unfold decode; rw [h0]; show decode53 _ = _
  simp only [decode53, h1, h2, h3, h4, h5, h6, flag_eq h7, h8]; simp
theorem cpySg (w : Bool) (c : BitVec 2) (a : Reg) (b : Reg) : Statement (.cpySg w c a b) := by
  rintro _ _ ⟨⟩
  obtain ⟨h0, h1, h2, h3, h4, h5, h6, h7, h8⟩ := parts_3_1_7_7_3_1_1_2_7 0#3 (BitVec.ofBool w) b a 0#3 0#1 1#1 c 0x53#7
  unfold decode; rw [h0]; show decode53 _ = _
  simp only [decode53, h1, h2, h3, h4, h5, h6, flag_eq h7, h8]; simp
theorem cpySs (w : Bool) (c : BitVec 2) (a : Reg) (b : Reg) : Statement (.cpySs w c a b) := by
  rintro _ _ ⟨⟩
  obtain ⟨h0, h1, h2, h3, h4, h5, h6, h7, h8⟩ := parts_3_1_7_7_3_1_1_2_7 0#3 (BitVec.ofBool w) b a 0#3 1#1 1#1 c 0x53#7
  unfold decode; rw [h0]; show decode53 _ = _
  simp only [decode53, h1, h2, h3, h4, h5, h6, flag_eq h7, h8]; simp
theorem cpySub (w : Bool) (c : BitVec 2) (a : Reg) : Statement (.cpySub w c a) := by
  rintro _ _ ⟨⟩
  obtain ⟨h0, h1, h2, h3, h4, h5, h6, h7, h8⟩ := parts_3_1_7_7_3_1_1_2_7 1#3 (BitVec.ofBool w) 0#7 a 0#3 0#1 0#1 c 0x53#7
  unfold decode; rw [h0]; show decode53 _ = _
  simp only [decode53, h1, h2, h3, h4, h5, h6, flag_eq h7, h8]; simp
theorem cpySubPull (w : Bool) (c : BitVec 2) (a : Reg) : Statement (.cpySubPull w c a) := by
  rintro _ _ ⟨⟩
  obtain ⟨h0, h1, h2, h3, h4, h5, h6, h7, h8⟩ := parts_3_1_7_7_3_1_1_2_7 1#3 (BitVec.ofBool w) 0#7 a 0#3 1#1 0#1 c 0x53#7
  unfold decode; rw [h0]; show decode53 _ = _
  simp only [decode53, h1, h2, h3, h4, h5, h6, flag_eq h7, h8]; simp
theorem cpySubRet (w : Bool) (c : BitVec 2) (a : Reg) : Statement (.cpySubRet w c a) := by
  rintro _ _ ⟨⟩
  obtain ⟨h0, h1, h2, h3, h4, h5, h6, h7, h8⟩ := parts_3_1_7_7_3_1_1_2_7 1#3 (BitVec.ofBool w) 0#7 a 0#3 0#1 1#1 c 0x53#7
  unfold decode; rw [h0]; show decode53 _ = _
  simp only [decode53, h1, h2, h3, h4, h5, h6, flag_eq h7, h8]; simp
theorem cwait (w : Bool) (a : Reg) (b : Reg) : Statement (.cwait w a b) := by
  rintro _ _ ⟨⟩
  obtain ⟨h0, h1, h2, h3, h4, h5⟩ := parts_3_1_7_7_7_7 1#3 (BitVec.ofBool w) b a 0#7 0x54#7
  unfold decode; rw [h0]; show decode54 _ = _
  simp only [decode54, h1, h2, h3, flag_eq h4, h5]; simp
theorem spawn (w : Bool) (d : Reg) (a : Reg) (b : Reg) : Statement (.spawn w d a b) := by
  rintro _ _ ⟨⟩
  obtain ⟨h0, h1, h2, h3, h4, h5⟩ := parts_3_1_7_7_7_7 0#3 (BitVec.ofBool w) b a d 0x60#7
  unfold decode; rw [h0]; show decode60 _ = _
  simp only [decode60, h1, h2, h3, flag_eq h4, h5]; simp
theorem go (w : Bool) (a : Reg) : Statement (.go w a) := by
  rintro _ _ ⟨⟩
  obtain ⟨h0, h1, h2, h3, h4, h5⟩ := parts_3_1_7_7_7_7 0#3 (BitVec.ofBool w) 0#7 a 0#7 0x61#7
  unfold decode; rw [h0]; show decode61 _ = _
  simp only [decode61, h1, h2, h3, flag_eq h4, h5]; simp
theorem park (w : Bool) (a : Reg) (b : Reg) : Statement (.park w a b) := by
  rintro _ _ ⟨⟩
  obtain ⟨h0, h1, h2, h3, h4, h5⟩ := parts_3_1_7_7_7_7 3#3 (BitVec.ofBool w) b a 0#7 0x61#7
  unfold decode; rw [h0]; show decode61 _ = _
  simp only [decode61, h1, h2, h3, flag_eq h4, h5]; simp
theorem join (w : Bool) (d : Reg) (a : Reg) : Statement (.join w d a) := by
  rintro _ _ ⟨⟩
  obtain ⟨h0, h1, h2, h3, h4, h5⟩ := parts_3_1_7_7_7_7 0#3 (BitVec.ofBool w) 0#7 a d 0x62#7
  unfold decode; rw [h0]; show decode62 _ = _
  simp only [decode62, h1, h2, h3, flag_eq h4, h5]; simp
theorem leave (w : Bool) (d : Reg) (a : Reg) : Statement (.leave w d a) := by
  rintro _ _ ⟨⟩
  obtain ⟨h0, h1, h2, h3, h4, h5⟩ := parts_3_1_7_7_7_7 1#3 (BitVec.ofBool w) 0#7 a d 0x62#7
  unfold decode; rw [h0]; show decode62 _ = _
  simp only [decode62, h1, h2, h3, flag_eq h4, h5]; simp
theorem bar (w : Bool) (d : Reg) (a : Reg) : Statement (.bar w d a) := by
  rintro _ _ ⟨⟩
  obtain ⟨h0, h1, h2, h3, h4, h5⟩ := parts_3_1_7_7_7_7 2#3 (BitVec.ofBool w) 0#7 a d 0x62#7
  unfold decode; rw [h0]; show decode62 _ = _
  simp only [decode62, h1, h2, h3, flag_eq h4, h5]; simp
theorem tsig (w : Bool) (a : Reg) : Statement (.tsig w a) := by
  rintro _ _ ⟨⟩
  obtain ⟨h0, h1, h2, h3, h4, h5⟩ := parts_3_1_7_7_7_7 0#3 (BitVec.ofBool w) 0#7 a 0#7 0x63#7
  unfold decode; rw [h0]; show decode63 _ = _
  simp only [decode63, h1, h2, h3, flag_eq h4, h5]; simp
theorem kadd (d : KReg) (a : KReg) (b : KReg) : Statement (.kadd d a b) := by
  rintro _ _ ⟨⟩
  obtain ⟨h0, h1, h2, h3, h4, h5, h6, h7, h8⟩ := parts_3_1_3_4_3_4_3_4_7 0#3 0#1 0#3 b 0#3 a 0#3 d 0x68#7
  unfold decode; rw [h0]; show decode68 _ = _
  simp only [decode68, h1, h2, h3, h4, h5, h6, h7, h8]; simp
theorem ksub (d : KReg) (a : KReg) (b : KReg) : Statement (.ksub d a b) := by
  rintro _ _ ⟨⟩
  obtain ⟨h0, h1, h2, h3, h4, h5, h6, h7, h8⟩ := parts_3_1_3_4_3_4_3_4_7 1#3 0#1 0#3 b 0#3 a 0#3 d 0x68#7
  unfold decode; rw [h0]; show decode68 _ = _
  simp only [decode68, h1, h2, h3, h4, h5, h6, h7, h8]; simp
theorem kand (d : KReg) (a : KReg) (b : KReg) : Statement (.kand d a b) := by
  rintro _ _ ⟨⟩
  obtain ⟨h0, h1, h2, h3, h4, h5, h6, h7, h8⟩ := parts_3_1_3_4_3_4_3_4_7 2#3 0#1 0#3 b 0#3 a 0#3 d 0x68#7
  unfold decode; rw [h0]; show decode68 _ = _
  simp only [decode68, h1, h2, h3, h4, h5, h6, h7, h8]; simp
theorem kor (d : KReg) (a : KReg) (b : KReg) : Statement (.kor d a b) := by
  rintro _ _ ⟨⟩
  obtain ⟨h0, h1, h2, h3, h4, h5, h6, h7, h8⟩ := parts_3_1_3_4_3_4_3_4_7 3#3 0#1 0#3 b 0#3 a 0#3 d 0x68#7
  unfold decode; rw [h0]; show decode68 _ = _
  simp only [decode68, h1, h2, h3, h4, h5, h6, h7, h8]; simp
theorem kxor (d : KReg) (a : KReg) (b : KReg) : Statement (.kxor d a b) := by
  rintro _ _ ⟨⟩
  obtain ⟨h0, h1, h2, h3, h4, h5, h6, h7, h8⟩ := parts_3_1_3_4_3_4_3_4_7 4#3 0#1 0#3 b 0#3 a 0#3 d 0x68#7
  unfold decode; rw [h0]; show decode68 _ = _
  simp only [decode68, h1, h2, h3, h4, h5, h6, h7, h8]; simp
theorem ksll (d : KReg) (a : KReg) (b : KReg) : Statement (.ksll d a b) := by
  rintro _ _ ⟨⟩
  obtain ⟨h0, h1, h2, h3, h4, h5, h6, h7, h8⟩ := parts_3_1_3_4_3_4_3_4_7 5#3 0#1 0#3 b 0#3 a 0#3 d 0x68#7
  unfold decode; rw [h0]; show decode68 _ = _
  simp only [decode68, h1, h2, h3, h4, h5, h6, h7, h8]; simp
theorem ksrl (d : KReg) (a : KReg) (b : KReg) : Statement (.ksrl d a b) := by
  rintro _ _ ⟨⟩
  obtain ⟨h0, h1, h2, h3, h4, h5, h6, h7, h8⟩ := parts_3_1_3_4_3_4_3_4_7 6#3 0#1 0#3 b 0#3 a 0#3 d 0x68#7
  unfold decode; rw [h0]; show decode68 _ = _
  simp only [decode68, h1, h2, h3, h4, h5, h6, h7, h8]; simp
theorem kmul (d : KReg) (a : KReg) (b : KReg) : Statement (.kmul d a b) := by
  rintro _ _ ⟨⟩
  obtain ⟨h0, h1, h2, h3, h4, h5, h6, h7, h8⟩ := parts_3_1_3_4_3_4_3_4_7 7#3 0#1 0#3 b 0#3 a 0#3 d 0x68#7
  unfold decode; rw [h0]; show decode68 _ = _
  simp only [decode68, h1, h2, h3, h4, h5, h6, h7, h8]; simp
theorem kaddi (i : BitVec 11) (d : KReg) (a : KReg) : Statement (.kaddi i d a) := by
  rintro _ _ ⟨⟩
  obtain ⟨h0, h1, h2, h3, h4, h5⟩ := parts_11_3_4_3_4_7 i 0#3 a 0#3 d 0x69#7
  unfold decode; rw [h0]; show decode69 _ = _
  simp only [decode69, h1, h2, h3, h4, h5]; simp
theorem kbeq (i : BitVec 11) (a : KReg) (b : KReg) : Statement (.kbeq i a b) := by
  rintro _ _ ⟨⟩
  obtain ⟨h0, h1, h2, h3, h4, h5⟩ := parts_11_3_4_3_4_7 i 0#3 b 0#3 a 0x6A#7
  unfold decode; rw [h0]; show decode6A _ = _
  simp only [decode6A, h1, h2, h3, h4, h5]; simp
theorem kbne (i : BitVec 11) (a : KReg) (b : KReg) : Statement (.kbne i a b) := by
  rintro _ _ ⟨⟩
  obtain ⟨h0, h1, h2, h3, h4, h5⟩ := parts_11_3_4_3_4_7 i 0#3 b 0#3 a 0x6B#7
  unfold decode; rw [h0]; show decode6B _ = _
  simp only [decode6B, h1, h2, h3, h4, h5]; simp
theorem kloop (i : BitVec 11) (a : KReg) : Statement (.kloop i a) := by
  rintro _ _ ⟨⟩
  obtain ⟨h0, h1, h2, h3, h4⟩ := parts_11_7_3_4_7 i 0#7 0#3 a 0x6C#7
  unfold decode; rw [h0]; show decode6C _ = _
  simp only [decode6C, h1, h2, h3, h4]; simp
theorem kj (i : BitVec 18) : Statement (.kj i) := by
  rintro _ _ ⟨⟩
  obtain ⟨h0, h1, h2⟩ := parts_18_7_7 i 0#7 0x6D#7
  unfold decode; rw [h0]; show decode6D _ = _
  simp only [decode6D, h1, h2]; simp
theorem rowany (w : Bool) (d : KReg) (a : Reg) : Statement (.rowany w d a) := by
  rintro _ _ ⟨⟩
  obtain ⟨h0, h1, h2, h3, h4, h5, h6⟩ := parts_3_1_7_7_3_4_7 0#3 (BitVec.ofBool w) 0#7 a 0#3 d 0x6E#7
  unfold decode; rw [h0]; show decode6E _ = _
  simp only [decode6E, h1, h2, h3, h4, flag_eq h5, h6]; simp
theorem rowall (w : Bool) (d : KReg) (a : Reg) : Statement (.rowall w d a) := by
  rintro _ _ ⟨⟩
  obtain ⟨h0, h1, h2, h3, h4, h5, h6⟩ := parts_3_1_7_7_3_4_7 1#3 (BitVec.ofBool w) 0#7 a 0#3 d 0x6E#7
  unfold decode; rw [h0]; show decode6E _ = _
  simp only [decode6E, h1, h2, h3, h4, flag_eq h5, h6]; simp
theorem csrr (c : BitVec 11) (d : Reg) : Statement (.csrr c d) := by
  rintro _ _ ⟨⟩
  obtain ⟨h0, h1, h2, h3⟩ := parts_11_7_7_7 c 0#7 d 0x70#7
  unfold decode; rw [h0]; show decode70 _ = _
  simp only [decode70, h1, h2, h3]; simp
theorem csrrw (c : BitVec 11) (d : Reg) (a : Reg) : Statement (.csrrw c d a) := by
  rintro _ _ ⟨⟩
  obtain ⟨h0, h1, h2, h3⟩ := parts_11_7_7_7 c a d 0x71#7
  unfold decode; rw [h0]; show decode71 _ = _
  simp only [decode71, h1, h2, h3]
theorem csrs (c : BitVec 11) (d : Reg) (a : Reg) : Statement (.csrs c d a) := by
  rintro _ _ ⟨⟩
  obtain ⟨h0, h1, h2, h3⟩ := parts_11_7_7_7 c a d 0x72#7
  unfold decode; rw [h0]; show decode72 _ = _
  simp only [decode72, h1, h2, h3]
theorem csrc (c : BitVec 11) (d : Reg) (a : Reg) : Statement (.csrc c d a) := by
  rintro _ _ ⟨⟩
  obtain ⟨h0, h1, h2, h3⟩ := parts_11_7_7_7 c a d 0x73#7
  unfold decode; rw [h0]; show decode73 _ = _
  simp only [decode73, h1, h2, h3]
theorem tlbiVa (w : Bool) (a : Reg) : Statement (.tlbiVa w a) := by
  rintro _ _ ⟨⟩
  obtain ⟨h0, h1, h2, h3, h4, h5⟩ := parts_3_1_7_7_7_7 0#3 (BitVec.ofBool w) 0#7 a 0#7 0x75#7
  unfold decode; rw [h0]; show decode75 _ = _
  simp only [decode75, h1, h2, h3, flag_eq h4, h5]; simp
theorem tlbiS2 (w : Bool) (a : Reg) (b : Reg) : Statement (.tlbiS2 w a b) := by
  rintro _ _ ⟨⟩
  obtain ⟨h0, h1, h2, h3, h4, h5⟩ := parts_3_1_7_7_7_7 2#3 (BitVec.ofBool w) b a 0#7 0x75#7
  unfold decode; rw [h0]; show decode75 _ = _
  simp only [decode75, h1, h2, h3, flag_eq h4, h5]; simp
theorem dline (w : Bool) (d : Reg) (a : Reg) (b : Reg) : Statement (.dline w d a b) := by
  rintro _ _ ⟨⟩
  obtain ⟨h0, h1, h2, h3, h4, h5⟩ := parts_3_1_7_7_7_7 0#3 (BitVec.ofBool w) b a d 0x76#7
  unfold decode; rw [h0]; show decode76 _ = _
  simp only [decode76, h1, h2, h3, flag_eq h4, h5]; simp
theorem prog (w : Bool) (a : Reg) : Statement (.prog w a) := by
  rintro _ _ ⟨⟩
  obtain ⟨h0, h1, h2, h3, h4, h5⟩ := parts_3_1_7_7_7_7 1#3 (BitVec.ofBool w) 0#7 a 0#7 0x76#7
  unfold decode; rw [h0]; show decode76 _ = _
  simp only [decode76, h1, h2, h3, flag_eq h4, h5]; simp
theorem pwrHint (w : Bool) (a : Reg) : Statement (.pwrHint w a) := by
  rintro _ _ ⟨⟩
  obtain ⟨h0, h1, h2, h3, h4, h5⟩ := parts_3_1_7_7_7_7 0#3 (BitVec.ofBool w) 0#7 a 0#7 0x77#7
  unfold decode; rw [h0]; show decode77 _ = _
  simp only [decode77, h1, h2, h3, flag_eq h4, h5]; simp
theorem rep (c : Bool) (x : BitVec 2) (y : BitVec 2) (z : BitVec 2) (n : Reg) : Statement (.rep c x y z n) := by
  rintro _ _ ⟨⟩
  obtain ⟨h0, h1, h2, h3, h4, h5, h6, h7⟩ := parts_10_1_1_2_2_2_7_7 0#10 (BitVec.ofBool c) 0#1 x y z n 0x7F#7
  unfold decode; rw [h0]; show decode7F _ = _
  simp only [decode7F, h1, h2, h3, h4, h5, flag_eq h6, h7]; simp
theorem repOs (c : Bool) (x : BitVec 2) (y : BitVec 2) (z : BitVec 2) (n : Reg) : Statement (.repOs c x y z n) := by
  rintro _ _ ⟨⟩
  obtain ⟨h0, h1, h2, h3, h4, h5, h6, h7⟩ := parts_10_1_1_2_2_2_7_7 0#10 (BitVec.ofBool c) 1#1 x y z n 0x7F#7
  unfold decode; rw [h0]; show decode7F _ = _
  simp only [decode7F, h1, h2, h3, h4, h5, flag_eq h6, h7]; simp
theorem fenceCore : Statement .fenceCore := by
  rintro _ _ ⟨⟩; rfl
theorem fenceDie : Statement .fenceDie := by
  rintro _ _ ⟨⟩; rfl
theorem fencePkg : Statement .fencePkg := by
  rintro _ _ ⟨⟩; rfl
theorem fenceDom : Statement .fenceDom := by
  rintro _ _ ⟨⟩; rfl
theorem vectorStep : Statement .vectorStep := nofun
theorem sfuAccept : Statement .sfuAccept := nofun
theorem streamPop : Statement .streamPop := nofun
theorem streamPush : Statement .streamPush := nofun
theorem matrixEngineSchedule : Statement .matrixEngineSchedule := nofun
theorem mmaGroup : Statement .mmaGroup := nofun
theorem latchRowArrive : Statement .latchRowArrive := nofun
theorem matrixCommandComplete : Statement .matrixCommandComplete := nofun
theorem copyUnitTransfer : Statement .copyUnitTransfer := nofun
theorem copyCommandComplete : Statement .copyCommandComplete := nofun
theorem subscriptionTileLand : Statement .subscriptionTileLand := nofun
theorem subscriptionPullBack : Statement .subscriptionPullBack := nofun
theorem cfence : Statement .cfence := by
  rintro _ _ ⟨⟩; rfl
theorem quit : Statement .quit := by
  rintro _ _ ⟨⟩; rfl
theorem yield : Statement .yield := by
  rintro _ _ ⟨⟩; rfl
theorem parkWake : Statement .parkWake := nofun
theorem parkTimeout : Statement .parkTimeout := nofun
theorem heldAnswer : Statement .heldAnswer := nofun
theorem rend : Statement .rend := by
  rintro _ _ ⟨⟩; rfl
theorem streamBeat : Statement .streamBeat := nofun
theorem segmentComplete : Statement .segmentComplete := nofun
theorem ecall : Statement .ecall := by
  rintro _ _ ⟨⟩; rfl
theorem brk : Statement .brk := by
  rintro _ _ ⟨⟩; rfl
theorem tret : Statement .tret := by
  rintro _ _ ⟨⟩; rfl
theorem tlbiVmid : Statement .tlbiVmid := by
  rintro _ _ ⟨⟩; rfl
theorem tlbiAll : Statement .tlbiAll := by
  rintro _ _ ⟨⟩; rfl
theorem tlbiComplete : Statement .tlbiComplete := nofun
theorem barrelCycle : Statement .barrelCycle := nofun
theorem resultReturn : Statement .resultReturn := nofun
theorem storeDrain : Statement .storeDrain := nofun
theorem dutyMet : Statement .dutyMet := nofun
theorem sliceRequest : Statement .sliceRequest := nofun
theorem pageCheckFill : Statement .pageCheckFill := nofun
theorem stage1Walk : Statement .stage1Walk := nofun
theorem fringHeadWrite : Statement .fringHeadWrite := nofun
theorem resolveReplay : Statement .resolveReplay := nofun
theorem resolveFail : Statement .resolveFail := nofun
theorem arrivalDeliver : Statement .arrivalDeliver := nofun
theorem arrivalQueuePlace : Statement .arrivalQueuePlace := nofun
theorem timebaseTickDue : Statement .timebaseTickDue := nofun
theorem tickUnitSend : Statement .tickUnitSend := nofun
theorem sliceTickApply : Statement .sliceTickApply := nofun
theorem tickAck : Statement .tickAck := nofun
theorem scrubberRefresh : Statement .scrubberRefresh := nofun
theorem trailEnable : Statement .trailEnable := nofun
theorem trailEnableComplete : Statement .trailEnableComplete := nofun
theorem trailDisable : Statement .trailDisable := nofun
theorem regStore : Statement .regStore := nofun
theorem registrationComplete : Statement .registrationComplete := nofun
theorem unregStore : Statement .unregStore := nofun
theorem handleRelease : Statement .handleRelease := nofun
theorem launchStore : Statement .launchStore := nofun
theorem launchEligible : Statement .launchEligible := nofun
theorem nodeStart : Statement .nodeStart := nofun
theorem initialThreadDeliver : Statement .initialThreadDeliver := nofun
theorem copyNodeComplete : Statement .copyNodeComplete := nofun
theorem nodeComplete : Statement .nodeComplete := nofun
theorem tsigAccept : Statement .tsigAccept := nofun
theorem launchFinish : Statement .launchFinish := nofun
theorem preempt : Statement .preempt := nofun
theorem savedContextRestore : Statement .savedContextRestore := nofun
theorem governorEvaluate : Statement .governorEvaluate := nofun
theorem powerSlowCheck : Statement .powerSlowCheck := nofun
theorem powerFastWindow : Statement .powerFastWindow := nofun
theorem thermalRead : Statement .thermalRead := nofun
theorem energyChargeApply : Statement .energyChargeApply := nofun
theorem pset : Statement .pset := nofun
theorem padd : Statement .padd := nofun
theorem telemetrySample : Statement .telemetrySample := nofun
theorem transferRow : Statement .transferRow := nofun
theorem transferSlice : Statement .transferSlice := nofun
theorem transferChannel : Statement .transferChannel := nofun
theorem transferEngine : Statement .transferEngine := nofun
theorem transferComplete : Statement .transferComplete := nofun
theorem vaultGenerate : Statement .vaultGenerate := nofun
theorem vaultDestroy : Statement .vaultDestroy := nofun
theorem keyDestroyComplete : Statement .keyDestroyComplete := nofun
theorem hostTlbiVa : Statement .hostTlbiVa := nofun
theorem hostTlbiVmid : Statement .hostTlbiVmid := nofun
theorem hostTlbiS2 : Statement .hostTlbiS2 := nofun
theorem hostTlbiAll : Statement .hostTlbiAll := nofun
theorem counterSelectWrite : Statement .counterSelectWrite := nofun
theorem rateLimitAdmit : Statement .rateLimitAdmit := nofun
theorem fwUpdate : Statement .fwUpdate := nofun
theorem fwSwitch : Statement .fwSwitch := nofun
theorem fwReady : Statement .fwReady := nofun
theorem fwSwitchTimeout : Statement .fwSwitchTimeout := nofun
theorem attestationReport : Statement .attestationReport := nofun
theorem fwCommandComplete : Statement .fwCommandComplete := nofun
theorem powerOn : Statement .powerOn := nofun
theorem hostMemoryAccess : Statement .hostMemoryAccess := nofun
theorem remoteRequest : Statement .remoteRequest := nofun
theorem linkFailure : Statement .linkFailure := nofun
theorem peerRestore : Statement .peerRestore := nofun
theorem hostLinkRetrain : Statement .hostLinkRetrain := nofun
theorem frameArrive : Statement .frameArrive := nofun
theorem trailheadFrameDeliver : Statement .trailheadFrameDeliver := nofun
theorem flowEnable : Statement .flowEnable := nofun
theorem debugFreeze : Statement .debugFreeze := nofun
theorem debugThaw : Statement .debugThaw := nofun
theorem debugWindowAccess : Statement .debugWindowAccess := nofun
theorem uncorrectableError : Statement .uncorrectableError := nofun
theorem correctedError : Statement .correctedError := nofun
theorem rowRemap : Statement .rowRemap := nofun
theorem registerWrite : Statement .registerWrite := nofun
theorem ptpClockStep : Statement .ptpClockStep := nofun
theorem parkEarlyComplete : Statement .parkEarlyComplete := nofun
theorem peerPortLinkChange : Statement .peerPortLinkChange := nofun
theorem remoteFaultResolved : Statement .remoteFaultResolved := nofun

end RoundTrip

end Sys2Proof.Laws
end

