-- ==== Sys2Proof/Laws/Encoding.lean ====
section
/-! SUPPORT. A word that decodes is the word of its instruction: the parts of a word put together, and one lemma per major opcode. -/

namespace Sys2Proof.Laws

/-- Two neighbouring fields are one field. -/
theorem joined {lo n m : Nat} (v : W32) : (bits (lo + m) n v ++ bits lo m v) = bits lo (n + m) v := by
  unfold bits; exact BitVec.extractLsb'_append_extractLsb'_eq_extractLsb' (by omega)

theorem whole (v : W32) : bits 0 32 v = v := by unfold bits; simp

theorem bit_eq {lo : Nat} (v : W32) : BitVec.ofBool (flag lo v) = bits lo 1 v := by
  unfold flag bits; generalize v.extractLsb' lo 1 = x; revert x; decide

theorem joined_3_1_7_7_7_7 (v : W32) : (bits 29 3 v ++ bits 28 1 v ++ bits 21 7 v ++ bits 14 7 v ++ bits 7 7 v ++ bits 0 7 v : W32) = v :=
  (((congrArg (· ++ bits 0 7 v) ((congrArg (· ++ bits 7 7 v) ((congrArg (· ++ bits 14 7 v) ((congrArg (· ++ bits 21 7 v) (joined (lo := 28) (n := 3) (m := 1) v)).trans (joined (lo := 21) (n := 4) (m := 7) v))).trans (joined (lo := 14) (n := 11) (m := 7) v))).trans (joined (lo := 7) (n := 18) (m := 7) v))).trans (joined (lo := 0) (n := 25) (m := 7) v))).trans (whole v)

theorem joined_11_7_7_7 (v : W32) : (bits 21 11 v ++ bits 14 7 v ++ bits 7 7 v ++ bits 0 7 v : W32) = v :=
  (((congrArg (· ++ bits 0 7 v) ((congrArg (· ++ bits 7 7 v) (joined (lo := 14) (n := 11) (m := 7) v)).trans (joined (lo := 7) (n := 18) (m := 7) v))).trans (joined (lo := 0) (n := 25) (m := 7) v))).trans (whole v)

theorem joined_5_6_7_7_7 (v : W32) : (bits 27 5 v ++ bits 21 6 v ++ bits 14 7 v ++ bits 7 7 v ++ bits 0 7 v : W32) = v :=
  (((congrArg (· ++ bits 0 7 v) ((congrArg (· ++ bits 7 7 v) ((congrArg (· ++ bits 14 7 v) (joined (lo := 21) (n := 5) (m := 6) v)).trans (joined (lo := 14) (n := 11) (m := 7) v))).trans (joined (lo := 7) (n := 18) (m := 7) v))).trans (joined (lo := 0) (n := 25) (m := 7) v))).trans (whole v)

theorem joined_18_7_7 (v : W32) : (bits 14 18 v ++ bits 7 7 v ++ bits 0 7 v : W32) = v :=
  (((congrArg (· ++ bits 0 7 v) (joined (lo := 7) (n := 18) (m := 7) v)).trans (joined (lo := 0) (n := 25) (m := 7) v))).trans (whole v)

theorem joined_8_3_7_7_7 (v : W32) : (bits 24 8 v ++ bits 21 3 v ++ bits 14 7 v ++ bits 7 7 v ++ bits 0 7 v : W32) = v :=
  (((congrArg (· ++ bits 0 7 v) ((congrArg (· ++ bits 7 7 v) ((congrArg (· ++ bits 14 7 v) (joined (lo := 21) (n := 8) (m := 3) v)).trans (joined (lo := 14) (n := 11) (m := 7) v))).trans (joined (lo := 7) (n := 18) (m := 7) v))).trans (joined (lo := 0) (n := 25) (m := 7) v))).trans (whole v)

theorem joined_8_1_2_7_7_7 (v : W32) : (bits 24 8 v ++ bits 23 1 v ++ bits 21 2 v ++ bits 14 7 v ++ bits 7 7 v ++ bits 0 7 v : W32) = v :=
  (((congrArg (· ++ bits 0 7 v) ((congrArg (· ++ bits 7 7 v) ((congrArg (· ++ bits 14 7 v) ((congrArg (· ++ bits 21 2 v) (joined (lo := 23) (n := 8) (m := 1) v)).trans (joined (lo := 21) (n := 9) (m := 2) v))).trans (joined (lo := 14) (n := 11) (m := 7) v))).trans (joined (lo := 7) (n := 18) (m := 7) v))).trans (joined (lo := 0) (n := 25) (m := 7) v))).trans (whole v)

theorem joined_8_2_1_7_7_7 (v : W32) : (bits 24 8 v ++ bits 22 2 v ++ bits 21 1 v ++ bits 14 7 v ++ bits 7 7 v ++ bits 0 7 v : W32) = v :=
  (((congrArg (· ++ bits 0 7 v) ((congrArg (· ++ bits 7 7 v) ((congrArg (· ++ bits 14 7 v) ((congrArg (· ++ bits 21 1 v) (joined (lo := 22) (n := 8) (m := 2) v)).trans (joined (lo := 21) (n := 10) (m := 1) v))).trans (joined (lo := 14) (n := 11) (m := 7) v))).trans (joined (lo := 7) (n := 18) (m := 7) v))).trans (joined (lo := 0) (n := 25) (m := 7) v))).trans (whole v)

theorem joined_1_2_1_7_7_7_7 (v : W32) : (bits 31 1 v ++ bits 29 2 v ++ bits 28 1 v ++ bits 21 7 v ++ bits 14 7 v ++ bits 7 7 v ++ bits 0 7 v : W32) = v :=
  (((congrArg (· ++ bits 0 7 v) ((congrArg (· ++ bits 7 7 v) ((congrArg (· ++ bits 14 7 v) ((congrArg (· ++ bits 21 7 v) ((congrArg (· ++ bits 28 1 v) (joined (lo := 29) (n := 1) (m := 2) v)).trans (joined (lo := 28) (n := 3) (m := 1) v))).trans (joined (lo := 21) (n := 4) (m := 7) v))).trans (joined (lo := 14) (n := 11) (m := 7) v))).trans (joined (lo := 7) (n := 18) (m := 7) v))).trans (joined (lo := 0) (n := 25) (m := 7) v))).trans (whole v)

theorem joined_3_1_7_7_1_1_1_4_7 (v : W32) : (bits 29 3 v ++ bits 28 1 v ++ bits 21 7 v ++ bits 14 7 v ++ bits 13 1 v ++ bits 12 1 v ++ bits 11 1 v ++ bits 7 4 v ++ bits 0 7 v : W32) = v :=
  (((congrArg (· ++ bits 0 7 v) ((congrArg (· ++ bits 7 4 v) ((congrArg (· ++ bits 11 1 v) ((congrArg (· ++ bits 12 1 v) ((congrArg (· ++ bits 13 1 v) ((congrArg (· ++ bits 14 7 v) ((congrArg (· ++ bits 21 7 v) (joined (lo := 28) (n := 3) (m := 1) v)).trans (joined (lo := 21) (n := 4) (m := 7) v))).trans (joined (lo := 14) (n := 11) (m := 7) v))).trans (joined (lo := 13) (n := 18) (m := 1) v))).trans (joined (lo := 12) (n := 19) (m := 1) v))).trans (joined (lo := 11) (n := 20) (m := 1) v))).trans (joined (lo := 7) (n := 21) (m := 4) v))).trans (joined (lo := 0) (n := 25) (m := 7) v))).trans (whole v)

theorem joined_3_1_7_7_3_1_1_2_7 (v : W32) : (bits 29 3 v ++ bits 28 1 v ++ bits 21 7 v ++ bits 14 7 v ++ bits 11 3 v ++ bits 10 1 v ++ bits 9 1 v ++ bits 7 2 v ++ bits 0 7 v : W32) = v :=
  (((congrArg (· ++ bits 0 7 v) ((congrArg (· ++ bits 7 2 v) ((congrArg (· ++ bits 9 1 v) ((congrArg (· ++ bits 10 1 v) ((congrArg (· ++ bits 11 3 v) ((congrArg (· ++ bits 14 7 v) ((congrArg (· ++ bits 21 7 v) (joined (lo := 28) (n := 3) (m := 1) v)).trans (joined (lo := 21) (n := 4) (m := 7) v))).trans (joined (lo := 14) (n := 11) (m := 7) v))).trans (joined (lo := 11) (n := 18) (m := 3) v))).trans (joined (lo := 10) (n := 21) (m := 1) v))).trans (joined (lo := 9) (n := 22) (m := 1) v))).trans (joined (lo := 7) (n := 23) (m := 2) v))).trans (joined (lo := 0) (n := 25) (m := 7) v))).trans (whole v)

theorem joined_3_1_3_4_3_4_3_4_7 (v : W32) : (bits 29 3 v ++ bits 28 1 v ++ bits 25 3 v ++ bits 21 4 v ++ bits 18 3 v ++ bits 14 4 v ++ bits 11 3 v ++ bits 7 4 v ++ bits 0 7 v : W32) = v :=
  (((congrArg (· ++ bits 0 7 v) ((congrArg (· ++ bits 7 4 v) ((congrArg (· ++ bits 11 3 v) ((congrArg (· ++ bits 14 4 v) ((congrArg (· ++ bits 18 3 v) ((congrArg (· ++ bits 21 4 v) ((congrArg (· ++ bits 25 3 v) (joined (lo := 28) (n := 3) (m := 1) v)).trans (joined (lo := 25) (n := 4) (m := 3) v))).trans (joined (lo := 21) (n := 7) (m := 4) v))).trans (joined (lo := 18) (n := 11) (m := 3) v))).trans (joined (lo := 14) (n := 14) (m := 4) v))).trans (joined (lo := 11) (n := 18) (m := 3) v))).trans (joined (lo := 7) (n := 21) (m := 4) v))).trans (joined (lo := 0) (n := 25) (m := 7) v))).trans (whole v)

theorem joined_11_3_4_3_4_7 (v : W32) : (bits 21 11 v ++ bits 18 3 v ++ bits 14 4 v ++ bits 11 3 v ++ bits 7 4 v ++ bits 0 7 v : W32) = v :=
  (((congrArg (· ++ bits 0 7 v) ((congrArg (· ++ bits 7 4 v) ((congrArg (· ++ bits 11 3 v) ((congrArg (· ++ bits 14 4 v) (joined (lo := 18) (n := 11) (m := 3) v)).trans (joined (lo := 14) (n := 14) (m := 4) v))).trans (joined (lo := 11) (n := 18) (m := 3) v))).trans (joined (lo := 7) (n := 21) (m := 4) v))).trans (joined (lo := 0) (n := 25) (m := 7) v))).trans (whole v)

theorem joined_11_7_3_4_7 (v : W32) : (bits 21 11 v ++ bits 14 7 v ++ bits 11 3 v ++ bits 7 4 v ++ bits 0 7 v : W32) = v :=
  (((congrArg (· ++ bits 0 7 v) ((congrArg (· ++ bits 7 4 v) ((congrArg (· ++ bits 11 3 v) (joined (lo := 14) (n := 11) (m := 7) v)).trans (joined (lo := 11) (n := 18) (m := 3) v))).trans (joined (lo := 7) (n := 21) (m := 4) v))).trans (joined (lo := 0) (n := 25) (m := 7) v))).trans (whole v)

theorem joined_3_1_7_7_3_4_7 (v : W32) : (bits 29 3 v ++ bits 28 1 v ++ bits 21 7 v ++ bits 14 7 v ++ bits 11 3 v ++ bits 7 4 v ++ bits 0 7 v : W32) = v :=
  (((congrArg (· ++ bits 0 7 v) ((congrArg (· ++ bits 7 4 v) ((congrArg (· ++ bits 11 3 v) ((congrArg (· ++ bits 14 7 v) ((congrArg (· ++ bits 21 7 v) (joined (lo := 28) (n := 3) (m := 1) v)).trans (joined (lo := 21) (n := 4) (m := 7) v))).trans (joined (lo := 14) (n := 11) (m := 7) v))).trans (joined (lo := 11) (n := 18) (m := 3) v))).trans (joined (lo := 7) (n := 21) (m := 4) v))).trans (joined (lo := 0) (n := 25) (m := 7) v))).trans (whole v)

theorem joined_10_1_1_2_2_2_7_7 (v : W32) : (bits 22 10 v ++ bits 21 1 v ++ bits 20 1 v ++ bits 18 2 v ++ bits 16 2 v ++ bits 14 2 v ++ bits 7 7 v ++ bits 0 7 v : W32) = v :=
  (((congrArg (· ++ bits 0 7 v) ((congrArg (· ++ bits 7 7 v) ((congrArg (· ++ bits 14 2 v) ((congrArg (· ++ bits 16 2 v) ((congrArg (· ++ bits 18 2 v) ((congrArg (· ++ bits 20 1 v) (joined (lo := 21) (n := 10) (m := 1) v)).trans (joined (lo := 20) (n := 11) (m := 1) v))).trans (joined (lo := 18) (n := 12) (m := 2) v))).trans (joined (lo := 16) (n := 14) (m := 2) v))).trans (joined (lo := 14) (n := 16) (m := 2) v))).trans (joined (lo := 7) (n := 18) (m := 7) v))).trans (joined (lo := 0) (n := 25) (m := 7) v))).trans (whole v)

theorem decode00_encode {v : W32} {i : Instr} (h0 : bits 0 7 v = 0x00#7) (h : decode00 v = some i) : encode i = some v := by
  unfold decode00 at h
  repeat' split at h
  all_goals cases h
  all_goals refine congrArg some ?_
  all_goals (refine Eq.trans ?_ (joined_3_1_7_7_7_7 v); simp_all [bit_eq])

theorem decode01_encode {v : W32} {i : Instr} (h0 : bits 0 7 v = 0x01#7) (h : decode01 v = some i) : encode i = some v := by
  unfold decode01 at h
  repeat' split at h
  all_goals cases h
  all_goals refine congrArg some ?_
  all_goals (refine Eq.trans ?_ (joined_3_1_7_7_7_7 v); simp_all [bit_eq])

theorem decode02_encode {v : W32} {i : Instr} (h0 : bits 0 7 v = 0x02#7) (h : decode02 v = some i) : encode i = some v := by
  unfold decode02 at h
  repeat' split at h
  all_goals cases h
  all_goals refine congrArg some ?_
  all_goals (refine Eq.trans ?_ (joined_3_1_7_7_7_7 v); simp_all [bit_eq])

theorem decode03_encode {v : W32} {i : Instr} (h0 : bits 0 7 v = 0x03#7) (h : decode03 v = some i) : encode i = some v := by
  unfold decode03 at h
  repeat' split at h
  all_goals cases h
  all_goals refine congrArg some ?_
  all_goals (refine Eq.trans ?_ (joined_3_1_7_7_7_7 v); simp_all [bit_eq])

theorem decode04_encode {v : W32} {i : Instr} (h0 : bits 0 7 v = 0x04#7) (h : decode04 v = some i) : encode i = some v := by
  unfold decode04 at h
  cases h
  refine congrArg some ?_
  (refine Eq.trans ?_ (joined_11_7_7_7 v); simp_all)

theorem decode05_encode {v : W32} {i : Instr} (h0 : bits 0 7 v = 0x05#7) (h : decode05 v = some i) : encode i = some v := by
  unfold decode05 at h
  cases h
  refine congrArg some ?_
  (refine Eq.trans ?_ (joined_11_7_7_7 v); simp_all)

theorem decode06_encode {v : W32} {i : Instr} (h0 : bits 0 7 v = 0x06#7) (h : decode06 v = some i) : encode i = some v := by
  unfold decode06 at h
  cases h
  refine congrArg some ?_
  (refine Eq.trans ?_ (joined_11_7_7_7 v); simp_all)

theorem decode07_encode {v : W32} {i : Instr} (h0 : bits 0 7 v = 0x07#7) (h : decode07 v = some i) : encode i = some v := by
  unfold decode07 at h
  cases h
  refine congrArg some ?_
  (refine Eq.trans ?_ (joined_11_7_7_7 v); simp_all)

theorem decode08_encode {v : W32} {i : Instr} (h0 : bits 0 7 v = 0x08#7) (h : decode08 v = some i) : encode i = some v := by
  unfold decode08 at h
  repeat' split at h
  all_goals cases h
  all_goals refine congrArg some ?_
  all_goals (refine Eq.trans ?_ (joined_5_6_7_7_7 v); simp_all)

theorem decode09_encode {v : W32} {i : Instr} (h0 : bits 0 7 v = 0x09#7) (h : decode09 v = some i) : encode i = some v := by
  unfold decode09 at h
  repeat' split at h
  all_goals cases h
  all_goals refine congrArg some ?_
  all_goals (refine Eq.trans ?_ (joined_5_6_7_7_7 v); simp_all)

theorem decode0A_encode {v : W32} {i : Instr} (h0 : bits 0 7 v = 0x0A#7) (h : decode0A v = some i) : encode i = some v := by
  unfold decode0A at h
  repeat' split at h
  all_goals cases h
  all_goals refine congrArg some ?_
  all_goals (refine Eq.trans ?_ (joined_5_6_7_7_7 v); simp_all)

theorem decode0B_encode {v : W32} {i : Instr} (h0 : bits 0 7 v = 0x0B#7) (h : decode0B v = some i) : encode i = some v := by
  unfold decode0B at h
  cases h
  refine congrArg some ?_
  (refine Eq.trans ?_ (joined_11_7_7_7 v); simp_all)

theorem decode0C_encode {v : W32} {i : Instr} (h0 : bits 0 7 v = 0x0C#7) (h : decode0C v = some i) : encode i = some v := by
  unfold decode0C at h
  cases h
  refine congrArg some ?_
  (refine Eq.trans ?_ (joined_11_7_7_7 v); simp_all)

theorem decode0D_encode {v : W32} {i : Instr} (h0 : bits 0 7 v = 0x0D#7) (h : decode0D v = some i) : encode i = some v := by
  unfold decode0D at h
  cases h
  refine congrArg some ?_
  (refine Eq.trans ?_ (joined_18_7_7 v); simp_all)

theorem decode0E_encode {v : W32} {i : Instr} (h0 : bits 0 7 v = 0x0E#7) (h : decode0E v = some i) : encode i = some v := by
  unfold decode0E at h
  cases h
  refine congrArg some ?_
  (refine Eq.trans ?_ (joined_18_7_7 v); simp_all)

theorem decode10_encode {v : W32} {i : Instr} (h0 : bits 0 7 v = 0x10#7) (h : decode10 v = some i) : encode i = some v := by
  unfold decode10 at h
  repeat' split at h
  all_goals cases h
  all_goals refine congrArg some ?_
  all_goals (refine Eq.trans ?_ (joined_8_3_7_7_7 v); simp_all)

theorem decode11_encode {v : W32} {i : Instr} (h0 : bits 0 7 v = 0x11#7) (h : decode11 v = some i) : encode i = some v := by
  unfold decode11 at h
  repeat' split at h
  all_goals cases h
  all_goals refine congrArg some ?_
  all_goals (refine Eq.trans ?_ (joined_8_3_7_7_7 v); simp_all)

theorem decode12_encode {v : W32} {i : Instr} (h0 : bits 0 7 v = 0x12#7) (h : decode12 v = some i) : encode i = some v := by
  unfold decode12 at h
  repeat' split at h
  all_goals cases h
  all_goals refine congrArg some ?_
  all_goals (refine Eq.trans ?_ (joined_8_1_2_7_7_7 v); simp_all)

theorem decode13_encode {v : W32} {i : Instr} (h0 : bits 0 7 v = 0x13#7) (h : decode13 v = some i) : encode i = some v := by
  unfold decode13 at h
  repeat' split at h
  all_goals cases h
  all_goals refine congrArg some ?_
  all_goals (refine Eq.trans ?_ (joined_8_3_7_7_7 v); simp_all)

theorem decode14_encode {v : W32} {i : Instr} (h0 : bits 0 7 v = 0x14#7) (h : decode14 v = some i) : encode i = some v := by
  unfold decode14 at h
  repeat' split at h
  all_goals cases h
  all_goals refine congrArg some ?_
  all_goals (refine Eq.trans ?_ (joined_8_1_2_7_7_7 v); simp_all)

theorem decode18_encode {v : W32} {i : Instr} (h0 : bits 0 7 v = 0x18#7) (h : decode18 v = some i) : encode i = some v := by
  unfold decode18 at h
  cases h
  refine congrArg some ?_
  (refine Eq.trans ?_ (joined_11_7_7_7 v); simp_all)

theorem decode19_encode {v : W32} {i : Instr} (h0 : bits 0 7 v = 0x19#7) (h : decode19 v = some i) : encode i = some v := by
  unfold decode19 at h
  cases h
  refine congrArg some ?_
  (refine Eq.trans ?_ (joined_11_7_7_7 v); simp_all)

theorem decode1A_encode {v : W32} {i : Instr} (h0 : bits 0 7 v = 0x1A#7) (h : decode1A v = some i) : encode i = some v := by
  unfold decode1A at h
  cases h
  refine congrArg some ?_
  (refine Eq.trans ?_ (joined_11_7_7_7 v); simp_all)

theorem decode1B_encode {v : W32} {i : Instr} (h0 : bits 0 7 v = 0x1B#7) (h : decode1B v = some i) : encode i = some v := by
  unfold decode1B at h
  cases h
  refine congrArg some ?_
  (refine Eq.trans ?_ (joined_11_7_7_7 v); simp_all)

theorem decode1C_encode {v : W32} {i : Instr} (h0 : bits 0 7 v = 0x1C#7) (h : decode1C v = some i) : encode i = some v := by
  unfold decode1C at h
  cases h
  refine congrArg some ?_
  (refine Eq.trans ?_ (joined_11_7_7_7 v); simp_all)

theorem decode1D_encode {v : W32} {i : Instr} (h0 : bits 0 7 v = 0x1D#7) (h : decode1D v = some i) : encode i = some v := by
  unfold decode1D at h
  cases h
  refine congrArg some ?_
  (refine Eq.trans ?_ (joined_11_7_7_7 v); simp_all)

theorem decode1E_encode {v : W32} {i : Instr} (h0 : bits 0 7 v = 0x1E#7) (h : decode1E v = some i) : encode i = some v := by
  unfold decode1E at h
  cases h
  refine congrArg some ?_
  (refine Eq.trans ?_ (joined_18_7_7 v); simp_all)

theorem decode1F_encode {v : W32} {i : Instr} (h0 : bits 0 7 v = 0x1F#7) (h : decode1F v = some i) : encode i = some v := by
  unfold decode1F at h
  cases h
  refine congrArg some ?_
  (refine Eq.trans ?_ (joined_11_7_7_7 v); simp_all)

theorem decode20_encode {v : W32} {i : Instr} (h0 : bits 0 7 v = 0x20#7) (h : decode20 v = some i) : encode i = some v := by
  unfold decode20 at h
  cases h
  refine congrArg some ?_
  (refine Eq.trans ?_ (joined_8_2_1_7_7_7 v); simp_all [bit_eq])

theorem decode21_encode {v : W32} {i : Instr} (h0 : bits 0 7 v = 0x21#7) (h : decode21 v = some i) : encode i = some v := by
  unfold decode21 at h
  cases h
  refine congrArg some ?_
  (refine Eq.trans ?_ (joined_8_2_1_7_7_7 v); simp_all [bit_eq])

theorem decode22_encode {v : W32} {i : Instr} (h0 : bits 0 7 v = 0x22#7) (h : decode22 v = some i) : encode i = some v := by
  unfold decode22 at h
  repeat' split at h
  all_goals cases h
  all_goals refine congrArg some ?_
  all_goals (refine Eq.trans ?_ (joined_3_1_7_7_7_7 v); simp_all [bit_eq])

theorem decode23_encode {v : W32} {i : Instr} (h0 : bits 0 7 v = 0x23#7) (h : decode23 v = some i) : encode i = some v := by
  unfold decode23 at h
  repeat' split at h
  all_goals cases h
  all_goals refine congrArg some ?_
  all_goals (refine Eq.trans ?_ (joined_3_1_7_7_7_7 v); simp_all [bit_eq])

theorem decode24_encode {v : W32} {i : Instr} (h0 : bits 0 7 v = 0x24#7) (h : decode24 v = some i) : encode i = some v := by
  unfold decode24 at h
  repeat' split at h
  all_goals cases h
  all_goals refine congrArg some ?_
  all_goals (refine Eq.trans ?_ (joined_3_1_7_7_7_7 v); simp_all [bit_eq])

theorem decode25_encode {v : W32} {i : Instr} (h0 : bits 0 7 v = 0x25#7) (h : decode25 v = some i) : encode i = some v := by
  unfold decode25 at h
  repeat' split at h
  all_goals cases h
  all_goals refine congrArg some ?_
  all_goals (refine Eq.trans ?_ (joined_3_1_7_7_7_7 v); simp_all [bit_eq])

theorem decode26_encode {v : W32} {i : Instr} (h0 : bits 0 7 v = 0x26#7) (h : decode26 v = some i) : encode i = some v := by
  unfold decode26 at h
  repeat' split at h
  all_goals cases h
  all_goals refine congrArg some ?_
  all_goals (refine Eq.trans ?_ (joined_3_1_7_7_7_7 v); simp_all [bit_eq])

theorem decode27_encode {v : W32} {i : Instr} (h0 : bits 0 7 v = 0x27#7) (h : decode27 v = some i) : encode i = some v := by
  unfold decode27 at h
  repeat' split at h
  all_goals cases h
  all_goals refine congrArg some ?_
  all_goals (refine Eq.trans ?_ (joined_3_1_7_7_7_7 v); simp_all [bit_eq])

theorem decode28_encode {v : W32} {i : Instr} (h0 : bits 0 7 v = 0x28#7) (h : decode28 v = some i) : encode i = some v := by
  unfold decode28 at h
  repeat' split at h
  all_goals cases h
  all_goals refine congrArg some ?_
  all_goals (refine Eq.trans ?_ (joined_3_1_7_7_7_7 v); simp_all [bit_eq])

theorem decode29_encode {v : W32} {i : Instr} (h0 : bits 0 7 v = 0x29#7) (h : decode29 v = some i) : encode i = some v := by
  unfold decode29 at h
  repeat' split at h
  all_goals cases h
  all_goals refine congrArg some ?_
  all_goals (refine Eq.trans ?_ (joined_3_1_7_7_7_7 v); simp_all [bit_eq])

theorem decode2A_encode {v : W32} {i : Instr} (h0 : bits 0 7 v = 0x2A#7) (h : decode2A v = some i) : encode i = some v := by
  unfold decode2A at h
  repeat' split at h
  all_goals cases h
  all_goals refine congrArg some ?_
  all_goals (refine Eq.trans ?_ (joined_3_1_7_7_7_7 v); simp_all [bit_eq])

theorem decode2B_encode {v : W32} {i : Instr} (h0 : bits 0 7 v = 0x2B#7) (h : decode2B v = some i) : encode i = some v := by
  unfold decode2B at h
  repeat' split at h
  all_goals cases h
  all_goals refine congrArg some ?_
  all_goals (refine Eq.trans ?_ (joined_3_1_7_7_7_7 v); simp_all [bit_eq])

theorem decode2C_encode {v : W32} {i : Instr} (h0 : bits 0 7 v = 0x2C#7) (h : decode2C v = some i) : encode i = some v := by
  unfold decode2C at h
  repeat' split at h
  all_goals cases h
  all_goals refine congrArg some ?_
  all_goals (refine Eq.trans ?_ (joined_3_1_7_7_7_7 v); simp_all)

theorem decode2D_encode {v : W32} {i : Instr} (h0 : bits 0 7 v = 0x2D#7) (h : decode2D v = some i) : encode i = some v := by
  unfold decode2D at h
  repeat' split at h
  all_goals cases h
  all_goals refine congrArg some ?_
  all_goals (refine Eq.trans ?_ (joined_3_1_7_7_7_7 v); simp_all [bit_eq])

theorem decode2E_encode {v : W32} {i : Instr} (h0 : bits 0 7 v = 0x2E#7) (h : decode2E v = some i) : encode i = some v := by
  unfold decode2E at h
  repeat' split at h
  all_goals cases h
  all_goals refine congrArg some ?_
  all_goals (refine Eq.trans ?_ (joined_3_1_7_7_7_7 v); simp_all [bit_eq])

theorem decode30_encode {v : W32} {i : Instr} (h0 : bits 0 7 v = 0x30#7) (h : decode30 v = some i) : encode i = some v := by
  unfold decode30 at h
  cases h
  refine congrArg some ?_
  (refine Eq.trans ?_ (joined_1_2_1_7_7_7_7 v); simp_all [bit_eq])

theorem decode31_encode {v : W32} {i : Instr} (h0 : bits 0 7 v = 0x31#7) (h : decode31 v = some i) : encode i = some v := by
  unfold decode31 at h
  cases h
  refine congrArg some ?_
  (refine Eq.trans ?_ (joined_1_2_1_7_7_7_7 v); simp_all [bit_eq])

theorem decode32_encode {v : W32} {i : Instr} (h0 : bits 0 7 v = 0x32#7) (h : decode32 v = some i) : encode i = some v := by
  unfold decode32 at h
  cases h
  refine congrArg some ?_
  (refine Eq.trans ?_ (joined_1_2_1_7_7_7_7 v); simp_all [bit_eq])

theorem decode33_encode {v : W32} {i : Instr} (h0 : bits 0 7 v = 0x33#7) (h : decode33 v = some i) : encode i = some v := by
  unfold decode33 at h
  cases h
  refine congrArg some ?_
  (refine Eq.trans ?_ (joined_1_2_1_7_7_7_7 v); simp_all [bit_eq])

theorem decode34_encode {v : W32} {i : Instr} (h0 : bits 0 7 v = 0x34#7) (h : decode34 v = some i) : encode i = some v := by
  unfold decode34 at h
  cases h
  refine congrArg some ?_
  (refine Eq.trans ?_ (joined_1_2_1_7_7_7_7 v); simp_all [bit_eq])

theorem decode35_encode {v : W32} {i : Instr} (h0 : bits 0 7 v = 0x35#7) (h : decode35 v = some i) : encode i = some v := by
  unfold decode35 at h
  cases h
  refine congrArg some ?_
  (refine Eq.trans ?_ (joined_1_2_1_7_7_7_7 v); simp_all [bit_eq])

theorem decode36_encode {v : W32} {i : Instr} (h0 : bits 0 7 v = 0x36#7) (h : decode36 v = some i) : encode i = some v := by
  unfold decode36 at h
  repeat' split at h
  all_goals cases h
  all_goals refine congrArg some ?_
  all_goals (refine Eq.trans ?_ (joined_1_2_1_7_7_7_7 v); simp_all [bit_eq])

theorem decode37_encode {v : W32} {i : Instr} (h0 : bits 0 7 v = 0x37#7) (h : decode37 v = some i) : encode i = some v := by
  unfold decode37 at h
  repeat' split at h
  all_goals cases h
  all_goals refine congrArg some ?_
  all_goals (refine Eq.trans ?_ (joined_3_1_7_7_7_7 v); simp_all [bit_eq])

theorem decode38_encode {v : W32} {i : Instr} (h0 : bits 0 7 v = 0x38#7) (h : decode38 v = some i) : encode i = some v := by
  unfold decode38 at h
  repeat' split at h
  all_goals cases h
  all_goals refine congrArg some ?_
  all_goals (refine Eq.trans ?_ (joined_3_1_7_7_7_7 v); simp_all [bit_eq])

theorem decode39_encode {v : W32} {i : Instr} (h0 : bits 0 7 v = 0x39#7) (h : decode39 v = some i) : encode i = some v := by
  unfold decode39 at h
  repeat' split at h
  all_goals cases h
  all_goals refine congrArg some ?_
  all_goals (refine Eq.trans ?_ (joined_1_2_1_7_7_7_7 v); simp_all [bit_eq])

theorem decode3A_encode {v : W32} {i : Instr} (h0 : bits 0 7 v = 0x3A#7) (h : decode3A v = some i) : encode i = some v := by
  unfold decode3A at h
  repeat' split at h
  all_goals cases h
  all_goals refine congrArg some ?_
  all_goals (refine Eq.trans ?_ (joined_1_2_1_7_7_7_7 v); simp_all [bit_eq])

theorem decode3B_encode {v : W32} {i : Instr} (h0 : bits 0 7 v = 0x3B#7) (h : decode3B v = some i) : encode i = some v := by
  unfold decode3B at h
  repeat' split at h
  all_goals cases h
  all_goals refine congrArg some ?_
  all_goals (refine Eq.trans ?_ (joined_1_2_1_7_7_7_7 v); simp_all [bit_eq])

theorem decode3C_encode {v : W32} {i : Instr} (h0 : bits 0 7 v = 0x3C#7) (h : decode3C v = some i) : encode i = some v := by
  unfold decode3C at h
  repeat' split at h
  all_goals cases h
  all_goals refine congrArg some ?_
  all_goals (refine Eq.trans ?_ (joined_1_2_1_7_7_7_7 v); simp_all [bit_eq])

theorem decode3D_encode {v : W32} {i : Instr} (h0 : bits 0 7 v = 0x3D#7) (h : decode3D v = some i) : encode i = some v := by
  unfold decode3D at h
  repeat' split at h
  all_goals cases h
  all_goals refine congrArg some ?_
  all_goals (refine Eq.trans ?_ (joined_1_2_1_7_7_7_7 v); simp_all [bit_eq])

theorem decode3E_encode {v : W32} {i : Instr} (h0 : bits 0 7 v = 0x3E#7) (h : decode3E v = some i) : encode i = some v := by
  unfold decode3E at h
  repeat' split at h
  all_goals cases h
  all_goals refine congrArg some ?_
  all_goals (refine Eq.trans ?_ (joined_1_2_1_7_7_7_7 v); simp_all [bit_eq])

theorem decode40_encode {v : W32} {i : Instr} (h0 : bits 0 7 v = 0x40#7) (h : decode40 v = some i) : encode i = some v := by
  unfold decode40 at h
  cases h
  refine congrArg some ?_
  (refine Eq.trans ?_ (joined_1_2_1_7_7_7_7 v); simp_all [bit_eq])

theorem decode41_encode {v : W32} {i : Instr} (h0 : bits 0 7 v = 0x41#7) (h : decode41 v = some i) : encode i = some v := by
  unfold decode41 at h
  cases h
  refine congrArg some ?_
  (refine Eq.trans ?_ (joined_1_2_1_7_7_7_7 v); simp_all [bit_eq])

theorem decode42_encode {v : W32} {i : Instr} (h0 : bits 0 7 v = 0x42#7) (h : decode42 v = some i) : encode i = some v := by
  unfold decode42 at h
  cases h
  refine congrArg some ?_
  (refine Eq.trans ?_ (joined_1_2_1_7_7_7_7 v); simp_all [bit_eq])

theorem decode43_encode {v : W32} {i : Instr} (h0 : bits 0 7 v = 0x43#7) (h : decode43 v = some i) : encode i = some v := by
  unfold decode43 at h
  cases h
  refine congrArg some ?_
  (refine Eq.trans ?_ (joined_1_2_1_7_7_7_7 v); simp_all [bit_eq])

theorem decode44_encode {v : W32} {i : Instr} (h0 : bits 0 7 v = 0x44#7) (h : decode44 v = some i) : encode i = some v := by
  unfold decode44 at h
  repeat' split at h
  all_goals cases h
  all_goals refine congrArg some ?_
  all_goals (refine Eq.trans ?_ (joined_3_1_7_7_7_7 v); simp_all [bit_eq])

theorem decode45_encode {v : W32} {i : Instr} (h0 : bits 0 7 v = 0x45#7) (h : decode45 v = some i) : encode i = some v := by
  unfold decode45 at h
  repeat' split at h
  all_goals cases h
  all_goals refine congrArg some ?_
  all_goals (refine Eq.trans ?_ (joined_3_1_7_7_7_7 v); simp_all [bit_eq])

theorem decode46_encode {v : W32} {i : Instr} (h0 : bits 0 7 v = 0x46#7) (h : decode46 v = some i) : encode i = some v := by
  unfold decode46 at h
  repeat' split at h
  all_goals cases h
  all_goals refine congrArg some ?_
  all_goals (refine Eq.trans ?_ (joined_3_1_7_7_7_7 v); simp_all [bit_eq])

theorem decode47_encode {v : W32} {i : Instr} (h0 : bits 0 7 v = 0x47#7) (h : decode47 v = some i) : encode i = some v := by
  unfold decode47 at h
  repeat' split at h
  all_goals cases h
  all_goals refine congrArg some ?_
  all_goals (refine Eq.trans ?_ (joined_3_1_7_7_7_7 v); simp_all [bit_eq])

theorem decode48_encode {v : W32} {i : Instr} (h0 : bits 0 7 v = 0x48#7) (h : decode48 v = some i) : encode i = some v := by
  unfold decode48 at h
  repeat' split at h
  all_goals cases h
  all_goals refine congrArg some ?_
  all_goals (refine Eq.trans ?_ (joined_3_1_7_7_7_7 v); simp_all [bit_eq])

theorem decode50_encode {v : W32} {i : Instr} (h0 : bits 0 7 v = 0x50#7) (h : decode50 v = some i) : encode i = some v := by
  unfold decode50 at h
  repeat' split at h
  all_goals cases h
  all_goals refine congrArg some ?_
  all_goals (refine Eq.trans ?_ (joined_3_1_7_7_1_1_1_4_7 v); simp_all [bit_eq])

theorem decode51_encode {v : W32} {i : Instr} (h0 : bits 0 7 v = 0x51#7) (h : decode51 v = some i) : encode i = some v := by
  unfold decode51 at h
  repeat' split at h
  all_goals cases h
  all_goals refine congrArg some ?_
  all_goals (refine Eq.trans ?_ (joined_3_1_7_7_1_1_1_4_7 v); simp_all [bit_eq])

theorem decode52_encode {v : W32} {i : Instr} (h0 : bits 0 7 v = 0x52#7) (h : decode52 v = some i) : encode i = some v := by
  unfold decode52 at h
  repeat' split at h
  all_goals cases h
  all_goals refine congrArg some ?_
  all_goals (refine Eq.trans ?_ (joined_3_1_7_7_7_7 v); simp_all [bit_eq])

theorem decode53_encode {v : W32} {i : Instr} (h0 : bits 0 7 v = 0x53#7) (h : decode53 v = some i) : encode i = some v := by
  unfold decode53 at h
  repeat' split at h
  all_goals cases h
  all_goals refine congrArg some ?_
  all_goals (refine Eq.trans ?_ (joined_3_1_7_7_3_1_1_2_7 v); simp_all [bit_eq])

theorem decode54_encode {v : W32} {i : Instr} (h0 : bits 0 7 v = 0x54#7) (h : decode54 v = some i) : encode i = some v := by
  unfold decode54 at h
  repeat' split at h
  all_goals cases h
  all_goals refine congrArg some ?_
  all_goals (refine Eq.trans ?_ (joined_3_1_7_7_7_7 v); simp_all [bit_eq])

theorem decode60_encode {v : W32} {i : Instr} (h0 : bits 0 7 v = 0x60#7) (h : decode60 v = some i) : encode i = some v := by
  unfold decode60 at h
  repeat' split at h
  all_goals cases h
  all_goals refine congrArg some ?_
  all_goals (refine Eq.trans ?_ (joined_3_1_7_7_7_7 v); simp_all [bit_eq])

theorem decode61_encode {v : W32} {i : Instr} (h0 : bits 0 7 v = 0x61#7) (h : decode61 v = some i) : encode i = some v := by
  unfold decode61 at h
  repeat' split at h
  all_goals cases h
  all_goals refine congrArg some ?_
  all_goals (refine Eq.trans ?_ (joined_3_1_7_7_7_7 v); simp_all [bit_eq])

theorem decode62_encode {v : W32} {i : Instr} (h0 : bits 0 7 v = 0x62#7) (h : decode62 v = some i) : encode i = some v := by
  unfold decode62 at h
  repeat' split at h
  all_goals cases h
  all_goals refine congrArg some ?_
  all_goals (refine Eq.trans ?_ (joined_3_1_7_7_7_7 v); simp_all [bit_eq])

theorem decode63_encode {v : W32} {i : Instr} (h0 : bits 0 7 v = 0x63#7) (h : decode63 v = some i) : encode i = some v := by
  unfold decode63 at h
  repeat' split at h
  all_goals cases h
  all_goals refine congrArg some ?_
  all_goals (refine Eq.trans ?_ (joined_3_1_7_7_7_7 v); simp_all [bit_eq])

theorem decode68_encode {v : W32} {i : Instr} (h0 : bits 0 7 v = 0x68#7) (h : decode68 v = some i) : encode i = some v := by
  unfold decode68 at h
  repeat' split at h
  all_goals cases h
  all_goals refine congrArg some ?_
  all_goals (refine Eq.trans ?_ (joined_3_1_3_4_3_4_3_4_7 v); simp_all)

theorem decode69_encode {v : W32} {i : Instr} (h0 : bits 0 7 v = 0x69#7) (h : decode69 v = some i) : encode i = some v := by
  unfold decode69 at h
  repeat' split at h
  all_goals cases h
  all_goals refine congrArg some ?_
  all_goals (refine Eq.trans ?_ (joined_11_3_4_3_4_7 v); simp_all)

theorem decode6A_encode {v : W32} {i : Instr} (h0 : bits 0 7 v = 0x6A#7) (h : decode6A v = some i) : encode i = some v := by
  unfold decode6A at h
  repeat' split at h
  all_goals cases h
  all_goals refine congrArg some ?_
  all_goals (refine Eq.trans ?_ (joined_11_3_4_3_4_7 v); simp_all)

theorem decode6B_encode {v : W32} {i : Instr} (h0 : bits 0 7 v = 0x6B#7) (h : decode6B v = some i) : encode i = some v := by
  unfold decode6B at h
  repeat' split at h
  all_goals cases h
  all_goals refine congrArg some ?_
  all_goals (refine Eq.trans ?_ (joined_11_3_4_3_4_7 v); simp_all)

theorem decode6C_encode {v : W32} {i : Instr} (h0 : bits 0 7 v = 0x6C#7) (h : decode6C v = some i) : encode i = some v := by
  unfold decode6C at h
  repeat' split at h
  all_goals cases h
  all_goals refine congrArg some ?_
  all_goals (refine Eq.trans ?_ (joined_11_7_3_4_7 v); simp_all)

theorem decode6D_encode {v : W32} {i : Instr} (h0 : bits 0 7 v = 0x6D#7) (h : decode6D v = some i) : encode i = some v := by
  unfold decode6D at h
  repeat' split at h
  all_goals cases h
  all_goals refine congrArg some ?_
  all_goals (refine Eq.trans ?_ (joined_18_7_7 v); simp_all)

theorem decode6E_encode {v : W32} {i : Instr} (h0 : bits 0 7 v = 0x6E#7) (h : decode6E v = some i) : encode i = some v := by
  unfold decode6E at h
  repeat' split at h
  all_goals cases h
  all_goals refine congrArg some ?_
  all_goals (refine Eq.trans ?_ (joined_3_1_7_7_3_4_7 v); simp_all [bit_eq])

theorem decode6F_encode {v : W32} {i : Instr} (h0 : bits 0 7 v = 0x6F#7) (h : decode6F v = some i) : encode i = some v := by
  unfold decode6F at h
  repeat' split at h
  all_goals cases h
  all_goals refine congrArg some ?_
  all_goals (refine Eq.trans ?_ (joined_3_1_7_7_7_7 v); simp_all)

theorem decode70_encode {v : W32} {i : Instr} (h0 : bits 0 7 v = 0x70#7) (h : decode70 v = some i) : encode i = some v := by
  unfold decode70 at h
  repeat' split at h
  all_goals cases h
  all_goals refine congrArg some ?_
  all_goals (refine Eq.trans ?_ (joined_11_7_7_7 v); simp_all)

theorem decode71_encode {v : W32} {i : Instr} (h0 : bits 0 7 v = 0x71#7) (h : decode71 v = some i) : encode i = some v := by
  unfold decode71 at h
  cases h
  refine congrArg some ?_
  (refine Eq.trans ?_ (joined_11_7_7_7 v); simp_all)

theorem decode72_encode {v : W32} {i : Instr} (h0 : bits 0 7 v = 0x72#7) (h : decode72 v = some i) : encode i = some v := by
  unfold decode72 at h
  cases h
  refine congrArg some ?_
  (refine Eq.trans ?_ (joined_11_7_7_7 v); simp_all)

theorem decode73_encode {v : W32} {i : Instr} (h0 : bits 0 7 v = 0x73#7) (h : decode73 v = some i) : encode i = some v := by
  unfold decode73 at h
  cases h
  refine congrArg some ?_
  (refine Eq.trans ?_ (joined_11_7_7_7 v); simp_all)

theorem decode74_encode {v : W32} {i : Instr} (h0 : bits 0 7 v = 0x74#7) (h : decode74 v = some i) : encode i = some v := by
  unfold decode74 at h
  repeat' split at h
  all_goals cases h
  all_goals refine congrArg some ?_
  all_goals (refine Eq.trans ?_ (joined_3_1_7_7_7_7 v); simp_all)

theorem decode75_encode {v : W32} {i : Instr} (h0 : bits 0 7 v = 0x75#7) (h : decode75 v = some i) : encode i = some v := by
  unfold decode75 at h
  repeat' split at h
  all_goals cases h
  all_goals refine congrArg some ?_
  all_goals (refine Eq.trans ?_ (joined_3_1_7_7_7_7 v); simp_all [bit_eq])

theorem decode76_encode {v : W32} {i : Instr} (h0 : bits 0 7 v = 0x76#7) (h : decode76 v = some i) : encode i = some v := by
  unfold decode76 at h
  repeat' split at h
  all_goals cases h
  all_goals refine congrArg some ?_
  all_goals (refine Eq.trans ?_ (joined_3_1_7_7_7_7 v); simp_all [bit_eq])

theorem decode77_encode {v : W32} {i : Instr} (h0 : bits 0 7 v = 0x77#7) (h : decode77 v = some i) : encode i = some v := by
  unfold decode77 at h
  repeat' split at h
  all_goals cases h
  all_goals refine congrArg some ?_
  all_goals (refine Eq.trans ?_ (joined_3_1_7_7_7_7 v); simp_all [bit_eq])

theorem decode7F_encode {v : W32} {i : Instr} (h0 : bits 0 7 v = 0x7F#7) (h : decode7F v = some i) : encode i = some v := by
  unfold decode7F at h
  repeat' split at h
  all_goals cases h
  all_goals refine congrArg some ?_
  all_goals (refine Eq.trans ?_ (joined_10_1_1_2_2_2_7_7 v); simp_all [bit_eq])

end Sys2Proof.Laws
end

