-- ==== Sys2Proof/Laws/Slices.lean ====
section
/-! SUPPORT. What counting, charging and the slices' lines change: token counts and counters of tenants, the lines, the free values, and
nothing else; and they do not turn on the cores. -/

namespace Sys2Proof.Machine

theorem OnlyCounts.refl (s : State) : OnlyCounts s s := rfl

theorem OnlyCounts.trans {s t u : State} (h : OnlyCounts s t) (g : OnlyCounts t u) : OnlyCounts s u := by
  unfold OnlyCounts at *; rw [g, h]

theorem OnlyCounts.put {s t : State} (h : OnlyCounts s t) (n : Nat) (k : Core) : OnlyCounts (setCore s n k) (setCore t n k) := by
  unfold OnlyCounts at *; rw [h]; rfl

theorem countEvent_rest (s : State) (t ev u n : Nat) : countEvent s t ev u n = { s with tenants := (countEvent s t ev u n).tenants } := by
  unfold countEvent; dsimp only; split <;> rfl

theorem countEvent_cores (s : State) (cs : AMap Core) (t ev u n : Nat) :
    countEvent { s with cores := cs } t ev u n = { countEvent s t ev u n with cores := cs } := by
  unfold countEvent getTenant; dsimp only; split <;> rfl

theorem spend_rest (s : State) (t ch n : Nat) : spend s t ch n = { s with tenants := (spend s t ch n).tenants } := by
  unfold spend; dsimp only; split <;> rfl

theorem spend_cores (s : State) (cs : AMap Core) (t ch n : Nat) : spend { s with cores := cs } t ch n = { spend s t ch n with cores := cs } := by
  unfold spend getTenant tokensNow getTenant; dsimp only; split <;> rfl

/-- A tenant without a limit is charged nothing (R344). -/
theorem spend_unlimited {s : State} {t : Nat} (h : (getTenant s t).rate = 0) (ch n : Nat) : spend s t ch n = s := by simp [spend, h]

/-- A tenant that selects no counter is counted nothing (R343). -/
theorem countEvent_none {s : State} {t : Nat} (h : (getTenant s t).counters = []) (ev u n : Nat) : countEvent s t ev u n = s := by
  simp [countEvent, h]

theorem writeBack_rest (s : State) (e : Nat × SliceLine) : writeBack s e = { s with tenants := (writeBack s e).tenants } := by
  unfold writeBack; dsimp only
  split
  · exact (countEvent_rest _ ..).trans (by rw [countEvent_rest s])
  · rfl

theorem writeBack_cores (s : State) (cs : AMap Core) (e : Nat × SliceLine) :
    writeBack { s with cores := cs } e = { writeBack s e with cores := cs } := by
  unfold writeBack; dsimp only
  split
  · exact (congrArg (fun v => countEvent v ((slotOfVmid s e.2.vmid).getD 0) 5 (e.1 / 2 ^ 25) 64) (countEvent_cores s cs ..)).trans (countEvent_cores _ cs ..)
  · rfl

theorem evictLine_rest (s : State) (e : Nat × SliceLine) : evictLine s e = { s with tenants := (evictLine s e).tenants } := by
  unfold evictLine; dsimp only
  split
  · exact (spend_rest _ ..).trans (by rw [writeBack_rest])
  · exact writeBack_rest s e

theorem evictLine_cores (s : State) (cs : AMap Core) (e : Nat × SliceLine) :
    evictLine { s with cores := cs } e = { evictLine s e with cores := cs } := by
  unfold evictLine; dsimp only
  rw [writeBack_cores s cs e]
  split
  · exact spend_cores (writeBack s e) cs ..
  · rfl

/-- A state that differs in tenants, lines and free values alone is given by its own. -/
theorem narrowed {s v : State} {a : AMap Tenant} {b : AMap SliceLine} {n : Nat} (h : v = { s with tenants := a, lines := b, free := n }) :
    v = { s with tenants := v.tenants, lines := v.lines, free := v.free } := by subst h; rfl

theorem allocLine_rest (s : State) (x : Nat) (ln : SliceLine) : allocLine s x ln =
    { s with tenants := (allocLine s x ln).tenants, lines := (allocLine s x ln).lines, free := (allocLine s x ln).free } := by
  unfold allocLine; dsimp only
  split
  · rfl
  · split
    · exact narrowed (b := amErase s.lines x) (n := s.free) (evictLine_rest { s with lines := amErase s.lines x } _)
    · dsimp only [takeFree]; rw [evictLine_rest { s with free := s.free + 1 }]

theorem allocLine_cores (s : State) (cs : AMap Core) (x : Nat) (ln : SliceLine) :
    allocLine { s with cores := cs } x ln = { allocLine s x ln with cores := cs } := by
  unfold allocLine
  rw [show setMates { s with cores := cs } ln.die x = setMates s ln.die x from rfl]
  dsimp only
  split
  · rfl
  · split
    · exact evictLine_cores { s with lines := amErase s.lines x } cs _
    · dsimp only [takeFree]; rw [evictLine_cores { s with free := s.free + 1 } cs]

theorem hitLine_rest (s : State) (die a : Nat) (p : Page) (w : Acc) (old : SliceLine) : hitLine s die a p w old =
    { s with tenants := (hitLine s die a p w old).tenants, lines := (hitLine s die a p w old).lines,
             free := (hitLine s die a p w old).free } := by
  unfold hitLine
  rw [countEvent_rest s]
  dsimp only
  split
  · rfl
  · exact narrowed (allocLine_rest _ ..)

theorem missLine_rest (pay : Bool) (s : State) (die a : Nat) (p : Page) (w : Acc) : missLine pay s die a p w =
    { s with tenants := (missLine pay s die a p w).tenants, lines := (missLine pay s die a p w).lines,
             free := (missLine pay s die a p w).free } := by
  unfold missLine
  dsimp only
  rw [countEvent_rest (countEvent s _ _ _ _), countEvent_rest s]
  split
  · rw [spend_rest]; exact narrowed (allocLine_rest _ ..)
  · exact narrowed (allocLine_rest _ ..)

theorem passLine_rest (pay : Bool) (s : State) (a : Nat) (p : Page) (w : Acc) (n : Nat) : passLine pay s a p w n =
    { s with tenants := (passLine pay s a p w n).tenants } := by
  unfold passLine
  dsimp only
  generalize hv : (if w = .write then s else countEvent s (pageSlot s p) 4 (a / 2 ^ 31) n) = v
  have h1 : v = { s with tenants := v.tenants } := by
    subst hv; split
    · rfl
    · exact countEvent_rest ..
  generalize hx : (if w.writes then countEvent v (pageSlot s p) 5 (a / 2 ^ 31) n else v) = x
  have h2 : x = { s with tenants := x.tenants } := by
    subst hx; split
    · exact (countEvent_rest v ..).trans (by rw [h1])
    · exact h1
  split
  · exact (spend_rest x ..).trans (by rw [h2])
  · exact h2

/-- An access that meets its slice changes token counts, counters, lines and free values (R343, R344, R370). -/
theorem touchLine_rest (pay : Bool) (s : State) (die : Nat) (l : Loc) (p : Page) (w : Acc) (n : Nat) : touchLine pay s die l p w n =
    { s with tenants := (touchLine pay s die l p w n).tenants, lines := (touchLine pay s die l p w n).lines,
             free := (touchLine pay s die l p w n).free } := by
  cases l with
  | hbm a =>
    unfold touchLine
    dsimp only
    generalize hu : (if w = .amo || w = .mark then countEvent s (pageSlot s p) 3 (sliceOf die (.hbm a)) 1 else s) = u
    have h : ∃ x, u = { s with tenants := x } := by
      subst hu; split
      · exact ⟨_, countEvent_rest ..⟩
      · exact ⟨s.tenants, rfl⟩
    obtain ⟨x, rfl⟩ := h
    split
    · split
      · exact narrowed (hitLine_rest _ ..)
      · exact narrowed (missLine_rest ..)
    · exact narrowed (b := s.lines) (n := s.free) (passLine_rest ..)
  | _ => rfl

/-! ## What counting leaves of a tenant: all but its token counts and counters -/

theorem countEvent_tenant (s : State) (t ev u n y : Nat) :
    ({ getTenant (countEvent s t ev u n) y with tokens := [], counters := [] } : Tenant) = { getTenant s y with tokens := [], counters := [] } := by
  unfold countEvent; dsimp only
  split
  · rw [getTenant_setTenant]
    split
    · rename_i h; subst h; rfl
    · rfl
  · rfl

theorem spend_tenant (s : State) (t c n y : Nat) :
    ({ getTenant (spend s t c n) y with tokens := [], counters := [] } : Tenant) = { getTenant s y with tokens := [], counters := [] } := by
  unfold spend; dsimp only
  split
  · rfl
  · rw [getTenant_setTenant]
    split
    · rename_i h; subst h; rfl
    · rfl

theorem writeBack_tenant (s : State) (e : Nat × SliceLine) (y : Nat) :
    ({ getTenant (writeBack s e) y with tokens := [], counters := [] } : Tenant) = { getTenant s y with tokens := [], counters := [] } := by
  unfold writeBack; dsimp only
  split
  · rw [countEvent_tenant, countEvent_tenant]
  · rfl

theorem evictLine_tenant (s : State) (e : Nat × SliceLine) (y : Nat) :
    ({ getTenant (evictLine s e) y with tokens := [], counters := [] } : Tenant) = { getTenant s y with tokens := [], counters := [] } := by
  unfold evictLine; dsimp only
  split
  · rw [spend_tenant, writeBack_tenant]
  · exact writeBack_tenant s e y

theorem allocLine_tenant (s : State) (x : Nat) (ln : SliceLine) (y : Nat) :
    ({ getTenant (allocLine s x ln) y with tokens := [], counters := [] } : Tenant) = { getTenant s y with tokens := [], counters := [] } := by
  unfold allocLine; dsimp only
  split
  · rfl
  · split
    · exact evictLine_tenant { s with lines := amErase s.lines x } _ y
    · dsimp only [takeFree]; exact evictLine_tenant { s with free := s.free + 1 } _ y

theorem passLine_tenant (pay : Bool) (s : State) (a : Nat) (p : Page) (w : Acc) (n y : Nat) :
    ({ getTenant (passLine pay s a p w n) y with tokens := [], counters := [] } : Tenant) = { getTenant s y with tokens := [], counters := [] } := by
  unfold passLine; dsimp only
  split <;> split <;> split <;> simp only [spend_tenant, countEvent_tenant]

theorem touchLine_tenant (pay : Bool) (s : State) (die : Nat) (l : Loc) (p : Page) (w : Acc) (n y : Nat) :
    ({ getTenant (touchLine pay s die l p w n) y with tokens := [], counters := [] } : Tenant) =
      { getTenant s y with tokens := [], counters := [] } := by
  cases l with
  | hbm a =>
    unfold touchLine
    dsimp only
    have h : ({ getTenant (if w = .amo || w = .mark then countEvent s (pageSlot s p) 3 (sliceOf die (.hbm a)) 1 else s) y with
        tokens := [], counters := [] } : Tenant) = { getTenant s y with tokens := [], counters := [] } := by
      split
      · exact countEvent_tenant ..
      · rfl
    rw [← h]
    generalize (if w = .amo || w = .mark then countEvent s (pageSlot s p) 3 (sliceOf die (.hbm a)) 1 else s) = u
    split
    · split
      · unfold hitLine; dsimp only
        split
        · exact countEvent_tenant ..
        · rw [allocLine_tenant, countEvent_tenant]
      · unfold missLine; dsimp only
        rw [allocLine_tenant]
        split
        · rw [spend_tenant, countEvent_tenant, countEvent_tenant]
        · rw [countEvent_tenant, countEvent_tenant]
    · exact passLine_tenant ..
  | _ => rfl

/-- `touch` changes token counts, counters, lines and free values. -/
theorem touch_rest (s : State) (die : Nat) (l : Loc) (p : Page) (w : Acc) (n : Nat) : touch s die l p w n =
    { s with tenants := (touch s die l p w n).tenants, lines := (touch s die l p w n).lines, free := (touch s die l p w n).free } :=
  touchLine_rest ..

theorem touch_counts (s : State) (die : Nat) (l : Loc) (p : Page) (w : Acc) (n : Nat) : OnlyCounts s (touch s die l p w n) := touch_rest ..

theorem hitLine_cores (s : State) (cs : AMap Core) (die a : Nat) (p : Page) (w : Acc) (old : SliceLine) :
    hitLine { s with cores := cs } die a p w old = { hitLine s die a p w old with cores := cs } := by
  unfold hitLine
  rw [show pageSlot { s with cores := cs } p = pageSlot s p from rfl, countEvent_cores s cs]
  generalize countEvent s _ _ _ _ = v
  dsimp only
  split
  · rfl
  · exact allocLine_cores v cs ..

theorem missLine_cores (pay : Bool) (s : State) (cs : AMap Core) (die a : Nat) (p : Page) (w : Acc) :
    missLine pay { s with cores := cs } die a p w = { missLine pay s die a p w with cores := cs } := by
  unfold missLine
  dsimp only
  rw [show pageSlot { s with cores := cs } p = pageSlot s p from rfl, countEvent_cores s cs]
  generalize countEvent s _ _ _ _ = v
  rw [countEvent_cores v cs]
  generalize countEvent v _ _ _ _ = x
  cases pay with
  | true => simp only [if_true]; rw [spend_cores x cs]; exact allocLine_cores _ cs ..
  | false => exact allocLine_cores x cs ..

theorem passLine_cores (pay : Bool) (s : State) (cs : AMap Core) (a : Nat) (p : Page) (w : Acc) (n : Nat) :
    passLine pay { s with cores := cs } a p w n = { passLine pay s a p w n with cores := cs } := by
  unfold passLine
  dsimp only
  rw [show pageSlot { s with cores := cs } p = pageSlot s p from rfl, countEvent_cores s cs]
  have h1 : ∀ v : State, (if w.writes then countEvent { v with cores := cs } (pageSlot s p) 5 (a / 2 ^ 31) n else { v with cores := cs }) =
      { (if w.writes then countEvent v (pageSlot s p) 5 (a / 2 ^ 31) n else v) with cores := cs } := by
    intro v; cases w.writes
    · rfl
    · exact countEvent_cores v cs ..
  have h2 : (if w = .write then { s with cores := cs } else { countEvent s (pageSlot s p) 4 (a / 2 ^ 31) n with cores := cs }) =
      { (if w = .write then s else countEvent s (pageSlot s p) 4 (a / 2 ^ 31) n) with cores := cs } := by split <;> rfl
  rw [h2, h1]
  cases pay
  · rfl
  · exact spend_cores _ cs ..

theorem touchLine_cores (pay : Bool) (s : State) (cs : AMap Core) (die : Nat) (l : Loc) (p : Page) (w : Acc) (n : Nat) :
    touchLine pay { s with cores := cs } die l p w n = { touchLine pay s die l p w n with cores := cs } := by
  cases l with
  | hbm a =>
    unfold touchLine
    dsimp only
    rw [show pageSlot { s with cores := cs } p = pageSlot s p from rfl, countEvent_cores s cs]
    have h : (if w = .amo || w = .mark then { countEvent s (pageSlot s p) 3 (sliceOf die (.hbm a)) 1 with cores := cs } else { s with cores := cs }) =
        { (if w = .amo || w = .mark then countEvent s (pageSlot s p) 3 (sliceOf die (.hbm a)) 1 else s) with cores := cs } := by split <;> rfl
    rw [h]
    generalize (if w = .amo || w = .mark then countEvent s (pageSlot s p) 3 (sliceOf die (.hbm a)) 1 else s) = u
    rw [show keepsCopy { u with cores := cs } die (.hbm a) p = keepsCopy u die (.hbm a) p from rfl]
    split
    · dsimp only
      split
      · exact hitLine_cores u cs ..
      · exact missLine_cores pay u cs ..
    · exact passLine_cores pay u cs ..
  | _ => rfl

theorem touch_cores (s : State) (cs : AMap Core) (die : Nat) (l : Loc) (p : Page) (w : Acc) (n : Nat) :
    touch { s with cores := cs } die l p w n = { touch s die l p w n with cores := cs } := touchLine_cores ..

/-- Nothing is counted, charged or kept of an access to an UNCACHED page whose tenant has no limit and selects no counter. -/
theorem touch_quiet {s : State} {p : Page} (hr : (getTenant s (pageSlot s p)).rate = 0) (hc : (getTenant s (pageSlot s p)).counters = [])
    (hp : p.home = .uncached) (die : Nat) (l : Loc) (w : Acc) (n : Nat) (pay : Bool) : touchLine pay s die l p w n = s := by
  cases l with
  | hbm a => simp [touchLine, passLine, keepsCopy, hp, countEvent_none hc, spend_unlimited hr]
  | _ => rfl

/-- The reads of a walk are counted and charged, and nothing else (R343, R344). -/
theorem chargeWalk_rest (s : State) (n : Nat) (a : Word) : chargeWalk s n a = { s with tenants := (chargeWalk s n a).tenants } := by
  unfold chargeWalk; dsimp only
  split
  · rfl
  · rename_i h
    clear h
    generalize walkCost s n a = l
    induction l generalizing s with
    | nil => rfl
    | cons x r ih => rw [List.foldl_cons]; exact (ih _).trans (by rw [spend_rest (countEvent _ _ _ _ _), countEvent_rest s])

theorem chargeWalk_cores (s : State) (cs : AMap Core) (n : Nat) (a : Word) :
    chargeWalk { s with cores := cs } n a = { chargeWalk s n a with cores := cs } := by
  unfold chargeWalk
  simp only [show getTenant { s with cores := cs } n = getTenant s n from rfl, show walkCost { s with cores := cs } n a = walkCost s n a from rfl]
  split
  · rfl
  · rename_i h
    clear h
    generalize walkCost s n a = l
    induction l generalizing s with
    | nil => rfl
    | cons x r ih => rw [List.foldl_cons, List.foldl_cons, countEvent_cores s cs, spend_cores (countEvent _ _ _ _ _) cs]; exact ih _

/-- Nothing is counted or charged of a walk of a tenant that has no limit and selects no counter. -/
theorem chargeWalk_quiet {s : State} {n : Nat} (hr : (getTenant s n).rate = 0) (hc : (getTenant s n).counters = []) (a : Word) :
    chargeWalk s n a = s := by simp [chargeWalk, hr, hc]

end Sys2Proof.Machine
end

