-- ==== Sys2Proof/Laws/Threads.lean ====
section
/-! SUPPORT. What thread, group and waiting words do once they may issue. -/

namespace Sys2Proof.Machine

variable {s t u : State} {c c' : Ctx} {o : Core} {d : Reg} {e : RegEntry} {i : Instr}

theorem Marked.src (hm : Marked s t) (r : Reg) : Machine.src t r = Machine.src s r := by
  unfold Machine.src
  rw [hm.curCtx]
  cases h : Machine.curCtx s with
  | none => rfl
  | some c => simp only [hm.portOf, hm.regEntry]

theorem Marked.placeVerdict (hm : Marked s t) (a : Word) : Machine.placeVerdict a t (Machine.my s) c = Machine.placeVerdict a s (Machine.my s) c := by
  unfold Machine.placeVerdict; rw [hm.me]

theorem Marked.placeCore (hm : Marked s t) (a : Word) : Machine.placeCore a t = Machine.placeCore a s := by
  unfold Machine.placeCore; rw [hm.curCtx]; cases h : Machine.curCtx s with
  | none => rfl
  | some c => simp only [hm.pageEntry, hm.me]

/-- A word that owes holds its context, and carries out what it owes if it may. -/
theorem owe_law {k : Use} {own : State → Core → Ctx → Verdict} {eff : State → State} {w : Owed} (hu : CanIssue s c k)
    (hi : exec i s = settle (check k own s) eff s) (hown : own s (my s) c = .go) (heff : ∀ m, Marked s m → eff m = owe w m) :
    ∃ t, Did s t c s (my s) 0 RegEntry.zero (heldBy s c (.owe w s.nextId)) ∧ exec i s = .next (tryOwed t (me s)) := by
  have hm := markIssued_marked s
  refine ⟨_, (Did.start hm hu.ctx).hold rfl (.owe w s.nextId), ?_⟩
  rw [hi, check_go hu, hown, settle_go hu.ctx hu.real, heff _ hm]
  unfold owe
  simp only [hm.nextId, hm.me]


/-! ## Fields, and the end of a context -/

theorem getField_modField (s : State) (t f : Nat) (g : Field → Field) : getField (modField s t f g) t f = g (getField s t f) := by
  simp [getField, modField, getTenant_modTenant, amGetD_amSet]
theorem getField_setCtx (s : State) (id t f : Nat) (c : Ctx) : getField (setCtx s id c) t f = getField s t f := rfl

/-- Whether a context may end does not turn on registers and contexts. -/
theorem mayEnd_eq {s t : State} {c c' : Ctx} (h : Did s t c s (my s) 0 RegEntry.zero c') (n : Nat) : mayEnd t (me s) n = mayEnd s (me s) n := by
  have h1 : t.reqs = s.reqs := h.field State.reqs (fun _ _ => rfl)
  have h2 : t.octets = s.octets := h.field State.octets (fun _ _ => rfl)
  have h3 : t.ports = s.ports := h.field State.ports (fun _ _ => rfl)
  have hk := h.my rfl
  have hk' : getCore t (coreOf (me s)) = { my s with rf := (my t).rf, ctxs := (my t).ctxs, rot := (my t).rot } := by
    have : my t = getCore t (coreOf (me s)) := by unfold my; rw [h.me rfl]
    rw [← this]; exact hk
  have h4 : t.dev = s.dev := h.field State.dev (fun _ _ => rfl)
  unfold mayEnd nothingOwed noMatrix fenceMet owesBefore storesBefore storesOut leavesPackage
  rw [h1, h2, h3, h4, hk']; rfl

end Sys2Proof.Machine
end

