-- ==== Sys2Proof/Laws/System.lean ====
section
/-! SUPPORT. What stream bindings, sequencer words, control-register words, trap words, invalidations and step words do. -/

namespace Sys2Proof.Machine

variable {s t u : State} {c c' : Ctx} {o : Core} {d : Reg} {e : RegEntry} {i : Instr}

theorem Marked.curWord (hm : Marked s t) : Machine.curWord t = Machine.curWord s := by unfold Machine.curWord; rw [hm.cur]

theorem Marked.getTenant (hm : Marked s t) (n : Nat) : Machine.getTenant t n = Machine.getTenant s n := by
  unfold Machine.getTenant; rw [show t.tenants = s.tenants by rw [hm.rest]]

theorem sbind_law {dir : Word} {w : Bool} {a : Reg} (hu : CanIssue s c { srcs := [a], dst := some d, w := w })
    (hv : bindVerdict d (val s c a) s (my s) c = .go) :
    ∃ t, sbind dir w d a s = .next t ∧
      Did s t c s (my s) d (filled (val s c a + dir)) (pastWord s.cur { c with smap := bindField c.smap d }) := by
  refine settle_law hu ?_ fun m hm h => ?_
  · rw [hu.src (.refl s) (by simp [Use.regs])]; exact hv
  · simp only [hu.src hm (show a ∈ _ by simp [Use.regs])]
    have h1 := h.write rfl d (val s c a + dir)
    rw [hm.me]
    exact (h1.ctx _).done rfl

theorem atSequencer_law {k : Nat} {g : Seg} {f : Seg → Seg} (hl : s.cur.lane = .sequencer k) (hg : getSeg s k = some g) :
    atSequencer f s = .next (setSeg s k (f g)) := by
  simp [atSequencer, hl, hg]

theorem putK_eq (g : Seg) (d : KReg) (v : Word) : putK g d v = { g with k := if d = 0 then g.k else amSet g.k d.toNat v } := by
  unfold putK; by_cases h : d = 0
  · simp [h]
  · have h' : ¬ d = 0#4 := h
    simp [h']

theorem Marked.csrValue (hm : Marked s t) (id n : Nat) : Machine.csrValue t id c n = Machine.csrValue s id c n := by
  have hcore : ∀ k, getCore t k = { getCore s k with rot := (getCore t k).rot } := hm.core
  have hd : Machine.csrDevice t id c n = Machine.csrDevice s id c n := by
    have hs : ∀ l, stepsOf t l = stepsOf s l := fun l => by unfold stepsOf; simp only [fun k => show (getCore t k).step = (getCore s k).step by rw [hcore k]]
    unfold Machine.csrDevice stepOf divOf predict stepCores
    rw [hcore (coreOf id), hm.getTenant, hs, show t.time = s.time by rw [hm.rest], show t.segs = s.segs by rw [hm.rest],
      show t.free = s.free by rw [hm.rest], show t.hottest = s.hottest by rw [hm.rest]]
  unfold Machine.csrValue
  rw [hd]

theorem csrPut_base (n : Nat) (v : Word) (y : Ctx) : (csrPut n v y).base = y.base := by
  unfold csrPut; simp only [apply_ite Ctx.base, ite_self]

theorem csr_law {f : CsrWrite} {n : BitVec 11} {a : Option Reg} {x old : Word}
    (hx : ∀ m, Marked s m → (match a with | some r => src m r | none => 0) = x) (hu : CanIssue s c { srcs := a.toList, dst := some d })
    (ho : csrValue s (me s) c n.toNat = some old) (hv : csrVerdict f n.toNat x s c = .go) :
    ∃ t, csr f n d a s = .next t ∧
      Did s t c (if n = 0x102 then { s with free := s.free + 16 } else s) (my s) d (filled old)
        (pastWord s.cur (if f.writes x
          then csrPut n.toNat (f.value n.toNat old x)
            (if n = 0x104 then { c with energyh := (getTenant s c.tslot).energy.extractLsb' 32 32 } else c)
          else if n = 0x104 then { c with energyh := (getTenant s c.tslot).energy.extractLsb' 32 32 } else c)) := by
  unfold csr
  extract_lets v
  have hsrc' : ∀ m, Marked s m → v m = x := hx
  refine settle_law hu ?_ fun m hm h => ?_
  · simp only [hsrc' _ (.refl s)]; exact hv
  · simp only [hm.curCtx, hu.ctx, hm.me, hm.csrValue, ho, Option.getD_some, hsrc' _ hm]
    have hbase : ∀ v, (csrPut n.toNat v c).base = c.base := fun v => csrPut_base _ _ _
    have hn : ∀ k : Nat, k < 2 ^ 11 → ((n.toNat = k) ↔ (n = BitVec.ofNat 11 k)) := by
      intro k hk
      constructor
      · intro h; rw [← h]; simp
      · intro h; rw [h]; simp; omega
    have h4 : (n.toNat = 0x104) ↔ (n = 0x104) := hn 0x104 (by decide)
    have h2 : (n.toNat = 0x102) ↔ (n = 0x102) := hn 0x102 (by decide)
    unfold csrReadEffect
    simp only [hm.curCtx, hu.ctx, h4, h2, hm.getTenant, hm.me]
    by_cases e4 : n = 0x104
    · have e2 : ¬ n = 0x102 := by rw [e4]; decide
      simp only [e4, if_true]
      have h1 := h.ctx fun x => { x with energyh := (getTenant s c.tslot).energy.extractLsb' 32 32 }
      split
      · have h3 := h1.ctx (csrPut (0x104 : BitVec 11).toNat (f.value (0x104 : BitVec 11).toNat old x))
        have hb : (csrPut (0x104 : BitVec 11).toNat (f.value (0x104 : BitVec 11).toNat old x) { c with energyh := (getTenant s c.tslot).energy.extractLsb' 32 32 }).base = c.base := by
          exact csrPut_base _ _ _
        rw [h1.me rfl, h3.me rfl]
        exact (h3.write hb d old).done rfl
      · rw [h1.me rfl]
        exact (h1.write rfl d old).done rfl
    · simp only [e4, if_false]
      by_cases e2 : n = 0x102
      · simp only [e2, if_true]
        have h1 := h.pkg (fun v => { v with free := v.free + 16 }) (fun _ _ => rfl)
        split
        · have h3 := h1.ctx (csrPut (0x102 : BitVec 11).toNat (f.value (0x102 : BitVec 11).toNat old x))
          have hb := hbase (f.value (0x102 : BitVec 11).toNat old x)
          rw [e2] at hb
          rw [h1.me rfl, h3.me rfl]
          exact (h3.write hb d old).done rfl
        · rw [h1.me rfl]
          exact (h1.write rfl d old).done rfl
      · simp only [e2, if_false]
        split
        · have h3 := h.ctx (csrPut n.toNat (f.value n.toNat old x))
          rw [hm.me, h3.me rfl]
          exact (h3.write (hbase _) d old).done rfl
        · rw [hm.me]
          exact (h.write rfl d old).done rfl

theorem tlbi_law {op : Nat} {vmid : State → Ctx → BitVec 16} {addr : State → Word} {srcs : List Reg} {w : Bool} {v : BitVec 16} {x : Word}
    (hu : CanIssue s c { srcs := srcs, w := w }) (hv : ∀ m, Marked s m → vmid { m with nextId := s.nextId + 1 } c = v)
    (ha : ∀ m, Marked s m → addr { m with nextId := s.nextId + 1 } = x) (hop : op < 2 ∨ c.tslot = 0) :
    ∃ t, tlbiWord op vmid addr srcs w s = .next t ∧
      Did s t c { s with nextId := s.nextId + 1, tlbis := s.tlbis ++
        [{ id := s.nextId, op := op, vmid := v, addr := x, ctx := some (me s), upto := s.nextId, sent := false }] } (my s) 0 RegEntry.zero
        (heldBy s c (.tlbi s.nextId)) := by
  refine settle_law hu ?_ fun m hm h => ?_
  · rcases hop with h | h
    · have : ¬ 2 ≤ op := by omega
      simp [this]
    · simp [h]
  · have hme : me { m with nextId := s.nextId + 1 } = me s := hm.me
    simp only [hm.curCtx, hu.ctx, takeId_eq, hm.nextId, ha m hm, hv m hm, hme]
    have h1 := fun t : Tlbi => h.pkg (fun v => { v with nextId := v.nextId + 1, tlbis := v.tlbis ++ [t] }) (fun _ _ => rfl)
    rw [hm.nextId] at h1
    exact (h1 _).hold rfl _

theorem tlbi_prot {op : Nat} {vmid : State → Ctx → BitVec 16} {addr : State → Word} {srcs : List Reg} {w : Bool}
    (hu : CanIssue s c { srcs := srcs, w := w }) (hh : HasHandler s c) (hi : exec i s = tlbiWord op vmid addr srcs w s) (hop : 2 ≤ op)
    (ht : c.tslot ≠ 0) : Traps s i c .prot (curWord s) := by
  refine check_trap hu hh ?_ hi
  simp [hop, ht]

/-! ## The header of a handler -/

theorem Marked.stage2 (hm : Marked s t) (x : Tenant) (g : Nat) : Machine.stage2 t x g = Machine.stage2 s x g := by rw [hm.rest]; rfl

theorem Marked.stage1 (hm : Marked s t) (x : Tenant) (va : Word) : Machine.stage1 t x va = Machine.stage1 s x va := by rw [hm.rest]; rfl

theorem Marked.ownPlace (hm : Marked s t) (n : Nat) (l : Loc) (w : Bool) : Machine.ownPlace t n l w = Machine.ownPlace s n l w := by
  rw [hm.rest]; rfl

theorem Marked.pageOf (hm : Marked s t) (x : Tenant) (va : Word) (l : Leaf) : Machine.pageOf t x va l = Machine.pageOf s x va l := by
  have h1 : ∀ k, coreExists t k = coreExists s k := fun k => by
    unfold coreExists getRow; rw [hm.core k, show t.rows = s.rows by rw [hm.rest]]
  have h2 : ∀ k, (getCore t k).win = (getCore s k).win := fun k => by rw [hm.core k]
  have h3 : ∀ d o, ownKey t x d o = ownKey s x d o := fun d o => by rw [hm.rest]; rfl
  have h4 : tablePages t x l = tablePages s x l := by rw [hm.rest]; rfl
  unfold Machine.pageOf; simp only [hm.stage2, h1, h2, h3, h4]

theorem Marked.readWide (hm : Marked s t) (l : Loc) (n : Nat) (f : List Byte) (p : Page) :
    Machine.readWide t l n f p = Machine.readWide s l n f p := by
  unfold Machine.readWide
  cases l with
  | window c o => simp only [spRead, windowBase]; rw [hm.core c]
  | _ => rw [hm.rest]; try rfl

theorem chargeWalk_same (s : State) (n : Nat) (a : Word) : (chargeWalk s n a).cores = s.cores :=
  show (chargeWalk { s with cores := s.cores } n a).cores = s.cores from by rw [chargeWalk_cores]

theorem Marked.chargeWalk (hm : Marked s t) (n : Nat) (a : Word) : Marked (Machine.chargeWalk s n a) (Machine.chargeWalk t n a) := by
  have h : Machine.chargeWalk t n a = { Machine.chargeWalk s n a with cores := t.cores } := by
    conv_lhs => rw [hm.rest]
    exact chargeWalk_cores s t.cores n a
  constructor
  · rw [h]
  · intro k
    have h1 : getCore (Machine.chargeWalk t n a) k = getCore t k := by unfold getCore; rw [h]
    have h2 : getCore (Machine.chargeWalk s n a) k = getCore s k := by unfold getCore; rw [chargeWalk_same]
    rw [h1, h2, hm.core k]

/-- A translation that does not ask for zeroing answers the same after the mark of the issue. -/
theorem Marked.translate {n : Nat} {a : Word} (hz : ∀ l, Machine.stage1 s (Machine.getTenant s n) a = .ok l → l.entry.getLsbD 54 = false)
    (hm : Marked s t) : (Machine.translate t n a).1 = (Machine.translate s n a).1 ∧ Marked (Machine.translate s n a).2 (Machine.translate t n a).2 := by
  have hc := hm.chargeWalk n a
  unfold Machine.translate
  simp only [hm.getTenant, hm.stage1]
  cases h1 : Machine.stage1 s (Machine.getTenant s n) a with
  | error e => exact ⟨rfl, hc⟩
  | ok l =>
    have hb : bit 54 l.entry = false := hz l h1
    unfold fromLeaf
    simp only [hc.getTenant, hc.pageOf, hb, Bool.false_eq_true, if_false]
    cases Machine.pageOf (Machine.chargeWalk s n a) (Machine.getTenant (Machine.chargeWalk s n a) n) a l with
    | error e => exact ⟨rfl, hc⟩
    | ok p => exact ⟨rfl, hc⟩

/-- Reading a tenant's bytes on a page that does not ask for zeroing answers the same after the mark of the issue. -/
theorem Marked.readTenant {n : Nat} {a : Word} (k : Nat)
    (hz : ∀ l, Machine.stage1 s (Machine.getTenant s n) a = .ok l → l.entry.getLsbD 54 = false) (hm : Marked s t) :
    (Machine.readTenant t n a k).1 = (Machine.readTenant s n a k).1 ∧ Marked (Machine.readTenant s n a k).2 (Machine.readTenant t n a k).2 := by
  obtain ⟨h1, h2⟩ := hm.translate hz
  unfold Machine.readTenant
  rcases hq : Machine.translate s n a with ⟨r, s'⟩
  rcases ht : Machine.translate t n a with ⟨r', t'⟩
  rw [hq, ht] at h1 h2
  simp only at h1 h2
  subst h1
  cases r' with
  | error e => exact ⟨rfl, h2⟩
  | ok p =>
    simp only [h2.ownPlace]
    cases Machine.ownPlace s' n (p.loc a) false with
    | error e => exact ⟨rfl, h2⟩
    | ok l =>
      simp only
      split
      · have hf : Marked (freeLine s').2 (freeLine t').2 := by
          constructor
          · conv_lhs => rw [h2.rest]
            rfl
          · exact h2.core
        have he : (freeLine t').1 = (freeLine s').1 := by rw [h2.rest]; rfl
        exact ⟨by simp only [hf.readWide, he], hf⟩
      · exact ⟨rfl, h2⟩

/-- A handler's header reads the same after the mark of the issue (R41, R193). -/
theorem Marked.readHeader {n : Nat} {h : Word}
    (hz : ∀ l, Machine.stage1 s (Machine.getTenant s n) (h - 64) = .ok l → l.entry.getLsbD 54 = false) (hm : Marked s t) :
    (Machine.readHeader t n h).1 = (Machine.readHeader s n h).1 ∧ Marked (Machine.readHeader s n h).2 (Machine.readHeader t n h).2 := by
  obtain ⟨h1, h2⟩ := hm.readTenant 64 hz
  unfold Machine.readHeader
  split
  · exact ⟨rfl, hm⟩
  · rcases hq : Machine.readTenant s n (h - 64) 64 with ⟨r, s'⟩
    rcases ht : Machine.readTenant t n (h - 64) 64 with ⟨r', t'⟩
    rw [hq, ht] at h1 h2
    simp only at h1 h2
    subst h1
    cases r' <;> exact ⟨rfl, h2⟩

theorem handler_some {h : Word} (hv : handlerVerdict h s c = .go) : (readHeader s c.tslot h).1.isSome = true := by
  unfold handlerVerdict at hv
  cases hq : (readHeader s c.tslot h).1 with
  | none => rw [hq] at hv; cases hv
  | some k => rfl

theorem riskNow_early {n : Nat} {r : StepRec} (hs : (getCore s n).step = some r)
    (ht : r.moving = true ∨ s.time.toNat ≤ r.deadline.toNat) : riskNow s n = s := by
  unfold riskNow
  simp only [hs]
  rw [if_neg]
  rcases ht with h | h
  · simp [h]
  · simp; omega

end Sys2Proof.Machine
end

