-- ==== Sys2Proof/Laws/Engines.lean ====
section
/-! SUPPORT. What matrix and copy words do. -/

namespace Sys2Proof.Machine
variable {s t u : State} {c c' : Ctx} {o : Core} {d : Reg} {e : RegEntry} {i : Instr}

theorem lowest_nil : lowest [] = none := rfl

theorem mmaVerdict_go {sd : Bool} {n : Nat} {a b : Word} (h : ProductOk s c sd n a b) : mmaVerdict sd n a b s (my s) c = .go := by
  obtain ⟨h1, h2, h3, h4⟩ := h
  unfold mmaVerdict
  simp only [h1, h2, Bool.not_true, Bool.false_eq_true, if_false]
  rcases hr : mmaRanges c.mfmt c.mscla c.msclb sd n a b with ⟨rows, scales⟩
  rw [hr] at h3 h4
  have e1 : rows.find? (fun r => r.1.toNat % 64 != 0) = none := by
    rw [List.find?_eq_none]; intro r hr'; simp [(h3 r hr').1]
  have e2 : scales.find? (fun r => r.1.toNat % 2 != 0) = none := by
    rw [List.find?_eq_none]; intro r hr'; simp [(h4 r hr').1]
  have e3 : (rows ++ scales).find? (fun r => decide (windowBase (my s) < r.1.toNat + r.2)) = none := by
    rw [List.find?_eq_none]; intro r hr'
    rcases List.mem_append.1 hr' with h | h
    · have := (h3 r h).2; simp; omega
    · have := (h4 r h).2; simp; omega
  simp only [e1, e2, e3, Option.orElse]

/-- What a product does once it may issue (R189, R250, R256). -/
theorem product_law {kind : MKind} {sd z w bank : Bool} {n : BitVec 4} {a b : Reg} {y : Word}
    (hu : CanIssue s c { srcs := if sd then [a, b] else [a], w := w, mem := true }) (hy : ∀ m, Marked s m → (if sd then src m b else 0) = y)
    (hp : ProductOk s c sd (8 * (n.toNat + 1)) (val s c a) y) :
    ∃ t, mmaWord kind sd z w bank n a b s = .next t ∧
      Did s t c { s with nextId := s.nextId + 1 }
        (if bank then { my s with mq := (my s).mq ++ [mCapture s c s.nextId kind bank sd z (8 * (n.toNat + 1)) (val s c a) y], last1 := some { ctx := me s, batch := nextBatch c.committed } }
          else { my s with mq := (my s).mq ++ [mCapture s c s.nextId kind bank sd z (8 * (n.toNat + 1)) (val s c a) y], last0 := some { ctx := me s, batch := nextBatch c.committed } })
        0 RegEntry.zero (pastWord s.cur c) := by
  have ha : ∀ m, Marked s m → src m a = val s c a := fun m hm => hu.src hm (by cases sd <;> simp [Use.regs])
  refine settle_law hu ?_ fun m hm h => ?_
  · simp only [ha _ (.refl s), hy _ (.refl s)]; exact mmaVerdict_go hp
  · have hme : me { m with nextId := s.nextId + 1 } = me s := hm.me
    have hs : ∀ r, src { m with nextId := s.nextId + 1 } r = src m r := fun r => rfl
    have hc : ∀ x y, mCapture { m with nextId := s.nextId + 1 } c s.nextId kind bank sd z (depthOf n) x y = mCapture s c s.nextId kind bank sd z (8 * (n.toNat + 1)) x y := by
      intro x y; unfold mCapture depthOf; rw [hme]; rw [show ({ m with nextId := s.nextId + 1 } : State).cur = s.cur from hm.cur]
    simp only [hm.curCtx, hu.ctx, takeId_eq, hm.nextId, hs, ha m hm, hy m hm, hc, hme]
    have h1 := h.pkg (fun v => { v with nextId := v.nextId + 1 }) (fun _ _ => rfl)
    rw [hm.nextId] at h1
    unfold mIssue setLast
    have h2 := fun x : MCmd => h1.coreAt (j := coreOf (me s)) rfl (fun k => { k with mq := k.mq ++ [x] }) (fun _ _ _ _ => rfl)
    have h3 := fun x : MCmd => (h2 x).coreAt (j := coreOf (me s)) rfl (fun k => if bank then { k with last1 := some { ctx := me s, batch := nextBatch c.committed } } else { k with last0 := some { ctx := me s, batch := nextBatch c.committed } }) (fun _ _ _ _ => by cases bank <;> rfl)
    rw [show (mCapture s c s.nextId kind bank sd z (8 * (n.toNat + 1)) (val s c a) y).ctx = me s from rfl,
      show (mCapture s c s.nextId kind bank sd z (8 * (n.toNat + 1)) (val s c a) y).batch = nextBatch c.committed from rfl]
    exact (h3 _).done rfl

/-- A word whose own verdict is a park, parks. -/
theorem check_park {s : State} {c : Ctx} {k : Use} {own : State → Core → Ctx → Verdict} {x : Why} {eff : State → State}
    (hu : CanIssue s c k) (hown : own s (Machine.my s) c = .park x) {i : Instr}
    (hi : exec i s = settle (check k own s) eff s) : Parks s i x := by
  unfold Parks
  rw [hi, check_go hu, hown, settle_park hu.ctx hu.real]

theorem pageCheck_go {va : Word} {wr : Bool} {p : Page} (h : pageEntry (my s) c.vmid va = some p) (hp : (if wr then p.wr else p.rd) = true) :
    pageCheck (my s) c va (!wr) wr = .ok p := by
  unfold pageCheck; rw [h]; cases wr <;> simp_all

theorem moveVerdict_go {wr bank : Bool} {a b : Word} (h : MoveOk s c wr a b) :
    moveVerdict wr bank a b s (my s) c = if writerOpen s (lastOf (my s) bank) then .trap .acchaz (curWord s) else .go := by
  obtain ⟨h1, h2, h3, h4, h5⟩ := h
  unfold moveVerdict
  have e2 : (fld 0 6 a != 0) = false := by rw [fld_eq]; simp; omega
  have e3 : (fld 0 6 b != 0) = false := by rw [fld_eq]; simp; omega
  have e4 : ((List.range 32).map fun i => a + word i * b).find? (fun x => !canonical x) = none := by
    rw [List.find?_eq_none]; intro x hx
    obtain ⟨i, hi, rfl⟩ := List.mem_map.1 hx
    have := h4 i (List.mem_range.1 hi)
    simpa [word] using this
  have e5 : ((List.range 64).findSome? fun j => match pageCheck (my s) c (bankLine a b j) (!wr) wr with
      | .error v => some v
      | .ok _ => none) = none := by
    rw [List.findSome?_eq_none_iff]; intro j hj
    obtain ⟨p, hp, hr⟩ := h5 j (List.mem_range.1 hj)
    rw [pageCheck_go hp hr]
  simp only [h1, e2, e3, e4, Bool.not_true, Bool.false_eq_true, if_false]
  generalize hq : List.findSome? _ _ = q
  obtain rfl : q = none := hq.symm.trans e5
  rfl

theorem Marked.writerOpen (hm : Marked s t) (w : Option Writer) : Machine.writerOpen t w = Machine.writerOpen s w := by
  unfold Machine.writerOpen; cases w with
  | none => rfl
  | some w => simp only [hm.getCtx]

theorem Marked.afterIds (hm : Marked s t) (w : Option Writer) : Machine.afterIds (Machine.my t) w = Machine.afterIds (Machine.my s) w := by
  rw [hm.my]; rfl

/-! ## Where an engine's bytes go -/

/-- Where a page's addresses are served does not turn on the cores and the counters of the package. -/
theorem homePlace_at (s : State) (cs : AMap Core) (n f : Nat) (cl : List Claim) (p : Page) (a : Word) (w : Bool) :
    homePlace { s with cores := cs, nextId := n, free := f, claims := cl } p a w = homePlace s p a w := rfl

theorem Marked.homePlace (hm : Marked s t) (p : Page) (a : Word) (w : Bool) : Machine.homePlace t p a w = Machine.homePlace s p a w := by
  rw [hm.rest]; rfl

/-- What a move of an accumulator does once it may issue (R191, R255, R256): to memory with `wr`, from memory without. -/
theorem move_law {wr w k : Bool} {a b : Reg} (hu : CanIssue s c { srcs := [a, b], w := w, mem := true })
    (ho : MoveOk s c wr (val s c a) (val s c b)) (hw : Machine.writerOpen s (lastOf (my s) k) = false) :
    let x := val s c a
    let y := val s c b
    let pages := (List.range 64).map fun j => (pageEntry (my s) c.vmid (bankLine x y j)).getD (pageIn [] c.vmid x)
    let m : MCmd := { mCapture s c s.nextId (if wr then .mstc else .mldc) k false false 0 x y with
      pages := pages, after := Machine.afterIds (my s) (lastOf (my s) k) }
    let p := pages.getD 0 (pageIn [] c.vmid x)
    let e : SbEntry := { id := s.nextId, ctx := me s, op := .claim s.nextId, va := x, size := 0, loc := p.loc x, page := p, rel := none }
    let ls := (List.range 64).map fun j => Machine.homePlace s (pages.getD j (pageIn [] c.vmid x)) (bankLine x y j) true
    let w' : Option Writer := some { ctx := me s, batch := nextBatch c.committed }
    let o := { my s with mq := (my s).mq ++ [m] }
    ∃ t, moveWord wr w k a b s = .next t ∧ Did s t c
      (if wr then { s with nextId := s.nextId + 1, claims := s.claims ++ [{ cmd := s.nextId, engine := matrixEngine (coreOf (me s)), lines := ls.map Loc.line, performed := false }] }
        else { s with nextId := s.nextId + 1 })
      (if wr then { o with sbuf := o.sbuf ++ [e] } else if k then { o with last1 := w' } else { o with last0 := w' })
      0 RegEntry.zero (pastWord s.cur c) := by
  intro x y pages cm p e ls w' o
  have ha : ∀ m, Marked s m → src m a = x := fun m hm => hu.src hm (by simp [Use.regs])
  have hb : ∀ m, Marked s m → src m b = y := fun m hm => hu.src hm (by simp [Use.regs])
  refine settle_law hu ?_ fun m hm h => ?_
  · simp only [ha _ (.refl s), hb _ (.refl s)]; rw [moveVerdict_go ho, hw]; rfl
  · have hme : me { m with nextId := s.nextId + 1 } = me s := hm.me
    have hs : ∀ r, src { m with nextId := s.nextId + 1 } r = src m r := fun r => rfl
    have hc : ∀ x y kd, mCapture { m with nextId := s.nextId + 1 } c s.nextId kd k false false 0 x y = mCapture s c s.nextId kd k false false 0 x y := by
      intro x y kd; unfold mCapture; rw [hme]; rw [show ({ m with nextId := s.nextId + 1 } : State).cur = s.cur from hm.cur]
    have hl : lastOf (my m) k = lastOf (my s) k := by rw [hm.my]; rfl
    have hhp : ∀ p a, Machine.homePlace (mIssue cm { m with nextId := s.nextId + 1 }) p a true = Machine.homePlace s p a true := fun p a =>
      hm.homePlace p a true
    simp only [hm.curCtx, hu.ctx, takeId_eq, hm.nextId, ha m hm, hb m hm, hc, hl, hm.afterIds, hm.pageEntry]
    have h1 := h.pkg (fun v => { v with nextId := v.nextId + 1 }) (fun _ _ => rfl)
    rw [hm.nextId] at h1
    have h2 := h1.coreAt (j := coreOf (me s)) rfl (fun k => { k with mq := k.mq ++ [cm] }) (fun _ _ _ _ => rfl)
    cases wr with
    | true =>
      have h3 := h2.pkg (fun v => { v with claims := v.claims ++ [{ cmd := s.nextId, engine := matrixEngine (coreOf (me s)), lines := ls.map Loc.line, performed := false }] }) (fun _ _ => rfl)
      have h4 := h3.coreAt (j := coreOf (me s)) rfl (fun k => { k with sbuf := k.sbuf ++ [e] }) (fun _ _ _ _ => rfl)
      have key : ∀ id ls', id = me s → ls' = ls → Did s (done (claimLines (mIssue cm { m with nextId := s.nextId + 1 }) (matrixEngine (coreOf id)) s.nextId id p x ls')) c { s with nextId := s.nextId + 1, claims := s.claims ++ [{ cmd := s.nextId, engine := matrixEngine (coreOf (me s)), lines := ls.map Loc.line, performed := false }] } { o with sbuf := o.sbuf ++ [e] } 0 RegEntry.zero (pastWord s.cur c) := by
        rintro _ _ rfl rfl; exact h4.done rfl
      refine key _ _ (h2.me rfl) ?_
      simp only [ls]
      exact List.map_congr_left fun j _ => hhp _ _
    | false =>
      have h3 := h2.coreAt (j := coreOf (me s)) rfl (fun q => if k then { q with last1 := w' } else { q with last0 := w' }) (fun _ _ _ _ => by cases k <;> rfl)
      have key : ∀ id, id = me s → Did s (done (setLast (mIssue cm { m with nextId := s.nextId + 1 }) (coreOf id) k (some { ctx := id, batch := nextBatch c.committed }))) c { s with nextId := s.nextId + 1 } (if k then { o with last1 := w' } else { o with last0 := w' }) 0 RegEntry.zero (pastWord s.cur c) := by
        rintro _ rfl; exact h3.done rfl
      exact key _ (h2.me rfl)

/-! ## Waits settled -/

theorem amGet_map {α β : Type} (f : Nat → α → β) (m : AMap α) (k : Nat) : amGet (m.map fun e => (e.1, f e.1 e.2)) k = (amGet m k).map (f k) := by
  induction m with
  | nil => rfl
  | cons e r ih =>
    obtain ⟨i, x⟩ := e
    simp only [List.map_cons, amGet]
    split
    · rename_i h; subst h; rfl
    · exact ih

theorem getCtx_mapCtxs (v : State) (n : Nat) (f : Core → Nat → Ctx → Ctx) (id : Nat) :
    Machine.getCtx (modCore v n fun k => mapCtxs k (f k)) id =
      if coreOf id = n then (Machine.getCtx v id).map (f (getCore v n) (slotOf id)) else Machine.getCtx v id := by
  unfold Machine.getCtx
  rw [getCore_modCore]
  by_cases h : coreOf id = n
  · rw [if_pos h, if_pos h, h]; exact amGet_map ..
  · rw [if_neg h, if_neg h]

theorem getCore_mapCtxs (v : State) (n : Nat) (f : Core → Nat → Ctx → Ctx) (j : Nat) :
    getCore (modCore v n fun k => mapCtxs k (f k)) j =
      { getCore v j with ctxs := (getCore (modCore v n fun k => mapCtxs k (f k)) j).ctxs } := by
  rw [getCore_modCore]
  by_cases h : j = n
  · rw [if_pos h, h]; rfl
  · rw [if_neg h]

/-- Two contexts that differ in nothing but their status. -/
def SameButStatus (a b : Option Ctx) : Prop :=
  a.map (fun x => { x with status := .ready }) = b.map fun x => { x with status := .ready }

theorem sameButStatus_mapCtxs (v : State) (n : Nat) (f : Core → Nat → Ctx → Ctx) (hf : ∀ k i x, ({ f k i x with status := .ready } : Ctx) = { x with status := .ready }) (id : Nat) :
    SameButStatus (Machine.getCtx (modCore v n fun k => mapCtxs k (f k)) id) (Machine.getCtx v id) := by
  unfold SameButStatus
  rw [getCtx_mapCtxs]
  by_cases h : coreOf id = n
  · rw [if_pos h, Option.map_map]; congr 1; funext x; exact hf ..
  · rw [if_neg h]

/-- Settling the waits of a core changes nothing but the status of its contexts, and leaves a context that is ready. -/
theorem settleWaits_law (v : State) (n : Nat) :
    settleWaits v n = { v with cores := (settleWaits v n).cores } ∧
    (∀ j, getCore (settleWaits v n) j = { getCore v j with ctxs := (getCore (settleWaits v n) j).ctxs }) ∧
    (∀ id, SameButStatus (Machine.getCtx (settleWaits v n) id) (Machine.getCtx v id)) ∧
    (∀ id x, Machine.getCtx v id = some x → x.status = .ready → Machine.getCtx (settleWaits v n) id = some x) := by
  unfold settleWaits rewake
  refine ⟨rfl, fun j => ?_, fun id => ?_, fun id x hx hr => ?_⟩
  · rw [getCore_mapCtxs]
    congr 1
    conv => lhs; rw [getCore_mapCtxs]
  · refine (sameButStatus_mapCtxs _ n (fun _ _ _ => _) ?_ id).trans (sameButStatus_mapCtxs v n (fun k slot c => if waitOver k (ctxId n slot) c then { c with status := .ready } else c) ?_ id)
    · intro k i x; simp only; split <;> rfl
    · intro k i x; simp only; split <;> rfl
  · have h1 := getCtx_mapCtxs v n (fun k slot c => if waitOver k (ctxId n slot) c then { c with status := .ready } else c) id
    have hw : waitOver (getCore v n) (ctxId n (slotOf id)) x = false := by unfold waitOver; rw [hr]
    have h2 : Machine.getCtx (modCore v n fun k => mapCtxs k fun slot c => if waitOver k (ctxId n slot) c then { c with status := .ready } else c) id = some x := by
      rw [h1, hx]; simp [hw]
    have h3 := getCtx_mapCtxs (modCore v n fun k => mapCtxs k fun slot c => if waitOver k (ctxId n slot) c then { c with status := .ready } else c) n
      (fun _ _ c => match c.status with | .parked (.page _) => c | .parked _ => { c with status := .ready } | _ => c) id
    refine h3.trans ?_
    rw [h2]; simp [hr]

/-! ## Copies and subscriptions -/

theorem lowest_filter_nil {p : Word → Bool} {xs : List Word} (h : ∀ x ∈ xs, p x = false) : lowest (xs.filter p) = none := by
  rw [List.filter_eq_nil_iff.2 fun x hx => by simp [h x hx]]; rfl

theorem pagesCheck_go {ps : List (Word × Bool)}
    (h : ∀ x ∈ ps, ∃ p, pageEntry (my s) c.vmid x.1 = some p ∧ (if x.2 then p.wr else p.rd) = true) : pagesCheck (my s) c ps = .go := by
  unfold pagesCheck
  have e1 : ps.find? (fun x => (pageEntry (my s) c.vmid x.1).isNone) = none := by
    rw [List.find?_eq_none]; intro x hx
    obtain ⟨p, hp, -⟩ := h x hx; simp [hp]
  have e2 : ps.filter (fun x => match pageCheck (my s) c x.1 (!x.2) x.2 with | .error _ => true | .ok _ => false) = [] := by
    rw [List.filter_eq_nil_iff]; intro x hx
    obtain ⟨p, hp, hr⟩ := h x hx
    rw [pageCheck_go hp hr]; simp
  simp only [e1]
  generalize hq : List.filter _ ps = q
  obtain rfl : q = [] := hq.symm.trans e2
  rfl

theorem cpyVerdict_go {fromSp toSp : Bool} {ch n : Nat} {src dst : Word} (h : CopyOk s c fromSp toSp ch src dst n) :
    cpyVerdict fromSp toSp ch src dst n (my s) c = .go := by
  obtain ⟨h1, ⟨a1, b1, c1, d1⟩, ⟨a2, b2, c2, d2⟩, h4⟩ := h
  unfold cpyVerdict
  split
  · rfl
  · have e1 : lowest ([src, dst].filter fun a => fld 0 4 a != 0) = none := lowest_filter_nil (by
      intro x hx; rw [fld_eq]
      have : x = src ∨ x = dst := by simpa using hx
      rcases this with rfl | rfl <;> simp <;> omega)
    have e2 : (if fromSp then aboveWindow (my s) src n else notCanonical src n) = none := by
      cases fromSp
      · exact c1 rfl
      · have := b1 rfl; simp only [if_true]; unfold aboveWindow; rw [if_neg (by omega)]
    have e3 : (if toSp then aboveWindow (my s) dst n else notCanonical dst n) = none := by
      cases toSp
      · exact c2 rfl
      · have := b2 rfl; simp only [if_true]; unfold aboveWindow; rw [if_neg (by omega)]
    have e4 : pagesCheck (my s) c ((if fromSp then [] else (rangePieces src n).map fun a => (a, false)) ++
            (if toSp then [] else (rangePieces dst n).map fun a => (a, true))) = .go := by
      refine pagesCheck_go fun x hx => ?_
      rcases List.mem_append.1 hx with hx | hx
      · cases fromSp
        · obtain ⟨y, hy, rfl⟩ := List.mem_map.1 hx
          exact d1 rfl y hy
        · cases hx
      · cases toSp
        · obtain ⟨y, hy, rfl⟩ := List.mem_map.1 hx
          exact d2 rfl y hy
        · cases hx
    have e5 : (toSp && isLent (my s) dst.toNat n) = false := by
      cases toSp
      · rfl
      · exact h4 rfl
    simp only [h1, e1, e2, e3, e4, e5, Option.isSome_none, Bool.false_eq_true, if_false, Option.toList_none, List.append_nil, lowest_nil]


theorem Marked.pagesOf (hm : Marked s t) (xs : List Word) : Machine.pagesOf (Machine.my t) c xs = Machine.pagesOf (Machine.my s) c xs := by
  unfold Machine.pagesOf; simp only [hm.pageEntry]

/-- A copy that starts (R123, R136, R137, R263). -/
theorem copy_effect (hm : Marked s t) (hc : Machine.curCtx s = some c) (h : Did s t c s (my s) 0 RegEntry.zero c)
    {fromSp toSp : Bool} {ch n : Nat} {src dst : Word} :
    let pages := fun x => Machine.pagesOf (my s) c (rangePieces x n)
    let dest := if toSp then [] else pages dst
    let x : Chan :=
      { id := s.nextId, ctx := some (me s), node := c.node, tslot := c.tslot, kind := .copy, srcSp := fromSp, dstSp := toSp, src := src, dst := dst,
        len := n, done := 0, group := c.grp, srcPages := if fromSp then [] else pages src, dstPages := dest }
    let claim : SbEntry :=
      { id := s.nextId, ctx := me s, op := .claim s.nextId, va := dst, size := 0, loc := (pageIn dest c.vmid dst).loc dst,
        page := pageIn dest c.vmid dst, rel := none }
    let lines := (rangeLines dst n).map fun v => (Machine.homePlace s (pageIn dest c.vmid v) v true).line
    let u1 := { s with nextId := s.nextId + 1, claims := if toSp then s.claims else s.claims ++ [{ cmd := s.nextId, engine := copyEngine (coreOf (me s)), lines := lines, performed := false }] }
    let u := match c.grp with
      | some g => setGroup u1 c.tslot g.toNat { getGroup s c.tslot g.toNat with pending := (getGroup s c.tslot g.toNat).pending + BitVec.ofNat 64 n }
      | none => u1
    Did s (cpyEffect fromSp toSp ch src dst n t) c u
      { my s with chans := amSet (my s).chans ch x, cwp := if toSp then amSet (my s).cwp ch dst.toNat else (my s).cwp,
                  sbuf := if toSp then (my s).sbuf else (my s).sbuf ++ [claim] } 0 RegEntry.zero c := by
  intro pages dest x claim lines u1 u
  have hme : me { t with nextId := s.nextId + 1 } = me s := hm.me
  unfold cpyEffect
  have hhp : ∀ p a, Machine.homePlace { t with nextId := s.nextId + 1 } p a true = Machine.homePlace s p a true := fun p a => hm.homePlace p a true
  simp only [hm.curCtx, hc, takeId_eq, hm.nextId, hm.pagesOf, hme, hhp]
  have h1 := h.pkg (fun v => { v with nextId := v.nextId + 1 }) (fun _ _ => rfl)
  rw [hm.nextId] at h1
  have A : ∃ v, v = (if toSp then { t with nextId := s.nextId + 1 } else claimLines { t with nextId := s.nextId + 1 } (copyEngine (coreOf (me s))) s.nextId (me s) (pageIn dest c.vmid dst) dst ((rangeLines dst n).map fun a => Machine.homePlace s (pageIn dest c.vmid a) a true)) ∧
      Did s v c u1 { my s with sbuf := if toSp then (my s).sbuf else (my s).sbuf ++ [claim] } 0 RegEntry.zero c := by
    refine ⟨_, rfl, ?_⟩
    cases toSp with
    | true => exact h1
    | false =>
      have h2 := h1.pkg (fun v => { v with claims := v.claims ++ [{ cmd := s.nextId, engine := copyEngine (coreOf (me s)), lines := ((rangeLines dst n).map fun a => Machine.homePlace s (pageIn dest c.vmid a) a true).map Loc.line, performed := false }] }) (fun _ _ => rfl)
      have h3 := h2.coreAt (j := coreOf (me s)) rfl (fun k => { k with sbuf := k.sbuf ++ [claim] }) (fun _ _ _ _ => rfl)
      have e : u1 = { s with nextId := s.nextId + 1, claims := s.claims ++ [{ cmd := s.nextId, engine := copyEngine (coreOf (me s)), lines := ((rangeLines dst n).map fun a => Machine.homePlace s (pageIn dest c.vmid a) a true).map Loc.line, performed := false }] } := by
        simp only [u1, lines, List.map_map]; rfl
      rw [e]; exact h3
  obtain ⟨v, hv, hd⟩ := A
  have B : ∃ w, w = (match c.grp with | some g => groupIssue v c.tslot g.toNat n | none => v) ∧
      Did s w c u { my s with sbuf := if toSp then (my s).sbuf else (my s).sbuf ++ [claim] } 0 RegEntry.zero c := by
    refine ⟨_, rfl, ?_⟩
    cases hg : c.grp with
    | none => simp only [u, hg]; exact hd
    | some g =>
      simp only [u, hg]
      have h4 := hd.pkg (fun y => groupIssue y c.tslot g.toNat n) (fun _ _ => rfl)
      exact h4
  obtain ⟨w, hw, hb⟩ := B
  have h5 := hb.coreAt (j := coreOf (me s)) rfl (fun k => { k with chans := amSet k.chans ch x, cwp := if toSp then amSet k.cwp ch dst.toNat else k.cwp }) (fun _ _ _ _ => rfl)
  have key : ∀ id w', id = me s → w' = w → Did s (modCore w' (coreOf id) fun k => { k with chans := amSet k.chans ch x, cwp := if toSp then amSet k.cwp ch dst.toNat else k.cwp }) c u { my s with chans := amSet (my s).chans ch x, cwp := if toSp then amSet (my s).cwp ch dst.toNat else (my s).cwp, sbuf := if toSp then (my s).sbuf else (my s).sbuf ++ [claim] } 0 RegEntry.zero c := by
    rintro _ _ rfl rfl; exact h5
  have hu : u.cur = s.cur := by simp only [u]; split <;> rfl
  subst hw; subst hv
  exact key _ _ (hb.me hu) rfl


theorem Marked.subDesc (hm : Marked s t) (p : Page) (va : Word) : Machine.subDesc t p va = Machine.subDesc s p va := by
  have e : (freeLine t).1 = (freeLine s).1 := by unfold freeLine; rw [hm.rest]
  unfold Machine.subDesc; simp only [hm.readWide, hm.homePlace, e]

theorem subVerdict_go {pull : Bool} {ch : Nat} {va : Word} {p : Page} (h : SubOk s c pull ch va p) : subVerdict pull ch va s (my s) c = .go := by
  have hg : globalCheck (my s) c va 64 true false = .ok p := globalCheck_go h.reaches
  unfold subVerdict
  simp only [h.channel, Option.isSome_none, Bool.false_eq_true, if_false, hg, h.home, h.shape, Bool.not_true]
  have e1 : List.filterMap (fun a => notCanonical a (Machine.subDesc s p va).slotb)
      (tiles (Machine.subDesc s p va).sbase (Machine.subDesc s p va).sstride (Machine.subDesc s p va).count ++
        (if pull then tiles (Machine.subDesc s p va).dbase (Machine.subDesc s p va).dstride (Machine.subDesc s p va).count else [])) = [] := by
    rw [List.filterMap_eq_nil_iff]; exact h.canon
  simp only [e1, lowest_nil]
  rw [pagesCheck_go]
  · simp only
    cases hq : pageEntry (my s) c.vmid (Machine.subDesc s p va).sbase with
    | none => rfl
    | some q => simp [h.loader q hq]
  · intro x hx
    rcases List.mem_append.1 hx with hx | hx
    · obtain ⟨a, ha, hx⟩ := List.mem_flatMap.1 hx
      obtain ⟨y, hy, rfl⟩ := List.mem_map.1 hx
      exact h.sources a ha y hy
    · obtain ⟨a, ha, hx⟩ := List.mem_flatMap.1 hx
      obtain ⟨y, hy, rfl⟩ := List.mem_map.1 hx
      cases pull with
      | false => cases ha
      | true => exact h.pulls rfl a ha y hy

/-- A subscription that starts (R137, R265, R266). -/
theorem sub_effect (hm : Marked s t) (hc : Machine.curCtx s = some c) (h : Did s t c s (my s) 0 RegEntry.zero c)
    {pull : Bool} {ch : Nat} {va : Word} {p : Page} (hp : Machine.pageEntry (my s) c.vmid va = some p) :
    let f := Machine.subDesc s p va
    let v := touch s (dieOf (coreOf (me s))) (Machine.homePlace s p va false) p .read 64
    let dsts := if pull then tiles f.dbase f.dstride f.count else []
    let dest := Machine.pagesOf (my s) c (dsts.flatMap fun a => rangePieces a f.slotb)
    let x : Chan :=
      { id := s.nextId, ctx := some (me s), node := c.node, tslot := c.tslot, kind := .sub pull, srcSp := false, dstSp := true, src := f.sbase,
        dst := f.dbase, len := 0, done := 0, group := none,
        srcPages := Machine.pagesOf (my s) c ((tiles f.sbase f.sstride f.count).flatMap fun a => rangePieces a f.slotb), dstPages := dest,
        desc := va, sstride := f.sstride, dstride := f.dstride, count := f.count, slotb := f.slotb, slots := f.slots, ring := f.ring }
    let claim : SbEntry :=
      { id := s.nextId, ctx := me s, op := .claim s.nextId, va := f.dbase, size := 0, loc := (pageIn dest c.vmid f.dbase).loc f.dbase,
        page := pageIn dest c.vmid f.dbase, rel := none }
    let lines := (dsts.flatMap fun a => (rangeLines a f.slotb).map fun b => Machine.homePlace v (pageIn dest c.vmid b) b true).map Loc.line
    Did s (subEffect pull ch va t) c
      { v with free := v.free + 8, nextId := s.nextId + 1, claims := if pull then s.claims ++ [{ cmd := s.nextId, engine := copyEngine (coreOf (me s)), lines := lines, performed := false }] else s.claims }
      { my s with chans := amSet (my s).chans ch x, cwp := amSet (my s).cwp ch f.ring, sbuf := if pull then (my s).sbuf ++ [claim] else (my s).sbuf }
      0 RegEntry.zero c := by
  intro f v dsts dest x claim lines
  obtain ⟨y, hy⟩ : ∃ y, y = touch t (dieOf (coreOf (me s))) (Machine.homePlace s p va false) p .read 64 := ⟨_, rfl⟩
  have hyv : y = { v with cores := y.cores } := by
    rw [hy]; conv_lhs => rw [hm.rest]
    conv_rhs => rw [hm.rest]
    rw [touch_cores]
  have hr : v = _ := touch_rest s (dieOf (coreOf (me s))) (Machine.homePlace s p va false) p .read 64
  have hvc : v.claims = s.claims := (congrArg State.claims hr).trans rfl
  have hvn : v.nextId = s.nextId := (congrArg State.nextId hr).trans rfl
  have hcur : v.cur = s.cur := (congrArg State.cur hr).trans rfl
  have hn : y.nextId = s.nextId := by rw [hyv]; exact hvn
  have hycur : y.cur = s.cur := by rw [hyv]; exact hcur
  have hme : me { y with free := y.free + 8, nextId := s.nextId + 1 } = me s := me_cur s _ hycur
  have hhp : ∀ p a, Machine.homePlace { y with free := y.free + 8, nextId := s.nextId + 1 } p a true = Machine.homePlace v p a true := by
    intro p a; conv_lhs => rw [hyv]
    rfl
  have h0 := h.pkg (fun v => touch v (dieOf (coreOf (me s))) (Machine.homePlace s p va false) p .read 64) (fun _ _ => by
    rw [touch_cores])
  have h1 := h0.pkg (fun v => { v with free := v.free + 8, nextId := v.nextId + 1 }) (fun _ _ => rfl)
  rw [← hy] at h1
  unfold subEffect
  simp only [hm.curCtx, hc, hm.pageEntry, hp, hm.subDesc, hm.pagesOf, hm.homePlace, hm.me, ← hy, freeLine, takeId_eq, hme, hhp, hn]
  rw [hn] at h1
  cases pull with
  | false =>
    simp only [Bool.false_eq_true, if_false]
    have h2 := h1.coreAt (j := coreOf (me s)) rfl (fun k => { k with chans := amSet k.chans ch x, cwp := amSet k.cwp ch f.ring }) (fun _ _ _ _ => rfl)
    rw [hvc, hvn] at h2
    rw [hme]
    exact h2
  | true =>
    simp only [if_true]
    have h2 := fun ls => h1.pkg (fun v => { v with claims := v.claims ++ [{ cmd := s.nextId, engine := copyEngine (coreOf (me s)), lines := ls, performed := false }] }) (fun _ _ => rfl)
    have h3 := fun ls e => (h2 ls).coreAt (j := coreOf (me s)) rfl (fun k => { k with sbuf := k.sbuf ++ [e] }) (fun _ _ _ _ => rfl)
    have h4 := fun ls e (x : Chan) => (h3 ls e).coreAt (j := coreOf (me s)) rfl (fun k => { k with chans := amSet k.chans ch x, cwp := amSet k.cwp ch f.ring }) (fun _ _ _ _ => rfl)
    have h5 := h4 lines claim x
    rw [hvc, hvn] at h5
    have hcl : ∀ v e cmd id p va ls, me (claimLines v e cmd id p va ls) = me v := fun _ _ _ _ _ _ _ => rfl
    rw [hcl]
    simp only [hme, hhp]
    exact h5

end Sys2Proof.Machine
end

