-- ==== Sys2Proof/Laws/Events.lean ====
section
/-! SUPPORT. What the events' meanings are built from: maps written twice, contexts and their waits, engines' bytes, table fields that only
counters touch. -/

namespace Sys2Proof.Machine
theorem setCore_setCore (s : State) (n : Nat) (a b : Core) : setCore (setCore s n a) n b = setCore s n b := by
  simp [setCore, amSet_amSet]
theorem coreStopped_setCore (s : State) (n : Nat) (k : Core) (h : k.dead = (getCore s n).dead) (j : Nat := n) : coreStopped (setCore s n k) j = coreStopped s j := by
  unfold coreStopped coreExists
  rw [getCore_setCore]
  by_cases e : j = n
  · subst e; rw [if_pos rfl, h]; rfl
  · rw [if_neg e]; rfl
theorem getCore_setCore_same (s : State) (n : Nat) (a : Core) : getCore (setCore s n a) n = a := by rw [getCore_setCore, if_pos rfl]
theorem settleWaits_only (v : State) (n : Nat) : OnlyContexts v (settleWaits v n) := by
  refine ⟨(settleWaits_law v n).1, fun j => ?_⟩
  have h := (settleWaits_law v n).2.1 j
  have r : (getCore (settleWaits v n) j).rf = (getCore v j).rf := by rw [h]
  have o : (getCore (settleWaits v n) j).rot = (getCore v j).rot := by rw [h]
  rw [r, o]; exact h
theorem modCtx_only (s : State) (id : Nat) (f : Ctx → Ctx) : OnlyContexts s (modCtx s id f) := by
  unfold modCtx; split
  · exact setCtx_only ..
  · exact ⟨rfl, fun _ => rfl⟩
theorem OnlyContexts.mem (h : OnlyContexts s t) : t.mem = s.mem := by rw [h.1]
theorem OnlyContexts.sp (h : OnlyContexts s t) (j : Nat) : (getCore t j).sp = (getCore s j).sp := by rw [h.2]
theorem OnlyContexts.vq (h : OnlyContexts s t) (j : Nat) : (getCore t j).vq = (getCore s j).vq := by rw [h.2]
theorem OnlyContexts.mq (h : OnlyContexts s t) (j : Nat) : (getCore t j).mq = (getCore s j).mq := by rw [h.2]
theorem OnlyContexts.banks (h : OnlyContexts s t) (j : Nat) : (getCore t j).a0 = (getCore s j).a0 ∧ (getCore t j).a1 = (getCore s j).a1 := by rw [h.2]; exact ⟨rfl, rfl⟩
theorem OnlyContexts.chans (h : OnlyContexts s t) (j : Nat) : (getCore t j).chans = (getCore s j).chans := by rw [h.2]
theorem OnlyContexts.cwp (h : OnlyContexts s t) (j : Nat) : (getCore t j).cwp = (getCore s j).cwp := by rw [h.2]
theorem foldl_only {α : Type} (f : State → α → State) (h : ∀ s a, OnlyContexts s (f s a)) (l : List α) (s : State) : OnlyContexts s (l.foldl f s) := by
  induction l generalizing s with
  | nil => exact ⟨rfl, fun _ => rfl⟩
  | cons a r ih => exact (h s a).trans (ih _)
theorem OnlyContexts.refl (s : State) : OnlyContexts s s := ⟨rfl, fun _ => rfl⟩
theorem getCore_dropClaim (s : State) (c j : Nat) : getCore (dropClaim s c) j = { getCore s j with sbuf := (getCore s j).sbuf.filter fun x => x.op != .claim c } := by
  refine (congrArg (fun o => o.getD ({} : Core)) (amGet_map (fun _ (e : Core) => { e with sbuf := e.sbuf.filter fun x => x.op != .claim c }) s.cores j)).trans ?_
  unfold getCore amGetD
  cases amGet s.cores j <;> rfl
theorem mFinish_law (s : State) (n : Nat) (m : MCmd) : ∃ v, OnlyContexts v (mFinish s n m) ∧ v.mem = s.mem ∧
    getCore v n = { getCore s n with sbuf := (getCore v n).sbuf, mq := (getCore s n).mq.filter fun x => x.id != m.id } := by
  refine ⟨_, (modCtx_only _ m.ctx _).trans (settleWaits_only ..), rfl, ?_⟩
  rw [getCore_modCore, if_pos rfl, getCore_dropClaim]
theorem findSome_hit {α β : Type} {f : α → Option β} {y : β} {xs : List α} (h : ∃ x ∈ xs, f x = some y) (hf : ∀ x ∈ xs, f x = none ∨ f x = some y) :
    xs.findSome? f = some y := by
  induction xs with
  | nil => obtain ⟨_, h, _⟩ := h; cases h
  | cons a r ih =>
    rw [List.findSome?_cons]
    rcases hf a (by simp) with ha | ha
    · rw [ha]; simp only
      refine ih ?_ fun x hx => hf x (by simp [hx])
      obtain ⟨x, hx, hy⟩ := h
      rcases List.mem_cons.1 hx with rfl | hx
      · rw [ha] at hy; cases hy
      · exact ⟨x, hx, hy⟩
    · rw [ha]
theorem mem_roundRobin {l p : Nat} (h : p < 8) : p ∈ roundRobin l := by
  unfold roundRobin
  refine List.mem_map.2 ⟨(p + 7 * (l + 1)) % 8, List.mem_range.2 (by omega), by omega⟩
theorem bytes_fold (k : Core) (a : Nat) (bs : List Byte) :
    (List.range bs.length).foldl (fun k i => spWrite k (a + i) [bs.getD i 0]) k = { k with sp := memPut k.sp a bs } := by
  induction bs generalizing k a with
  | nil => rfl
  | cons b r ih =>
    have h := ih (spWrite k a [b]) (a + 1)
    rw [List.length_cons, List.range_succ_eq_map, List.foldl_cons, List.foldl_map]
    simp only [List.getD_cons_zero, Nat.add_zero, List.getD_cons_succ]
    have e : (fun (x : Core) (y : Nat) => spWrite x (a + y.succ) [r.getD y 0]) = fun x y => spWrite x (a + 1 + y) [r.getD y 0] := by
      funext x y; rw [show a + y.succ = a + 1 + y by omega]
    rw [e, h]; rfl
theorem unitWrite_clean {k : Core} (hp : k.spPoison = []) (a : Nat) (bs : List Byte) : unitWrite k a bs = ({ k with sp := memPut k.sp a bs }, none) := by
  unfold unitWrite
  have e : (granules a bs.length).filter (fun g => k.spPoison.contains g && !(decide (a ≤ g * 4) && decide (g * 4 + 4 ≤ a + bs.length))) = [] := by
    rw [hp]; simp
  simp only [e, List.contains_nil, Bool.false_eq_true, if_false, bytes_fold]
  rw [hp]; rfl
theorem spStore_sp (k : Core) (a : Nat) (bs : List Byte) : (spStore k a bs).sp = memPut k.sp a bs := rfl
/-- A page's address that is in HBM is served there. -/
theorem homePlace_hbm {s : State} {p : Page} {va : Word} {a : Nat} (h : p.loc va = .hbm a) (w : Bool) : homePlace s p va w = .hbm a := by
  unfold homePlace ownPlace; rw [h]

theorem hbmBytes_keyed {s : State} {key : BitVec 8} {a n : Nat} (h : keyed s key a n = true) : hbmBytes s key a n = memBytes s.mem a n := by
  unfold hbmBytes; rw [if_pos h]

theorem OnlyCounts.keyed {s t : State} (h : OnlyCounts s t) (key : BitVec 8) (a n : Nat) : Machine.keyed t key a n = Machine.keyed s key a n := by
  rw [h]; rfl
theorem OnlyCounts.mem {s t : State} (h : OnlyCounts s t) : t.mem = s.mem := by rw [h]
theorem OnlyCounts.poisonedAt {s t : State} (h : OnlyCounts s t) (l : Loc) (n : Nat) : Machine.poisonedAt t l n = Machine.poisonedAt s l n := by
  rw [h]; rfl
theorem OnlyCounts.getCore {s t : State} (h : OnlyCounts s t) (n : Nat) : Machine.getCore t n = Machine.getCore s n := by rw [h]; rfl

theorem spStore_rest (k : Core) (a : Nat) (bs : List Byte) : spStore k a bs = { k with sp := (spStore k a bs).sp, spPoison := (spStore k a bs).spPoison } := rfl

/-- Lines stored to the scratchpad change nothing else of the core. -/
theorem storeLines_rest (f : Nat → Nat) (b : Nat → List Byte) (l : List Nat) (k : Core) :
    (l.foldl (fun k i => spStore k (f i) (b i)) k).chans = k.chans ∧ (l.foldl (fun k i => spStore k (f i) (b i)) k).cwp = k.cwp ∧
      (l.foldl (fun k i => spStore k (f i) (b i)) k).sp = l.foldl (fun m i => memPut m (f i) (b i)) k.sp := by
  induction l generalizing k with
  | nil => exact ⟨rfl, rfl, rfl⟩
  | cons i r ih =>
    obtain ⟨h1, h2, h3⟩ := ih (spStore k (f i) (b i))
    rw [List.foldl_cons, List.foldl_cons, h1, h2, h3]
    exact ⟨rfl, rfl, rfl⟩

/-- What a tile of a subscription that lands leaves: its lines in its slot, the landed count and the pointer (R266). -/
theorem landTile_law {s : State} {n ch : Nat} {x : Chan} {ext : List Byte} {a : Nat → Nat}
    (hl : ∀ i, i < x.slotb / 64 → let va := x.src + word x.landed * x.sstride + word (64 * i)
      (x.srcPage va).loc va = .hbm (a i) ∧ keyed s (x.srcPage va).key (a i) 64 = true ∧ poisonedAt s (.hbm (a i)) 64 = false) :
    OnlyCounts (setCore s n { (List.range (x.slotb / 64)).foldl (fun k i => spStore k (x.slotAt x.landed + 64 * i) (memBytes s.mem (a i) 64)) (getCore s n) with
        chans := amSet (getCore s n).chans ch { x with landed := x.landed + 1 },
        cwp := amSet (getCore s n).cwp ch (x.ring + x.slotb * (x.landed % x.slots + 1)) }) (landTile s n ch x ext) := by
  unfold landTile
  extract_lets src va u
  have key : ∀ (l : List Nat), (∀ i ∈ l, i < x.slotb / 64) → ∀ (k : Core) (w : State), (∀ k', OnlyCounts (setCore s n k') (setCore w n k')) →
      w.mem = s.mem → (∀ y b j, keyed w y b j = keyed s y b j) → (∀ b j, poisonedAt w (.hbm b) j = poisonedAt s (.hbm b) j) → getCore w n = k →
      ∃ v, (∀ k', OnlyCounts (setCore s n k') (setCore v n k')) ∧
        getCore v n = l.foldl (fun k i => spStore k (x.slotAt x.landed + 64 * i) (memBytes s.mem (a i) 64)) k ∧
        l.foldl (fun s i =>
          let va := va + word (64 * i)
          let l := x.srcLoc s va
          let s := touch s (dieOf n) l (x.srcPage va) .read 64
          let bad : Option Cause := if linkDown s l then some .rlink else if poisonedAt s l 64 then some .poison else none
          let bs := if bad.isSome then List.replicate 64 0 else readWide s l 64 (ext.drop (64 * i)) (x.srcPage va)
          let s := match bad with | some c => engineReport s x.tslot n ch x.node c false va | none => s
          modCore s n fun k => spStore k (x.slotAt x.landed + 64 * i) bs) w = v := by
    intro l
    induction l with
    | nil => exact fun _ k w hw _ _ _ hk => ⟨w, hw, hk, rfl⟩
    | cons i r ih =>
      intro hi k w hw hm hy hp hk
      obtain ⟨h1, h2, h3⟩ := hl i (hi i (List.mem_cons_self ..))
      rw [List.foldl_cons, List.foldl_cons]
      have hs : x.srcLoc w (va + word (64 * i)) = .hbm (a i) := homePlace_hbm h1 false
      have hc := touch_counts w (dieOf n) (.hbm (a i)) (x.srcPage (va + word (64 * i))) .read 64
      have hq : poisonedAt (touch w (dieOf n) (.hbm (a i)) (x.srcPage (va + word (64 * i))) .read 64) (.hbm (a i)) 64 = false :=
        (hc.poisonedAt ..).trans ((hp ..).trans h3)
      have hb : readWide (touch w (dieOf n) (.hbm (a i)) (x.srcPage (va + word (64 * i))) .read 64) (.hbm (a i)) 64 (ext.drop (64 * i))
          (x.srcPage (va + word (64 * i))) = memBytes s.mem (a i) 64 := by
        unfold readWide
        refine (hbmBytes_keyed ((hc.keyed ..).trans ((hy ..).trans h2))).trans ?_
        rw [hc.mem, hm]
      simp only [hs, show ∀ v, linkDown v (.hbm (a i)) = false from fun _ => rfl, hq, Bool.false_eq_true, if_false, Option.isSome_none, hb]
      generalize touch w (dieOf n) (.hbm (a i)) (x.srcPage (va + word (64 * i))) .read 64 = y at *
      refine ih (fun j hj => hi j (List.mem_cons_of_mem _ hj)) _ _ (fun k' => ?_) (hc.mem.trans hm) (fun _ _ _ => ?_) (fun _ _ => ?_) ?_
      · unfold modCore; rw [setCore_setCore]; exact (hw k').trans (hc.put n k')
      · exact (hc.keyed ..).trans (hy ..)
      · exact (hc.poisonedAt ..).trans (hp ..)
      · rw [getCore_modCore, if_pos rfl, hc.getCore, hk]
  obtain ⟨v, h1, h2, h3⟩ := key (List.range (x.slotb / 64)) (fun i hi => List.mem_range.1 hi) _ s (fun _ => .refl _) rfl (fun _ _ _ => rfl) (fun _ _ => rfl) rfl
  have e := storeLines_rest (fun i => x.slotAt x.landed + 64 * i) (fun i => memBytes s.mem (a i) 64) (List.range (x.slotb / 64)) (getCore s n)
  have hu : u = v := h3
  clear_value u
  subst hu
  have h := h1 { src with chans := amSet (getCore s n).chans ch { x with landed := x.landed + 1 },
                          cwp := amSet (getCore s n).cwp ch (x.ring + x.slotb * (x.landed % x.slots + 1)) }
  have hs : src = getCore u n := h2.symm
  unfold modCore
  beta_reduce
  rw [← hs, show src.chans = (getCore s n).chans from e.1, show src.cwp = (getCore s n).cwp from e.2.1]
  exact h
/-! ## Engines that write memory -/

theorem OnlyStored.refl (s : State) : OnlyStored s s s.mem := rfl
theorem OnlyStored.trans {s t u : State} {m m' : Memory} (h : OnlyStored s t m) (g : OnlyStored t u m') : OnlyStored s u m' := by
  unfold OnlyStored at *; rw [g, h]
theorem OnlyStored.mem {s t : State} {m : Memory} (h : OnlyStored s t m) : t.mem = m := by rw [h]
theorem OnlyStored.keyed {s t : State} {m : Memory} (h : OnlyStored s t m) (key : BitVec 8) (a n : Nat) :
    Machine.keyed t key a n = Machine.keyed s key a n := by rw [h]; rfl
theorem OnlyStored.getCore {s t : State} {m : Memory} (h : OnlyStored s t m) (n : Nat) : Machine.getCore t n = Machine.getCore s n := by rw [h]; rfl
theorem OnlyCounts.stored {s t : State} (h : OnlyCounts s t) : OnlyStored s t s.mem := by
  unfold OnlyStored OnlyCounts at *; rw [h]
theorem OnlyStored.put {s t : State} {m : Memory} (h : OnlyStored s t m) (n : Nat) (k : Core) : OnlyStored (setCore s n k) (setCore t n k) m := by
  unfold OnlyStored at *; rw [h]; rfl

theorem rekey_same {s : State} {key : BitVec 8} {a n : Nat} (h : keyed s key a n = true) : rekey s key a n = s := by unfold rekey; rw [if_pos h]

/-- Bytes written to lines that were written under the page's key. -/
theorem writeHome_keyed {s : State} {p : Page} {a : Nat} {bs : List Byte} (h : keyed s p.key a bs.length = true) :
    writeHome s (.hbm a) bs p = { s with mem := memPut s.mem a bs, watches := (writeHome s (.hbm a) bs p).watches } := by
  have hk : keyed (noteWrite s (.hbm a) bs.length) p.key a bs.length = true := h
  unfold writeHome
  simp only [rekey_same hk]; rfl

/-- What an engine writes to a line in HBM. -/
theorem engineWrite_law {s : State} {die t cid cmd : Nat} {p : Page} {va : Word} {bs : List Byte} {a : Nat} (hl : p.loc va = .hbm a)
    (hk : keyed s p.key a bs.length = true) : OnlyStored s (engineWrite s die t cid cmd p va bs false) (memPut s.mem a bs) := by
  have hc := touch_counts s die (.hbm a) p .write bs.length
  unfold engineWrite
  simp only [homePlace_hbm hl, show linkDown s (.hbm a) = false from rfl, Bool.false_eq_true, if_false]
  generalize touch s die (.hbm a) p .write bs.length = u at *
  have hw := writeHome_keyed (s := u) (p := p) (a := a) (bs := bs) ((hc.keyed ..).trans hk)
  refine hc.stored.trans ?_
  generalize writeHome u (.hbm a) bs p = v at *
  unfold OnlyStored unpoison
  rw [hw, hc.mem]

theorem engineSp_clean {k : Core} {a n : Nat} (h : spPoisoned k a n = false) : engineSp k a n = (memBytes k.sp a n, false) := by
  unfold engineSp
  rw [h]
  congr 1
  unfold memBytes
  refine List.map_congr_left fun i hi => ?_
  have hi := List.mem_range.1 hi
  unfold spPoisoned at h
  rw [List.any_eq_false] at h
  have hm : (a + i) / 4 ∈ granules a n := by
    unfold granules
    exact List.mem_map.2 ⟨(a + i) / 4 - a / 4, List.mem_range.2 (by omega), by omega⟩
  exact if_neg (h _ hm)

/-- What a tile of a subscription that is carried back leaves: its lines in memory, and the pulled count (R267). -/
theorem pullTile_law {s : State} {n ch : Nat} {x : Chan} {a : Nat → Nat}
    (hl : ∀ i, i < x.slotb / 64 → let va := x.dst + word x.pulled * x.dstride + word (64 * i)
      (x.dstPage va).loc va = .hbm (a i) ∧ keyed s (x.dstPage va).key (a i) 64 = true ∧ spPoisoned (getCore s n) (x.slotAt x.pulled + 64 * i) 64 = false) :
    OnlyStored (setCore s n { getCore s n with chans := amSet (getCore s n).chans ch { x with pulled := x.pulled + 1 } }) (pullTile s n ch x)
      ((List.range (x.slotb / 64)).foldl (fun m i => memPut m (a i) (memBytes (getCore s n).sp (x.slotAt x.pulled + 64 * i) 64)) s.mem) := by
  unfold pullTile
  extract_lets src va later u
  have key : ∀ (l : List Nat), (∀ i ∈ l, i < x.slotb / 64) → ∀ (m : Memory) (w : State), OnlyStored s w m →
      OnlyStored s (l.foldl (fun s i =>
          let va := va + word (64 * i)
          let from_ := x.slotAt x.pulled + 64 * i
          let (bs, bad) := engineSp (getCore s n) from_ 64
          let s := if bad then engineReport s x.tslot n ch x.node .poison false (word from_) else s
          let s := engineWrite s (dieOf n) x.tslot (x.ctx.getD noContext) x.id (x.dstPage va) va bs bad
          if later.contains (x.dstLoc s va).line then s else unclaimLine s x.id (x.dstLoc s va)) w)
        (l.foldl (fun m i => memPut m (a i) (memBytes (getCore s n).sp (x.slotAt x.pulled + 64 * i) 64)) m) := by
    intro l
    induction l with
    | nil => exact fun _ m w hw => hw
    | cons i r ih =>
      intro hi m w hw
      obtain ⟨h1, h2, h3⟩ := hl i (hi i (List.mem_cons_self ..))
      rw [List.foldl_cons, List.foldl_cons]
      refine ih (fun j hj => hi j (List.mem_cons_of_mem _ hj)) _ _ ?_
      have hb : engineSp (getCore w n) (x.slotAt x.pulled + 64 * i) 64 = (memBytes (getCore s n).sp (x.slotAt x.pulled + 64 * i) 64, false) := by
        rw [hw.getCore]; exact engineSp_clean h3
      simp only [hb, Bool.false_eq_true, if_false]
      have hlen := memBytes_length (getCore s n).sp (x.slotAt x.pulled + 64 * i) 64
      have he := engineWrite_law (s := w) (die := dieOf n) (t := x.tslot) (cid := x.ctx.getD noContext) (cmd := x.id) h1
        (bs := memBytes (getCore s n).sp (x.slotAt x.pulled + 64 * i) 64) (by rw [hlen]; exact (hw.keyed ..).trans h2)
      rw [hw.mem] at he
      have hr := hw.trans he
      split
      · exact hr
      · refine hr.trans ?_
        have := hr.mem
        unfold OnlyStored unclaimLine
        rw [this]
  have h := key (List.range (x.slotb / 64)) (fun i hi => List.mem_range.1 hi) s.mem s (.refl s)
  have h' : OnlyStored s u _ := h
  clear_value u
  unfold modCore
  rw [h'.getCore]
  exact h'.put _ _

theorem updWhere_id {α : Type} (p : α → Bool) (q : α → Prop) [DecidablePred q] (f : α → α) (xs : List α) (h : ∀ x, p x = decide (q x)) :
    updWhere p f xs = xs.map fun x => if q x then f x else x := by
  unfold updWhere; congr 1; funext x; rw [h]; simp
theorem mapCtxs_rf (s : State) (n : Nat) (f : Core → Nat → Ctx → Ctx) (j : Nat) : (getCore (modCore s n fun k => mapCtxs k (f k)) j).rf = (getCore s j).rf := by
  have h := getCore_mapCtxs s n f j
  generalize modCore s n _ = v at *
  rw [h]
theorem mapCtxs_only (s : State) (n : Nat) (f : Core → Nat → Ctx → Ctx) : OnlyContexts s (modCore s n fun k => mapCtxs k (f k)) := by
  refine ⟨rfl, fun j => ?_⟩
  have h := getCore_mapCtxs s n f j
  generalize modCore s n _ = v at *
  have r : (getCore v j).rf = (getCore s j).rf := by rw [h]
  have o : (getCore v j).rot = (getCore s j).rot := by rw [h]
  rw [r, o]; exact h
theorem rewake_only (s : State) (n : Nat) : OnlyContexts s (rewake s n) := mapCtxs_only s n fun _ _ c => _
theorem rewake_rf (s : State) (n j : Nat) : (getCore (rewake s n) j).rf = (getCore s j).rf := mapCtxs_rf s n (fun _ _ c => _) j
theorem rewake_ready {s : State} {n id : Nat} {c : Ctx} (h : getCtx s id = some c) (hr : c.status = .ready) : getCtx (rewake s n) id = some c := by
  unfold rewake
  rw [getCtx_mapCtxs, h]
  split <;> simp [hr]
theorem OnlyContexts.sbuf (h : OnlyContexts s t) (j : Nat) : (getCore t j).sbuf = (getCore s j).sbuf := by rw [h.2]
theorem OnlyContexts.pcc (h : OnlyContexts s t) (j : Nat) : (getCore t j).pcc = (getCore s j).pcc := by rw [h.2]
theorem OnlyContexts.reqs (h : OnlyContexts s t) : t.reqs = s.reqs := by rw [h.1]
theorem OnlyContexts.walks (h : OnlyContexts s t) : t.walks = s.walks := by rw [h.1]
theorem OnlyContexts.tlbis (h : OnlyContexts s t) : t.tlbis = s.tlbis := by rw [h.1]
theorem OnlyContexts.faults (h : OnlyContexts s t) (r : RingId) : getFaults t r = getFaults s r := by rw [h.1]; rfl
theorem endWalk_ready {s : State} {w : Walk} {id : Nat} {c : Ctx} (hw : w.ctx = some id) (hc : getCtx s id = some c) (h : c.status = .parked (.page w.id)) :
    endWalk s w = setCtx { s with walks := s.walks.filter fun x => x.id != w.id } id { c with status := .ready } := by
  unfold endWalk
  rw [hw]
  show modCtx _ id _ = _
  refine (modCtx_some (s := { s with walks := s.walks.filter fun x => x.id != w.id }) (c := c) hc _).trans ?_
  rw [if_pos h]
theorem getFaults_setFaults (s : State) (r : RingId) (f : FaultWords) : getFaults (setFaults s r f) r = f := by
  cases r with
  | tenant t => simp [getFaults, setFaults, getTenant_modTenant]
  | hyp => rfl
theorem setFaults_rest (s : State) (r : RingId) (f : FaultWords) : setFaults s r f = { s with tenants := (setFaults s r f).tenants, hyp := (setFaults s r f).hyp } := by
  cases r <;> rfl
theorem getCtx_setFaults (s : State) (r : RingId) (f : FaultWords) (id : Nat) : getCtx (setFaults s r f) id = getCtx s id := by
  rw [setFaults_rest]; rfl
theorem takeWaiter_one {s : State} {rid : RingId} {f : FaultWords} {tok : BitVec 32} {w : Waiter} {addr : Word} {a : BitVec 2}
    (hf : getFaults s rid = f) (hw : f.waiters = [(tok, w, addr)]) :
    takeWaiter s rid (a ++ 0#30 ++ tok) a.toNat = (some (w, addr), setFaults s rid { f with waiters := [] }) := by
  have ht : BitVec.toNat (w := 64) (a ++ 0#30 ++ tok) = a.toNat * 2 ^ 62 + tok.toNat := by
    have h1 : (a ++ 0#30 ++ tok).toNat = ((a.toNat <<< 30 ||| 0) <<< 32 ||| tok.toNat) := by rw [BitVec.toNat_append, BitVec.toNat_append]; rfl
    refine h1.trans ?_
    rw [Nat.or_zero, ← Nat.shiftLeft_add_eq_or_of_lt tok.isLt, Nat.shiftLeft_eq, Nat.shiftLeft_eq]; omega
  have ha := a.isLt
  have hk := tok.isLt
  have e1 : fld 62 2 (a ++ 0#30 ++ tok) = a.toNat := by rw [fld_eq, ht]; omega
  have e2 : fld 32 30 (a ++ 0#30 ++ tok) = 0 := by rw [fld_eq, ht]; omega
  have e3 : BitVec.extractLsb' (n := 64) 0 32 (a ++ 0#30 ++ tok) = tok := by
    apply BitVec.eq_of_toNat_eq
    have := fld_eq 0 32 (a ++ 0#30 ++ tok)
    unfold fld at this
    rw [this, ht]; omega
  unfold takeWaiter
  simp only [e1, e2, e3, bne_self_eq_false, Bool.or_self, Bool.false_eq_true, if_false, hf, hw, List.find?_cons, beq_self_eq_true, List.filter_cons, List.filter_nil]
theorem coreOf_ctxId (n i : Nat) (h : i < 64) : coreOf (ctxId n i) = n := by unfold coreOf ctxId; omega
theorem slotOf_ctxId (n i : Nat) (h : i < 64) : slotOf (ctxId n i) = i := by unfold slotOf ctxId; omega
theorem endPark_parked {s : State} {id : Nat} {c : Ctx} {l : Loc} (hc : getCtx s id = some c) (hs : c.status = .held (.park none l)) :
    endPark s id = setCtx { s with watches := s.watches.filter fun w => w.ctx != id } id { c with status := .ready } := by
  unfold endPark
  rw [hc]
  simp only [hs]
  unfold wake
  exact modCtx_some (s := { s with watches := s.watches.filter fun w => w.ctx != id }) (c := c) hc _
theorem raiseRow_rest (s : State) (n : Nat) : raiseRow s n = { s with rows := (raiseRow s n).rows } := by
  unfold raiseRow modRow; split <;> rfl
theorem raised_law (v : State) (n : Nat) : ∃ w, (refreshWin (raiseRow v n) n).mem = v.mem ∧ (refreshWin (raiseRow v n) n).flights = v.flights ∧
    getCore (refreshWin (raiseRow v n) n) n = { getCore v n with win := w } := by
  have h1 := raiseRow_rest v n
  have h2 : getCore (raiseRow v n) n = getCore v n := by rw [h1]; rfl
  have hm : (raiseRow v n).mem = v.mem := by rw [h1]
  have hf : (raiseRow v n).flights = v.flights := by rw [h1]
  unfold refreshWin
  generalize raiseRow v n = u at *
  simp only
  generalize List.foldl _ _ _ = w
  refine ⟨w, hm, hf, ?_⟩
  rw [getCore_setCore_same, h2]
theorem placeAt_law (s : State) (core slot base : Nat) (c : Cont) (hs : slot < 64) :
    (placeAt s core slot base c).mem = s.mem ∧ (placeAt s core slot base c).flights = s.flights ∧
    (getCore (placeAt s core slot base c) core).arrivals = (getCore s core).arrivals ∧
    (getCore (placeAt s core slot base c) core).ring = (getCore s core).ring ∧
    ∃ x, getCtx (placeAt s core slot base c) (ctxId core slot) = some x ∧ x.pc = c.pc ∧ x.base = base ∧ x.size = c.allot ∧ x.vmid = c.vmid ∧ x.status = .ready := by
  unfold placeAt
  extract_lets n x rf rf'
  have hx : x.pc = c.pc ∧ x.base = base ∧ x.size = c.allot ∧ x.vmid = c.vmid ∧ x.status = .ready := ⟨rfl, rfl, rfl, rfl, rfl⟩
  clear_value x rf'
  obtain ⟨w, h1, h2, h3⟩ := raised_law (modCore s core fun k => { k with ctxs := amSet k.ctxs slot x, rf := rf' }) core
  rw [getCore_modCore, if_pos rfl] at h3
  refine ⟨h1, h2, ?_, ?_, ?_⟩
  · exact (congrArg Core.arrivals h3).trans rfl
  · exact (congrArg Core.ring h3).trans rfl
  · refine ⟨x, ?_, hx⟩
    unfold getCtx
    rw [coreOf_ctxId _ _ hs, slotOf_ctxId _ _ hs, h3, amGet_amSet, if_pos rfl]
theorem amGet_amErase {α : Type} (m : AMap α) (k : Nat) : amGet (amErase m k) k = none := by
  unfold amErase
  induction m with
  | nil => rfl
  | cons e r ih =>
    obtain ⟨i, v⟩ := e
    by_cases h : i = k
    · simp only [List.filter_cons, h, bne_self_eq_false, Bool.false_eq_true, if_false]; exact ih
    · have : (i != k) = true := by simp [h]
      simp only [List.filter_cons, this, if_true, amGet, h, if_false]; exact ih
theorem modField_eq (s : State) (t i : Nat) (g : Field → Field) : modField s t i g = modField s t i fun _ => g (getField s t i) := rfl
theorem modPort_eq (s : State) (p : Nat) (g : Port → Port) : modPort s p g = modPort s p fun _ => g (portAt s p) := by
  unfold modPort portAt; split <;> rfl
theorem getField_modField_same (s : State) (t i : Nat) (g : Field → Field) : getField (modField s t i g) t i = g (getField s t i) := by
  unfold getField modField
  rw [getTenant_modTenant, if_pos rfl]
  unfold amGetD
  rw [amGet_amSet, if_pos rfl]; rfl
theorem modField_modField (s : State) (t i : Nat) (g h : Field → Field) : modField (modField s t i g) t i h = modField s t i fun x => h (g x) := by
  unfold modField modTenant setTenant
  simp only [getTenant, amGetD, amGet_amSet, if_true, Option.getD_some, amSet_amSet]
theorem settleDisable_off {s : State} {t i : Nat} (h : (getField s t i).disabling = false) : settleDisable s t i = s := by
  unfold settleDisable; simp only [h, Bool.false_and, Bool.false_eq_true, if_false]
theorem getField_touch (pay : Bool) (s : State) (die : Nat) (l : Loc) (p : Page) (w : Acc) (n y f : Nat) :
    getField (touchLine pay s die l p w n) y f = getField s y f := by
  have h := congrArg (fun x : Tenant => amGetD ({} : Field) x.fields f) (touchLine_tenant pay s die l p w n y)
  exact h
theorem portAt_modPort (s : State) (p : Nat) (g : Port → Port) : portAt (modPort s p g) p = g (portAt s p) := by
  unfold modPort portAt; by_cases h : p = 0 <;> simp [h]
theorem modPort_mem (s : State) (p : Nat) (g : Port → Port) : (modPort s p g).mem = s.mem := by unfold modPort; split <;> rfl
theorem portAt_counts {s t : State} (h : OnlyCounts s t) (n : Nat) : portAt t n = portAt s n := by rw [h]; rfl
theorem portAt_unpoison (s : State) (l : Loc) (m n : Nat) : portAt (unpoison s l m) n = portAt s n := by
  unfold unpoison
  cases l <;> rfl
theorem modTenant_eq (s : State) (t : Nat) (f : Tenant → Tenant) : modTenant s t f = setTenant s t (f (getTenant s t)) := rfl
theorem setTenant_setTenant (s : State) (t : Nat) (x y : Tenant) : setTenant (setTenant s t x) t y = setTenant s t y := by
  simp [setTenant, amSet_amSet]
theorem getTenant_setTenant_same (s : State) (t : Nat) (x : Tenant) : getTenant (setTenant s t x) t = x := by rw [getTenant_setTenant, if_pos rfl]
theorem getTenant_modTenant_same (s : State) (t : Nat) (f : Tenant → Tenant) : getTenant (modTenant s t f) t = f (getTenant s t) := by rw [getTenant_modTenant, if_pos rfl]
theorem unlessSwitching_off {s : State} (h : s.fw.switching = false) (ev : Instr) (f : State → State) : unlessSwitching s ev f = f s := by
  unfold unlessSwitching; simp [h]
theorem find_updWhere {xs : List Launch} {id : Nat} {f : Launch → Launch} (hf : ∀ l, (f l).id = l.id) :
    (updWhere (fun l => l.id == id) f xs).find? (fun l => l.id == id) = (xs.find? fun l => l.id == id).map f := by
  induction xs with
  | nil => rfl
  | cons a r ih =>
    unfold updWhere at *
    rw [List.map_cons]
    by_cases h : a.id = id
    · have h1 : (a.id == id) = true := by simp [h]
      have h2 : ((f a).id == id) = true := by rw [hf]; exact h1
      rw [if_pos h1]
      rw [List.find?_cons, List.find?_cons]
      rw [h1, h2]; rfl
    · have h1 : (a.id == id) = false := by simp [h]
      rw [if_neg (by simp [h])]
      rw [List.find?_cons, List.find?_cons]
      rw [h1]; exact ih
theorem launchOf_modLaunch (s : State) (t : Nat) (r : NodeRef) (f : Launch → Launch) (hf : ∀ l, (f l).id = l.id) :
    launchOf (modLaunch s t r.launch f) t (some r) = (launchOf s t (some r)).map f := by
  unfold launchOf modLaunch
  simp only [Option.bind_some, getTenant_modTenant_same]
  exact find_updWhere hf
theorem launchOf_id {s : State} {t : Nat} {r : NodeRef} {l : Launch} (h : launchOf s t (some r) = some l) : l.id = r.launch := by
  unfold launchOf at h
  simp only [Option.bind_some] at h
  have := List.find?_some h
  simpa using this
theorem runningNode_some {s : State} {t : Nat} {n : NodeRef} {l : Launch} {g : GNode} {y : LNode} (h : runningNode s t n = some (l, g, y)) :
    launchOf s t (some n) = some l ∧ gnodeOf s t (some n) = some g ∧ nodeState s t (some n) = some y ∧ y.phase = .running := by
  unfold runningNode at h
  split at h
  · rename_i h1 h2 h3
    split at h
    · rename_i h4
      cases h
      exact ⟨h1, h2, h3, h4⟩
    · cases h
  · cases h
theorem getLsbD_putBit {n : Nat} (m : BitVec n) (i j : Nat) (b : Bool) (hi : i < n) :
    (putBit m i b).getLsbD j = if j = i then b else m.getLsbD j := by
  unfold putBit
  by_cases h : j = i
  · subst h; cases b <;> simp [hi]
  · cases b
    · simp only [h, if_false, Bool.false_eq_true, BitVec.getLsbD_and, BitVec.getLsbD_not, BitVec.getLsbD_shiftLeft]
      by_cases hj : j < n
      · by_cases hlt : j < i
        · simp [hlt, hj]
        · have : (1#n).getLsbD (j - i) = false := by
            rw [BitVec.getLsbD_one]; simp; omega
          simp [this, hj]
      · simp [BitVec.getLsbD_of_ge m j (by omega)]
    · simp only [h, if_false, if_true, BitVec.getLsbD_or, BitVec.getLsbD_shiftLeft]
      by_cases hlt : j < i
      · simp [hlt]
      · have : (1#n).getLsbD (j - i) = false := by
          rw [BitVec.getLsbD_one]; simp; omega
        simp [this]
theorem owns_setOwns (x : Tenant) (k : ResKind) (i : Nat) (b : Bool) (hi : i < k.count) : (x.setOwns k i b).owns k i = b := by
  cases k <;> simp only [ResKind.count] at hi <;> unfold Tenant.setOwns Tenant.owns <;> simp only [] <;>
    rw [getLsbD_putBit _ _ _ _ (by omega), if_pos rfl]
theorem amGet_mapVal {α : Type} (g : α → α) (m : AMap α) (k : Nat) : amGet (m.map fun e => (e.1, g e.2)) k = (amGet m k).map g := by
  induction m with
  | nil => rfl
  | cons e r ih => obtain ⟨i, x⟩ := e; simp only [List.map_cons, amGet]; split
                   · rfl
                   · exact ih
theorem getTenant_map (s : State) (g : Tenant → Tenant) (h : g {} = {}) (y : Nat) :
    getTenant { s with tenants := s.tenants.map fun e => (e.1, g e.2) } y = g (getTenant s y) := by
  unfold getTenant amGetD
  rw [show amGet ({ s with tenants := s.tenants.map fun e => (e.1, g e.2) } : State).tenants y = (amGet s.tenants y).map g from amGet_mapVal g s.tenants y]
  cases amGet s.tenants y
  · exact h.symm
  · rfl
theorem getTenant_congr {s u : State} (h : u.tenants = s.tenants) (y : Nat) : getTenant u y = getTenant s y := by unfold getTenant; rw [h]
theorem foldl_modCore_rest (cs : List Nat) (f : Core → Core) (s : State) :
    (cs.foldl (fun s c => modCore s c f) s).mem = s.mem ∧ (cs.foldl (fun s c => modCore s c f) s).tBusy = s.tBusy ∧
      (cs.foldl (fun s c => modCore s c f) s).tenants = s.tenants := by
  induction cs generalizing s with
  | nil => exact ⟨rfl, rfl, rfl⟩
  | cons c cs ih => rw [List.foldl_cons]; exact ih _
theorem setPoint_rest (s : State) (r p : Nat) : setPoint s r p = { s with cores := (setPoint s r p).cores, rows := (setPoint s r p).rows, segs := (setPoint s r p).segs } := by
  have h1 : ∀ (l : List Nat) (u : State), ∃ x, l.foldl (fun s c => if (getCore s c).div < minDiv p then setCoreDiv s c (minDiv p) else s) u = { u with cores := x } := by
    intro l
    induction l with
    | nil => exact fun u => ⟨u.cores, rfl⟩
    | cons c r ih =>
      intro u; rw [List.foldl_cons]
      split
      · obtain ⟨x, hx⟩ := ih (setCoreDiv u c (minDiv p)); exact ⟨x, hx⟩
      · exact ih u
  have h2 : ∀ (l : List (Nat × Seg)) (u : State), ∃ x, l.foldl (fun s e => if e.2.div < minDiv p then setSegDiv s e.1 (minDiv p) else s) u = { u with segs := x } := by
    intro l
    induction l with
    | nil => exact fun u => ⟨u.segs, rfl⟩
    | cons c r ih =>
      intro u; rw [List.foldl_cons]
      split
      · obtain ⟨x, hx⟩ := ih (setSegDiv u c.1 (minDiv p))
        have : ∃ y, setSegDiv u c.1 (minDiv p) = { u with segs := y } := by
          unfold setSegDiv modSeg; split
          · exact ⟨_, rfl⟩
          · exact ⟨u.segs, rfl⟩
        obtain ⟨y, hy⟩ := this
        exact ⟨x, by rw [hx, hy]⟩
      · exact ih u
  unfold setPoint
  extract_lets v w
  obtain ⟨x, hx⟩ := h1 (rowCores r) v
  obtain ⟨y, hy⟩ := h2 (rowSegs w r) w
  rw [hy, show w = { v with cores := x } from hx]; rfl
theorem applyCap_law (s : State) (r : Nat) :
    (applyCap s r).mem = s.mem ∧ (applyCap s r).tBusy = s.tBusy ∧ (applyCap s r).tenants = s.tenants := by
  unfold applyCap; split
  · have h := setPoint_rest s r (pointFor s r (highest s r))
    exact ⟨(congrArg State.mem h).trans rfl, (congrArg State.tBusy h).trans rfl, (congrArg State.tenants h).trans rfl⟩
  · exact ⟨rfl, rfl, rfl⟩
theorem applyCap_mem (s : State) (r : Nat) : (applyCap s r).mem = s.mem := (applyCap_law s r).1
/-- What writing lines back changes of a tenant: nothing that it owns. -/
theorem countEvent_owns (s : State) (t ev u n y : Nat) (k : ResKind) (j : Nat) :
    (getTenant (countEvent s t ev u n) y).owns k j = (getTenant s y).owns k j := by
  have h := congrArg (fun x : Tenant => x.owns k j) (countEvent_tenant s t ev u n y)
  cases k <;> exact h
theorem spend_owns (s : State) (t c n y : Nat) (k : ResKind) (j : Nat) : (getTenant (spend s t c n) y).owns k j = (getTenant s y).owns k j := by
  have h := congrArg (fun x : Tenant => x.owns k j) (spend_tenant s t c n y)
  cases k <;> exact h
theorem writeBack_owns (s : State) (e : Nat × SliceLine) (y : Nat) (k : ResKind) (j : Nat) :
    (getTenant (writeBack s e) y).owns k j = (getTenant s y).owns k j := by
  have h := congrArg (fun x : Tenant => x.owns k j) (writeBack_tenant s e y)
  cases k <;> exact h
theorem dropLines_law (s : State) (b : Bool) (q : Nat × SliceLine → Bool) :
    (dropLines s b q).mem = s.mem ∧ (dropLines s b q).tBusy = s.tBusy ∧ ∀ y k j, (getTenant (dropLines s b q) y).owns k j = (getTenant s y).owns k j := by
  have h : ∀ (l : List (Nat × SliceLine)) (u : State), (l.foldl writeBack u).mem = u.mem ∧ (l.foldl writeBack u).tBusy = u.tBusy ∧
      ∀ y k j, (getTenant (l.foldl writeBack u) y).owns k j = (getTenant u y).owns k j := by
    intro l
    induction l with
    | nil => exact fun _ => ⟨rfl, rfl, fun _ _ _ => rfl⟩
    | cons e r ih =>
      intro u
      obtain ⟨h1, h2, h3⟩ := ih (writeBack u e)
      rw [List.foldl_cons]
      have hr := writeBack_rest u e
      exact ⟨h1.trans ((congrArg State.mem hr).trans rfl), h2.trans ((congrArg State.tBusy hr).trans rfl),
        fun y k j => (h3 y k j).trans (writeBack_owns ..)⟩
  unfold dropLines
  cases b with
  | false => exact ⟨rfl, rfl, fun _ _ _ => rfl⟩
  | true => exact h _ s
theorem transferWork_law (s : State) (k : ResKind) (i dest : Nat) (old : Option Nat) :
    (transferWork s k i dest old).mem = s.mem ∧ (transferWork s k i dest old).tBusy = s.tBusy ∧
    ∀ y j, (getTenant (transferWork s k i dest old) y).owns k j = (getTenant s y).owns k j := by
  cases k with
  | row =>
    unfold transferWork
    simp only []
    obtain ⟨a, b, c⟩ := foldl_modCore_rest (rowCores i) passCore s
    generalize (rowCores i).foldl _ s = w at a b c
    obtain ⟨d, e, f⟩ := applyCap_law (modTenant w dest fun x => { x with grants := x.grants.filter fun e => e.1 / 16 != i }) i
    refine ⟨d.trans a, e.trans b, fun y j => ?_⟩
    rw [getTenant_congr f, getTenant_modTenant]
    split
    · next h => rw [h, getTenant_congr c]; rfl
    · rw [getTenant_congr c]
  | slice =>
    unfold transferWork
    obtain ⟨a, b, c⟩ := dropLines_law s true fun e => e.2.die * 64 + e.1 % 64 == i
    exact ⟨a, b, fun y j => c y _ j⟩
  | channel =>
    unfold transferWork; simp only [takeId]
    exact ⟨(dropLines_law _ ..).1, (dropLines_law _ ..).2.1, fun y j => (dropLines_law _ ..).2.2 y _ j⟩
  | engine => unfold transferWork; exact ⟨rfl, rfl, fun _ _ => rfl⟩
theorem transfer_law {s : State} (k : ResKind) (hb : s.tBusy = false) (h1 : fld 62 2 s.arg.v = k.code) (h2 : fld 54 8 s.arg.v = 0)
    (h3 : fld 8 40 s.arg.v = 0) :
    let i := fld 0 8 s.arg.v
    let dest := fld 48 6 s.arg.v
    (k.count ≤ i → transfer k s = { s with tStatus := 2 }) ∧
    (i < k.count → (getTenant s dest).en = false → transfer k s = { s with tStatus := 3 }) ∧
    (i < k.count → (getTenant s dest).en = true → inUse s k i = true → transfer k s = { s with tStatus := 1 }) ∧
    (i < k.count → (getTenant s dest).en = true → inUse s k i = false →
      (transfer k s).mem = s.mem ∧ (transfer k s).tBusy = true ∧ ∀ y, (getTenant (transfer k s) y).owns k i = decide (y = dest)) := by
  intro i dest
  unfold transfer
  simp only [hb, h1, h2, h3, bne_self_eq_false, Bool.or_self, Bool.false_eq_true, if_false]
  rw [show fld 0 8 s.arg.v = i from rfl, show fld 48 6 s.arg.v = dest from rfl]
  refine ⟨fun hc => ?_, fun hc he => ?_, fun hc he hu => ?_, fun hc he hu => ?_⟩
  · rw [if_pos hc]
  · rw [if_neg (by omega), he]; rfl
  · rw [if_neg (by omega), he, hu]; rfl
  · rw [if_neg (by omega), he, hu]
    simp only [Bool.not_true, Bool.false_eq_true, if_false]
    generalize ho : (s.tenants.find? _).map _ = old
    obtain ⟨a, b, c⟩ := transferWork_law (modTenant { s with
      tenants := s.tenants.map fun (e : Nat × Tenant) => (e.1, if e.2.owns k i then e.2.setOwns k i false else e.2), tBusy := true } dest
        fun x => x.setOwns k i true) k i dest old
    refine ⟨a, b, fun y => ?_⟩
    rw [c, getTenant_modTenant]
    by_cases hy : y = dest
    · rw [if_pos hy, owns_setOwns _ _ _ _ hc]; simp [hy]
    · rw [if_neg hy]
      have hd : ∀ k j, (({} : Tenant).owns k j) = false := by intro k j; cases k <;> simp [Tenant.owns]
      have := getTenant_map { s with tBusy := true } (fun x => if x.owns k i then x.setOwns k i false else x) (by rw [hd]; rfl) y
      rw [show getTenant { s with
        tenants := s.tenants.map fun (e : Nat × Tenant) => (e.1, if e.2.owns k i then e.2.setOwns k i false else e.2), tBusy := true } y = _ from this]
      generalize getTenant _ y = z
      simp only [hy, decide_false]
      split
      · exact owns_setOwns _ _ _ _ hc
      · next h => simpa using h
theorem getRow_modRow (s : State) (r j : Nat) (f : Row → Row) : getRow (modRow s r f) j = if j = r then f (getRow s r) else getRow s j := by
  unfold getRow modRow amGetD
  simp only [amGet_amSet]
  split <;> rfl
theorem foldl_setCoreDiv (cs : List Nat) (g : State → Nat → State) (h : ∀ s c, g s c = s ∨ ∃ d, g s c = setCoreDiv s c d) (s : State) :
    (cs.foldl g s).rows = s.rows ∧ (cs.foldl g s).mem = s.mem ∧ (cs.foldl g s).segs = s.segs := by
  induction cs generalizing s with
  | nil => exact ⟨rfl, rfl, rfl⟩
  | cons c cs ih =>
    rw [List.foldl_cons]
    obtain ⟨a, b, d⟩ := ih (g s c)
    rw [a, b, d]
    rcases h s c with e | ⟨d, e⟩ <;> rw [e] <;> exact ⟨rfl, rfl, rfl⟩
theorem setSegDiv_rest (s : State) (k d : Nat) : (setSegDiv s k d).rows = s.rows ∧ (setSegDiv s k d).mem = s.mem := by
  unfold setSegDiv modSeg; split <;> exact ⟨rfl, rfl⟩
theorem foldl_segs_rest (es : List (Nat × Seg)) (g : State → Nat × Seg → State) (h : ∀ s c, (g s c).rows = s.rows ∧ (g s c).mem = s.mem) (s : State) :
    (es.foldl g s).rows = s.rows ∧ (es.foldl g s).mem = s.mem := by
  induction es generalizing s with
  | nil => exact ⟨rfl, rfl⟩
  | cons c cs ih => rw [List.foldl_cons]; obtain ⟨a, b⟩ := ih (g s c); rw [a, b]; exact h s c
theorem setPoint_law (s : State) (r p : Nat) :
    (getRow (setPoint s r p) r).point = p ∧ (setPoint s r p).mem = s.mem := by
  unfold setPoint
  simp only []
  obtain ⟨a, b, _⟩ := foldl_setCoreDiv (rowCores r) (fun s c => if (getCore s c).div < minDiv p then setCoreDiv s c (minDiv p) else s)
    (fun s c => by by_cases h : (getCore s c).div < minDiv p
                   · exact .inr ⟨_, if_pos h⟩
                   · exact .inl (if_neg h)) (modRow s r fun x => { x with point := p })
  generalize (rowCores r).foldl _ (modRow s r fun x => { x with point := p }) = u at a b
  obtain ⟨a2, b2⟩ := foldl_segs_rest (rowSegs u r) (fun s e => if e.2.div < minDiv p then setSegDiv s e.1 (minDiv p) else s)
    (fun s e => by
      by_cases h : e.2.div < minDiv p
      · simp only [if_pos h]; exact setSegDiv_rest _ _ _
      · simp only [if_neg h]; exact ⟨trivial, trivial⟩) u
  refine ⟨?_, b2.trans b⟩
  unfold getRow
  rw [a2, a]
  have := getRow_modRow s r r fun x => { x with point := p }
  rw [if_pos rfl] at this
  unfold getRow at this
  rw [this]
theorem foldl_div (cs : List Nat) (P : State → Prop) (g : State → Nat → Nat) (d : Nat) (hP : ∀ s c e, P s → P (setCoreDiv s c e))
    (hg : ∀ s, P s → ∀ c ∈ cs, g s c = d) (s : State) (hs : P s) (c : Nat) (hc : c ∈ cs ∨ (getCore s c).div = d) :
    (getCore (cs.foldl (fun s c => setCoreDiv s c (g s c)) s) c).div = d := by
  induction cs generalizing s with
  | nil => rcases hc with h | h
           · exact absurd h (List.not_mem_nil)
           · exact h
  | cons y ys ih =>
    rw [List.foldl_cons]
    refine ih (fun s hs c hc => hg s hs c (List.mem_cons_of_mem _ hc)) _ (hP _ _ _ hs) ?_
    rw [hg s hs y (List.mem_cons_self ..)]
    have hk : getCore (setCoreDiv s y d) c = if c = y then { getCore s y with div := d } else getCore s c := getCore_modCore ..
    by_cases hy : c = y
    · right; rw [hk, if_pos hy]
    · rcases hc with h | h
      · left
        rcases List.mem_cons.1 h with h | h
        · exact absurd h hy
        · exact h
      · right; rw [hk, if_neg hy]; exact h
theorem withdrawBar_ready {s : State} {id : Nat} {c : Ctx} (hc : getCtx s id = some c) (h : c.status = .ready) : withdrawBar s id = s := by
  unfold withdrawBar; rw [hc]; simp only [h]
theorem rowSegs_congr {s u : State} (h : u.segs = s.segs) (r : Nat) : rowSegs u r = rowSegs s r := by unfold rowSegs; rw [h]
theorem setPoint_noSegs (s : State) (r p : Nat) (h : rowSegs s r = []) : (setPoint s r p).segs = s.segs ∧
    ∀ j, (getCore (setPoint s r p) j).step = (getCore s j).step ∧ (getCore (setPoint s r p) j).hint = (getCore s j).hint := by
  unfold setPoint
  simp only []
  have hg : ∀ (cs : List Nat) (u : State), let w := cs.foldl (fun s c => if (getCore s c).div < minDiv p then setCoreDiv s c (minDiv p) else s) u
      w.segs = u.segs ∧ ∀ j, (getCore w j).step = (getCore u j).step ∧ (getCore w j).hint = (getCore u j).hint := by
    intro cs
    induction cs with
    | nil => exact fun u => ⟨rfl, fun _ => ⟨rfl, rfl⟩⟩
    | cons c cs ih =>
      intro u
      simp only [List.foldl_cons]
      obtain ⟨a, b⟩ := ih (if (getCore u c).div < minDiv p then setCoreDiv u c (minDiv p) else u)
      refine ⟨a.trans ?_, fun j => ⟨(b j).1.trans ?_, (b j).2.trans ?_⟩⟩
      · split <;> rfl
      · split
        · rw [show getCore (setCoreDiv u c (minDiv p)) j = _ from getCore_modCore ..]; split
          · next h => rw [h]
          · rfl
        · rfl
      · split
        · rw [show getCore (setCoreDiv u c (minDiv p)) j = _ from getCore_modCore ..]; split
          · next h => rw [h]
          · rfl
        · rfl
  obtain ⟨a, b⟩ := hg (rowCores r) (modRow s r fun x => { x with point := p })
  generalize (rowCores r).foldl _ (modRow s r fun x => { x with point := p }) = u at a b
  rw [rowSegs_congr (s := s) (a.trans rfl), h]
  exact ⟨a, b⟩
theorem stepsOf_nil {s : State} {cs : List Nat} : stepsOf s cs = [] ↔ ∀ c ∈ cs, (getCore s c).step = none := by
  unfold stepsOf
  rw [List.filterMap_eq_nil_iff]
  refine forall_congr' fun c => imp_congr_right fun _ => ?_
  cases (getCore s c).step <;> simp
theorem rowCores_mem (n : Nat) : n ∈ rowCores (rowOf n) := by
  unfold rowCores rowOf; rw [List.mem_map]; exact ⟨n % 16, List.mem_range.2 (by omega), by omega⟩
theorem governRow_idle {s : State} {r : Nat} (h1 : stepsOf s (rowCores r) = []) (h2 : rowSegs s r = []) :
    let p := pointFor s r (match rowOwner s r with | some t => (getTenant s t).rowdef.toNat | none => 7)
    (governRow s r).mem = s.mem ∧ (getRow (governRow s r) r).point = p ∧ ∀ c ∈ rowCores r, (getCore (governRow s r) c).div = minDiv p := by
  intro p
  have hp : rowPoint s r = p := by unfold rowPoint; simp only []; rw [h1]; rfl
  unfold governRow
  simp only []
  rw [hp]
  obtain ⟨a, b⟩ := setPoint_law s r p
  obtain ⟨d, e⟩ := setPoint_noSegs s r p h2
  have hsteps : ∀ c ∈ rowCores r, (getCore (setPoint s r p) c).step = none := fun c hc => (e c).1.trans (stepsOf_nil.1 h1 c hc)
  generalize setPoint s r p = u at a b d e hsteps
  rw [rowSegs_congr d, h2]
  simp only [List.flatMap_nil, List.foldl_nil, List.contains_nil, Bool.false_eq_true, if_false]
  generalize minDiv (pointFor s r 7) = hard
  obtain ⟨f, g, _⟩ := foldl_setCoreDiv (rowCores r) (fun s c => setCoreDiv s c (if ([c]).any (races s) then hard else if (stepsOf s [c]).isEmpty then minDiv p else slowest s (minDiv p) hard (stepsOf s [c])))
    (fun s c => .inr ⟨_, rfl⟩) u
  refine ⟨g.trans b, ?_, ?_⟩
  · unfold getRow at a ⊢; rw [f]; exact a
  · intro c hc
    refine foldl_div (rowCores r) (fun w => ∀ c ∈ rowCores r, (getCore w c).step = none) (fun s c => if ([c]).any (races s) then hard else if (stepsOf s [c]).isEmpty then minDiv p else slowest s (minDiv p) hard (stepsOf s [c])) (minDiv p) ?_ ?_ u hsteps c (.inl hc)
    · intro w y z hw c hc
      rw [show getCore (setCoreDiv w y z) c = _ from getCore_modCore ..]
      split
      · next h => rw [← h]; exact hw c hc
      · exact hw c hc
    · intro w hw c hc
      have h1 : races w c = false := by unfold races; rw [hw c hc]; simp
      have h2 : stepsOf w [c] = [] := stepsOf_nil.2 fun y hy => by rw [List.mem_singleton.1 hy]; exact hw c hc
      simp only [List.any_cons, List.any_nil, h1, h2, Bool.or_self, Bool.false_eq_true, if_false, List.isEmpty_nil, if_true]
theorem hottestOf_one (x : Nat × Nat) : hottestOf [x] = some x := rfl
theorem foldl_one (f : State → Nat → State) (r : Nat) (xs : List Nat) (hn : xs.Nodup) (hr : r ∈ xs) (s : State) (h : ∀ u, ∀ j ∈ xs, j ≠ r → f u j = u) :
    xs.foldl f s = f s r := by
  have hnot : ∀ ys : List Nat, (∀ u, ∀ j ∈ ys, f u j = u) → ∀ u, ys.foldl f u = u := by
    intro ys hy
    induction ys with
    | nil => exact fun _ => rfl
    | cons y ys ih => intro u; rw [List.foldl_cons, hy u y (List.mem_cons_self ..)]; exact ih (fun u j hj => hy u j (List.mem_cons_of_mem _ hj)) u
  induction xs generalizing s with
  | nil => exact absurd hr List.not_mem_nil
  | cons y ys ih =>
    rw [List.foldl_cons]
    by_cases hy : y = r
    · subst hy
      exact hnot ys (fun u j hj => h u j (List.mem_cons_of_mem _ hj) (fun he => (List.nodup_cons.1 hn).1 (he ▸ hj))) _
    · rw [h s y (List.mem_cons_self ..) hy]
      refine ih (List.nodup_cons.1 hn).2 ?_ s fun u j hj => h u j (List.mem_cons_of_mem _ hj)
      rcases List.mem_cons.1 hr with e | e
      · exact absurd e.symm hy
      · exact e
/-- The memory, the energy page, the event's operands, and the purse, energy and overdraft of every tenant are the same. -/
def SamePurses (s u : State) : Prop := u.mem = s.mem ∧ u.energyPage = s.energyPage ∧ u.arg = s.arg ∧
    ∀ t, (getTenant u t).purse = (getTenant s t).purse ∧ (getTenant u t).energy = (getTenant s t).energy ∧
      (getTenant u t).overdraft = (getTenant s t).overdraft
theorem SamePurses.refl (s : State) : SamePurses s s := ⟨rfl, rfl, rfl, fun _ => ⟨rfl, rfl, rfl⟩⟩
theorem SamePurses.trans {s u w : State} (h : SamePurses s u) (k : SamePurses u w) : SamePurses s w :=
  ⟨k.1.trans h.1, k.2.1.trans h.2.1, k.2.2.1.trans h.2.2.1,
   fun t => ⟨(k.2.2.2 t).1.trans (h.2.2.2 t).1, (k.2.2.2 t).2.1.trans (h.2.2.2 t).2.1, (k.2.2.2 t).2.2.trans (h.2.2.2 t).2.2⟩⟩
theorem modCtx_purses (s : State) (id : Nat) (f : Ctx → Ctx) : SamePurses s (modCtx s id f) := by
  have h := modCtx_only s id f
  refine ⟨h.mem, ?_, ?_, fun t => ?_⟩
  · rw [h.1]
  · rw [h.1]
  · have : getTenant (modCtx s id f) t = getTenant s t := by rw [h.1]; rfl
    rw [this]; exact ⟨rfl, rfl, rfl⟩
theorem modTenant_purses (s : State) (t : Nat) (F : Tenant → Tenant) (hF : ∀ x, (F x).purse = x.purse ∧ (F x).energy = x.energy ∧ (F x).overdraft = x.overdraft) :
    SamePurses s (modTenant s t F) := by
  refine ⟨rfl, rfl, rfl, fun j => ?_⟩
  rw [getTenant_modTenant]; split
  · next h => rw [h]; exact hF _
  · exact ⟨rfl, rfl, rfl⟩
theorem withdrawBar_purse (s : State) (id : Nat) : SamePurses s (withdrawBar s id) := by
  unfold withdrawBar
  split
  · exact .refl s
  · next c _ =>
    split
    · next h _ =>
      exact (modTenant_purses s c.tslot (fun x => { x with groups := amSet x.groups h { getGroup s c.tslot h with arrived := (getGroup s c.tslot h).arrived - 1 } })
        fun x => ⟨rfl, rfl, rfl⟩).trans (modCtx_purses _ _ _)
    · exact .refl s
theorem foldl_purses {α : Type} (f : State → α → State) (h : ∀ s a, SamePurses s (f s a)) (l : List α) (s : State) : SamePurses s (l.foldl f s) := by
  induction l generalizing s with
  | nil => exact .refl s
  | cons a l ih => rw [List.foldl_cons]; exact (h s a).trans (ih _)
theorem settlePurse_purses (s : State) (t : Nat) : SamePurses s (settlePurse s t) := by
  unfold settlePurse
  simp only []
  refine foldl_purses _ (fun s e => foldl_purses _ (fun s x => ?_) _ _) _ _
  split
  · exact .refl s
  · split
    · exact (withdrawBar_purse s _).trans (modCtx_purses _ _ _)
    · exact modCtx_purses _ _ _
theorem putPurse_law (s : State) (t : Nat) (v : Word) :
    (putPurse s t v).mem = s.mem ∧ (putPurse s t v).energyPage = s.energyPage ∧ (putPurse s t v).arg = s.arg ∧ (getTenant (putPurse s t v) t).energy = (getTenant s t).energy ∧
    (getTenant (putPurse s t v) t).purse = v ∧
    (getTenant (putPurse s t v) t).overdraft = if v.toInt < 0 ∧ (getTenant s t).overdraft.toNat < (-v).toNat then -v else (getTenant s t).overdraft := by
  unfold putPurse
  obtain ⟨a, b, g, c⟩ := settlePurse_purses (modTenant s t fun x => { x with purse := v, overdraft := if v.toInt < 0 && x.overdraft.toNat < (-v).toNat then -v else x.overdraft }) t
  obtain ⟨d, e, f⟩ := c t
  rw [getTenant_modTenant_same] at d e f
  refine ⟨a, b, g, e, d, f.trans ?_⟩
  simp only [Bool.and_eq_true, decide_eq_true_eq]
/-- A charge goes to its payer's purse and total, and a core's to the core's (R333). -/
theorem applyCharge_law (s : State) (a m : Nat) :
    (applyCharge s (a, m)).mem = s.mem ∧
    (∀ y, payer s (drawnOf a) = some y → (getTenant (applyCharge s (a, m)) y).energy = (getTenant s y).energy + BitVec.ofNat 64 m ∧
      (getTenant (applyCharge s (a, m)) y).purse = (getTenant s y).purse - BitVec.ofNat 64 m) ∧
    (applyCharge s (a, m)).energyPage = match drawnOf a with
      | .work core _ | .leak core => amSet s.energyPage core (amGetD 0 s.energyPage core + BitVec.ofNat 64 m)
      | _ => s.energyPage := by
  unfold applyCharge
  simp only []
  generalize drawnOf a = dx
  cases hpay : payer s dx with
  | none =>
    simp only []
    exact ⟨(by cases dx <;> rfl), (fun y hy => nomatch hy), (by cases dx <;> rfl)⟩
  | some t' =>
    simp only []
    obtain ⟨q1, q2, -, q3, q4, -⟩ := putPurse_law (modTenant s t' fun y => { y with energy := y.energy + word m }) t' ((getTenant s t').purse - word m)
    rw [getTenant_modTenant_same] at q3
    have q5 : (modTenant s t' fun y => { y with energy := y.energy + word m }).mem = s.mem := rfl
    have q6 : (modTenant s t' fun y => { y with energy := y.energy + word m }).energyPage = s.energyPage := rfl
    rw [q5] at q1; rw [q6] at q2
    generalize putPurse _ t' _ = w at q1 q2 q3 q4
    refine ⟨?_, fun y hy => ?_, ?_⟩
    · cases dx <;> exact q1
    · cases hy
      cases dx <;> exact ⟨q3, q4⟩
    · cases dx <;> simp only [q2] <;> rfl
theorem addSat_law (a b : Word) : (addSat a b).toInt = max (-2 ^ 63) (min (2 ^ 63 - 1) (a.toInt + b.toInt)) := by
  unfold addSat
  simp only []
  have ha := BitVec.toInt_lt (x := a); have hb := BitVec.toInt_lt (x := b)
  have ha2 := BitVec.le_toInt (x := a); have hb2 := BitVec.le_toInt (x := b)
  split
  · next h => rw [show (0x7FFFFFFFFFFFFFFF : Word).toInt = 2 ^ 63 - 1 from by decide]; omega
  · split
    · next h => rw [show (0x8000000000000000 : Word).toInt = -2 ^ 63 from by decide]; omega
    · rw [BitVec.toInt_add, Int.bmod_eq_of_le] <;> omega
/-- A read by a party outside answers the bytes and changes nothing but counts. -/
theorem outsideOp_read {s : State} {t a n : Nat} {p : Page} {ext : Word} (hn : n ≤ 8) (hk : keyed s p.key a n = true)
    (hp : poisonedAt s (.hbm a) n = false) :
    ∃ u, outsideOp s t (.hbm a) p .read n ext = (BitVec.ofNat 64 (leNat (memBytes s.mem a n) % 2 ^ (8 * n)), false, u) ∧ OnlyCounts s u := by
  have hc := touch_counts s (dieOfLoc (.hbm a)) (.hbm a) p (opAcc (peerReq .read)) n
  refine ⟨touch s (dieOfLoc (.hbm a)) (.hbm a) p (opAcc (peerReq .read)) n, ?_, hc⟩
  unfold outsideOp
  dsimp only
  generalize touch s (dieOfLoc (.hbm a)) (.hbm a) p (opAcc (peerReq .read)) n = u at *
  have hpo : readsPoison u (.hbm a) n (.load 7 false) = false := (hc.poisonedAt ..).trans hp
  have hb : readHome u (.hbm a) n ext p = memBytes s.mem a n := by
    unfold readHome; exact (hbmBytes_keyed ((hc.keyed ..).trans hk)).trans (by rw [hc.mem])
  unfold performOp
  simp only [peerReq, hpo, hb, Bool.false_eq_true, if_false]
  refine congrArg (fun v => (v, false, u)) ?_
  show word ((extend 7 (word (leNat (memBytes s.mem a n)))).toNat % 2 ^ (8 * n)) = _
  have he : extend 7 (word (leNat (memBytes s.mem a n))) = word (leNat (memBytes s.mem a n)) := rfl
  rw [he]
  unfold word
  rw [BitVec.toNat_ofNat, Nat.mod_mod_of_dvd _ (Nat.pow_dvd_pow 2 (by omega))]
/-- A write by a party outside puts its bytes in memory. -/
theorem outsideOp_write {s : State} {t a n : Nat} {p : Page} {v ext : Word} (hk : keyed s p.key a n = true) :
    ∃ u, outsideOp s t (.hbm a) p (.write v) n ext = (0, false, u) ∧ u.mem = memPut s.mem a (leBytes n v.toNat) ∧ u.out = s.out := by
  have hc := touch_counts s (dieOfLoc (.hbm a)) (.hbm a) p (opAcc (peerReq (.write v))) n
  unfold outsideOp
  dsimp only
  generalize touch s (dieOfLoc (.hbm a)) (.hbm a) p (opAcc (peerReq (.write v))) n = u at *
  have hpf : performOp u (dieOfLoc (.hbm a)) t (.hbm a) (peerReq (.write v)) n ext p =
      ({}, unpoison (writeHome u (.hbm a) (leBytes n v.toNat) p) (.hbm a) n) := rfl
  have hl : (leBytes n v.toNat).length = n := leBytes_length ..
  have hw := writeHome_keyed (s := u) (p := p) (a := a) (bs := leBytes n v.toNat) (by rw [hl]; exact (hc.keyed ..).trans hk)
  rw [hpf]
  generalize leBytes n v.toNat = bs at *
  refine ⟨_, rfl, ?_, ?_⟩
  · show (writeHome u (.hbm a) bs p).mem = _
    rw [hw, ← hc.mem]
  · show (writeHome u (.hbm a) bs p).out = _
    rw [hw, hc]
theorem hostPieces_one {va : Word} {n : Nat} (h : n + va.toNat % 64 ≤ 64) : hostPieces va n = [(va, n)] := by
  unfold hostPieces
  have : fld 0 6 va = va.toNat % 64 := by
    unfold fld; simp [BitVec.extractLsb'_toNat]
  simp only [this]
  rw [if_pos (by omega)]
theorem servePeer_law {s : State} {w : RemoteWait} {slot : Nat} {r : S2} (hs : slotOfVmid s w.vmid = some slot)
    (h2 : stage2 s (getTenant s slot) w.off = .ok r) (hn : r.nr = false) :
    (w.op ≠ .read → r.ro = true → servePeer s w = peerFault s w) ∧
    (∀ v a, w.op = .write v → r.ro = false → r.loc = .hbm a → outsideMay s r.loc (peerPage w.vmid r w.off) w.op w.size = true →
      keyed s r.key a w.size = true →
      (servePeer s w).mem = memPut s.mem a (leBytes w.size v.toNat) ∧ (servePeer s w).out = s.out ++ [.peer 0 false]) ∧
    (∀ a, w.op = .read → w.size ≤ 8 → r.loc = .hbm a → outsideMay s r.loc (peerPage w.vmid r w.off) w.op w.size = true →
      keyed s r.key a w.size = true → poisonedAt s (.hbm a) w.size = false →
      (servePeer s w).mem = s.mem ∧ (servePeer s w).out = s.out ++ [.peer (BitVec.ofNat 64 (leNat (memBytes s.mem a w.size) % 2 ^ (8 * w.size))) false]) := by
  refine ⟨fun ho hr => ?_, fun v a ho hr hl hm hk => ?_, fun a ho hsz hl hm hk hp => ?_⟩
  · unfold servePeer
    rw [hs]; simp only []; rw [h2]; simp only []
    rw [if_pos (by rw [hn, hr]; simpa using ho)]
  · unfold servePeer
    rw [hs]; simp only []; rw [h2]; simp only []
    rw [if_neg (by rw [hn, hr]; simp), hm]
    simp only [Bool.not_true, Bool.false_eq_true, if_false]
    obtain ⟨u, e, m, o⟩ := outsideOp_write (s := { s with remoteWaits := s.remoteWaits.filter fun x => x.id != w.id }) (t := slot) (n := w.size) (v := v) (ext := 0) (p := peerPage w.vmid r w.off) (a := a) hk
    rw [ho, hl, e]
    exact ⟨m, congrArg (· ++ _) o⟩
  · unfold servePeer
    rw [hs]; simp only []; rw [h2]; simp only []
    rw [if_neg (by rw [hn, ho]; simp), hm]
    simp only [Bool.not_true, Bool.false_eq_true, if_false]
    obtain ⟨u, e, hc⟩ := outsideOp_read (s := { s with remoteWaits := s.remoteWaits.filter fun x => x.id != w.id }) (t := slot) (n := w.size) (ext := 0) (p := peerPage w.vmid r w.off) (a := a) hsz hk hp
    rw [ho, hl, e]
    exact ⟨hc.mem, by have := congrArg State.out hc; exact congrArg (· ++ _) this⟩
theorem foldl_setCore_rest (xs : List Nat) (f : State → Nat → State) (h : ∀ s i, (f s i).rows = s.rows ∧ (f s i).mem = s.mem) (s : State) :
    (xs.foldl f s).rows = s.rows ∧ (xs.foldl f s).mem = s.mem := by
  induction xs generalizing s with
  | nil => exact ⟨rfl, rfl⟩
  | cons x xs ih => rw [List.foldl_cons]; exact ⟨(ih _).1.trans (h s x).1, (ih _).2.trans (h s x).2⟩
theorem remapColumn_law {s : State} {r p q : Nat} (h : (List.range 16).find? (fun i => (getRow s r).physical i == some p) = some q) :
    (remapColumn s r p).mem = s.mem ∧
      getRow (remapColumn s r p) r = { getRow s r with quarantined := (getRow s r).quarantined ++ [p], pending := (getRow s r).pending.filter (· != p) } := by
  unfold remapColumn
  simp only []
  rw [h]
  simp only []
  generalize (List.range 17).map _ = olds
  obtain ⟨a, b⟩ := foldl_setCore_rest (List.range 16) (fun s i => if i < q then s else setCore s (r * 16 + i) (takeColumn (olds.getD i {}) (olds.getD (i + 1) {}) (i == q)))
    (fun s i => by by_cases hq : i < q
                   · simp only [hq, if_true]; exact ⟨trivial, trivial⟩
                   · simp only [hq, if_false]; exact ⟨rfl, rfl⟩) s
  generalize (List.range 16).foldl _ s = u at a b
  refine ⟨b, ?_⟩
  have : getRow u r = getRow s r := by unfold getRow; rw [a]
  rw [getRow_modRow, if_pos rfl, this]

end Sys2Proof.Machine
end

