-- ==== Sys2Proof/Laws/Fetch.lean ====
section
/-! SUPPORT. Fetching a word whose page and bytes are there. -/

namespace Sys2Proof.Machine

/-- Four bytes in memory make the word whose bytes they are (R50). -/
theorem wordIn_eq {m : Memory} {a : Nat} {w : W32} (hm : ∀ i, i < 4 → memGet m (a + i) = w.extractLsb' (8 * i) 8) : wordIn m a = w := by
  have h : memBytes m a 4 = (List.range 4).map fun i => BitVec.ofNat 8 (w.toNat / 256 ^ i) := by
    unfold memBytes
    refine List.map_congr_left fun i hi => ?_
    rw [hm i (List.mem_range.1 hi)]
    apply BitVec.eq_of_toNat_eq
    rw [BitVec.extractLsb'_toNat, BitVec.toNat_ofNat, Nat.shiftRight_eq_div_pow, Nat.pow_mul]
  unfold wordIn
  rw [h, leNat_map, Nat.mod_eq_of_lt (by have := w.isLt; omega)]; simp

/-- A word that the core may fetch is fetched, with nothing changed (R100). -/
theorem fetch_word {s : State} {core : Nat} {c : Ctx} {pc : Word} {w : W32} (h : Fetches s core c pc w) : fetch s core c.vmid c.node pc = (.ok w, s) := by
  obtain ⟨hc, p, a, hp, hx, hl, hk, hb⟩ := h
  have hn : BitVec.ofNat 32 (leNat (hbmBytes s p.key a 4)) = w := by
    rw [hbmBytes, if_pos hk]; exact wordIn_eq fun i hi => (hb i hi).1
  have ho : wordIn (imageOf s c.node) a = w := wordIn_eq fun i hi => (hb i hi).2
  unfold fetch fetchWord
  simp only [hc, hp, hx, hl, ownPlace, hn, ho]; simp

theorem opOf_eq (w : W32) : opOf w = w.toNat % 128 := by simp [opOf, bits]

theorem streamOnly_iff (w : W32) : streamOnly (opOf w) = true ↔ 0x68 ≤ w.toNat % 128 ∧ w.toNat % 128 ≤ 0x6F := by
  simp [streamOnly, opOf_eq]

end Sys2Proof.Machine
end

