-- ==== Sys2Proof/Laws/Integer.lean ====
section
/-! SUPPORT. What the shared operations of the integer words do: one law each. -/

namespace Sys2Proof.Machine

/-- A completed meaning gives its instruction's effect. -/
theorem Gives.of {s : State} {i : Instr} {r : Result} {c : Ctx} {d : Reg} {v : Word} {f : BitVec 5} (h : exec i s = r)
    (g : ∃ t, r = .next t ∧ Wrote s t c d v f) : Gives s i c d v f := by
  obtain ⟨t, h', hw⟩ := g
  exact ⟨t, h.trans h', hw⟩

/-- A word that passes its checks and ends in `finish` writes its destination. -/
theorem settle_finish {s : State} {c : Ctx} {d : Reg} {u : Use} {own : State → Core → Ctx → Verdict} (hu : CanIssue s c u)
    (hown : own s (my s) c = .go) (hd : d ∈ u.regs) (v : State → Word) (f : State → BitVec 5) :
    ∃ t, settle (check u own s) (fun s => finish d (v s) (f s) s) s = .next t ∧
      Wrote s t c d (v (markIssued s)) (f (markIssued s)) :=
  ⟨_, by rw [check_go hu, hown, settle_go hu.ctx hu.real],
    finish_wrote (markIssued_marked s) hu.ctx d _ _ (hu.unbound d hd)⟩

theorem alu2_law {s : State} {c : Ctx} {w : Bool} {d a b : Reg}
    (hu : CanIssue s c { srcs := [a, b], dst := some d, w := w, ports := true }) (f : Word → Word → Word) :
    ∃ t, alu2 f w d a b s = .next t ∧ Wrote s t c d (f (val s c a) (val s c b)) 0 := by
  have h := settle_finish (own := plain) hu rfl (d := d) (by simp [Use.regs]) (fun s => f (src s a) (src s b)) (fun _ => 0)
  rwa [src_val (markIssued_marked s) hu.ctx (hu.unbound a (by simp [Use.regs])),
    src_val (markIssued_marked s) hu.ctx (hu.unbound b (by simp [Use.regs]))] at h

theorem alu1_law {s : State} {c : Ctx} {w : Bool} {d a : Reg}
    (hu : CanIssue s c { srcs := [a], dst := some d, w := w, ports := true }) (f : State → Word → Word) :
    ∃ t, alu1 f w d a s = .next t ∧ Wrote s t c d (f (markIssued s) (val s c a)) 0 := by
  have h := settle_finish (own := plain) hu rfl (d := d) (by simp [Use.regs]) (fun s => f s (src s a)) (fun _ => 0)
  rwa [src_val (markIssued_marked s) hu.ctx (hu.unbound a (by simp [Use.regs]))] at h

theorem aluImm_law {s : State} {c : Ctx} {d a : Reg} (hu : CanIssue s c { srcs := [a], dst := some d, ports := true })
    (f : Word → Word) : ∃ t, aluImm f d a s = .next t ∧ Wrote s t c d (f (val s c a)) 0 := by
  have h := settle_finish (own := plain) hu rfl (d := d) (by simp [Use.regs]) (fun s => f (src s a)) (fun _ => 0)
  rwa [src_val (markIssued_marked s) hu.ctx (hu.unbound a (by simp [Use.regs]))] at h

theorem aluConst_law {s : State} {c : Ctx} {d : Reg} (hu : CanIssue s c { srcs := [], dst := some d }) (f : State → Word) :
    ∃ t, aluConst f d s = .next t ∧ Wrote s t c d (f (markIssued s)) 0 :=
  settle_finish (own := plain) hu rfl (d := d) (by simp [Use.regs]) f (fun _ => 0)

theorem shiftOf_eq (y : Word) : shiftOf y = y.toNat % 64 := by simp [shiftOf, fld]

end Sys2Proof.Machine
end

