-- ==== Sys2Proof/Laws/Float.lean ====
section
/-! SUPPORT. What floating-point, special-function and vector words do once they may issue. -/

namespace Sys2Proof.Machine

variable {s t u : State} {c c' : Ctx} {o : Core} {d : Reg} {e : RegEntry} {i : Instr}

theorem float1_law {f : Nat → Nat × FFlags} {w : Bool} {a : Reg} (hu : CanIssue s c { srcs := [a], dst := some d, w := w, ports := true }) :
    ∃ t, float1 f w d a s = .next t ∧ Wrote s t c d (BitVec.ofNat 64 (f (val s c a).toNat).1) (f (val s c a).toNat).2 := by
  have h := settle_finish (own := plain) hu rfl (d := d) (by simp [Use.regs]) (fun s => word (f (src s a).toNat).1) (fun s => (f (src s a).toNat).2)
  rwa [hu.src (markIssued_marked s) (by simp [Use.regs])] at h

theorem float2_law {f : Nat → Nat → Nat × FFlags} {w : Bool} {a b : Reg}
    (hu : CanIssue s c { srcs := [a, b], dst := some d, w := w, ports := true }) :
    ∃ t, float2 f w d a b s = .next t ∧
      Wrote s t c d (BitVec.ofNat 64 (f (val s c a).toNat (val s c b).toNat).1) (f (val s c a).toNat (val s c b).toNat).2 := by
  have h := settle_finish (own := plain) hu rfl (d := d) (by simp [Use.regs])
    (fun s => word (f (src s a).toNat (src s b).toNat).1) (fun s => (f (src s a).toNat (src s b).toNat).2)
  rwa [hu.src (markIssued_marked s) (show a ∈ _ by simp [Use.regs]), hu.src (markIssued_marked s) (show b ∈ _ by simp [Use.regs])] at h

theorem float3_law {f : Nat → Nat → Nat → Nat × FFlags} {w : Bool} {a b : Reg}
    (hu : CanIssue s c { srcs := [a, b, d], dst := some d, w := w, ports := true }) :
    ∃ t, float3 f w d a b s = .next t ∧
      Wrote s t c d (BitVec.ofNat 64 (f (val s c a).toNat (val s c b).toNat (val s c d).toNat).1)
        (f (val s c a).toNat (val s c b).toNat (val s c d).toNat).2 := by
  have h := settle_finish (own := plain) hu rfl (d := d) (by simp [Use.regs])
    (fun s => word (f (src s a).toNat (src s b).toNat (src s d).toNat).1) (fun s => (f (src s a).toNat (src s b).toNat (src s d).toNat).2)
  rwa [hu.src (markIssued_marked s) (show a ∈ _ by simp [Use.regs]), hu.src (markIssued_marked s) (show b ∈ _ by simp [Use.regs]),
    hu.src (markIssued_marked s) (show d ∈ _ by simp [Use.regs])] at h

/-- The sign forms, by their bits (R232). -/
theorem fSign_eq (f : Fmt) (flip : Bool) (x y : Nat) :
    fSign f flip (low f x) y = x % f.signW + (if flip then 1 - y / f.signW % 2 else y / f.signW % 2) * f.signW := by
  have hl : low f x % f.signW = x % f.signW := by
    unfold low Fmt.signW
    rw [Nat.mod_mod_of_dvd]
    exact Nat.pow_dvd_pow 2 (by omega)
  unfold fSign signCode
  rw [hl]
  rcases Nat.mod_two_eq_zero_or_one (y / f.signW) with h | h <;> cases flip <;> simp [h]

/-- What a special function does (R185). -/
theorem sfu_law {fn : Nat} {w : Bool} {a : Reg} {unit : Nat} {was : Octet} {r : SfuReq} (hunit : unit = octetOf (coreOf (me s)))
    (hwas : was = amGetD {} s.octets unit)
    (hr : r = { id := s.nextId, ctx := me s, rd := d, fn := fn, x := (val s c a).setWidth 32, accepted := false })
    (hu : CanIssue s c { srcs := [a], dst := some d, w := w }) :
    ((my s).sfuUsed < 8 →
      ∃ t, sfuWord fn w d a s = .next t ∧
        Did s t c { s with nextId := s.nextId + 1, octets := amSet s.octets unit { was with reqs := was.reqs ++ [r] } }
          { my s with sfuUsed := (my s).sfuUsed + 1 } d (emptied s c d) (pastWord s.cur c)) ∧
    (8 ≤ (my s).sfuUsed → sfuWord fn w d a s = .next (parkNow s .credit)) := by
  subst hunit hwas hr
  constructor
  · intro hl
    refine settle_law hu (by simp; omega) fun m hm h => ?_
    simp only [hu.src hm (show a ∈ _ by simp [Use.regs]), takeId_eq, hm.nextId, show m.octets = s.octets by rw [hm.rest], me_lane, modCore_cur, hm.cur]
    generalize amSet s.octets _ _ = x
    have h1 := h.pkg (fun v => { v with nextId := v.nextId + 1, octets := x }) (fun _ _ => rfl)
    rw [hm.nextId, hm.cur] at h1
    have h2 := h1.coreAt (j := coreOf (laneCtx s.cur.lane)) (by rw [me_lane]) (fun k => { k with sfuUsed := k.sfuUsed + 1 })
      (fun _ _ _ _ => rfl)
    exact (h2.emptyAt rfl rfl (me_lane s).symm d).retire rfl
  · intro hl
    unfold sfuWord
    rw [check_go hu, if_pos hl]
    exact settle_park hu.ctx hu.real _ _

theorem val_zero (s : State) (c : Ctx) : val s c 0 = 0 := rfl

/-- What a vector word does (R235, R237). -/
theorem vector_law {op f3 : Nat} {w : Bool} {a b : Reg}
    (hu : CanIssue s c { srcs := if (vArrays op f3).2.2.isSome then [a, b, d] else [a, d], w := w, mem := true })
    (hb : (vArrays op f3).2.2.isSome = false → b = 0) (hi : exec i s = vector op f3 w d a b s) :
    (c.vlen = 0 → Leaves s i c s (my s) (pastWord s.cur c)) ∧
    (c.vlen ≠ 0 → vVerdict op f3 (val s c d) (val s c a) (val s c b) s (my s) c = .go →
      Leaves s i c s { my s with vq := (my s).vq ++ [{ ctx := me s, op := op, f3 := f3, rd := d, ra := a, rb := b, d := (val s c d).toNat,
                                                       a := (val s c a).toNat, b := (val s c b).toNat, len := c.vlen.toNat, frm := c.frm,
                                                       step := 0, flags := 0, e0 := 0, e1 := 0 }] } (heldBy s c .vector)) ∧
    (∀ cause tval, vVerdict op f3 (val s c d) (val s c a) (val s c b) s (my s) c = .trap cause tval → HasHandler s c →
      Traps s i c cause tval) := by
  have hm := markIssued_marked s
  have h := Did.start hm hu.ctx
  have ha : ∀ t, Marked s t → src t a = val s c a := fun t ht => hu.src ht (by simp only [Use.regs]; split <;> simp)
  have hd : ∀ t, Marked s t → src t d = val s c d := fun t ht => hu.src ht (by simp only [Use.regs]; split <;> simp)
  have hbv : ∀ t, Marked s t → (if (vArrays op f3).2.2.isSome then src t b else 0) = val s c b := by
    intro t ht
    cases hbs : (vArrays op f3).2.2.isSome with
    | false => rw [hb hbs]; rfl
    | true => rw [if_pos rfl]; exact hu.src ht (by simp [Use.regs, hbs])
  unfold vector at hi
  extract_lets useB third at hi
  refine ⟨fun hl => .of hi (settle_does hu ?_ ?_), fun hl hv => .of hi (settle_does hu ?_ ?_), fun x v hv hh => check_trap hu hh ?_ hi⟩
  · simp [vVerdict, hl]
  · simp only [hm.curCtx, hu.ctx, hl, if_true]; exact h.retire rfl
  · simp only [ha _ (.refl s), hd _ (.refl s), third, useB, hbv _ (.refl s)]; exact hv
  · simp only [hm.curCtx, hu.ctx, hl, if_false, ha _ hm, hd _ hm, third, useB, hbv _ hm, hm.me]
    generalize hx : VCmd.mk _ _ _ _ _ _ _ _ _ _ _ _ _ _ _ _ = x
    exact (h.coreAt rfl (fun k => { k with vq := k.vq ++ [x] }) (fun _ _ _ _ => rfl)).hold rfl .vector
  · simp only [ha _ (.refl s), hd _ (.refl s), third, useB, hbv _ (.refl s)]; exact hv

end Sys2Proof.Machine
end

