-- ==== Sys2Proof/Laws/Nodes.lean ====
section
/-! SUPPORT. What one unit of a COPY node does. -/

namespace Sys2Proof.Machine

/-- What an engine writes to a line in HBM ends no claim. -/
theorem engineWrite_claims {s : State} {die t cid cmd : Nat} {p : Page} {va : Word} {bs : List Byte} {a : Nat} (hl : p.loc va = .hbm a)
    (hk : keyed s p.key a bs.length = true) : (engineWrite s die t cid cmd p va bs false).claims = s.claims := by
  have hc := touch_counts s die (.hbm a) p .write bs.length
  unfold engineWrite
  simp only [homePlace_hbm hl, show linkDown s (.hbm a) = false from rfl, Bool.false_eq_true, if_false]
  generalize touch s die (.hbm a) p .write bs.length = u at *
  have hw := writeHome_keyed (s := u) (p := p) (a := a) (bs := bs) ((hc.keyed ..).trans hk)
  have hcl : u.claims = s.claims := by rw [hc]
  generalize writeHome u (.hbm a) bs p = v at *
  show v.claims = s.claims
  rw [hw]; exact hcl

/-- One clean unit of a COPY node between places in HBM (R260, R283). -/
theorem copyUnit_law {s : State} {j : CopyJob} {ext : List Byte} {m a b line : Nat} (ha : (j.srcAt s m).1.loc (j.src + word m) = .hbm a)
    (hb : (j.dstAt s m).1.loc (j.dst + word m) = .hbm b) (hka : keyed s (j.srcAt s m).1.key a 16 = true) (hkb : keyed s (j.dstAt s m).1.key b 16 = true)
    (hli : (j.srcAt s m).1.loc ((j.src + word m) &&& ~~~(63 : Word)) = .hbm line) (hpo : poisonedAt s (.hbm line) 64 = false)
    (hbd : j.node.badDst ≠ lineMark (j.dst + word m)) :
    ∃ u, copyUnit (j, s) m ext = (j, u) ∧ u.mem = memPut s.mem b (memBytes s.mem a 16) ∧ u.claims = s.claims := by
  generalize hp : (j.srcAt s m).1 = p at *
  generalize hq : (j.dstAt s m).1 = q at *
  obtain ⟨w, hw⟩ : ∃ w, w = touch s (j.die s) (.hbm a) p .read 16 := ⟨_, rfl⟩
  have hcT : OnlyCounts s w := hw ▸ touch_counts s (j.die s) (.hbm a) p .read 16
  have hs1 : j.srcAt s m = (p, .hbm a) := Prod.ext hp (by
    have := homePlace_hbm (s := s) ha false
    rw [← hp] at this
    exact this)
  have hbad : poisonedAt w (.hbm line) 64 = false := (hcT.poisonedAt ..).trans hpo
  have hlen : (memBytes s.mem a 16).length = 16 := by simp [memBytes]
  have hrd : readWide w (.hbm a) 16 ext p = memBytes s.mem a 16 := by
    unfold readWide; simp only
    rw [hbmBytes_keyed ((hcT.keyed ..).trans hka), hcT.mem]
  have hkw : keyed w q.key b (memBytes s.mem a 16).length = true := by rw [hlen]; exact (hcT.keyed ..).trans hkb
  have hew := engineWrite_law (s := w) (die := j.die w) (t := j.t) (cid := noContext) (cmd := j.node.cmd) (bs := memBytes s.mem a 16) hb hkw
  refine ⟨engineWrite w (j.die w) j.t noContext j.node.cmd q (j.dst + word m) (memBytes s.mem a 16) false, ?_, ?_, ?_⟩
  · unfold copyUnit
    have hl : ∀ z, linkDown z (.hbm a) = false := fun _ => rfl
    have hnb : (j.node.badDst == lineMark (j.dst + word m)) = false := beq_eq_false_iff_ne.2 hbd
    have hwl2 : homePlace w p ((j.src + word m) &&& ~~~(63 : Word)) false = .hbm line := homePlace_hbm hli false
    obtain ⟨lq, hlq⟩ : ∃ lq, j.dstAt s m = (q, lq) := ⟨(j.dstAt s m).2, Prod.ext hq rfl⟩
    simp only [hs1, hlq, ← hw, hl, Bool.false_eq_true, if_false]
    simp only [hwl2, hbad, Bool.false_eq_true, if_false, Option.isSome_none, CopyJob.mark, hrd, hnb, Bool.or_self]
  · exact hew.mem.trans (by rw [hcT.mem])
  · have h6 : (engineWrite w (j.die w) j.t noContext j.node.cmd q (j.dst + word m) (memBytes s.mem a 16) false).claims = w.claims :=
      engineWrite_claims hb hkw
    rw [h6, hcT]

end Sys2Proof.Machine
end

