-- ==== Sys2Proof/Laws/Outside.lean ====
section
/-! SUPPORT. Accesses from outside the package, devices that fail, and what sensors and samples change. -/

namespace Sys2Proof.Machine

/-- No buffered store for a device: none is dropped. -/
theorem dropBuffered_none (n : Nat) (cs : List (Nat × Core)) (h : ∀ e ∈ cs, e.2.sbuf.any (fun x => x.loc.onDevice n) = false) (s : State) :
    cs.foldl (fun s e => if e.2.sbuf.any fun x => x.loc.onDevice n then dropBuffered s e.1 n else s) s = s := by
  induction cs generalizing s with
  | nil => rfl
  | cons e cs ih =>
    rw [List.foldl_cons, h e (List.mem_cons_self ..)]
    simp only [Bool.false_eq_true, if_false]
    exact ih (fun e he => h e (List.mem_cons_of_mem _ he)) s

/-- A failing device with nothing outstanding fails no request. -/
theorem failOutstanding_none {s : State} {n : Nat} (hb : ∀ e ∈ s.cores, e.2.sbuf.any (fun x => x.loc.onDevice n) = false)
    (hr : (s.reqs.filter fun x => x.loc.onDevice n && !x.done) = []) : failOutstanding s n = s := by
  unfold failOutstanding; rw [hr]; exact dropBuffered_none n s.cores hb s

/-- A failing device with one load outstanding answers it with RLINK (R359). -/
theorem failOutstanding_load {s : State} {n : Nat} {x : Req} {z : Nat} {y : Bool} (hb : ∀ e ∈ s.cores, e.2.sbuf.any (fun x => x.loc.onDevice n) = false)
    (hr : (s.reqs.filter fun x => x.loc.onDevice n && !x.done) = [x]) (ho : x.op = .load z y) : failOutstanding s n = putReq s x {} true := by
  unfold failOutstanding; rw [hr]
  have : failReq s x = putReq s x {} true := by unfold failReq; rw [ho]
  simp only [List.foldl_cons, List.foldl_nil, this]
  exact dropBuffered_none n s.cores hb _

/-- Dropping the pages of a device leaves the store buffers. -/
theorem dropPagesOf_sbuf {s : State} {n : Nat} (hb : ∀ e ∈ s.cores, e.2.sbuf.any (fun x => x.loc.onDevice n) = false) :
    ∀ e ∈ (dropPagesOf s n).cores, e.2.sbuf.any (fun x => x.loc.onDevice n) = false := by
  intro e he
  obtain ⟨a, ha, rfl⟩ := List.mem_map.1 he
  exact hb a ha

/-- Where no access waits, none is taken out. -/
theorem remoteWaits_filter_none {s : State} (h : s.remoteWaits = []) (f : RemoteWait → Bool) : { s with remoteWaits := s.remoteWaits.filter f } = s := by
  rw [h]; cases s; simp_all

/-- A host access before which none waits is served (R357). -/
theorem serveHost_new {s : State} {w : RemoteWait} {ext : Word} (hw : s.remoteWaits = []) :
    serveHost s w ext = if w.reg then serveRegister s w else serveMemory s w ext := by
  unfold serveHost
  simp only []
  rw [remoteWaits_filter_none hw]
  have : hostOrder s w = false := by unfold hostOrder; rw [hw]; rfl
  rw [this]; rfl

/-- A new host access through the memory aperture (R356). -/
theorem hostMemoryAccess_memory {s : State} (h : s.hostUp = true) (hw : s.remoteWaits = []) (hf : s.arg.flag = false) (h1 : 1 ≤ s.arg.num) (h8 : s.arg.num ≤ 8)
    (hop : ∀ f b c, s.arg.op ≠ .atomic f b c) (hen : (getTenant s s.arg.slot).en = true) :
    exec .hostMemoryAccess s = .next (serveMemory { s with nextId := s.nextId + 1 }
      { id := s.nextId, token := none, vmid := (getTenant s s.arg.slot).vmid, op := s.arg.op, off := (sext48 s.arg.v).toNat, size := s.arg.num,
        host := true, reg := false, rel := s.arg.rel, acq := s.arg.acq } s.arg.v2) := by
  generalize hu : Host.Outcome.next _ = u
  show execHostMemoryAccess s = _
  unfold execHostMemoryAccess; simp only []; rw [h, hf, hw]
  simp only [Bool.not_true, Bool.false_eq_true, if_false, List.find?_nil, Bool.false_and, Bool.or_false, Bool.not_false, Bool.true_and]
  have hat : (match s.arg.op with | .atomic .. => true | _ => false) = false := by
    cases ho : s.arg.op with
    | atomic f b c => exact absurd ho (hop f b c)
    | _ => rfl
  rw [hen]
  simp only [Bool.not_true, Bool.false_eq_true, if_false]
  rw [if_neg (by simp only [Bool.or_eq_true, decide_eq_true_eq]; omega)]
  unfold takeId
  simp only []
  rw [serveHost_new (s := { s with nextId := s.nextId + 1 }) hw]
  simp only [Bool.false_eq_true, if_false]
  rw [← hu]; rfl

/-- A new host access through the register aperture (R356). -/
theorem hostMemoryAccess_register {s : State} (h : s.hostUp = true) (hw : s.remoteWaits = []) (hf : s.arg.flag = true) (hp : plainSize s.arg.v.toNat s.arg.num = true)
    (hl : s.arg.v.toNat < 2 ^ 22) :
    exec .hostMemoryAccess s = .next (serveRegister { s with nextId := s.nextId + 1 }
      { id := s.nextId, token := none, vmid := (getTenant s s.arg.slot).vmid, op := s.arg.op, off := s.arg.v.toNat, size := s.arg.num,
        host := true, reg := true, rel := s.arg.rel, acq := s.arg.acq }) := by
  have hn : 1 ≤ s.arg.num ∧ s.arg.num ≤ 8 := by
    unfold plainSize at hp
    simp only [Bool.and_eq_true, Bool.or_eq_true, beq_iff_eq] at hp
    omega
  generalize hu : Host.Outcome.next _ = u
  show execHostMemoryAccess s = _
  unfold execHostMemoryAccess; simp only []; rw [h, hf, hw, hp]
  simp only [Bool.not_true, Bool.false_eq_true, if_false, List.find?_nil, Bool.and_false, Bool.or_false, Bool.true_and, if_true, Bool.false_and]
  rw [if_neg (by simp only [Bool.or_eq_true, decide_eq_true_eq]; omega)]
  unfold takeId
  simp only []
  rw [serveHost_new (s := { s with nextId := s.nextId + 1 }) hw]
  simp only [if_true]
  rw [← hu]; rfl

/-- A host access within one line of HBM: its right, its wait, and its answer (R356). -/
theorem serveMemory_one {s : State} {w : RemoteWait} {t a : Nat} {p : Page} {ext : Word} (ht : slotOfVmid s w.vmid = some t)
    (hl : w.size + w.off % 64 ≤ 64) (htr : translate s t (word w.off) = (.ok p, s)) (hloc : p.loc (word w.off) = .hbm a) :
    ((if w.op = .read then p.rd else p.wr) = false → serveMemory s w ext = hostFault s t w.size (word w.off) (w.op != .read) .prot false) ∧
    ((if w.op = .read then p.rd else p.wr) = true → outsideMay s (.hbm a) p w.op w.size = false → serveMemory s w ext = keepWait s w) ∧
    ((if w.op = .read then p.rd else p.wr) = true → outsideMay s (.hbm a) p w.op w.size = true →
      serveMemory s w ext = { (outsideOp s t (.hbm a) p (pieceOp w.op 0) w.size (ext >>> (8 * 0))).2.2 with
        out := (outsideOp s t (.hbm a) p (pieceOp w.op 0) w.size (ext >>> (8 * 0))).2.2.out ++
          [.host ((outsideOp s t (.hbm a) p (pieceOp w.op 0) w.size (ext >>> (8 * 0))).1) (outsideOp s t (.hbm a) p (pieceOp w.op 0) w.size (ext >>> (8 * 0))).2.1] }) := by
  have hp : hostPieces (word w.off) w.size = [(word w.off, w.size)] := hostPieces_one (by
    have : (word w.off).toNat % 64 = w.off % 64 := by
      unfold word; rw [BitVec.toNat_ofNat]; omega
    omega)
  have hpl : ∀ (u : State), pieceLoc u w.op ((word w.off, w.size), p) = .hbm a := fun u => homePlace_hbm hloc _
  have hpg : hostPages t (w.op != .read) [(word w.off, w.size)] s =
      if (if w.op = .read then p.rd else p.wr) = true then (.ok [p], s) else (.error (.prot, false), s) := by
    unfold hostPages
    rw [htr]; simp only []
    have hb : (if (w.op != .read) = true then p.wr else p.rd) = (if w.op = .read then p.rd else p.wr) := by
      by_cases ho : w.op = .read <;> simp [ho]
    rw [hb]
    have hh : unplacedHere s (homePlace s p (word w.off) (w.op != .read)) = false := by rw [homePlace_hbm hloc]; rfl
    by_cases hq : (if w.op = .read then p.rd else p.wr) = true
    · rw [if_neg (by rw [hq]; simp), hh, if_pos hq]; rfl
    · rw [if_pos (by simpa using hq), if_neg hq]
  unfold serveMemory
  rw [ht]; simp only []; rw [hp, hpg]
  have hz : ∀ (x : Word) (k : Nat), x ||| ((0 : Word) <<< k) = x := fun x k => by simp
  refine ⟨fun h => ?_, fun h hm => ?_, fun h hm => ?_⟩
  · rw [if_neg (by rw [h]; simp)]
  · rw [if_pos h]
    simp only [List.zip_cons_cons, List.zip_nil_right, List.find?_cons, List.find?_nil, hpl, List.all_cons, List.all_nil, hm]
    rw [show linkDown s (.hbm a) = false from rfl]; simp
  · rw [if_pos h]
    simp only [List.zip_cons_cons, List.zip_nil_right, List.find?_cons, List.find?_nil, hpl, List.all_cons, List.all_nil, hm]
    rw [show linkDown s (.hbm a) = false from rfl]
    simp only [Bool.not_true, Bool.and_self, Bool.false_eq_true, if_false, hostPerform, hpl, hz, Bool.or_false]

/-- What is done to each context of some cores changes contexts alone. -/
theorem foldl_contexts_only (w : State) (ks : List Nat) (f : State → Nat → Nat × Ctx → State)
    (hf : ∀ s c e, OnlyContexts s (f s c e)) :
    OnlyContexts w (ks.foldl (fun s c => (getCore s c).ctxs.foldl (fun s e => f s c e) s) w) :=
  foldl_only _ (fun s c => foldl_only _ (fun s e => hf s c e) _ _) _ _

/-- A change of contexts leaves memory and rows. -/
theorem OnlyContexts.mem_rows (a w u : State) (h : w.mem = a.mem) (o : OnlyContexts w u) : u.mem = a.mem ∧ u.rows = w.rows :=
  ⟨o.mem.trans h, by rw [o.1]⟩

/-- A row whose hottest engine reads well below THROT (R331). -/
theorem heatRow_cool (s : State) (r temp : Nat) (h1 : ¬ fld 16 16 s.therm ≤ temp) (h2 : temp + 32 < fld 16 16 s.therm)
    (h3 : ¬ fld 0 16 s.therm ≤ temp) (h4 : temp < fld 16 16 s.therm) :
    (heatRow s r temp).mem = s.mem ∧
    (heatRow s r temp).rows = (modRow (applyCap (modRow s r fun y => { y with thermal := min 7 (y.thermal + 1) }) r) r fun y => { y with hot := false }).rows := by
  have hap := applyCap_mem (modRow s r fun y => { y with thermal := min 7 (y.thermal + 1) }) r
  unfold heatRow; simp only []
  rw [if_neg h1, if_pos h2, if_neg h3, if_pos h4]
  generalize applyCap (modRow s r fun y => { y with thermal := min 7 (y.thermal + 1) }) r = w at hap ⊢
  exact OnlyContexts.mem_rows s (modRow w r fun y => { y with hot := false }) _ hap (foldl_contexts_only _ _ _ fun s c e => modCtx_only _ _ _)

/-- A tenant slot changed twice. -/
theorem setTenant_modTenant (s : State) (t : Nat) (f g : Tenant → Tenant) : modTenant (modTenant s t f) t g = setTenant s t (g (f (getTenant s t))) := by
  unfold modTenant
  rw [getTenant_setTenant, if_pos rfl]; unfold setTenant; rw [amSet_amSet]

/-- A line of 64 bytes written at its home, and the slot changed after it (R336). -/
theorem writeHome_modTenant {v : State} {t a : Nat} {p : Page} {bs : List Byte} (h : keyed v p.key a bs.length = true) (hl : bs.length = 64)
    (f : Tenant → Tenant) :
    let u := modTenant (unpoison (writeHome (touch v 0 (.hbm a) p .write 64) (.hbm a) bs p) (.hbm a) 64) t f
    u.mem = memPut v.mem a bs ∧ ∃ y : Tenant, getTenant u t = f y ∧ ({ y with tokens := [], counters := [] } : Tenant) = { getTenant v t with tokens := [], counters := [] } := by
  intro u
  have hcT := touch_counts v 0 (.hbm a) p .write 64
  have htt := touchLine_tenant true v 0 (.hbm a) p .write 64 t
  have hw := writeHome_keyed (s := touch v 0 (.hbm a) p .write 64) (p := p) (a := a) (bs := bs) ((hcT.keyed ..).trans h)
  refine ⟨?_, _, getTenant_modTenant_same .., ?_⟩
  · show (writeHome _ _ _ _).mem = _
    rw [hw]; show memPut (touch v 0 (.hbm a) p .write 64).mem a bs = _; rw [hcT.mem]
  · have hg : getTenant (unpoison (writeHome (touch v 0 (.hbm a) p .write 64) (.hbm a) bs p) (.hbm a) 64) t = getTenant (touch v 0 (.hbm a) p .write 64) t := by
      show getTenant (writeHome _ _ _ _) t = _
      rw [hw]; rfl
    rw [hg]; exact htt

end Sys2Proof.Machine
end

