-- ==== Sys2Proof/Laws/Requests.lean ====
section
/-! SUPPORT. A request at its home: the frame that serves it, its line, its operation, and its answer. -/

namespace Sys2Proof.Machine

/-- Choosing the frame takes at most free values. -/
theorem frameNow_rest (s : State) (t : Nat) (l : Loc) (p : Page) (w : Bool) : (frameNow s t l p w).2 = { s with free := (frameNow s t l p w).2.free } := by
  unfold frameNow
  split
  · split
    · rfl
    · split
      · rfl
      · dsimp only [takeFree]; split <;> rfl
  · rfl

/-- An access to a line leaves the trail fields. -/
theorem getField_touchLine (pay : Bool) (s : State) (die : Nat) (l : Loc) (p : Page) (w : Acc) (n y f : Nat) :
    getField (touchLine pay s die l p w n) y f = getField s y f := by
  have h := congrArg (fun x : Tenant => amGetD ({} : Field) x.fields f) (touchLine_tenant pay s die l p w n y)
  exact h

/-- No link is asked for a place in the package. -/
theorem linkDown_inside {s : State} {l : Loc} (h : leavesPackage s l = false) : linkDown s l = false := by
  cases l <;> simp_all [leavesPackage, linkDown]

/-- The request of an id, updated. -/
theorem updWhere_reqId (i : Nat) (f : Req → Req) (xs : List Req) : updWhere (fun x => x.id == i) f xs = xs.map fun x => if x.id = i then f x else x :=
  updWhere_id _ (fun x : Req => x.id = i) _ _ fun x => by simp only [BEq.beq]

/-- Counting leaves the requests. -/
theorem OnlyCounts.reqs_eq {s t : State} (h : OnlyCounts s t) : t.reqs = s.reqs := by rw [h]

/-- Counting is the same where the requests are others. -/
theorem OnlyCounts.withReqs {s t : State} (h : OnlyCounts s t) (q : List Req) : OnlyCounts { s with reqs := q } { t with reqs := q } := by
  unfold OnlyCounts at *; rw [h]

/-- Counting, then storing, beside other requests. -/
theorem OnlyCounts.storedReqs {s t : State} (h : OnlyCounts s t) (q : List Req) (m : Memory) (w : List Watch) (g : List Nat) :
    OnlyStored { s with reqs := q } { t with reqs := q, mem := m, watches := w, poisoned := g } m := by
  unfold OnlyCounts at h; unfold OnlyStored; rw [h]

/-- A load that is answered: it has its value, and the earlier loads of its context that wait are overtaken (R131). -/
theorem putReq_passOlder (s : State) (r : Req) : ∀ b v l, (putReq (passOlder s r) r { value := v, poison := b, line := l } false) =
    { s with reqs := s.reqs.map fun x => if x.id = r.id then { x with done := true, value := v, poison := b, rlink := false, line := l }
      else if x.ctx = r.ctx ∧ x.id < r.id ∧ x.done = false ∧ isPlainLoad x.op = true then { x with overtaken := true } else x } := by
  intro b v l
  unfold putReq
  have h : (passOlder s r) = { s with reqs := s.reqs.map fun x => if x.ctx = r.ctx ∧ x.id < r.id ∧ x.done = false ∧ isPlainLoad x.op = true then { x with overtaken := true } else x } := by
    unfold passOlder
    have e : ∀ x : Req, (x.ctx == r.ctx && decide (x.id < r.id) && !x.done && isPlainLoad x.op) = decide (x.ctx = r.ctx ∧ x.id < r.id ∧ x.done = false ∧ isPlainLoad x.op = true) := by
      intro x
      cases x.done <;> cases isPlainLoad x.op <;> simp [Bool.decide_and, BEq.beq]
    split
    · rw [updWhere_id _ (fun x : Req => x.ctx = r.ctx ∧ x.id < r.id ∧ x.done = false ∧ isPlainLoad x.op = true) _ _ e]
    · rename_i hn
      have : s.reqs.map (fun x => if x.ctx = r.ctx ∧ x.id < r.id ∧ x.done = false ∧ isPlainLoad x.op = true then { x with overtaken := true } else x) = s.reqs := by
        conv_rhs => rw [← List.map_id s.reqs]
        refine List.map_congr_left fun x hx => ?_
        have : ¬ (x.ctx = r.ctx ∧ x.id < r.id ∧ x.done = false ∧ isPlainLoad x.op = true) := fun hc => by
          apply hn; rw [List.any_eq_true]; exact ⟨x, hx, by rw [e]; exact decide_eq_true hc⟩
        rw [if_neg this]; rfl
      rw [this]
  rw [h]
  dsimp only
  rw [updWhere_reqId]
  simp only [List.map_map]
  congr 1
  refine List.map_congr_left fun x hx => ?_
  simp only [Function.comp]
  by_cases hi : x.id = r.id
  · rw [if_pos hi]
    have hn : ¬ (x.ctx = r.ctx ∧ x.id < r.id ∧ x.done = false ∧ isPlainLoad x.op = true) := fun hc => by omega
    rw [if_neg hn, if_pos hi]
  · rw [if_neg hi]
    split
    · rfl
    · rfl

/-- Counting a held access changes counters alone. -/
theorem countHold_counts (s : State) (die : Nat) (l : Loc) (p : Page) (n : Nat) : OnlyCounts s (countHold s die l p n) := by
  unfold countHold; split
  · exact .refl s
  · split
    · exact .refl s
    · unfold OnlyCounts; exact narrowed (b := s.lines) (n := s.free) (countEvent_rest ..)

/-- A request performed: its line met, then its operation, then its answer. -/
theorem performReq_eq {s w : State} {r : Req} {l : Loc} {p : Page} {ext : Word}
    (h : touchLine (!r.admitted) s (dieOf (coreOf r.ctx)) l p (opAcc r.op) r.size = w) : performReq s r l p ext =
      answerReq (performOp w (dieOf (coreOf r.ctx)) (reqSlot s r) l r.op r.size ext p).2 r l (performOp w (dieOf (coreOf r.ctx)) (reqSlot s r) l r.op r.size ext p).1 := by
  subst h; rfl

/-- What each operation does at its home in HBM, where its line stands under its key: the bytes it leaves, and what its request answers (R111, R131, R143). -/
theorem answerReq_performOp {s w : State} {r : Req} {a : Nat} {p : Page} {ext : Word} (hc : OnlyCounts s w)
    (hgf : ∀ f, getField w (reqSlot s r) f = getField s (reqSlot s r) f) (hk : keyed s p.key a r.size = true) :
      let die := dieOf (coreOf r.ctx)
      let answered := fun (y : Word) (bad : Bool) (line : List Byte) (x : Req) =>
        ({ x with done := true, value := y, poison := bad, rlink := false, line := line } : Req)
      let word_ := BitVec.ofNat 64 (leNat (memBytes s.mem a r.size))
      let T := answerReq (performOp w die (reqSlot s r) (.hbm a) r.op r.size ext p).2 r (.hbm a) (performOp w die (reqSlot s r) (.hbm a) r.op r.size ext p).1
      (∀ x, r.op = .store x → ∃ u t, T = t ∧
          OnlyStored { s with reqs := s.reqs.filter fun x => x.id != r.id } u (memPut s.mem a (leBytes r.size x.toNat)) ∧ OnlyContexts u t) ∧
        (∀ z fill, r.op = .load z fill → poisonedAt s (.hbm a) r.size = false → (fill = true → keyed s p.key (a / 64 * 64) 64 = true) →
          let passed := fun (x : Req) => x.ctx = r.ctx ∧ x.id < r.id ∧ x.done = false ∧ isPlainLoad x.op = true
          let line := if fill then memBytes s.mem (a / 64 * 64) 64 else []
          let one := fun (x : Req) =>
            if x.id = r.id then answered (extend z word_) false line x else if passed x then { x with overtaken := true } else x
          ∃ t, T = t ∧ OnlyCounts { s with reqs := s.reqs.map one } t) ∧
        (∀ fn b c, r.op = .amo fn b c →
          (poisonedAt s (.hbm a) r.size = true → ∃ t, T = t ∧
            OnlyCounts { s with reqs := s.reqs.map fun x => if x.id = r.id then answered 0 true [] x else x } t) ∧
          (poisonedAt s (.hbm a) r.size = false → ∃ t, T = t ∧
            OnlyStored { s with reqs := s.reqs.map fun x => if x.id = r.id then answered word_ false [] x else x } t
              (if amoWrites fn word_ c then memPut s.mem a (leBytes r.size (amoNew fn word_ b c)) else s.mem))) ∧
        (∀ mx f b, r.op = .dep mx f b → r.size = 4 → poisonedAt s (.hbm a) 4 = false →
          let x := getField s (reqSlot s r) f.toNat
          ∃ t, T = t ∧
            OnlyStored { s with reqs := s.reqs.map fun x => if x.id = r.id then answered 0 false [] x else x } t
              (memPut s.mem a (leBytes 4 (deposited mx x.num.toNat (x.at_ (sliceOf die (.hbm a))) (word_.setWidth 32) b).toNat))) ∧
        (∀ f, r.op = .peek f → poisonedAt s (.hbm a) r.size = false →
          let x := getField s (reqSlot s r) f.toNat
          let now := BitVec.ofNat 64 (faded x.num.toNat (x.at_ (sliceOf die (.hbm a))) (word_.setWidth 32))
          ∃ t, T = t ∧
            OnlyCounts { s with reqs := s.reqs.map fun y => if y.id = r.id then answered now false [] y else y } t) := by
  intro die answered word_ T
  have hkw : ∀ a n, keyed w p.key a n = keyed s p.key a n := fun a n => hc.keyed ..
  have hpw : ∀ n, poisonedAt w (.hbm a) n = poisonedAt s (.hbm a) n := fun n => hc.poisonedAt ..
  have hmw : w.mem = s.mem := hc.mem
  have hrq : w.reqs = s.reqs := by rw [show w = _ from hc]
  have hrh : readHome w (.hbm a) r.size ext p = memBytes s.mem a r.size := by
    have : hbmBytes w p.key a r.size = memBytes w.mem a r.size := hbmBytes_keyed ((hkw ..).trans hk)
    rw [hmw] at this; exact this
  have hwr : ∀ bs, bs.length = r.size → ∃ q g, unpoison (writeHome w (.hbm a) bs p) (.hbm a) r.size = { w with mem := memPut s.mem a bs, watches := q, poisoned := g } := by
    intro bs hb
    have h := writeHome_keyed (s := w) (p := p) (a := a) (bs := bs) (by rw [hb, hkw]; exact hk)
    rw [h]
    exact ⟨_, _, by unfold unpoison; rw [hmw]⟩
  have hT : T = answerReq (performOp w die (reqSlot s r) (.hbm a) r.op r.size ext p).2 r (.hbm a) (performOp w die (reqSlot s r) (.hbm a) r.op r.size ext p).1 := rfl
  clear_value T
  refine ⟨fun x hx => ?_, fun z fill hx hpo hfl => ?_, fun fn b c hx => ⟨fun hpo => ?_, fun hpo => ?_⟩, fun mx f b hx h4 hpo => ?_, fun f hx hpo => ?_⟩
  · have h2 : performOp w die (reqSlot s r) (.hbm a) (.store x) r.size ext p = ({}, unpoison (writeHome w (.hbm a) (leBytes r.size x.toNat) p) (.hbm a) r.size) := by
      unfold performOp readsPoison; rfl
    have h3 : ∀ z, answerReq z r (.hbm a) {} = rewake (dropReq z r.id) (coreOf r.ctx) := fun z => by unfold answerReq; rw [hx]
    rw [hx, h2, h3] at hT
    obtain ⟨q, g, h⟩ := hwr (leBytes r.size x.toNat) (leBytes_length ..)
    rw [h] at hT
    refine ⟨_, _, hT, ?_, rewake_only ..⟩
    have := hc.storedReqs (s.reqs.filter fun x => x.id != r.id) (memPut s.mem a (leBytes r.size x.toNat)) q g
    unfold dropReq; dsimp only; rw [hrq]; exact this
  · have hpz : readsPoison w (.hbm a) r.size (.load z fill) = false := (hpw _).trans hpo
    simp only [answerReq, performOp, hx, hpz, Bool.false_eq_true, if_false, hrh] at hT
    have hln : (if fill = true then lineBytes w (.hbm a) p else []) = if fill = true then memBytes s.mem (a / 64 * 64) 64 else [] := by
      by_cases h : fill = true
      · rw [if_pos h, if_pos h]; unfold lineBytes; dsimp only; rw [hbmBytes_keyed ((hkw ..).trans (hfl h)), hmw]
      · rw [if_neg h, if_neg h]
    rw [hln] at hT
    refine ⟨_, hT, ?_⟩
    rw [putReq_passOlder, hrq]
    exact hc.withReqs _
  · have hpz : readsPoison w (.hbm a) r.size (.amo fn b c) = true := (hpw _).trans hpo
    simp only [answerReq, performOp, hx, hpz, if_true] at hT
    refine ⟨_, hT, ?_⟩
    unfold putReq; dsimp only; rw [updWhere_reqId, hrq]; exact hc.withReqs _
  · have hpz : readsPoison w (.hbm a) r.size (.amo fn b c) = false := (hpw _).trans hpo
    simp only [answerReq, performOp, hx, hpz, Bool.false_eq_true, if_false, hrh, performAmo] at hT
    refine ⟨_, hT, ?_⟩
    obtain ⟨q, g, h⟩ := hwr (leBytes r.size (amoNew fn word_ b c)) (leBytes_length ..)
    unfold putReq; dsimp only; rw [updWhere_reqId, show word (leNat (memBytes s.mem a r.size)) = word_ from rfl]
    by_cases hwz : amoWrites fn word_ c = true
    · rw [if_pos hwz, if_pos hwz, h]
      dsimp only; rw [hrq]
      exact hc.storedReqs ..
    · rw [if_neg hwz, if_neg hwz, hrq]
      exact (hc.withReqs _).stored
  · intro x
    have hpz : readsPoison w (.hbm a) r.size (.dep mx f b) = false := by rw [h4]; exact (hpw _).trans hpo
    simp only [answerReq, performOp, hx, hpz, Bool.false_eq_true, if_false, hrh, hgf] at hT
    have hl4 : ∀ z, (leBytes 4 z).length = r.size := fun z => by rw [h4]; exact leBytes_length ..
    have h := writeHome_keyed (s := w) (p := p) (a := a) (bs := leBytes 4 (deposited mx x.num.toNat (x.at_ (sliceOf die (.hbm a))) (word_.setWidth 32) b).toNat) (by rw [hl4, hkw]; exact hk)
    refine ⟨_, hT, ?_⟩
    have h' : (putReq (writeHome w (.hbm a) (leBytes 4 (deposited mx x.num.toNat (x.at_ (sliceOf die (.hbm a))) (word_.setWidth 32) b).toNat) p) r {} false) = _ :=
      congrArg (fun z => putReq z r {} false) h
    refine (show OnlyStored _ (putReq (writeHome w (.hbm a) (leBytes 4 (deposited mx x.num.toNat (x.at_ (sliceOf die (.hbm a))) (word_.setWidth 32) b).toNat) p) r {} false) _ from ?_)
    rw [h']
    unfold putReq; dsimp only; rw [updWhere_reqId, hrq, hmw]
    exact hc.storedReqs _ _ _ w.poisoned
  · intro x now
    have hpz : readsPoison w (.hbm a) r.size (.peek f) = false := (hpw _).trans hpo
    simp only [answerReq, performOp, hx, hpz, Bool.false_eq_true, if_false, hrh, hgf] at hT
    refine ⟨_, hT, ?_⟩
    unfold putReq; dsimp only; rw [updWhere_reqId, hrq]; exact hc.withReqs _

end Sys2Proof.Machine
end

