-- ==== Sys2Proof/Tests/Slice0.lean ====
section
/-! SUPPORT. Tests: ill-formed terms, words decoded, and for each statement a state and operands that meet its hypotheses. -/

namespace Sys2Proof.Tests
open Sys2Proof Sys2Proof.Machine

/-! ## A small package -/

def ctx : Ctx := { base := 0, size := 16, pc := 0x10000, vmid := 0, tslot := 0, node := none, prio := 0 }
def trapping : Ctx := { ctx with tvec := 0x20000 }
def regs (xs : List (Nat × Word)) : AMap RegEntry := xs.map fun x => (x.1, { val := x.2, full := true, poison := false })
def page : Page :=
  { vmid := 0, va := 0x30000, size := 16384, out := .hbm 0x40000, gpa := 0x40000, rd := true, wr := true, ex := true, home := .uncached,
    trail := none, key := 0 }
def marks : Page := { page with va := 0x50000, out := .hbm 0x50000, trail := some 3, home := .cached }
def core (c : Ctx) (xs : List (Nat × Word)) : Core := { ctxs := [(0, c)], rf := regs xs, pcc := [page, marks] }
def issue : Issue := { lane := .barrel 0 0 [], probe := false, word := none, pc := 0x10000, rep := none }
def on (k : Core) : State := { State.reset with cores := [(0, k)], cur := issue }

theorem canIssue_of {s : State} {c : Ctx} {u : Use}
    (h : (curCtx s = some c ∧ s.cur.probe = false ∧ c.portTrap = none ∧ heldByDuty c u = false ∧ u.top < c.size) ∧
      (∀ r ∈ u.regs, portOf (my s) c r = none ∧ r.toNat < c.size ∧ (regEntry (my s) c r).full = true) ∧
      ∀ r ∈ u.srcs, (regEntry (my s) c r).poison = false) : CanIssue s c u :=
  ⟨h.1.1, h.1.2.1, h.1.2.2.1, h.1.2.2.2.1, fun r hr => (h.2.1 r hr).1, fun r hr => (h.2.1 r hr).2.1, h.1.2.2.2.2,
   fun r hr => (h.2.1 r hr).2.2, h.2.2⟩

theorem reaches_of {s : State} {c : Ctx} {va : Word} {n : Nat} {rd wr : Bool} {p : Page}
    (h : va.toNat % n = 0 ∧ (∀ i, i < 64 → 47 ≤ i → va.getLsbD i = va.getLsbD 47) ∧ pageEntry (my s) c.vmid va = some p ∧
      (rd = true → p.rd = true) ∧ (wr = true → p.wr = true)) : Reaches s c va n rd wr p :=
  ⟨h.1, fun i a b => h.2.1 i b a, h.2.2.1, h.2.2.2.1, h.2.2.2.2⟩

theorem hasHandler_of {s : State} {c : Ctx} (h : s.cur.lane = .barrel 0 0 [] ∧ c.tvec ≠ 0 ∧ c.tcause.getLsbD 62 = false) : HasHandler s c :=
  ⟨⟨0, 0, [], h.1⟩, h.2.1, h.2.2⟩

/-! ## Ill-formed terms -/

theorem test_illformed_zeros : (Instr.add false 0 0 0).wellFormed = false := rfl
theorem test_illformed_ld : (Instr.ld 0 7 1 2).wellFormed = false := rfl
theorem test_illformed_ldBy : (Instr.ldBy 0 7 1 2).wellFormed = false := rfl
theorem test_illformed_lds : (Instr.lds 0 7 1 2).wellFormed = false := rfl

/-! ## Words written out from the fields of the opcode table, one for each instruction that has an encoding -/

theorem test_words_1 :
    decode 0x166AAA80 = some (.add true 85 42 51) ∧
    decode 0x366AAA80 = some (.sub true 85 42 51) ∧
    decode 0x566AAA80 = some (.and true 85 42 51) ∧
    decode 0x766AAA80 = some (.or true 85 42 51) ∧
    decode 0x966AAA80 = some (.xor true 85 42 51) ∧
    decode 0xB66AAA80 = some (.sll true 85 42 51) ∧
    decode 0xD66AAA80 = some (.srl true 85 42 51) ∧
    decode 0xF66AAA80 = some (.sra true 85 42 51) ∧
    decode 0x166AAA81 = some (.slt true 85 42 51) ∧
    decode 0x366AAA81 = some (.sltu true 85 42 51) ∧
    decode 0x566AAA81 = some (.min true 85 42 51) ∧
    decode 0x766AAA81 = some (.max true 85 42 51) ∧
    decode 0x966AAA81 = some (.minu true 85 42 51) ∧
    decode 0xB66AAA81 = some (.maxu true 85 42 51) ∧
    decode 0x166AAA82 = some (.mul true 85 42 51) ∧
    decode 0x366AAA82 = some (.mulh true 85 42 51) ∧
    decode 0x566AAA82 = some (.mulhu true 85 42 51) ∧
    decode 0x766AAA82 = some (.mulhsu true 85 42 51) ∧
    decode 0x966AAA82 = some (.div true 85 42 51) ∧
    decode 0xB66AAA82 = some (.divu true 85 42 51) := by
  refine ⟨?_, ?_, ?_, ?_, ?_, ?_, ?_, ?_, ?_, ?_, ?_, ?_, ?_, ?_, ?_, ?_, ?_, ?_, ?_, ?_⟩ <;> rfl

theorem test_words_2 :
    decode 0xD66AAA82 = some (.rem true 85 42 51) ∧
    decode 0xF66AAA82 = some (.remu true 85 42 51) ∧
    decode 0x100AAA83 = some (.home true 85 42) ∧
    decode 0x300AAA83 = some (.clz true 85 42) ∧
    decode 0x500AAA83 = some (.ctz true 85 42) ∧
    decode 0x700AAA83 = some (.popc true 85 42) ∧
    decode 0xB46AAA84 = some (.addi 1443 85 42) ∧
    decode 0xB46AAA85 = some (.andi 1443 85 42) ∧
    decode 0xB46AAA86 = some (.ori 1443 85 42) ∧
    decode 0xB46AAA87 = some (.xori 1443 85 42) ∧
    decode 0x05AAAA88 = some (.slli 45 85 42) ∧
    decode 0x05AAAA89 = some (.srli 45 85 42) ∧
    decode 0x05AAAA8A = some (.srai 45 85 42) ∧
    decode 0xB46AAA8B = some (.slti 1443 85 42) ∧
    decode 0xB46AAA8C = some (.sltiu 1443 85 42) ∧
    decode 0xB16A6A8D = some (.lui 181673 85) ∧
    decode 0xB16A6A8E = some (.adpc 181673 85) ∧
    decode 0xA7AAAA90 = some (.ld 167 5 85 42) ∧
    decode 0xA7AAAA91 = some (.ldBy 167 5 85 42) ∧
    decode 0xA74A9992 = some (.st 167 2 42 51) := by
  refine ⟨?_, ?_, ?_, ?_, ?_, ?_, ?_, ?_, ?_, ?_, ?_, ?_, ?_, ?_, ?_, ?_, ?_, ?_, ?_, ?_⟩ <;> rfl

theorem test_words_3 :
    decode 0xA7AAAA93 = some (.lds 167 5 85 42) ∧
    decode 0xA74A9994 = some (.sts 167 2 42 51) ∧
    decode 0xB46CD518 = some (.beq 1443 42 51) ∧
    decode 0xB46CD519 = some (.bne 1443 42 51) ∧
    decode 0xB46CD51A = some (.blt 1443 42 51) ∧
    decode 0xB46CD51B = some (.bge 1443 42 51) ∧
    decode 0xB46CD51C = some (.bltu 1443 42 51) ∧
    decode 0xB46CD51D = some (.bgeu 1443 42 51) ∧
    decode 0xB16A6A9E = some (.jal 181673 85) ∧
    decode 0xB46AAA9F = some (.jalr 1443 85 42) ∧
    decode 0xA7AAAAA0 = some (.ldAcq 2 167 true 85 42) ∧
    decode 0xA7AA99A1 = some (.stRel 2 167 true 42 51) ∧
    decode 0x166AAAA2 = some (.amoAdd true 85 42 51) ∧
    decode 0x366AAAA2 = some (.amoAnd true 85 42 51) ∧
    decode 0x566AAAA2 = some (.amoOr true 85 42 51) ∧
    decode 0x766AAAA2 = some (.amoXor true 85 42 51) ∧
    decode 0x966AAAA2 = some (.amoSwap true 85 42 51) ∧
    decode 0xB66AAAA2 = some (.amoMin true 85 42 51) ∧
    decode 0xD66AAAA2 = some (.amoMax true 85 42 51) ∧
    decode 0xF66AAAA2 = some (.amoCas true 85 42 51) := by
  refine ⟨?_, ?_, ?_, ?_, ?_, ?_, ?_, ?_, ?_, ?_, ?_, ?_, ?_, ?_, ?_, ?_, ?_, ?_, ?_, ?_⟩ <;> rfl

theorem test_words_4 :
    decode 0x166AAAA3 = some (.amoAddAcq true 85 42 51) ∧
    decode 0x366AAAA3 = some (.amoAndAcq true 85 42 51) ∧
    decode 0x566AAAA3 = some (.amoOrAcq true 85 42 51) ∧
    decode 0x766AAAA3 = some (.amoXorAcq true 85 42 51) ∧
    decode 0x966AAAA3 = some (.amoSwapAcq true 85 42 51) ∧
    decode 0xB66AAAA3 = some (.amoMinAcq true 85 42 51) ∧
    decode 0xD66AAAA3 = some (.amoMaxAcq true 85 42 51) ∧
    decode 0xF66AAAA3 = some (.amoCasAcq true 85 42 51) ∧
    decode 0x166AAAA4 = some (.amoAddRel true 85 42 51) ∧
    decode 0x366AAAA4 = some (.amoAndRel true 85 42 51) ∧
    decode 0x566AAAA4 = some (.amoOrRel true 85 42 51) ∧
    decode 0x766AAAA4 = some (.amoXorRel true 85 42 51) ∧
    decode 0x966AAAA4 = some (.amoSwapRel true 85 42 51) ∧
    decode 0xB66AAAA4 = some (.amoMinRel true 85 42 51) ∧
    decode 0xD66AAAA4 = some (.amoMaxRel true 85 42 51) ∧
    decode 0xF66AAAA4 = some (.amoCasRel true 85 42 51) ∧
    decode 0x166AAAA5 = some (.amoAddAr true 85 42 51) ∧
    decode 0x366AAAA5 = some (.amoAndAr true 85 42 51) ∧
    decode 0x566AAAA5 = some (.amoOrAr true 85 42 51) ∧
    decode 0x766AAAA5 = some (.amoXorAr true 85 42 51) := by
  refine ⟨?_, ?_, ?_, ?_, ?_, ?_, ?_, ?_, ?_, ?_, ?_, ?_, ?_, ?_, ?_, ?_, ?_, ?_, ?_, ?_⟩ <;> rfl

theorem test_words_5 :
    decode 0x966AAAA5 = some (.amoSwapAr true 85 42 51) ∧
    decode 0xB66AAAA5 = some (.amoMinAr true 85 42 51) ∧
    decode 0xD66AAAA5 = some (.amoMaxAr true 85 42 51) ∧
    decode 0xF66AAAA5 = some (.amoCasAr true 85 42 51) ∧
    decode 0x166AAAA6 = some (.amoMinu true 85 42 51) ∧
    decode 0x366AAAA6 = some (.amoMaxu true 85 42 51) ∧
    decode 0x566AAAA6 = some (.amoFaddD true 85 42 51) ∧
    decode 0x766AAAA6 = some (.amoFaddW true 85 42 51) ∧
    decode 0x966AAAA6 = some (.amoFaddH true 85 42 51) ∧
    decode 0xB66AAAA6 = some (.amoBfadd true 85 42 51) ∧
    decode 0x166AAAA7 = some (.amoMinuAcq true 85 42 51) ∧
    decode 0x366AAAA7 = some (.amoMaxuAcq true 85 42 51) ∧
    decode 0x566AAAA7 = some (.amoFaddDAcq true 85 42 51) ∧
    decode 0x766AAAA7 = some (.amoFaddWAcq true 85 42 51) ∧
    decode 0x966AAAA7 = some (.amoFaddHAcq true 85 42 51) ∧
    decode 0xB66AAAA7 = some (.amoBfaddAcq true 85 42 51) ∧
    decode 0x166AAAA8 = some (.amoMinuRel true 85 42 51) ∧
    decode 0x366AAAA8 = some (.amoMaxuRel true 85 42 51) ∧
    decode 0x566AAAA8 = some (.amoFaddDRel true 85 42 51) ∧
    decode 0x766AAAA8 = some (.amoFaddWRel true 85 42 51) := by
  refine ⟨?_, ?_, ?_, ?_, ?_, ?_, ?_, ?_, ?_, ?_, ?_, ?_, ?_, ?_, ?_, ?_, ?_, ?_, ?_, ?_⟩ <;> rfl

theorem test_words_6 :
    decode 0x966AAAA8 = some (.amoFaddHRel true 85 42 51) ∧
    decode 0xB66AAAA8 = some (.amoBfaddRel true 85 42 51) ∧
    decode 0x166AAAA9 = some (.amoMinuAr true 85 42 51) ∧
    decode 0x366AAAA9 = some (.amoMaxuAr true 85 42 51) ∧
    decode 0x566AAAA9 = some (.amoFaddDAr true 85 42 51) ∧
    decode 0x766AAAA9 = some (.amoFaddWAr true 85 42 51) ∧
    decode 0x966AAAA9 = some (.amoFaddHAr true 85 42 51) ∧
    decode 0xB66AAAA9 = some (.amoBfaddAr true 85 42 51) ∧
    decode 0x166AAAAA = some (.amosAdd true 85 42 51) ∧
    decode 0x366AAAAA = some (.amosAnd true 85 42 51) ∧
    decode 0x566AAAAA = some (.amosOr true 85 42 51) ∧
    decode 0x766AAAAA = some (.amosXor true 85 42 51) ∧
    decode 0x966AAAAA = some (.amosSwap true 85 42 51) ∧
    decode 0xB66AAAAA = some (.amosMin true 85 42 51) ∧
    decode 0xD66AAAAA = some (.amosMax true 85 42 51) ∧
    decode 0xF66AAAAA = some (.amosCas true 85 42 51) ∧
    decode 0x166AAAAB = some (.amosMinu true 85 42 51) ∧
    decode 0x366AAAAB = some (.amosMaxu true 85 42 51) ∧
    decode 0x566AAAAB = some (.amosFaddD true 85 42 51) ∧
    decode 0x766AAAAB = some (.amosFaddW true 85 42 51) := by
  refine ⟨?_, ?_, ?_, ?_, ?_, ?_, ?_, ?_, ?_, ?_, ?_, ?_, ?_, ?_, ?_, ?_, ?_, ?_, ?_, ?_⟩ <;> rfl

theorem test_words_7 :
    decode 0x966AAAAB = some (.amosFaddH true 85 42 51) ∧
    decode 0xB66AAAAB = some (.amosBfadd true 85 42 51) ∧
    decode 0x166A802D = some (.depAdd true 42 51) ∧
    decode 0x366A802D = some (.depMax true 42 51) ∧
    decode 0x500AAAAD = some (.peek true 85 42) ∧
    decode 0x766AAAAD = some (.sense true 85 42 51) ∧
    decode 0x966A802D = some (.depAddRel true 42 51) ∧
    decode 0xB66A802D = some (.depMaxRel true 42 51) ∧
    decode 0x100A802E = some (.tick true 42) ∧
    decode 0xD66AAAB0 = some (.fadd true 2 true 85 42 51) ∧
    decode 0xD66AAAB1 = some (.fsub true 2 true 85 42 51) ∧
    decode 0xD66AAAB2 = some (.fmul true 2 true 85 42 51) ∧
    decode 0xD66AAAB3 = some (.fdiv true 2 true 85 42 51) ∧
    decode 0xD66AAAB4 = some (.fma true 2 true 85 42 51) ∧
    decode 0xD66AAAB5 = some (.fnma true 2 true 85 42 51) ∧
    decode 0xD00AAAB6 = some (.fsqrt true 2 true 85 42) ∧
    decode 0x166AAAB7 = some (.fminW true 85 42 51) ∧
    decode 0x366AAAB7 = some (.fmaxW true 85 42 51) ∧
    decode 0x566AAAB7 = some (.feqW true 85 42 51) ∧
    decode 0x766AAAB7 = some (.fltW true 85 42 51) := by
  refine ⟨?_, ?_, ?_, ?_, ?_, ?_, ?_, ?_, ?_, ?_, ?_, ?_, ?_, ?_, ?_, ?_, ?_, ?_, ?_, ?_⟩ <;> rfl

theorem test_words_8 :
    decode 0x966AAAB7 = some (.fleW true 85 42 51) ∧
    decode 0xB66AAAB7 = some (.fsgnjW true 85 42 51) ∧
    decode 0xD66AAAB7 = some (.fsgnjnW true 85 42 51) ∧
    decode 0xF00AAAB7 = some (.fclassW true 85 42) ∧
    decode 0x166AAAB8 = some (.fminD true 85 42 51) ∧
    decode 0x366AAAB8 = some (.fmaxD true 85 42 51) ∧
    decode 0x566AAAB8 = some (.feqD true 85 42 51) ∧
    decode 0x766AAAB8 = some (.fltD true 85 42 51) ∧
    decode 0x966AAAB8 = some (.fleD true 85 42 51) ∧
    decode 0xB66AAAB8 = some (.fsgnjD true 85 42 51) ∧
    decode 0xD66AAAB8 = some (.fsgnjnD true 85 42 51) ∧
    decode 0xF00AAAB8 = some (.fclassD true 85 42) ∧
    decode 0x500AAAB9 = some (.cvtSD 2 true 85 42) ∧
    decode 0x900AAAB9 = some (.cvtDS true 85 42) ∧
    decode 0x500AAABA = some (.cvtHS 2 true 85 42) ∧
    decode 0x900AAABA = some (.cvtSH true 85 42) ∧
    decode 0x500AAABB = some (.cvtBfS 2 true 85 42) ∧
    decode 0x900AAABB = some (.cvtSBf true 85 42) ∧
    decode 0x500AAABC = some (.cvtSL 2 true 85 42) ∧
    decode 0xD00AAABC = some (.cvtDL 2 true 85 42) := by
  refine ⟨?_, ?_, ?_, ?_, ?_, ?_, ?_, ?_, ?_, ?_, ?_, ?_, ?_, ?_, ?_, ?_, ?_, ?_, ?_, ?_⟩ <;> rfl

theorem test_words_9 :
    decode 0x500AAABD = some (.cvtLS 2 true 85 42) ∧
    decode 0xD00AAABD = some (.cvtLD 2 true 85 42) ∧
    decode 0x500AAABE = some (.cvtDLu 2 true 85 42) ∧
    decode 0xD00AAABE = some (.cvtLuD 2 true 85 42) ∧
    decode 0xD66AAAC0 = some (.vadd true 2 true 85 42 51) ∧
    decode 0xD66AAAC1 = some (.vsub true 2 true 85 42 51) ∧
    decode 0xD66AAAC2 = some (.vmul true 2 true 85 42 51) ∧
    decode 0xD66AAAC3 = some (.vfma true 2 true 85 42 51) ∧
    decode 0x166AAAC4 = some (.vminW true 85 42 51) ∧
    decode 0x366AAAC4 = some (.vmaxW true 85 42 51) ∧
    decode 0x566AAAC4 = some (.vminD true 85 42 51) ∧
    decode 0x766AAAC4 = some (.vmaxD true 85 42 51) ∧
    decode 0x900AAAC4 = some (.vcpy true 85 42) ∧
    decode 0x100AAAC5 = some (.vcvtHS true 85 42) ∧
    decode 0x300AAAC5 = some (.vcvtSH true 85 42) ∧
    decode 0x500AAAC5 = some (.vcvtBfS true 85 42) ∧
    decode 0x700AAAC5 = some (.vcvtSBf true 85 42) ∧
    decode 0x966AAAC5 = some (.vcvtBd8S true 85 42 51) ∧
    decode 0xB66AAAC5 = some (.vcvtSBd8 true 85 42 51) ∧
    decode 0xD66AAAC5 = some (.vcvtBd4S true 85 42 51) := by
  refine ⟨?_, ?_, ?_, ?_, ?_, ?_, ?_, ?_, ?_, ?_, ?_, ?_, ?_, ?_, ?_, ?_, ?_, ?_, ?_, ?_⟩ <;> rfl

theorem test_words_10 :
    decode 0xF66AAAC5 = some (.vcvtSBd4 true 85 42 51) ∧
    decode 0x100AAAC6 = some (.sfuExp2 true 85 42) ∧
    decode 0x300AAAC6 = some (.sfuLog2 true 85 42) ∧
    decode 0x500AAAC6 = some (.sfuRcp true 85 42) ∧
    decode 0x700AAAC6 = some (.sfuRsq true 85 42) ∧
    decode 0x900AAAC6 = some (.sfuSin true 85 42) ∧
    decode 0xB00AAAC6 = some (.sfuCos true 85 42) ∧
    decode 0xD00AAAC6 = some (.sfuTanh true 85 42) ∧
    decode 0xF00AAAC6 = some (.sfuSigm true 85 42) ∧
    decode 0x100AAAC7 = some (.sbindIn true 85 42) ∧
    decode 0x300AAAC7 = some (.sbindOut true 85 42) ∧
    decode 0x40002AC7 = some (.sunbind 85) ∧
    decode 0x100A8048 = some (.ctab true 42) ∧
    decode 0x166A8DD0 = some (.mma true true 11 42 51) ∧
    decode 0x166A9DD0 = some (.mmaZ true true 11 42 51) ∧
    decode 0x300A8DD0 = some (.mmaRot true true 11 42) ∧
    decode 0x300A9DD0 = some (.mmaRotZ true true 11 42) ∧
    decode 0x366AADD0 = some (.mmaRotSd true true 11 42 51) ∧
    decode 0x366ABDD0 = some (.mmaRotSdZ true true 11 42 51) ∧
    decode 0x166A8851 = some (.mstc true true 42 51) := by
  refine ⟨?_, ?_, ?_, ?_, ?_, ?_, ?_, ?_, ?_, ?_, ?_, ?_, ?_, ?_, ?_, ?_, ?_, ?_, ?_, ?_⟩ <;> rfl

theorem test_words_11 :
    decode 0x366A8851 = some (.mldc true true 42 51) ∧
    decode 0x00002AD2 = some (.mcommit 85) ∧
    decode 0x300A8052 = some (.mwait true 42) ∧
    decode 0x166A8153 = some (.cpyGg true 2 42 51) ∧
    decode 0x166A8553 = some (.cpyGs true 2 42 51) ∧
    decode 0x166A8353 = some (.cpySg true 2 42 51) ∧
    decode 0x166A8753 = some (.cpySs true 2 42 51) ∧
    decode 0x300A8153 = some (.cpySub true 2 42) ∧
    decode 0x300A8553 = some (.cpySubPull true 2 42) ∧
    decode 0x300A8353 = some (.cpySubRet true 2 42) ∧
    decode 0x366A8054 = some (.cwait true 42 51) ∧
    decode 0x166AAAE0 = some (.spawn true 85 42 51) ∧
    decode 0x100A8061 = some (.go true 42) ∧
    decode 0x766A8061 = some (.park true 42 51) ∧
    decode 0x100AAAE2 = some (.join true 85 42) ∧
    decode 0x300AAAE2 = some (.leave true 85 42) ∧
    decode 0x500AAAE2 = some (.bar true 85 42) ∧
    decode 0x100A8063 = some (.tsig true 42) ∧
    decode 0x018144E8 = some (.kadd 9 5 12) ∧
    decode 0x218144E8 = some (.ksub 9 5 12) := by
  refine ⟨?_, ?_, ?_, ?_, ?_, ?_, ?_, ?_, ?_, ?_, ?_, ?_, ?_, ?_, ?_, ?_, ?_, ?_, ?_, ?_⟩ <;> rfl

theorem test_words_12 :
    decode 0x418144E8 = some (.kand 9 5 12) ∧
    decode 0x618144E8 = some (.kor 9 5 12) ∧
    decode 0x818144E8 = some (.kxor 9 5 12) ∧
    decode 0xA18144E8 = some (.ksll 9 5 12) ∧
    decode 0xC18144E8 = some (.ksrl 9 5 12) ∧
    decode 0xE18144E8 = some (.kmul 9 5 12) ∧
    decode 0xB46144E9 = some (.kaddi 1443 9 5) ∧
    decode 0xB46302EA = some (.kbeq 1443 5 12) ∧
    decode 0xB46302EB = some (.kbne 1443 5 12) ∧
    decode 0xB46002EC = some (.kloop 1443 5) ∧
    decode 0xB16A406D = some (.kj 181673) ∧
    decode 0x100A84EE = some (.rowany true 9 42) ∧
    decode 0x300A84EE = some (.rowall true 9 42) ∧
    decode 0xB4602AF0 = some (.csrr 1443 85) ∧
    decode 0xB46AAAF1 = some (.csrrw 1443 85 42) ∧
    decode 0xB46AAAF2 = some (.csrs 1443 85 42) ∧
    decode 0xB46AAAF3 = some (.csrc 1443 85 42) ∧
    decode 0x100A8075 = some (.tlbiVa true 42) ∧
    decode 0x566A8075 = some (.tlbiS2 true 42 51) ∧
    decode 0x166AAAF6 = some (.dline true 85 42 51) := by
  refine ⟨?_, ?_, ?_, ?_, ?_, ?_, ?_, ?_, ?_, ?_, ?_, ?_, ?_, ?_, ?_, ?_, ?_, ?_, ?_, ?_⟩ <;> rfl

theorem test_words_13 :
    decode 0x300A8076 = some (.prog true 42) ∧
    decode 0x100A8077 = some (.pwrHint true 42) ∧
    decode 0x002AA3FF = some (.rep true 2 2 2 71) ∧
    decode 0x003AA3FF = some (.repOs true 2 2 2 71) ∧
    decode 0x0000002C = some .fenceCore ∧
    decode 0x2000002C = some .fenceDie ∧
    decode 0x4000002C = some .fencePkg ∧
    decode 0x6000002C = some .fenceDom ∧
    decode 0x00000054 = some .cfence ∧
    decode 0x20000061 = some .quit ∧
    decode 0x40000061 = some .yield ∧
    decode 0x0000006F = some .rend ∧
    decode 0x00000074 = some .ecall ∧
    decode 0x20000074 = some .brk ∧
    decode 0x40000074 = some .tret ∧
    decode 0x20000075 = some .tlbiVmid ∧
    decode 0x60000075 = some .tlbiAll := by
  refine ⟨?_, ?_, ?_, ?_, ?_, ?_, ?_, ?_, ?_, ?_, ?_, ?_, ?_, ?_, ?_, ?_, ?_⟩ <;> rfl

/-! ## Statements about words: states that meet their hypotheses -/

theorem witness_IntegerRegisterForms : CanIssue (on (core ctx [(1, 7), (2, 0)])) ctx { srcs := [1, 2], dst := some 15, ports := true } :=
  canIssue_of (by decide)
theorem witness_IntegerUnaryForms : CanIssue (on (core ctx [(1, 7)])) ctx { srcs := [1], dst := some 0, w := true, ports := true } :=
  canIssue_of (by decide)
theorem witness_IntegerImmediateForms :
    CanIssue (on (core ctx [])) ctx { srcs := [1], dst := some 2, ports := true } ∧ CanIssue (on (core ctx [])) ctx { srcs := [], dst := some 0 } :=
  ⟨canIssue_of (by decide), canIssue_of (by decide)⟩
theorem witness_Branches : CanIssue (on (core ctx [(1, 1)])) ctx { srcs := [1, 2] } := canIssue_of (by decide)
theorem witness_Jumps :
    let s := on (core trapping [(1, 0x10002)])
    CanIssue s trapping { srcs := [], dst := some 3 } ∧ HasHandler s trapping ∧ CanIssue s trapping { srcs := [1], dst := some 1 } ∧
    (s.cur.pc + BitVec.ofInt 64 (4 * (-1 : Int))).toNat % 4 = 0 ∧ (val s trapping 1 + (2 : BitVec 11).signExtend 64).toNat % 4 = 0 ∧
    (val s trapping 1 + (1 : BitVec 11).signExtend 64).toNat % 4 ≠ 0 :=
  ⟨canIssue_of (by decide), hasHandler_of (by decide), canIssue_of (by decide), by decide, by decide, by decide⟩

/-- Code at 0x10000 whose second word is `add g1, g2, g3`. -/
def coded (k : Core) : State :=
  { on { k with pcc := { page with va := 0x10000 } :: k.pcc } with
    mem := memPut [] 0x40004 [0x80, 0x80, 0x60, 0x00], images := [] }
theorem witness_RepeatPrefix :
    CanIssue (on (core ctx [])) ctx { srcs := [4] } ∧ (val (on (core ctx [])) ctx 4).toNat % 65536 = 0 ∧
    CanIssue (coded (core ctx [(4, 3)])) ctx { srcs := [] } ∧
    fetch (coded (core ctx [(4, 3)])) 0 0 none 0x10004 = (.ok 0x00608080, coded (core ctx [(4, 3)])) ∧
    repTargetOk { sa := 1, sb := 0, sc := 1, os := false } 0x00608080 = true ∧
    repBeyond { sa := 1, sb := 0, sc := 1, os := false } 0x00608080 16 0 3 = false ∧
    badPort (targetUse 0x00608080) (my (coded (core ctx [(4, 3)]))) ctx = false ∧
    CanIssue (coded (core ctx [(4, 3)])) ctx { srcs := [4] } ∧ (val (coded (core ctx [(4, 3)])) ctx 4).toNat % 65536 ≠ 0 :=
  ⟨canIssue_of (by decide), by decide, canIssue_of (by decide), rfl, by decide, by decide, by decide, canIssue_of (by decide), by decide⟩
/-- A target that may not be repeated, `quit`; and `add g1, g2, g3`, whose third register leaves the allotment with the fifteenth repetition. -/
theorem witness_RepeatPrefix_traps :
    let q : State := { coded (core trapping [(4, 3)]) with mem := memPut [] 0x40004 (leBytes 4 0x20000061) }
    let r : Rep := { sa := 1, sb := 0, sc := 1, os := false }
    let late : Ctx := { trapping with repc := 0x80000000000E0001 }
    let b : Ctx := { trapping with smap := bindField 0 2 }
    CanIssue q trapping { srcs := [4] } ∧ HasHandler q trapping ∧ fetch q 0 0 none 0x10004 = (.ok 0x20000061, q) ∧ repTargetOk r 0x20000061 = false ∧
    CanIssue (coded (core late [])) late { srcs := [] } ∧ HasHandler (coded (core late [])) late ∧
    repBeyond r 0x00608080 late.size (late.repc.toNat / 65536 % 65536) (late.repc.toNat % 65536) = true ∧
    CanIssue (coded (core b [(4, 3)])) b { srcs := [4] } ∧ HasHandler (coded (core b [(4, 3)])) b ∧
    badPort (targetUse 0x00608080) (my (coded { core b [(4, 3)] with rf := regs [(2, 0x30001)] })) b = true := by
  refine ⟨canIssue_of (by decide), hasHandler_of (by decide), rfl, by decide, canIssue_of (by decide), hasHandler_of (by decide), by decide,
    canIssue_of (by decide), hasHandler_of (by decide), by decide⟩
/-- A context whose `g1` holds an address of `page`. -/
def near (k : Core → Core) : State := on (k (core ctx [(1, 0x30040), (2, 5)]))
def entry (n : Nat) : SbEntry := { id := n, ctx := 1, op := .store 7, va := 0x30041, size := 1, loc := .hbm 0x40041, page := page, rel := none }
theorem witness_GlobalLoads :
    CanIssue (near id) ctx { srcs := [1], dst := some 2, mem := true } ∧ Reaches (near id) ctx 0x30040 8 true false page ∧
    page.home ≠ .cached ∧ page.home ≠ .slice ∧
    Reaches (near fun k => { k with pcc := [{ page with home := .slice }] }) ctx 0x30040 8 true false { page with home := .slice } ∧
    memAddr (near id) (val (near id) ctx 1) 0 8 = 0x30040 ∧ loadSource (my (near id)) ctx page 0x30040 8 true = .request ∧
    loadSource (my (near fun k => { k with sbuf := [entry 1] })) ctx page 0x30040 8 true = .wait ∧
    loadSource (my (near fun k => { k with sbuf := [{ entry 1 with va := 0x30040, loc := .hbm 0x40040, size := 8 }] })) ctx page 0x30040 8 true =
      .value 7 ∧ pendingAccess (near fun k => { k with sbuf := [{ entry 1 with va := 0x30040, loc := .hbm 0x40040, size := 8 }] }) 0 = false ∧
    CanIssue (near fun k => { k with sbuf := [{ entry 1 with va := 0x30040, loc := .hbm 0x40040, size := 8 }] }) ctx
      { srcs := [1], dst := some 2, mem := true } :=
  ⟨canIssue_of (by decide), reaches_of (by decide), by decide, by decide, reaches_of (by decide), by decide, by decide, by decide, by decide,
   by decide, canIssue_of (by decide)⟩
theorem witness_AcquireLoad :
    CanIssue (near id) ctx { srcs := [1], dst := some 2, mem := true } ∧ Reaches (near id) ctx 0x30040 4 true false page ∧
    loadSource (my (near id)) ctx page 0x30040 4 false = .request ∧
    loadSource (my (near fun k => { k with sbuf := [entry 1] })) ctx page 0x30040 4 false = .wait ∧
    loadSource (my (near fun k => { k with sbuf := [{ entry 1 with va := 0x30040, loc := .hbm 0x40040, size := 4 }] })) ctx page 0x30040 4 false =
      .value 7 :=
  ⟨canIssue_of (by decide), reaches_of (by decide), by decide, by decide, by decide⟩
theorem witness_GlobalStores :
    CanIssue (near id) ctx { srcs := [1, 2], mem := true, store := true } ∧ Reaches (near id) ctx 0x30040 8 false true page ∧
    bufferUsed (my (near fun k => { k with sbuf := List.replicate 31 (entry 1) })) < 32 ∧
    32 ≤ bufferUsed (my (near fun k => { k with sbuf := List.replicate 32 (entry 1) })) ∧
    (entry 1).op = .store 7 ∧ (entry 1).size = widthBytes 4 ∧ (entry 1).loc = page.loc 0x30041 :=
  ⟨canIssue_of (by decide), reaches_of (by decide), by decide, by decide, by decide, by decide, by decide⟩
theorem witness_ScratchpadLoads :
    let s := on (core ctx [(1, 0x17FF8)])
    CanIssue s ctx { srcs := [1], dst := some 2, mem := true } ∧ (memAddr s (val s ctx 1) 0 8).toNat % 8 = 0 ∧
    (memAddr s (val s ctx 1) 0 8).toNat + 8 ≤ windowBase (my s) ∧ spPoisoned (my s) 0x17FF8 8 = false ∧
    spPoisoned { my s with spPoison := [0x5FFE] } 0x17FF8 8 = true :=
  ⟨canIssue_of (by decide), by decide, by decide, by decide, by decide⟩
theorem witness_ScratchpadStores :
    let s := on (core ctx [(1, 0x17FFF), (2, 0xAB)])
    CanIssue s ctx { srcs := [1, 2], mem := true } ∧ (memAddr s (val s ctx 1) 0 1).toNat % 1 = 0 ∧
    (memAddr s (val s ctx 1) 0 1).toNat + 1 ≤ windowBase (my s) ∧ isLent (my s) 0x17FFF 1 = false ∧ spPoisoned (my s) 0x17FFF 1 = false ∧
    (my s).sp.wf = true :=
  ⟨canIssue_of (by decide), by decide, by decide, by decide, by decide, by decide⟩
/-- A product that has not started: it lends the 64 bytes of one row. -/
def product : MCmd :=
  { id := 9, ctx := 0, kind := .mma, word := 0, bank := false, sd := false, z := true, depth := 1, a := 0, b := 0, mfmt := 0, mscla := 0,
    msclb := 0, prio := 0, batch := 1, state := .waiting, k := 0, waited := 0, pages := [], frozen := 0, ctab := [] }
theorem witness_AccessTraps :
    let s := on { core trapping [(1, 0x30041), (2, 0x800000000000), (3, 0x18000), (5, 0x30040)] with
      pcc := [{ page with rd := false, wr := false }], mq := [product], spPoison := [0x100] }
    HasHandler s trapping ∧ CanIssue s trapping { srcs := [1], dst := some 4, mem := true } ∧
    CanIssue s trapping { srcs := [1, 2], mem := true, store := true } ∧ CanIssue s trapping { srcs := [3, 2], mem := true } ∧
    (val s trapping 1).toNat % 8 ≠ 0 ∧ (val s trapping 2).toNat % 8 = 0 ∧
    (val s trapping 2).getLsbD 63 ≠ (val s trapping 2).getLsbD 47 ∧ (val s trapping 3).toNat % 8 = 0 ∧
    windowBase (my s) < (val s trapping 3).toNat + 8 ∧ isLent (my s) 63 1 = true ∧ isLent (my s) 0x402 2 = false ∧
    spPoisoned (my s) 0x402 2 = true ∧
    pageEntry (my s) 0 0x30040 = some { page with rd := false, wr := false } :=
  ⟨hasHandler_of (by decide), canIssue_of (by decide), canIssue_of (by decide), canIssue_of (by decide), by decide, by decide, by decide,
   by decide, by decide, by decide, by decide, by decide, by decide⟩
theorem witness_GlobalAtomics :
    let s := on (core trapping [(1, 0x30040), (2, 1), (3, 0x50040)])
    ((0, .pl, .amoAdd) : AmoFn × Machine.Class × (Bool → Reg → Reg → Reg → Instr)) ∈ globalAtomics ∧ CanIssue s trapping (amoUse 0 false 4 1 2) ∧
    Reaches s trapping (val s trapping 1) 8 true true page ∧ page.trail = none ∧ CanIssue s trapping (amoUse 0 false 4 3 2) ∧
    Reaches s trapping (val s trapping 3) 8 true true marks ∧ marks.trail ≠ none ∧ HasHandler s trapping :=
  ⟨by simp [globalAtomics], canIssue_of (by decide), reaches_of (by decide), by decide, canIssue_of (by decide), reaches_of (by decide), by decide,
   hasHandler_of (by decide)⟩
theorem witness_ScratchpadAtomics :
    let s := on (core ctx [(1, 0x17FF8), (2, 1)])
    ((7, .amosCas) : AmoFn × (Bool → Reg → Reg → Reg → Instr)) ∈ scratchAtomics ∧ CanIssue s ctx (amoUse 7 true 4 1 2) ∧
    (val s ctx 1).toNat % amoSize 7 = 0 ∧ (val s ctx 1).toNat + amoSize 7 ≤ windowBase (my s) ∧ isLent (my s) 0x17FF8 8 = false :=
  ⟨by simp [scratchAtomics], canIssue_of (by decide), by decide, by decide, by decide⟩
theorem comes_of {s : State} {c : Ctx} {u : Use} (h : curCtx s = some c ∧ s.cur.probe = false ∧ c.portTrap = none ∧ u.top < c.size ∧
    ∀ r ∈ u.regs, portOf (my s) c r = none ∧ r.toNat < c.size) : Comes s c u :=
  ⟨h.1, h.2.1, h.2.2.1, fun r hr => (h.2.2.2.2 r hr).1, fun r hr => (h.2.2.2.2 r hr).2, h.2.2.2.1⟩
theorem witness_Fences : CanIssue (on (core ctx [])) ctx { srcs := [] } := canIssue_of (by decide)
/-- A context behind a fence of the domain, a load that it parks, and stores of its core before the fence. -/
theorem witness_Fences_bound :
    let f : Duty := .fence 3 5 0x10000
    let c : Ctx := { ctx with duties := [f] }
    let s := on (core c [])
    let out : Req := { id := 2, ctx := 0, vmid := 0, op := .store 7, va := 0x30040, size := 8, loc := .hbm 0x40040, page := page, rd := 0 }
    f ∈ c.duties ∧ Comes s c { srcs := [1], dst := some 2, mem := true } ∧
    (({ srcs := [1], dst := some 2, mem := true }, .ld 0 3 2 1) : Use × Instr) ∈ memoryWords false false 2 1 3 0 3 0 0 ∧
    getCtx s s.arg.id = some c ∧ c.status = .ready ∧ fenceMet s s.arg.id 3 5 = true ∧ s.dropped = [] ∧
    fenceMet { s with reqs := [out] } s.arg.id 3 5 = false ∧ fenceMet { s with reqs := [out] } s.arg.id 0 5 = true ∧
    fenceMet { s with reqs := [out] } s.arg.id 2 5 = false ∧ fenceMet { s with reqs := [{ out with loc := .remote 3 64 }] } s.arg.id 2 5 = true :=
  ⟨by decide, comes_of (by decide), .head _, by decide, by decide, by decide, by decide, by decide, by decide, by decide, by decide⟩
/-- A package whose tenant 0 has field 3 enabled. -/
def fielded (xs : List (Nat × Word)) : State :=
  { on (core trapping xs) with tenants := [(0, { Tenant.hypervisor with fields := [(3, { en := true, num := 4, base := 0x50000, pages := 1 })] })] }
theorem witness_Deposits :
    let s := fielded [(1, 0x50040), (2, 1), (3, 0x30040)]
    CanIssue s trapping { srcs := [1, 2], mem := true } ∧ Reaches s trapping (val s trapping 1) 4 true true marks ∧
    markPage s trapping marks (val s trapping 1) = true ∧ CanIssue s trapping { srcs := [3, 2], mem := true } ∧
    Reaches s trapping (val s trapping 3) 4 true true page ∧ markPage s trapping page (val s trapping 3) = false ∧ HasHandler s trapping :=
  ⟨canIssue_of (by decide), reaches_of (by decide), by decide, canIssue_of (by decide), reaches_of (by decide), by decide,
   hasHandler_of (by decide)⟩
theorem witness_MarkReads :
    let s := fielded [(1, 0x50040), (2, 1), (3, 0x30040)]
    CanIssue s trapping { srcs := [1], dst := some 4, mem := true } ∧ Reaches s trapping (val s trapping 1) 4 true false marks ∧
    Reaches s trapping (val s trapping 1) 64 true false marks ∧ markPage s trapping marks (val s trapping 1) = true ∧
    CanIssue s trapping { srcs := [1, 2], dst := some 4, mem := true } ∧ Reaches s trapping (val s trapping 3) 64 true false page ∧
    markPage s trapping page (val s trapping 3) = false ∧ HasHandler s trapping :=
  ⟨canIssue_of (by decide), reaches_of (by decide), reaches_of (by decide), by decide, canIssue_of (by decide), reaches_of (by decide), by decide,
   hasHandler_of (by decide)⟩

theorem witness_FloatArithmetic :
    let s := on (core ctx [(1, 0x3FF0000000000000), (2, 0x7FF0000000000000)])
    CanIssue s ctx { srcs := [1], dst := some 4, ports := true } ∧ CanIssue s ctx { srcs := [1, 2], dst := some 4, ports := true } ∧
    CanIssue s ctx { srcs := [1, 2, 4], dst := some 4, ports := true } :=
  ⟨canIssue_of (by decide), canIssue_of (by decide), canIssue_of (by decide)⟩
theorem witness_FloatComparison :
    let s := on (core ctx [(1, 0x80000000), (2, 0x7FC00000)])
    CanIssue s ctx { srcs := [1], dst := some 4, ports := true } ∧ CanIssue s ctx { srcs := [1, 2], dst := some 4, ports := true } :=
  ⟨canIssue_of (by decide), canIssue_of (by decide)⟩
theorem witness_FloatConversion : CanIssue (on (core ctx [(1, 0x8000000000000000)])) ctx { srcs := [1], dst := some 4, w := true, ports := true } :=
  canIssue_of (by decide)
theorem witness_RoundingExact :
    unpack fp32 0x3F800000 = .fin false 0x800000 (-23) ∧ unpack bf16 1 = .fin false 1 (-133) ∧ (1 : Nat) < 2 ^ (bf16.ew + bf16.fw + 1) ∧
    unpack fp16 0xFBFF = .fin true 0x7FF 5 ∧ unpack fp64 0x0010000000000000 = .fin false 0x10000000000000 (-1074) := by decide
theorem witness_SpecialFunctions :
    let s := on (core ctx [(1, 0x3F800000)])
    CanIssue s ctx { srcs := [1], dst := some 4 } ∧ (my (on { core ctx [] with sfuUsed := 7 })).sfuUsed < 8 ∧
    8 ≤ (my (on { core ctx [] with sfuUsed := 8 })).sfuUsed :=
  ⟨canIssue_of (by decide), by decide, by decide⟩
theorem witness_VectorWords :
    let s := on (core trapping [(1, 0x1000), (2, 0x2000), (4, 0x3000), (3, 0x3002)])
    CanIssue s trapping { srcs := [1, 2, 4], mem := true } ∧ CanIssue s trapping { srcs := [1, 4], mem := true } ∧ trapping.vlen ≠ 0 ∧
    vVerdict 0x40 0 0x3000 0x1000 0x2000 s (my s) trapping = .go ∧ vVerdict 0x44 4 0x3000 0x1000 0 s (my s) trapping = .go ∧
    vVerdict 0x40 0 0x3002 0x1000 0x2000 s (my s) trapping = .trap .misalign 0x3002 ∧ HasHandler s trapping ∧
    CanIssue (on (core { ctx with vlen := 0 } [])) { ctx with vlen := 0 } { srcs := [1, 2, 4], mem := true } :=
  ⟨canIssue_of (by decide), canIssue_of (by decide), by decide, by decide, by decide, by decide, hasHandler_of (by decide), canIssue_of (by decide)⟩
/-- The page of the window of core 0, which has one of 16 KiB. -/
def homed : Page := { page with va := 0x60000, out := .window 0 0x14000, gpa := 0, home := .core }
def windowed (c : Ctx) (xs : List (Nat × Word)) : State :=
  on { core c xs with pcc := [homed, page], winSet := 16384, win := 16384 }
theorem witness_OwingWords :
    let s := windowed ctx [(1, 0x60000), (2, 1), (3, 3)]
    let f := fielded [(1, 3)]
    CanIssue s ctx { srcs := 1 :: fiveFrom 8, dst := some 4, top := 12 } ∧ placeVerdict 0x60000 s (my s) ctx = .go ∧
    CanIssue s ctx { srcs := [1, 1, 2, 3, 4, 5, 6, 7] } ∧ anyBound ctx.smap = false ∧ noMatrix s (me s) = true ∧
    grantOf s 0 (placeCore 0x60000 s) ≠ 0 ∧ CanIssue s ctx { srcs := [3], dst := some 4 } ∧ (val s ctx 3).toNat / 2 ^ 12 = 0 ∧
    CanIssue s ctx { srcs := [3] } ∧ (val s ctx 3).toNat / 2 ^ 10 = 0 ∧ CanIssue f trapping { srcs := [1] } ∧
    (getField f 0 ((val f trapping 1).toNat % 64)).open_ = true ∧ (getField f 0 ((val f trapping 1).toNat % 64)).src = false :=
  ⟨canIssue_of (by decide), by decide, canIssue_of (by decide), by decide, by decide, by decide, canIssue_of (by decide), by decide,
   canIssue_of (by decide), by decide, canIssue_of (by decide), by decide, by decide⟩
/-- A context held by what it owes. -/
def owing (o : Owed) (upto : Nat) : Ctx := { ctx with status := .held (.owe o upto) }
def store (id : Nat) : SbEntry := { entry id with ctx := 0 }
theorem witness_OwedCarriedOut :
    let s := fun (o : Owed) => on (core (owing o 5) [])
    getCtx (s (.tsig 3)) 0 = some (owing (.tsig 3) 5) ∧ owedMet (s (.tsig 3)) 0 (.tsig 3) 5 = true ∧
    owedMet (on { core (owing (.tsig 3) 5) [] with sbuf := [store 1] }) 0 (.tsig 3) 5 = false ∧
    owedMet (s (.spawn 4 0 0x60000 [])) 0 (.spawn 4 0 0x60000 []) 5 = true ∧ owedMet (s (.go 0 0x60000 [])) 0 (.go 0 0x60000 []) 5 = true ∧
    owedMet (s (.bar 4 1)) 0 (.bar 4 1) 5 = true ∧ (owing (.bar 4 1) 5).benched = false ∧
    ({ owing (.bar 4 1) 5 with benchHot := true } : Ctx).benched = true ∧ (getGroup (s (.bar 4 1)) 0 1).members = 0 ∧
    owedMet (s (.tick 3)) 0 (.tick 3) 5 = true ∧ (getField (fielded []) 0 3).open_ = true ∧ (getField (fielded []) 0 3).src = false := by
  decide
def grouped (n : BitVec 32) (c : Ctx) (xs : List (Nat × Word)) : State :=
  { on (core c xs) with tenants := [(0, { Tenant.hypervisor with groups := [(1, { members := n })] })] }
theorem witness_Join :
    let s := grouped 3 ctx [(1, 1), (2, 0x8000000000000001)]
    CanIssue s ctx { srcs := [1], dst := some 4 } ∧ (val s ctx 1).toNat / 2 ^ 12 % 2 ^ 51 = 0 ∧ ctx.grp = none ∧
    (val s ctx 2).getLsbD 63 = true ∧ (val s ctx 2).toNat / 2 ^ 12 % 2 ^ 51 = 0 ∧ (val s ctx 1).getLsbD 63 = false ∧
    (getGroup s 0 1).members ≠ allOnes 32 ∧ (getGroup (grouped (allOnes 32) ctx []) 0 1).members = allOnes 32 ∧
    CanIssue (grouped 3 { ctx with grp := some 1 } []) { ctx with grp := some 1 } { srcs := [1], dst := some 4 } :=
  ⟨canIssue_of (by decide), by decide, by decide, by decide, by decide, by decide, by decide, by decide, canIssue_of (by decide)⟩
theorem witness_Leave :
    let s := grouped 3 ctx [(1, 1), (2, 0xFFF)]
    CanIssue s ctx { srcs := [1], dst := some 4 } ∧ (val s ctx 1).toNat / 2 ^ 12 = 0 ∧ (val s ctx 2).toNat / 2 ^ 12 = 0 ∧
    (getGroup s 0 ((val s ctx 1).toNat % 2 ^ 12)).members ≠ 0 ∧ (getGroup s 0 ((val s ctx 2).toNat % 2 ^ 12)).members = 0 :=
  ⟨canIssue_of (by decide), by decide, by decide, by decide, by decide⟩
theorem witness_HandleTraps :
    let s := on (core trapping [(1, 0x1000), (2, 0x400)])
    HasHandler s trapping ∧ CanIssue s trapping { srcs := [1], dst := some 4 } ∧ (val s trapping 1).toNat / 2 ^ 12 % 2 ^ 51 ≠ 0 ∧
    (val s trapping 1).toNat / 2 ^ 12 ≠ 0 ∧ CanIssue s trapping { srcs := [2] } ∧ (val s trapping 2).toNat / 2 ^ 10 ≠ 0 :=
  ⟨hasHandler_of (by decide), canIssue_of (by decide), by decide, by decide, canIssue_of (by decide), by decide⟩
theorem witness_Park :
    let s := on (core trapping [(1, 0x30040), (2, 7), (3, 0x50040)])
    let k := { my s with sbuf := [{ entry 1 with va := 0x30040, loc := .hbm 0x40040, size := 8 }] }
    CanIssue s trapping { srcs := [1, 2], mem := true } ∧ Reaches s trapping (val s trapping 1) 8 true false page ∧ page.trail = none ∧
    loadSource (my s) trapping page 0x30040 8 false = .request ∧ pendingAccess (on k) (me (on k)) = false ∧
    loadSource k trapping page 0x30040 8 false = .value 7 ∧ val (on k) trapping 2 = 7 ∧ val (on k) trapping 4 ≠ 7 ∧
    CanIssue (on k) trapping { srcs := [1, 2], mem := true } ∧ Reaches s trapping (val s trapping 3) 8 true false marks ∧ marks.trail ≠ none ∧
    HasHandler s trapping :=
  ⟨canIssue_of (by decide), reaches_of (by decide), by decide, by decide, by decide, by decide, by decide, by decide, canIssue_of (by decide),
   reaches_of (by decide), by decide, hasHandler_of (by decide)⟩
theorem witness_Quit :
    CanIssue (on (core ctx [])) ctx { srcs := [] } ∧ mayEnd (on (core ctx [])) 0 1 = true ∧
    mayEnd (on { core ctx [] with mq := [product] }) 0 1 = false :=
  ⟨canIssue_of (by decide), by decide, by decide⟩
/-- A copy of 32 bytes from global memory to the scratchpad. -/
def copying : Chan :=
  { id := 9, ctx := some 0, tslot := 0, kind := .copy, srcSp := false, dstSp := true, src := 0x30000, dst := 0, len := 32, done := 16,
    group := none, srcPages := [page], dstPages := [] }
theorem witness_YieldAndWaits :
    let s := on (core ctx [])
    CanIssue s ctx { srcs := [] } ∧ CanIssue s ctx { srcs := [], mem := true } ∧ CanIssue s ctx { srcs := [1, 2], mem := true } ∧
    copiesDone (my s) 0 = true ∧ copiesDone { my s with chans := [(0, copying)] } 0 = false ∧ cwaitDone (my s) 0 0 = true ∧
    cwaitDone { my s with chans := [(0, copying)] } 0 32 = false :=
  ⟨canIssue_of (by decide), canIssue_of (by decide), canIssue_of (by decide), by decide, by decide, by decide, by decide⟩
theorem witness_StreamBindings :
    let s := on { core trapping [(1, 0x30040)] with pcc := [{ page with home := .cached }] }
    CanIssue s trapping { srcs := [1], dst := some 4 } ∧ bindVerdict 4 (val s trapping 1) s (my s) trapping = .go ∧
    CanIssue s trapping { srcs := [] } ∧ (15 : Reg).toNat < trapping.size ∧ trapping.size ≤ (16 : Reg).toNat ∧ HasHandler s trapping :=
  ⟨canIssue_of (by decide), by decide, canIssue_of (by decide), by decide, by decide, hasHandler_of (by decide)⟩
theorem witness_CodeTable :
    let s := on (core trapping [(1, 0x17FF0), (2, 0x18000), (3, 0x17FF1)])
    CanIssue s trapping { srcs := [1], mem := true } ∧ (val s trapping 1).toNat % 16 = 0 ∧
    (val s trapping 1).toNat + 16 ≤ windowBase (my s) ∧ (val s trapping 2).toNat % 16 = 0 ∧ windowBase (my s) < (val s trapping 2).toNat + 16 ∧
    (val s trapping 3).toNat % 16 ≠ 0 ∧ HasHandler s trapping :=
  ⟨canIssue_of (by decide), by decide, by decide, by decide, by decide, by decide, hasHandler_of (by decide)⟩
/-- A segment of the one core 0. -/
def seg : Seg := { tslot := 0, vmid := 0, node := none, die := 0, row := 0, index := 0, size := 1, span := 1, allot := 16, pc := 0x10000, cores := [(0, 0, 0)] }
def streaming (l : Lane) : State := { on (core { ctx with stream := true } []) with segs := [(0, seg)], cur := { issue with lane := l } }
theorem witness_SequencerWords : (streaming (.sequencer 0)).cur.lane = .sequencer 0 ∧ getSeg (streaming (.sequencer 0)) 0 = some seg := by decide

theorem witness_RowPredicates :
    let s := streaming (.stream 0 0 0 0)
    let r := on (core trapping [])
    CanIssue s { ctx with stream := true } { srcs := [1] } ∧ s.cur.lane = .stream 0 0 0 0 ∧ getSeg s 0 = some seg ∧ HasHandler r trapping ∧
    CanIssue r trapping { srcs := [1] } :=
  ⟨canIssue_of (by decide), rfl, rfl, hasHandler_of (by decide), canIssue_of (by decide)⟩
theorem witness_ControlRegisters :
    let s := on (core ctx [(1, 5)])
    csrValue s (me s) ctx 0x010 = some 0 ∧ csrVerdict .none 0x010 0 s ctx = .go ∧ csrVerdict .all 0x010 5 s ctx = .go ∧
    csrVerdict .set 0x011 (val s ctx 1 &&& 3) s ctx = .go ∧ csrVerdict .clear 0x012 5 s ctx = .go ∧
    CanIssue s ctx { srcs := [], dst := some 4 } ∧ CanIssue s ctx { srcs := [1], dst := some 4 } :=
  ⟨by decide, by decide, by decide, by decide, by decide, canIssue_of (by decide), canIssue_of (by decide)⟩
theorem witness_ControlRegisterTraps :
    let s := on (core trapping [(1, 5)])
    HasHandler s trapping ∧ csrValue s (me s) trapping 0x7FF = none ∧ CanIssue s trapping { srcs := [], dst := some 4 } ∧
    CanIssue s trapping { srcs := [1], dst := some 4 } ∧ csrReserved 0x100 = none ∧ val s trapping 1 ≠ 0 :=
  ⟨hasHandler_of (by decide), by decide, canIssue_of (by decide), canIssue_of (by decide), by decide, by decide⟩
theorem witness_TrapWords : CanIssue (on (core trapping [])) trapping { srcs := [] } ∧ HasHandler (on (core trapping [])) trapping :=
  ⟨canIssue_of (by decide), hasHandler_of (by decide)⟩
theorem witness_Invalidations :
    let s := on (core ctx [])
    let c : Ctx := { trapping with tslot := 1 }
    CanIssue s ctx { srcs := [1] } ∧ CanIssue s ctx { srcs := [] } ∧ CanIssue s ctx { srcs := [1, 2] } ∧ ctx.tslot = 0 ∧ c.tslot ≠ 0 ∧
    HasHandler (on (core c [])) c ∧ CanIssue (on (core c [])) c { srcs := [1, 2] } :=
  ⟨canIssue_of (by decide), canIssue_of (by decide), canIssue_of (by decide), by decide, by decide, hasHandler_of (by decide),
   canIssue_of (by decide)⟩

/-- Tables by which tenant 0 maps the first GiB of its addresses to the same physical addresses, and the header of a handler at 0x20040. -/
def tables : Memory :=
  memPut (memPut (memPut (memPut (memPut [] 0x8000 (leBytes 8 0x9001)) 0x9000 (leBytes 8 3)) 0xA000 (leBytes 8 0xB001))
    0xB000 (leBytes 8 0x0030000000000003)) 0x20000 (leBytes 8 0x000200014B4E4B41)
def lower : Page := { page with va := 0, size := 2 ^ 30, out := .hbm 0, gpa := 0 }
def owner : Tenant := { Tenant.hypervisor with slices := 0, s2root := 8, faults := { stroot := 0xA000 } }
def mapped (k : Core) : State := { on k with tenants := [(0, owner)], mem := tables }
def step1 : StepRec :=
  { id := 7, deadline := 1000, work := 10, handler := 0x20040, ctx := 0, tslot := 0, vmid := 0, dclass := 0, t0 := 0, p := 0, tl := 0,
    drisk := false }
theorem witness_StepWords :
    let s := mapped (core ctx [(1, 0x000700000000000A), (2, 0x20040), (3, 500), (5, 9)])
    let u := mapped { core ctx [(1, 10), (5, 9)] with step := some step1 }
    CanIssue s ctx { srcs := [3, 1, 2] } ∧ handlerVerdict (val s ctx 2) s ctx = .go ∧ s.time.toNat ≤ (val s ctx 3).toNat ∧
    (∀ l, stage1 s (getTenant s 0) (val s ctx 2 - 64) = .ok l → l.entry.getLsbD 54 = false) ∧ CanIssue s ctx { srcs := [1] } ∧
    (my s).step = none ∧ CanIssue u ctx { srcs := [1] } ∧ (my u).step = some step1 ∧ step1.work.toNat ≤ (val u ctx 1).toNat ∧
    (val u ctx 5).toNat < step1.work.toNat ∧ val u ctx 5 ≠ 0 ∧ u.time.toNat ≤ step1.deadline.toNat ∧ (getTenant s ctx.tslot).rate = 0 ∧
    (getTenant s ctx.tslot).counters = [] := by
  refine ⟨canIssue_of (by decide), by decide, by decide, ?_, canIssue_of (by decide), rfl, canIssue_of (by decide), rfl, by decide, by decide,
    by decide, by decide, rfl, rfl⟩
  intro l h
  rw [show stage1 _ _ _ = .ok { entry := 0x0030000000000003, size := 2 ^ 30, at_ := 0xB000, seen := [0xA000, 0xB000] } from rfl] at h
  cases h; rfl
theorem witness_MatrixProducts :
    let s := on (core trapping [(1, 0x17F00), (2, 0x40)])
    let c : Ctx := { trapping with mfmt := 0x04 }
    ProductOk s trapping true 8 0 0x40 ∧ CanIssue s trapping { srcs := [1, 2], mem := true } ∧ CanIssue s trapping { srcs := [1], mem := true } ∧
    mRoom { core ctx [] with mq := List.replicate 8 { product with ctx := 70 } } 0 = false ∧ mRoom { core ctx [] with mq := [product, product] } 0 = false ∧
    mRoom (my s) 0 = true ∧ fmtOk c.mfmt 8 = false ∧ HasHandler (on (core c [])) c ∧ CanIssue (on (core c [])) c { srcs := [1, 2], mem := true } := by
  refine ⟨⟨by decide, by decide, by decide, by decide⟩, canIssue_of (by decide), canIssue_of (by decide), by decide, by decide, by decide, by decide,
    hasHandler_of (by decide), canIssue_of (by decide)⟩
theorem moveOk_of {s : State} {c : Ctx} {wr : Bool} {a b : Word}
    (h : mRoom (my s) (me s) = true ∧ a.toNat % 64 = 0 ∧ b.toNat % 64 = 0 ∧ (∀ i, i < 32 → canonical (a + BitVec.ofNat 64 i * b) = true) ∧
      ∀ j, j < 64 → pageEntry (my s) c.vmid (bankLine a b j) = some page) : MoveOk s c wr a b :=
  ⟨h.1, h.2.1, h.2.2.1, h.2.2.2.1, fun j hj => ⟨page, h.2.2.2.2 j hj, by cases wr <;> rfl⟩⟩
set_option maxRecDepth 8000 in
theorem witness_AccumulatorMoves :
    let s := on (core trapping [(1, 0x30000), (2, 128)])
    CanIssue s trapping { srcs := [1, 2], mem := true } ∧ MoveOk s trapping true 0x30000 128 ∧ MoveOk s trapping false 0x30000 128 ∧
    writerOpen s (my s).last0 = false ∧ writerOpen s (some { ctx := 0, batch := 1 }) = true ∧ HasHandler s trapping :=
  ⟨canIssue_of (by decide), moveOk_of (by decide), moveOk_of (by decide), by decide, by decide, hasHandler_of (by decide)⟩
theorem witness_Batches :
    let s := on (core trapping [(1, 1), (2, 2)])
    let c : Ctx := { trapping with committed := 1, completed := 1 }
    let d : Ctx := { trapping with committed := 1 }
    CanIssue s trapping { srcs := [], dst := some 4, mem := true } ∧ trapping.status = .ready ∧ CanIssue s trapping { srcs := [1], mem := true } ∧
    ((0 : BitVec 32) = 0 ∧ batchDone trapping 0 = true) ∧ (batchDist c.committed 1 < 2 ^ 31 ∧ c.committed ≠ 0 ∧ batchDone c 1 = true) ∧
    (batchDist d.committed 1 < 2 ^ 31 ∧ batchDone d 1 = false) ∧ ¬ ((2 : BitVec 32) = 0 ∨ (d.committed ≠ 0 ∧ batchDist d.committed 2 < 2 ^ 31)) ∧
    HasHandler s trapping :=
  ⟨canIssue_of (by decide), rfl, canIssue_of (by decide), by decide, by decide, by decide, by decide, hasHandler_of (by decide)⟩
theorem rangeOk_sp {s : State} {c : Ctx} {wr : Bool} {a : Word} {n : Nat} (h : a.toNat % 16 = 0 ∧ a.toNat + n ≤ windowBase (my s)) :
    RangeOk s c true wr a n := ⟨h.1, fun _ => h.2, by simp, by simp⟩
theorem rangeOk_page {s : State} {c : Ctx} {wr : Bool} {a : Word} {n : Nat}
    (h : a.toNat % 16 = 0 ∧ notCanonical a n = none ∧ rangePieces a n = [a] ∧ pageEntry (my s) c.vmid a = some page) : RangeOk s c false wr a n :=
  ⟨h.1, by simp, fun _ => h.2.1, fun _ x hx => ⟨page, by rw [h.2.2.1] at hx; simpa [List.mem_singleton.mp hx] using h.2.2.2, by cases wr <;> rfl⟩⟩
theorem witness_Copies :
    let s := on (core ctx [(1, 0x30000), (2, 0x0001000000030010), (3, 0x30010)])
    CanIssue s ctx { srcs := [1, 2], mem := true } ∧ 16 * ((val s ctx 2).toNat / 2 ^ 48) ≠ 0 ∧ 16 * ((val s ctx 3).toNat / 2 ^ 48) = 0 ∧
    CopyOk s ctx false false 2 0x30000 0x30010 16 ∧ CopyOk s ctx false true 2 0x30000 0x17FF0 16 ∧ CopyOk s ctx true true 3 0 0x10 16 ∧
    (amGet (my (on { core ctx [] with chans := [(2, copying)] })).chans 2).isSome = true := by
  refine ⟨canIssue_of (by decide), by decide, by decide, ⟨by decide, rangeOk_page (by decide), rangeOk_page (by decide), by decide⟩,
    ⟨by decide, rangeOk_page (by decide), rangeOk_sp (by decide), by decide⟩, ⟨by decide, rangeOk_sp (by decide), rangeOk_sp (by decide), by decide⟩,
    by decide⟩
/-- A descriptor at 0x40000 for one tile of 64 bytes from 0x30100 to 0x30200, with a ring of one slot at 0x1000. -/
def descBytes : List Byte :=
  leBytes 8 0x30100 ++ leBytes 8 64 ++ leBytes 8 0x30200 ++ leBytes 8 64 ++ leBytes 8 0x0000000100010000 ++ leBytes 8 0x1000
def described : State := { on (core trapping [(1, 0x30000), (2, 1), (3, 2)]) with mem := memPut [] 0x40000 descBytes }
def subscribed : Chan :=
  { id := 9, ctx := some 0, tslot := 0, kind := .sub true, srcSp := false, dstSp := true, src := 0x30100, dst := 0x30200, len := 0, done := 0,
    group := none, srcPages := [page], dstPages := [page], desc := 0x30000, sstride := 64, dstride := 64, count := 2, slotb := 64, slots := 1,
    ring := 0x1000, landed := 1, retired := 0, pulled := 0 }
/-- The descriptor that stands at 0x40000 of `described`. -/
def tileDesc : SubDesc := { w := [0x30100, 64, 0x30200, 64, 0x0000000100010000, 0x1000, 0, 0] }
theorem subDesc_described : subDesc described page 0x30000 = tileDesc := by decide +kernel
theorem subDesc_empty : subDesc { described with mem := [] } page 0x30000 = { w := [0, 0, 0, 0, 0, 0, 0, 0] } := by decide +kernel
theorem tileDesc_tiles : tiles tileDesc.sbase tileDesc.sstride tileDesc.count = [0x30100] ∧ tiles tileDesc.dbase tileDesc.dstride tileDesc.count = [0x30200] ∧
    tileDesc.slotb = 64 ∧ tileDesc.sbase = 0x30100 ∧ rangePieces 0x30100 64 = [0x30100] ∧ rangePieces 0x30200 64 = [0x30200] ∧
    notCanonical 0x30100 64 = none ∧ notCanonical 0x30200 64 = none := by decide +kernel
theorem subOk_described (pull : Bool) : SubOk described trapping pull 0 0x30000 page := by
  obtain ⟨e1, e2, e3, e4, e5, e6, e7, e8⟩ := tileDesc_tiles
  have hp : pageEntry (my described) trapping.vmid 0x30100 = some page ∧ pageEntry (my described) trapping.vmid 0x30200 = some page := by decide +kernel
  refine ⟨rfl, reaches_of (by decide), by decide +kernel, ?_, ?_, ?_, ?_, ?_⟩ <;> rw [subDesc_described]
  · cases pull <;> decide +kernel
  · rw [e1, e2, e3]; intro a ha
    have : a = 0x30100 ∨ a = 0x30200 := by
      rcases List.mem_append.1 ha with h | h
      · exact .inl (List.mem_singleton.1 h)
      · cases pull
        · cases h
        · exact .inr (List.mem_singleton.1 h)
    rcases this with rfl | rfl
    · exact e7
    · exact e8
  · rw [e1, e3]; simp only [List.mem_singleton, forall_eq, e5]; exact ⟨page, hp.1, rfl⟩
  · rw [e2, e3]; simp only [List.mem_singleton, forall_eq, e6]; exact fun _ => ⟨page, hp.2, rfl⟩
  · rw [e4]; intro q hq; rw [hp.1] at hq; cases hq; decide +kernel
theorem witness_Subscriptions :
    let u := on { core trapping [(2, 1), (3, 2)] with chans := [(0, subscribed)] }
    let e : State := { described with mem := [] }
    CanIssue described trapping { srcs := [1], mem := true } ∧ val described trapping 1 = 0x30000 ∧ SubOk described trapping false 0 0x30000 page ∧
    SubOk described trapping true 0 0x30000 page ∧ (amGet (my u).chans 0).isSome = true ∧
    (subDesc e page 0x30000).ok (my e) false = false ∧ engineReady e 0 page (homePlace e page 0x30000 false) 64 0 (copyEngine 0) 0 = true ∧
    Reaches e trapping 0x30000 64 true false page ∧ HasHandler e trapping ∧ CanIssue u trapping { srcs := [2], mem := true } ∧
    amGet (my u).chans 0 = some subscribed ∧ subscribed.retired + (val u trapping 2).toNat ≤ subscribed.landed ∧
    subscribed.landed < subscribed.retired + (val u trapping 3).toNat ∧ HasHandler u trapping ∧ amGet (my u).chans 1 = none :=
  ⟨canIssue_of (by decide), by decide, subOk_described false, subOk_described true, by decide, by rw [subDesc_empty]; decide +kernel,
   by decide +kernel, reaches_of (by decide), hasHandler_of (by decide), canIssue_of (by decide), by decide, by decide, by decide,
   hasHandler_of (by decide), by decide⟩
theorem witness_RoundTrip : (Instr.add false 0 0 1).wellFormed = true ∧ encode (.add false 0 0 1) = some 0x00200000 ∧
    decode 0x00200000 = some (.add false 0 0 1) := ⟨rfl, rfl, rfl⟩
theorem fetches_of {s : State} {core : Nat} {c : Ctx} {pc : Word} {w : W32} {a : Nat} {p : Page}
    (h : canonical pc = true ∧ pageEntry (getCore s core) c.vmid pc = some p ∧ p.ex = true ∧ p.loc pc = .hbm a ∧ keyed s p.key a 4 = true ∧
      ∀ i, i < 4 → memGet s.mem (a + i) = w.extractLsb' (8 * i) 8 ∧ memGet (imageOf s c.node) (a + i) = w.extractLsb' (8 * i) 8) :
    Fetches s core c pc w := ⟨h.1, p, a, h.2.1, h.2.2.1, h.2.2.2.1, h.2.2.2.2⟩
/-- A package about to issue the word at 0x10004 of `coded`. -/
def due (w : Nat) : State :=
  { coded (core trapping []) with issuing := [{ issue with pc := 0x10004 }], mem := memPut [] 0x40004 (leBytes 4 w) }
theorem witness_IllegalWords :
    (due 0x0F).fw.inReset = false ∧ (due 0x0F).issuing = [{ issue with pc := 0x10004 }] ∧ getCtx (due 0x0F) (ctxId 0 0) = some trapping ∧
    trapping.pend = [] ∧ trapping.tvec ≠ 0 ∧ trapping.tcause.getLsbD 62 = false ∧ Fetches (due 0x0F) 0 trapping 0x10004 0x0F ∧
    decode 0x0F = none ∧ Fetches (due 0x6F) 0 trapping 0x10004 0x6F ∧ (0x6F : W32).toNat % 128 ≤ 0x6F ∧
    Fetches (due 0x68) 0 trapping 0x10004 0x68 ∧ 0x68 ≤ (0x68 : W32).toNat % 128 :=
  ⟨by decide, by decide, by decide, by decide, by decide, by decide, fetches_of (a := 0x40004) (p := { page with va := 0x10000 }) (by decide), rfl,
   fetches_of (a := 0x40004) (p := { page with va := 0x10000 }) (by decide), by decide,
   fetches_of (a := 0x40004) (p := { page with va := 0x10000 }) (by decide), by decide⟩
theorem witness_StepRunsWord :
    let s := due 0x00608080
    let i : Issue := { lane := .stream 0 0 0 0, probe := false, word := some 0x00608080, pc := 0x10004, rep := none }
    s.fw.inReset = false ∧ s.frozen = false ∧ s.issuing = [{ issue with pc := 0x10004 }] ∧ getCtx s (ctxId 0 0) = some trapping ∧
    trapping.pend = [] ∧ Fetches s 0 trapping 0x10004 0x00608080 ∧ decode 0x00608080 = some (.add false 1 2 3) ∧
    ¬ (0x68 ≤ (0x00608080 : W32).toNat % 128) ∧ i.lane = .stream 0 0 0 0 ∧ i.word = some 0x00608080 ∧
    ({ i with lane := .sequencer 0 } : Issue).lane = .sequencer 0 ∧ State.reset.issuing = [] ∧ State.reset.agenda = [] ∧
    encode .barrelCycle = none :=
  ⟨by decide, by decide, by decide, by decide, by decide, fetches_of (a := 0x40004) (p := { page with va := 0x10000 }) (by decide), rfl, by decide,
   by decide, by decide, by decide, by decide, by decide, rfl⟩


/-! ## Statements about events: states that meet their hypotheses -/

set_option Elab.async false

def request : SfuReq := { id := 3, ctx := 0, rd := 4, fn := 0, x := 0, accepted := false }
def vector : VCmd := { ctx := 0, op := 0x3E, f3 := 0, rd := 1, ra := 2, rb := 3, d := 0, a := 0, b := 0, len := 64, frm := 0, step := 0, flags := 0, e0 := 0, e1 := 0 }
def within : Chan := { copying with srcSp := true, src := 0x100, dst := 0x200, len := 32, done := 16, srcPages := [] }
theorem witness_EngineEvents_sfu :
    let s := { on (core ctx []) with octets := [(0, { last := 7, reqs := [request] })] }
    let o : Octet := amGetD {} s.octets 0
    coreStopped s (8 * 0) = false ∧
    o.reqs.find? (fun x => !x.accepted && coreOf x.ctx % 8 == (o.last + 1 + 0) % 8) = some request ∧
    (∀ x ∈ (amGetD {} State.reset.octets 0 : Octet).reqs, x.accepted = true) := by decide +kernel
theorem witness_EngineEvents_latch :
    let r : LatchRow := { bytes := [], scale := none }
    let k := { core ctx [] with inbound := [r] }
    (getCore (on k) 0).inbound = r :: [] ∧ (getCore (on k) 0).latch.length < 128 ∧
    128 ≤ (getCore (on { k with latch := List.replicate 128 r }) 0).latch.length ∧ (getCore State.reset 0).inbound = [] := by decide +kernel
theorem witness_EngineEvents_schedule :
    let m := { product with ctx := 0 }
    let r := { product with id := 8, ctx := 1, state := .running, frozen := 0 }
    let one := on { core ctx [] with mq := [m] }
    let two := on { core ctx [] with mq := [r, { m with prio := 3, bank := true }] }
    coreStopped one 0 = false ∧ one.arg.pairs = [] ∧ mBest (mCandidates State.reset (getCore State.reset 0)) = none ∧
    mBest (mCandidates one (getCore one 0)) = some m ∧ (∀ x ∈ (getCore one 0).mq, x.state ≠ .running) ∧
    mBest (mCandidates two (getCore two 0)) = some { m with prio := 3, bank := true } ∧
    (getCore two 0).mq.find? (fun x => x.state == .running) = some r ∧ r.kind = .mma ∧ r.got = [] ∧ (∀ x ∈ (getCore two 0).mq, x.state ≠ .suspended) ∧
    r.frozen < ({ m with prio := 3, bank := true } : MCmd).eff ∧ ¬ ({ r with frozen := 3 } : MCmd).frozen < ({ m with prio := 3, bank := true } : MCmd).eff ∧
    m.state = .waiting ∧ m.after = [] ∧ purseEmpty one (((getCtx one m.ctx).map (·.tslot)).getD 0) = false := by decide +kernel
theorem witness_EngineEvents_products :
    let m := { product with sd := true, depth := 8, state := .running }
    let s := on { core ctx [] with mq := [m] }
    let d := { product with state := .draining }
    let u := on { core ctx [] with mq := [d] }
    (getCore s 0).mq.find? (fun x => x.state == .running && (x.kind == .mma || x.kind == .rot)) = some m ∧ m.kind = .mma ∧ m.sd = true ∧ m.k % 8 = 0 ∧
    (getCore s 0).spPoison = [] ∧ isBD (fmtB m.mfmt) = false ∧
    (getCore u 0).mq.find? (fun x => x.id == 9) = some d ∧ d.state = .draining ∧ coreOf d.ctx = 0 ∧ getCtx u d.ctx = some ctx ∧
    (∀ x ∈ (getCore u 0).mq, x.ctx = d.ctx → x.id = d.id) ∧ (getCore u 0).sending = none ∧
    (∀ r ∈ (getCore u (eastOf u 0)).inbound, r.cmd ≠ d.id) ∧ ({ d with kind := .rot } : MCmd).kind = .rot ∧ ({ m with kind := .rot } : MCmd).state ≠ .draining := by
  decide +kernel
/-- A store of a bank's lines to 0x30000, at its first line, with its claim performed; and a load of them. -/
def lined (kind : MKind) : MCmd := { product with kind := kind, state := .running, a := 0x30000, b := 128, pages := List.replicate 64 page, depth := 0 }
theorem witness_EngineEvents_lines :
    let m := lined .mstc
    let c : Claim := { cmd := 9, engine := matrixEngine 0, lines := [.hbm 0x1000], performed := true }
    let s := { on { core ctx [] with mq := [m] } with claims := [c], arg := { id := 9 } }
    let l := lined .mldc
    let u := { on { core ctx [] with mq := [l] } with arg := { id := 9 } }
    let p := m.pages.getD m.k (pageIn [] 0 (bankLine m.a m.b m.k))
    (getCore s 0).mq.find? (fun x => x.id == s.arg.id) = some m ∧ m.k < 64 ∧ claimDone s m.id = true ∧ claimDone u l.id = false ∧
    p.loc (bankLine m.a m.b m.k) = .hbm 0x40000 ∧ keyed s p.key 0x40000 64 = true ∧
    mayAccess s (dieOf 0) (.hbm 0x40000) p 64 (some (matrixEngine 0, m.id)) true = true ∧ 64 ≤ ({ m with k := 64 } : MCmd).k ∧
    (getCore u 0).mq.find? (fun x => x.id == u.arg.id) = some l ∧ keyed u p.key 0x40000 64 = true ∧ poisonedAt u (.hbm 0x40000) 64 = false ∧
    engineReady u 0 p (.hbm 0x40000) 64 l.ctx (matrixEngine 0) l.id = true := by decide +kernel
theorem witness_EngineEvents_vector :
    let s := on { core ctx [] with vq := [vector] }
    (getCore State.reset 0).vq = [] ∧ (getCore s 0).vq = vector :: [] ∧ (getCore s 0).spPoison = [] ∧ getCtx s vector.ctx = some ctx ∧
    (vector.step + 1) * vStepLen vector.op vector.f3 < vector.len ∧
    ({ vector with len := 4 } : VCmd).len ≤ (vector.step + 1) * vStepLen vector.op vector.f3 ∧ vector.rd ≠ 0 ∧ vector.ra ≠ 0 ∧ vector.ra ≠ vector.rd ∧
    (vArrays vector.op vector.f3).2.2 ≠ none ∧ vector.rb ≠ 0 ∧ vector.rb ≠ vector.rd ∧ vector.rb ≠ vector.ra := by decide +kernel
def landing : Chan := { copying with src := 0x30000, dst := 0x200, len := 32, done := 16 }
def leaving : Chan := { copying with srcSp := true, dstSp := false, src := 0x100, dst := 0x30000, len := 32, done := 16, srcPages := [], dstPages := [page] }
theorem witness_EngineEvents_copies :
    let s := fun (x : Chan) => on { core ctx [] with chans := [(0, x)] }
    let c : Claim := { cmd := 9, engine := copyEngine 0, lines := [.hbm 0x1000], performed := true }
    let w := { s leaving with claims := [c] }
    (∀ x ∈ (getCore (on (core ctx [])) 0).chans, unitReady (on (core ctx [])) 0 x.2 = false) ∧
    unitReady (s within) 0 within = true ∧ within.group = none ∧ within.done + 16 = within.len ∧ spPoisoned (getCore (s within) 0) within.from_.toNat 16 = false ∧
    unitReady (s landing) 0 landing = true ∧ (landing.srcPage landing.from_).loc landing.from_ = .hbm 0x40010 ∧
    keyed (s landing) (landing.srcPage landing.from_).key 0x40010 16 = true ∧
    (landing.srcPage (landing.from_ &&& ~~~(63 : Word))).loc (landing.from_ &&& ~~~(63 : Word)) = .hbm 0x40000 ∧ poisonedAt (s landing) (.hbm 0x40000) 64 = false ∧
    unitReady w 0 leaving = true ∧ (leaving.dstPage leaving.to_).loc leaving.to_ = .hbm 0x40010 ∧ keyed w (leaving.dstPage leaving.to_).key 0x40010 16 = true ∧
    leaving.badDst ≠ lineMark leaving.to_ ∧ ({ within with done := 32 } : Chan).done = within.len ∧ within.done ≠ within.len := by decide +kernel
def pulling : Chan := { subscribed with landed := 1, retired := 1, pulled := 0, slots := 2, slotb := 64 }
theorem witness_EngineEvents_tiles :
    let s := { on { core ctx [] with chans := [(0, pulling)] } with claims := [{ cmd := 9, engine := copyEngine 0, lines := [.hbm 0x1008, .hbm 0x1009], performed := true }] }
    let a := pulling.src + BitVec.ofNat 64 pulling.landed * pulling.sstride + BitVec.ofNat 64 (64 * 0)
    let b := pulling.dst + BitVec.ofNat 64 pulling.pulled * pulling.dstride + BitVec.ofNat 64 (64 * 0)
    amGet (getCore s 0).chans 0 = some pulling ∧ pulling.slotb / 64 = 1 ∧ tileReady s 0 pulling = true ∧
    (pulling.srcPage a).loc a = .hbm 0x40140 ∧ keyed s (pulling.srcPage a).key 0x40140 64 = true ∧ poisonedAt s (.hbm 0x40140) 64 = false ∧
    pullReady s 0 pulling = true ∧ (pulling.dstPage b).loc b = .hbm 0x40200 ∧ keyed s (pulling.dstPage b).key 0x40200 64 = true ∧
    spPoisoned (getCore s 0) (pulling.slotAt pulling.pulled + 64 * 0) 64 = false ∧
    tileReady s 0 { pulling with landed := 2 } = false ∧ pullReady s 0 { pulling with pulled := 1 } = false := by decide +kernel
/-- Tables with a cached leaf, and a descriptor at 0x40000 of a ring of two elements at 0x50000, `tail` of them pushed; a context is held
for an operation on it. -/
def ringBytes (tail : Nat) : Memory :=
  memPut (memPut (memPut tables 0xB000 (leBytes 8 3)) 0x40000 (leBytes 8 0x1000000000050000)) 0x40080 (leBytes 8 tail)
def operation (push : Bool) : PortOp :=
  { id := 3, ctx := 0, push := push, w := false, desc := 0x30000, v := 5, page := { page with home := .cached }, upto := 0, arrived := some 4 }
def porter (push : Bool) : Ctx := { ctx with status := .held (if push then .push 4 3 else .pop 4 3) }
def ported (o : PortOp) (tail : Nat) : State :=
  { on (core (porter o.push) []) with tenants := [(0, { owner with slices := 0 })], mem := ringBytes tail, ports := [o], arg := { id := 3 } }
/-- The leaf of the tables. -/
def leafOf (h : Home) (trail : Option (BitVec 6)) : Page :=
  { lower with home := h, trail := trail, leafSize := 2 ^ 30, s2Size := 2 ^ 30, tables := [(0xA000, 2 ^ 30), (0xB000, 2 ^ 30)] }
def cachedLeaf : Page := leafOf .cached none
theorem witness_EngineEvents_port_waits :
    let o := operation false
    let s := ported o 0
    let s2 := touch s (dieOf (coreOf o.ctx)) (o.page.loc o.desc) o.page .write 64
    let d := readDesc s2 o.page o.desc
    let f := operation true
    let u := ported { f with arrived := none } 2
    let u1 := ported f 2
    let u2 := touch u1 (dieOf (coreOf f.ctx)) (f.page.loc f.desc) f.page .write 64
    let e := readDesc u2 f.page f.desc
    s.ports = [o] ∧ o.id = s.arg.id ∧ o.answered = false ∧ getCtx s o.ctx = some (porter false) ∧ (porter false).stream = false ∧
    (porter false).benched = false ∧ portReady s o = true ∧ portReady { s with frozen := true, claims := [{ cmd := 1, engine := 5, lines := [.hbm 0x1000], performed := true }] } o = false ∧
    keyed s o.page.key 0x40040 8 = true ∧ d.tail = d.head ∧ o.w = false ∧ ({ o with w := true } : PortOp).w = true ∧ (porter false).status = .held (.pop 4 o.id) ∧
    u.ports = [{ f with arrived := none }] ∧ fenceMet { u with cores := [(0, { core (porter true) [] with sbuf := [store 0] })] } f.ctx 2 1 = false ∧
    portReady u1 f = true ∧ keyed u1 f.page.key 0x40080 8 = true ∧ e.n ≤ (e.tail - e.head).toNat := by decide +kernel
theorem witness_EngineEvents_pop :
    let o := operation false
    let s := ported o 1
    let s2 := touch s (dieOf (coreOf o.ctx)) (o.page.loc o.desc) o.page .write 64
    let d := readDesc s2 o.page o.desc
    portReady s o = true ∧ d.tail ≠ d.head ∧ o.page.loc (o.desc + 0x40) = .hbm 0x40040 ∧ keyed s o.page.key 0x40040 8 = true ∧
    elemOk cachedLeaf = true ∧ cachedLeaf.loc (d.elem d.head) = .hbm 0x50000 ∧ mayAccess s2 (dieOf (coreOf o.ctx)) (.hbm 0x50000) cachedLeaf 8 none false = true ∧
    keyed s cachedLeaf.key 0x50000 8 = true ∧ poisonedAt s (.hbm 0x50000) 8 = false := by decide +kernel
theorem witness_EngineEvents_push :
    let o := operation true
    let s := ported o 1
    let s2 := touch s (dieOf (coreOf o.ctx)) (o.page.loc o.desc) o.page .write 64
    let d := readDesc s2 o.page o.desc
    portReady s o = true ∧ (porter true).status = .held (.push 4 o.id) ∧ (d.tail - d.head).toNat < d.n ∧ o.page.loc (o.desc + 0x80) = .hbm 0x40080 ∧
    cachedLeaf.loc (d.elem d.tail) = .hbm 0x50008 ∧ mayAccess s2 (dieOf (coreOf o.ctx)) (.hbm 0x50008) cachedLeaf 8 none true = true ∧
    keyed s cachedLeaf.key 0x50008 8 = true := by decide +kernel
theorem witness_EngineEvents_elements :
    let two := fun (o : PortOp) => touch (ported o 1) (dieOf (coreOf o.ctx)) (o.page.loc o.desc) o.page .write 64
    elemPage (two (operation false)) (operation false) 0x50000 = (some cachedLeaf, two (operation false)) ∧
    elemPage (two (operation true)) (operation true) 0x50008 = (some cachedLeaf, two (operation true)) := by decide +kernel
def loading (op : ReqOp) : Req := { id := 5, ctx := 0, vmid := 0, op := op, va := 0x30040, size := 8, loc := .hbm 0x40040, page := page, rd := 4, admitted := true }
/-- One request under way, of a package whose tenant 0 keeps no copies in slices. -/
def requested (r : Req) (x : Tenant) : State := { on (core ctx []) with tenants := [(0, x)], mem := tables, reqs := [r], arg := { id := 5 } }
theorem witness_MemoryEvents_drain :
    let s := on { core ctx [] with sbuf := [store 1] }
    let e := { store 1 with rel := some 3, id := 6 }
    let w := { on { core ctx [] with sbuf := [e] } with reqs := [loading (.load 3 false)] }
    (getCore State.reset 0).sbuf = [] ∧ (getCore s 0).sbuf = store 1 :: [] ∧ (store 1).op = .store 7 ∧
    olderPending s (store 1).ctx (store 1).id false (store 1).loc (store 1).size = false ∧ releaseMet s 0 (store 1) = true ∧
    overtakenOver s (dieOf 0) (store 1).loc (store 1).size = false ∧ (getCore w 0).sbuf = e :: [] ∧ e.op = .store 7 ∧ releaseMet w 0 e = false := by decide +kernel
theorem witness_MemoryEvents_requests :
    let s := fun (op : ReqOp) => requested (loading op) owner
    let l := ReqOp.load 3 true
    let u := { requested { loading l with admitted := false } { owner with rate := 1, burst := 64, tokens := [(0, (-5, 0))] } with arg := { id := 5 } }
    let w := { s l with reqs := [loading l, { loading l with id := 4, va := 0x30048, loc := .hbm 0x40048 }], arg := { id := 5 } }
    (s l).reqs.find? (fun x => x.id == (s l).arg.id) = some (loading l) ∧ leavesPackage (s l) (loading l).loc = false ∧
    reqReady (s l) (loading l) = true ∧ keyed (s l) page.key 0x40040 8 = true ∧ poisonedAt (s l) (.hbm 0x40040) 8 = false ∧
    keyed (s l) page.key (0x40040 / 64 * 64) 64 = true ∧ reqReady w (loading l) = true ∧ (w.reqs.any fun x => x.id == 4 && isPlainLoad x.op) = true ∧
    reqReady (s (.store 7)) (loading (.store 7)) = true ∧ reqReady (s (.amo 0 1 0)) (loading (.amo 0 1 0)) = true ∧
    poisonedAt { s (.amo 0 1 0) with poisoned := [0x40040 / 4] } (.hbm 0x40040) 8 = true ∧
    reqReady (s (.dep true 3 7)) { loading (.dep true 3 7) with size := 4 } = true ∧ reqReady (s (.peek 3)) { loading (.peek 3) with size := 4 } = true ∧
    reqReady { s l with claims := [{ cmd := 1, engine := 5, lines := [.hbm 0x1001], performed := true }] } (loading l) = false ∧
    channelFree u (dieOf 0) (.hbm 0x40040) page 8 = false ∧ reqReady u { loading l with admitted := false } = true ∧
    ownPlace (s l) (reqSlot (s l) (loading l)) (.hbm 0x40040) false = .ok (.hbm 0x40040) ∧
    ownPlace (s l) (reqSlot (s l) (loading l)) (.hbm 0x40040) true = .ok (.hbm 0x40040) ∧
    frameNow (s l) 0 (.hbm 0x40040) page false = ((.hbm 0x40040, page), s l) ∧ frameNow u 0 (.hbm 0x40040) page false = ((.hbm 0x40040, page), u) ∧
    frameNow (s (.store 7)) 0 (.hbm 0x40040) page true = ((.hbm 0x40040, page), s (.store 7)) := by decide +kernel
theorem witness_MemoryEvents_results :
    let d : Req := { loading (.load 3 false) with done := true, value := 7 }
    let r := { loading (.load 3 false) with admitted := false }
    let free := requested r owner
    let full := requested r { owner with rate := 1, burst := 64 }
    let spent := requested r { owner with rate := 1, burst := 64, tokens := [(0, (-5, 0))] }
    d.done = true ∧ d.op = .load 3 false ∧ d.poison = false ∧ d.rlink = false ∧ d.line = [] ∧ d.rd ≠ 0 ∧ getCtx (requested d owner) d.ctx = some ctx ∧
    (requested d owner).reqs.find? (fun x => x.id == (requested d owner).arg.id) = some d ∧ r.admitted = false ∧ r.done = false ∧
    channelUse free (dieOf (coreOf r.ctx)) r.loc r.page r.size = some (0, 8) ∧ (getTenant free (pageSlot free r.page)).rate = 0 ∧
    channelUse full (dieOf (coreOf r.ctx)) r.loc r.page r.size = some (0, 8) ∧ (getTenant full (pageSlot full r.page)).rate ≠ 0 ∧
    0 ≤ tokensNow full (pageSlot full r.page) 0 ∧ tokensNow spent (pageSlot spent r.page) 0 < 0 := by decide +kernel
def walking : Walk := { id := 6, core := 0, vmid := 0, va := 0x30040, write := false, fetch := false, ctx := some 0, seg := none, pc := 0x10000 }
def parkedAt : Ctx := { trapping with status := .parked (.page 6) }
def cachedWalk : S1 := { vmid := 0, va := 0x30040, leaf := { entry := 0x0030000000000003, size := 2 ^ 30, at_ := 0xB000, seen := [0xA000, 0xB000] } }
def waitingOn (w : Walk) (cached : List S1) : State :=
  { on (core parkedAt []) with
    walks := [w], s1cache := cached, mem := tables, arg := { id := 6, slot := 0, v := 0x4000000000000002 }
    tenants := [(0, { owner with faults := { stroot := 0xA000, token := 3, waiters := [(2, (.walk 6, 0x30040))] } })] }
theorem witness_MemoryEvents_walks :
    let hit := waitingOn walking [cachedWalk]
    let miss := waitingOn walking []
    let slow := { miss with tenants := [(0, { owner with rate := 1, burst := 64, tokens := [(0, (-5, 0))] })] }
    let p := leafOf .uncached none
    let found := waitingOn { walking with page := some page } []
    let others := fun (s : State) => (getCore s walking.core).pcc.filter fun q => !(q.vmid == page.vmid && q.va == page.va && q.size == page.size)
    let many := { found with cores := [(0, { core parkedAt [] with pcc := List.replicate 64 marks })] }
    hit.walks.find? (fun x => x.id == hit.arg.id) = some walking ∧ walking.page = none ∧ walking.token = none ∧
    hit.s1cache.find? (fun x => x.covers walking.vmid walking.va) = some cachedWalk ∧ miss.s1cache.find? (fun x => x.covers walking.vmid walking.va) = none ∧
    walkHeld miss 0 walking.va = false ∧ walkHeld slow 0 walking.va = true ∧
    fromLeaf hit 0 walking.va cachedWalk.leaf = (.ok p, hit) ∧ stage1 miss (getTenant miss 0) walking.va = .ok cachedWalk.leaf ∧
    fromLeaf (chargeWalk miss 0 walking.va) 0 walking.va cachedWalk.leaf = (.ok p, miss) ∧
    found.walks.find? (fun x => x.id == found.arg.id) = some { walking with page := some page } ∧ walking.ctx = some 0 ∧ getCtx found 0 = some parkedAt ∧
    parkedAt.status = .parked (.page walking.id) ∧ (others found).length < 64 ∧ (others many).length = 64 := by decide +kernel
theorem witness_MemoryEvents_rings :
    let s := waitingOn walking []
    let f := getFaults s (.tenant s.arg.slot)
    f.waiting = [] ∧ f.waiters = [(2, (.walk walking.id, 0x30040))] ∧ s.walks = [walking] ∧ walking.ctx = some 0 ∧ walking.seg = none ∧
    getCtx s 0 = some parkedAt ∧ s.arg.v = (1#2 ++ 0#30 ++ (2 : BitVec 32)) ∧ parkedAt.tvec ≠ 0 ∧ parkedAt.tcause.getLsbD 62 = false ∧
    ({ s.arg with v := 0x8000000000000002 } : EvArg).v = (2#2 ++ 0#30 ++ (2 : BitVec 32)) := by decide +kernel
def away : Req := { loading (.store 7) with loc := .remote 9 0x40 }
def dropping (op : Nat) (sent : Bool) : Tlbi := { id := 8, op := op, vmid := 0, addr := 0, ctx := if sent then some 0 else none, upto := 0, sent := sent }
theorem witness_MemoryEvents_ends :
    let s := requested away owner
    let t := { on (core { ctx with status := .held (.tlbi 8) } []) with tlbis := [dropping 1 true], arg := { id := 8 } }
    let b := { t with reqs := [{ loading (.load 3 false) with id := 0 }], tlbis := [{ dropping 1 true with upto := 1 }] }
    let u := { on (core { ctx with duties := [.acq 4] } []) with arg := { id := 0 } }
    s.arg.flag = false ∧ s.reqs = [away] ∧ away.id = s.arg.id ∧ away.done = false ∧ away.loc = .remote 9 0x40 ∧ away.op = .store 7 ∧
    getCtx s away.ctx = some ctx ∧ ctx.stream = false ∧ ctx.status = .ready ∧ ({ s.arg with flag := true } : EvArg).flag = true ∧
    t.tlbis = [dropping 1 true] ∧ (dropping 1 true).id = t.arg.id ∧ usesDropped t (dropping 1 true) = false ∧ (dropping 1 true).ctx = some 0 ∧
    (dropping 1 true).op ≤ 3 ∧ getCtx t 0 = some { ctx with status := .held (.tlbi 8) } ∧ usesDropped b { dropping 1 true with upto := 1 } = true ∧
    (dropping 3 false).sent = false ∧ (dropping 3 false).ctx = none ∧
    usesDropped { t with tlbis := [dropping 3 false] } { dropping 3 false with sent := true, upto := t.nextId } = false ∧
    getCtx u u.arg.id = some { ctx with duties := [.acq 4] } ∧ u.reqs.any (fun q => q.id == 4) = false := by decide +kernel
def record : Cont := { words := [0x10000], vmid := 0, tslot := 0, node := none, dclass := 0, tvec := some 0x20000, tcause := 0 }
def flying : Flight := { id := 4, core := 0, cont := record, sender := .ctx 1, isGo := true, addr := 0x10000 }
theorem witness_ContextEvents_contexts :
    let s := { on (core { ctx with status := .held (.park none (.hbm 0x40040)) } []) with watches := [{ ctx := 0, line := .hbm 0x40040, written := true }] }
    let a := on (core { ctx with status := .held (.answer 4 7) } [])
    let f := { on (core ctx []) with flights := [flying], arg := { id := 4, unit := 1 } }
    let q := on { core ctx [] with arrivals := [record] }
    getCtx s s.arg.id = some { ctx with status := .held (.park none (.hbm 0x40040)) } ∧ s.watches.any (fun w => w.ctx == s.arg.id && w.written) = true ∧
    getCtx a a.arg.id = some { ctx with status := .held (.answer 4 7) } ∧ (4 : Reg) ≠ 0 ∧
    record.node = none ∧ freeSlot f record.tslot 0 = some 1 ∧ freeRun (getCore f 0) record.allot = some 16 ∧ (getCore f 0).ring = none ∧
    f.flights = [flying] ∧ flying.id = f.arg.id ∧ flying.answer = none ∧ flying.isGo = true ∧ flying.sender = .ctx f.arg.unit ∧
    grantOf f record.tslot 0 ≠ 0 ∧ (getCore f 0).arrivals = [] ∧
    freeSlot q record.tslot 0 = some 1 ∧ freeRun (getCore q 0) record.allot = some 16 ∧ coreExists q 0 = true ∧ restoreDue q 0 = false ∧
    (getCore q 0).arrivals = record :: [] ∧ (getCore q 0).ring = none := by decide +kernel
theorem witness_ContextEvents_segments :
    let s := streaming (.sequencer 0)
    let b := { seg with bubbles := 1 }
    let h := { seg with hold := 2 }
    let e := { seg with phase := .ending false, upto := some 0 }
    let u := { s with segs := [(0, b)] }
    getSeg u 0 = some b ∧ b.phase = .running ∧ segWaits u b = false ∧ b.walk = none ∧ b.cores.any (fun x => coreStopped u x.2.1) = false ∧ b.hold = 0 ∧
    0 < b.bubbles ∧ getSeg { s with segs := [(0, h)] } 0 = some h ∧ 0 < h.hold ∧ segWaits { s with segs := [(0, h)] } h = false ∧
    h.cores.any (fun x => coreStopped { s with segs := [(0, h)] } x.2.1) = false ∧ getSeg { s with segs := [(0, e)] } 0 = some e ∧
    (segDrained e && e.upto.isNone) = false ∧ segOver (setSeg { s with segs := [(0, e)] } 0 e) 0 e = true ∧
    segOver (setSeg s 0 seg) 0 seg = false ∧ (segDrained seg && seg.upto.isNone) = false := by decide +kernel
def noded : Ctx := { ctx with node := some ⟨1, 0⟩ }
theorem witness_ContextEvents_turns :
    let s := on { core ctx [] with rot := ⟨[0], 0, [], []⟩ }
    let b : Ctx := { ctx with benchHot := true }
    coreStopped s 0 = false ∧ (getCore s 0).ctxs = [(0, ctx)] ∧ (getCore s 0).rot = ⟨[0], 0, [], []⟩ ∧ ctx.benched = false ∧ ctx.status = .ready ∧
    ctx.stream = false ∧ ctx.saving = false ∧ ctx.yields ≠ 2 ∧ b.benched = true ∧
    coreStopped { s with rows := [(0, { point := 0 })] } 0 = true := by decide +kernel
theorem witness_ContextEvents_benching :
    let b : Ctx := { ctx with prio := 5, node := some ⟨2, 0⟩ }
    let p := on { core ctx [] with ctxs := [(0, noded), (1, b)] }
    let o := { p with tenants := [(0, { owner with launches := [
      { id := 1, number := 1, queue := 0, handle := 0, args := 0, since := 0, eligible := some 0, prio := 1, nodes := [] },
      { id := 2, number := 1, queue := 1, handle := 0, args := 0, since := 0, eligible := some 0, prio := 2, nodes := [] }] })] }
    let r := on (core { ctx with benchPre := true } [])
    (getCore o 0).ctxs = [(0, noded), (1, b)] ∧ noded.tslot = o.arg.slot ∧ noded.node ≠ none ∧ noded.status = .ready ∧ noded.benchPre = false ∧
    ctxPrio o noded < ctxPrio o b ∧ (getCore o 0).arrivals = [] ∧ readyHead (getTenant o 0) (startCycle (getTenant o 0) o.cycle) = none ∧
    reserved o b = 0 ∧ r.arg.flag = false ∧ (getCore r 0).saved = [] ∧ (getCore r 0).kept = none ∧
    getCtx r (ctxId 0 0) = some { ctx with benchPre := true } ∧ higherRemains r 0 0 none = false := by decide +kernel
/-- A package whose tenant 0 has the field `f` as its field 3, about to act for an event of it. -/
def ticking (f : Field) (a : EvArg) : State :=
  { on (core ctx []) with tenants := [(0, { owner with fields := [(3, f)] })], arg := { a with idx := 3 } }
def quiet : Field := { en := true, num := 4, base := 0x50000, pages := 1 }
theorem witness_TrailEvents_fields :
    let start : EvArg := { v := 0x8000000000000000 }
    let off : Field := { base := 0x50000, pages := 1 }
    let bad : Field := { base := 0x7FFFFFFFC000, pages := 2 }
    let on_ : Field := { off with enabling := true }
    start.v.getLsbD 63 = true ∧ getField (ticking off start) 0 3 = off ∧ off.en = false ∧ off.enabling = false ∧ enableRefused off start.v = false ∧
    bad.en = false ∧ bad.enabling = false ∧ enableRefused bad start.v = true ∧ on_.enabling = true ∧ on_.toEnable = [] ∧ on_.disabling = false ∧
    quiet.en = true ∧ quiet.unit = .idle ∧ quiet.queue = [] ∧ quiet.due = 0 ∧
    markPending (modField (ticking quiet {}) 0 3 fun _ => { quiet with disabling := true }) 0 3 = false ∧
    ({ quiet with queue := [0] } : Field).queue ≠ [] := by decide +kernel
theorem witness_TrailEvents_ticks :
    let base : Field := { quiet with src := true, period := 100 }
    let hold : Field := { quiet with unit := .hold, queue := [0] }
    let acked : Field := { quiet with unit := .ack [5] (some 0), slices := [(5, 1)] }
    let two : Field := { quiet with unit := .ack [5, 6] (some 0), slices := [(5, 1)] }
    let h := { on (core { ctx with status := .held (.tick 3) } []) with arg := { idx := 3 } }
    base.en = true ∧ base.disabling = false ∧ base.src = true ∧ base.nextDue ≤ (ticking base {}).time.toNat ∧
    hold.unit = .hold ∧ hold.en = true ∧ (hold.tick + 1 - hold.passStart).toNat ≠ 8192 ∧ hold.queue = 0 :: [] ∧
    ({ hold with queue := [], due := 1 } : Field).due ≠ 0 ∧ ((8191 : BitVec 16) + 1 - quiet.passStart).toNat = 8192 ∧
    acked.unit = .ack [5] (some 0) ∧ acked.enabling = false ∧ ({ id := 5 } : EvArg).id ∈ [5] ∧ amGet acked.slices 5 = some (acked.tick + 1) ∧
    two.unit = .ack [5, 6] (some 0) ∧ [5, 6].filter (· != 5) ≠ [] ∧ [5].filter (· != 5) = [] ∧ acked.fromBase = false ∧ acked.queue = [] ∧
    acked.due = 0 ∧ acked.disabling = false ∧ getCtx h 0 = some { ctx with status := .held (.tick 3) } := by decide +kernel
/-- Tables whose leaf holds marks of field 3. -/
def markTables : Memory := memPut tables 0xB000 (leBytes 8 0x0380000000000003)
def markLeaf : Page := leafOf .cached (some 3)
theorem witness_TrailEvents_scrubber :
    let s := { ticking quiet {} with mem := markTables }
    let va := quiet.base + BitVec.ofNat 64 (4 * quiet.passPos)
    quiet.en = true ∧ translate s 0 va = (.ok markLeaf, s) ∧ scrubPage markLeaf 3 = true ∧ markLeaf.loc va = .hbm 0x50000 ∧
    homeReady s (dieHolding s (.hbm 0x50000)) (.hbm 0x50000) 4 none = true ∧ overtakenOver s (dieHolding s (.hbm 0x50000)) (.hbm 0x50000) 4 = false ∧
    poisonedAt s (.hbm 0x50000) 4 = false ∧ keyed s markLeaf.key 0x50000 4 = true := by decide +kernel
def flow : Flow := { en := true, vmid := 0, mask := 0xFF, value := 0x11, stream := 0x40000, buf := 0x60000 }
def port : Port := { en := true, flows := [(1, flow)] }
def framed (b : Byte) : List Byte := b :: List.replicate 59 0
theorem witness_TrailEvents_frames :
    let s := { on (core ctx []) with trail0 := port, arg := { bytes := framed 0x11, flag := true } }
    s.arg.unit < 2 ∧ s.frozen = false ∧ ({ s with frozen := true } : State).frozen = true ∧ (portAt s s.arg.unit).en = true ∧
    port.maxlen.toNat < (List.replicate 1519 (0 : Byte)).length ∧ ([] : List Byte).length < 60 ∧ s.arg.flag = true ∧ ({} : EvArg).flag = false ∧
    (framed 0x11).length ≤ port.maxlen.toNat ∧ 60 ≤ (framed 0x11).length ∧ classify port (framed 0x11) = some 1 ∧ classify port (framed 0x12) = none ∧
    staged port + (framed 0x11).length ≤ 2 ^ 20 := by decide +kernel
def heldFrame : Frame := { flow := 1, t := 0, stamp := 0, drop := 0, bytes := framed 0x11 }
/-- A port whose staging buffer holds `n` bytes. -/
def holding (n : Nat) : Port := { port with staging := [{ heldFrame with bytes := List.replicate n 0 }] }
theorem staged_holding (n : Nat) : staged (holding n) = n := by simp [staged, holding]
theorem witness_TrailEvents_overflow : 2 ^ 20 < staged (holding (2 ^ 20)) + (framed 0x11).length := by
  rw [staged_holding]; exact Nat.lt_add_of_pos_right (by decide)
def delivering : State :=
  { on (core ctx []) with
    tenants := [(0, owner)], mem := ringBytes 1, trail0 := { port with staging := [heldFrame] }, arg := { idx := 1 } }
theorem witness_TrailEvents_delivery :
    let s := delivering
    let q := portAt s s.arg.unit
    let d := readDesc s cachedLeaf flow.stream
    let slot := flow.buf + BitVec.ofNat 64 (slotBytes q * (heldFrame.t.toNat % (2 * d.n)))
    let v := putBytes 0 flow.vmid [cachedLeaf] slot (slotContent 0 heldFrame) s
    q.staging = [heldFrame] ∧ heldFrame.flow = s.arg.idx ∧ heldFrame.token = none ∧ amGetD {} q.flows 1 = flow ∧ flow.entry = 0 ∧
    slotOfVmid s flow.vmid = some 0 ∧ translate s 0 flow.stream = (.ok cachedLeaf, s) ∧ elemOk cachedLeaf = true ∧ flow.stream.toNat % 64 = 0 ∧
    mayAccess s (dieOfLoc (cachedLeaf.loc flow.stream)) (cachedLeaf.loc flow.stream) cachedLeaf 192 none true = true ∧
    pushWaits s (cachedLeaf.loc flow.stream) = false ∧ (d.tail - d.head).toNat < d.n ∧
    walkPieces 0 true (rangePieces slot (slotContent 0 heldFrame).length) [] s = (.ok [cachedLeaf], s) ∧
    translate s 0 (d.elem d.tail) = (.ok cachedLeaf, s) ∧
    (slotLines s flow.vmid [cachedLeaf] slot (slotContent 0 heldFrame).length).all
      (fun (_, p, l) => mayAccess s (dieOfLoc l) l p 64 none true) = true ∧
    mayAccess s (dieOfLoc (cachedLeaf.loc (d.elem d.tail))) (cachedLeaf.loc (d.elem d.tail)) cachedLeaf 8 none true = true ∧
    cachedLeaf.loc (d.elem d.tail) = .hbm 0x50008 ∧ cachedLeaf.loc (flow.stream + 0x80) = .hbm 0x40080 ∧
    keyed v cachedLeaf.key 0x50008 8 = true ∧ keyed v cachedLeaf.key 0x40080 8 = true ∧ (portAt v s.arg.unit).staging = [heldFrame] := by decide +kernel
theorem witness_TrailEvents_flows :
    (1 ≤ 255 ∧ flow.en = true) ∧ ({} : Flow).en = false ∧ (0x8000000000000000 : Word).getLsbD 63 = true ∧ (0 : Word).getLsbD 63 = false := by decide +kernel
/-- A COPY node of 16 bytes from 0x30000 to 0x30100, and a SWARM node of two threads. -/
def copyRec : List Word := [0x8000000000000000, 0, 0x30000, 0x30100, 16, 0, 0, 0]
def swarmRec : List Word := [0x4000000000020040, 0x0000000200020000, 0x60000, 0x60040, 0, 0, 0, 0]
def kernel : Kernel := { role := 1, allot := 8, spbytes := 0, winbytes := 0, prio := 0, dclass := 0, tvec := none }
def copyNode : GNode := { words := copyRec, kernel := Kernel.none }
def swarmNode : GNode := { words := swarmRec, kernel := kernel }
/-- The SWARM node with one thread. -/
def oneThread : GNode := { swarmNode with words := swarmRec.set 1 0x0000000200010000 }
def launch (ns : List LNode) : Launch := { id := 1, number := 1, queue := 0, handle := 0, args := 0, since := 0, eligible := some 0, prio := 0, nodes := ns }
def waitingNode : LNode := { counter := 1, phase := .waiting }
/-- A package whose tenant 0 has registered the nodes and launched them. -/
def launched (gs : List GNode) (ls : List Launch) (a : EvArg) : State :=
  { on (core ctx []) with
    tenants := [(0, { owner with graphs := [(0, { nodes := gs })], queues := [(0, { en := true })], launches := ls, delivering := [(1, 0)] })]
    mem := memPut (memPut tables 0x20000 [1]) 0x60000 (leBytes 8 0x30040), arg := a }
/-- A graph image at 0x60000 of one COPY node. -/
def imaged : State :=
  { on (core ctx []) with
    tenants := [(0, { owner with regBusy := true, regJob := some 0x60000 })]
    mem := memPut (memPut tables 0x60000 [1]) 0x60040 (copyRec.flatMap fun w => leBytes 8 w.toNat) }
theorem ok_of {ε α : Type} [DecidableEq α] {r : Except ε α × State} {x : α} {u : State}
    (h : (match r with | (.ok y, t) => decide (y = x) && decide (t = u) | _ => false) = true) : r = (.ok x, u) := by
  obtain ⟨_ | y, t⟩ := r
  · simp at h
  · simp only [Bool.and_eq_true, decide_eq_true_eq] at h
    rw [h.1, h.2]
theorem witness_GraphEvents_registration :
    let s := launched [copyNode] [] {}
    s.fw.switching = false ∧ (getTenant s 0).regBusy = false ∧ s.arg.v.toNat < 1024 ∧ (getTenant imaged 0).regBusy = true ∧
    amGet (getTenant s 0).graphs s.arg.v.toNat = some { nodes := [copyNode] } ∧ (getTenant imaged 0).regJob = some 0x60000 ∧
    (getTenant { s with tenants := [(0, { getTenant s 0 with unregJob := some 0 })] } 0).unregJob = some 0 ∧
    (getTenant s 0).launches.any (fun l => l.handle == 0) = false ∧
    (getTenant (launched [copyNode] [launch [waitingNode]] {}) 0).launches.any (fun l => l.handle == 0) = true := by decide +kernel
theorem witness_GraphEvents_image : (dispGraph 0 0x60000).run.run imaged = (.ok (0, [copyNode]), { imaged with free := 16 }) := ok_of (by decide +kernel)
theorem witness_GraphEvents_launches :
    let s := launched [copyNode] [] {}
    let w := launched [copyNode] [{ launch [waitingNode] with eligible := none }] {}
    let d := launched [copyNode] [launch [{ waitingNode with phase := .complete }]] { id := 1 }
    let r := launched [copyNode] [launch [{ waitingNode with phase := .running }]] { id := 1 }
    s.arg.v.extractLsb' 48 6 = BitVec.ofNat 6 0 ∧ s.arg.v.extractLsb' 40 8 = 0 ∧ s.arg.v.extractLsb' 0 6 = 0 ∧
    (amGetD {} (getTenant s 0).queues 0 : Queue).en = true ∧ amGet (getTenant s 0).graphs 0 = some { nodes := [copyNode] } ∧
    ((getTenant s 0).launches.filter fun l => l.queue == 0).length < 256 ∧
    canonical (argAddress (amGetD {} (getTenant s 0).queues 0 : Queue).argbase s.arg.v) = true ∧
    (List.range 64).filterMap (waitingHead (getTenant w 0)) = [{ launch [waitingNode] with eligible := none }] ∧
    (getTenant d 0).launches.find? (fun l => l.id == d.arg.id) = some (launch [{ waitingNode with phase := .complete }]) ∧
    launchOver d (launch [{ waitingNode with phase := .complete }]) = true ∧
    (getTenant r 0).launches.find? (fun l => l.id == r.arg.id) = some (launch [{ waitingNode with phase := .running }]) ∧
    launchOver r (launch [{ waitingNode with phase := .running }]) = false := by decide +kernel
/-- Every handle in use. -/
def filled : Nat → AMap Graph
  | 0 => []
  | n + 1 => (n, { nodes := [] }) :: filled n
theorem witness_GraphEvents_full (n h : Nat) (k : h < n) : amGet (filled n) h ≠ none := by
  induction n with
  | zero => omega
  | succ n ih =>
    simp only [filled, amGet]
    split
    · simp
    · exact ih (by omega)
def readied : LNode := { waitingNode with counter := 0, phase := .ready 0 }
def running : LNode := { waitingNode with counter := 0, phase := .running }
/-- The node `g` started: its first thread is read next. -/
def begun (g : GNode) (mem : Memory) : State :=
  let s := { launched [g] [launch [readied]] { num := 1 } with mem := mem }
  let c := startCycle (getTenant s 0) (s.cycle + s.arg.num)
  modNode (modTenant { s with cycle := c } 0 fun y => { y with startFrom := c + 1 }) 0 ⟨1, 0⟩ fun z => { z with phase := .running }
theorem witness_GraphEvents_start :
    let s := launched [oneThread] [launch [readied]] { num := 1 }
    readyHead (getTenant s 0) (startCycle (getTenant s 0) (s.cycle + s.arg.num)) = some ⟨launch [readied], 0, oneThread, 0⟩ ∧ oneThread.kind = 1 ∧
    oneThread.word 4 = 0 ∧ recThreads oneThread.words = 1 ∧ nodeState (begun oneThread s.mem) 0 (some ⟨1, 0⟩) = some running ∧ running.places = [] := by decide +kernel
theorem witness_GraphEvents_reads :
    let m := memPut (memPut tables 0x20000 [1]) 0x60000 (leBytes 8 0x30040)
    readThread (begun oneThread m) 0 oneThread 0 = (.ok (0x30040, [0, 0, 0, 0, 0, 0, 0, 0]), { begun oneThread m with free := 16 }) ∧
    readThread (begun oneThread []) 0 oneThread 0 = (.error (some (.stage2 0xA000, 0x60000)), begun oneThread []) := by decide +kernel
theorem witness_GraphEvents_threads :
    let y := { running with places := [0x30040, 0x30040], boots := [List.replicate 8 0, List.replicate 8 0] }
    let s := launched [swarmNode] [launch [y]] {}
    let u := setTenant { s with cycle := 0 } 0 { getTenant s 0 with sendFrom := 1 }
    let p := leafOf .uncached none
    (getTenant s 0).delivering = [(1, 0)] ∧ gnodeOf s 0 (some ⟨1, 0⟩) = some swarmNode ∧ nodeState s 0 (some ⟨1, 0⟩) = some y ∧
    recThreads swarmNode.words ≤ ({ y with started := 2 } : LNode).started ∧ y.started + 1 < recThreads swarmNode.words ∧ y.token = none ∧
    y.places.length = recThreads swarmNode.words ∧ canonical (y.places.getD y.started 0) = true ∧ translate u 0 0x30040 = (.ok p, u) ∧ p.rd = true ∧
    homeCoreOf p (dieOfPage p 0x30040) 0x30040 = some 16 := by decide +kernel
def copyRun : LNode := { running with cmd := 9, srcPages := [leafOf .uncached none], dstPages := [leafOf .uncached none] }
theorem witness_GraphEvents_copies :
    let x := copyRun
    let s := launched [copyNode] [launch [x]] { id := 1 }
    let j : CopyJob := { t := 0, n := ⟨1, 0⟩, src := 0x30000, dst := 0x30100, len := 16, node := x }
    let p := (j.srcAt s 0).1
    let q := (j.dstAt s 0).1
    runningNode s 0 (argNode s) = some (launch [x], copyNode, x) ∧ copyNode.kind = 2 ∧ x.token = none ∧ x.failed = false ∧ x.cmd ≠ 0 ∧
    copySrc copyNode (launch [x]) = j.src ∧ copyDst copyNode (launch [x]) = j.dst ∧ copyLen copyNode = j.len ∧ x.moved + 16 = copyLen copyNode ∧
    j.units = [x.moved] ∧ j.ready s = true ∧ p.loc 0x30000 = .hbm 0x30000 ∧ q.loc 0x30100 = .hbm 0x30100 ∧ keyed s p.key 0x30000 16 = true ∧
    keyed s q.key 0x30100 16 = true ∧ p.loc ((0x30000 : Word) &&& ~~~(63 : Word)) = .hbm 0x30000 ∧ poisonedAt s (.hbm 0x30000) 64 = false ∧
    x.badDst ≠ lineMark 0x30100 ∧ nodeOver copyNode { x with moved := 16 } = true ∧ nodeOver copyNode x = false ∧ copyNode.succs = [] := by decide +kernel
theorem witness_GraphEvents_signals :
    let c : Ctx := { ctx with status := .held (.tsig 0), node := some ⟨1, 0⟩ }
    let s := { launched [swarmNode] [launch [running]] {} with cores := [(0, core c [])] }
    getCtx s s.arg.id = some c ∧ launchOf s c.tslot c.node = some (launch [running]) ∧
    gnodeOf s c.tslot (some ⟨1, (0 : Word).toNat⟩) = some swarmNode ∧ zeroSucc (launch [running]) swarmNode.succs = none := by decide +kernel
def partitioned (a : EvArg) : State := { on (core ctx []) with tenants := [(0, owner), (1, { en := true, vmid := 7, rows := 0 })], arg := a }
theorem witness_PartitionEvents_transfers :
    let s := partitioned { v := 0x0001000000000005 }
    let v := s.arg.v
    (ResKind.row, Instr.transferRow) ∈ [(ResKind.row, Instr.transferRow)] ∧ s.fw.switching = false ∧ s.tBusy = false ∧
    v.extractLsb' 62 2 = BitVec.ofNat 2 ResKind.row.code ∧ v.extractLsb' 54 8 = 0 ∧ v.extractLsb' 8 40 = 0 ∧ (v.extractLsb' 0 8).toNat = 5 ∧
    5 < ResKind.row.count ∧ (getTenant s (v.extractLsb' 48 6).toNat).en = true ∧ inUse s .row 5 = false ∧ inUse s .row 0 = true ∧
    ResKind.engine.count ≤ ((11 : Word).extractLsb' 0 8).toNat ∧ (getTenant s 2).en = false ∧
    ({ s with tBusy := true } : State).tBusy = true ∧ s.tlbis.any (fun t => t.op == 4) = false := by decide +kernel
theorem witness_PartitionEvents_vault :
    let s := partitioned { v := 0x4000000700000005 }
    let d : Word := 0x8000000000000005
    s.fw.switching = false ∧ s.vBusy = false ∧ s.arg.v.extractLsb' 48 14 = 0 ∧ s.arg.v.extractLsb' 8 24 = 0 ∧ s.arg.v.extractLsb' 62 2 = 1 ∧
    (s.arg.v.extractLsb' 0 8).toNat ≠ 0 ∧ amGet s.vault 5 = none ∧ amGet ({ s with vault := [(0, 0), (5, 7)] } : State).vault 5 ≠ none ∧
    d.extractLsb' 48 14 = 0 ∧ d.extractLsb' 8 24 = 0 ∧ d.extractLsb' 62 2 = 2 ∧ (d.extractLsb' 0 8).toNat ≠ 0 ∧
    ((0x8000000000000000 : Word).extractLsb' 0 8).toNat = 0 ∧ (0x8000000000000000 : Word).extractLsb' 62 2 = 2 ∧
    ({ s with vJob := some 5 } : State).vJob = some 5 ∧ s.tlbis.any (fun t => t.op == 5) = false := by decide +kernel
theorem witness_PartitionEvents_host :
    let s := partitioned { v := 0x4000000000000007 }
    s.arg.v.extractLsb' 62 2 = BitVec.ofNat 2 1 ∧ s.arg.v.extractLsb' 16 46 = 0 ∧ s.invBusy = false ∧ ({ s with invBusy := true } : State).invBusy = true ∧
    ({} : EvArg).idx < 8 ∧ ({ v := 0x01 } : EvArg).v.extractLsb' 9 47 = 0 ∧ ({ num2 := 8 } : EvArg).num2 ≠ 0 ∧ ({ num2 := 8 } : EvArg).num2 ≤ 8 ∧
    s.arg.flag = false ∧ s.arg.num2 = 0 ∧ ({ num := 0x400 } : EvArg).num = 0x400 ∧ 0x401 % 8 ≠ 0 ∧ ({ flag := true, num := 16384 } : EvArg).num = 16384 := by
  decide +kernel
theorem witness_PartitionEvents_firmware :
    let s := partitioned { num := 64 }
    let f := s.fw
    f.busy = false ∧ f.switching = false ∧ keyed s 0 f.addr.toNat s.arg.num = true ∧ f.addr.extractLsb' 0 6 = 0 ∧ f.keyIndex < 2 ^ 40 ∧
    2 ^ 40 ≤ ({ f with keyIndex := 2 ^ 40 } : Firmware).keyIndex ∧ f.addr.toNat + 10149 ≤ 2 ^ 39 ∧ keyed s 0 f.addr.toNat 10149 = true ∧
    (fwBank f (!f.active)).verified = false ∧ (fwBank { f with bank1 := { verified := true } } (!f.active)).verified = true ∧
    ({ f with switching := true } : Firmware).switching = true ∧ f.switches ≠ 255 ∧ ({ f with busy := true } : Firmware).busy = true := by decide +kernel
/-- Whether an image is signed is open: for every image one of the two cases holds. -/
theorem witness_PartitionEvents_boot (f : Firmware) :
    (∃ b, bootBank f = some b) ∨ bootBank f = none := by cases h : bootBank f <;> simp
theorem witness_PowerEvents_rows :
    let s := partitioned {}
    let k := { core ctx [] with step := some { step1 with deadline := 0 } }
    let l := { on k with time := 100 }
    let e := on { core ctx [] with step := some { step1 with deadline := 0x7FFFFFFFFFFFFFFF } }
    stepsOf s (rowCores (rowOf s.arg.unit)) = [] ∧ rowSegs s (rowOf s.arg.unit) = [] ∧
    (getCore l 0).step = some { step1 with deadline := 0 } ∧ isLate l 0 (minDiv (pointFor l 0 7)) { step1 with deadline := 0 } = true ∧
    (getCore e 0).step = some { step1 with deadline := 0x7FFFFFFFFFFFFFFF } ∧
    isLate e 0 (minDiv (pointFor e 0 7)) { step1 with deadline := 0x7FFFFFFFFFFFFFFF } = false := by decide +kernel
theorem witness_PowerEvents_limits :
    let s := { partitioned {} with arg := { slot := 64, flag := true, pairs := [(0, 1)] } }
    slowLimit s 64 = some 1800000 ∧ 1800000 < 1800001 ∧ s.lowering.contains 64 = false ∧ ({ s with lowering := [64] } : State).lowering.contains 64 = true ∧
    rowToLower s 64 = some 0 ∧ 1700000 * 100 < 1800000 * 95 ∧ s.arg.flag = true ∧ ({} : EvArg).flag = false ∧
    ({ s with lowered := [(3, 64)] } : State).lowered.find? (fun e => e.2 == 64) = some (3, 64) ∧ s.fw.switching = false ∧
    fastLimit s 64 = some 2000000 ∧ s.arg.pairs = [(0, 1)] ∧ benchNext s 64 0 = some 0 ∧ getCtx s (ctxId 0 0) = some ctx ∧ ctx.status = .ready ∧
    amGetD 0 s.fastCalm 64 = 0 ∧ amGetD 0 ({ s with fastCalm := [(64, 1)] } : State).fastCalm 64 = 1 ∧
    ({ s with fastBench := [(0, 64)] } : State).fastBench = [(0, 64)] := by decide +kernel
theorem witness_PowerEvents_rest :
    let s := partitioned { pairs := [(0, 1600)] }
    let x := getTenant s 0
    let full : Tenant := { x with telEn := true, telTail := 64 }
    s.arg.pairs = [(0, 1600)] ∧ 0 < 2176 ∧ 1600 < (s.therm.extractLsb' 0 16).toNat ∧ (s.therm.extractLsb' 16 16).toNat ≤ 1600 ∧
    1400 + 32 < (s.therm.extractLsb' 16 16).toNat ∧ x.telEn = false ∧ s.time.toNat < ({ x with telNext := 5 } : Tenant).telNext ∧ full.telEn = true ∧
    full.telNext ≤ s.time.toNat ∧ 2 ^ full.telLog2n ≤ (full.telTail - full.telHead).toNat ∧ (x.telTail - x.telHead).toNat < 2 ^ x.telLog2n := by decide +kernel
def sampling : State := { mapped (core ctx []) with tenants := [(0, { owner with telEn := true, telBase := 0x30000 })] }
theorem witness_PowerEvents_sample :
    let x := getTenant sampling 0
    let va := x.telBase + BitVec.ofNat 64 (64 * (x.telTail.toNat % 2 ^ x.telLog2n))
    let v := setTenant sampling 0 { x with telNext := x.telNext + x.telPeriod.toNat }
    let p := leafOf .uncached none
    x.telEn = true ∧ x.telNext ≤ sampling.time.toNat ∧ (x.telTail - x.telHead).toNat < 2 ^ x.telLog2n ∧ translate v 0 va = (.ok p, v) ∧ p.wr = true ∧
    p.loc va = .hbm 0x30000 ∧ keyed sampling p.key 0x30000 64 = true := by decide +kernel
/-- A package whose host link and domain are up, about to act for an access of 8 bytes at 0x30040. -/
def hosted (a : EvArg) : State :=
  { mapped (core ctx []) with hostUp := true, domEn := true, arg := { a with v := 0x30040, num := 8 } }
theorem witness_LinkEvents_host :
    let s := hosted {}
    let s1 := { s with nextId := s.nextId + 1 }
    let p := leafOf .uncached none
    let held := { s1 with claims := [{ cmd := 1, engine := 5, lines := [.hbm 0xC01], performed := true }] }
    State.reset.hostUp = false ∧ s.hostUp = true ∧ s.arg.flag = false ∧ 1 ≤ s.arg.num ∧ s.arg.num ≤ 8 ∧ s.arg.num + (sext48 s.arg.v).toNat % 64 ≤ 64 ∧
    (getTenant s 0).en = true ∧ (getTenant s 5).en = false ∧ s.remoteWaits = [] ∧ s.remoteWaits.find? (fun w => w.host && w.id == s.arg.id) = none ∧
    slotOfVmid s (getTenant s 0).vmid = some 0 ∧ translate s1 0 (sext48 s.arg.v) = (.ok p, s1) ∧ p.loc (sext48 s.arg.v) = .hbm 0x30040 ∧
    s.arg.op = .read ∧ p.rd = true ∧ p.wr = true ∧ ({ p with rd := false } : Page).rd = false ∧ outsideMay s1 (.hbm 0x30040) p s.arg.op 8 = true ∧
    outsideMay held (.hbm 0x30040) p s.arg.op 8 = false ∧ keyed s p.key 0x30040 8 = true ∧ poisonedAt s (.hbm 0x30040) 8 = false ∧
    ({ op := .write 7 } : EvArg).op = .write 7 ∧ ({ flag := true } : EvArg).flag = true ∧ plainSize 0x30040 8 = true ∧ 0x30040 < 2 ^ 22 := by decide +kernel
def remote : EvArg := { id := 7, num := 0x30040, num2 := 8 }
def wait : RemoteWait := { id := 7, token := some 3, vmid := 0, op := .read, off := 0x30040, size := 8 }
theorem witness_LinkEvents_peers :
    let s := { hosted {} with arg := remote }
    let s1 := { s with nextId := s.nextId + 1 }
    let r : S2 := { pa := 0x30040, size := 2 ^ 30, nx := false, ro := false, nr := false, key := 0 }
    let held := { s1 with claims := [{ cmd := 1, engine := 5, lines := [.hbm 0xC01], performed := true }] }
    State.reset.domEn = false ∧ s.domEn = true ∧
    ({ s with remoteWaits := [wait] } : State).remoteWaits.find? (fun w => !w.host && w.id == s.arg.id) = some wait ∧
    wait.token ≠ none ∧ s.remoteWaits.find? (fun w => !w.host && w.id == s.arg.id) = none ∧ plainSize s.arg.num s.arg.num2 = true ∧ s.arg.num < 2 ^ 40 ∧
    slotOfVmid s 9 = none ∧ slotOfVmid s (s.arg.v2.setWidth 16) = some 0 ∧ stage2 s (getTenant s 0) s.arg.num = .ok r ∧ r.nr = false ∧ r.ro = false ∧
    ({ r with ro := true } : S2).ro = true ∧ r.loc = .hbm 0x30040 ∧ outsideMay s1 r.loc (peerPage 0 r s.arg.num) s.arg.op 8 = true ∧
    outsideMay held r.loc (peerPage 0 r s.arg.num) s.arg.op 8 = false ∧ keyed s r.key 0x30040 8 = true ∧ poisonedAt s (.hbm 0x30040) 8 = false := by decide +kernel
theorem witness_LinkEvents_links :
    let up : Peer := { up := true, ports := 3 }
    let x : Req := { loading (.load 3 false) with loc := .remote 5 64 }
    let s := { State.reset with peers := [(5, up)], linkUp := 1, reqs := [x] }
    (amGetD {} s.peers 5 : Peer).up = true ∧ (amGetD {} s.peers 6 : Peer).up = false ∧ ({ flag := true } : EvArg).flag = true ∧ 5 ≠ 64 ∧
    (∀ e ∈ s.cores, e.2.sbuf.any (fun x => x.loc.onDevice 5) = false) ∧ (s.reqs.filter fun x => x.loc.onDevice 5 && !x.done) = [x] ∧
    (s.reqs.filter fun x => x.loc.onDevice 64 && !x.done) = [] ∧ x.op = .load 3 false ∧ ({ s with hostUp := true } : State).hostUp = true ∧ s.hostUp = false ∧
    (0x4000000000000001 : Word).getLsbD 62 = true ∧ (3 : Word).getLsbD 62 = false ∧ (1 : BitVec 16) ≠ 0 ∧ (1 : BitVec 16) &&& ~~~s.linkUp = 0 ∧
    (∀ x ∈ s.reqs, x.loc.onDevice 6 = true → x.done = true) ∧ s.linkUp.getLsbD 0 = true := by decide +kernel
theorem witness_LinkEvents_errors :
    let s := State.reset
    let row : Row := { pending := [2] }
    let u := { s with rows := [(0, row)], tenants := [] }
    let b := { on (core ctx []) with rows := [(0, row)], cores := [(2, core ctx [])] }
    s.frozen = false ∧ ({ s with frozen := true } : State).frozen = true ∧ getCtx (on (core ctx [])) (ctxId 0 0) = some ctx ∧ 0x1000 < 2 ^ 39 ∧
    (getRow s 0).pending = [] ∧ (getRow u 0).pending = [2] ∧ remapPoint u 0 = true ∧ rowOwner u 0 = none ∧ remapPoint b 0 = false ∧
    (List.range 16).find? (fun i => (getRow u 0).physical i == some 2) = some 2 := by decide +kernel
theorem witness_MemoriesKeepForm : MemoriesWf State.reset := by
  refine ⟨rfl, fun _ => rfl, ?_⟩
  simp [State.reset]

/-! ## Results of single words, worked out by hand from the spec's tables -/

def result (i : Instr) (xs : List (Nat × Word)) (r : Nat) : Option Word :=
  match exec i (on (core ctx xs)) with | .next t => (amGet (getCore t 0).rf r).map (·.val) | _ => none
def pcAfter (i : Instr) (xs : List (Nat × Word)) : Option Word :=
  match exec i (on (core ctx xs)) with | .next t => (getCtx t 0).map (·.pc) | _ => none
theorem test_add_wraps : result (.add false 3 1 2) [(1, 0xFFFFFFFFFFFFFFFF), (2, 2)] 3 = some 1 := by decide
theorem test_sub_order : result (.sub false 3 1 2) [(1, 5), (2, 7)] 3 = some 0xFFFFFFFFFFFFFFFE := by decide
theorem test_sra_amount : result (.sra false 3 1 2) [(1, 0x8000000000000000), (2, 65)] 3 = some 0xC000000000000000 := by decide
theorem test_mulhsu : result (.mulhsu false 3 1 2) [(1, 0xFFFFFFFFFFFFFFFF), (2, 0xFFFFFFFFFFFFFFFF)] 3 = some 0xFFFFFFFFFFFFFFFF := by decide
theorem test_div_zero : result (.div false 3 1 2) [(1, 5), (2, 0)] 3 = some 0xFFFFFFFFFFFFFFFF := by decide
theorem test_div_overflow : result (.div false 3 1 2) [(1, 0x8000000000000000), (2, 0xFFFFFFFFFFFFFFFF)] 3 = some 0x8000000000000000 := by decide
theorem test_rem_sign : result (.rem false 3 1 2) [(1, 0xFFFFFFFFFFFFFFF9), (2, 2)] 3 = some 0xFFFFFFFFFFFFFFFF := by decide
theorem test_clz : result (.clz false 3 1) [(1, 1)] 3 = some 63 := by decide
theorem test_register_zero : result (.add false 0 1 2) [(1, 5), (2, 7)] 0 = none := by decide
theorem test_source_is_destination : result (.mul false 1 1 1) [(1, 3)] 1 = some 9 := by decide
theorem test_pc_advances : pcAfter (.add false 3 1 2) [(1, 5), (2, 7)] = some 0x10004 := by decide
theorem test_w_form : result (.add true 3 1 2) [(1, 5), (2, 7)] 3 = some 12 := by decide

/-- R212, worked by hand: a segment of span 4 restored where a quarantined column lies after its second core. -/
theorem test_segment_repositioned :
    let w := fun (i : Nat) => ({ word := 0, pc := BitVec.ofNat 64 (4 * i), rep := none } : PipeWord)
    let g : Seg :=
      { tslot := 0, vmid := 0, node := none, die := 0, row := 0, index := 0, size := 4, span := 4, allot := 8, pc := 16,
        pipe := [some (w 3), some (w 2), some (w 1), some (w 0)], cores := [(0, 0, 0), (1, 1, 0), (2, 2, 0), (3, 3, 0)] }
    let r := reposition g [0, 1, 3, 4] 5
    r.again = [{ w 1 with first := 4 }, { w 2 with first := 3 }, { w 3 with first := 1 }] ∧
    [0, 1, 2, 3].map (fun p => (coreNext State.reset g p 0).1) = [16, 12, 8, 4] ∧
    [0, 1, 3, 4].map (fun p => (coreNext State.reset r p 0).1) = [16, 12, 8, 4] := by decide +kernel

end Sys2Proof.Tests
end

/-! What the events of requests, walks, fault rings and invalidations do (O54). -/

namespace Sys2Proof.Machine

/-! ## A store leaves its buffer (R17, R105, R131) -/

/-- What a store at the head of its buffer waits for: an access that comes before it, its release, an overtaken load. -/
def StoreWaits (s : State) (n : Nat) (e : SbEntry) : Prop :=
  olderPending s e.ctx e.id false e.loc e.size = true ∨ releaseMet s n e = false ∨ overtakenOver s (dieOf n) e.loc e.size = true

/-- The request that a store of the buffer becomes. -/
def drainedReq (e : SbEntry) (v : Word) : Req :=
  { id := e.id, ctx := e.ctx, vmid := e.page.vmid, op := .store v, va := e.va, size := e.size, loc := e.loc, page := e.page,
    rd := 0, pc := e.pc, repc := e.repc, node := e.node }

theorem storeDrain_empty {s : State} (h : (getCore s s.arg.unit).sbuf = []) : exec .storeDrain s = .next s := by
  rw [exec_storeDrain, execStoreDrain, h]

theorem storeDrain_head {s : State} {e : SbEntry} {rest : List SbEntry} (h : (getCore s s.arg.unit).sbuf = e :: rest) :
    exec .storeDrain s = .next (drainHead s s.arg.unit e rest) := by
  rw [exec_storeDrain, execStoreDrain, h]

theorem drainHead_waits {s : State} {n : Nat} {e : SbEntry} {v : Word} (ho : e.op = .store v) (hw : StoreWaits s n e)
    (rest : List SbEntry) : drainHead s n e rest = s := by
  have h : (olderPending s e.ctx e.id false e.loc e.size || !releaseMet s n e || overtakenOver s (dieOf n) e.loc e.size) = true := by
    rcases hw with h | h | h <;> simp [h]
  simp only [drainHead, ho, h, if_true]

theorem drainHead_leaves {s : State} {n : Nat} {e : SbEntry} {v : Word} (ho : e.op = .store v) (hw : ¬ StoreWaits s n e)
    (rest : List SbEntry) :
    drainHead s n e rest = rewake (modCore { s with reqs := s.reqs ++ [drainedReq e v] } n fun k => { k with sbuf := rest }) n := by
  have h : (olderPending s e.ctx e.id false e.loc e.size || !releaseMet s n e || overtakenOver s (dieOf n) e.loc e.size) = false := by
    simpa [StoreWaits, and_assoc] using hw
  simp only [drainHead, ho, h, Bool.false_eq_true, if_false]
  rfl

theorem storeDrain_waits {s : State} {e : SbEntry} {rest : List SbEntry} {v : Word} (hb : (getCore s s.arg.unit).sbuf = e :: rest)
    (ho : e.op = .store v) (hw : StoreWaits s s.arg.unit e) : exec .storeDrain s = .next s := by
  rw [storeDrain_head hb, drainHead_waits ho hw]

theorem storeDrain_leaves {s : State} {e : SbEntry} {rest : List SbEntry} {v : Word} (hb : (getCore s s.arg.unit).sbuf = e :: rest)
    (ho : e.op = .store v) (hw : ¬ StoreWaits s s.arg.unit e) :
    ∃ t, exec .storeDrain s = .next t ∧
      OnlyContexts (modCore { s with reqs := s.reqs ++ [drainedReq e v] } s.arg.unit fun k => { k with sbuf := rest }) t :=
  ⟨_, (storeDrain_head hb).trans (congrArg _ (drainHead_leaves ho hw rest)), rewake_only ..⟩

/-! ## An access at its home (R111, R130, R307, R344) -/

theorem sliceRequest_notReady {s : State} {r : Req} (hf : s.reqs.find? (fun x => x.id == s.arg.id) = some r)
    (h : reqReady s r = false) : exec .sliceRequest s = .next s := by
  simp [exec_sliceRequest, execSliceRequest, hf, h]

/-- A request that is ready, of a place in the package with a place and a frame, is performed there or held by its channel. -/
theorem sliceRequest_ready {s v : State} {r : Req} {l l' : Loc} {p : Page} (hf : s.reqs.find? (fun x => x.id == s.arg.id) = some r)
    (hi : leavesPackage s r.loc = false) (ho : ownPlace s (reqSlot s r) r.loc (opWrites r.op) = .ok l)
    (hv : frameNow s (reqSlot s r) l r.page (opWrites r.op) = ((l', p), v)) (h : reqReady s r = true) :
    exec .sliceRequest s = .next (if r.admitted || channelFree v (dieOf (coreOf r.ctx)) l' p r.size then performReq v r l' p s.arg.v
      else countHold v (dieOf (coreOf r.ctx)) l' p r.size) := by
  simp only [exec_sliceRequest, execSliceRequest, hf, h, hi, serveReq, linkDown_inside hi, ho, hv, Bool.not_true, Bool.false_and,
    Bool.false_eq_true, if_false]

theorem frameNow_free {s v : State} {t : Nat} {l : Loc} {p : Page} {w : Bool} {x : Loc × Page} (h : frameNow s t l p w = (x, v)) :
    v = { s with free := v.free } := by
  have hr := frameNow_rest s t l p w
  rw [h] at hr
  exact hr

/-- An access performed after its frame was chosen: its line is met, which only counts, then its operation is done and answered. -/
theorem performReq_placed {s v : State} (r : Req) (l : Loc) (p : Page) (ext : Word) (hv : v = { s with free := v.free }) :
    ∃ w, OnlyCounts s w ∧ (∀ f, getField w (reqSlot s r) f = getField s (reqSlot s r) f) ∧
      performReq v r l p ext =
        answerReq (performOp w (dieOf (coreOf r.ctx)) (reqSlot s r) l r.op r.size ext p).2 r l
          (performOp w (dieOf (coreOf r.ctx)) (reqSlot s r) l r.op r.size ext p).1 := by
  have hc : OnlyCounts s v := by rw [hv]; rfl
  have hs : reqSlot v r = reqSlot s r := by rw [hv]; rfl
  refine ⟨touchLine (!r.admitted) v (dieOf (coreOf r.ctx)) l p (opAcc r.op) r.size, hc.trans (touchLine_rest ..), fun f => ?_, ?_⟩
  · rw [getField_touchLine, hv]; rfl
  · rw [← hs]; exact performReq_eq rfl

section
variable {s v : State} {r : Req} {l l' : Loc} {p : Page}

/-- A ready access that its channel holds is counted there, and nothing more. -/
theorem sliceRequest_held (hf : s.reqs.find? (fun x => x.id == s.arg.id) = some r) (hi : leavesPackage s r.loc = false)
    (ho : ownPlace s (reqSlot s r) r.loc (opWrites r.op) = .ok l)
    (hv : frameNow s (reqSlot s r) l r.page (opWrites r.op) = ((l', p), v)) (h : reqReady s r = true) (ha : r.admitted = false)
    (hc : channelFree v (dieOf (coreOf r.ctx)) l' p r.size = false) : ∃ t, exec .sliceRequest s = .next t ∧ OnlyCounts s t := by
  have hx := sliceRequest_ready hf hi ho hv h
  rw [ha, hc] at hx
  have hs : OnlyCounts s v := by rw [frameNow_free hv]; rfl
  exact ⟨_, hx, hs.trans (countHold_counts ..)⟩

/-- A ready access that its channel has admitted, or does not hold, is performed. -/
theorem sliceRequest_performed (hf : s.reqs.find? (fun x => x.id == s.arg.id) = some r) (hi : leavesPackage s r.loc = false)
    (ho : ownPlace s (reqSlot s r) r.loc (opWrites r.op) = .ok l)
    (hv : frameNow s (reqSlot s r) l r.page (opWrites r.op) = ((l', p), v)) (h : reqReady s r = true)
    (hc : r.admitted = true ∨ channelFree v (dieOf (coreOf r.ctx)) l' p r.size = true) :
    exec .sliceRequest s = .next (performReq v r l' p s.arg.v) := by
  rw [sliceRequest_ready hf hi ho hv h, if_pos (by simpa using hc)]
end

/-! ## A result (R70) -/

theorem resultReturn_done {s : State} {r : Req} (hf : s.reqs.find? (fun x => x.id == s.arg.id) = some r) (hd : r.done = true) :
    exec .resultReturn s = .next (returnReq s r) := by
  simp only [exec_resultReturn, execResultReturn, hf, hd, if_true]

theorem writeReg_some {s : State} {id : Nat} {c : Ctx} {d : Reg} (hc : getCtx s id = some c) (hd : d ≠ 0) (v : Word) :
    writeReg s id d v =
      modCore s (coreOf id) fun k => { k with rf := amSet k.rf (c.base + d.toNat) { val := v, full := true, poison := false } } := by
  simp only [writeReg, putReg, if_neg hd, hc]

/-- A load that fills no line, with its value sound, comes back as its value and no more. -/
theorem returnReq_load {s : State} {r : Req} {c : Ctx} {z : Nat} {fill : Bool} (ho : r.op = .load z fill) (hp : r.poison = false)
    (hk : r.rlink = false) (hl : r.line = []) (hc : getCtx s r.ctx = some c) :
    returnReq s r = rewake (writeReg (dropReq s r.id) r.ctx r.rd r.value) (coreOf r.ctx) := by
  have hc' : getCtx (dropReq s r.id) r.ctx = some c := hc
  simp [returnReq, ho, hp, hk, hc', fillL1, hl]

theorem resultReturn_load {s : State} {r : Req} {c : Ctx} {z : Nat} {fill : Bool}
    (hf : s.reqs.find? (fun x => x.id == s.arg.id) = some r) (hd : r.done = true) (ho : r.op = .load z fill) (hp : r.poison = false)
    (hk : r.rlink = false) (hl : r.line = []) (hr : r.rd ≠ 0) (hc : getCtx s r.ctx = some c) :
    ∃ t, exec .resultReturn s = .next t ∧ t.mem = s.mem ∧ t.reqs = s.reqs.filter (fun x => x.id != r.id) ∧
      (getCore t (coreOf r.ctx)).rf =
        amSet (getCore s (coreOf r.ctx)).rf (c.base + r.rd.toNat) { val := r.value, full := true, poison := false } := by
  have hc' : getCtx (dropReq s r.id) r.ctx = some c := hc
  refine ⟨_, resultReturn_done hf hd, ?_⟩
  rw [returnReq_load ho hp hk hl hc, writeReg_some hc' hr]
  refine ⟨(rewake_only ..).mem, (rewake_only ..).reqs, ?_⟩
  rw [rewake_rf, getCore_modCore, if_pos rfl]
  rfl

/-! ## Admission at a channel (R344) -/

theorem rateLimitAdmit_use {s : State} {r : Req} {ch m : Nat} (hf : s.reqs.find? (fun x => x.id == s.arg.id) = some r)
    (ha : r.admitted = false) (hd : r.done = false) (hu : channelUse s (dieOf (coreOf r.ctx)) r.loc r.page r.size = some (ch, m)) :
    exec .rateLimitAdmit s = .next (if !tokensFree s (pageSlot s r.page) ch then countHold s (dieOf (coreOf r.ctx)) r.loc r.page r.size
      else { spend s (pageSlot s r.page) ch m with reqs := s.reqs.map fun y => if y.id = r.id then { y with admitted := true } else y }) := by
  simp only [exec_rateLimitAdmit, execRateLimitAdmit, hf, ha, hd, hu, Bool.or_self, Bool.false_eq_true, if_false, updWhere_reqId]

theorem tokensFree_unlimited {s : State} {t : Nat} (h : (getTenant s t).rate = 0) (ch : Nat) : tokensFree s t ch = true := by
  simp [tokensFree, h]

theorem tokensFree_limited {s : State} {t : Nat} (h : (getTenant s t).rate ≠ 0) (ch : Nat) :
    tokensFree s t ch = decide (0 ≤ tokensNow s t ch) := by
  have hr : ((getTenant s t).rate == 0) = false := beq_eq_false_iff_ne.2 h
  simp only [tokensFree, hr, Bool.false_or]

theorem spend_limited {s : State} {t : Nat} (h : (getTenant s t).rate ≠ 0) (ch n : Nat) :
    spend s t ch n = setTenant s t { getTenant s t with
      tokens := amSet (getTenant s t).tokens ch
        (max (tokensNow s t ch - n * 1000) (-((getTenant s t).burst.toNat * 1000 : Int)), s.time.toNat) } := by
  simp only [spend, if_neg h]

section
variable {s : State} {r : Req} {ch m : Nat}

theorem rateLimitAdmit_unlimited (hf : s.reqs.find? (fun x => x.id == s.arg.id) = some r) (ha : r.admitted = false)
    (hd : r.done = false) (hu : channelUse s (dieOf (coreOf r.ctx)) r.loc r.page r.size = some (ch, m))
    (hr : (getTenant s (pageSlot s r.page)).rate = 0) :
    exec .rateLimitAdmit s = .next { s with reqs := s.reqs.map fun y => if y.id = r.id then { y with admitted := true } else y } := by
  have h := rateLimitAdmit_use hf ha hd hu
  rw [tokensFree_unlimited hr, spend_unlimited hr] at h
  exact h

/-- A tenant whose count is not negative is charged the bytes, down to its burst below zero. -/
theorem rateLimitAdmit_charged (hf : s.reqs.find? (fun x => x.id == s.arg.id) = some r) (ha : r.admitted = false)
    (hd : r.done = false) (hu : channelUse s (dieOf (coreOf r.ctx)) r.loc r.page r.size = some (ch, m))
    (hr : (getTenant s (pageSlot s r.page)).rate ≠ 0) (ht : 0 ≤ tokensNow s (pageSlot s r.page) ch) :
    exec .rateLimitAdmit s = .next { spend s (pageSlot s r.page) ch m with
      reqs := s.reqs.map fun y => if y.id = r.id then { y with admitted := true } else y } := by
  have h := rateLimitAdmit_use hf ha hd hu
  rw [tokensFree_limited hr, decide_eq_true ht] at h
  exact h

theorem rateLimitAdmit_held (hf : s.reqs.find? (fun x => x.id == s.arg.id) = some r) (ha : r.admitted = false)
    (hd : r.done = false) (hu : channelUse s (dieOf (coreOf r.ctx)) r.loc r.page r.size = some (ch, m))
    (hr : (getTenant s (pageSlot s r.page)).rate ≠ 0) (ht : tokensNow s (pageSlot s r.page) ch < 0) :
    ∃ u, exec .rateLimitAdmit s = .next u ∧ OnlyCounts s u := by
  have h := rateLimitAdmit_use hf ha hd hu
  rw [tokensFree_limited hr, decide_eq_false (by omega)] at h
  exact ⟨_, h, countHold_counts ..⟩
end

/-! ## A walk (R90, R307, R344) -/

/-- The walk `w` has found its page. -/
def withPage (w : Walk) (p : Page) (v : State) : State :=
  { v with walks := v.walks.map fun x => if x.id = w.id then { x with page := some p } else x }

theorem walkAnswered_ok (s : State) (t : Nat) (w : Walk) (p : Page) : walkAnswered s t w (.ok p) = withPage w p s := by
  unfold walkAnswered withPage
  dsimp only
  rw [updWhere_id _ (fun x : Walk => x.id = w.id) _ _ fun x => by simp only [BEq.beq]]

theorem stage1Walk_over {s : State} {w : Walk} (hf : s.walks.find? (fun x => x.id == s.arg.id) = some w)
    (h : w.page ≠ none ∨ w.token ≠ none) : exec .stage1Walk s = .next s := by
  have h' : (w.page.isSome || w.token.isSome) = true := by simpa [Option.isSome_iff_ne_none] using h
  simp only [exec_stage1Walk, execStage1Walk, hf, h', if_true]

theorem stage1Walk_step {s : State} {w : Walk} (hf : s.walks.find? (fun x => x.id == s.arg.id) = some w)
    (hp : w.page = none) (ht : w.token = none) : exec .stage1Walk s = .next (walkStep s w) := by
  simp [exec_stage1Walk, execStage1Walk, hf, hp, ht]

theorem walkStep_cached {s v : State} {w : Walk} {x : S1} {p : Page} (hx : s.s1cache.find? (fun x => x.covers w.vmid w.va) = some x)
    (hl : fromLeaf s ((slotOfVmid s w.vmid).getD 0) w.va x.leaf = (.ok p, v)) : walkStep s w = withPage w p v := by
  simp only [walkStep, hx, hl, walkAnswered_ok]

theorem walkStep_held {s : State} {w : Walk} (hx : s.s1cache.find? (fun x => x.covers w.vmid w.va) = none)
    (h : walkHeld s ((slotOfVmid s w.vmid).getD 0) w.va = true) : walkStep s w = s := by
  simp only [walkStep, hx, h, if_true]

/-- A walk that reads the tables keeps the stage-1 result, its ZERO cleared. -/
theorem walkStep_read {s v : State} {w : Walk} {l : Leaf} {p : Page} (hx : s.s1cache.find? (fun x => x.covers w.vmid w.va) = none)
    (h : walkHeld s ((slotOfVmid s w.vmid).getD 0) w.va = false)
    (h1 : stage1 s (getTenant s ((slotOfVmid s w.vmid).getD 0)) w.va = .ok l)
    (hl : fromLeaf (chargeWalk s ((slotOfVmid s w.vmid).getD 0) w.va) ((slotOfVmid s w.vmid).getD 0) w.va l = (.ok p, v)) :
    walkStep s w = withPage w p { v with
      s1cache := v.s1cache ++ [{ vmid := w.vmid, va := w.va, leaf := { l with entry := l.entry &&& ~~~(1 <<< 54 : Word) } }] } := by
  simp only [walkStep, hx, h, Bool.false_eq_true, if_false, h1, hl, walkAnswered_ok]

/-! ## A page check cache filled (R90) -/

/-- The entries of a page check cache that a page does not take the place of. -/
def otherEntries (s : State) (core : Nat) (p : Page) : List Page :=
  (getCore s core).pcc.filter fun q => !(q.vmid == p.vmid && q.va == p.va && q.size == p.size)

theorem pageCheckFill_waiting {s : State} {w : Walk} (hf : s.walks.find? (fun x => x.id == s.arg.id) = some w) (hp : w.page = none) :
    exec .pageCheckFill s = .next s := by
  simp only [exec_pageCheckFill, execPageCheckFill, hf, hp]

theorem pageCheckFill_found {s : State} {w : Walk} {p : Page} (hf : s.walks.find? (fun x => x.id == s.arg.id) = some w)
    (hp : w.page = some p) : exec .pageCheckFill s = .next (endWalk (fillEntry s w.core p) w) := by
  simp only [exec_pageCheckFill, execPageCheckFill, hf, hp]

theorem fillEntry_room {s : State} {core : Nat} {p : Page} (h : (otherEntries s core p).length < 64) :
    fillEntry s core p = modCore s core fun k => { k with pcc := otherEntries s core p ++ [p] } :=
  if_pos h

/-- A full cache loses one of its 64 entries to the page. -/
theorem fillEntry_full {s : State} {core : Nat} {p : Page} (h : (otherEntries s core p).length = 64) :
    ∃ i < 64, fillEntry s core p =
      modCore { s with free := s.free + 1 } core fun k => { k with pcc := (otherEntries s core p).eraseIdx i ++ [p] } := by
  have hi : (takeFree s).1.toNat % 64 < 64 := Nat.mod_lt _ (by decide)
  refine ⟨_, hi, ?_⟩
  have hn : ¬ (otherEntries s core p).length < 64 := by omega
  have hk : ((otherEntries s core p).eraseIdx ((takeFree s).1.toNat % 64)).take 63 =
      (otherEntries s core p).eraseIdx ((takeFree s).1.toNat % 64) :=
    List.take_of_length_le (by rw [List.length_eraseIdx_of_lt (by omega), h])
  refine (if_neg hn).trans ?_
  change modCore { s with free := s.free + 1 } core (fun k =>
    { k with pcc := ((otherEntries s core p).eraseIdx ((takeFree s).1.toNat % (otherEntries s core p).length)).take 63 ++ [p] }) = _
  rw [h, hk]

/-- The context that waits for a walk goes on with the entry in place. -/
theorem endWalk_filled {s v : State} {w : Walk} {id : Nat} {c : Ctx} (hv : v = { s with free := v.free }) (hw : w.ctx = some id)
    (hc : getCtx s id = some c) (hs : c.status = .parked (.page w.id)) (core : Nat) (l : List Page) :
    let t := endWalk (modCore v core fun k => { k with pcc := l }) w
    t.mem = s.mem ∧ t.walks = s.walks.filter (fun x => x.id != w.id) ∧ (getCore t core).pcc = l ∧
      getCtx t id = some { c with status := .ready } := by
  intro t
  have hg : getCtx (modCore v core fun k => { k with pcc := l }) id = some c := by
    rw [getCtx_modCore _ _ _ rfl, hv]; exact hc
  have ht : t = setCtx { modCore v core (fun k => { k with pcc := l }) with
      walks := v.walks.filter fun x => x.id != w.id } id { c with status := .ready } := endWalk_ready hw hg hs
  have ho := setCtx_only { modCore v core (fun k => { k with pcc := l }) with walks := v.walks.filter fun x => x.id != w.id } id
    { c with status := .ready }
  rw [ht]
  refine ⟨?_, ?_, ?_, ?_⟩
  · rw [ho.mem, hv]; rfl
  · rw [ho.walks, hv]
  · rw [ho.pcc]
    exact congrArg Core.pcc ((getCore_modCore v core core fun k => { k with pcc := l }).trans (if_pos rfl))
  · rw [getCtx_setCtx, if_pos rfl]

section
variable {s : State} {w : Walk} {p : Page} {id : Nat} {c : Ctx}

theorem pageCheckFill_room (hf : s.walks.find? (fun x => x.id == s.arg.id) = some w) (hp : w.page = some p) (hw : w.ctx = some id)
    (hc : getCtx s id = some c) (hs : c.status = .parked (.page w.id)) (h : (otherEntries s w.core p).length < 64) :
    ∃ t, exec .pageCheckFill s = .next t ∧ t.mem = s.mem ∧ t.walks = s.walks.filter (fun x => x.id != w.id) ∧
      (getCore t w.core).pcc = otherEntries s w.core p ++ [p] ∧ getCtx t id = some { c with status := .ready } := by
  refine ⟨_, pageCheckFill_found hf hp, ?_⟩
  rw [fillEntry_room h]
  exact endWalk_filled rfl hw hc hs ..

theorem pageCheckFill_full (hf : s.walks.find? (fun x => x.id == s.arg.id) = some w) (hp : w.page = some p) (hw : w.ctx = some id)
    (hc : getCtx s id = some c) (hs : c.status = .parked (.page w.id)) (h : (otherEntries s w.core p).length = 64) :
    ∃ i < 64, ∃ t, exec .pageCheckFill s = .next t ∧ t.mem = s.mem ∧ t.walks = s.walks.filter (fun x => x.id != w.id) ∧
      (getCore t w.core).pcc = (otherEntries s w.core p).eraseIdx i ++ [p] ∧ getCtx t id = some { c with status := .ready } := by
  obtain ⟨i, hi, he⟩ := fillEntry_full h
  refine ⟨i, hi, _, pageCheckFill_found hf hp, ?_⟩
  rw [he]
  exact endWalk_filled rfl hw hc hs ..
end

/-! ## The words of a fault ring (R300 to R302) -/

theorem fringHeadWrite_none {s : State} {f : FaultWords} (hf : getFaults s (argRing s) = f) (hw : f.waiting = []) :
    exec .fringHeadWrite s = .next (setFaults s (argRing s) { f with head := s.arg.v.extractLsb' 32 32 }) := by
  simp only [exec_fringHeadWrite, execFringHeadWrite, hf, hw, List.length_nil, writeWaiting]

theorem setFaults_walks (s : State) (r : RingId) (f : FaultWords) : (setFaults s r f).walks = s.walks := by rw [setFaults_rest]

/-- The ring has no waiter left and the package no walk. -/
def withoutWaiters (s : State) (r : RingId) (f : FaultWords) : State := { setFaults s r { f with waiters := [] } with walks := [] }

theorem OnlyContexts.noWaiters {s t : State} {r : RingId} {f : FaultWords} (h : OnlyContexts (withoutWaiters s r f) t) :
    t.mem = s.mem ∧ t.walks = [] ∧ (getFaults t r).waiters = [] := by
  refine ⟨?_, h.walks, ?_⟩
  · rw [h.mem, withoutWaiters, setFaults_rest]
  · rw [h.faults]
    exact congrArg FaultWords.waiters (getFaults_setFaults s r { f with waiters := [] })

theorem resolveReplay_taken {s u : State} {w : Waiter} {a : Word} (h : takeWaiter s (argRing s) s.arg.v 1 = (some (w, a), u)) :
    exec .resolveReplay s = .next (replay u w) := by
  simp only [exec_resolveReplay, execResolveReplay, h]

theorem resolveFail_taken {s u : State} {w : Waiter} {a : Word} (h : takeWaiter s (argRing s) s.arg.v 2 = (some (w, a), u)) :
    exec .resolveFail s = .next (failWaiter u w a) := by
  simp only [exec_resolveFail, execResolveFail, h]

/-- A context outside a handler that has one enters it (R295). -/
theorem takeTrap_handler {s : State} {id : Nat} {c : Ctx} (hc : getCtx s id = some c) (hv : c.tvec ≠ 0)
    (ha : c.tcause.getLsbD 62 = false) (k : Cause) (tval pc : Word) :
    takeTrap s id k tval pc = setCtx s id { c with epc := pc, tval := tval, tcause := causeWord k, pc := c.tvec, status := .ready,
                                                   popped := none, cover := none, portTrap := none } := by
  have hb : bit 62 c.tcause = false := ha
  simp only [takeTrap, hc, hb, decide_eq_false hv, Bool.or_self, Bool.false_eq_true, if_false]

section
variable {s : State} {f : FaultWords} {tok : BitVec 32} {addr : Word} {w : Walk} {id : Nat} {c : Ctx}

/-- The one waiter of the ring is taken and its walk, the only one, ends: its context is READY. -/
theorem endWalk_taken (hs : s.walks = [w]) (hw : w.ctx = some id) (hc : getCtx s id = some c) (hp : c.status = .parked (.page w.id))
    (r : RingId) (f : FaultWords) :
    endWalk (setFaults s r { f with waiters := [] }) w = setCtx (withoutWaiters s r f) id { c with status := .ready } := by
  have hn : [w].filter (fun x => x.id != w.id) = [] := by simp
  rw [endWalk_ready hw (by rw [getCtx_setFaults, hc]) hp, setFaults_walks, hs, hn]
  rfl

theorem find_onlyWalk (hs : s.walks = [w]) (r : RingId) (f : FaultWords) :
    (setFaults s r f).walks.find? (fun x => x.id == w.id) = some w := by simp [setFaults_walks, hs]

theorem resolveReplay_walk (hf : getFaults s (argRing s) = f) (ht : f.waiters = [(tok, (.walk w.id, addr))]) (hs : s.walks = [w])
    (hw : w.ctx = some id) (hc : getCtx s id = some c) (hp : c.status = .parked (.page w.id)) (hv : s.arg.v = 1#2 ++ 0#30 ++ tok) :
    ∃ t, exec .resolveReplay s = .next t ∧ t.mem = s.mem ∧ t.walks = [] ∧ (getFaults t (argRing s)).waiters = [] ∧
      getCtx t id = some { c with status := .ready } := by
  have htake : takeWaiter s (argRing s) s.arg.v 1 = (some (.walk w.id, addr), setFaults s (argRing s) { f with waiters := [] }) := by
    rw [hv]; exact takeWaiter_one hf ht
  have ho := setCtx_only (withoutWaiters s (argRing s) f) id { c with status := .ready }
  obtain ⟨hmem, hwalks, hring⟩ := ho.noWaiters
  refine ⟨_, (resolveReplay_taken htake).trans ?_, hmem, hwalks, hring, ?_⟩
  · simp only [replay, find_onlyWalk hs, endWalk_taken hs hw hc hp]
  · rw [getCtx_setCtx, if_pos rfl]

theorem resolveFail_walk (hf : getFaults s (argRing s) = f) (ht : f.waiters = [(tok, (.walk w.id, addr))]) (hs : s.walks = [w])
    (hw : w.ctx = some id) (hg : w.seg = none) (hc : getCtx s id = some c) (hp : c.status = .parked (.page w.id))
    (hv : s.arg.v = 2#2 ++ 0#30 ++ tok) (hh : c.tvec ≠ 0) (ha : c.tcause.getLsbD 62 = false) :
    ∃ t, exec .resolveFail s = .next t ∧ t.mem = s.mem ∧ t.walks = [] ∧ (getFaults t (argRing s)).waiters = [] ∧
      getCtx t id = some { c with status := .ready, pc := c.tvec, epc := w.pc, tval := addr, tcause := causeWord .pfault,
                                  popped := none, cover := none, portTrap := none } := by
  have htake : takeWaiter s (argRing s) s.arg.v 2 = (some (.walk w.id, addr), setFaults s (argRing s) { f with waiters := [] }) := by
    rw [hv]; exact takeWaiter_one hf ht
  have hready : getCtx (setCtx (withoutWaiters s (argRing s) f) id { c with status := .ready }) id = some { c with status := .ready } := by
    rw [getCtx_setCtx, if_pos rfl]
  have htrap := takeTrap_handler hready hh ha .pfault addr w.pc
  have ho := (setCtx_only (withoutWaiters s (argRing s) f) id { c with status := .ready }).trans (setCtx_only _ id
    { c with epc := w.pc, tval := addr, tcause := causeWord .pfault, pc := c.tvec, status := .ready, popped := none, cover := none,
             portTrap := none })
  obtain ⟨hmem, hwalks, hring⟩ := ho.noWaiters
  refine ⟨_, (resolveFail_taken htake).trans ?_, hmem, hwalks, hring, ?_⟩
  · simp only [failWaiter, failWalk, find_onlyWalk hs, endWalk_taken hs hw hc hp, hg, hw, htrap]
  · rw [getCtx_setCtx, if_pos rfl]
end

/-! ## A fault at a peer (R354) -/

theorem remoteFaultResolved_retry {s : State} (h : s.arg.flag = true) : exec .remoteFaultResolved s = .next s := by
  simp only [exec_remoteFaultResolved, execRemoteFaultResolved, h, if_true]

theorem remoteFaultResolved_fail {s : State} {r : Req} {d o : Nat} (h : s.arg.flag = false) (hs : s.reqs = [r]) (hi : r.id = s.arg.id)
    (hd : r.done = false) (hl : r.loc = .remote d o) : exec .remoteFaultResolved s = .next (remoteFailed s r) := by
  simp [exec_remoteFaultResolved, execRemoteFaultResolved, failWaiter, h, hs, hi, hd, hl]

theorem setCtx_setCtx (s : State) (id : Nat) (a b : Ctx) : setCtx (setCtx s id a) id b = setCtx s id b := by
  simp only [setCtx, modCore, getCore_setCore_same, setCore_setCore, amSet_amSet]

theorem modCtx_setCtx (s : State) (id : Nat) (c : Ctx) (f : Ctx → Ctx) : modCtx (setCtx s id c) id f = setCtx s id (f c) := by
  rw [modCtx_some (by rw [getCtx_setCtx, if_pos rfl]), setCtx_setCtx]

/-- A context that waits for a request, or for nothing, is READY once it waits no more. -/
theorem unstall_ready {s : State} {r : Req} {c : Ctx} (hc : getCtx s r.ctx = some c)
    (h : c.status = .ready ∨ c.status = .parked (.page r.id)) : unstall s r = setCtx s r.ctx { c with status := .ready } := by
  rw [unstall, modCtx_some hc]
  rcases h with h | h
  · rw [if_neg (by rw [h]; exact nofun)]
    exact congrArg (setCtx s r.ctx) (by rw [← h])
  · rw [if_pos h]

/-- A store given up: its context is READY at its word, and traps before the next (R298, R354). -/
theorem remoteFailed_store {s : State} {r : Req} {v : Word} {c : Ctx} (ho : r.op = .store v) (hc : getCtx s r.ctx = some c)
    (hb : c.stream = false) (h : c.status = .ready ∨ c.status = .parked (.page r.id)) :
    remoteFailed s r = rewake (setCtx (dropReq s r.id) r.ctx
      { c with status := .ready, pc := r.pc, repc := r.repc, pend := c.pend ++ [(BitVec.ofNat 8 Cause.pfault.code, r.va)] })
      (coreOf r.ctx) := by
  have hc' : getCtx (dropReq s r.id) r.ctx = some c := hc
  simp [remoteFailed, unstall_ready hc' h, isStore, ho, modCtx_setCtx, pendTrap, hb]

theorem remoteFaultResolved_store {s : State} {r : Req} {v : Word} {c : Ctx} {d o : Nat} (hf : s.arg.flag = false) (hs : s.reqs = [r])
    (hi : r.id = s.arg.id) (hd : r.done = false) (hl : r.loc = .remote d o) (ho : r.op = .store v) (hc : getCtx s r.ctx = some c)
    (hb : c.stream = false) (h : c.status = .ready ∨ c.status = .parked (.page r.id)) :
    ∃ t, exec .remoteFaultResolved s = .next t ∧ t.mem = s.mem ∧ t.reqs = [] ∧
      getCtx t r.ctx = some { c with status := .ready, pc := r.pc, repc := r.repc,
                                     pend := c.pend ++ [(BitVec.ofNat 8 Cause.pfault.code, r.va)] } := by
  have hn : (dropReq s r.id).reqs = [] := by simp [dropReq, hs]
  refine ⟨_, remoteFaultResolved_fail hf hs hi hd hl, ?_⟩
  rw [remoteFailed_store ho hc hb h]
  refine ⟨(rewake_only ..).mem, (rewake_only ..).reqs.trans hn, rewake_ready ?_ rfl⟩
  rw [getCtx_setCtx, if_pos rfl]

/-! ## An invalidation (R310, R349) -/

section
variable {s u : State} {x : Tlbi} {id : Nat} {c : Ctx}

theorem find_onlyTlbi (hs : s.tlbis = [x]) (hi : x.id = s.arg.id) : s.tlbis.find? (fun t => t.id == s.arg.id) = some x := by simp [hs, hi]

theorem tlbiComplete_waits (hs : s.tlbis = [x]) (hi : x.id = s.arg.id) (h : tlbiStep s x = (u, false)) :
    exec .tlbiComplete s = .next u := by
  simp only [exec_tlbiComplete, execTlbiComplete, find_onlyTlbi hs hi, h, Bool.not_false, Bool.true_or, if_true]

theorem tlbiComplete_wakes (hs : s.tlbis = [x]) (hi : x.id = s.arg.id) (h : tlbiStep s x = (u, true)) (hop : x.op ≤ 3)
    (hx : x.ctx = some id) (hc : getCtx u id = some c) (hh : c.status = .held (.tlbi x.id)) :
    exec .tlbiComplete s = .next (setCtx { u with tlbis := u.tlbis.filter fun y => y.id != x.id } id { c with status := .ready }) := by
  have h6 : x.op ≠ 6 := by omega
  have hc' : getCtx { u with tlbis := u.tlbis.filter fun y => y.id != x.id } id = some c := hc
  simp only [exec_tlbiComplete, execTlbiComplete, find_onlyTlbi hs hi, h, Bool.not_true, Bool.false_or, decide_eq_false h6,
    Bool.false_eq_true, if_false, hx, hc', hh, if_true, wake, modCtx_some hc']

theorem tlbiComplete_host (hs : s.tlbis = [x]) (hi : x.id = s.arg.id) (h : tlbiStep s x = (u, true)) (hop : x.op ≤ 3)
    (hx : x.ctx = none) :
    exec .tlbiComplete s = .next { u with tlbis := u.tlbis.filter fun y => y.id != x.id, invBusy := false } := by
  have h6 : x.op ≠ 6 := by omega
  simp only [exec_tlbiComplete, execTlbiComplete, find_onlyTlbi hs hi, h, Bool.not_true, Bool.false_or, decide_eq_false h6,
    Bool.false_eq_true, if_false, hx, hop, if_true]

theorem tlbiStep_sent (h : x.sent = true) : tlbiStep s x = (s, !usesDropped s x) := by
  simp [tlbiStep, h]

/-- One that is sent waits for what used the entries that it dropped. -/
theorem tlbiComplete_used (hs : s.tlbis = [x]) (hi : x.id = s.arg.id) (ht : x.sent = true) (hu : usesDropped s x = true) :
    exec .tlbiComplete s = .next s :=
  tlbiComplete_waits hs hi (by rw [tlbiStep_sent ht, hu]; rfl)

theorem tlbiComplete_over (hs : s.tlbis = [x]) (hi : x.id = s.arg.id) (ht : x.sent = true) (hx : x.ctx = some id)
    (hc : getCtx s id = some c) (hh : c.status = .held (.tlbi x.id)) (hop : x.op ≤ 3) (hu : usesDropped s x = false) :
    ∃ t, exec .tlbiComplete s = .next t ∧ t.mem = s.mem ∧ t.tlbis = [] ∧ getCtx t id = some { c with status := .ready } := by
  have hn : s.tlbis.filter (fun y => y.id != x.id) = [] := by simp [hs]
  refine ⟨_, tlbiComplete_wakes hs hi (by rw [tlbiStep_sent ht, hu]; rfl) hop hx hc hh, (setCtx_only ..).mem, ?_, ?_⟩
  · exact (setCtx_only ..).tlbis.trans hn
  · rw [getCtx_setCtx, if_pos rfl]

/-- An invalidation as it is sent. -/
def sentTlbi (s : State) (x : Tlbi) : Tlbi := { x with sent := true, upto := s.nextId }

/-- The entries dropped as an invalidation is sent, which waits from then on for what came before. -/
def sendTlbi (s : State) (x : Tlbi) : State :=
  dropEntries { s with tlbis := updWhere (fun y => y.id == x.id) (fun _ => sentTlbi s x) s.tlbis } (sentTlbi s x)

theorem tlbiStep_sends (h : x.sent = false) (hx : x.ctx = none) :
    tlbiStep s x = (sendTlbi s x, !usesDropped (sendTlbi s x) (sentTlbi s x)) := by
  simp [tlbiStep, h, hx, sendTlbi, sentTlbi]

/-- `tlbi.all` drops every translation that a core or a slice holds. -/
theorem dropEntries_all (h : x.op = 3) : (dropEntries s x).mem = s.mem ∧ (dropEntries s x).tlbis = s.tlbis ∧
    (dropEntries s x).s1cache = [] ∧ ∀ j, (getCore (dropEntries s x) j).pcc = [] := by
  have hp : ∀ p, x.drops p = true := fun p => by simp [Tlbi.drops, h]
  have h1 : ∀ y, x.dropsS1 y = true := fun y => by simp [Tlbi.dropsS1, h]
  have hl : tlbiLines s x = s := by simp [tlbiLines, h]
  have hcores : (dropEntries s x).cores = s.cores.map fun e => (e.1, { e.2 with pcc := [] }) := by simp [dropEntries, hl, hp, h]
  refine ⟨?_, ?_, ?_, fun j => ?_⟩
  · rw [dropEntries, hl]
  · rw [dropEntries, hl]
  · simp [dropEntries, h1]
  · rw [getCore, amGetD, hcores, amGet_mapVal fun k : Core => { k with pcc := [] }]
    cases amGet s.cores j <;> rfl

/-- What uses a translation does not turn on the entries that are dropped. -/
theorem usesDropped_dropEntries (h : x.op = 3) (y : Tlbi) : usesDropped (dropEntries s x) y = usesDropped s y := by
  have hl : tlbiLines s x = s := by simp [tlbiLines, h]
  simp [usesDropped, dropEntries, hl, List.any_map, Function.comp_def]

theorem tlbiComplete_all (hs : s.tlbis = [x]) (hi : x.id = s.arg.id) (ht : x.sent = false) (hx : x.ctx = none) (hop : x.op = 3)
    (hu : usesDropped s (sentTlbi s x) = false) :
    ∃ t, exec .tlbiComplete s = .next t ∧ t.mem = s.mem ∧ t.tlbis = [] ∧ t.invBusy = false ∧ t.s1cache = [] ∧
      ∀ j, (getCore t j).pcc = [] := by
  obtain ⟨hmem, htl, hs1, hpcc⟩ := dropEntries_all (s := { s with
    tlbis := updWhere (fun y => y.id == x.id) (fun _ => sentTlbi s x) s.tlbis }) (x := sentTlbi s x) hop
  have hend : usesDropped (sendTlbi s x) (sentTlbi s x) = false := (usesDropped_dropEntries hop _).trans hu
  have hstep := tlbiStep_sends (s := s) ht hx
  rw [hend] at hstep
  refine ⟨_, tlbiComplete_host hs hi hstep (by omega) hx, hmem, ?_, rfl, hs1, hpcc⟩
  change (sendTlbi s x).tlbis.filter _ = []
  rw [show (sendTlbi s x).tlbis = _ from htl]
  simp [updWhere, hs, sentTlbi]
end

/-! ## An order duty that is met (R105) -/

theorem tryOwed_ready {s : State} {id : Nat} {c : Ctx} (hc : getCtx s id = some c) (hr : c.status = .ready) : tryOwed s id = s := by
  simp only [tryOwed, hc, hr]

theorem tryEnd_ready {s : State} {id : Nat} {c : Ctx} (hc : getCtx s id = some c) (hr : c.status = .ready) : tryEnd s id = s := by
  simp only [tryEnd, hc, hr]

theorem dutyMet_acquired {s : State} {c : Ctx} {r : Nat} (hc : getCtx s s.arg.id = some c) (hr : c.status = .ready)
    (hd : c.duties = [.acq r]) (hq : s.reqs.any (fun q => q.id == r) = false) :
    ∃ t, exec .dutyMet s = .next t ∧ t.mem = s.mem ∧ getCtx t s.arg.id = some { c with duties := [] } := by
  have hm : dutyMet s s.arg.id (.acq r) = true := by simp only [dutyMet, hq, Bool.not_false]
  have hmeet : meetDuties s s.arg.id = rewake (setCtx s s.arg.id { c with duties := [] }) (coreOf s.arg.id) := by
    simp [meetDuties, hc, hd, hm, fenceRecord]
  have hg : getCtx (rewake (setCtx s s.arg.id { c with duties := [] }) (coreOf s.arg.id)) s.arg.id = some { c with duties := [] } :=
    rewake_ready (by rw [getCtx_setCtx, if_pos rfl]) hr
  have ho : exec .dutyMet s = .next (rewake (setCtx s s.arg.id { c with duties := [] }) (coreOf s.arg.id)) := by
    rw [exec_dutyMet, execDutyMet, hmeet, tryOwed_ready hg hr, tryEnd_ready hg hr]
  exact ⟨_, ho, (rewake_only ..).mem, hg⟩

/-- Settles O54, clause by clause: the rule of each event for the case that the clause names. -/
theorem memoryEvents : Obligations.MemoryEvents := by
  intro s n
  refine ⟨storeDrain_empty, fun e rest v hb ho => ⟨storeDrain_waits hb ho, storeDrain_leaves hb ho⟩,
    fun r l a p v hf hi hl hv => ⟨sliceRequest_notReady hf, sliceRequest_held hf hi hl hv, fun hr hfree hk => ?performed⟩,
    fun r c z fill hf hd ho hp hk hl hr hc => resultReturn_load hf hd ho hp hk hl hr hc,
    fun r ch m hf ha hd hu => ⟨rateLimitAdmit_unlimited hf ha hd hu, fun hr ht => ?charged, rateLimitAdmit_held hf ha hd hu⟩,
    fun w hf => ⟨stage1Walk_over hf, fun x p v hp ht hx hl => ?cached, fun hp ht hx hh => ?walkHeld,
      fun l p v hp ht hx hh h1 hl => ?walkRead, pageCheckFill_waiting hf,
      fun p id c hp hw hc hs => ⟨pageCheckFill_room hf hp hw hc hs, pageCheckFill_full hf hp hw hc hs⟩⟩,
    fun f hf => ⟨fringHeadWrite_none hf, fun tok addr w id c ht hs hw hg hc hp =>
      ⟨resolveReplay_walk hf ht hs hw hc hp, resolveFail_walk hf ht hs hw hg hc hp⟩⟩,
    remoteFaultResolved_retry,
    fun r v c d o hf hs hi hd hl ho hc hb hw => remoteFaultResolved_store hf hs hi hd hl ho hc hb hw,
    fun x id c hs hi ht hx hc hh hop => ⟨tlbiComplete_used hs hi ht, tlbiComplete_over hs hi ht hx hc hh hop⟩,
    fun x hs hi ht hx hop hu => tlbiComplete_all hs hi ht hx hop hu,
    fun c r hc hr hd hq => dutyMet_acquired hc hr hd hq⟩
  case performed =>
    have hx := sliceRequest_performed hf hi hl hv hr hfree
    obtain ⟨w, hc, hg, hp⟩ := performReq_placed r (.hbm a) p s.arg.v (frameNow_free hv)
    rw [hp] at hx
    simpa only [hx, Host.Outcome.next.injEq] using answerReq_performOp hc hg hk
  case charged => rw [rateLimitAdmit_charged hf ha hd hu hr ht, spend_limited hr]
  case cached => rw [stage1Walk_step hf hp ht, walkStep_cached hx hl]; rfl
  case walkHeld => rw [stage1Walk_step hf hp ht, walkStep_held hx hh]
  case walkRead => rw [stage1Walk_step hf hp ht, walkStep_read hx hh h1 hl]; rfl

end Sys2Proof.Machine

/-! The encoding: both directions of the round trip, the words written out, and the reserved opcodes (O47, O48). -/

namespace Sys2Proof.Laws

/-! ## From an instruction to its word and back (R50 to R58) -/

namespace RoundTrip

/-- Every instruction comes back from its word; the operations and events after the last arm have no word. -/
theorem statement_holds (i : Instr) : Statement i := by
  cases i with
  | add => apply add | sub => apply sub | and => apply and | or => apply or | xor => apply xor | sll => apply sll
  | srl => apply srl | sra => apply sra | slt => apply slt | sltu => apply sltu | min => apply min | max => apply max
  | minu => apply minu | maxu => apply maxu | mul => apply mul | mulh => apply mulh | mulhu => apply mulhu | mulhsu => apply mulhsu
  | div => apply div | divu => apply divu | rem => apply rem | remu => apply remu | home => apply home | clz => apply clz
  | ctz => apply ctz | popc => apply popc | addi => apply addi | andi => apply andi | ori => apply ori | xori => apply xori
  | slli => apply slli | srli => apply srli | srai => apply srai | slti => apply slti | sltiu => apply sltiu | lui => apply lui
  | adpc => apply adpc | ld => apply ld | ldBy => apply ldBy | st => apply st | lds => apply lds | sts => apply sts
  | beq => apply beq | bne => apply bne | blt => apply blt | bge => apply bge | bltu => apply bltu | bgeu => apply bgeu
  | jal => apply jal | jalr => apply jalr | ldAcq => apply ldAcq | stRel => apply stRel | amoAdd => apply amoAdd
  | amoAnd => apply amoAnd | amoOr => apply amoOr | amoXor => apply amoXor | amoSwap => apply amoSwap | amoMin => apply amoMin
  | amoMax => apply amoMax | amoCas => apply amoCas | amoAddAcq => apply amoAddAcq | amoAndAcq => apply amoAndAcq
  | amoOrAcq => apply amoOrAcq | amoXorAcq => apply amoXorAcq | amoSwapAcq => apply amoSwapAcq | amoMinAcq => apply amoMinAcq
  | amoMaxAcq => apply amoMaxAcq | amoCasAcq => apply amoCasAcq | amoAddRel => apply amoAddRel | amoAndRel => apply amoAndRel
  | amoOrRel => apply amoOrRel | amoXorRel => apply amoXorRel | amoSwapRel => apply amoSwapRel | amoMinRel => apply amoMinRel
  | amoMaxRel => apply amoMaxRel | amoCasRel => apply amoCasRel | amoAddAr => apply amoAddAr | amoAndAr => apply amoAndAr
  | amoOrAr => apply amoOrAr | amoXorAr => apply amoXorAr | amoSwapAr => apply amoSwapAr | amoMinAr => apply amoMinAr
  | amoMaxAr => apply amoMaxAr | amoCasAr => apply amoCasAr | amoMinu => apply amoMinu | amoMaxu => apply amoMaxu
  | amoFaddD => apply amoFaddD | amoFaddW => apply amoFaddW | amoFaddH => apply amoFaddH | amoBfadd => apply amoBfadd
  | amoMinuAcq => apply amoMinuAcq | amoMaxuAcq => apply amoMaxuAcq | amoFaddDAcq => apply amoFaddDAcq
  | amoFaddWAcq => apply amoFaddWAcq | amoFaddHAcq => apply amoFaddHAcq | amoBfaddAcq => apply amoBfaddAcq
  | amoMinuRel => apply amoMinuRel | amoMaxuRel => apply amoMaxuRel | amoFaddDRel => apply amoFaddDRel
  | amoFaddWRel => apply amoFaddWRel | amoFaddHRel => apply amoFaddHRel | amoBfaddRel => apply amoBfaddRel
  | amoMinuAr => apply amoMinuAr | amoMaxuAr => apply amoMaxuAr | amoFaddDAr => apply amoFaddDAr | amoFaddWAr => apply amoFaddWAr
  | amoFaddHAr => apply amoFaddHAr | amoBfaddAr => apply amoBfaddAr | amosAdd => apply amosAdd | amosAnd => apply amosAnd
  | amosOr => apply amosOr | amosXor => apply amosXor | amosSwap => apply amosSwap | amosMin => apply amosMin
  | amosMax => apply amosMax | amosCas => apply amosCas | amosMinu => apply amosMinu | amosMaxu => apply amosMaxu
  | amosFaddD => apply amosFaddD | amosFaddW => apply amosFaddW | amosFaddH => apply amosFaddH | amosBfadd => apply amosBfadd
  | depAdd => apply depAdd | depMax => apply depMax | peek => apply peek | sense => apply sense | depAddRel => apply depAddRel
  | depMaxRel => apply depMaxRel | tick => apply tick | fadd => apply fadd | fsub => apply fsub | fmul => apply fmul
  | fdiv => apply fdiv | fma => apply fma | fnma => apply fnma | fsqrt => apply fsqrt | fminW => apply fminW | fmaxW => apply fmaxW
  | feqW => apply feqW | fltW => apply fltW | fleW => apply fleW | fsgnjW => apply fsgnjW | fsgnjnW => apply fsgnjnW
  | fclassW => apply fclassW | fminD => apply fminD | fmaxD => apply fmaxD | feqD => apply feqD | fltD => apply fltD
  | fleD => apply fleD | fsgnjD => apply fsgnjD | fsgnjnD => apply fsgnjnD | fclassD => apply fclassD | cvtSD => apply cvtSD
  | cvtDS => apply cvtDS | cvtHS => apply cvtHS | cvtSH => apply cvtSH | cvtBfS => apply cvtBfS | cvtSBf => apply cvtSBf
  | cvtSL => apply cvtSL | cvtDL => apply cvtDL | cvtLS => apply cvtLS | cvtLD => apply cvtLD | cvtDLu => apply cvtDLu
  | cvtLuD => apply cvtLuD | vadd => apply vadd | vsub => apply vsub | vmul => apply vmul | vfma => apply vfma
  | vminW => apply vminW | vmaxW => apply vmaxW | vminD => apply vminD | vmaxD => apply vmaxD | vcpy => apply vcpy
  | vcvtHS => apply vcvtHS | vcvtSH => apply vcvtSH | vcvtBfS => apply vcvtBfS | vcvtSBf => apply vcvtSBf
  | vcvtBd8S => apply vcvtBd8S | vcvtSBd8 => apply vcvtSBd8 | vcvtBd4S => apply vcvtBd4S | vcvtSBd4 => apply vcvtSBd4
  | sfuExp2 => apply sfuExp2 | sfuLog2 => apply sfuLog2 | sfuRcp => apply sfuRcp | sfuRsq => apply sfuRsq | sfuSin => apply sfuSin
  | sfuCos => apply sfuCos | sfuTanh => apply sfuTanh | sfuSigm => apply sfuSigm | sbindIn => apply sbindIn
  | sbindOut => apply sbindOut | sunbind => apply sunbind | ctab => apply ctab | mma => apply mma | mmaZ => apply mmaZ
  | mmaRot => apply mmaRot | mmaRotZ => apply mmaRotZ | mmaRotSd => apply mmaRotSd | mmaRotSdZ => apply mmaRotSdZ
  | mstc => apply mstc | mldc => apply mldc | mcommit => apply mcommit | mwait => apply mwait | cpyGg => apply cpyGg
  | cpyGs => apply cpyGs | cpySg => apply cpySg | cpySs => apply cpySs | cpySub => apply cpySub | cpySubPull => apply cpySubPull
  | cpySubRet => apply cpySubRet | cwait => apply cwait | spawn => apply spawn | go => apply go | park => apply park
  | join => apply join | leave => apply leave | bar => apply bar | tsig => apply tsig | kadd => apply kadd | ksub => apply ksub
  | kand => apply kand | kor => apply kor | kxor => apply kxor | ksll => apply ksll | ksrl => apply ksrl | kmul => apply kmul
  | kaddi => apply kaddi | kbeq => apply kbeq | kbne => apply kbne | kloop => apply kloop | kj => apply kj | rowany => apply rowany
  | rowall => apply rowall | csrr => apply csrr | csrrw => apply csrrw | csrs => apply csrs | csrc => apply csrc
  | tlbiVa => apply tlbiVa | tlbiS2 => apply tlbiS2 | dline => apply dline | prog => apply prog | pwrHint => apply pwrHint
  | rep => apply rep | repOs => apply repOs | fenceCore => apply fenceCore | fenceDie => apply fenceDie
  | fencePkg => apply fencePkg | fenceDom => apply fenceDom | cfence => apply cfence | quit => apply quit | yield => apply yield
  | rend => apply rend | ecall => apply ecall | brk => apply brk | tret => apply tret | tlbiVmid => apply tlbiVmid
  | tlbiAll => apply tlbiAll
  | _ => exact nofun

end RoundTrip

/-! ## From a word to its instruction and back -/

/-- The major opcode of a word (R51), from its number. -/
theorem major {v : W32} {k : Nat} (h : (bits 0 7 v).toNat = k) : bits 0 7 v = BitVec.ofNat 7 k := by
  rw [← h, BitVec.ofNat_toNat, BitVec.setWidth_eq]

/-- A word that decodes is the word of its instruction: the lemma of its major opcode says so. -/
theorem encode_of_decode {v : W32} {i : Instr} (h : decode v = some i) : encode i = some v := by
  unfold decode at h
  split at h <;> rename_i h0
  exacts [
    decode00_encode (major h0) h, decode01_encode (major h0) h, decode02_encode (major h0) h, decode03_encode (major h0) h,
    decode04_encode (major h0) h, decode05_encode (major h0) h, decode06_encode (major h0) h, decode07_encode (major h0) h,
    decode08_encode (major h0) h, decode09_encode (major h0) h, decode0A_encode (major h0) h, decode0B_encode (major h0) h,
    decode0C_encode (major h0) h, decode0D_encode (major h0) h, decode0E_encode (major h0) h, decode10_encode (major h0) h,
    decode11_encode (major h0) h, decode12_encode (major h0) h, decode13_encode (major h0) h, decode14_encode (major h0) h,
    decode18_encode (major h0) h, decode19_encode (major h0) h, decode1A_encode (major h0) h, decode1B_encode (major h0) h,
    decode1C_encode (major h0) h, decode1D_encode (major h0) h, decode1E_encode (major h0) h, decode1F_encode (major h0) h,
    decode20_encode (major h0) h, decode21_encode (major h0) h, decode22_encode (major h0) h, decode23_encode (major h0) h,
    decode24_encode (major h0) h, decode25_encode (major h0) h, decode26_encode (major h0) h, decode27_encode (major h0) h,
    decode28_encode (major h0) h, decode29_encode (major h0) h, decode2A_encode (major h0) h, decode2B_encode (major h0) h,
    decode2C_encode (major h0) h, decode2D_encode (major h0) h, decode2E_encode (major h0) h, decode30_encode (major h0) h,
    decode31_encode (major h0) h, decode32_encode (major h0) h, decode33_encode (major h0) h, decode34_encode (major h0) h,
    decode35_encode (major h0) h, decode36_encode (major h0) h, decode37_encode (major h0) h, decode38_encode (major h0) h,
    decode39_encode (major h0) h, decode3A_encode (major h0) h, decode3B_encode (major h0) h, decode3C_encode (major h0) h,
    decode3D_encode (major h0) h, decode3E_encode (major h0) h, decode40_encode (major h0) h, decode41_encode (major h0) h,
    decode42_encode (major h0) h, decode43_encode (major h0) h, decode44_encode (major h0) h, decode45_encode (major h0) h,
    decode46_encode (major h0) h, decode47_encode (major h0) h, decode48_encode (major h0) h, decode50_encode (major h0) h,
    decode51_encode (major h0) h, decode52_encode (major h0) h, decode53_encode (major h0) h, decode54_encode (major h0) h,
    decode60_encode (major h0) h, decode61_encode (major h0) h, decode62_encode (major h0) h, decode63_encode (major h0) h,
    decode68_encode (major h0) h, decode69_encode (major h0) h, decode6A_encode (major h0) h, decode6B_encode (major h0) h,
    decode6C_encode (major h0) h, decode6D_encode (major h0) h, decode6E_encode (major h0) h, decode6F_encode (major h0) h,
    decode70_encode (major h0) h, decode71_encode (major h0) h, decode72_encode (major h0) h, decode73_encode (major h0) h,
    decode74_encode (major h0) h, decode75_encode (major h0) h, decode76_encode (major h0) h, decode77_encode (major h0) h,
    decode7F_encode (major h0) h, nomatch h]

/-- No load has the width code 7 (R55). -/
theorem decode_width7 (j : BitVec 8) (a d : Reg) {m : BitVec 7} (hm : m = 0x10#7 ∨ m = 0x11#7 ∨ m = 0x13#7) :
    decode (j ++ 7#3 ++ a ++ d ++ m) = none := by
  obtain ⟨h0, -, -, hz, -⟩ := parts_8_3_7_7_7 j 7#3 a d m
  unfold decode; rw [h0]
  rcases hm with rfl | rfl | rfl
  · show decode10 _ = none; simp [decode10, hz]
  · show decode11 _ = none; simp [decode11, hz]
  · show decode13 _ = none; simp [decode13, hz]

/-- The word of an ill-formed instruction is no instruction: it is the word of zeros (R57), or a load of the width code 7 (R55). -/
theorem decode_illFormed {i : Instr} {v : W32} (hi : i.wellFormed = false) (h : encode i = some v) : decode v = none := by
  cases i with
  | add w d a b =>
    obtain ⟨⟨⟨rfl, rfl⟩, rfl⟩, rfl⟩ : ((w = false ∧ d = 0) ∧ a = 0) ∧ b = 0 := by simpa [Instr.wellFormed] using hi
    cases h; rfl
  | ld j z d a =>
    obtain rfl : z = 7 := by simpa [Instr.wellFormed] using hi
    cases h; exact decode_width7 j a d (.inl rfl)
  | ldBy j z d a =>
    obtain rfl : z = 7 := by simpa [Instr.wellFormed] using hi
    cases h; exact decode_width7 j a d (.inr (.inl rfl))
  | lds j z d a =>
    obtain rfl : z = 7 := by simpa [Instr.wellFormed] using hi
    cases h; exact decode_width7 j a d (.inr (.inr rfl))
  | _ => cases hi

theorem wellFormed_of_decode {v : W32} {i : Instr} (h : decode v = some i) : i.wellFormed = true := by
  rw [← Bool.not_eq_false]
  intro hi
  rw [decode_illFormed hi (encode_of_decode h)] at h
  cases h

/-- Settles O47: each instruction's own lemma gives the first direction, each major opcode's the second. -/
theorem roundTrip : Obligations.RoundTrip :=
  ⟨RoundTrip.statement_holds, fun _ _ h => ⟨wellFormed_of_decode h, encode_of_decode h⟩⟩

/-! ## Words written out, and reserved opcodes -/

/-- Settles O48: the decoder is run on each word. -/
theorem sampleWords : Obligations.SampleWords := by
  unfold Obligations.SampleWords
  decide

/-- The major opcodes that R58 leaves without a row are no instructions (R57). -/
theorem decode_reserved {v : W32} (h : v.toNat % 128 ∈ [0x0F, 0x15, 0x16, 0x17, 0x2F, 0x3F] ∨
    (0x49 ≤ v.toNat % 128 ∧ v.toNat % 128 ≤ 0x4F) ∨ (0x55 ≤ v.toNat % 128 ∧ v.toNat % 128 ≤ 0x5F) ∨
    (0x64 ≤ v.toNat % 128 ∧ v.toNat % 128 ≤ 0x67) ∨ (0x78 ≤ v.toNat % 128 ∧ v.toNat % 128 ≤ 0x7E)) : decode v = none := by
  have hop : (bits 0 7 v).toNat = v.toNat % 128 := Machine.opOf_eq v
  unfold decode
  rw [hop]
  generalize v.toNat % 128 = n at h
  rcases h with h | ⟨h1, h2⟩ | ⟨h1, h2⟩ | ⟨h1, h2⟩ | ⟨h1, h2⟩
  · simp only [List.mem_cons, List.not_mem_nil, or_false] at h
    rcases h with rfl | rfl | rfl | rfl | rfl | rfl <;> rfl
  all_goals interval_cases n <;> rfl

end Sys2Proof.Laws

/-! What the next step is, and what a word that is due does: it runs, or traps ILLOP (O49, O50). -/

namespace Sys2Proof.Machine

/-! ## The head of each list (R171, R198, R350) -/

section
variable {s : State} {i : Issue} {rest : List Issue}

theorem nextUp_issue (hr : s.fw.inReset = false) (hi : s.issuing = i :: rest) (hl : ∀ g, i.lane ≠ .decide g) :
    nextUp s = .issue i { s with issuing := rest } := by
  cases h : i.lane with
  | decide g => exact absurd h (hl g)
  | _ => simp only [nextUp, hr, hi, h, Bool.false_eq_true, if_false]

/-- The word at the head of the queue runs when it is prepared to. -/
theorem step_run {x : Instr} {u : State} (hr : s.fw.inReset = false) (hi : s.issuing = i :: rest) (hl : ∀ g, i.lane ≠ .decide g)
    (hp : prepare i { s with issuing := rest } = .run x u) : step s = exec x u := by
  simp only [step, nextUp_issue hr hi hl, hp]

/-- The step ends with the word's preparation when that has taken it. -/
theorem step_stop {r : Result} (hr : s.fw.inReset = false) (hi : s.issuing = i :: rest) (hl : ∀ g, i.lane ≠ .decide g)
    (hp : prepare i { s with issuing := rest } = .stop r) : step s = r := by
  simp only [step, nextUp_issue hr hi hl, hp]

theorem step_event {d : Due} {due : List Due} (hr : s.fw.inReset = false) (hz : s.frozen = false) (hi : s.issuing = [])
    (ha : s.agenda = d :: due) (he : encode d.ev = none) :
    step s = exec d.ev { s with agenda := due, arg := d.arg, time := s.time + BitVec.ofNat 64 d.dt } := by
  simp [step, nextUp, hr, hz, hi, ha, he, word]

theorem step_idle (hr : s.fw.inReset = false) (hz : s.frozen = false) (hi : s.issuing = []) (ha : s.agenda = []) :
    step s = exec .barrelCycle { s with arg := { unit := s.idleCore } } := by
  simp [step, nextUp, hr, hz, hi, ha]

/-! ## A word made ready (R56, R57, R59, R100) -/

variable {core slot : Nat} {others : List Nat} {c : Ctx} {w : W32} {x : Instr}

/-- A barrel's word is fetched at its address, and is one that a barrel executes. -/
theorem prepare_barrel (hl : i.lane = .barrel core slot others) (hw : i.word = none) (hr : i.rep = none)
    (hc : getCtx s (ctxId core slot) = some c) (hp : c.pend = []) (hf : Fetches s core c i.pc w) (hx : decode w = some x)
    (ho : streamOnly (opOf w) = false) : prepare i s = .run x { s with cur := { i with word := some w } } := by
  have hc' : getCtx { s with cur := i } (ctxId core slot) = some c := hc
  have hf' : Fetches { s with cur := i } core c i.pc w := ⟨hf.canon, hf.page⟩
  simp [prepare, hl, hc', hp, hw, fetch_word hf', hr, hx, ho]

/-- A barrel's word that is none, or that only a row stream executes, is settled as ILLOP. -/
theorem prepare_barrel_illegal (hl : i.lane = .barrel core slot others) (hw : i.word = none) (hr : i.rep = none)
    (hc : getCtx s (ctxId core slot) = some c) (hp : c.pend = []) (hf : Fetches s core c i.pc w)
    (hx : decode w = none ∨ streamOnly (opOf w) = true) :
    prepare i s = .stop (settle (.trap .illop (w.setWidth 64)) id { s with cur := { i with word := some w } }) := by
  have hc' : getCtx { s with cur := i } (ctxId core slot) = some c := hc
  have hf' : Fetches { s with cur := i } core c i.pc w := ⟨hf.canon, hf.page⟩
  cases hd : decode w with
  | none => simp [prepare, hl, hc', hp, hw, fetch_word hf', hr, hd]
  | some y =>
    have ho : streamOnly (opOf w) = true := hx.resolve_left (by simp [hd])
    simp [prepare, hl, hc', hp, hw, fetch_word hf', hr, hd, ho]

/-- A stream's word was fetched by its sequencer (R199). -/
theorem prepare_stream {n pos : Nat} (hl : i.lane = .stream n pos core slot) (hw : i.word = some w) (hr : i.rep = none)
    (hc : getCtx s (ctxId core slot) = some c) (hp : c.pend = []) (hx : decode w = some x) :
    prepare i s = .run x { s with cur := { i with word := some w } } := by
  have hc' : getCtx { s with cur := i } (ctxId core slot) = some c := hc
  simp [prepare, hl, hc', hp, hw, hr, hx]

/-- A sequencer's word was fetched by the sequencer (R199). -/
theorem prepare_sequencer {n : Nat} (hl : i.lane = .sequencer n) (hw : i.word = some w) (hx : decode w = some x) :
    prepare i s = .run x { s with cur := { i with word := some w } } := by
  obtain ⟨lane, probe, word, pc, rep⟩ := i
  cases hl; cases hw
  simp [prepare, hx]

end

/-- Settles O50: the queued word first, by its lane; then the agenda; then the idle core. -/
theorem stepRunsWord : Obligations.StepRunsWord := by
  intro s hr hz
  refine ⟨fun i rest x w hi => ⟨fun core slot others c hl hw hp hc hd hf hx ho => ?barrel,
    fun n pos core slot c hl hp hc hd hw hx => ?stream, fun n hl hw hx => ?sequencer⟩,
    fun d rest hi ha he => step_event hr hz hi ha he, fun hi ha => step_idle hr hz hi ha⟩
  case barrel =>
    have ho' : streamOnly (opOf w) = false := by rw [← Bool.not_eq_true, streamOnly_iff]; exact ho
    exact step_run hr hi (by simp [hl]) (prepare_barrel hl hw hp hc hd ⟨hf.canon, hf.page⟩ hx ho')
  case stream => exact step_run hr hi (by simp [hl]) (prepare_stream hl hw hp hc hd hx)
  case sequencer => exact step_run hr hi (by simp [hl]) (prepare_sequencer hl hw hx)

/-! ## The trap of a word that is none (R295) -/

/-- A trap of the current word outside a handler, in a word that is no repetition. -/
theorem trapNow_did {s : State} {c : Ctx} (hc : curCtx s = some c) (hh : HasHandler s c) (hr : s.cur.rep = none) (x : Cause) (v : Word) :
    Did s (trapNow (markIssued s) x v) c s (my s) 0 RegEntry.zero
      { c with epc := s.cur.pc, tval := v, tcause := causeWord x, pc := c.tvec, status := .ready, popped := none, cover := none,
               portTrap := none } := by
  obtain ⟨core, slot, others, hl⟩ := hh.barrel
  have hm := markIssued_marked s
  have hid : ctxId core slot = me s := by simp [me, curId, hl]
  have hpc : trapPc (markIssued s) = s.cur.pc := by simp [trapPc, hm.cur, hr]
  simp only [trapNow, hm.cur, hl, hr, hid, hpc]
  exact (Did.start hm hc).trap hh.vector hh.outside x v s.cur.pc

/-- Settles O49: the reserved majors by the table of R58, the issue of such a word by its preparation and the trap that it takes. -/
theorem illegalWords : Obligations.IllegalWords := by
  refine ⟨fun v h => ?reserved, fun s i rest core slot others c w hr hi hl hp hw hrep hc hd hv hb hf hx => ?issued⟩
  case reserved =>
    by_cases hz : v = 0
    · subst hz; rfl
    · exact Laws.decode_reserved (by simpa only [hz, or_false] using h)
  case issued =>
    intro u
    have hid : curId u = some (ctxId core slot) := by simp [curId, u, hl]
    have hcu : curCtx u = some c := by rw [curCtx, hid]; exact hc
    have hh : HasHandler u c := ⟨⟨core, slot, others, hl⟩, hv, hb⟩
    refine ⟨trapNow (markIssued u) .illop (w.setWidth 64), ?_, trapNow_did hcu hh hrep .illop _⟩
    rw [step_stop hr hi (by simp [hl]) (prepare_barrel_illegal hl hw hrep hc hd ⟨hf.canon, hf.page⟩ (by rwa [streamOnly_iff]))]
    exact settle_trap hcu hp _ _ _

end Sys2Proof.Machine

/-! What a repeat prefix does (O6). -/

namespace Sys2Proof.Machine

/-! ## Where a run stands (R63, R64) -/

/-- A run that a trap or a page fault interrupted goes on where `repc` says. -/
theorem repStart_resumed {c : Ctx} (h : c.repc.getLsbD 63 = true) (ci : Bool) (n : Reg) (t : State) :
    repStart ci n c t = (c.repc.toNat / 65536 % 65536, c.repc.toNat % 65536) := by
  have hb : bit 63 c.repc = true := h
  simp [repStart, hb, fld_eq]

/-- Any other begins at its first repetition, with the count that the prefix gives: its field, or the low 16 bits of its register. -/
theorem repStart_fresh {s t : State} {c : Ctx} {ci : Bool} {n : Reg} (h : c.repc.getLsbD 63 = false)
    (hu : CanIssue s c (if ci then { srcs := [] } else { srcs := [n] })) (hm : Marked s t) :
    repStart ci n c t = (0, if ci then n.toNat else (val s c n).toNat % 65536) := by
  have hb : bit 63 c.repc = false := h
  cases ci with
  | true => simp [repStart, hb]
  | false =>
    have hn : portOf (my s) c n = none := hu.unbound n (by simp [Use.regs])
    simp [repStart, hb, src_val hm hu.ctx hn, fld_eq]

/-! ## The target's own traps (R62, R63, R244) -/

theorem repChecks_illop {r : Rep} {w : W32} {k : Core} {c : Ctx} (h : ¬ (repTargetOk r w = true ∧ badPort (targetUse w) k c = false))
    (i left : Nat) : repChecks r w k c i left = .trap .illop (w.setWidth 64) := by
  have hbad : (!repTargetOk r w || badPort (targetUse w) k c) = true := by
    rw [not_and_or] at h; simpa using h
  simp only [repChecks, hbad, if_true]

theorem repChecks_allot {r : Rep} {w : W32} {k : Core} {c : Ctx} {i left : Nat}
    (h : repTargetOk r w = true ∧ badPort (targetUse w) k c = false) (hb : repBeyond r w c.size i left = true) :
    repChecks r w k c i left = .trap .allot (w.setWidth 64) := by
  obtain ⟨hok, hport⟩ := h
  simp [repChecks, hok, hport, hb]

/-- A prefix takes the trap that the checks of its fetched target answer. -/
theorem rep_traps {s : State} {c : Ctx} {os ci : Bool} {x y z : BitVec 2} {n : Reg} {i left : Nat} {w : W32} {j : Instr} {e : Cause}
    (hj : exec j s = repPrefix os ci x y z n s)
    (hu : CanIssue s c (if ci || bit 63 c.repc then { srcs := [] } else { srcs := [n] })) (hs : repStart ci n c s = (i, left))
    (h0 : left ≠ 0) (hf : fetch s (coreOf (me s)) c.vmid c.node (s.cur.pc + 4) = (.ok w, s)) (hh : HasHandler s c)
    (he : repChecks ⟨z, y, x, os⟩ w (my s) c i left = .trap e (w.setWidth 64)) : Traps s j c e (w.setWidth 64) := by
  rw [repPrefix, hu.ctx] at hj
  refine check_trap hu hh ?_ hj
  simp only [hs, h0, if_false, repTarget, hf, he]

/-- Settles O6: a run resumes from `repc` or starts with its count; what it then does is said once for `rep` and `rep.os`. -/
theorem repeatPrefix : Obligations.RepeatPrefix := by
  intro s c ci x y z n resumed i left hu
  have hs : ∀ t, Marked s t → repStart ci n c t = (i, left) := by
    intro t hm
    cases hr : resumed with
    | true => simp only [i, left, hr, if_true]; exact repStart_resumed hr ci n t
    | false =>
      rw [hr, Bool.or_false] at hu
      simp only [i, left, hr, Bool.false_eq_true, if_false]
      exact repStart_fresh hr hu hm
  have hs0 : repStart ci n c s = (i, left) := hs s ⟨rfl, fun _ => rfl⟩
  have ends : ∀ os j, left = 0 → exec j s = repPrefix os ci x y z n s →
      Leaves s j c s (my s) { c with repc := 0, pc := s.cur.pc + 8 } :=
    fun os j h0 hj => Does.of hj ((rep_law hu hs).1 h0)
  refine ⟨fun h0 => ⟨ends false _ h0 (exec_rep ..), ends true _ h0 (exec_repOs ..)⟩, ?_⟩
  intro w h0 hf goes
  have hgoes : ∀ os j, exec j s = repPrefix os ci x y z n s → goes os j := by
    intro os j hj
    refine ⟨fun ⟨hok, hport⟩ hb => Does.of hj ((rep_law hu hs).2 w h0 hf hok hport hb),
      fun hh => ⟨fun hm => ?_, fun hm hb => ?_⟩⟩
    · exact rep_traps hj hu hs0 h0 hf hh (repChecks_illop hm i left)
    · exact rep_traps hj hu hs0 h0 hf hh (repChecks_allot hm hb)
  exact ⟨hgoes false _ (exec_rep ..), hgoes true _ (exec_repOs ..)⟩

end Sys2Proof.Machine

/-! Every step keeps the memories in their one form (O52). The invariant is proved once for each operation of the model, in the order of the
model's definitions: `f_wf` says that what `f` answers has its memories in form where what it was given has. -/

namespace Sys2Proof.Machine

/-! ## The invariant over the shapes of answers -/

/-- A core's scratchpad is in the one form. -/
def SpWf (k : Core) : Prop := k.sp.wf = true

/-- An answer that is a next state has its memories in form. -/
def NextWf : Result → Prop
  | .next t => MemoriesWf t
  | _ => True

/-- The state of an answer that may be none has its memories in form. -/
def SomeWf : Option State → Prop
  | some t => MemoriesWf t
  | none => True

/-- The state of an answer that may be an error has its memories in form. -/
def OkWf : Except NoSave State → Prop
  | .ok t => MemoriesWf t
  | .error _ => True

/-- So has the state of an answer that carries a value beside it. -/
def OkSndWf {α : Type} : Except NoSave (α × State) → Prop
  | .ok x => MemoriesWf x.2
  | .error _ => True

/-- The core of an answer that may be none has its scratchpad in form. -/
def OptSpWf {α : Type} : Option (α × Core) → Prop
  | some x => SpWf x.2
  | none => True

section
variable {α β : Type} {s t : State} {k : Core} {x : α} {y : β}

theorem wf_of_next {o : Result} (e : o = .next t) (h : NextWf o) : MemoriesWf t := by subst e; exact h
theorem wf_of_some {o : Option State} (e : o = some t) (h : SomeWf o) : MemoriesWf t := by subst e; exact h
theorem wf_of_ok {o : Except NoSave State} (e : o = .ok t) (h : OkWf o) : MemoriesWf t := by subst e; exact h
theorem wf_of_ok_snd {o : Except NoSave (α × State)} (e : o = .ok (x, t)) (h : OkSndWf o) : MemoriesWf t := by subst e; exact h
theorem wf_of_snd {p : α × State} (e : p = (x, t)) (h : MemoriesWf p.2) : MemoriesWf t := by subst e; exact h
theorem wf_of_snd_snd {p : α × β × State} (e : p = (x, y, t)) (h : MemoriesWf p.2.2) : MemoriesWf t := by subst e; exact h
theorem wf_of_fst {p : State × α} (e : p = (t, x)) (h : MemoriesWf p.1) : MemoriesWf t := by subst e; exact h
theorem spWf_of_fst {p : Core × α} (e : p = (k, x)) (h : SpWf p.1) : SpWf k := by subst e; exact h
theorem spWf_of_some_snd {o : Option (α × Core)} (e : o = some (x, k)) (h : OptSpWf o) : SpWf k := by subst e; exact h

end

/-! ## Memories, cores, contexts -/

/-- Dropping bytes keeps the canonical form. -/
theorem memFrom_filter {m : Memory} {lo : Option Nat} (p : Host.Cell → Bool) (h : memFrom lo m = true) :
    memFrom lo (m.filter p) = true := by
  induction m generalizing lo with
  | nil => exact h
  | cons e r ih =>
    obtain ⟨hlo, hv, hr⟩ := memFrom_cons.1 h
    rw [List.filter_cons]
    split
    · exact memFrom_cons.2 ⟨hlo, hv, ih hr⟩
    · cases lo with
      | none => exact memFrom_none (ih hr)
      | some l => exact memFrom_mono (ih hr) (Nat.le_of_lt (hlo l rfl))

theorem memory_filter_wf {m : Memory} (p : Host.Cell → Bool) (h : m.wf = true) : Memory.wf (m.filter p) = true :=
  memFrom_filter p h

section
variable {s t : State} {k : Core} {n : Nat}

/-- The package's memory replaced by another in form. -/
theorem setMem_wf {m : Memory} (h : MemoriesWf s) (hm : m.wf = true) : MemoriesWf { s with mem := m } := ⟨hm, h.2.1, h.2.2⟩

theorem putMem_wf {a : Nat} {bs : List Byte} (h : MemoriesWf s) : MemoriesWf { s with mem := memPut s.mem a bs } :=
  setMem_wf h (memPut_wf h.1 a bs)

/-- Images of launches replaced by others in form. -/
theorem setImages_wf {l : List Snapshot} (h : MemoriesWf s) (hl : ∀ x ∈ l, x.mem.wf = true) : MemoriesWf { s with images := l } :=
  ⟨h.1, h.2.1, hl⟩

theorem getCore_wf (h : MemoriesWf s) : SpWf (getCore s n) := h.2.1 n

theorem ite_wf {p : Prop} [Decidable p] (hs : MemoriesWf s) (ht : MemoriesWf t) : MemoriesWf (if p then s else t) := by
  split
  · exact hs
  · exact ht

/-- A fold whose steps keep the memories in form. -/
theorem foldl_wf {α : Type} {f : State → α → State} {l : List α} (h : MemoriesWf s)
    (hf : ∀ {s x}, MemoriesWf s → MemoriesWf (f s x)) : MemoriesWf (l.foldl f s) :=
  List.foldlRecOn l f h fun _ hs _ _ => hf hs

theorem setCore_wf (h : MemoriesWf s) (hk : SpWf k) : MemoriesWf (setCore s n k) := by
  obtain ⟨hmem, hsp, himg⟩ := h
  refine ⟨hmem, fun c => ?_, himg⟩
  rw [getCore_setCore]
  split
  · exact hk
  · exact hsp c

theorem modCore_wf {f : Core → Core} (h : MemoriesWf s) (hf : ∀ k, SpWf k → SpWf (f k)) : MemoriesWf (modCore s n f) :=
  setCore_wf h (hf _ (getCore_wf h))

/-- Every core changed, each under its number. -/
theorem mapCores_wf {f : Nat × Core → Nat × Core} (h : MemoriesWf s) (hn : ∀ e, (f e).1 = e.1) (hf : ∀ e, SpWf e.2 → SpWf (f e).2) :
    MemoriesWf { s with cores := s.cores.map f } := by
  obtain ⟨hmem, hsp, himg⟩ := h
  refine ⟨hmem, fun n => ?_, himg⟩
  have key : ∀ m : AMap Core, SpWf (amGetD {} m n) → SpWf (amGetD {} (m.map f) n) := by
    intro m
    induction m with
    | nil => exact id
    | cons e r ih =>
      simp only [amGetD, List.map_cons, amGet, hn] at ih ⊢
      split
      · exact hf e
      · exact ih
  exact key s.cores (hsp n)

end

section
variable {s : State}

/-! ## The operations of the state -/

theorem setCtx_wf {cid : Nat} {c : Ctx} (h : MemoriesWf s) : MemoriesWf (setCtx s cid c) := modCore_wf h fun _ hk => hk

theorem modCtx_wf {cid : Nat} {f : Ctx → Ctx} (h : MemoriesWf s) : MemoriesWf (modCtx s cid f) := by
  unfold modCtx
  split
  · exact setCtx_wf h
  · exact h

theorem setTenant_wf {t : Nat} {x : Tenant} (h : MemoriesWf s) : MemoriesWf (setTenant s t x) := h

theorem modTenant_wf {t : Nat} {f : Tenant → Tenant} (h : MemoriesWf s) : MemoriesWf (modTenant s t f) := setTenant_wf h

theorem setSeg_wf {k : Nat} {g : Seg} (h : MemoriesWf s) : MemoriesWf (setSeg s k g) := h

theorem modSeg_wf {k : Nat} {f : Seg → Seg} (h : MemoriesWf s) : MemoriesWf (modSeg s k f) := by
  unfold modSeg
  split
  · exact setSeg_wf h
  · exact h

theorem modRow_wf {r : Nat} {f : Row → Row} (h : MemoriesWf s) : MemoriesWf (modRow s r f) := h

theorem takeId_wf (h : MemoriesWf s) : MemoriesWf (takeId s).2 := h

theorem putReg_wf {cid : Nat} {r : Reg} {e : RegEntry} (h : MemoriesWf s) : MemoriesWf (putReg s cid r e) := by
  unfold putReg
  split
  · exact h
  · split
    · exact modCore_wf h fun _ hk => hk
    · exact h

theorem writeReg_wf {cid : Nat} {r : Reg} {v : Word} (h : MemoriesWf s) : MemoriesWf (writeReg s cid r v) := putReg_wf h

theorem setFull_wf {cid : Nat} {r : Reg} {b : Bool} (h : MemoriesWf s) : MemoriesWf (setFull s cid r b) := by
  unfold setFull
  split
  · exact putReg_wf h
  · exact h

theorem emptyReg_wf {cid : Nat} {r : Reg} (h : MemoriesWf s) : MemoriesWf (emptyReg s cid r) := setFull_wf h

theorem spWrite_wf {k : Core} {a : Nat} {bs : List Byte} (hk : SpWf k) : SpWf (spWrite k a bs) := memPut_wf hk _ _

theorem rekey_wf {key : BitVec 8} {a n : Nat} (h : MemoriesWf s) : MemoriesWf (rekey s key a n) := by
  unfold rekey
  split
  · exact h
  · exact foldl_wf h fun h₁ => putMem_wf h₁

theorem freeLine_wf (h : MemoriesWf s) : MemoriesWf (freeLine s).2 := h

theorem regStoreBytes_wf {at_ : Nat} {bs : List Byte} (h : MemoriesWf s) : MemoriesWf (regStoreBytes s at_ bs) := h

theorem noteWrite_wf {l : Loc} {n : Nat} (h : MemoriesWf s) : MemoriesWf (noteWrite s l n) := h

theorem writeHome_wf {l : Loc} {bs : List Byte} {p : Page} (h : MemoriesWf s) : MemoriesWf (writeHome s l bs p) := by
  unfold writeHome
  extract_lets s₁
  have hs₁ : MemoriesWf s₁ := noteWrite_wf h
  split
  · extract_lets s₂
    have hs₂ : MemoriesWf s₂ := rekey_wf hs₁
    exact putMem_wf hs₂
  · exact modCore_wf hs₁ fun _ hk => spWrite_wf hk
  · exact regStoreBytes_wf hs₁
  · exact hs₁

theorem countEvent_wf {t ev unit n : Nat} (h : MemoriesWf s) : MemoriesWf (countEvent s t ev unit n) := by
  unfold countEvent
  extract_lets
  split
  · exact setTenant_wf h
  · exact h

theorem spend_wf {t ch n : Nat} (h : MemoriesWf s) : MemoriesWf (spend s t ch n) := by
  unfold spend
  extract_lets
  split
  · exact h
  · exact setTenant_wf h

theorem writeBack_wf {e : Nat × SliceLine} (h : MemoriesWf s) : MemoriesWf (writeBack s e) := by
  unfold writeBack
  split
  · exact countEvent_wf (countEvent_wf h)
  · exact h

theorem evictLine_wf {e : Nat × SliceLine} (h : MemoriesWf s) : MemoriesWf (evictLine s e) := by
  unfold evictLine
  extract_lets s₁
  have hs₁ : MemoriesWf s₁ := writeBack_wf h
  split
  · exact spend_wf hs₁
  · exact hs₁

theorem dropLines_wf {back : Bool} {q : Nat × SliceLine → Bool} (h : MemoriesWf s) : MemoriesWf (dropLines s back q) := by
  unfold dropLines
  extract_lets s₁
  have hs₁ : MemoriesWf s₁ := by
    dsimp only [s₁]
    split
    · exact foldl_wf h fun h₁ => writeBack_wf h₁
    · exact h
  exact hs₁

theorem allocLine_wf {x : Nat} {ln : SliceLine} (h : MemoriesWf s) : MemoriesWf (allocLine s x ln) := by
  unfold allocLine
  extract_lets
  split
  · exact h
  · split
    · exact evictLine_wf h
    · exact evictLine_wf h

theorem hitLine_wf {die a : Nat} {p : Page} {w : Acc} {old : SliceLine} (h : MemoriesWf s) : MemoriesWf (hitLine s die a p w old) := by
  unfold hitLine
  extract_lets s₁ ln
  have hs₁ : MemoriesWf s₁ := countEvent_wf h
  split
  · exact hs₁
  · exact allocLine_wf hs₁

theorem missLine_wf {pay : Bool} {die a : Nat} {p : Page} {w : Acc} (h : MemoriesWf s) : MemoriesWf (missLine pay s die a p w) := by
  unfold missLine
  extract_lets t ch s₁
  have hs₁ : MemoriesWf s₁ := countEvent_wf (countEvent_wf h)
  refine allocLine_wf ?_
  split
  · exact spend_wf hs₁
  · exact hs₁

theorem passLine_wf {pay : Bool} {a : Nat} {p : Page} {w : Acc} {n : Nat} (h : MemoriesWf s) : MemoriesWf (passLine pay s a p w n) := by
  unfold passLine
  extract_lets t ch s₁ s₂
  have hs₁ : MemoriesWf s₁ := by
    dsimp only [s₁]
    split
    · exact h
    · exact countEvent_wf h
  have hs₂ : MemoriesWf s₂ := by
    dsimp only [s₂]
    split
    · exact countEvent_wf hs₁
    · exact hs₁
  split
  · exact spend_wf hs₂
  · exact hs₂

theorem touchLine_wf {pay : Bool} {die : Nat} {l : Loc} {p : Page} {w : Acc} {n : Nat} (h : MemoriesWf s) :
    MemoriesWf (touchLine pay s die l p w n) := by
  unfold touchLine
  split
  · extract_lets s₁
    have hs₁ : MemoriesWf s₁ := by
      dsimp only [s₁]
      split
      · exact countEvent_wf h
      · exact h
    split
    · split
      · exact hitLine_wf hs₁
      · exact missLine_wf hs₁
    · exact passLine_wf hs₁
  · exact h

theorem touch_wf {die : Nat} {l : Loc} {p : Page} {w : Acc} {n : Nat} (h : MemoriesWf s) : MemoriesWf (touch s die l p w n) :=
  touchLine_wf h

theorem zeroRange_wf {l : Loc} {n : Nat} {p : Page} (h : MemoriesWf s) : MemoriesWf (zeroRange s l n p) := by
  unfold zeroRange
  split
  · exact mapCores_wf (setMem_wf h (memory_filter_wf _ h.1)) (fun _ => rfl) fun _ hk => hk
  · exact modCore_wf (noteWrite_wf h) fun _ hk => memory_filter_wf _ hk
  · exact h
  · exact h

theorem zeroPage_wf {slot : Nat} {va : Word} {l : Leaf} (h : MemoriesWf s) : MemoriesWf (zeroPage s slot va l) := by
  unfold zeroPage
  extract_lets s₁
  have hs₁ : MemoriesWf s₁ := by
    dsimp only [s₁]
    refine foldl_wf h fun {s₂ x} hs₂ => ?_
    split
    · exact zeroRange_wf hs₂
    · exact hs₂
  split
  · extract_lets s₂
    have hs₂ : MemoriesWf s₂ := rekey_wf hs₁
    exact putMem_wf hs₂
  · exact hs₁

theorem chargeWalk_wf {slot : Nat} {va : Word} (h : MemoriesWf s) : MemoriesWf (chargeWalk s slot va) := by
  unfold chargeWalk
  extract_lets
  split
  · exact h
  · exact foldl_wf h fun h₁ => spend_wf (countEvent_wf h₁)

theorem fromLeaf_wf {slot : Nat} {va : Word} {l : Leaf} (h : MemoriesWf s) : MemoriesWf (fromLeaf s slot va l).2 := by
  unfold fromLeaf
  split
  · exact h
  · split
    · split
      · exact h
      · exact zeroPage_wf h
    · exact h

theorem translate_wf {slot : Nat} {va : Word} (h : MemoriesWf s) : MemoriesWf (translate s slot va).2 := by
  unfold translate
  split
  · exact chargeWalk_wf h
  · exact fromLeaf_wf (chargeWalk_wf h)

theorem setFaults_wf {r : RingId} {f : FaultWords} (h : MemoriesWf s) : MemoriesWf (setFaults s r f) := by
  unfold setFaults
  split
  · exact modTenant_wf h
  · exact h

theorem recordPlace_wf {r : RingId} (h : MemoriesWf s) : MemoriesWf (recordPlace s r).2 := by
  unfold recordPlace
  extract_lets
  split
  · exact h
  · split
    · rename_i e
      exact wf_of_snd e (translate_wf h)
    · rename_i e
      exact wf_of_snd e (translate_wf h)

theorem putRecord_wf {r : RingId} {l : Loc} {p : Page} {ws : List Word} (h : MemoriesWf s) : MemoriesWf (putRecord s r l p ws) :=
  setFaults_wf (writeHome_wf (touch_wf h))

theorem loseRecord_wf {r : RingId} (h : MemoriesWf s) : MemoriesWf (loseRecord s r) := setFaults_wf h

theorem afterRecord_wf {ctx : Option Nat} (h : MemoriesWf s) : MemoriesWf (afterRecord s ctx) := by
  unfold afterRecord
  split
  · exact modCtx_wf h
  · exact h

theorem report_wf {rid : RingId} {r : Report} (h : MemoriesWf s) : MemoriesWf (report s rid r).2 := by
  unfold report
  extract_lets f vm token pend ws s₁ waits
  have hs₁ : MemoriesWf s₁ := by
    dsimp only [s₁]
    split
    · exact setFaults_wf h
    · exact h
  split
  · rename_i e
    exact afterRecord_wf (loseRecord_wf (wf_of_snd e (recordPlace_wf hs₁)))
  · rename_i s₂ e
    have hs₂ : MemoriesWf s₂ := wf_of_snd e (recordPlace_wf hs₁)
    extract_lets
    split
    · exact afterRecord_wf (putRecord_wf hs₂)
    · split
      · exact setFaults_wf hs₂
      · split
        · exact putRecord_wf hs₂
        · exact loseRecord_wf hs₂

theorem takeTrap_wf {cid : Nat} {c : Cause} {tval pc : Word} (h : MemoriesWf s) : MemoriesWf (takeTrap s cid c tval pc) := by
  unfold takeTrap
  split
  · exact h
  · split
    · exact report_wf (setCtx_wf h)
    · exact setCtx_wf h

theorem returnTrap_wf {cid : Nat} (h : MemoriesWf s) : MemoriesWf (returnTrap s cid) := modCtx_wf h

theorem retire_wf (h : MemoriesWf s) : MemoriesWf (retire s) := modCtx_wf h

theorem modLaunch_wf {t id : Nat} {f : Launch → Launch} (h : MemoriesWf s) : MemoriesWf (modLaunch s t id f) := modTenant_wf h

theorem setLastErr_wf {t q code node : Nat} {number : Word} (h : MemoriesWf s) : MemoriesWf (setLastErr s t q code node number) :=
  modTenant_wf h

theorem failLaunch_wf {t : Nat} {n : Option NodeRef} {code : Nat} {cause : Cause} {record : Bool} (h : MemoriesWf s) :
    MemoriesWf (failLaunch s t n code cause record) := by
  unfold failLaunch
  split
  · exact h
  · split
    · exact h
    · split
      · exact h
      · extract_lets s₁ s₂
        have hs₁ : MemoriesWf s₁ := modLaunch_wf h
        have hs₂ : MemoriesWf s₂ := setLastErr_wf hs₁
        split
        · exact report_wf hs₂
        · exact hs₂

theorem abortSeg_wf {seg pos cid : Nat} {c : Cause} {tval pc : Word} (h : MemoriesWf s) :
    MemoriesWf (abortSeg s seg pos cid c tval pc) := by
  unfold abortSeg
  split
  · exact h
  · exact failLaunch_wf (report_wf (modCtx_wf (setSeg_wf h)))

theorem trapNow_wf {c : Cause} {tval : Word} (h : MemoriesWf s) : MemoriesWf (trapNow s c tval) := by
  unfold trapNow
  split
  · extract_lets s₁
    have hs₁ : MemoriesWf s₁ := by
      dsimp only [s₁]
      split
      · exact modCtx_wf h
      · exact h
    exact takeTrap_wf hs₁
  · exact abortSeg_wf h
  · exact h
  · exact h

theorem interrupted_wf (h : MemoriesWf s) : MemoriesWf (interrupted s) := by
  unfold interrupted
  split
  · exact modCtx_wf h
  · exact h

theorem lend_wf {core : Nat} {others : List Nat} (h : MemoriesWf s) : MemoriesWf (lend s core others) := by
  unfold lend
  split
  · exact h
  · split
    · exact h
    · exact h

theorem noteCover_wf {cid : Nat} {w : Why} (h : MemoriesWf s) : MemoriesWf (noteCover s cid w) := by
  unfold noteCover
  split
  · exact modCtx_wf h
  · exact h

theorem parkNow_wf {w : Why} (h : MemoriesWf s) : MemoriesWf (parkNow s w) := by
  unfold parkNow
  split
  · exact lend_wf (modCtx_wf (noteCover_wf (modCore_wf h fun _ hk => hk)))
  · exact h

theorem markIssued_wf (h : MemoriesWf s) : MemoriesWf (markIssued s) := by
  unfold markIssued
  split
  · exact modCore_wf h fun _ hk => hk
  · exact h

theorem askWalk_wf {cid : Nat} {seg : Option Nat} {va : Word} {write fetch : Bool} {pc : Word} (h : MemoriesWf s) :
    MemoriesWf (askWalk s cid seg va write fetch pc).2 := by
  unfold askWalk
  split
  · exact h
  · exact h

theorem sendPop_wf {cid : Nat} {r : Reg} {w : Bool} {dst : Option Reg} {pc : Word} {rep : Option RepRun} (h : MemoriesWf s) :
    MemoriesWf (sendPop s cid r w dst pc rep) := by
  unfold sendPop
  split
  · exact h
  · extract_lets
    split
    · exact h
    · split
      · rename_i s₁ e
        have hs₁ : MemoriesWf s₁ := wf_of_snd e h
        extract_lets s₂ s₃
        have hs₂ : MemoriesWf s₂ := by
          dsimp only [s₂]
          split
          · split
            · exact hs₁
            · exact emptyReg_wf hs₁
          · exact hs₁
        have hs₃ : MemoriesWf s₃ := modCtx_wf hs₂
        exact hs₃

theorem recordProbe_wf {v : Verdict} (h : MemoriesWf s) : MemoriesWf (recordProbe s v) := by
  unfold recordProbe
  split
  · exact modSeg_wf h
  · exact h

theorem settle_wf {v : Verdict} {eff : State → State} (heff : ∀ s, MemoriesWf s → MemoriesWf (eff s)) (h : MemoriesWf s) :
    NextWf (settle v eff s) := by
  unfold settle
  split
  · exact trivial
  · split
    · exact recordProbe_wf h
    · split
      · exact heff _ (markIssued_wf h)
      · exact heff _ (markIssued_wf h)
      · exact trapNow_wf (markIssued_wf h)
      · exact parkNow_wf h
      · exact parkNow_wf (interrupted_wf (askWalk_wf h))
      · exact sendPop_wf (markIssued_wf h)

/-! ## Registers, ports and results -/

theorem holdNow_wf {h : Hold} (hs : MemoriesWf s) : MemoriesWf (holdNow h s) := modCtx_wf (retire_wf (modCtx_wf hs))

theorem setFlags_wf {f : BitVec 5} {cid : Nat} (h : MemoriesWf s) : MemoriesWf (setFlags f cid s) := modCtx_wf h

theorem sendPush_wf {r : Reg} {v : Word} {flags : BitVec 5} (h : MemoriesWf s) : MemoriesWf (sendPush r v flags s) := by
  unfold sendPush
  split
  · exact h
  · exact modCtx_wf (holdNow_wf h)

theorem finish_wf {rd : Reg} {v : Word} {flags : BitVec 5} (h : MemoriesWf s) : MemoriesWf (finish rd v flags s) := by
  unfold finish
  split
  · exact h
  · split
    · exact sendPush_wf h
    · exact retire_wf (writeReg_wf (setFlags_wf h))

theorem done_wf (h : MemoriesWf s) : MemoriesWf (done s) := retire_wf h

/-! ## Memory words -/

theorem loadEffect_wf {va : Word} {z : Nat} {ca acq : Bool} {d : Reg} (h : MemoriesWf s) : MemoriesWf (loadEffect va z ca acq d s) := by
  unfold loadEffect
  split
  · exact h
  · extract_lets k
    have hk : SpWf k := getCore_wf h
    split
    · exact h
    · split
      · exact retire_wf (writeReg_wf h)
      · extract_lets
        split
        · rename_i s₁ e
          have hs₁ : MemoriesWf s₁ := wf_of_snd e h
          extract_lets s₂ s₃
          have hs₂ : MemoriesWf s₂ := hs₁
          have hs₃ : MemoriesWf s₃ := by
            dsimp only [s₃]
            split
            · exact modCtx_wf hs₂
            · exact hs₂
          exact retire_wf (emptyReg_wf hs₃)

theorem load_wf {ca : Bool} {i : BitVec 8} {z : BitVec 3} {d a : Reg} (h : MemoriesWf s) : NextWf (load ca i z d a s) :=
  settle_wf (fun _ h₁ => loadEffect_wf h₁) h

theorem execLdAcq_wf {_scope : BitVec 2} {i : BitVec 8} {z : Bool} {d a : Reg} (h : MemoriesWf s) : NextWf (execLdAcq _scope i z d a s) :=
  settle_wf (fun _ h₁ => loadEffect_wf h₁) h

theorem storeEffect_wf {va : Word} {n : Nat} {v : Word} {rel : Option (BitVec 2)} (h : MemoriesWf s) :
    MemoriesWf (storeEffect va n v rel s) := by
  unfold storeEffect
  split
  · exact h
  · split
    · exact h
    · exact retire_wf (modCore_wf h fun _ hk => hk)

theorem store_wf {n : Nat} {rel : Option (BitVec 2)} {i : BitVec 8} {a b : Reg} (h : MemoriesWf s) : NextWf (store n rel i a b s) := by
  unfold store
  exact settle_wf (fun _ h₁ => storeEffect_wf h₁) h

theorem spStore_wf {k : Core} {a : Nat} {bs : List Byte} (hk : SpWf k) : SpWf (spStore k a bs) := spWrite_wf hk

theorem poisonLoad_wf {cid : Nat} {d : Reg} {cause : Cause} {va : Word} (h : MemoriesWf s) : MemoriesWf (poisonLoad cid d cause va s) :=
  modCtx_wf (writeReg_wf h)

theorem execLds_wf {i : BitVec 8} {z : BitVec 3} {d a : Reg} (h : MemoriesWf s) : NextWf (execLds i z d a s) := by
  unfold execLds
  extract_lets
  refine settle_wf ?_ h
  intro s₁ h₁
  split
  · exact retire_wf (poisonLoad_wf h₁)
  · exact retire_wf (writeReg_wf h₁)

theorem execSts_wf {i : BitVec 8} {z : BitVec 2} {a b : Reg} (h : MemoriesWf s) : NextWf (execSts i z a b s) :=
  settle_wf (fun _ h₁ => retire_wf (modCore_wf h₁ fun _ hk => spStore_wf hk)) h

/-! ## Atomics and tokens -/

theorem sendClass_wf {cls : Class} {op : ReqOp} {n : Nat} {va : Word} {d : Reg} (h : MemoriesWf s) :
    MemoriesWf (sendClass cls op n va d s) := by
  unfold sendClass
  split
  · exact h
  · split
    · exact h
    · exact retire_wf (emptyReg_wf (modCtx_wf h))

theorem amo_wf {fn : AmoFn} {cls : Class} {w : Bool} {d a b : Reg} (h : MemoriesWf s) : NextWf (amo fn cls w d a b s) :=
  settle_wf (fun _ h₁ => sendClass_wf h₁) h

theorem amosEffect_wf {fn : AmoFn} {va b c : Word} {d : Reg} (h : MemoriesWf s) : MemoriesWf (amosEffect fn va b c d s) := by
  unfold amosEffect
  extract_lets n k bad old s₁
  have hk : SpWf k := getCore_wf h
  have hs₁ : MemoriesWf s₁ := by
    dsimp only [s₁]
    split
    · exact h
    · exact modCore_wf h fun _ hk₁ => spWrite_wf hk₁
  exact retire_wf (emptyReg_wf hs₁)

theorem amos_wf {fn : AmoFn} {w : Bool} {d a b : Reg} (h : MemoriesWf s) : NextWf (amos fn w d a b s) :=
  settle_wf (fun _ h₁ => amosEffect_wf h₁) h

theorem fence_wf {scope : BitVec 2} (h : MemoriesWf s) : NextWf (fence scope s) := settle_wf (fun _ h₁ => retire_wf (modCtx_wf h₁)) h

/-! ## The fetch -/

theorem fetchWord_wf {n : Option NodeRef} {l : Loc} {p : Page} (h : MemoriesWf s) : MemoriesWf (fetchWord s n l p).2 := by
  unfold fetchWord
  split
  · extract_lets
    split
    · exact h
    · exact h
  · exact h
  · exact h

theorem fetch_wf {core : Nat} {v : BitVec 16} {n : Option NodeRef} {pc : Word} (h : MemoriesWf s) : MemoriesWf (fetch s core v n pc).2 := by
  unfold fetch
  split
  · exact h
  · split
    · exact h
    · split
      · exact h
      · exact fetchWord_wf h

/-! ## Branches, jumps and repeats -/

theorem goTo_wf {t : Word} (h : MemoriesWf s) : MemoriesWf (goTo t s) := by
  unfold goTo
  split
  · extract_lets p s₁
    have hs₁ : MemoriesWf s₁ := retire_wf h
    split
    · exact modCtx_wf hs₁
    · exact hs₁
  · exact modCtx_wf h

theorem branch_wf {cond : Word → Word → Bool} {i : BitVec 11} {a b : Reg} (h : MemoriesWf s) : NextWf (branch cond i a b s) := by
  unfold branch
  refine settle_wf ?_ h
  intro s₁ h₁
  split
  · exact goTo_wf h₁
  · exact retire_wf h₁

theorem link_wf {d : Reg} {t : Word} (h : MemoriesWf s) : MemoriesWf (link d t s) := goTo_wf (writeReg_wf h)

theorem execJal_wf {i : BitVec 18} {d : Reg} (h : MemoriesWf s) : NextWf (execJal i d s) := settle_wf (fun _ h₁ => link_wf h₁) h

theorem execJalr_wf {i : BitVec 11} {d a : Reg} (h : MemoriesWf s) : NextWf (execJalr i d a s) := settle_wf (fun _ h₁ => link_wf h₁) h

theorem repTarget_wf {c : Ctx} (h : MemoriesWf s) : MemoriesWf (repTarget s c).2 := fetch_wf h

theorem repPrefix_wf {os ci : Bool} {sc sb sa : BitVec 2} {n : Reg} (h : MemoriesWf s) : NextWf (repPrefix os ci sc sb sa n s) := by
  unfold repPrefix
  split
  · exact trivial
  · extract_lets
    refine settle_wf ?_ h
    intro s₁ h₁
    split
    · split
      · exact modCtx_wf h₁
      · split
        · rename_i s₂ e
          have hs₂ : MemoriesWf s₂ := wf_of_snd e (repTarget_wf h₁)
          exact hs₂
        · rename_i e
          exact wf_of_snd e (repTarget_wf h₁)

/-! ## Marks -/

theorem modField_wf {t f : Nat} {g : Field → Field} (h : MemoriesWf s) : MemoriesWf (modField s t f g) := modTenant_wf h

theorem deposit_wf {max_ : Bool} {cls : Class} {w : Bool} {a b : Reg} (h : MemoriesWf s) : NextWf (deposit max_ cls w a b s) :=
  settle_wf (fun _ h₁ => sendClass_wf h₁) h

theorem sendRead_wf {op : ReqOp} {n : Nat} {va : Word} {d : Reg} (h : MemoriesWf s) : MemoriesWf (sendRead op n va d s) := by
  unfold sendRead
  split
  · exact h
  · split
    · exact h
    · exact retire_wf (emptyReg_wf h)

theorem execPeek_wf {w : Bool} {d a : Reg} (h : MemoriesWf s) : NextWf (execPeek w d a s) := settle_wf (fun _ h₁ => sendRead_wf h₁) h

theorem execSense_wf {w : Bool} {d a b : Reg} (h : MemoriesWf s) : NextWf (execSense w d a b s) := settle_wf (fun _ h₁ => sendRead_wf h₁) h

/-! ## Turns and beats -/

theorem newRotation_wf {k : Core} (hk : SpWf k) : SpWf (newRotation k) := hk

theorem barrelTurn_wf {core : Nat} (h : MemoriesWf s) : MemoriesWf (barrelTurn core s) := by
  unfold barrelTurn
  split
  · exact h
  · extract_lets k k₁ j src k₂ s₁
    have hk : SpWf k := getCore_wf h
    have hk₁ : SpWf k₁ := by
      dsimp only [k₁]
      split
      · exact newRotation_wf hk
      · exact hk
    have hk₂ : SpWf k₂ := hk₁
    have hs₁ : MemoriesWf s₁ := setCore_wf h hk₂
    split
    · exact hs₁
    · split
      · exact hs₁
      · extract_lets k₃ s₂ after
        have hk₃ : SpWf k₃ := hk₂
        have hs₂ : MemoriesWf s₂ := setCore_wf hs₁ hk₃
        split
        · exact hs₂
        · exact lend_wf hs₂

theorem execBarrelCycle_wf (h : MemoriesWf s) : NextWf (execBarrelCycle s) := barrelTurn_wf h

theorem planWord_wf {core : Nat} {g : Seg} {w : W32} (h : MemoriesWf s) : MemoriesWf (planWord s core g w).2 := by
  unfold planWord
  extract_lets
  split
  · exact h
  · split
    · split
      · rename_i e
        exact wf_of_snd e (fetch_wf h)
      · rename_i s₁ e
        have hs₁ : MemoriesWf s₁ := wf_of_snd e (fetch_wf h)
        split <;> exact hs₁
      · rename_i s₁ _ e
        have hs₁ : MemoriesWf s₁ := wf_of_snd e (fetch_wf h)
        split <;> exact hs₁
    · split
      · exact h
      · split <;> exact h

theorem planBeat_wf {g : Seg} (h : MemoriesWf s) : MemoriesWf (planBeat s g).2 := by
  unfold planBeat
  split
  · split
    · exact h
    · split
      · exact h
      · split
        · exact h
        · split
          · exact h
          · split
            · rename_i e
              exact planWord_wf (wf_of_snd e (fetch_wf h))
            · rename_i e
              exact wf_of_snd e (fetch_wf h)
            · rename_i e
              exact wf_of_snd e (fetch_wf h)
  · split <;> exact h

theorem beginBeat_wf {seg : Nat} (h : MemoriesWf s) : MemoriesWf (beginBeat seg s) := by
  unfold beginBeat
  split
  · exact h
  · split
    · exact h
    · split
      · exact setSeg_wf h
      · split
        · rename_i s₁ e
          have hs₁ : MemoriesWf s₁ := wf_of_snd e (planBeat_wf h)
          exact setSeg_wf hs₁
        · rename_i s₁ e
          have hs₁ : MemoriesWf s₁ := wf_of_snd e (planBeat_wf h)
          exact hs₁

theorem execStreamBeat_wf (h : MemoriesWf s) : NextWf (execStreamBeat s) := beginBeat_wf h

theorem holdBeat_wf {seg : Nat} {g : Seg} (h : MemoriesWf s) : MemoriesWf (holdBeat seg g s) := by
  unfold holdBeat
  refine foldl_wf h fun {s₁ x} hs₁ => ?_
  split
  · split
    · exact hs₁
    · extract_lets
      split
      · exact modCtx_wf (askWalk_wf hs₁)
      · split
        · exact sendPop_wf hs₁
        · exact hs₁
      · exact noteCover_wf hs₁
      · exact hs₁

theorem runBeat_wf {seg : Nat} {g : Seg} {plan : Plan} (h : MemoriesWf s) : MemoriesWf (runBeat seg g plan s) := by
  unfold runBeat
  extract_lets
  split
  · extract_lets g' s₁ s₂ s₃ s₄
    have hs₁ : MemoriesWf s₁ := foldl_wf (setSeg_wf h) fun h₁ => modCtx_wf h₁
    have hs₂ : MemoriesWf s₂ := foldl_wf hs₁ fun h₁ => modCtx_wf h₁
    have hs₃ : MemoriesWf s₃ := hs₂
    have hs₄ : MemoriesWf s₄ := modSeg_wf hs₃
    split
    · exact hs₃
    · exact failLaunch_wf (report_wf hs₄)

theorem pushFirst_wf {seg : Nat} {g : Seg} {plan : Plan} (h : MemoriesWf s) : MemoriesWf (pushFirst seg g plan s) := by
  unfold pushFirst
  extract_lets pushes s₁ src
  have hs₁ : MemoriesWf s₁ := foldl_wf h fun h₁ => modCtx_wf h₁
  have hsrc : MemoriesWf src := setSeg_wf hs₁
  exact hsrc

theorem decideBeat_wf {seg : Nat} (h : MemoriesWf s) : MemoriesWf (decideBeat seg s) := by
  unfold decideBeat
  split
  · exact h
  · split
    · exact h
    · extract_lets holds traps
      split
      · exact setSeg_wf (holdBeat_wf h)
      · clear_value traps
        split
        · split
          · exact pushFirst_wf h
          · exact runBeat_wf h
        · split
          · split
            · exact h
            · exact abortSeg_wf (modCtx_wf h)

/-! ## The home units -/

theorem countHold_wf {die : Nat} {l : Loc} {p : Page} {n : Nat} (h : MemoriesWf s) : MemoriesWf (countHold s die l p n) := by
  unfold countHold
  split
  · exact h
  · split
    · exact h
    · exact countEvent_wf h

theorem unpoison_wf {l : Loc} {n : Nat} (h : MemoriesWf s) : MemoriesWf (unpoison s l n) := by
  unfold unpoison
  split
  · exact h
  · exact modCore_wf h fun _ hk => hk
  · exact h

theorem mapCtxs_wf {k : Core} {f : Nat → Ctx → Ctx} (hk : SpWf k) : SpWf (mapCtxs k f) := hk

theorem rewake_wf {core : Nat} (h : MemoriesWf s) : MemoriesWf (rewake s core) := modCore_wf h fun _ hk => mapCtxs_wf hk

theorem wake_wf {cid : Nat} (h : MemoriesWf s) : MemoriesWf (wake s cid) := modCtx_wf h

theorem trapHeld_wf {cid : Nat} {c : Cause} {tval : Word} (h : MemoriesWf s) : MemoriesWf (trapHeld s cid c tval) := by
  unfold trapHeld
  split
  · exact h
  · split
    · exact abortSeg_wf (setCtx_wf h)
    · exact takeTrap_wf (setCtx_wf h)

theorem withdraw_wf {cid : Nat} (h : MemoriesWf s) : MemoriesWf (withdraw s cid) := modCtx_wf h

theorem pendTrap_wf {cid : Nat} {cause : Cause} {va : Word} (h : MemoriesWf s) : MemoriesWf (pendTrap s cid cause va) := modCtx_wf h

theorem dropStore_wf {t cid id : Nat} {va : Word} {l : Loc} (h : MemoriesWf s) : MemoriesWf (dropStore s t cid id va l) := by
  unfold dropStore
  extract_lets known s₁
  have hs₁ : MemoriesWf s₁ := h
  split
  · exact hs₁
  · exact report_wf hs₁

/-! ## The engines' accesses -/

theorem poisonPlace_wf {l : Loc} {n : Nat} (h : MemoriesWf s) : MemoriesWf (poisonPlace s l n) := by
  unfold poisonPlace
  split
  · exact h
  · exact modCore_wf h fun _ hk => hk
  · exact h

theorem engineReport_wf {t core chan : Nat} {node : Option NodeRef} {cause : Cause} {wr : Bool} {va : Word} (h : MemoriesWf s) :
    MemoriesWf (engineReport s t core chan node cause wr va) :=
  report_wf h

theorem engineWrite_wf {die t cid cmd : Nat} {p : Page} {va : Word} {bs : List Byte} {bad : Bool} (h : MemoriesWf s) :
    MemoriesWf (engineWrite s die t cid cmd p va bs bad) := by
  unfold engineWrite
  extract_lets l s₁ s₂
  have hs₁ : MemoriesWf s₁ := noteWrite_wf h
  have hs₂ : MemoriesWf s₂ := writeHome_wf (touch_wf h)
  split
  · exact dropStore_wf h
  · clear_value l
    split
    · exact hs₁
    · exact hs₁
    · split
      · exact poisonPlace_wf hs₂
      · exact unpoison_wf hs₂

theorem unclaimLine_wf {cmd : Nat} {l : Loc} (h : MemoriesWf s) : MemoriesWf (unclaimLine s cmd l) := h

theorem dropClaim_wf {cmd : Nat} (h : MemoriesWf s) : MemoriesWf (dropClaim s cmd) := mapCores_wf h (fun _ => rfl) fun _ hk => hk

theorem claimLines_wf {engine cmd cid : Nat} {p : Page} {va : Word} {ls : List Loc} (h : MemoriesWf s) :
    MemoriesWf (claimLines s engine cmd cid p va ls) :=
  modCore_wf h fun _ hk => hk

theorem settleWaits_wf {core : Nat} (h : MemoriesWf s) : MemoriesWf (settleWaits s core) :=
  rewake_wf (modCore_wf h fun _ hk => mapCtxs_wf hk)

/-! ## Placing -/

theorem modNode_wf {t : Nat} {n : NodeRef} {f : LNode → LNode} (h : MemoriesWf s) : MemoriesWf (modNode s t n f) := modLaunch_wf h

theorem countNode_wf {t : Nat} {n : Option NodeRef} {up : Bool} (h : MemoriesWf s) : MemoriesWf (countNode s t n up) := by
  unfold countNode
  split
  · exact h
  · exact modNode_wf h

theorem raiseRow_wf {core : Nat} (h : MemoriesWf s) : MemoriesWf (raiseRow s core) := by
  unfold raiseRow
  split
  · exact modRow_wf h
  · exact h

theorem refreshWin_wf {core : Nat} (h : MemoriesWf s) : MemoriesWf (refreshWin s core) := setCore_wf h (getCore_wf h)

theorem placeAt_wf {core slot base : Nat} {c : Cont} (h : MemoriesWf s) : MemoriesWf (placeAt s core slot base c) :=
  refreshWin_wf (raiseRow_wf (modCore_wf h fun _ hk => hk))

theorem place_wf {core : Nat} {c : Cont} (h : MemoriesWf s) : SomeWf (place s core c) := by
  unfold place
  split
  · exact placeAt_wf h
  · exact trivial

theorem installRing_wf {core : Nat} {c : Cont} (h : MemoriesWf s) : MemoriesWf (installRing s core c) := by
  unfold installRing
  split
  · split
    · exact modCore_wf h fun _ hk => hk
    · exact h
  · exact h

theorem removeRing_wf {core : Nat} (h : MemoriesWf s) : MemoriesWf (removeRing s core) := by
  unfold removeRing
  extract_lets k busy
  have hk : SpWf k := getCore_wf h
  split
  · exact h
  · exact setCore_wf h hk

theorem spill_wf {core : Nat} {c : Cont} (h : MemoriesWf s) : SomeWf (spill s core c) := by
  unfold spill
  split
  · exact trivial
  · split
    · exact trivial
    · split
      · rename_i s₁ e
        have hs₁ : MemoriesWf s₁ := wf_of_snd e (translate_wf h)
        exact trivial
      · rename_i s₁ e
        have hs₁ : MemoriesWf s₁ := wf_of_snd e (translate_wf h)
        split
        · exact trivial
        · exact modCore_wf (unpoison_wf (writeHome_wf (touch_wf hs₁))) fun _ hk => hk

theorem deliver_wf {core : Nat} {c : Cont} (h : MemoriesWf s) : MemoriesWf (deliver s core c).2 := by
  unfold deliver
  extract_lets k placed
  have hk : SpWf k := getCore_wf h
  have hplaced : SomeWf placed := by
    dsimp only [placed]
    split
    · exact place_wf h
    · exact trivial
  clear_value placed
  split
  · exact installRing_wf hplaced
  · split
    · exact refreshWin_wf (installRing_wf (raiseRow_wf (modCore_wf h fun _ hk₁ => hk₁)))
    · split
      · rename_i e
        exact wf_of_some e (spill_wf h)
      · exact h

theorem refill_wf {core : Nat} (h : MemoriesWf s) : MemoriesWf (refill s core) := by
  unfold refill
  extract_lets k
  have hk : SpWf k := getCore_wf h
  split
  · exact h
  · split
    · exact h
    · split
      · rename_i s₁ e
        have hs₁ : MemoriesWf s₁ := wf_of_snd e (translate_wf h)
        extract_lets l s₂ ws
        have hs₂ : MemoriesWf s₂ := touch_wf hs₁
        split
        · exact countHold_wf hs₁
        · split
          · exact hs₂
          · exact refreshWin_wf (raiseRow_wf (modCore_wf hs₂ fun _ hk₁ => hk₁))
      · rename_i s₁ e
        have hs₁ : MemoriesWf s₁ := wf_of_snd e (translate_wf h)
        extract_lets
        split
        · rename_i s₂ e₁
          have hs₂ : MemoriesWf s₂ := by
            refine wf_of_snd e₁ ?_
            split <;> exact report_wf hs₁
          exact modCore_wf hs₂ fun _ hk₁ => hk₁

theorem execArrivalQueuePlace_wf (h : MemoriesWf s) : NextWf (execArrivalQueuePlace s) := by
  unfold execArrivalQueuePlace
  extract_lets core s₁
  have hs₁ : MemoriesWf s₁ := by
    dsimp only [s₁]
    split
    · exact h
    · split
      · exact h
      · split
        · rename_i e
          exact modCore_wf (wf_of_some e (place_wf h)) fun _ hk => hk
        · exact h
  split
  · exact h
  · exact refill_wf hs₁

theorem setGroup_wf {t h : Nat} {g : Group} (hs : MemoriesWf s) : MemoriesWf (setGroup s t h g) := modTenant_wf hs

theorem settlePhase_wf {t h : Nat} (hs : MemoriesWf s) : MemoriesWf (settlePhase s t h) := by
  unfold settlePhase
  extract_lets g held s₁
  have hs₁ : MemoriesWf s₁ := mapCores_wf hs (fun _ => rfl) fun _ hk => mapCtxs_wf hk
  split
  · exact setGroup_wf hs₁
  · exact hs

theorem leaveGroup_wf {t h : Nat} (hs : MemoriesWf s) : MemoriesWf (leaveGroup s t h) := settlePhase_wf (setGroup_wf hs)

theorem groupIssue_wf {t h n : Nat} (hs : MemoriesWf s) : MemoriesWf (groupIssue s t h n) := setGroup_wf hs

theorem groupLand_wf {t h n : Nat} (hs : MemoriesWf s) : MemoriesWf (groupLand s t h n) := settlePhase_wf (setGroup_wf hs)

theorem withdrawBar_wf {cid : Nat} (h : MemoriesWf s) : MemoriesWf (withdrawBar s cid) := by
  unfold withdrawBar
  split
  · exact h
  · split
    · exact withdraw_wf (setGroup_wf h)
    · exact h

theorem closeStep_wf {cid : Nat} (h : MemoriesWf s) : MemoriesWf (closeStep s cid) := by
  unfold closeStep
  refine modCore_wf h ?_
  intro k hk
  split
  · split <;> exact hk
  · exact hk

theorem removeCtx_wf {cid : Nat} (h : MemoriesWf s) : MemoriesWf (removeCtx s cid) := by
  unfold removeCtx
  split
  · exact h
  · exact refreshWin_wf (removeRing_wf (modCore_wf h fun _ hk => hk))

theorem endCtx_wf {cid : Nat} (h : MemoriesWf s) : MemoriesWf (endCtx s cid) := by
  unfold endCtx
  split
  · exact h
  · extract_lets s₁ s₂
    have hs₁ : MemoriesWf s₁ := closeStep_wf h
    have hs₂ : MemoriesWf s₂ := by
      dsimp only [s₂]
      split
      · split
        · exact hs₁
        · exact leaveGroup_wf hs₁
      · exact hs₁
    exact countNode_wf (removeCtx_wf hs₂)

/-! ## Copies -/

theorem cpyEffect_wf {srcSp dstSp : Bool} {ch : Nat} {src dst : Word} {n : Nat} (h : MemoriesWf s) :
    MemoriesWf (cpyEffect srcSp dstSp ch src dst n s) := by
  unfold cpyEffect
  split
  · exact h
  · extract_lets k dp
    have hk : SpWf k := getCore_wf h
    split
    · rename_i s₁ e
      have hs₁ : MemoriesWf s₁ := wf_of_snd e h
      extract_lets x s₂ s₃
      have hs₂ : MemoriesWf s₂ := by
        dsimp only [s₂]
        split
        · exact hs₁
        · exact claimLines_wf hs₁
      have hs₃ : MemoriesWf s₃ := by
        dsimp only [s₃]
        split
        · exact groupIssue_wf hs₂
        · exact hs₂
      exact modCore_wf hs₃ fun _ hk₁ => hk₁

theorem cpy_wf {srcSp dstSp w : Bool} {ch : BitVec 2} {a b : Reg} (h : MemoriesWf s) : NextWf (cpy srcSp dstSp w ch a b s) := by
  unfold cpy
  refine settle_wf ?_ h
  intro s₁ h₁
  extract_lets
  refine done_wf ?_
  split
  · exact h₁
  · exact cpyEffect_wf h₁

theorem readUnit_wf {core : Nat} {x : Chan} {ext : List Byte} (h : MemoriesWf s) : MemoriesWf (readUnit s core x ext).2.2 := by
  unfold readUnit
  extract_lets a l s₁
  have hs₁ : MemoriesWf s₁ := touch_wf h
  split
  · exact h
  · split
    · exact hs₁
    · split <;> exact hs₁

theorem writeUnit_wf {core : Nat} {x : Chan} {bs : List Byte} {bad : Bool} (h : MemoriesWf s) : MemoriesWf (writeUnit s core x bs bad) := by
  unfold writeUnit
  extract_lets
  split
  · exact modCore_wf h fun _ hk => spStore_wf hk
  · exact engineWrite_wf h

theorem releaseLine_wf {x : Chan} (h : MemoriesWf s) : MemoriesWf (releaseLine s x) := by
  unfold releaseLine
  split
  · exact h
  · extract_lets
    split
    · exact h
    · exact unclaimLine_wf h

theorem moveUnit_wf {core ch : Nat} {x : Chan} {ext : List Byte} (h : MemoriesWf s) : MemoriesWf (moveUnit s core ch x ext) := by
  unfold moveUnit
  split
  · rename_i s₁ e
    have hs₁ : MemoriesWf s₁ := wf_of_snd_snd e (readUnit_wf h)
    extract_lets s₂ s₃ s₄ s₅
    have hs₂ : MemoriesWf s₂ := by
      dsimp only [s₂]
      split
      · split
        · exact hs₁
        · exact engineReport_wf hs₁
      · exact hs₁
    have hs₃ : MemoriesWf s₃ := writeUnit_wf hs₂
    have hs₄ : MemoriesWf s₄ := releaseLine_wf hs₃
    have hs₅ : MemoriesWf s₅ := modCore_wf hs₄ fun _ hk => hk
    split
    · exact groupLand_wf hs₅
    · exact hs₅

theorem moveUnits_wf {core n : Nat} {ext : List Byte} (h : MemoriesWf s) : MemoriesWf (moveUnits core n ext s) := by
  induction n generalizing s ext with
  | zero => exact h
  | succ n ih =>
    unfold moveUnits
    split
    · exact h
    · exact ih (moveUnit_wf h)

theorem execCopyUnitTransfer_wf (h : MemoriesWf s) : NextWf (execCopyUnitTransfer s) := by
  unfold execCopyUnitTransfer
  extract_lets
  split
  · exact h
  · exact settleWaits_wf (moveUnits_wf h)

theorem freeChan_wf {core ch : Nat} {x : Chan} (h : MemoriesWf s) : MemoriesWf (freeChan s core ch x) :=
  settleWaits_wf (modCore_wf (dropClaim_wf h) fun _ hk => hk)

theorem execCopyCommandComplete_wf (h : MemoriesWf s) : NextWf (execCopyCommandComplete s) := by
  unfold execCopyCommandComplete
  extract_lets
  split
  · split
    · exact freeChan_wf h
    · exact h
  · exact h

theorem subEffect_wf {pull : Bool} {ch : Nat} {va : Word} (h : MemoriesWf s) : MemoriesWf (subEffect pull ch va s) := by
  unfold subEffect
  split
  · exact h
  · extract_lets k
    have hk : SpWf k := getCore_wf h
    split
    · exact h
    · extract_lets
      split
      · rename_i s₁ e
        have hs₁ : MemoriesWf s₁ := wf_of_snd e (touch_wf h)
        split
        · rename_i s₂ e₁
          have hs₂ : MemoriesWf s₂ := wf_of_snd e₁ hs₁
          extract_lets x s₃
          have hs₃ : MemoriesWf s₃ := by
            dsimp only [s₃]
            split
            · exact claimLines_wf hs₂
            · exact hs₂
          exact modCore_wf hs₃ fun _ hk₁ => hk₁

theorem subscribe_wf {pull w : Bool} {ch : BitVec 2} {a : Reg} (h : MemoriesWf s) : NextWf (subscribe pull w ch a s) :=
  settle_wf (fun _ h₁ => done_wf (subEffect_wf h₁)) h

theorem execCpySubRet_wf {w : Bool} {c : BitVec 2} {a : Reg} (h : MemoriesWf s) : NextWf (execCpySubRet w c a s) :=
  settle_wf (fun _ h₁ => done_wf (modCore_wf h₁ fun _ hk => hk)) h

theorem landTile_wf {core ch : Nat} {x : Chan} {ext : List Byte} (h : MemoriesWf s) : MemoriesWf (landTile s core ch x ext) := by
  unfold landTile
  extract_lets a s₁
  have hs₁ : MemoriesWf s₁ := by
    dsimp only [s₁]
    refine foldl_wf h fun {s₂ x} hs₂ => ?_
    refine modCore_wf ?_ (fun _ hk => spStore_wf hk)
    split
    · exact engineReport_wf (touch_wf hs₂)
    · exact touch_wf hs₂
  exact modCore_wf hs₁ fun _ hk => hk

theorem execSubscriptionTileLand_wf (h : MemoriesWf s) : NextWf (execSubscriptionTileLand s) := by
  unfold execSubscriptionTileLand
  extract_lets
  split
  · split
    · exact settleWaits_wf (landTile_wf h)
    · exact h
  · exact h

theorem pullTile_wf {core ch : Nat} {x : Chan} (h : MemoriesWf s) : MemoriesWf (pullTile s core ch x) := by
  unfold pullTile
  extract_lets a later s₁
  have hs₁ : MemoriesWf s₁ := by
    dsimp only [s₁]
    refine foldl_wf h fun {s₂ x} hs₂ => ?_
    split
    · split
      · exact engineWrite_wf (engineReport_wf hs₂)
      · exact unclaimLine_wf (engineWrite_wf (engineReport_wf hs₂))
    · split
      · exact engineWrite_wf hs₂
      · exact unclaimLine_wf (engineWrite_wf hs₂)
  exact modCore_wf hs₁ fun _ hk => hk

theorem execSubscriptionPullBack_wf (h : MemoriesWf s) : NextWf (execSubscriptionPullBack s) := by
  unfold execSubscriptionPullBack
  extract_lets
  split
  · split
    · exact settleWaits_wf (pullTile_wf h)
    · exact h
  · exact h

theorem execCfence_wf (h : MemoriesWf s) : NextWf (execCfence s) := by
  unfold execCfence
  refine settle_wf ?_ h
  intro s₁ h₁
  split
  · exact done_wf h₁
  · exact holdNow_wf h₁

theorem execCwait_wf {w : Bool} {a b : Reg} (h : MemoriesWf s) : NextWf (execCwait w a b s) := by
  unfold execCwait
  refine settle_wf ?_ h
  intro s₁ h₁
  extract_lets
  split
  · exact done_wf h₁
  · exact holdNow_wf h₁

/-! ## Floating point -/

theorem float2_wf {f : Nat → Nat → Nat × FFlags} {w : Bool} {d a b : Reg} (h : MemoriesWf s) : NextWf (float2 f w d a b s) :=
  settle_wf (fun _ h₁ => finish_wf h₁) h

theorem float1_wf {f : Nat → Nat × FFlags} {w : Bool} {d a : Reg} (h : MemoriesWf s) : NextWf (float1 f w d a s) :=
  settle_wf (fun _ h₁ => finish_wf h₁) h

theorem float3_wf {f : Nat → Nat → Nat → Nat × FFlags} {w : Bool} {d a b : Reg} (h : MemoriesWf s) : NextWf (float3 f w d a b s) :=
  settle_wf (fun _ h₁ => finish_wf h₁) h

theorem sfuWord_wf {fn : Nat} {w : Bool} {d a : Reg} (h : MemoriesWf s) : NextWf (sfuWord fn w d a s) :=
  settle_wf (fun _ h₁ => retire_wf (emptyReg_wf (modCore_wf h₁ fun _ hk => hk))) h

theorem execSfuAccept_wf (h : MemoriesWf s) : NextWf (execSfuAccept s) := by
  unfold execSfuAccept
  extract_lets
  split
  · exact h
  · split
    · exact h
    · exact h

theorem execCtab_wf {w : Bool} {a : Reg} (h : MemoriesWf s) : NextWf (execCtab w a s) :=
  settle_wf (fun _ h₁ => done_wf (modCore_wf h₁ fun _ hk => hk)) h

/-! ## Streams -/

theorem sbind_wf {dir : Word} {w : Bool} {d a : Reg} (h : MemoriesWf s) : NextWf (sbind dir w d a s) :=
  settle_wf (fun _ h₁ => done_wf (modCtx_wf (writeReg_wf h₁))) h

theorem execSunbind_wf {d : Reg} (h : MemoriesWf s) : NextWf (execSunbind d s) := settle_wf (fun _ h₁ => done_wf (modCtx_wf h₁)) h

theorem answerPort_wf {id : Nat} {v : Word} {cause : Option Cause} {tval : Word} (h : MemoriesWf s) :
    MemoriesWf (answerPort s id v cause tval) :=
  h

theorem arriveAtUnit_wf {o : PortOp} (h : MemoriesWf s) : MemoriesWf (arriveAtUnit s o) := by
  unfold arriveAtUnit
  split
  · exact h
  · exact h

theorem elemPage_wf {o : PortOp} {a : Word} (h : MemoriesWf s) : MemoriesWf (elemPage s o a).2 := by
  unfold elemPage
  extract_lets
  split
  · rename_i e
    exact wf_of_snd e (translate_wf h)
  · rename_i s₁ e
    have hs₁ : MemoriesWf s₁ := wf_of_snd e (translate_wf h)
    extract_lets
    split
    · rename_i s₂ e₁
      have hs₂ : MemoriesWf s₂ := by
        refine wf_of_snd e₁ ?_
        split <;> exact report_wf hs₁
      exact hs₂

theorem popStep_wf {o : PortOp} (h : MemoriesWf s) : MemoriesWf (popStep s o) := by
  unfold popStep
  extract_lets die s₁ d a
  have hs₁ : MemoriesWf s₁ := touch_wf h
  split
  · split
    · exact answerPort_wf hs₁
    · exact hs₁
  · split
    · rename_i e
      exact wf_of_snd e (elemPage_wf hs₁)
    · rename_i s₂ e
      have hs₂ : MemoriesWf s₂ := wf_of_snd e (elemPage_wf hs₁)
      split
      · exact answerPort_wf hs₂
      · split
        · exact countHold_wf hs₂
        · extract_lets s₃ bad v s₄ s₅
          have hs₃ : MemoriesWf s₃ := touch_wf hs₂
          have hs₄ : MemoriesWf s₄ := writeHome_wf hs₃
          have hs₅ : MemoriesWf s₅ := by
            dsimp only [s₅]
            split
            · exact pendTrap_wf hs₄
            · exact hs₄
          exact answerPort_wf hs₅

theorem pushStep_wf {o : PortOp} (h : MemoriesWf s) : MemoriesWf (pushStep s o) := by
  unfold pushStep
  extract_lets die s₁ d a
  have hs₁ : MemoriesWf s₁ := touch_wf h
  split
  · exact hs₁
  · split
    · rename_i e
      exact wf_of_snd e (elemPage_wf hs₁)
    · rename_i s₂ e
      have hs₂ : MemoriesWf s₂ := wf_of_snd e (elemPage_wf hs₁)
      split
      · exact answerPort_wf hs₂
      · split
        · exact countHold_wf hs₂
        · exact answerPort_wf (writeHome_wf (unpoison_wf (writeHome_wf (touch_wf hs₂))))

theorem portAnswered_wf {o : PortOp} (h : MemoriesWf s) : MemoriesWf (portAnswered s o) := by
  unfold portAnswered
  extract_lets s₁
  have hs₁ : MemoriesWf s₁ := h
  split
  · exact hs₁
  · split
    · split
      · exact hs₁
      · split
        · exact rewake_wf (wake_wf (setFlags_wf hs₁))
        · exact trapHeld_wf hs₁
    · split
      · exact hs₁
      · extract_lets s₂ s₃
        have hs₂ : MemoriesWf s₂ := setCtx_wf hs₁
        have hs₃ : MemoriesWf s₃ := by
          dsimp only [s₃]
          split
          · exact setFull_wf hs₂
          · exact hs₂
        split
        · exact hs₃
        · exact hs₃
    · exact hs₁

theorem portStep_wf {push : Bool} {id : Nat} (h : MemoriesWf s) : MemoriesWf (portStep s push id) := by
  unfold portStep
  split
  · exact h
  · split
    · exact portAnswered_wf h
    · extract_lets s₁
      have hs₁ : MemoriesWf s₁ := arriveAtUnit_wf h
      split
      · exact hs₁
      · split
        · extract_lets s₂
          have hs₂ : MemoriesWf s₂ := by
            dsimp only [s₂]
            split
            · exact pushStep_wf hs₁
            · exact popStep_wf hs₁
          split
          · split
            · exact portAnswered_wf hs₂
            · exact hs₂
          · exact hs₂
        · exact countHold_wf hs₁

/-! ## Threads -/

theorem sendFlight_wf {cid : Nat} {c : Ctx} {isGo : Bool} {core : Nat} {a : Word} {ws : List Word} {hold : Nat → Hold} (h : MemoriesWf s) :
    MemoriesWf (sendFlight s cid c isGo core a ws hold) :=
  setCtx_wf h

theorem arriveBar_wf {cid : Nat} {c : Ctx} {rd : Reg} {h : Nat} (hs : MemoriesWf s) : MemoriesWf (arriveBar s cid c rd h) := by
  unfold arriveBar
  extract_lets g s₁
  have hs₁ : MemoriesWf s₁ := setCtx_wf hs
  split
  · exact setCtx_wf hs
  · exact settlePhase_wf (setGroup_wf hs₁)

theorem placeTick_wf {cid : Nat} {c : Ctx} {x : Word} (h : MemoriesWf s) : MemoriesWf (placeTick s cid c x) := by
  unfold placeTick
  extract_lets f d s₁
  have hs₁ : MemoriesWf s₁ := modField_wf h
  split
  · exact trapHeld_wf h
  · exact setCtx_wf hs₁

theorem tryOwed_wf {cid : Nat} (h : MemoriesWf s) : MemoriesWf (tryOwed s cid) := by
  unfold tryOwed
  split
  · exact h
  · split
    · split
      · exact h
      · split
        · exact sendFlight_wf h
        · exact sendFlight_wf h
        · split
          · exact h
          · exact arriveBar_wf h
        · exact setCtx_wf h
        · exact placeTick_wf h
    · exact h

theorem owe_wf {w : Owed} (h : MemoriesWf s) : MemoriesWf (owe w s) := tryOwed_wf (holdNow_wf h)

theorem execSpawn_wf {w : Bool} {d a b : Reg} (h : MemoriesWf s) : NextWf (execSpawn w d a b s) := by
  unfold execSpawn
  refine settle_wf ?_ h
  intro s₁ h₁
  split
  · exact h₁
  · exact owe_wf h₁

theorem execGo_wf {w : Bool} {a : Reg} (h : MemoriesWf s) : NextWf (execGo w a s) := by
  unfold execGo
  extract_lets
  refine settle_wf ?_ h
  intro s₁ h₁
  split
  · exact h₁
  · exact owe_wf h₁

theorem tryEnd_wf {cid : Nat} (h : MemoriesWf s) : MemoriesWf (tryEnd s cid) := by
  unfold tryEnd
  split
  · exact h
  · split
    · split
      · exact endCtx_wf h
      · exact h
    · exact h

theorem execQuit_wf (h : MemoriesWf s) : NextWf (execQuit s) := settle_wf (fun _ h₁ => tryEnd_wf (holdNow_wf h₁)) h

theorem execYield_wf (h : MemoriesWf s) : NextWf (execYield s) := settle_wf (fun _ h₁ => done_wf (modCtx_wf h₁)) h

theorem watchLine_wf {cid : Nat} {l : Loc} (h : MemoriesWf s) : MemoriesWf (watchLine s cid l) := h

theorem parkEffect_wf {va want : Word} (h : MemoriesWf s) : MemoriesWf (parkEffect va want s) := by
  unfold parkEffect
  split
  · exact h
  · split
    · exact h
    · split
      · split
        · exact retire_wf h
        · exact holdNow_wf (watchLine_wf h)
      · exact holdNow_wf h

theorem execPark_wf {w : Bool} {a b : Reg} (h : MemoriesWf s) : NextWf (execPark w a b s) := settle_wf (fun _ h₁ => parkEffect_wf h₁) h

theorem endPark_wf {cid : Nat} (h : MemoriesWf s) : MemoriesWf (endPark s cid) := by
  unfold endPark
  split
  · exact h
  · split
    · exact wake_wf h
    · exact h

theorem parkReturned_wf {r : Req} {want : Word} (h : MemoriesWf s) : MemoriesWf (parkReturned s r want) := by
  unfold parkReturned
  split
  · exact h
  · split
    · split
      · exact h
      · extract_lets s₁
        have hs₁ : MemoriesWf s₁ := setCtx_wf h
        split
        · exact pendTrap_wf (endPark_wf hs₁)
        · split
          · exact pendTrap_wf (endPark_wf hs₁)
          · split
            · exact endPark_wf hs₁
            · exact hs₁
    · exact h

theorem execParkWake_wf (h : MemoriesWf s) : NextWf (execParkWake s) := by
  unfold execParkWake
  split
  · exact endPark_wf h
  · exact h

theorem joinGroup_wf {cid : Nat} {x : Word} (h : MemoriesWf s) : MemoriesWf (joinGroup s cid x).2 := by
  unfold joinGroup
  split
  · exact h
  · extract_lets
    split
    · exact h
    · split
      · exact setCtx_wf h
      · split
        · exact h
        · exact setGroup_wf (setCtx_wf h)

theorem leaveWord_wf {cid : Nat} {x : Word} (h : MemoriesWf s) : MemoriesWf (leaveWord s cid x).2 := by
  unfold leaveWord
  split
  · exact h
  · extract_lets
    split
    · exact h
    · exact leaveGroup_wf (setCtx_wf h)

theorem execJoin_wf {w : Bool} {d a : Reg} (h : MemoriesWf s) : NextWf (execJoin w d a s) :=
  settle_wf (fun _ h₁ => holdNow_wf (joinGroup_wf h₁)) h

theorem execLeave_wf {w : Bool} {d a : Reg} (h : MemoriesWf s) : NextWf (execLeave w d a s) :=
  settle_wf (fun _ h₁ => holdNow_wf (leaveWord_wf h₁)) h

theorem execBar_wf {w : Bool} {d a : Reg} (h : MemoriesWf s) : NextWf (execBar w d a s) := settle_wf (fun _ h₁ => owe_wf h₁) h

theorem execTsig_wf {w : Bool} {a : Reg} (h : MemoriesWf s) : NextWf (execTsig w a s) := settle_wf (fun _ h₁ => owe_wf h₁) h

theorem execTick_wf {w : Bool} {a : Reg} (h : MemoriesWf s) : NextWf (execTick w a s) := settle_wf (fun _ h₁ => owe_wf h₁) h

theorem dropFlight_wf {i : Nat} (h : MemoriesWf s) : MemoriesWf (dropFlight s i) := h

theorem leaveSlot_wf {cid : Nat} (h : MemoriesWf s) : MemoriesWf (leaveSlot s cid) := removeCtx_wf (closeStep_wf h)

theorem answerHeld_wf {cid : Nat} (h : MemoriesWf s) : MemoriesWf (answerHeld s cid) := by
  unfold answerHeld
  split
  · exact h
  · split
    · exact wake_wf (writeReg_wf h)
    · exact wake_wf h
    · exact trapHeld_wf h
    · split
      · split
        · exact wake_wf (writeReg_wf (dropFlight_wf h))
        · exact trapHeld_wf (dropFlight_wf h)
        · exact trapHeld_wf (dropFlight_wf h)
        · exact trapHeld_wf (dropFlight_wf h)
        · exact h
      · exact h
    · split
      · split
        · exact leaveSlot_wf (dropFlight_wf h)
        · exact trapHeld_wf (dropFlight_wf h)
        · exact trapHeld_wf (dropFlight_wf h)
        · exact trapHeld_wf (dropFlight_wf h)
        · exact h
      · exact h
    · exact h

theorem execHeldAnswer_wf (h : MemoriesWf s) : NextWf (execHeldAnswer s) := answerHeld_wf h

theorem arrive_wf {f : Flight} (h : MemoriesWf s) : MemoriesWf (arrive s f).2 := by
  unfold arrive
  extract_lets
  split
  · exact h
  · split
    · exact h
    · split
      · rename_i s₁ e
        have hs₁ : MemoriesWf s₁ := wf_of_snd e (deliver_wf h)
        split
        · dsimp only
          split
          · exact countNode_wf hs₁
          · exact hs₁
        · exact countNode_wf hs₁
        · exact hs₁

theorem unplaced_wf {t : Nat} {n : NodeRef} {a : Word} (h : MemoriesWf s) : MemoriesWf (unplaced s t n a) := failLaunch_wf (report_wf h)

theorem tellSender_wf {f : Flight} {a : Answer} (h : MemoriesWf s) : MemoriesWf (tellSender s f a) := by
  unfold tellSender
  split
  · exact h
  · extract_lets s₁
    have hs₁ : MemoriesWf s₁ := modNode_wf (dropFlight_wf h)
    split
    · exact hs₁
    · exact hs₁
    · exact unplaced_wf hs₁
  · extract_lets s₁
    have hs₁ : MemoriesWf s₁ := dropFlight_wf h
    split
    · exact report_wf hs₁
    · exact hs₁
  · extract_lets s₁ bump
    have hs₁ : MemoriesWf s₁ := dropFlight_wf h
    split
    · split <;> exact hs₁
    · exact hs₁

theorem execArrivalDeliver_wf (h : MemoriesWf s) : NextWf (execArrivalDeliver s) := by
  unfold execArrivalDeliver
  split
  · exact h
  · split
    · exact h
    · exact tellSender_wf (arrive_wf h)

theorem fenceRecord_wf {cid : Nat} {d : Duty} (h : MemoriesWf s) : MemoriesWf (fenceRecord s cid d) := by
  unfold fenceRecord
  split
  · split
    · exact h
    · exact foldl_wf (setCtx_wf h) fun h₁ => report_wf h₁
  · exact h

theorem meetDuties_wf {cid : Nat} (h : MemoriesWf s) : MemoriesWf (meetDuties s cid) := by
  unfold meetDuties
  split
  · exact h
  · extract_lets met s₁
    have hs₁ : MemoriesWf s₁ := setCtx_wf h
    split
    · exact h
    · exact rewake_wf (foldl_wf hs₁ fun h₁ => fenceRecord_wf h₁)

theorem execDutyMet_wf (h : MemoriesWf s) : NextWf (execDutyMet s) := tryEnd_wf (tryOwed_wf (meetDuties_wf h))

/-! ## Requests on their way -/

theorem unlessSwitching_wf {ev : Instr} {f : State → State} (h : MemoriesWf s) (hf : ∀ s, MemoriesWf s → MemoriesWf (f s)) :
    MemoriesWf (unlessSwitching s ev f) := by
  unfold unlessSwitching
  split
  · exact h
  · exact hf _ h

theorem performAmo_wf {l : Loc} {n fn : Nat} {old b c : Word} {p : Page} (h : MemoriesWf s) :
    MemoriesWf (performAmo s l n fn old b c p) := by
  unfold performAmo
  split
  · exact h
  · exact h
  · split
    · exact unpoison_wf (writeHome_wf h)
    · exact h

theorem performOp_wf {die t : Nat} {l : Loc} {op : ReqOp} {n : Nat} {ext : Word} {p : Page} (h : MemoriesWf s) :
    MemoriesWf (performOp s die t l op n ext p).2 := by
  unfold performOp
  extract_lets
  split
  · exact h
  · split
    · exact h
    · exact h
    · exact unpoison_wf (writeHome_wf h)
    · exact performAmo_wf h
    · exact writeHome_wf h
    · exact h
    · exact h
    · exact h

theorem putReq_wf {r : Req} {a : Answered} {rlink : Bool} (h : MemoriesWf s) : MemoriesWf (putReq s r a rlink) := h

theorem dropReq_wf {id : Nat} (h : MemoriesWf s) : MemoriesWf (dropReq s id) := h

theorem passOlder_wf {r : Req} (h : MemoriesWf s) : MemoriesWf (passOlder s r) := by
  unfold passOlder
  split
  · exact h
  · exact h

theorem answerReq_wf {r : Req} {l : Loc} {a : Answered} (h : MemoriesWf s) : MemoriesWf (answerReq s r l a) := by
  unfold answerReq
  split
  · exact rewake_wf (dropReq_wf h)
  · exact watchLine_wf (putReq_wf h)
  · exact putReq_wf (passOlder_wf h)
  · exact putReq_wf h

theorem performReq_wf {r : Req} {l : Loc} {p : Page} {ext : Word} (h : MemoriesWf s) : MemoriesWf (performReq s r l p ext) :=
  answerReq_wf (performOp_wf (touchLine_wf h))

theorem frameNow_wf {t : Nat} {l : Loc} {p : Page} {write : Bool} (h : MemoriesWf s) : MemoriesWf (frameNow s t l p write).2 := by
  unfold frameNow
  split
  · split
    · exact h
    · split
      · exact h
      · split
        · rename_i s₁ e
          have hs₁ : MemoriesWf s₁ := wf_of_snd e h
          split <;> exact hs₁
  · exact h

theorem stall_wf {r : Req} (h : MemoriesWf s) : MemoriesWf (stall s r) := modCtx_wf h

theorem unstall_wf {r : Req} (h : MemoriesWf s) : MemoriesWf (unstall s r) := modCtx_wf h

theorem failReq_wf {r : Req} (h : MemoriesWf s) : MemoriesWf (failReq s r) := by
  unfold failReq
  split
  · exact rewake_wf (dropStore_wf (dropReq_wf h))
  · exact putReq_wf h

theorem serveReq_wf {r : Req} {ext : Word} (h : MemoriesWf s) : MemoriesWf (serveReq s r ext) := by
  unfold serveReq
  extract_lets
  split
  · exact failReq_wf h
  · split
    · split
      rename_i e
      have hr := wf_of_snd e (report_wf h)
      exact stall_wf hr
    · split
      rename_i s₁ e
      have hs₁ : MemoriesWf s₁ := wf_of_snd e (frameNow_wf h)
      split
      · exact performReq_wf hs₁
      · exact countHold_wf hs₁

theorem execSliceRequest_wf (h : MemoriesWf s) : NextWf (execSliceRequest s) := by
  unfold execSliceRequest
  split
  · exact h
  · split
    · exact h
    · split
      · exact putReq_wf h
      · exact serveReq_wf h

theorem execRateLimitAdmit_wf (h : MemoriesWf s) : NextWf (execRateLimitAdmit s) := by
  unfold execRateLimitAdmit
  split
  · exact h
  · split
    · exact h
    · split
      · exact h
      · split
        · exact countHold_wf h
        · extract_lets src
          have hsrc : MemoriesWf src := spend_wf h
          exact hsrc

theorem fillL1_wf {core : Nat} {r : Req} (h : MemoriesWf s) : MemoriesWf (fillL1 s core r) := by
  unfold fillL1
  split
  · exact h
  · exact modCore_wf h fun _ hk => hk

theorem returnReq_wf {r : Req} (h : MemoriesWf s) : MemoriesWf (returnReq s r) := by
  unfold returnReq
  extract_lets core s₁ s₂ s₃
  have hs₁ : MemoriesWf s₁ := dropReq_wf h
  have hs₂ : MemoriesWf s₂ := by
    dsimp only [s₂]
    split
    · exact parkReturned_wf hs₁
    · exact hs₁
    · refine fillL1_wf ?_
      split
      · exact writeReg_wf hs₁
      · exact hs₁
    · exact writeReg_wf hs₁
  have hs₃ : MemoriesWf s₃ := by
    dsimp only [s₃]
    split
    · exact hs₂
    · split
      · exact pendTrap_wf hs₂
      · split
        · exact pendTrap_wf hs₂
        · exact hs₂
  exact rewake_wf hs₃

theorem returnSfu_wf {octet : Nat} {o : Octet} {r : SfuReq} (h : MemoriesWf s) : MemoriesWf (returnSfu s octet o r) :=
  rewake_wf (modCore_wf (setFlags_wf (writeReg_wf h)) fun _ hk => hk)

theorem execResultReturn_wf (h : MemoriesWf s) : NextWf (execResultReturn s) := by
  unfold execResultReturn
  split
  · split
    · exact returnReq_wf h
    · exact h
  · split
    · split
      · exact h
      · exact returnSfu_wf h
    · exact h

theorem performClaim_wf {cmd : Nat} (h : MemoriesWf s) : MemoriesWf (performClaim s cmd) := h

theorem drainHead_wf {core : Nat} {e : SbEntry} {rest : List SbEntry} (h : MemoriesWf s) : MemoriesWf (drainHead s core e rest) := by
  unfold drainHead
  extract_lets
  split
  · split
    · exact h
    · exact rewake_wf (modCore_wf h fun _ hk => hk)
  · extract_lets
    split
    · exact rewake_wf (modCore_wf (performClaim_wf h) fun _ hk => hk)
    · exact h

theorem execStoreDrain_wf (h : MemoriesWf s) : NextWf (execStoreDrain s) := by
  unfold execStoreDrain
  split
  · exact h
  · exact drainHead_wf h

theorem walkAnswered_wf {t : Nat} {w : Walk} {r : Except WalkFault Page} (h : MemoriesWf s) : MemoriesWf (walkAnswered s t w r) := by
  unfold walkAnswered
  extract_lets
  split
  · exact h
  · split
    · rename_i s₁ e
      have hs₁ : MemoriesWf s₁ := by
        refine wf_of_snd e ?_
        split <;> exact report_wf h
      exact hs₁

theorem walkStep_wf {w : Walk} (h : MemoriesWf s) : MemoriesWf (walkStep s w) := by
  unfold walkStep
  extract_lets
  split
  · exact walkAnswered_wf (fromLeaf_wf h)
  · split
    · exact h
    · split
      · exact walkAnswered_wf (chargeWalk_wf h)
      · split
        · rename_i s₁ e
          have hs₁ : MemoriesWf s₁ := wf_of_snd e (fromLeaf_wf (chargeWalk_wf h))
          extract_lets
          refine walkAnswered_wf ?_
          split
          · exact hs₁
          · exact hs₁

theorem execStage1Walk_wf (h : MemoriesWf s) : NextWf (execStage1Walk s) := by
  unfold execStage1Walk
  split
  · exact h
  · split
    · exact h
    · exact walkStep_wf h

theorem endWalk_wf {w : Walk} (h : MemoriesWf s) : MemoriesWf (endWalk s w) := by
  unfold endWalk
  extract_lets s₁
  have hs₁ : MemoriesWf s₁ := h
  split
  · exact modCtx_wf hs₁
  · exact modSeg_wf hs₁
  · exact hs₁

theorem fillEntry_wf {core : Nat} {p : Page} (h : MemoriesWf s) : MemoriesWf (fillEntry s core p) := by
  unfold fillEntry
  extract_lets
  split
  · exact modCore_wf h fun _ hk => hk
  · exact modCore_wf h fun _ hk => hk

theorem execPageCheckFill_wf (h : MemoriesWf s) : NextWf (execPageCheckFill s) := by
  unfold execPageCheckFill
  split
  · exact h
  · split
    · exact endWalk_wf (fillEntry_wf h)
    · exact h

theorem writeWaiting_wf {rid : RingId} {n : Nat} (h : MemoriesWf s) : MemoriesWf (writeWaiting rid n s) := by
  induction n generalizing s with
  | zero => exact h
  | succ n ih =>
    unfold writeWaiting
    extract_lets
    split
    · exact h
    · split
      · exact h
      · split
        · rename_i e
          exact ih (afterRecord_wf (putRecord_wf (setFaults_wf (wf_of_snd e (recordPlace_wf h)))))
        · rename_i e
          exact ih (afterRecord_wf (loseRecord_wf (setFaults_wf (wf_of_snd e (recordPlace_wf h)))))

theorem execFringHeadWrite_wf (h : MemoriesWf s) : NextWf (execFringHeadWrite s) := writeWaiting_wf (setFaults_wf h)

theorem takeWaiter_wf {rid : RingId} {v : Word} {action : Nat} (h : MemoriesWf s) : MemoriesWf (takeWaiter s rid v action).2 := by
  unfold takeWaiter
  extract_lets
  split
  · exact h
  · split
    · exact h
    · exact setFaults_wf h

theorem modPort_wf {p : Nat} {f : Port → Port} (h : MemoriesWf s) : MemoriesWf (modPort s p f) := by
  unfold modPort
  split <;> exact h

theorem replay_wf {w : Waiter} (h : MemoriesWf s) : MemoriesWf (replay s w) := by
  unfold replay
  split
  · split
    · exact endWalk_wf h
    · exact h
  · exact h
  · exact h
  · exact h
  · exact modCore_wf h fun _ hk => hk
  · exact modPort_wf h
  · extract_lets s₁
    have hs₁ : MemoriesWf s₁ := by
      dsimp only [s₁]
      split
      · exact unstall_wf h
      · exact h
    exact hs₁

theorem execResolveReplay_wf (h : MemoriesWf s) : NextWf (execResolveReplay s) := by
  unfold execResolveReplay
  split
  · rename_i e
    exact replay_wf (wf_of_snd e (takeWaiter_wf h))
  · rename_i e
    exact wf_of_snd e (takeWaiter_wf h)

theorem failWalk_wf {w : Walk} {addr : Word} (h : MemoriesWf s) : MemoriesWf (failWalk s w addr) := by
  unfold failWalk
  extract_lets s₁
  have hs₁ : MemoriesWf s₁ := endWalk_wf h
  split
  · split
    · exact hs₁
    · exact abortSeg_wf hs₁
  · split
    · exact hs₁
    · exact failLaunch_wf (report_wf (setSeg_wf hs₁))
  · exact takeTrap_wf hs₁
  · exact hs₁

theorem discardRefill_wf {core : Nat} (h : MemoriesWf s) : MemoriesWf (discardRefill s core) := by
  unfold discardRefill
  split
  · exact h
  · split
    · exact h
    · exact removeRing_wf (countNode_wf (modCore_wf h fun _ hk => hk))

theorem remoteFailed_wf {r : Req} (h : MemoriesWf s) : MemoriesWf (remoteFailed s r) := by
  unfold remoteFailed
  extract_lets s₁ s₂ s₃
  have hs₁ : MemoriesWf s₁ := unstall_wf (dropReq_wf h)
  have hs₂ : MemoriesWf s₂ := by
    dsimp only [s₂]
    split
    · exact hs₁
    · exact setFull_wf hs₁
  have hs₃ : MemoriesWf s₃ := modCtx_wf hs₂
  exact rewake_wf (pendTrap_wf hs₃)

theorem failWaiter_wf {w : Waiter} {addr : Word} (h : MemoriesWf s) : MemoriesWf (failWaiter s w addr) := by
  unfold failWaiter
  split
  · split
    · exact failWalk_wf h
    · exact h
  · split
    · exact modNode_wf (failLaunch_wf h)
    · exact h
  · split
    · exact unplaced_wf (modNode_wf h)
    · exact h
  · split
    · exact portAnswered_wf (answerPort_wf h)
    · exact h
  · exact discardRefill_wf h
  · exact modPort_wf h
  · split
    · exact remoteFailed_wf h
    · exact h

theorem execResolveFail_wf (h : MemoriesWf s) : NextWf (execResolveFail s) := by
  unfold execResolveFail
  split
  · rename_i e
    exact failWaiter_wf (wf_of_snd e (takeWaiter_wf h))
  · rename_i e
    exact wf_of_snd e (takeWaiter_wf h)

theorem execRemoteFaultResolved_wf (h : MemoriesWf s) : NextWf (execRemoteFaultResolved s) := by
  unfold execRemoteFaultResolved
  split
  · exact h
  · split
    · exact failWaiter_wf h
    · exact h

/-! ## Traps and control registers -/

theorem readTenant_wf {t : Nat} {a : Word} {n : Nat} (h : MemoriesWf s) : MemoriesWf (readTenant s t a n).2 := by
  unfold readTenant
  split
  · rename_i s₁ e
    have hs₁ : MemoriesWf s₁ := wf_of_snd e (translate_wf h)
    split
    · split
      · exact hs₁
      · exact hs₁
    · exact hs₁
  · rename_i e
    exact wf_of_snd e (translate_wf h)

theorem readHeader_wf {t : Nat} {entry : Word} (h : MemoriesWf s) : MemoriesWf (readHeader s t entry).2 := by
  unfold readHeader
  split
  · exact h
  · split
    · rename_i e
      exact wf_of_snd e (readTenant_wf h)
    · rename_i e
      exact wf_of_snd e (readTenant_wf h)

theorem csrReadEffect_wf {n : Nat} (h : MemoriesWf s) : MemoriesWf (csrReadEffect n s) := by
  unfold csrReadEffect
  split
  · exact h
  · split
    · exact modCtx_wf h
    · split
      · exact h
      · exact h

theorem csr_wf {w : CsrWrite} {n : BitVec 11} {d : Reg} {a : Option Reg} (h : MemoriesWf s) : NextWf (csr w n d a s) := by
  unfold csr
  extract_lets
  refine settle_wf ?_ h
  intro s₁ h₁
  split
  · exact h₁
  · extract_lets old x s₂ s₃
    have hs₂ : MemoriesWf s₂ := csrReadEffect_wf h₁
    have hs₃ : MemoriesWf s₃ := by
      dsimp only [s₃]
      split
      · exact modCtx_wf hs₂
      · exact hs₂
    exact done_wf (writeReg_wf hs₃)

theorem execEcall_wf (h : MemoriesWf s) : NextWf (execEcall s) := settle_wf (fun _ h₁ => h₁) h

theorem execBrk_wf (h : MemoriesWf s) : NextWf (execBrk s) := settle_wf (fun _ h₁ => h₁) h

theorem execTret_wf (h : MemoriesWf s) : NextWf (execTret s) := settle_wf (fun _ h₁ => returnTrap_wf h₁) h

theorem tlbiLines_wf {t : Tlbi} (h : MemoriesWf s) : MemoriesWf (tlbiLines s t) := by
  unfold tlbiLines
  split
  · exact dropLines_wf h
  · exact dropLines_wf h
  · exact h

theorem dropEntries_wf {t : Tlbi} (h : MemoriesWf s) : MemoriesWf (dropEntries s t) := by
  unfold dropEntries
  extract_lets s₁
  have hs₁ : MemoriesWf s₁ := tlbiLines_wf h
  exact mapCores_wf hs₁ (fun _ => rfl) fun _ hk => hk

theorem tlbiStep_wf {t : Tlbi} (h : MemoriesWf s) : MemoriesWf (tlbiStep s t).1 := by
  unfold tlbiStep
  split
  · rename_i s₁ _ e
    refine wf_of_fst e ?_
    split
    · split
      · exact dropEntries_wf h
      · exact h
    · split
      · exact dropEntries_wf h
      · exact h

theorem tlbiWord_wf {op : Nat} {vmid : State → Ctx → BitVec 16} {addr : State → Word} {srcs : List Reg} {w : Bool} (h : MemoriesWf s) :
    NextWf (tlbiWord op vmid addr srcs w s) := by
  unfold tlbiWord
  refine settle_wf ?_ h
  intro s₁ h₁
  split
  · exact h₁
  · exact holdNow_wf h₁

theorem execTlbiComplete_wf (h : MemoriesWf s) : NextWf (execTlbiComplete s) := by
  unfold execTlbiComplete
  split
  · exact h
  · split
    · rename_i s₁ _ e
      have hs₁ : MemoriesWf s₁ := wf_of_fst e (tlbiStep_wf h)
      split
      · exact hs₁
      · extract_lets s₂
        have hs₂ : MemoriesWf s₂ := hs₁
        split
        · split
          · exact hs₂
          · exact hs₂
        · split
          · split
            · exact wake_wf hs₂
            · exact hs₂
          · exact hs₂

theorem riskCont_wf {r : StepRec} {overrun : Word} (h : MemoriesWf s) : MemoriesWf (riskCont s r overrun).2 := readHeader_wf h

theorem raiseRisk_wf {core : Nat} {r : StepRec} {overrun : Word} (h : MemoriesWf s) : MemoriesWf (raiseRisk s core r overrun) := by
  unfold raiseRisk
  split
  · exact h
  · extract_lets s₁
    have hs₁ : MemoriesWf s₁ := modCore_wf h fun _ hk => hk
    split
    rename_i e
    have hs₂ := wf_of_snd e (riskCont_wf hs₁)
    exact modTenant_wf hs₂

theorem riskNow_wf {core : Nat} (h : MemoriesWf s) : MemoriesWf (riskNow s core) := by
  unfold riskNow
  split
  · split
    · exact raiseRisk_wf h
    · exact h
  · exact h

theorem execDline_wf {w : Bool} {d a b : Reg} (h : MemoriesWf s) : NextWf (execDline w d a b s) := by
  unfold execDline
  refine settle_wf ?_ h
  intro s₁ h₁
  split
  · exact h₁
  · exact done_wf (riskNow_wf (modCore_wf (readHeader_wf h₁) fun _ hk => hk))

theorem execProg_wf {w : Bool} {a : Reg} (h : MemoriesWf s) : NextWf (execProg w a s) := by
  unfold execProg
  refine settle_wf ?_ h
  intro s₁ h₁
  extract_lets
  split
  · exact done_wf h₁
  · extract_lets
    split
    · exact done_wf (modCore_wf h₁ fun _ hk => hk)
    · exact done_wf (riskNow_wf (modCore_wf h₁ fun _ hk => hk))

theorem execPwrHint_wf {w : Bool} {a : Reg} (h : MemoriesWf s) : NextWf (execPwrHint w a s) :=
  settle_wf (fun _ h₁ => done_wf (modCore_wf h₁ fun _ hk => hk)) h

/-! ## Launches and nodes -/

theorem execRegStore_wf (h : MemoriesWf s) : NextWf (execRegStore s) := unlessSwitching_wf h fun _ h₁ => modTenant_wf h₁

/-- A dispatcher's work keeps the memories in form, however it ends. -/
def DispWf {α : Type} (m : Disp α) : Prop := ∀ s, MemoriesWf s → MemoriesWf (m.run.run s).2

section
variable {α β : Type} {m : Disp α} {f : α → Disp β}

theorem DispWf.pure {a : α} : DispWf (pure a : Disp α) := fun _ h => h
theorem DispWf.throw {n : Nat} : DispWf (throw n : Disp α) := fun _ h => h
theorem DispWf.set (h : MemoriesWf s) : DispWf (set s : Disp PUnit) := fun _ _ => h

theorem DispWf.bind (hm : DispWf m) (hf : ∀ a, DispWf (f a)) : DispWf (m >>= f) := by
  intro s h
  have hs := hm s h
  simp only [ExceptT.run_bind, StateT.run_bind] at hs ⊢
  cases hr : m.run.run s with
  | mk r t =>
    rw [hr] at hs
    cases r with
    | ok a => exact hf a t hs
    | error e => exact hs

/-- What follows a read of the state may rest on that state's own form. -/
theorem DispWf.get_bind {f : State → Disp β} (hf : ∀ s, MemoriesWf s → DispWf (f s)) : DispWf (get >>= f) := fun s h => hf s h s h

theorem need_dispWf {ok : Bool} {n : Nat} : DispWf (need ok n) := by
  unfold need
  split
  · exact DispWf.pure
  · exact DispWf.throw

theorem mapM_dispWf {g : α → Disp β} (l : List α) (hg : ∀ a, DispWf (g a)) : DispWf (l.mapM g) := by
  induction l with
  | nil => rw [List.mapM_nil]; exact DispWf.pure
  | cons a r ih => rw [List.mapM_cons]; exact (hg a).bind fun _ => ih.bind fun _ => DispWf.pure

theorem forM_dispWf {g : α → Disp PUnit} (l : List α) (hg : ∀ a, DispWf (g a)) : DispWf (l.forM g) := by
  induction l with
  | nil => exact DispWf.pure
  | cons a r ih => exact (hg a).bind fun _ => ih

end

theorem dispPage_dispWf {t : Nat} {va : Word} {write : Bool} : DispWf (dispPage t va write) := by
  refine need_dispWf.bind fun _ => DispWf.get_bind fun s h => ?_
  split
  rename_i e
  refine (DispWf.set (wf_of_snd e (translate_wf h))).bind fun _ => ?_
  split
  · exact DispWf.throw
  · exact need_dispWf.bind fun _ => DispWf.pure

theorem dispRead_dispWf {t : Nat} {va : Word} {n : Nat} : DispWf (dispRead t va n) :=
  dispPage_dispWf.bind fun _ => DispWf.get_bind fun _ h => need_dispWf.bind fun _ => need_dispWf.bind fun _ =>
    (DispWf.set (touch_wf (freeLine_wf h))).bind fun _ => DispWf.pure

theorem dispWords_dispWf {t : Nat} {va : Word} : DispWf (dispWords t va) := dispRead_dispWf.bind fun _ => DispWf.pure

theorem dispRange_dispWf {t : Nat} {va : Word} {n : Nat} : DispWf (dispRange t va n) :=
  need_dispWf.bind fun _ => forM_dispWf _ fun _ => dispRead_dispWf.bind fun _ => DispWf.pure

theorem dispRows_dispWf {t : Nat} {ws : List Word} : DispWf (dispRows t ws) := by
  unfold dispRows
  extract_lets
  split
  · exact DispWf.pure
  · exact (mapM_dispWf _ fun _ => dispRead_dispWf.bind fun _ => DispWf.pure).bind fun _ => DispWf.get_bind fun _ _ =>
      need_dispWf.bind fun _ => need_dispWf.bind fun _ => DispWf.pure

theorem dispNode_dispWf {t : Nat} {image : Word} {n i : Nat} : DispWf (dispNode t image n i) := by
  refine dispWords_dispWf.bind fun _ => need_dispWf.bind fun _ => need_dispWf.bind fun _ => ?_
  split
  · exact DispWf.pure
  · refine need_dispWf.bind fun _ => dispRead_dispWf.bind fun _ => ?_
    split
    · exact DispWf.throw
    · split
      · exact dispRange_dispWf.bind fun _ => dispRange_dispWf.bind fun _ => DispWf.pure
      · exact dispRows_dispWf.bind fun _ => DispWf.pure

theorem dispGraph_dispWf {t : Nat} {image : Word} : DispWf (dispGraph t image) := by
  refine DispWf.get_bind fun _ _ => ?_
  split
  · exact DispWf.throw
  · split
    · exact dispRange_dispWf.bind fun _ => DispWf.throw
    · exact dispWords_dispWf.bind fun _ => need_dispWf.bind fun _ => (mapM_dispWf _ fun _ => dispNode_dispWf).bind fun _ =>
        need_dispWf.bind fun _ => DispWf.pure

theorem execRegistrationComplete_wf (h : MemoriesWf s) : NextWf (execRegistrationComplete s) := by
  unfold execRegistrationComplete
  extract_lets
  split
  · exact h
  · split
    · rename_i e
      exact modTenant_wf (wf_of_snd e (dispGraph_dispWf s h))
    · rename_i e
      split
      · exact h
      · exact modTenant_wf (wf_of_snd e (dispGraph_dispWf s h))

theorem execUnregStore_wf (h : MemoriesWf s) : NextWf (execUnregStore s) := unlessSwitching_wf h fun _ h₁ => modTenant_wf h₁

theorem execHandleRelease_wf (h : MemoriesWf s) : NextWf (execHandleRelease s) := modTenant_wf h

theorem modQueue_wf {t q : Nat} {f : Queue → Queue} (h : MemoriesWf s) : MemoriesWf (modQueue s t q f) := modTenant_wf h

theorem acceptLaunch_wf {t : Nat} {v : Word} (h : MemoriesWf s) : MemoriesWf (acceptLaunch s t v) := by
  unfold acceptLaunch
  extract_lets
  split
  rename_i s₁ e
  extract_lets l s₂
  have hs₂ : MemoriesWf s₂ := modQueue_wf (wf_of_snd e (takeId_wf h))
  refine modTenant_wf (setImages_wf hs₂ fun x hx => ?_)
  rcases List.mem_append.1 hx with hx | hx
  · exact hs₂.2.2 x hx
  · rw [List.mem_singleton.1 hx]
    exact hs₂.1

theorem execLaunchStore_wf (h : MemoriesWf s) : NextWf (execLaunchStore s) := by
  unfold execLaunchStore
  extract_lets t v q s₁
  have hs₁ : MemoriesWf s₁ := h
  split
  · exact hs₁
  · split
    · exact setLastErr_wf (modQueue_wf hs₁)
    · exact acceptLaunch_wf hs₁

theorem execLaunchEligible_wf (h : MemoriesWf s) : NextWf (execLaunchEligible s) := by
  unfold execLaunchEligible
  extract_lets t x heads
  clear_value heads
  split
  · exact h
  · extract_lets
    split
    · exact h
    · exact modTenant_wf (modLaunch_wf h)

theorem execLaunchFinish_wf (h : MemoriesWf s) : NextWf (execLaunchFinish s) := by
  unfold execLaunchFinish
  extract_lets
  split
  · exact h
  · split
    · exact h
    · exact setImages_wf (modTenant_wf (modQueue_wf h)) fun x hx => h.2.2 x (List.mem_of_mem_filter hx)

/-! ## Integer words -/

theorem alu2_wf {f : Word → Word → Word} {w : Bool} {d a b : Reg} (h : MemoriesWf s) : NextWf (alu2 f w d a b s) :=
  settle_wf (fun _ h₁ => finish_wf h₁) h

theorem alu1_wf {f : State → Word → Word} {w : Bool} {d a : Reg} (h : MemoriesWf s) : NextWf (alu1 f w d a s) :=
  settle_wf (fun _ h₁ => finish_wf h₁) h

theorem aluImm_wf {f : Word → Word} {d a : Reg} (h : MemoriesWf s) : NextWf (aluImm f d a s) := settle_wf (fun _ h₁ => finish_wf h₁) h

theorem aluConst_wf {f : State → Word} {d : Reg} (h : MemoriesWf s) : NextWf (aluConst f d s) := settle_wf (fun _ h₁ => finish_wf h₁) h

/-! ## The matrix engine -/

theorem mIssue_wf {m : MCmd} (h : MemoriesWf s) : MemoriesWf (mIssue m s) := modCore_wf h fun _ hk => hk

theorem setLast_wf {core : Nat} {bank : Bool} {w : Option Writer} (h : MemoriesWf s) : MemoriesWf (setLast s core bank w) := by
  unfold setLast
  refine modCore_wf h ?_
  intro k hk
  split <;> exact hk

theorem mmaWord_wf {kind : MKind} {sd z w bank : Bool} {n : BitVec 4} {a b : Reg} (h : MemoriesWf s) :
    NextWf (mmaWord kind sd z w bank n a b s) := by
  unfold mmaWord
  refine settle_wf ?_ h
  intro s₁ h₁
  split
  · exact h₁
  · exact done_wf (setLast_wf (mIssue_wf h₁))

theorem moveWord_wf {wr w bank : Bool} {a b : Reg} (h : MemoriesWf s) : NextWf (moveWord wr w bank a b s) := by
  unfold moveWord
  refine settle_wf ?_ h
  intro s₁ h₁
  split
  · exact h₁
  · extract_lets k x y pages
    have hk : SpWf k := getCore_wf h₁
    split
    · rename_i s₂ e
      have hs₂ : MemoriesWf s₂ := wf_of_snd e h₁
      extract_lets src m s₃ s₄
      have hs₃ : MemoriesWf s₃ := mIssue_wf hs₂
      have hs₄ : MemoriesWf s₄ := by
        dsimp only [s₄]
        split
        · exact claimLines_wf hs₃
        · exact setLast_wf hs₃
      exact done_wf hs₄

theorem execMcommit_wf {d : Reg} (h : MemoriesWf s) : NextWf (execMcommit d s) := by
  unfold execMcommit
  refine settle_wf ?_ h
  intro s₁ h₁
  split
  · exact h₁
  · exact settleWaits_wf (done_wf (writeReg_wf (modCtx_wf h₁)))

theorem execMwait_wf {w : Bool} {a : Reg} (h : MemoriesWf s) : NextWf (execMwait w a s) := by
  unfold execMwait
  refine settle_wf ?_ h
  intro s₁ h₁
  split
  · exact h₁
  · extract_lets
    split
    · exact retire_wf h₁
    · exact holdNow_wf h₁

theorem setBank_wf {k : Core} {bank : Bool} {m : AMap (BitVec 32)} (hk : SpWf k) : SpWf (setBank k bank m) := by
  unfold setBank
  split <;> exact hk

theorem mStart_wf {k : Core} {m : MCmd} (hk : SpWf k) : SpWf (mStart k m) := by
  unfold mStart
  extract_lets m' k₁
  have hk₁ : SpWf k₁ := by
    dsimp only [k₁]
    split
    · exact setBank_wf hk
    · exact hk
  exact hk₁

theorem mSchedule_wf {core : Nat} (h : MemoriesWf s) : MemoriesWf (mSchedule s core) := by
  unfold mSchedule
  extract_lets k
  have hk : SpWf k := getCore_wf h
  split
  · exact h
  · split
    · exact setCore_wf h (mStart_wf hk)
    · split
      · exact setCore_wf h (mStart_wf hk)
      · exact h

theorem execMatrixEngineSchedule_wf (h : MemoriesWf s) : NextWf (execMatrixEngineSchedule s) := by
  unfold execMatrixEngineSchedule
  extract_lets core s₁
  have hs₁ : MemoriesWf s₁ := modCore_wf h fun _ hk => hk
  split
  · exact hs₁
  · exact mSchedule_wf hs₁

theorem takeRow_wf {k : Core} {m : MCmd} (hk : SpWf k) : OptSpWf (takeRow k m) := by
  unfold takeRow
  split
  · exact hk
  · split
    · exact hk
    · exact trivial

theorem latchForm_wf {r : LatchRow} (h : MemoriesWf s) : MemoriesWf (latchForm s r).2 := by
  unfold latchForm
  split
  · exact h
  · exact h

theorem appendRow_wf {core : Nat} (h : MemoriesWf s) : MemoriesWf (appendRow s core) := by
  unfold appendRow
  split
  · exact h
  · extract_lets east e
    have he : SpWf e := getCore_wf h
    split
    · exact modCore_wf (modCore_wf h fun _ hk => hk) fun _ hk => hk
    · exact h

theorem rotRows_wf {core id n : Nat} (h : MemoriesWf s) : MemoriesWf (rotRows core id n s) := by
  induction n generalizing s with
  | zero => exact h
  | succ n ih =>
    unfold rotRows
    extract_lets s₁ k
    have hs₁ : MemoriesWf s₁ := appendRow_wf h
    have hk : SpWf k := getCore_wf hs₁
    split
    · exact hs₁
    · split
      · exact hs₁
      · split
        · exact hs₁
        · split
          · exact hs₁
          · rename_i e
            extract_lets s₂
            have hr := spWf_of_some_snd e (takeRow_wf hk)
            have hs₂ : MemoriesWf s₂ := setCore_wf hs₁ hr
            split
            rename_i e₁
            exact ih (modCore_wf (wf_of_snd e₁ (latchForm_wf hs₂)) fun _ hk => hk)

theorem sumGroup_wf {core : Nat} {m : MCmd} {rows : List LatchRow} (h : MemoriesWf s) : MemoriesWf (sumGroup s core m rows) := by
  unfold sumGroup
  extract_lets k fa fb bad
  have hk : SpWf k := getCore_wf h
  split
  · rename_i s₁ e
    have hs₁ : MemoriesWf s₁ := by
      refine wf_of_snd e ?_
      split
      · exact h
      · exact h
    extract_lets
    split
    · extract_lets k₁ m' s₂
      have hk₁ : SpWf k₁ := setBank_wf hk
      have hs₂ : MemoriesWf s₂ := setCore_wf hs₁ hk₁
      split
      · exact engineReport_wf hs₂
      · exact hs₂

theorem mmaGroup_wf {core : Nat} {m : MCmd} (h : MemoriesWf s) : MemoriesWf (mmaGroup s core m) := by
  unfold mmaGroup
  split
  · extract_lets s₁
    have hs₁ : MemoriesWf s₁ := rotRows_wf h
    split
    · split
      · exact sumGroup_wf hs₁
      · exact hs₁
    · exact hs₁
  · exact sumGroup_wf h

theorem execMmaGroup_wf (h : MemoriesWf s) : NextWf (execMmaGroup s) := by
  unfold execMmaGroup
  extract_lets
  split
  · exact h
  · split
    · exact h
    · exact mmaGroup_wf h

theorem execLatchRowArrive_wf (h : MemoriesWf s) : NextWf (execLatchRowArrive s) := by
  unfold execLatchRowArrive
  refine modCore_wf h ?_
  intro k hk
  split
  · split <;> exact hk
  · exact hk

theorem mstcLine_wf {core : Nat} {m : MCmd} (h : MemoriesWf s) : MemoriesWf (mstcLine s core m) := by
  unfold mstcLine
  extract_lets va p die l t s₁ later s₂
  have hs₁ : MemoriesWf s₁ := engineWrite_wf h
  have hs₂ : MemoriesWf s₂ := by
    dsimp only [s₂]
    split
    · exact hs₁
    · exact unclaimLine_wf hs₁
  split
  · exact h
  · split
    · exact countHold_wf h
    · exact modCore_wf hs₂ fun _ hk => hk

theorem mldcLine_wf {core : Nat} {m : MCmd} (h : MemoriesWf s) : MemoriesWf (mldcLine s core m) := by
  unfold mldcLine
  extract_lets va p die l s₁ down bad bs s₂
  have hs₁ : MemoriesWf s₁ := touch_wf h
  have hs₂ : MemoriesWf s₂ := by
    dsimp only [s₂]
    split
    · exact engineReport_wf hs₁
    · exact hs₁
  split
  · exact countHold_wf h
  · exact modCore_wf hs₂ fun _ hk => setBank_wf hk

theorem mFinish_wf {core : Nat} {m : MCmd} (h : MemoriesWf s) : MemoriesWf (mFinish s core m) :=
  settleWaits_wf (modCtx_wf (modCore_wf (dropClaim_wf h) fun _ hk => hk))

theorem matrixComplete_wf {core : Nat} {m : MCmd} (h : MemoriesWf s) : MemoriesWf (matrixComplete s core m) := by
  unfold matrixComplete
  split
  · split
    · exact mFinish_wf h
    · exact h
  · split
    · exact h
    · extract_lets s₁ onWay
      have hs₁ : MemoriesWf s₁ := appendRow_wf h
      split
      · exact hs₁
      · exact mFinish_wf hs₁
  · split
    · exact h
    · split
      · exact mFinish_wf h
      · exact mstcLine_wf h
  · split
    · exact h
    · split
      · exact mFinish_wf h
      · exact mldcLine_wf h

theorem execMatrixCommandComplete_wf (h : MemoriesWf s) : NextWf (execMatrixCommandComplete s) := by
  unfold execMatrixCommandComplete
  extract_lets
  split
  · exact h
  · split
    · exact h
    · exact matrixComplete_wf h

/-! ## The sequencer -/

theorem atSequencer_wf {f : Seg → Seg} (h : MemoriesWf s) : NextWf (atSequencer f s) := by
  unfold atSequencer
  split
  · split
    · exact setSeg_wf h
    · exact trivial
  · exact trivial

theorem kResult_wf {d : KReg} {v : Seg → Word} (h : MemoriesWf s) : NextWf (kResult d v s) := atSequencer_wf h

theorem rowPredicate_wf {w : Bool} {a : Reg} (h : MemoriesWf s) : NextWf (rowPredicate w a s) := by
  unfold rowPredicate
  refine settle_wf ?_ h
  intro s₁ h₁
  split
  · exact done_wf (modSeg_wf h₁)
  · exact h₁

theorem clearCore_wf {k : Core} (hk : SpWf k) : SpWf (clearCore k) := hk

theorem dropWork_wf {cid : Nat} (h : MemoriesWf s) : MemoriesWf (dropWork s cid) := by
  unfold dropWork
  extract_lets store s₁
  have hs₁ : MemoriesWf s₁ := modCore_wf h fun _ hk => hk
  exact hs₁

theorem coreRecord_wf {t : Nat} {n : Option NodeRef} {pc : Word} {who : Nat} (h : MemoriesWf s) : MemoriesWf (coreRecord s t n pc who) :=
  report_wf h

theorem killCore_wf {core : Nat} (h : MemoriesWf s) : MemoriesWf (killCore s core) := by
  unfold killCore
  extract_lets k s₁ s₂ s₃ s₄
  have hk : SpWf k := getCore_wf h
  have hs₁ : MemoriesWf s₁ := foldl_wf h fun h₁ => endCtx_wf (dropWork_wf (coreRecord_wf h₁))
  have hs₂ : MemoriesWf s₂ := foldl_wf hs₁ fun h₁ => countNode_wf (coreRecord_wf h₁)
  have hs₃ : MemoriesWf s₃ := foldl_wf hs₂ fun h₁ => dropClaim_wf h₁
  have hs₄ : MemoriesWf s₄ := modCore_wf hs₃ fun _ hk₁ => hk₁
  split
  · exact modRow_wf hs₄
  · exact hs₄

theorem settleDead_wf {core : Nat} (h : MemoriesWf s) : MemoriesWf (settleDead s core) := by
  unfold settleDead
  split
  · exact killCore_wf h
  · exact h

theorem endSegment_wf {k : Nat} {g : Seg} (h : MemoriesWf s) : MemoriesWf (endSegment s k g) := by
  unfold endSegment
  extract_lets s₁ s₂ s₃
  have hs₁ : MemoriesWf s₁ := foldl_wf h fun h₁ => removeCtx_wf (closeStep_wf h₁)
  have hs₂ : MemoriesWf s₂ := foldl_wf hs₁ fun h₁ => settleDead_wf (modCore_wf h₁ fun _ hk => clearCore_wf hk)
  have hs₃ : MemoriesWf s₃ := hs₂
  split
  · exact hs₃
  · exact modNode_wf hs₃

theorem execSegmentComplete_wf (h : MemoriesWf s) : NextWf (execSegmentComplete s) := by
  unfold execSegmentComplete
  split
  · exact h
  · extract_lets g s₁
    have hs₁ : MemoriesWf s₁ := setSeg_wf h
    split
    · exact endSegment_wf hs₁
    · exact hs₁

/-! ## Nodes and threads -/

theorem failNode_wf {t : Nat} {n : NodeRef} {code : Nat} {c : Cause} (h : MemoriesWf s) : MemoriesWf (failNode s t n code c) :=
  failLaunch_wf h

theorem placeStream_wf {t core : Nat} {c : Cont} (h : MemoriesWf s) : MemoriesWf (placeStream s t core c).2 := by
  unfold placeStream
  split
  · exact modCtx_wf (placeAt_wf h)
  · exact h

theorem startSegment_wf {t : Nat} {l : Launch} {i : Nat} {g : GNode} {idx key : Nat} (h : MemoriesWf s) :
    MemoriesWf (startSegment s t l i g idx key) := by
  unfold startSegment
  extract_lets size cs first span place1
  have hp : ∀ l : List Nat, MemoriesWf (l.foldl place1 (s, [])).1 := fun l =>
    List.foldlRecOn (motive := fun st : State × _ => MemoriesWf st.1) _ _ h fun _ hst _ _ => modCore_wf (placeStream_wf hst) fun _ hk => hk
  split
  rename_i e
  exact setSeg_wf (wf_of_fst e (hp cs))

theorem startRow_wf {t : Nat} {r : Ready} {ks : List Nat} (h : MemoriesWf s) : MemoriesWf (startRow s t r ks) :=
  foldl_wf (modNode_wf h) fun h₁ => startSegment_wf h₁

theorem ringOk_wf {t : Nat} {l : List Word} (h : MemoriesWf s) : MemoriesWf (ringOk s t l).2 := by
  induction l generalizing s with
  | nil => exact h
  | cons a r ih =>
    unfold ringOk
    split
    · rename_i s₁ e
      have hs₁ : MemoriesWf s₁ := wf_of_snd e (translate_wf h)
      split
      · exact ih hs₁
      · exact hs₁
    · rename_i e
      exact wf_of_snd e (translate_wf h)

theorem homeRead_wf {p : Page} {a : Word} {n : Nat} (h : MemoriesWf s) : MemoriesWf (homeRead s p a n).2 := by
  unfold homeRead
  extract_lets
  split
  · exact h
  · exact touch_wf h

theorem readThread_wf {t : Nat} {g : GNode} {k : Nat} (h : MemoriesWf s) : MemoriesWf (readThread s t g k).2 := by
  unfold readThread
  extract_lets
  split
  · rename_i e
    exact wf_of_snd e (translate_wf h)
  · rename_i s₁ e
    have hs₁ : MemoriesWf s₁ := wf_of_snd e (translate_wf h)
    split
    · rename_i e₁
      exact wf_of_snd e₁ (translate_wf hs₁)
    · rename_i s₂ e₁
      have hs₂ : MemoriesWf s₂ := wf_of_snd e₁ (translate_wf hs₁)
      split
      · exact hs₂
      · split
        · exact hs₂
        · split
          · rename_i e₂
            exact wf_of_snd e₂ (homeRead_wf hs₂)
          · rename_i s₃ e₂
            have hs₃ : MemoriesWf s₃ := wf_of_snd e₂ (homeRead_wf hs₂)
            split
            · rename_i e₃
              exact wf_of_snd e₃ (homeRead_wf hs₃)
            · rename_i e₃
              exact wf_of_snd e₃ (homeRead_wf hs₃)

theorem readThreads_wf {t : Nat} {n : NodeRef} {g : GNode} {f : Nat} (h : MemoriesWf s) : MemoriesWf (readThreads t n g f s).2 := by
  induction f generalizing s with
  | zero => exact h
  | succ f ih =>
    unfold readThreads
    split
    · exact h
    · split
      · exact h
      · split
        · rename_i e
          exact wf_of_snd e (readThread_wf h)
        · rename_i e
          exact ih (modNode_wf (wf_of_snd e (readThread_wf h)))

theorem startSwarm_wf {t : Nat} {r : Ready} (h : MemoriesWf s) : MemoriesWf (startSwarm s t r) := by
  unfold startSwarm
  extract_lets
  split
  · rename_i s₁ e
    have hs₁ : MemoriesWf s₁ := by
      refine wf_of_snd e ?_
      split
      · exact h
      · exact ringOk_wf h
    split
    · exact failNode_wf hs₁
    · exact modTenant_wf (readThreads_wf (modNode_wf hs₁))

theorem walkPieces_wf {t : Nat} {write : Bool} {l : List Word} {ps : List Page} (h : MemoriesWf s) :
    MemoriesWf (walkPieces t write l ps s).2 := by
  induction l generalizing s ps with
  | nil => exact h
  | cons a r ih =>
    unfold walkPieces
    split
    · rename_i e
      exact wf_of_snd e (translate_wf h)
    · rename_i s₁ e
      have hs₁ : MemoriesWf s₁ := wf_of_snd e (translate_wf h)
      split
      all_goals
        split
        · exact ih hs₁
        · exact hs₁

theorem copyPages_wf {t : Nat} {src dst : Word} {n : Nat} (h : MemoriesWf s) : MemoriesWf (copyPages s t src dst n).2 := by
  unfold copyPages
  split
  · rename_i e
    exact wf_of_snd e (walkPieces_wf h)
  · rename_i s₁ e
    have hs₁ : MemoriesWf s₁ := wf_of_snd e (walkPieces_wf h)
    split
    · rename_i e₁
      exact wf_of_snd e₁ (walkPieces_wf hs₁)
    · rename_i e₁
      exact wf_of_snd e₁ (walkPieces_wf hs₁)

theorem waitReport_wf {t : Nat} {n : NodeRef} {e : WalkFault} {r : Report} (h : MemoriesWf s) : MemoriesWf (waitReport s t n e r) := by
  unfold waitReport
  extract_lets
  split
  · rename_i s₁ e₁
    have hs₁ : MemoriesWf s₁ := by
      refine wf_of_snd e₁ ?_
      split <;> exact report_wf h
    exact modNode_wf hs₁

theorem checkCopy_wf {t : Nat} {n : NodeRef} {l : Launch} {g : GNode} (h : MemoriesWf s) : MemoriesWf (checkCopy s t n l g) := by
  unfold checkCopy
  extract_lets
  split
  · exact modNode_wf (failNode_wf h)
  · split
    · rename_i e
      exact modNode_wf (failNode_wf (wf_of_snd e (copyPages_wf h)))
    · rename_i e
      exact waitReport_wf (wf_of_snd e (copyPages_wf h))
    · rename_i s₁ e
      have hs₁ : MemoriesWf s₁ := wf_of_snd e (copyPages_wf h)
      extract_lets
      split
      · exact modNode_wf (failNode_wf hs₁)
      · split
        · exact hs₁
        · exact modNode_wf hs₁

theorem copyUnit_wf {js : CopyJob × State} {m : Nat} {ext : List Byte} (hjs : MemoriesWf js.2) : MemoriesWf (copyUnit js m ext).2 := by
  unfold copyUnit
  split
  · extract_lets a d
    split
    · split
      · extract_lets s whole bad s₁ bs
        have hs : MemoriesWf s := touch_wf hjs
        have hs₁ : MemoriesWf s₁ := by
          dsimp only [s₁]
          clear_value bad
          split
          · split
            · exact hs
            · exact report_wf hs
          · exact hs
        exact engineWrite_wf hs₁

theorem copyLine_wf {j : CopyJob} {ext : List Byte} (h : MemoriesWf s) : MemoriesWf (copyLine s j ext) := by
  unfold copyLine
  extract_lets us
  split
  rename_i e
  have hs₁ := wf_of_snd e (List.foldlRecOn (motive := fun js : CopyJob × State => MemoriesWf js.2) _ _ h fun _ hj _ _ => copyUnit_wf hj)
  extract_lets m l later s₂ s₃
  have hs₂ : MemoriesWf s₂ := by
    dsimp only [s₂]
    split
    · exact hs₁
    · exact unclaimLine_wf hs₁
  split
  · exact dropClaim_wf (modNode_wf hs₂)
  · exact modNode_wf hs₂

theorem execCopyNodeComplete_wf (h : MemoriesWf s) : NextWf (execCopyNodeComplete s) := by
  unfold execCopyNodeComplete
  extract_lets
  split
  · exact h
  · split
    · exact h
    · split
      · exact checkCopy_wf h
      · extract_lets
        split
        · exact copyLine_wf h
        · exact h

theorem execNodeStart_wf (h : MemoriesWf s) : NextWf (execNodeStart s) := by
  unfold execNodeStart
  extract_lets
  split
  · exact h
  · split
    · split
      · exact startRow_wf (modTenant_wf h)
      · exact h
    · exact startSwarm_wf (modTenant_wf h)
    · exact checkCopy_wf (modNode_wf (modTenant_wf h))

theorem waitThread_wf {t : Nat} {n : NodeRef} {e : WalkFault} {a : Word} (h : MemoriesWf s) : MemoriesWf (waitThread s t n e a) :=
  waitReport_wf h

theorem sentThread_wf {t : Nat} {n : NodeRef} {unsent : Bool} (h : MemoriesWf s) : MemoriesWf (sentThread s t n unsent) := modNode_wf h

theorem sendThread_wf {t : Nat} {n : NodeRef} {g : GNode} {a : Word} {ws : List Word} (h : MemoriesWf s) :
    MemoriesWf (sendThread s t n g a ws) := by
  unfold sendThread
  extract_lets
  split
  · exact unplaced_wf (sentThread_wf h)
  · split
    · rename_i e
      exact waitThread_wf (wf_of_snd e (translate_wf h))
    · rename_i s₁ e
      have hs₁ : MemoriesWf s₁ := wf_of_snd e (translate_wf h)
      split
      · exact unplaced_wf (sentThread_wf hs₁)
      · split
        · exact unplaced_wf (sentThread_wf hs₁)
        · exact sentThread_wf hs₁

theorem execInitialThreadDeliver_wf (h : MemoriesWf s) : NextWf (execInitialThreadDeliver s) := by
  unfold execInitialThreadDeliver
  extract_lets
  split
  · exact h
  · extract_lets
    split
    · split
      · exact modTenant_wf h
      · split
        · exact h
        · split
          · rename_i s₁ e
            have hs₁ : MemoriesWf s₁ := wf_of_snd e (readThreads_wf h)
            split
            · exact hs₁
            · split
              · exact sendThread_wf (modTenant_wf hs₁)
              · split
                · exact waitThread_wf hs₁
                · exact hs₁
    · exact modTenant_wf h

theorem graphFault_wf {t : Nat} {n : NodeRef} {succ : Nat} (h : MemoriesWf s) : MemoriesWf (graphFault s t n succ) :=
  report_wf (failLaunch_wf h)

theorem execNodeComplete_wf (h : MemoriesWf s) : NextWf (execNodeComplete s) := by
  unfold execNodeComplete
  extract_lets
  split
  · exact h
  · split
    · exact modNode_wf h
    · split
      · exact h
      · extract_lets c s₁ s₂
        have hs₁ : MemoriesWf s₁ := modNode_wf h
        have hs₂ : MemoriesWf s₂ := modLaunch_wf hs₁
        split
        · exact graphFault_wf hs₂
        · exact modLaunch_wf hs₂

theorem answerSignal_wf {cid : Nat} {c : Option Cause} {tval : Word} (h : MemoriesWf s) : MemoriesWf (answerSignal s cid c tval) :=
  modCtx_wf h

theorem acceptSignal_wf {cid : Nat} {c : Ctx} {v : Word} (h : MemoriesWf s) : MemoriesWf (acceptSignal s cid c v) := by
  unfold acceptSignal
  split
  · extract_lets i cy s₁
    have hs₁ : MemoriesWf s₁ := modLaunch_wf h
    split
    · exact answerSignal_wf h
    · split
      · exact answerSignal_wf hs₁
      · exact answerSignal_wf (modLaunch_wf h)
  · exact answerSignal_wf h

theorem execTsigAccept_wf (h : MemoriesWf s) : NextWf (execTsigAccept s) := by
  unfold execTsigAccept
  extract_lets
  split
  · exact h
  · split
    · exact acceptSignal_wf h
    · exact h

/-! ## Power -/

theorem setSegDiv_wf {key d : Nat} (h : MemoriesWf s) : MemoriesWf (setSegDiv s key d) := modSeg_wf h

theorem setCoreDiv_wf {core d : Nat} (h : MemoriesWf s) : MemoriesWf (setCoreDiv s core d) := modCore_wf h fun _ hk => hk

theorem setPoint_wf {r p : Nat} (h : MemoriesWf s) : MemoriesWf (setPoint s r p) := by
  unfold setPoint
  extract_lets s₁ s₂
  have hs₁ : MemoriesWf s₁ := modRow_wf h
  have hs₂ : MemoriesWf s₂ := by
    dsimp only [s₂]
    refine foldl_wf hs₁ fun {s₃ x} hs₃ => ?_
    split
    · exact setCoreDiv_wf hs₃
    · exact hs₃
  refine foldl_wf hs₂ fun {s₃ x} hs₃ => ?_
  split
  · exact setSegDiv_wf hs₃
  · exact hs₃

theorem applyCap_wf {r : Nat} (h : MemoriesWf s) : MemoriesWf (applyCap s r) := by
  unfold applyCap
  split
  · exact setPoint_wf h
  · exact h

theorem governRow_wf {r : Nat} (h : MemoriesWf s) : MemoriesWf (governRow s r) := by
  unfold governRow
  extract_lets p hard s₁ pick inSeg s₂
  have hs₁ : MemoriesWf s₁ := setPoint_wf h
  have hs₂ : MemoriesWf s₂ := foldl_wf hs₁ fun h₁ => setSegDiv_wf h₁
  refine foldl_wf hs₂ fun {s₃ x} hs₃ => ?_
  split
  · exact hs₃
  · exact setCoreDiv_wf hs₃

theorem judgeStep_wf {core : Nat} (h : MemoriesWf s) : MemoriesWf (judgeStep s core) := by
  unfold judgeStep
  split
  · exact h
  · extract_lets
    split
    · exact raiseRisk_wf h
    · exact h

theorem execGovernorEvaluate_wf (h : MemoriesWf s) : NextWf (execGovernorEvaluate s) := governRow_wf (judgeStep_wf h)

theorem lowerCap_wf {who : Nat} (h : MemoriesWf s) : MemoriesWf (lowerCap s who) := by
  unfold lowerCap
  split
  · exact h
  · exact applyCap_wf (modRow_wf h)

theorem raiseCap_wf {who : Nat} (h : MemoriesWf s) : MemoriesWf (raiseCap s who) := by
  unfold raiseCap
  split
  · exact h
  · exact modRow_wf h

theorem execPowerSlowCheck_wf (h : MemoriesWf s) : NextWf (execPowerSlowCheck s) := by
  unfold execPowerSlowCheck
  extract_lets
  split
  · exact h
  · split
    · exact lowerCap_wf h
    · extract_lets s₁
      have hs₁ : MemoriesWf s₁ := by
        dsimp only [s₁]
        split
        · exact h
        · exact h
      split
      · exact raiseCap_wf hs₁
      · exact hs₁

theorem benchCtx_wf {cid : Nat} {f : Ctx → Ctx} (h : MemoriesWf s) : MemoriesWf (benchCtx s cid f) := modCtx_wf (withdrawBar_wf h)

theorem benchSome_wf {who core n : Nat} (h : MemoriesWf s) : MemoriesWf (benchSome who core n s) := by
  induction n generalizing s with
  | zero => exact h
  | succ n ih =>
    unfold benchSome
    split
    · exact h
    · exact ih (benchCtx_wf h)

theorem unbenchFast_wf {who : Nat} (h : MemoriesWf s) : MemoriesWf (unbenchFast s who) := by
  unfold unbenchFast
  extract_lets
  refine foldl_wf h fun {s₁ x} hs₁ => ?_
  split
  · exact hs₁
  · exact modCtx_wf hs₁

theorem execPowerFastWindow_wf (h : MemoriesWf s) : NextWf (execPowerFastWindow s) := by
  unfold execPowerFastWindow
  extract_lets who n s₁
  have hs₁ : MemoriesWf s₁ := h
  split
  · exact h
  · split
    · exact foldl_wf h fun h₁ => benchSome_wf h₁
    · split
      · split
        · exact unbenchFast_wf hs₁
        · exact hs₁
      · exact h

theorem heatRow_wf {r temp : Nat} (h : MemoriesWf s) : MemoriesWf (heatRow s r temp) := by
  unfold heatRow
  extract_lets throt crit all s₁ s₂ hot
  have hs₁ : MemoriesWf s₁ := by
    dsimp only [s₁]
    split
    · exact modRow_wf h
    · split
      · exact modRow_wf h
      · exact h
  have hs₂ : MemoriesWf s₂ := applyCap_wf hs₁
  split
  · refine setPoint_wf ?_
    refine foldl_wf (modRow_wf hs₂) fun {s₃ x} hs₃ => ?_
    refine foldl_wf hs₃ fun {s₄ x} hs₄ => ?_
    extract_lets
    split
    · exact benchCtx_wf hs₄
    · exact modCtx_wf hs₄
  · split
    · refine foldl_wf (modRow_wf hs₂) fun {s₃ x} hs₃ => ?_
      refine foldl_wf hs₃ fun {s₄ x} hs₄ => ?_
      extract_lets
      split
      · exact benchCtx_wf hs₄
      · exact modCtx_wf hs₄
    · exact hs₂

theorem execThermalRead_wf (h : MemoriesWf s) : NextWf (execThermalRead s) := by
  unfold execThermalRead
  extract_lets xs s₁
  have hs₁ : MemoriesWf s₁ := by
    dsimp only [s₁]
    split
    · exact h
    · exact h
  refine foldl_wf hs₁ fun {s₂ x} hs₂ => ?_
  split
  · exact heatRow_wf hs₂
  · exact hs₂

theorem settlePurse_wf {t : Nat} (h : MemoriesWf s) : MemoriesWf (settlePurse s t) := by
  unfold settlePurse
  extract_lets
  refine foldl_wf h fun {s₁ x} hs₁ => ?_
  refine foldl_wf hs₁ fun {s₂ x} hs₂ => ?_
  split
  · exact hs₂
  · split
    · exact benchCtx_wf hs₂
    · exact modCtx_wf hs₂

theorem putPurse_wf {t : Nat} {v : Word} (h : MemoriesWf s) : MemoriesWf (putPurse s t v) := settlePurse_wf (modTenant_wf h)

theorem applyCharge_wf {e : Nat × Nat} (h : MemoriesWf s) : MemoriesWf (applyCharge s e) := by
  unfold applyCharge
  extract_lets x s₁
  have hs₁ : MemoriesWf s₁ := by
    dsimp only [s₁]
    split
    · exact putPurse_wf (modTenant_wf h)
    · exact h
  clear_value x
  split
  · exact hs₁
  · exact hs₁
  · exact hs₁

theorem execEnergyChargeApply_wf (h : MemoriesWf s) : NextWf (execEnergyChargeApply s) := foldl_wf h fun h₁ => applyCharge_wf h₁

theorem execTelemetrySample_wf (h : MemoriesWf s) : NextWf (execTelemetrySample s) := by
  unfold execTelemetrySample
  extract_lets t x s₁ lost a
  have hs₁ : MemoriesWf s₁ := modTenant_wf h
  split
  · exact h
  · split
    · exact modTenant_wf hs₁
    · split
      · rename_i e
        exact modTenant_wf (wf_of_snd e (translate_wf hs₁))
      · rename_i s₂ e
        have hs₂ : MemoriesWf s₂ := wf_of_snd e (translate_wf hs₁)
        split
        · exact modTenant_wf hs₂
        · exact modTenant_wf (unpoison_wf (writeHome_wf (touch_wf hs₂)))

/-! ## Trails and ticks -/

theorem settleDisable_wf {t i : Nat} (h : MemoriesWf s) : MemoriesWf (settleDisable s t i) := by
  unfold settleDisable
  extract_lets
  split
  · exact modField_wf h
  · exact h

theorem writeTrail0_wf {t i : Nat} {v : Word} (h : MemoriesWf s) : MemoriesWf (writeTrail0 s t i v) := by
  unfold writeTrail0
  extract_lets
  split
  · exact modField_wf h
  · split
    · exact settleDisable_wf (modField_wf h)
    · exact modField_wf h

theorem execTrailEnable_wf (h : MemoriesWf s) : NextWf (execTrailEnable s) := by
  unfold execTrailEnable
  split
  · exact writeTrail0_wf h
  · exact h

theorem execTrailEnableComplete_wf (h : MemoriesWf s) : NextWf (execTrailEnableComplete s) := by
  unfold execTrailEnableComplete
  extract_lets t i f s₁
  have hs₁ : MemoriesWf s₁ := modField_wf h
  split
  · exact settleDisable_wf hs₁
  · exact h

theorem execTrailDisable_wf (h : MemoriesWf s) : NextWf (execTrailDisable s) := by
  unfold execTrailDisable
  extract_lets
  split
  · exact settleDisable_wf (modField_wf h)
  · exact h

theorem execTimebaseTickDue_wf (h : MemoriesWf s) : NextWf (execTimebaseTickDue s) := by
  unfold execTimebaseTickDue
  extract_lets
  split
  · exact modField_wf h
  · exact h

theorem execTickUnitSend_wf (h : MemoriesWf s) : NextWf (execTickUnitSend s) := by
  unfold execTickUnitSend
  extract_lets
  split
  · exact h
  · split
    · exact h
    · split <;> exact modField_wf h

theorem execSliceTickApply_wf (h : MemoriesWf s) : NextWf (execSliceTickApply s) := modField_wf h

theorem tickDone_wf {t i : Nat} {f : Field} {req : Option Nat} (h : MemoriesWf s) : MemoriesWf (tickDone s t i f req) := by
  unfold tickDone
  extract_lets late due g s₁ s₂
  have hs₁ : MemoriesWf s₁ := modField_wf h
  have hs₂ : MemoriesWf s₂ := by
    dsimp only [s₂]
    split
    · split
      · split
        · exact rewake_wf (wake_wf hs₁)
        · exact hs₁
      · exact hs₁
    · exact hs₁
  exact settleDisable_wf hs₂

theorem execTickAck_wf (h : MemoriesWf s) : NextWf (execTickAck s) := by
  unfold execTickAck
  extract_lets
  split
  · split
    · extract_lets
      split
      · exact tickDone_wf h
      · exact modField_wf h
    · exact h
  · exact h

theorem refreshWord_wf {f : Field} {l : Loc} {p : Page} (h : MemoriesWf s) : MemoriesWf (refreshWord s f l p) := by
  unfold refreshWord
  extract_lets
  split
  · exact writeHome_wf (touchLine_wf h)
  · exact touchLine_wf h

theorem execScrubberRefresh_wf (h : MemoriesWf s) : NextWf (execScrubberRefresh s) := by
  unfold execScrubberRefresh
  extract_lets
  split
  · exact h
  · split
    · rename_i e
      exact modField_wf (wf_of_snd e (translate_wf h))
    · rename_i s₁ e
      have hs₁ : MemoriesWf s₁ := wf_of_snd e (translate_wf h)
      extract_lets
      split
      · exact modField_wf hs₁
      · split
        · exact hs₁
        · exact modField_wf (refreshWord_wf hs₁)

theorem execPtpClockStep_wf (h : MemoriesWf s) : NextWf (execPtpClockStep s) := h

/-! ## Partitions and registers -/

theorem passCore_wf {k : Core} : SpWf (passCore k) := rfl

theorem transferWork_wf {k : ResKind} {i dest : Nat} {old : Option Nat} (h : MemoriesWf s) : MemoriesWf (transferWork s k i dest old) := by
  unfold transferWork
  split
  · exact applyCap_wf (modTenant_wf (foldl_wf h fun h₁ => modCore_wf h₁ fun _ _ => passCore_wf))
  · exact dropLines_wf h
  · exact dropLines_wf h
  · exact h

theorem transfer_wf {k : ResKind} (h : MemoriesWf s) : MemoriesWf (transfer k s) := by
  unfold transfer
  extract_lets v i dest refuse old s₁
  have hs₁ : MemoriesWf s₁ := h
  split
  · exact h
  · split
    · exact h
    · split
      · exact h
      · split
        · exact h
        · exact transferWork_wf (modTenant_wf hs₁)

theorem execTransferRow_wf (h : MemoriesWf s) : NextWf (execTransferRow s) := unlessSwitching_wf h fun _ h₁ => transfer_wf h₁

theorem execTransferSlice_wf (h : MemoriesWf s) : NextWf (execTransferSlice s) := unlessSwitching_wf h fun _ h₁ => transfer_wf h₁

theorem execTransferChannel_wf (h : MemoriesWf s) : NextWf (execTransferChannel s) := unlessSwitching_wf h fun _ h₁ => transfer_wf h₁

theorem execTransferEngine_wf (h : MemoriesWf s) : NextWf (execTransferEngine s) := unlessSwitching_wf h fun _ h₁ => transfer_wf h₁

theorem execTransferComplete_wf (h : MemoriesWf s) : NextWf (execTransferComplete s) := by
  unfold execTransferComplete
  split
  · exact h
  · exact h

theorem execVaultGenerate_wf (h : MemoriesWf s) : NextWf (execVaultGenerate s) := by
  unfold execVaultGenerate
  refine unlessSwitching_wf h ?_
  intro s₁ h₁
  extract_lets
  split
  · exact h₁
  · split
    · exact h₁
    · split
      · exact h₁
      · exact h₁

theorem execVaultDestroy_wf (h : MemoriesWf s) : NextWf (execVaultDestroy s) := by
  unfold execVaultDestroy
  refine unlessSwitching_wf h ?_
  intro s₁ h₁
  extract_lets
  split
  · exact h₁
  · split
    · exact h₁
    · split
      · exact h₁
      · exact h₁

theorem execKeyDestroyComplete_wf (h : MemoriesWf s) : NextWf (execKeyDestroyComplete s) := by
  unfold execKeyDestroyComplete
  split
  · exact h
  · split
    · exact h
    · exact h

theorem hostTlbi_wf {op : Nat} (h : MemoriesWf s) : MemoriesWf (hostTlbi op s) := by
  unfold hostTlbi
  extract_lets
  split
  · exact h
  · exact h

theorem execCounterSelectWrite_wf (h : MemoriesWf s) : NextWf (execCounterSelectWrite s) := by
  unfold execCounterSelectWrite
  split
  · exact h
  · exact modTenant_wf h

theorem execFwUpdate_wf (h : MemoriesWf s) : NextWf (execFwUpdate s) := by
  unfold execFwUpdate
  extract_lets
  split
  · exact h
  · exact h

theorem execFwSwitch_wf (h : MemoriesWf s) : NextWf (execFwSwitch s) := by
  unfold execFwSwitch
  extract_lets
  split
  · exact h
  · split <;> exact h

theorem serveHeld_wf {f : Firmware} (h : MemoriesWf s) : MemoriesWf (serveHeld s f) := h

theorem execFwReady_wf (h : MemoriesWf s) : NextWf (execFwReady s) := by
  unfold execFwReady
  extract_lets
  split
  · exact serveHeld_wf h
  · exact h

theorem execFwSwitchTimeout_wf (h : MemoriesWf s) : NextWf (execFwSwitchTimeout s) := by
  unfold execFwSwitchTimeout
  split
  · exact serveHeld_wf h
  · exact h

theorem putPhysical_wf {a : Nat} {bs : List Byte} (h : MemoriesWf s) : MemoriesWf (putPhysical s a bs) := by
  unfold putPhysical
  extract_lets bs₁ s₁
  have hs₁ : MemoriesWf s₁ := rekey_wf (noteWrite_wf h)
  exact unpoison_wf (putMem_wf hs₁)

theorem execAttestationReport_wf (h : MemoriesWf s) : NextWf (execAttestationReport s) := by
  unfold execAttestationReport
  refine unlessSwitching_wf h ?_
  intro s₁ h₁
  extract_lets f head s₂
  have hs₂ : MemoriesWf s₂ := putPhysical_wf h₁
  split
  · exact h₁
  · split
    · exact h₁
    · exact hs₂

theorem execFwCommandComplete_wf (h : MemoriesWf s) : NextWf (execFwCommandComplete s) := by
  unfold execFwCommandComplete
  split
  · exact h
  · exact h

theorem reset_wf : MemoriesWf State.reset := ⟨rfl, fun _ => rfl, fun _ hx => absurd hx List.not_mem_nil⟩

theorem powerUp_wf : MemoriesWf (powerUp s) := reset_wf

theorem execPowerOn_wf : NextWf (execPowerOn s) := by
  unfold execPowerOn
  extract_lets r src
  have hr : MemoriesWf r := powerUp_wf
  split <;> exact hr

theorem writeControl_wf {t off : Nat} {v : Word} (h : MemoriesWf s) : MemoriesWf (writeControl s t off v) := by
  have hcaps : MemoriesWf ((List.range 128).foldl (fun s r => if ownsRow (getTenant s t) r then applyCap s r else s)
      (modTenant s t fun x => { x with rowcap := v.setWidth 3 })) :=
    foldl_wf (modTenant_wf h) fun hs => ite_wf (applyCap_wf hs) hs
  unfold writeControl
  refine ite_wf (ite_wf h (modTenant_wf h)) <| ite_wf (modTenant_wf h) <| ite_wf (modTenant_wf h) <| ite_wf (modTenant_wf h) <|
    ite_wf (modTenant_wf h) <| ite_wf (modTenant_wf h) <| ite_wf hcaps <| ite_wf ?_ <| ite_wf (modTenant_wf h) (modTenant_wf h)
  exact ite_wf (writeTrail0_wf h) (modField_wf h)

theorem writeLaunchPage_wf {t off : Nat} {v : Word} (h : MemoriesWf s) : MemoriesWf (writeLaunchPage s t off v) := by
  unfold writeLaunchPage
  split
  · split
    · exact h
    · exact modTenant_wf h
  · split
    · split
      · exact h
      · exact modQueue_wf h
    · exact h

theorem writeSlot_wf {t w : Nat} {v : Word} (h : MemoriesWf s) : MemoriesWf (writeSlot s t w v) := by
  unfold writeSlot
  split
  · exact modTenant_wf h
  · split
    · split
      · exact h
      · exact modTenant_wf h
    · split
      · exact modTenant_wf h
      · exact h

theorem writePartition_wf {off : Nat} {v : Word} (h : MemoriesWf s) : MemoriesWf (writePartition s off v) := by
  unfold writePartition
  split
  · exact h
  · split
    · exact h
    · split
      · exact h
      · split
        · exact h
        · split
          · exact h
          · split
            · exact writeSlot_wf h
            · exact h

theorem writeLinkPage_wf {off : Nat} {v : Word} (h : MemoriesWf s) : MemoriesWf (writeLinkPage s off v) := by
  unfold writeLinkPage
  split
  · exact h
  · split
    · exact h
    · exact h

theorem writeFlow0_wf {p i : Nat} {v : Word} (h : MemoriesWf s) : MemoriesWf (writeFlow0 s p i v) := modPort_wf h

theorem writeTrailhead_wf {p off : Nat} {v : Word} (h : MemoriesWf s) : MemoriesWf (writeTrailhead s p off v) := by
  unfold writeTrailhead
  extract_lets
  split
  · exact modPort_wf h
  · split
    · exact h
    · split
      · exact writeFlow0_wf h
      · exact modPort_wf h

theorem writeRegister_wf {off : Nat} {v : Word} (h : MemoriesWf s) : MemoriesWf (writeRegister s off v) := by
  unfold writeRegister
  split
  · exact h
  · split
    · exact writePartition_wf h
    · split
      · exact writeControl_wf h
      · split
        · exact writeLaunchPage_wf h
        · split
          · exact writeLinkPage_wf h
          · split
            · exact writeTrailhead_wf h
            · split
              · exact writeTrailhead_wf h
              · exact h

theorem execRegisterWrite_wf (h : MemoriesWf s) : NextWf (execRegisterWrite s) := by
  unfold execRegisterWrite
  split
  · split
    · exact refreshWin_wf (modCore_wf h fun _ hk => hk)
    · exact h
  · split
    · exact writeRegister_wf h
    · exact regStoreBytes_wf h

/-! ## Pre-emption and restoring -/

theorem regionPages_wf {t : Nat} {write : Bool} {va : Word} {n : Nat} (h : MemoriesWf s) : MemoriesWf (regionPages s t write va n).2 := by
  unfold regionPages
  split
  · exact h
  · split
    · rename_i e
      exact wf_of_snd e (walkPieces_wf h)
    · rename_i e
      exact wf_of_snd e (walkPieces_wf h)

theorem putWords_wf {t : Nat} {ps : List Page} {va : Word} {ws : List Word} (h : MemoriesWf s) : MemoriesWf (putWords t ps va ws s) :=
  foldl_wf h fun h₁ => unpoison_wf (writeHome_wf (touch_wf h₁))

theorem getWords_wf {t : Nat} {ps : List Page} {va : Word} {n : Nat} (h : MemoriesWf s) : MemoriesWf (getWords t ps va n s).2 :=
  List.foldlRecOn (motive := fun x : List Word × State => MemoriesWf x.2) _ _ h fun _ hx _ _ => touch_wf hx

theorem quiesce_wf {cid : Nat} (h : MemoriesWf s) : MemoriesWf (quiesce s cid) := by
  unfold quiesce
  split
  · exact h
  · rename_i c _
    cases c.status with
    | ready => exact h
    | parked w =>
      cases w with
      | page i => exact modCtx_wf h
      | _ => exact wake_wf h
    | held x =>
      cases x with
      | owe w _ =>
        cases w with
        | bar => exact withdraw_wf h
        | _ => exact h
      | bar => exact withdrawBar_wf h
      | park r =>
        cases r with
        | none => exact endPark_wf h
        | some _ => exact h
      | mwait | cfence | cwait => exact ite_wf h (withdraw_wf h)
      | pop | push =>
        dsimp only
        split
        · exact h
        · refine withdraw_wf ?_
          split
          · exact setFull_wf h
          · exact h
      | _ => exact h

theorem stopCtx_wf {cid : Nat} (h : MemoriesWf s) : MemoriesWf (stopCtx s cid) := modCtx_wf h

theorem forgetCtx_wf {sv : SavedCtx} (h : MemoriesWf s) : MemoriesWf (forgetCtx s sv) :=
  refreshWin_wf (removeRing_wf (modCore_wf h fun _ hk => hk))

theorem writeSaved_wf {t cid : Nat} {c : Ctx} {pc : Word} {area : Bool} (h : MemoriesWf s) : OkWf (writeSaved s t cid c pc area) := by
  unfold writeSaved
  extract_lets x k ws
  have hk : SpWf k := getCore_wf h
  split
  · rename_i s₁ e
    have hs₁ : MemoriesWf s₁ := wf_of_snd e (regionPages_wf h)
    exact trivial
  · rename_i s₁ e
    have hs₁ : MemoriesWf s₁ := wf_of_snd e (regionPages_wf h)
    split
    · exact putWords_wf hs₁
    · split
      · rename_i s₂ e₁
        have hs₂ : MemoriesWf s₂ := wf_of_snd e₁ (regionPages_wf hs₁)
        exact trivial
      · rename_i e₁
        exact putWords_wf (putWords_wf (wf_of_snd e₁ (regionPages_wf hs₁)))

theorem cannotSave_wf {t : Nat} {write : Bool} {e : NoSave} (h : MemoriesWf s) : MemoriesWf (cannotSave s t write e) := by
  unfold cannotSave
  split
  · exact report_wf h
  · exact h

theorem benchLower_wf {t core prio : Nat} (h : MemoriesWf s) : MemoriesWf (benchLower s t core prio) :=
  foldl_wf h fun h₁ => modCtx_wf (withdrawBar_wf h₁)

theorem saveOne_wf {t core prio rival : Nat} (h : MemoriesWf s) : MemoriesWf (saveOne s t core prio rival) := by
  unfold saveOne
  split
  · exact h
  · extract_lets cid s₁ k
    have hs₁ : MemoriesWf s₁ := quiesce_wf (stopCtx_wf h)
    have hk : SpWf k := getCore_wf hs₁
    split
    · exact hs₁
    · extract_lets
      split
      · exact hs₁
      · split
        · exact cannotSave_wf hs₁
        · rename_i s₂ e
          have hs₂ : MemoriesWf s₂ := wf_of_ok e (writeSaved_wf hs₁)
          exact modCore_wf (forgetCtx_wf hs₂) fun _ hk₁ => hk₁

theorem keepScratch_wf {t core : Nat} (h : MemoriesWf s) : MemoriesWf (keepScratch s t core) := by
  unfold keepScratch
  extract_lets k mine va
  have hk : SpWf k := getCore_wf h
  split
  · exact h
  · split
    · exact h
    · split
      · rename_i e
        exact cannotSave_wf (wf_of_snd e (regionPages_wf h))
      · rename_i e
        exact modCore_wf (putWords_wf (wf_of_snd e (regionPages_wf h))) fun _ hk₁ => hk₁

theorem saveCores_wf {t : Nat} {g : Seg} {l : List (Nat × Nat × Nat)} {done : List SavedCtx} (h : MemoriesWf s) :
    OkSndWf (saveCores t g l done s) := by
  induction l generalizing s done with
  | nil => exact h
  | cons x r ih =>
    obtain ⟨pos, core, slot⟩ := x
    unfold saveCores
    extract_lets
    split
    · trivial
    · split
      extract_lets
      split
      · trivial
      · rename_i s₁ e
        have hs₁ : MemoriesWf s₁ := wf_of_ok e (writeSaved_wf h)
        split
        rename_i e₁
        exact ih (forgetCtx_wf (wf_of_snd e₁ (takeId_wf hs₁)))

theorem saveSegment_wf {t key : Nat} {g : Seg} (h : MemoriesWf s) : OkWf (saveSegment s t key g) := by
  unfold saveSegment
  extract_lets
  split
  · rename_i s₁ e
    have hs₁ : MemoriesWf s₁ := wf_of_snd e (regionPages_wf h)
    exact trivial
  · rename_i s₁ e
    have hs₁ : MemoriesWf s₁ := wf_of_snd e (regionPages_wf h)
    split
    · exact trivial
    · rename_i s₂ e₁
      have hs₂ : MemoriesWf s₂ := wf_of_ok_snd e₁ (saveCores_wf (putWords_wf hs₁))
      split
      · rename_i s₃ e₂
        have hs₃ : MemoriesWf s₃ := wf_of_snd e₂ hs₂
        extract_lets sv s₄ s₅ s₆
        have hs₄ : MemoriesWf s₄ := foldl_wf hs₃ fun h₁ => modCore_wf h₁ fun _ hk => clearCore_wf hk
        have hs₅ : MemoriesWf s₅ := hs₄
        have hs₆ : MemoriesWf s₆ := modTenant_wf hs₅
        split
        · exact hs₆
        · exact modNode_wf hs₆

theorem preemptSegment_wf {t key : Nat} {g : Seg} (h : MemoriesWf s) : MemoriesWf (preemptSegment s t key g) := by
  unfold preemptSegment
  split
  · exact h
  · split
    · exact h
    · split
      · exact cannotSave_wf h
      · exact foldl_wf (setSeg_wf h) fun h₁ => stopCtx_wf h₁
  · extract_lets s₁ s₂
    have hs₁ : MemoriesWf s₁ := foldl_wf h fun h₁ => quiesce_wf h₁
    have hs₂ : MemoriesWf s₂ := foldl_wf (setSeg_wf hs₁) fun h₁ => modCtx_wf h₁
    split
    · split
      · rename_i e
        exact wf_of_ok e (saveSegment_wf hs₁)
      · exact hs₁
      · exact cannotSave_wf hs₂
    · exact hs₁

theorem preemptRow_wf {t core : Nat} {r : Ready} (h : MemoriesWf s) : MemoriesWf (preemptRow s t core r) := by
  unfold preemptRow
  extract_lets
  split
  · exact h
  · split
    · split
      · exact preemptSegment_wf h
      · exact h
    · split
      · exact h
      · exact saveOne_wf (benchLower_wf h)

theorem preemptArrival_wf {t core : Nat} (h : MemoriesWf s) : MemoriesWf (preemptArrival s t core) := by
  unfold preemptArrival
  split
  · exact h
  · split
    · exact h
    · exact saveOne_wf (benchLower_wf h)

theorem execPreempt_wf (h : MemoriesWf s) : NextWf (execPreempt s) := by
  unfold execPreempt
  extract_lets t core top s₁ s₂
  have hs₁ : MemoriesWf s₁ := benchLower_wf h
  have hs₂ : MemoriesWf s₂ := by
    dsimp only [s₂]
    split
    · split
      · exact preemptRow_wf hs₁
      · exact hs₁
    · exact hs₁
  exact keepScratch_wf (preemptArrival_wf hs₂)

theorem loadScratch_wf {n : Nat} {bad : List Nat} {ws : List Word} {k : Core} (hk : SpWf k) : SpWf (loadScratch n bad ws k) := spWrite_wf hk

theorem loadCore_wf {sv : SavedCtx} {ws : List Word} {k : Core} (hk : SpWf k) : SpWf (loadCore s sv ws k) := by
  simp only [SpWf, loadCore]
  exact loadScratch_wf hk

theorem loadOwn_wf {sv : SavedCtx} {new : Nat} {ws : List Word} {k : Core} (hk : SpWf k) : SpWf (loadOwn sv new ws k) := hk

theorem renameSaved_wf {new : Nat} {sv : SavedCtx} {k : Core} (hk : SpWf k) : SpWf (renameSaved new sv k) := hk

theorem readArea_wf {t core : Nat} (h : MemoriesWf s) : OkSndWf (readArea s t core) := by
  unfold readArea
  split
  · rename_i s₁ e
    have hs₁ : MemoriesWf s₁ := wf_of_snd e (regionPages_wf h)
    exact trivial
  · rename_i e
    exact getWords_wf (wf_of_snd e (regionPages_wf h))

theorem writeBackArea_wf {t core : Nat} {sv : SavedCtx} (h : MemoriesWf s) : OkWf (writeBackArea s t core sv) := by
  unfold writeBackArea
  split
  · exact h
  · split
    · exact trivial
    · rename_i e
      exact modCore_wf (wf_of_ok_snd e (readArea_wf h)) fun _ hk => loadCore_wf hk

theorem restoreCtx_wf {t core slot base : Nat} {sv : SavedCtx} (h : MemoriesWf s) : OkWf (restoreCtx s t core slot base sv) := by
  unfold restoreCtx
  extract_lets
  split
  · rename_i s₁ e
    have hs₁ : MemoriesWf s₁ := wf_of_snd e (regionPages_wf h)
    exact trivial
  · rename_i s₁ e
    have hs₁ : MemoriesWf s₁ := wf_of_snd e (regionPages_wf h)
    extract_lets
    split
    · rename_i s₂ e₁
      have hs₂ : MemoriesWf s₂ := wf_of_snd e₁ (getWords_wf hs₁)
      split
      · exact trivial
      · rename_i s₃ e₂
        have hs₃ : MemoriesWf s₃ := by
          refine wf_of_ok_snd e₂ ?_
          split
          · exact readArea_wf hs₂
          · exact hs₂
        extract_lets benched src c c₁ rf rf₁ s₄ s₅ s₆ cont
        have hs₄ : MemoriesWf s₄ := by
          dsimp only [s₄]
          refine modCore_wf hs₃ ?_
          intro k hk
          split
          · exact loadOwn_wf (renameSaved_wf hk)
          · exact renameSaved_wf hk
        have hs₅ : MemoriesWf s₅ := hs₄
        have hs₆ : MemoriesWf s₆ := by
          dsimp only [s₆]
          split
          · exact modCore_wf hs₅ fun _ hk => hk
          · exact hs₅
        exact refreshWin_wf (installRing_wf (raiseRow_wf hs₆))

theorem giveBack_wf {core : Nat} (h : MemoriesWf s) : OkWf (giveBack s core) := by
  unfold giveBack
  split
  · exact h
  · rename_i x _
    split
    · exact h
    · split
      · exact trivial
      · rename_i ws s₁ e
        refine modCore_wf (wf_of_ok_snd e (readArea_wf h)) fun k hk => ?_
        have hl : SpWf (loadScratch x.bytes x.bad ws k) := loadScratch_wf hk
        exact hl

theorem unbench_wf {t core : Nat} (h : MemoriesWf s) : MemoriesWf (unbench s t core) := modCore_wf h fun _ hk => mapCtxs_wf hk

theorem writeBackAll_wf {core : Nat} {l : List SavedCtx} (h : MemoriesWf s) : OkWf (writeBackAll core l s) := by
  induction l generalizing s with
  | nil => exact h
  | cons sv r ih =>
    unfold writeBackAll
    split
    · trivial
    · rename_i e
      exact ih (modCore_wf (wf_of_ok e (writeBackArea_wf h)) fun _ hk => hk)

theorem restoreFirst_wf {core : Nat} (h : MemoriesWf s) : MemoriesWf (restoreFirst s core) := by
  unfold restoreFirst
  split
  · exact h
  · split
    · exact h
    · split
      · split
        · exact h
        · split
          · exact cannotSave_wf h
          · rename_i s₁ e
            have hs₁ : MemoriesWf s₁ := wf_of_ok e (writeBackAll_wf h)
            split
            · rename_i e₁
              exact modCore_wf (wf_of_ok e₁ (restoreCtx_wf hs₁)) fun _ hk => hk
            · exact cannotSave_wf hs₁
      · exact h

theorem restoreCores_wf {t : Nat} {l : List (SavedCtx × Nat × Nat)} {done : List (Nat × Nat × Nat)} (h : MemoriesWf s) :
    OkSndWf (restoreCores t l done s) := by
  induction l generalizing s done with
  | nil => exact h
  | cons x r ih =>
    obtain ⟨sv, pos, core⟩ := x
    unfold restoreCores
    split
    · trivial
    · rename_i s₁ e
      have hs₁ : MemoriesWf s₁ := wf_of_ok e (writeBackArea_wf h)
      split
      · split
        · rename_i e₁
          exact ih (wf_of_ok e₁ (restoreCtx_wf hs₁))
        · trivial
      · trivial

theorem restoreSegment_wf {t key : Nat} (h : MemoriesWf s) : MemoriesWf (restoreSegment s t key) := by
  unfold restoreSegment
  split
  · exact h
  · extract_lets
    split
    · exact h
    · split
      · rename_i e
        exact cannotSave_wf (wf_of_snd e (regionPages_wf h))
      · rename_i s₁ e
        have hs₁ : MemoriesWf s₁ := wf_of_snd e (regionPages_wf h)
        split
        · rename_i s₂ e₁
          have hs₂ : MemoriesWf s₂ := wf_of_snd e₁ (getWords_wf hs₁)
          split
          · exact cannotSave_wf hs₂
          · rename_i s₃ e₂
            have hs₃ : MemoriesWf s₃ := wf_of_ok_snd e₂ (restoreCores_wf hs₂)
            extract_lets rep ks src g' s₄ s₅
            have hs₄ : MemoriesWf s₄ := foldl_wf (setSeg_wf hs₃) fun h₁ => modCore_wf h₁ fun _ hk => hk
            have hs₅ : MemoriesWf s₅ := modTenant_wf hs₄
            split
            · exact hs₅
            · exact modNode_wf hs₅

theorem execSavedContextRestore_wf (h : MemoriesWf s) : NextWf (execSavedContextRestore s) := by
  unfold execSavedContextRestore
  extract_lets
  split
  · exact restoreSegment_wf h
  · split
    · rename_i e
      exact restoreFirst_wf (unbench_wf (wf_of_ok e (giveBack_wf h)))
    · exact cannotSave_wf h

/-! ## Links, the debug port and soft errors -/

theorem outsideOp_wf {t : Nat} {l : Loc} {p : Page} {op : PeerOp} {n : Nat} {ext : Word} (h : MemoriesWf s) :
    MemoriesWf (outsideOp s t l p op n ext).2.2 :=
  performOp_wf (touch_wf h)

theorem hostFault_wf {t n : Nat} {va : Word} {write : Bool} {c : Cause} {stage2 : Bool} (h : MemoriesWf s) :
    MemoriesWf (hostFault s t n va write c stage2) := by
  unfold hostFault
  extract_lets s₁
  have hs₁ : MemoriesWf s₁ := report_wf h
  exact hs₁

theorem ite_snd_wf {α : Type} {c : Prop} [Decidable c] {x y : α × State} (hx : MemoriesWf x.2) (hy : MemoriesWf y.2) :
    MemoriesWf (if c then x else y).2 := by
  split
  · exact hx
  · exact hy

theorem hostPages_wf {t : Nat} {write : Bool} {l : List (Word × Nat)} (h : MemoriesWf s) : MemoriesWf (hostPages t write l s).2 := by
  induction l generalizing s with
  | nil => exact h
  | cons x r ih =>
    obtain ⟨a, n⟩ := x
    unfold hostPages
    split
    · rename_i e
      exact wf_of_snd e (translate_wf h)
    · rename_i e
      exact wf_of_snd e (translate_wf h)
    · rename_i p s₁ e
      have hs₁ : MemoriesWf s₁ := wf_of_snd e (translate_wf h)
      refine ite_snd_wf hs₁ (ite_snd_wf hs₁ ?_)
      split
      · rename_i e₁
        exact wf_of_snd e₁ (ih hs₁)
      · rename_i e₁
        exact wf_of_snd e₁ (ih hs₁)

theorem hostPerform_wf {t : Nat} {op : PeerOp} {ext : Word} {l : List ((Word × Nat) × Page)} {n : Nat} (h : MemoriesWf s) :
    MemoriesWf (hostPerform t op ext l n s).2.2 := by
  induction l generalizing s n with
  | nil => exact h
  | cons x r ih =>
    obtain ⟨⟨a, m⟩, p⟩ := x
    exact ih (outsideOp_wf h)

theorem keepWait_wf {w : RemoteWait} (h : MemoriesWf s) : MemoriesWf (keepWait s w) := h

theorem hostDown_wf {t : Nat} {w : RemoteWait} {l : Loc} (h : MemoriesWf s) : MemoriesWf (hostDown s t w l) := by
  unfold hostDown
  split
  · exact h
  · extract_lets src
    have hsrc : MemoriesWf src := dropStore_wf h
    exact hsrc

theorem serveMemory_wf {w : RemoteWait} {ext : Word} (h : MemoriesWf s) : MemoriesWf (serveMemory s w ext) := by
  unfold serveMemory
  split
  · exact hostFault_wf h
  · extract_lets
    split
    · rename_i e
      exact hostFault_wf (wf_of_snd e (hostPages_wf h))
    · rename_i s₁ e
      have hs₁ : MemoriesWf s₁ := wf_of_snd e (hostPages_wf h)
      extract_lets
      split
      · exact hostDown_wf hs₁
      · split
        · exact keepWait_wf hs₁
        · exact hostPerform_wf hs₁

theorem serveRegister_wf {w : RemoteWait} (h : MemoriesWf s) : MemoriesWf (serveRegister s w) := by
  unfold serveRegister
  split
  · exact h
  · extract_lets src
    have hsrc : MemoriesWf src := regStoreBytes_wf h
    exact hsrc
  · exact h

theorem serveHost_wf {w : RemoteWait} {ext : Word} (h : MemoriesWf s) : MemoriesWf (serveHost s w ext) := by
  unfold serveHost
  extract_lets s₁
  have hs₁ : MemoriesWf s₁ := h
  split
  · exact keepWait_wf hs₁
  · split
    · exact serveRegister_wf hs₁
    · exact serveMemory_wf hs₁

theorem execHostMemoryAccess_wf (h : MemoriesWf s) : NextWf (execHostMemoryAccess s) := by
  unfold execHostMemoryAccess
  extract_lets
  split
  · exact h
  · split
    · exact serveHost_wf h
    · split
      · exact h
      · split
        · exact hostFault_wf h
        · exact serveHost_wf h

theorem execHostLinkRetrain_wf (h : MemoriesWf s) : NextWf (execHostLinkRetrain s) := h

theorem peerFault_wf {w : RemoteWait} (h : MemoriesWf s) : MemoriesWf (peerFault s w) := by
  unfold peerFault
  split
  rename_i s₁ e
  have hs₁ : MemoriesWf s₁ := wf_of_snd e (report_wf h)
  exact hs₁

theorem servePeer_wf {w : RemoteWait} (h : MemoriesWf s) : MemoriesWf (servePeer s w) := by
  unfold servePeer
  split
  · exact peerFault_wf h
  · split
    · exact peerFault_wf h
    · split
      · exact peerFault_wf h
      · extract_lets
        split
        · exact h
        · exact outsideOp_wf h

theorem execRemoteRequest_wf (h : MemoriesWf s) : NextWf (execRemoteRequest s) := by
  unfold execRemoteRequest
  split
  · exact h
  · split
    · split
      · exact h
      · exact servePeer_wf h
    · split
      · exact h
      · exact servePeer_wf h

theorem dropPagesOf_wf {n : Nat} (h : MemoriesWf s) : MemoriesWf (dropPagesOf s n) := mapCores_wf h (fun _ => rfl) fun _ hk => hk

theorem dropBuffered_wf {core n : Nat} (h : MemoriesWf s) : MemoriesWf (dropBuffered s core n) :=
  rewake_wf (foldl_wf (modCore_wf h fun _ hk => hk) fun h₁ => dropStore_wf h₁)

theorem failOutstanding_wf {n : Nat} (h : MemoriesWf s) : MemoriesWf (failOutstanding s n) := by
  unfold failOutstanding
  extract_lets s₁
  have hs₁ : MemoriesWf s₁ := foldl_wf h fun h₁ => failReq_wf h₁
  refine foldl_wf hs₁ fun {s₂ x} hs₂ => ?_
  split
  · exact dropBuffered_wf hs₂
  · exact hs₂

theorem failHost_wf (h : MemoriesWf s) : MemoriesWf (failHost s) := failOutstanding_wf (dropPagesOf_wf h)

theorem failPeer_wf {n : Nat} (h : MemoriesWf s) : MemoriesWf (failPeer s n) := failOutstanding_wf (dropPagesOf_wf h)

theorem execLinkFailure_wf (h : MemoriesWf s) : NextWf (execLinkFailure s) := by
  unfold execLinkFailure
  extract_lets
  split
  · split
    · exact failHost_wf h
    · exact h
  · split
    · exact failPeer_wf h
    · exact h

theorem execPeerRestore_wf (h : MemoriesWf s) : NextWf (execPeerRestore s) := by
  unfold execPeerRestore
  extract_lets n src p ok s₁ s₂
  have hs₁ : MemoriesWf s₁ := by
    dsimp only [s₁]
    split
    · exact failOutstanding_wf h
    · exact h
  have hs₂ : MemoriesWf s₂ := hs₁
  split
  · exact hs₂
  · exact hs₂

theorem execPeerPortLinkChange_wf (h : MemoriesWf s) : NextWf (execPeerPortLinkChange s) := by
  unfold execPeerPortLinkChange
  extract_lets
  split
  · exact h
  · split
    · exact h
    · exact h

theorem execFrameArrive_wf (h : MemoriesWf s) : NextWf (execFrameArrive s) := by
  unfold execFrameArrive
  split
  · exact h
  · exact modPort_wf h

theorem frameFault_wf {p i t : Nat} {e : WalkFault} {a : Word} (h : MemoriesWf s) : MemoriesWf (frameFault s p i t e a) := by
  unfold frameFault
  extract_lets
  split
  · rename_i s₁ e₁
    have hs₁ : MemoriesWf s₁ := by
      refine wf_of_snd e₁ ?_
      split <;> exact report_wf h
    exact modPort_wf hs₁

theorem frameRefused_wf {p i t : Nat} {a : Word} (h : MemoriesWf s) : MemoriesWf (frameRefused s p i t a) := modPort_wf (report_wf h)

theorem frameArrival_wf {p i t : Nat} {f : Flow} {fr : Frame} {page : Page} {slot w1 : Word} (h : MemoriesWf s) :
    MemoriesWf (frameArrival s p i t f fr page slot w1) := by
  unfold frameArrival
  split
  · exact h
  · split
    · exact h
    · exact h

theorem putBytes_wf {t : Nat} {v : BitVec 16} {ps : List Page} {va : Word} {bs : List Byte} (h : MemoriesWf s) :
    MemoriesWf (putBytes t v ps va bs s) :=
  foldl_wf h fun h₁ => engineWrite_wf h₁

theorem deliverFrame_wf {p i : Nat} {fr : Frame} (h : MemoriesWf s) : MemoriesWf (deliverFrame s p i fr) := by
  unfold deliverFrame
  extract_lets +onlyGivenNames q f
  split
  · exact modPort_wf h
  · split
    · rename_i e
      exact frameFault_wf (wf_of_snd e (translate_wf h))
    · rename_i s₁ e
      have hs₁ : MemoriesWf s₁ := wf_of_snd e (translate_wf h)
      split
      · exact frameRefused_wf hs₁
      · extract_lets +onlyGivenNames d at_
        split
        · exact hs₁
        · extract_lets +onlyGivenNames slot bs
          split
          · rename_i e₁
            exact frameFault_wf (wf_of_snd e₁ (walkPieces_wf hs₁))
          · rename_i e₁
            exact frameRefused_wf (wf_of_snd e₁ (walkPieces_wf hs₁))
          · rename_i s₂ e₁
            have hs₂ : MemoriesWf s₂ := wf_of_snd e₁ (walkPieces_wf hs₁)
            extract_lets +onlyGivenNames el
            split
            · rename_i e₂
              exact frameFault_wf (wf_of_snd e₂ (translate_wf hs₂))
            · rename_i s₃ e₂
              have hs₃ : MemoriesWf s₃ := wf_of_snd e₂ (translate_wf hs₂)
              split
              · exact frameRefused_wf hs₃
              · split
                · exact hs₃
                · extract_lets +onlyGivenNames s₄ s₅ s₆ s₇
                  have hs₄ : MemoriesWf s₄ := putBytes_wf hs₃
                  have hs₅ : MemoriesWf s₅ := touch_wf hs₄
                  have hs₆ : MemoriesWf s₆ := writeHome_wf (touch_wf hs₅)
                  have hs₇ : MemoriesWf s₇ := writeHome_wf (unpoison_wf hs₆)
                  exact frameArrival_wf (modPort_wf hs₇)

theorem execTrailheadFrameDeliver_wf (h : MemoriesWf s) : NextWf (execTrailheadFrameDeliver s) := by
  unfold execTrailheadFrameDeliver
  extract_lets
  split
  · exact h
  · split
    · exact h
    · exact deliverFrame_wf h

theorem execFlowEnable_wf (h : MemoriesWf s) : NextWf (execFlowEnable s) := by
  unfold execFlowEnable
  split
  · exact writeFlow0_wf h
  · exact h

theorem execDebugFreeze_wf (h : MemoriesWf s) : NextWf (execDebugFreeze s) := h

theorem execDebugThaw_wf (h : MemoriesWf s) : NextWf (execDebugThaw s) := h

theorem putLink_wf {off : Nat} {v : Word} (h : MemoriesWf s) : MemoriesWf (putLink s off v) := by
  unfold putLink
  split
  · exact h
  · split
    · exact h
    · split
      · exact h
      · exact h

theorem putTrailhead_wf {p off : Nat} {v : Word} (h : MemoriesWf s) : MemoriesWf (putTrailhead s p off v) := modPort_wf h

theorem debugWrite_wf {d : DbgSite} {v : Word} (h : MemoriesWf s) : MemoriesWf (debugWrite s d v) := by
  unfold debugWrite
  split
  · split
    · exact putReg_wf h
    · exact h
  · exact modCtx_wf h
  · exact modCtx_wf h
  · split
    · exact modCore_wf h fun _ hk => spWrite_wf hk
    · exact h
  · split
    · exact modCore_wf h fun _ hk => setBank_wf hk
    · exact h
  · exact modCore_wf h fun _ hk => hk
  · exact modSeg_wf h
  · split
    · exact setMem_wf h (memSet_wf h.1 _ _)
    · exact h
  · exact writeRegister_wf h
  · split
    · exact h
    · split
      · exact putLink_wf h
      · split
        · exact putTrailhead_wf h
        · split
          · exact putTrailhead_wf h
          · exact h
  · exact setFull_wf h
  · exact modCtx_wf h
  · exact modCtx_wf h
  · exact modCtx_wf h
  · exact modCore_wf h fun _ hk => hk
  · exact modCore_wf h fun _ hk => hk
  · exact modCore_wf h fun _ hk => hk
  · exact modCore_wf h fun _ hk => hk
  · refine modCore_wf h ?_
    intro k hk
    split
    · split <;> exact hk
    · exact hk
  · exact modTenant_wf h
  · exact modSeg_wf h
  · exact modRow_wf h

theorem execDebugWindowAccess_wf (h : MemoriesWf s) : NextWf (execDebugWindowAccess s) := by
  unfold execDebugWindowAccess
  split
  · exact h
  · split
    · exact debugWrite_wf h
    · exact h

theorem coreError_wf {core : Nat} (h : MemoriesWf s) : MemoriesWf (coreError s core) := by
  unfold coreError
  split
  · extract_lets s₁
    have hs₁ : MemoriesWf s₁ := modCore_wf h fun _ hk => hk
    split
    · exact abortSeg_wf hs₁
    · exact hs₁
  · exact killCore_wf h

theorem execUncorrectableError_wf (h : MemoriesWf s) : NextWf (execUncorrectableError s) := by
  unfold execUncorrectableError
  split
  · split
    · exact putReg_wf h
    · exact h
  · exact modCore_wf h fun _ hk => hk
  · exact h
  · exact coreError_wf h

theorem execCorrectedError_wf (h : MemoriesWf s) : NextWf (execCorrectedError s) := h

/-- Cells below an address, and after them cells from it on, are in form. -/
theorem memFrom_append {m m' : Memory} {lo : Option Nat} {a : Nat} (h : memFrom lo m = true) (hm : ∀ c ∈ m, c.1 < a)
    (h' : memFrom none m' = true) (hm' : ∀ c ∈ m', a ≤ c.1) (hlo : ∀ l, lo = some l → l < a) : memFrom lo (m ++ m') = true := by
  induction m generalizing lo with
  | nil =>
    cases m' with
    | nil => rfl
    | cons c r =>
      obtain ⟨-, hv, hr⟩ := memFrom_cons.1 h'
      exact memFrom_cons.2 ⟨fun l hl => Nat.lt_of_lt_of_le (hlo l hl) (hm' c List.mem_cons_self), hv, hr⟩
  | cons c r ih =>
    obtain ⟨hc, hv, hr⟩ := memFrom_cons.1 h
    refine memFrom_cons.2 ⟨hc, hv, ih hr (fun x hx => hm x (List.mem_cons_of_mem _ hx)) fun l hl => ?_⟩
    obtain rfl : c.1 = l := Option.some.inj hl
    exact hm c List.mem_cons_self

theorem takeColumn_wf {old phys : Core} {zero : Bool} (hold : SpWf old) (hphys : SpWf phys) : SpWf (takeColumn old phys zero) := by
  simp only [SpWf, takeColumn]
  split
  · exact memory_filter_wf _ hphys
  · exact memFrom_append (memory_filter_wf _ hphys) (fun c hc => of_decide_eq_true (List.mem_filter.1 hc).2) (memory_filter_wf _ hold)
      (fun c hc => of_decide_eq_true (List.mem_filter.1 hc).2) fun _ hl => nomatch hl

theorem getD_wf {l : List Core} {n : Nat} (h : ∀ k ∈ l, SpWf k) : SpWf (l.getD n {}) := by
  rw [List.getD_eq_getElem?_getD]
  cases e : l[n]? with
  | none => rfl
  | some k => exact h k (List.mem_of_getElem? e)

theorem remapColumn_wf {r p : Nat} (h : MemoriesWf s) : MemoriesWf (remapColumn s r p) := by
  unfold remapColumn
  extract_lets x olds
  have holds : ∀ k ∈ olds, SpWf k := by
    intro k hk
    obtain ⟨i, -, rfl⟩ := List.mem_map.1 hk
    split
    · exact getCore_wf h
    · rfl
  split
  · exact h
  · extract_lets s₁
    have hs₁ : MemoriesWf s₁ := by
      dsimp only [s₁]
      refine foldl_wf h fun {s₂ x} hs₂ => ?_
      split
      · exact hs₂
      · exact setCore_wf hs₂ (takeColumn_wf (getD_wf holds) (getD_wf holds))
    exact modRow_wf hs₁

theorem remapRow_wf {r : Nat} (h : MemoriesWf s) : MemoriesWf (remapRow s r) := foldl_wf h fun h₁ => remapColumn_wf h₁

theorem execRowRemap_wf (h : MemoriesWf s) : NextWf (execRowRemap s) := by
  unfold execRowRemap
  extract_lets
  split
  · exact h
  · split
    · exact remapRow_wf h
    · split
      · exact tlbiStep_wf h
      · split
        · rename_i s₁ _ e
          have hs₁ : MemoriesWf s₁ := wf_of_fst e (tlbiStep_wf h)
          split
          · exact remapRow_wf (dropEntries_wf hs₁)
          · exact hs₁

/-! ## The vector unit -/

theorem vector_wf {op f3 : Nat} {w : Bool} {d a b : Reg} (h : MemoriesWf s) : NextWf (vector op f3 w d a b s) := by
  unfold vector
  extract_lets
  refine settle_wf ?_ h
  intro s₁ h₁
  split
  · exact h₁
  · split
    · exact retire_wf h₁
    · exact holdNow_wf (modCore_wf h₁ fun _ hk => hk)

theorem unitWrite_wf {k : Core} {at_ : Nat} {bs : List Byte} (hk : SpWf k) : SpWf (unitWrite k at_ bs).1 := by
  unfold unitWrite
  extract_lets part k₁
  have hk₁ : SpWf k₁ := by
    dsimp only [k₁]
    refine List.foldlRecOn (motive := SpWf) _ _ hk fun k hk x _ => ?_
    split
    · exact hk
    · exact spWrite_wf hk
  exact hk₁

theorem vAdvance_wf {v : VCmd} (h : MemoriesWf s) : MemoriesWf (vAdvance s v) := foldl_wf h fun h₁ => writeReg_wf h₁

theorem vectorStep_wf {core : Nat} (h : MemoriesWf s) : MemoriesWf (vectorStep core s) := by
  unfold vectorStep
  extract_lets k
  have hk : SpWf k := getCore_wf h
  split
  · exact h
  · extract_lets
    split
    · extract_lets
      split
      rename_i k₁ w₁ e₁
      have hk₁ : SpWf k₁ := by
        split at e₁
        · exact spWf_of_fst e₁ (unitWrite_wf hk)
        · exact spWf_of_fst e₁ hk
      split
      rename_i k₂ w₂ e₂
      have hk₂ : SpWf k₂ := spWf_of_fst e₂ (unitWrite_wf hk₁)
      extract_lets +onlyGivenNames s₁ s₂ bad s₃
      have hs₁ : MemoriesWf s₁ := setCore_wf h hk₂
      have hs₂ : MemoriesWf s₂ := setFlags_wf hs₁
      have hs₃ : MemoriesWf s₃ := foldl_wf hs₂ fun h₁ => pendTrap_wf h₁
      split
      · exact rewake_wf (wake_wf (vAdvance_wf hs₃))
      · exact hs₃

theorem execVectorStep_wf (h : MemoriesWf s) : NextWf (execVectorStep s) := by
  unfold execVectorStep
  split
  · exact h
  · exact vectorStep_wf h

/-! ## The words and the step -/

theorem exec_wf (i : Instr) (h : MemoriesWf s) : NextWf (exec i s) := by
  cases i with dsimp only [exec]
  | add | sub | and | or | xor | sll | srl | sra | slt | sltu | min | max | minu | maxu | mul | mulh | mulhu | mulhsu | div | divu | rem
  | remu => exact alu2_wf h
  | home | clz | ctz | popc => exact alu1_wf h
  | addi | andi | ori | xori | slli | srli | srai | slti | sltiu => exact aluImm_wf h
  | lui | adpc => exact aluConst_wf h
  | ld | ldBy => exact load_wf h
  | st | stRel => exact store_wf h
  | beq | bne | blt | bge | bltu | bgeu => exact branch_wf h
  | amoAdd | amoAnd | amoOr | amoXor | amoSwap | amoMin | amoMax | amoCas | amoAddAcq | amoAndAcq | amoOrAcq | amoXorAcq | amoSwapAcq
  | amoMinAcq | amoMaxAcq | amoCasAcq | amoAddRel | amoAndRel | amoOrRel | amoXorRel | amoSwapRel | amoMinRel | amoMaxRel | amoCasRel
  | amoAddAr | amoAndAr | amoOrAr | amoXorAr | amoSwapAr | amoMinAr | amoMaxAr | amoCasAr | amoMinu | amoMaxu | amoFaddD | amoFaddW
  | amoFaddH | amoBfadd | amoMinuAcq | amoMaxuAcq | amoFaddDAcq | amoFaddWAcq | amoFaddHAcq | amoBfaddAcq | amoMinuRel | amoMaxuRel
  | amoFaddDRel | amoFaddWRel | amoFaddHRel | amoBfaddRel | amoMinuAr | amoMaxuAr | amoFaddDAr | amoFaddWAr | amoFaddHAr
  | amoBfaddAr => exact amo_wf h
  | amosAdd | amosAnd | amosOr | amosXor | amosSwap | amosMin | amosMax | amosCas | amosMinu | amosMaxu | amosFaddD | amosFaddW
  | amosFaddH | amosBfadd => exact amos_wf h
  | depAdd | depMax | depAddRel | depMaxRel => exact deposit_wf h
  | fadd | fsub | fmul | fdiv | fminW | fmaxW | feqW | fltW | fleW | fsgnjW | fsgnjnW | fminD | fmaxD | feqD | fltD | fleD | fsgnjD
  | fsgnjnD => exact float2_wf h
  | fma | fnma => exact float3_wf h
  | fsqrt | fclassW | fclassD | cvtSD | cvtDS | cvtHS | cvtSH | cvtBfS | cvtSBf | cvtSL | cvtDL | cvtLS | cvtLD | cvtDLu
  | cvtLuD => exact float1_wf h
  | vadd | vsub | vmul | vfma | vminW | vmaxW | vminD | vmaxD | vcpy | vcvtHS | vcvtSH | vcvtBfS | vcvtSBf | vcvtBd8S | vcvtSBd8
  | vcvtBd4S | vcvtSBd4 => exact vector_wf h
  | sfuExp2 | sfuLog2 | sfuRcp | sfuRsq | sfuSin | sfuCos | sfuTanh | sfuSigm => exact sfuWord_wf h
  | sbindIn | sbindOut => exact sbind_wf h
  | mma | mmaZ | mmaRot | mmaRotZ | mmaRotSd | mmaRotSdZ => exact mmaWord_wf h
  | mstc | mldc => exact moveWord_wf h
  | cpyGg | cpyGs | cpySg | cpySs => exact cpy_wf h
  | cpySub | cpySubPull => exact subscribe_wf h
  | kadd | ksub | kand | kor | kxor | ksll | ksrl | kmul | kaddi => exact kResult_wf h
  | kbeq | kbne | kloop | kj | rend => exact atSequencer_wf h
  | rowany | rowall => exact rowPredicate_wf h
  | csrr | csrrw | csrs | csrc => exact csr_wf h
  | tlbiVa | tlbiS2 | tlbiVmid | tlbiAll => exact tlbiWord_wf h
  | rep | repOs => exact repPrefix_wf h
  | fenceCore | fenceDie | fencePkg | fenceDom => exact fence_wf h
  | streamPop | streamPush => exact portStep_wf h
  | parkTimeout | parkEarlyComplete => exact endPark_wf h
  | pset | padd => exact putPurse_wf h
  | hostTlbiVa | hostTlbiVmid | hostTlbiS2 | hostTlbiAll => exact hostTlbi_wf h
  | lds => exact execLds_wf h
  | sts => exact execSts_wf h
  | jal => exact execJal_wf h
  | jalr => exact execJalr_wf h
  | ldAcq => exact execLdAcq_wf h
  | peek => exact execPeek_wf h
  | sense => exact execSense_wf h
  | tick => exact execTick_wf h
  | sunbind => exact execSunbind_wf h
  | ctab => exact execCtab_wf h
  | mcommit => exact execMcommit_wf h
  | mwait => exact execMwait_wf h
  | cpySubRet => exact execCpySubRet_wf h
  | cwait => exact execCwait_wf h
  | spawn => exact execSpawn_wf h
  | go => exact execGo_wf h
  | park => exact execPark_wf h
  | join => exact execJoin_wf h
  | leave => exact execLeave_wf h
  | bar => exact execBar_wf h
  | tsig => exact execTsig_wf h
  | dline => exact execDline_wf h
  | prog => exact execProg_wf h
  | pwrHint => exact execPwrHint_wf h
  | vectorStep => exact execVectorStep_wf h
  | sfuAccept => exact execSfuAccept_wf h
  | matrixEngineSchedule => exact execMatrixEngineSchedule_wf h
  | mmaGroup => exact execMmaGroup_wf h
  | latchRowArrive => exact execLatchRowArrive_wf h
  | matrixCommandComplete => exact execMatrixCommandComplete_wf h
  | copyUnitTransfer => exact execCopyUnitTransfer_wf h
  | copyCommandComplete => exact execCopyCommandComplete_wf h
  | subscriptionTileLand => exact execSubscriptionTileLand_wf h
  | subscriptionPullBack => exact execSubscriptionPullBack_wf h
  | cfence => exact execCfence_wf h
  | quit => exact execQuit_wf h
  | yield => exact execYield_wf h
  | parkWake => exact execParkWake_wf h
  | heldAnswer => exact execHeldAnswer_wf h
  | streamBeat => exact execStreamBeat_wf h
  | segmentComplete => exact execSegmentComplete_wf h
  | ecall => exact execEcall_wf h
  | brk => exact execBrk_wf h
  | tret => exact execTret_wf h
  | tlbiComplete => exact execTlbiComplete_wf h
  | barrelCycle => exact execBarrelCycle_wf h
  | resultReturn => exact execResultReturn_wf h
  | storeDrain => exact execStoreDrain_wf h
  | dutyMet => exact execDutyMet_wf h
  | sliceRequest => exact execSliceRequest_wf h
  | pageCheckFill => exact execPageCheckFill_wf h
  | stage1Walk => exact execStage1Walk_wf h
  | fringHeadWrite => exact execFringHeadWrite_wf h
  | resolveReplay => exact execResolveReplay_wf h
  | resolveFail => exact execResolveFail_wf h
  | arrivalDeliver => exact execArrivalDeliver_wf h
  | arrivalQueuePlace => exact execArrivalQueuePlace_wf h
  | timebaseTickDue => exact execTimebaseTickDue_wf h
  | tickUnitSend => exact execTickUnitSend_wf h
  | sliceTickApply => exact execSliceTickApply_wf h
  | tickAck => exact execTickAck_wf h
  | scrubberRefresh => exact execScrubberRefresh_wf h
  | trailEnable => exact execTrailEnable_wf h
  | trailEnableComplete => exact execTrailEnableComplete_wf h
  | trailDisable => exact execTrailDisable_wf h
  | regStore => exact execRegStore_wf h
  | registrationComplete => exact execRegistrationComplete_wf h
  | unregStore => exact execUnregStore_wf h
  | handleRelease => exact execHandleRelease_wf h
  | launchStore => exact execLaunchStore_wf h
  | launchEligible => exact execLaunchEligible_wf h
  | nodeStart => exact execNodeStart_wf h
  | initialThreadDeliver => exact execInitialThreadDeliver_wf h
  | copyNodeComplete => exact execCopyNodeComplete_wf h
  | nodeComplete => exact execNodeComplete_wf h
  | tsigAccept => exact execTsigAccept_wf h
  | launchFinish => exact execLaunchFinish_wf h
  | preempt => exact execPreempt_wf h
  | savedContextRestore => exact execSavedContextRestore_wf h
  | governorEvaluate => exact execGovernorEvaluate_wf h
  | powerSlowCheck => exact execPowerSlowCheck_wf h
  | powerFastWindow => exact execPowerFastWindow_wf h
  | thermalRead => exact execThermalRead_wf h
  | energyChargeApply => exact execEnergyChargeApply_wf h
  | telemetrySample => exact execTelemetrySample_wf h
  | transferRow => exact execTransferRow_wf h
  | transferSlice => exact execTransferSlice_wf h
  | transferChannel => exact execTransferChannel_wf h
  | transferEngine => exact execTransferEngine_wf h
  | transferComplete => exact execTransferComplete_wf h
  | vaultGenerate => exact execVaultGenerate_wf h
  | vaultDestroy => exact execVaultDestroy_wf h
  | keyDestroyComplete => exact execKeyDestroyComplete_wf h
  | counterSelectWrite => exact execCounterSelectWrite_wf h
  | rateLimitAdmit => exact execRateLimitAdmit_wf h
  | fwUpdate => exact execFwUpdate_wf h
  | fwSwitch => exact execFwSwitch_wf h
  | fwReady => exact execFwReady_wf h
  | fwSwitchTimeout => exact execFwSwitchTimeout_wf h
  | attestationReport => exact execAttestationReport_wf h
  | fwCommandComplete => exact execFwCommandComplete_wf h
  | powerOn => exact execPowerOn_wf
  | hostMemoryAccess => exact execHostMemoryAccess_wf h
  | remoteRequest => exact execRemoteRequest_wf h
  | linkFailure => exact execLinkFailure_wf h
  | peerRestore => exact execPeerRestore_wf h
  | hostLinkRetrain => exact execHostLinkRetrain_wf h
  | frameArrive => exact execFrameArrive_wf h
  | trailheadFrameDeliver => exact execTrailheadFrameDeliver_wf h
  | flowEnable => exact execFlowEnable_wf h
  | debugFreeze => exact execDebugFreeze_wf h
  | debugThaw => exact execDebugThaw_wf h
  | debugWindowAccess => exact execDebugWindowAccess_wf h
  | uncorrectableError => exact execUncorrectableError_wf h
  | correctedError => exact execCorrectedError_wf h
  | rowRemap => exact execRowRemap_wf h
  | registerWrite => exact execRegisterWrite_wf h
  | ptpClockStep => exact execPtpClockStep_wf h
  | peerPortLinkChange => exact execPeerPortLinkChange_wf h
  | remoteFaultResolved => exact execRemoteFaultResolved_wf h

/-- What `prepare` hands on is in form. -/
def PreparedWf : Prepared → Prop
  | .run _ s => MemoriesWf s
  | .stop r => NextWf r

theorem prepare_wf {i : Issue} (h : MemoriesWf s) : PreparedWf (prepare i s) := by
  unfold prepare
  extract_lets s₁
  have hs₁ : MemoriesWf s₁ := h
  clear_value s₁
  split
  · exact hs₁
  · split
    · exact hs₁
    · exact hs₁
  all_goals
    split
    · exact hs₁
    · split
      · refine settle_wf (fun _ h => h) (ite_wf hs₁ (setCtx_wf hs₁))
      · split
        rename_i e
        have hs₂ := wf_of_snd e <| by
          split
          · exact hs₁
          · exact fetch_wf hs₁
        split
        · exact settle_wf (fun _ h => h) hs₂
        · extract_lets s₃
          have hs₃ : MemoriesWf s₃ := hs₂
          clear_value s₃
          split
          · exact settle_wf (fun _ h => h) hs₃
          · split
            · split
              · exact settle_wf (fun _ h => h) hs₃
              · exact hs₃
            · exact hs₃

/-- What `nextUp` hands on is in form. -/
def NextUpWf : NextUp → Prop
  | .issue _ s => MemoriesWf s
  | .decide _ s => MemoriesWf s
  | .event _ s => MemoriesWf s
  | .idle s => MemoriesWf s

theorem nextUp_wf (h : MemoriesWf s) : NextUpWf (nextUp s) := by
  unfold nextUp
  split
  · split
    · extract_lets
      split <;> exact h
    · exact h
  · split
    · split <;> exact h
    · split
      · extract_lets
        split <;> exact h
      · split <;> exact h

theorem step_wf (h : MemoriesWf s) : NextWf (step s) := by
  have hn : NextUpWf (nextUp s) := nextUp_wf h
  unfold step
  split
  · rename_i i s₁ e
    rw [e] at hn
    have hp : PreparedWf (prepare i s₁) := prepare_wf hn
    split
    · rename_i e₁
      rw [e₁] at hp
      exact exec_wf _ hp
    · rename_i e₁
      rw [e₁] at hp
      exact hp
  · rename_i e
    rw [e] at hn
    exact decideBeat_wf hn
  · rename_i e
    rw [e] at hn
    exact exec_wf _ hn
  · rename_i e
    rw [e] at hn
    exact hn

end

/-- Settles O52: every function of the model that returns a state keeps the memories in form, so `step` does. -/
theorem memoriesKeepForm : Obligations.MemoriesKeepForm := fun _ _ h e => wf_of_next e (step_wf h)

end Sys2Proof.Machine

/-! What the row sequencer's words do to their segment (O35). -/

namespace Sys2Proof.Machine

section
variable {s : State} {k : Nat} {g : Seg}

/-- A sequencer word with a result writes it to `kd`, unless that is `k0`, and goes on at the next word (R72, R201). -/
theorem kResult_eq (hl : s.cur.lane = .sequencer k) (hg : getSeg s k = some g) (d : KReg) (v : Seg → Word) :
    kResult d v s = .next (setSeg s k { g with pc := g.pc + 4, k := if d = 0 then g.k else amSet g.k d.toNat (v g) }) := by
  rw [kResult, atSequencer_law hl hg, putK_eq]

theorem kBranch_signed {n : Nat} (i : BitVec n) (hn : n ≤ 64) (taken : Bool) (g : Seg) :
    kBranch taken (i.signExtend 64 <<< 2) g =
      if taken then { g with pc := g.pc + BitVec.ofInt 64 (4 * i.toInt), bubbles := 1 } else { g with pc := g.pc + 4 } := by
  rw [kBranch, off_eq i hn]

/-- A sequencer word that branches goes on at its target after a bubble, or at the next word (R199, R201). -/
theorem atSequencer_branch (hl : s.cur.lane = .sequencer k) (hg : getSeg s k = some g) {n : Nat} (i : BitVec n) (hn : n ≤ 64)
    {f : Seg → Seg} {taken : Bool} {g' : Seg} (hf : f g = kBranch taken (i.signExtend 64 <<< 2) g') :
    atSequencer f s = .next (setSeg s k (if taken then { g' with pc := g'.pc + BitVec.ofInt 64 (4 * i.toInt), bubbles := 1 }
      else { g' with pc := g'.pc + 4 })) := by
  rw [atSequencer_law hl hg, hf, kBranch_signed i hn]

theorem fld_low6 (y : Word) : fld 0 6 y = y.toNat % 64 := by simp [fld_eq]

theorem bne_eq_decide (x y : Word) : (x != y) = decide (x ≠ y) := by
  rw [bne, beq_eq_decide, decide_not]

/-- A counter that is stepped down is at zero where it was at one (R202). -/
theorem sub_one_bne_zero (x : Word) : (x - 1 != 0) = decide (x ≠ 1) := by
  rw [bne_eq_decide]
  exact decide_eq_decide.2 (not_congr BitVec.sub_eq_iff_eq_add)

end

/-- Settles O35: a word of the sequencer is one with a result, a branch, or the end. -/
theorem sequencerWords : Obligations.SequencerWords := by
  intro s k g hl hg leaves gives goes
  have results : ∀ d v, kResult d v s = .next _ := kResult_eq hl hg
  refine ⟨fun d a b => ?_, fun i a b => ⟨results a _, ?_, ?_, ?_⟩, fun i => ?_, atSequencer_law hl hg⟩
  · refine ⟨results d _, results d _, results d _, results d _, results d _, ?_, ?_, results d _⟩
    · rw [← fld_low6]; exact results d _
    · rw [← fld_low6]; exact results d _
  · exact atSequencer_branch hl hg i (by decide) rfl
  · exact atSequencer_branch hl hg i (by decide) (congrArg (kBranch · _ g) (bne_eq_decide _ _))
  · exact atSequencer_branch hl hg i (by decide) (by rw [← putK_eq, ← sub_one_bne_zero]; rfl)
  · exact atSequencer_branch hl hg i (by decide) rfl

end Sys2Proof.Machine

/-! The control-register words: what they answer and write, and when they trap (O37, O38). -/

namespace Sys2Proof.Machine

section
variable {s : State} {c : Ctx} {n : BitVec 11} {d : Reg} {j : Instr} {f : CsrWrite}

/-- A form without operand that passes its checks answers the old value; only the read's own effect is left. -/
theorem csr_reads {old : Word} (hu : CanIssue s c { srcs := [], dst := some d }) (hj : exec j s = csr .none n d none s)
    (ho : csrValue s (me s) c n.toNat = some old) (hv : csrVerdict .none n.toNat 0 s c = .go) :
    Does s j c (if n = 0x102 then { s with free := s.free + 16 } else s) (my s) d (filled old)
      (pastWord s.cur (if n = 0x104 then { c with energyh := (getTenant s c.tslot).energy.extractLsb' 32 32 } else c)) :=
  Does.of hj (csr_law (f := .none) (fun _ _ => rfl) hu ho hv)

/-- A form with an operand that passes its checks answers the old value, and writes its own where it counts as a write. -/
theorem csr_writes {old : Word} {a : Reg} (hu : CanIssue s c { srcs := [a], dst := some d }) (hj : exec j s = csr f n d (some a) s)
    (ho : csrValue s (me s) c n.toNat = some old) (hv : csrVerdict f n.toNat (val s c a) s c = .go) :
    Does s j c (if n = 0x102 then { s with free := s.free + 16 } else s) (my s) d (filled old)
      (pastWord s.cur (if f.writes (val s c a)
        then csrPut n.toNat (f.value n.toNat old (val s c a))
          (if n = 0x104 then { c with energyh := (getTenant s c.tslot).energy.extractLsb' 32 32 } else c)
        else if n = 0x104 then { c with energyh := (getTenant s c.tslot).energy.extractLsb' 32 32 } else c)) :=
  Does.of hj (csr_law (fun _ hm => hu.src hm (by simp [Use.regs])) hu ho hv)

/-- A form whose checks trap takes the trap. -/
theorem csr_traps {a : Option Reg} {x : Word} {e : Cause} {v : Word} (hu : CanIssue s c { srcs := a.toList, dst := some d })
    (hh : HasHandler s c) (hj : exec j s = csr f n d a s) (hx : a.elim 0 (src s) = x)
    (hv : csrVerdict f n.toNat x s c = .trap e v) : Traps s j c e v := by
  subst hx
  unfold csr at hj
  refine check_trap hu hh ?_ hj
  cases a <;> exact hv

theorem ofNat_fld_low (n : Nat) (x : Word) : BitVec.ofNat 64 (fld 0 n x) = (x.extractLsb' 0 n).setWidth 64 := by
  apply BitVec.eq_of_toNat_eq
  simp [fld_eq]

/-! ## Numbers that R75 does not list, and registers that may only be read -/

theorem csrVerdict_unlisted (h : csrValue s (me s) c n.toNat = none) (x : Word) :
    csrVerdict f n.toNat x s c = .trap .illop (curWord s) := by
  simp only [csrVerdict, h]

/-- A write to a register without writable bits traps, whatever the register holds. -/
theorem csrVerdict_readOnly {x : Word} (h : csrReserved n.toNat = none) (hw : f.writes x = true) :
    csrVerdict f n.toNat x s c = .trap .illop (curWord s) := by
  unfold csrVerdict
  split
  · rfl
  · simp [hw, csrWritable, h]

end

/-- Settles O37: the four forms by the law of `csr`, the values by their numbers. -/
theorem controlRegisters : Obligations.ControlRegisters := by
  refine ⟨fun s c n d old ho => ?words, fun s id c => ?values⟩
  case words =>
    intro u c' goes
    refine ⟨fun hu hv => csr_reads hu (exec_csrr ..) ho hv, fun a hu => ⟨fun hv => ?_, fun hv => ?_, fun hv => ?_⟩⟩
    · exact csr_writes hu (exec_csrrw ..) ho hv
    · exact csr_writes hu (exec_csrs ..) ho hv
    · exact csr_writes hu (exec_csrc ..) ho hv
  case values =>
    intro v
    simp [v, csrValue, csrDevice, ofNat_fld_low, word]

/-- Settles O38: the verdict on an unlisted number, and on a write to a read-only register, is ILLOP. -/
theorem controlRegisterTraps : Obligations.ControlRegisterTraps := by
  intro s c n d hh
  refine ⟨fun hn => ⟨fun hu => ?_, fun a hu => ?_⟩, fun hr a hu => ?_⟩
  · exact csr_traps (a := none) hu hh (exec_csrr ..) rfl (csrVerdict_unlisted hn _)
  · exact ⟨csr_traps (a := some a) hu hh (exec_csrrw ..) rfl (csrVerdict_unlisted hn _),
      csr_traps (a := some a) hu hh (exec_csrs ..) rfl (csrVerdict_unlisted hn _),
      csr_traps (a := some a) hu hh (exec_csrc ..) rfl (csrVerdict_unlisted hn _)⟩
  · have hx : src s a = val s c a := hu.src (.refl s) (by simp [Use.regs])
    refine ⟨csr_traps (a := some a) hu hh (exec_csrrw ..) hx (csrVerdict_readOnly hr rfl), fun h0 => ⟨?_, ?_⟩⟩
    · exact csr_traps (a := some a) hu hh (exec_csrs ..) hx (csrVerdict_readOnly hr (by simpa [CsrWrite.writes] using h0))
    · exact csr_traps (a := some a) hu hh (exec_csrc ..) hx (csrVerdict_readOnly hr (by simpa [CsrWrite.writes] using h0))

end Sys2Proof.Machine

/-! What reset leaves (O51). -/

namespace Sys2Proof.Machine

theorem allOnes_getLsbD {w i : Nat} (h : i < w) : (allOnes w).getLsbD i = true := by
  simp [allOnes, h]

/-- No slot but 0 has a tenant after reset (R338). -/
theorem getTenant_reset {n : Nat} (h : n ≠ 0) : getTenant State.reset n = {} := by
  rw [getTenant, amGetD, show amGet State.reset.tenants n = none from if_neg h.symm]
  rfl

/-- No key but 0 is in the vault after reset (R347). -/
theorem vault_reset {n : Nat} (h : n ≠ 0) : amGet State.reset.vault n = none :=
  if_neg h.symm

/-- Settles O51: the tables of the reset state are read at each index. -/
theorem resetValues : Obligations.ResetValues :=
  ⟨rfl, rfl, fun _ h => ⟨allOnes_getLsbD h, allOnes_getLsbD h⟩, fun _ h => allOnes_getLsbD h, fun _ h => allOnes_getLsbD h,
    fun _ h => by rw [getTenant_reset h], rfl, fun _ h => vault_reset h, fun _ => rfl, fun _ _ => ⟨rfl, rfl⟩, reset_wf, rfl⟩

end Sys2Proof.Machine

/-! What the events of a context do (O55). -/

namespace Sys2Proof.Machine

/-! ## Held contexts (R117, R122) -/

section
variable {s : State} {id : Nat} {c : Ctx}

/-- An answer that comes back is written to its register, and its context issues again. -/
theorem answerHeld_answer {d : Reg} {v : Word} (hc : getCtx s id = some c) (hs : c.status = .held (.answer d v)) (hd : d ≠ 0) :
    answerHeld s id = setCtx (modCore s (coreOf id) fun k =>
      { k with rf := amSet k.rf (c.base + d.toNat) { val := v, full := true, poison := false } }) id { c with status := .ready } := by
  simp only [answerHeld, hc, hs]
  rw [writeReg_some hc hd, wake, modCtx_some ((getCtx_modCore _ _ _ rfl id).trans hc)]

theorem answerHeld_effects {d : Reg} {v : Word} (hc : getCtx s id = some c) (hs : c.status = .held (.answer d v)) (hd : d ≠ 0) :
    (answerHeld s id).mem = s.mem ∧ getCtx (answerHeld s id) id = some { c with status := .ready } ∧
      (getCore (answerHeld s id) (coreOf id)).rf =
        amSet (getCore s (coreOf id)).rf (c.base + d.toNat) { val := v, full := true, poison := false } := by
  rw [answerHeld_answer hc hs hd]
  refine ⟨rfl, ?_, ?_⟩
  · rw [getCtx_setCtx, if_pos rfl]
  · rw [setCtx_rf, getCore_modCore, if_pos rfl]

end

/-! ## Continuations placed (R68, R69, R179, R180) -/

section
variable {s : State} {c : Cont} {core slot base : Nat}

theorem place_some (hs : freeSlot s c.tslot core = some slot) (hb : freeRun (getCore s core) c.allot = some base) :
    place s core c = some (placeAt s core slot base c) := by
  simp only [place, hs, hb]

theorem gnodeOf_none (t : Nat) : gnodeOf s t none = none := rfl

/-- A continuation of no node brings no ring. -/
theorem installRing_noNode (hn : c.node = none) : installRing s core c = s := by
  simp only [installRing, hn, gnodeOf_none]
  cases (getCore s core).ring <;> rfl

/-- A core without waiting arrivals and without a ring places what is delivered to it, where it fits. -/
theorem deliver_placed (hn : c.node = none) (hs : freeSlot s c.tslot core = some slot)
    (hb : freeRun (getCore s core) c.allot = some base) (hr : (getCore s core).ring = none) (ha : (getCore s core).arrivals = []) :
    deliver s core c = (.status 0, placeAt s core slot base c) := by
  simp [deliver, ha, ringEmpty, hr, place_some hs hb, installRing_noNode hn]

/-- A core without a ring has nothing to refill its queue from. -/
theorem refill_noRing (h : (getCore s core).ring = none) : refill s core = s := by
  simp only [refill, h]

/-- The thread that a `go` moves meets no quota: where the tenant has a grant, its core's port answers as it delivers. -/
theorem arrive_go {f : Flight} {n m : Nat} {u : State} (hg : f.isGo = true) (hf : f.sender = .ctx n)
    (h0 : grantOf s f.cont.tslot f.core ≠ 0) (hd : deliver s f.core f.cont = (.status m, u)) : arrive s f = (.status m, u) := by
  simp [arrive, hg, hf, h0, hd]

/-- A continuation on its way that its core's port takes is answered where it stands. -/
theorem arrivalDeliver_go {f : Flight} {n m : Nat} {u : State} (hf : flightOf s s.arg.id = some f) (ha : f.answer = none)
    (hg : f.isGo = true) (hs : f.sender = .ctx n) (h0 : grantOf s f.cont.tslot f.core ≠ 0)
    (hd : deliver s f.core f.cont = (.status m, u)) :
    exec .arrivalDeliver s =
      .next { u with flights := updWhere (fun x => x.id == f.id) (fun x => { x with answer := some (.status m) }) u.flights } := by
  simp [exec_arrivalDeliver, execArrivalDeliver, hf, ha, firstOfFlow, hs, arrive_go hg hs h0 hd, tellSender]

/-- The head of the queue of a core without a ring is placed where it fits. -/
theorem arrivalQueuePlace_head {rest : List Cont} (hn : s.arg.unit = core) (hx : coreExists s core = true)
    (hd : restoreDue s core = false) (ha : (getCore s core).arrivals = c :: rest) (hs : freeSlot s c.tslot core = some slot)
    (hb : freeRun (getCore s core) c.allot = some base) (hr : (getCore (placeAt s core slot base c) core).ring = none) :
    exec .arrivalQueuePlace s = .next (modCore (placeAt s core slot base c) core fun k => { k with arrivals := rest }) := by
  have hr' : (getCore (modCore (placeAt s core slot base c) core fun k => { k with arrivals := rest }) core).ring = none := by
    rw [getCore_modCore, if_pos rfl]
    exact hr
  simp [exec_arrivalQueuePlace, execArrivalQueuePlace, hn, hx, hd, ha, place_some hs hb, refill_noRing hr']

end

/-! ## The beats of a row stream, and its end (R198, R205) -/

section
variable {s : State} {n : Nat} {g : Seg}

/-- A beat of a running segment that nothing holds. -/
theorem beginBeat_free (hg : getSeg s n = some g) (hp : g.phase = .running) (hw : segWaits s g = false) (hk : g.walk = none)
    (hc : g.cores.any (fun x => coreStopped s x.2.1) = false) (hh : g.hold = 0) {plan : Plan} (hb : planBeat s g = (.ok plan, s)) :
    beginBeat n s = { setSeg s n { g with plan := some plan, probes := [] } with
      issuing :=
        (beatWords s g (shifted g plan.send)).map (laneIssue n true) ++ [{ Issue.none with lane := .decide n }] ++ s.issuing } := by
  simp [beginBeat, hg, hp, hw, hk, hc, hh, hb]
  rfl

/-- A beat that is held counts down. -/
theorem beginBeat_held (hg : getSeg s n = some g) (hp : g.phase = .running) (hw : segWaits s g = false) (hk : g.walk = none)
    (hc : g.cores.any (fun x => coreStopped s x.2.1) = false) (hh : 0 < g.hold) :
    beginBeat n s = setSeg s n { g with hold := g.hold - 1 } := by
  simp [beginBeat, hg, hp, hw, hk, hc, hh]

/-- After a branch the sequencer sends nothing while bubbles are due (R199). -/
theorem planBeat_bubble (hp : g.phase = .running) (hb : 0 < g.bubbles) :
    planBeat s g = (.ok { pc := g.pc, bubbles := g.bubbles - 1, again := g.again }, s) := by
  simp [planBeat, hp, hb]

theorem endSegment_gone (s : State) (n : Nat) (g : Seg) : getSeg (endSegment s n g) n = none := by
  unfold endSegment
  extract_lets s₁ s₂ s₃
  have h : getSeg s₃ n = none := amGet_amErase _ _
  split
  · exact h
  · exact h

/-- The segment with what its release covers, once its last word has been executed (R117). -/
def withUpto (s : State) (g : Seg) : Seg := if segDrained g && g.upto.isNone then { g with upto := some s.nextId } else g

theorem segmentComplete_eq (hg : getSeg s s.arg.unit = some g) :
    exec .segmentComplete s = .next (
      let u := setSeg s s.arg.unit (withUpto s g)
      if segOver u s.arg.unit (withUpto s g) then endSegment u s.arg.unit (withUpto s g) else u) := by
  simp only [exec_segmentComplete, execSegmentComplete, hg]
  rfl

end

/-! ## The turns of a barrel (R171) -/

section
variable {s : State} {n slot : Nat} {c : Ctx}

/-- The core of one context after its turn. -/
def turned (k : Core) (slot : Nat) (c : Ctx) : Core :=
  { k with rot := { order := [slot], turn := 1, issued := [], gone := [] }, ctxs := [(slot, { c with stopped := c.benched })] }

theorem barrelTurn_stopped (h : coreStopped s n = true) : barrelTurn n s = s := if_pos h

theorem barrelTurn_one (hr : coreStopped s n = false) (hc : (getCore s n).ctxs = [(slot, c)])
    (ho : (getCore s n).rot = { order := [slot], turn := 0, issued := [], gone := [] }) :
    barrelTurn n s =
      if c.benched then setCore s n (turned (getCore s n) slot c)
      else lend (setCore s n (turned (getCore s n) slot c)) n (if mayTry (turned (getCore s n) slot c) slot then [slot] else []) := by
  simp [barrelTurn, hr, hc, ho, amGet, amSet, setCore_setCore, turned]
  rfl

/-- A context that may issue is tried at its turn. -/
theorem mayTry_turned {k : Core} (hb : c.benched = false) (hs : c.status = .ready) (ht : c.stream = false) (hv : c.saving = false)
    (hy : c.yields ≠ 2) : mayTry (turned k slot c) slot = true := by
  simp [mayTry, turned, amGet, hb, hs, ht, hv, hy]
  exact hb

theorem lend_turned (hs : slot < 64) :
    lend (setCore s n (turned (getCore s n) slot c)) n [slot] = { setCore s n (turned (getCore s n) slot c) with
      issuing := { lane := .barrel n slot [], probe := false, word := none, pc := c.pc, rep := none } :: s.issuing } := by
  have hc : getCtx (setCore s n (turned (getCore s n) slot c)) (ctxId n slot) = some { c with stopped := c.benched } := by
    rw [getCtx, coreOf_ctxId n slot hs, slotOf_ctxId n slot hs, getCore_setCore_same]
    exact if_pos rfl
  rw [lend, hc]
  rfl

end

/-! ## Benching and its end (R292, R293) -/

section
variable {s : State} {n t i j : Nat} {a b : Ctx}

theorem getCtx_first (hi : i < 64) (hc : (getCore s n).ctxs = [(i, a), (j, b)]) : getCtx s (ctxId n i) = some a := by
  rw [getCtx, coreOf_ctxId n i hi, slotOf_ctxId n i hi, hc]
  exact if_pos rfl

/-- Of two contexts of a core the lower is benched. -/
theorem benchLower_first (hi : i < 64) (hc : (getCore s n).ctxs = [(i, a), (j, b)]) (ha : a.tslot = t) (hn : a.node ≠ none)
    (hs : a.status = .ready) (hb : a.benchPre = false) (hp : ctxPrio s a < ctxPrio s b) :
    benchLower s t n (ctxPrio s b) = setCtx s (ctxId n i) { a with benchPre := true } := by
  have hg := getCtx_first hi hc
  simp [benchLower, hc, ha, Option.isSome_iff_ne_none, hn, hb, hp, withdrawBar_ready hg hs, modCtx_some hg]

theorem getCore_benched (hi : i < 64) (hc : (getCore s n).ctxs = [(i, a), (j, b)]) :
    getCore (setCtx s (ctxId n i) { a with benchPre := true }) n =
      { getCore s n with ctxs := [(i, { a with benchPre := true }), (j, b)] } := by
  simp [setCtx, getCore_modCore, coreOf_ctxId n i hi, slotOf_ctxId n i hi, hc, amSet]

/-- The scratchpad stays where the only contexts that reserve bytes of it are benched (R317). -/
theorem keepScratch_idle (h : ∀ e ∈ (getCore s n).ctxs, 0 < reserved s e.2 → e.2.benchPre = true) : keepScratch s t n = s := by
  unfold keepScratch
  extract_lets k mine
  have hm : ∀ e ∈ mine, e.2.benchPre = true := by
    intro e he
    obtain ⟨hk, hr⟩ := List.mem_filter.1 he
    exact h e hk (of_decide_eq_true (Bool.and_eq_true_iff.1 hr).2)
  split
  · rfl
  · rw [if_pos]
    rw [Bool.or_eq_true_iff, Bool.not_eq_true', List.any_eq_false]
    exact .inr fun e he => by simp [hm e he]

theorem preemptArrival_none (h : (getCore s n).arrivals = []) : preemptArrival s t n = s := by
  simp only [preemptArrival, h]

/-- A higher context benches a lower one of its core, and no more where nothing waits and it reserves no scratchpad. -/
theorem preempt_lower (hi : i < 64) (hc : (getCore s s.arg.unit).ctxs = [(i, a), (j, b)]) (ha : a.tslot = s.arg.slot)
    (hb : b.tslot = s.arg.slot) (hn : a.node ≠ none) (hs : a.status = .ready) (hp : a.benchPre = false) (hl : ctxPrio s a < ctxPrio s b)
    (hw : (getCore s s.arg.unit).arrivals = [])
    (hr : readyHead (getTenant s s.arg.slot) (startCycle (getTenant s s.arg.slot) s.cycle) = none) (hz : reserved s b = 0) :
    exec .preempt s = .next (setCtx s (ctxId s.arg.unit i) { a with benchPre := true }) := by
  have htop : ((getCore s s.arg.unit).ctxs.filter fun e => e.2.tslot == s.arg.slot).foldl (fun m e => max m (ctxPrio s e.2)) 0 =
      ctxPrio s b := by
    simp [hc, ha, hb, Nat.le_of_lt hl]
  simp only [exec_preempt, execPreempt, htop, benchLower_first hi hc ha hn hs hp hl]
  have hk := getCore_benched hi hc
  generalize hu : setCtx s (ctxId s.arg.unit i) { a with benchPre := true } = u at hk ⊢
  have hru : readyHead (getTenant u s.arg.slot) (startCycle (getTenant u s.arg.slot) u.cycle) = none := by subst hu; exact hr
  have hzu : reserved u b = 0 := by subst hu; exact hz
  rw [hru]
  rw [preemptArrival_none (by rw [hk]; exact hw), keepScratch_idle]
  intro e he hpos
  rw [hk] at he
  rcases List.mem_pair.1 he with rfl | rfl
  · rfl
  · exact absurd hzu (Nat.ne_of_gt hpos)

end

section
variable {s : State} {n i : Nat} {c : Ctx}

/-- A core without saved contexts places none back. -/
theorem restoreFirst_none (h : (getCore s n).saved = []) : restoreFirst s n = s := by
  simp only [restoreFirst, h]

theorem giveBack_none (h : (getCore s n).kept = none) : giveBack s n = .ok s := by
  simp only [giveBack, h]

theorem unbench_saved (t : Nat) : (getCore (unbench s t n) n).saved = (getCore s n).saved := by
  rw [unbench, getCore_modCore, if_pos rfl]
  rfl

/-- A benched context over which no higher launch remains issues again. -/
theorem unbench_ctx {t : Nat} (hi : i < 64) (hc : getCtx s (ctxId n i) = some c) (ht : c.tslot = t) (hb : c.benchPre = true)
    (hr : higherRemains s n t c.node = false) :
    getCtx (unbench s t n) (ctxId n i) = some { c with benchPre := false, saving := false } := by
  rw [unbench, getCtx_mapCtxs s n (fun _ _ c => _), if_pos (coreOf_ctxId n i hi), hc]
  simp [ht, hb, hr]

theorem savedContextRestore_idle (hf : s.arg.flag = false) (hs : (getCore s s.arg.unit).saved = [])
    (hk : (getCore s s.arg.unit).kept = none) : exec .savedContextRestore s = .next (unbench s s.arg.slot s.arg.unit) := by
  simp only [exec_savedContextRestore, execSavedContextRestore, hf, giveBack_none hk,
    restoreFirst_none ((unbench_saved s.arg.slot).trans hs), Bool.false_eq_true, if_false]

end

/-- Settles O55: each event by the law of what it does, in the order of the statement. -/
theorem contextEvents : Obligations.ContextEvents := by
  intro s id n t
  refine ⟨fun c l hc hs => ?park, fun c d v hc hs hd => ?answer,
    fun f c slot base hf hn hi hslot hbase hring => ?placed, fun g hg => ?stream, fun h => ?stopped,
    fun c slot hi hx hc hr => ?turn, fun a b i j hi _ _ hc ha hb hn hs hp hl hw hh hz => ?bench,
    fun c i hi hf hs hk hc ht hb hh => ?unbench⟩
  case park =>
    intro u
    have hu : endPark s id = u := endPark_parked hc hs
    exact ⟨congrArg Host.Outcome.next hu, congrArg Host.Outcome.next hu, by rw [← hu]; rfl⟩
  case answer => exact ⟨_, rfl, answerHeld_effects hc hs hd⟩
  case placed =>
    subst hf
    obtain ⟨hmem, hfl, harr, hring', hctx⟩ := placeAt_law s f.core slot base f.cont hi
    refine ⟨fun h1 h2 h3 h4 h5 h6 h7 => ?_, fun rest h1 h2 h3 h4 => ?_⟩
    · have hfind : flightOf s s.arg.id = some f := by simp [flightOf, h1, show f.id = s.arg.id from h2]
      refine ⟨_, arrivalDeliver_go hfind h3 h4 h5 h6 (deliver_placed hn hslot hbase hring h7), hmem, ?_, hctx⟩
      simp [updWhere, hfl, h1]
    · have h1' : s.arg.unit = f.core := h1.symm
      rw [← h1] at h2 h3 h4 ⊢
      refine ⟨_, arrivalQueuePlace_head h1' h2 h3 h4 hslot hbase (hring'.trans hring), hmem, ?_, ?_⟩
      · rw [getCore_modCore, if_pos rfl]
      · rw [getCtx_modCore _ _ _ rfl]
        exact hctx
  case stream =>
    refine ⟨fun hp hw hk hc hh hb => ?_, fun hp hh hw hk hc => congrArg Host.Outcome.next (beginBeat_held hg hp hw hk hc hh), ?_⟩
    · refine ⟨_, congrArg Host.Outcome.next (beginBeat_free hg hp hw hk hc hh (planBeat_bubble hp hb)), rfl, ?_, rfl⟩
      exact (getSeg_setSeg s n n _).trans (if_pos rfl)
    · intro g' v
      have he : exec .segmentComplete s = .next (if segOver v n g' then endSegment v n g' else v) := segmentComplete_eq hg
      refine ⟨fun ho => ⟨endSegment v n g', ?_, endSegment_gone v n g'⟩, fun ho => ?_⟩
      · rw [he, if_pos ho]
      · rw [he, if_neg (by rw [ho]; exact Bool.false_ne_true)]
  case stopped => exact congrArg Host.Outcome.next (barrelTurn_stopped h)
  case turn =>
    intro k
    have ht : barrelTurn n s = _ := barrelTurn_one hx hc hr
    refine ⟨fun hb => congrArg Host.Outcome.next (ht.trans (if_pos hb)), fun hb hs hst hsv hy => congrArg Host.Outcome.next (ht.trans ?_)⟩
    rw [if_neg (by rw [hb]; exact Bool.false_ne_true), if_pos (mayTry_turned hb hs hst hsv hy)]
    exact lend_turned hi
  case bench => exact preempt_lower hi hc ha hb hn hs hp hl hw hh hz
  case unbench => exact ⟨_, savedContextRestore_idle hf hs hk, rfl, unbench_ctx hi hc ht hb hh⟩

end Sys2Proof.Machine

/-! What the integer words write (O1, O2, O3). -/

namespace Sys2Proof.Machine

/-! ## The shapes of integer words (R83, R86, R87) -/

section
variable {s : State} {c : Ctx} {i : Instr} {w : Bool} {d a b : Reg} {v : Word}

theorem Gives.alu2 (hu : CanIssue s c { srcs := [a, b], dst := some d, w := w, ports := true }) {f : Word → Word → Word}
    (h : exec i s = Machine.alu2 f w d a b s) (hv : f (val s c a) (val s c b) = v) : Gives s i c d v 0 :=
  hv ▸ Gives.of h (alu2_law hu f)

theorem Gives.alu1 (hu : CanIssue s c { srcs := [a], dst := some d, w := w, ports := true }) {f : State → Word → Word}
    (h : exec i s = Machine.alu1 f w d a s) (hv : f (markIssued s) (val s c a) = v) : Gives s i c d v 0 :=
  hv ▸ Gives.of h (alu1_law hu f)

theorem Gives.aluImm (hu : CanIssue s c { srcs := [a], dst := some d, ports := true }) {f : Word → Word}
    (h : exec i s = Machine.aluImm f d a s) (hv : f (val s c a) = v) : Gives s i c d v 0 :=
  hv ▸ Gives.of h (aluImm_law hu f)

theorem Gives.aluConst (hu : CanIssue s c { srcs := [], dst := some d }) {f : State → Word} (h : exec i s = Machine.aluConst f d s)
    (hv : f (markIssued s) = v) : Gives s i c d v 0 :=
  hv ▸ Gives.of h (aluConst_law hu f)

end

/-! ## The results as the table states them (R83, R84) -/

section
variable (x y : Word)

theorem ofFlag_decide (p : Prop) [Decidable p] : ofFlag (decide p) = if p then 1 else 0 := by
  by_cases h : p <;> simp [ofFlag, h]

/-- Where neither operand is smaller they are equal, so that it does not matter which one is taken. -/
theorem smaller_eq : smaller x y = if y.toInt < x.toInt then y else x := by
  by_cases h : x.toInt ≤ y.toInt
  · rw [smaller, if_pos h, if_neg (Int.not_lt.2 h)]
  · rw [smaller, if_neg h, if_pos (Int.not_le.1 h)]

theorem smallerU_eq : smallerU x y = if y.toNat < x.toNat then y else x := by
  by_cases h : x.toNat ≤ y.toNat
  · rw [smallerU, if_pos h, if_neg (Nat.not_lt.2 h)]
  · rw [smallerU, if_neg h, if_pos (Nat.not_le.1 h)]

theorem larger_eq : larger x y = if x.toInt < y.toInt then y else x := by
  rcases Int.lt_trichotomy x.toInt y.toInt with h | h | h
  · rw [larger, if_pos (Int.le_of_lt h), if_pos h]
  · simp [larger, BitVec.eq_of_toInt_eq h]
  · rw [larger, if_neg (Int.not_le.2 h), if_neg (Int.not_lt.2 (Int.le_of_lt h))]

theorem largerU_eq : largerU x y = if x.toNat < y.toNat then y else x := by
  rcases Nat.lt_trichotomy x.toNat y.toNat with h | h | h
  · rw [largerU, if_pos (Nat.le_of_lt h), if_pos h]
  · simp [largerU, BitVec.eq_of_toNat_eq h]
  · rw [largerU, if_neg (Nat.not_le.2 h), if_neg (Nat.not_lt.2 (Nat.le_of_lt h))]

theorem mul_eq_ofInt : x * y = BitVec.ofInt 64 (x.toInt * y.toInt) := by
  rw [BitVec.ofInt_mul, BitVec.ofInt_toInt, BitVec.ofInt_toInt]

/-- The upper half of an unsigned product is a natural number. -/
theorem highProduct_natCast (m n : Nat) : highProduct (m * n : Int) = BitVec.ofNat 64 (m * n / 2 ^ 64) := by
  have h : (m * n : Int) / 2 ^ 64 = ((m * n / 2 ^ 64 : Nat) : Int) := by norm_cast
  rw [highProduct, h, BitVec.ofInt_natCast]

theorem allOnes_eq_neg_one : allOnes 64 = (-1 : Word) := BitVec.neg_one_eq_allOnes.symm

theorem divS_eq : divS x y = if y = 0 then -1 else BitVec.ofInt 64 (x.toInt.tdiv y.toInt) := by
  rw [divS, allOnes_eq_neg_one]

theorem divU_eq : divU x y = if y = 0 then -1 else BitVec.ofNat 64 (x.toNat / y.toNat) := by
  rw [divU, allOnes_eq_neg_one, word]

theorem remS_eq : remS x y = if y = 0 then x else BitVec.ofInt 64 (x.toInt - y.toInt * x.toInt.tdiv y.toInt) := by
  rw [remS, Int.tmod_def]

end

/-- Settles O1: each form is `alu2` of its function, which is the table's. -/
theorem integerRegisterForms : Obligations.IntegerRegisterForms := by
  intro s c w d a b hu x y n
  have hn : shiftOf y = n := shiftOf_eq y
  exact ⟨.alu2 hu (exec_add ..) rfl,
    .alu2 hu (exec_sub ..) rfl,
    .alu2 hu (exec_and ..) rfl,
    .alu2 hu (exec_or ..) rfl,
    .alu2 hu (exec_xor ..) rfl,
    .alu2 hu (exec_sll ..) (congrArg (x <<< ·) hn),
    .alu2 hu (exec_srl ..) (congrArg (x >>> ·) hn),
    .alu2 hu (exec_sra ..) (congrArg x.sshiftRight hn),
    .alu2 hu (exec_slt ..) (ofFlag_decide _),
    .alu2 hu (exec_sltu ..) (ofFlag_decide _),
    .alu2 hu (exec_min ..) (smaller_eq x y),
    .alu2 hu (exec_max ..) (larger_eq x y),
    .alu2 hu (exec_minu ..) (smallerU_eq x y),
    .alu2 hu (exec_maxu ..) (largerU_eq x y),
    .alu2 hu (exec_mul ..) (mul_eq_ofInt x y),
    .alu2 hu (exec_mulh ..) rfl,
    .alu2 hu (exec_mulhu ..) (highProduct_natCast x.toNat y.toNat),
    .alu2 hu (exec_mulhsu ..) rfl,
    .alu2 hu (exec_div ..) (divS_eq x y),
    .alu2 hu (exec_divu ..) (divU_eq x y),
    .alu2 hu (exec_rem ..) (remS_eq x y),
    .alu2 hu (exec_remu ..) rfl⟩

/-! ## Counts (R83) -/

/-- How many of the first numbers satisfy `p` before one fails it, said by what they and that one satisfy. -/
theorem takeWhile_range_spec (p : Nat → Bool) {m n : Nat} (hn : ((List.range m).takeWhile p).length = n) :
    n ≤ m ∧ (∀ i < n, p i = true) ∧ (n < m → p n = false) := by
  have hle : (List.range m).findIdx (fun i => !p i) ≤ m := by simpa using List.findIdx_le_length (xs := List.range m)
  have hidx : (List.range m).findIdx (fun i => !p i) = n := by
    rw [← hn, List.takeWhile_eq_take_findIdx_not, List.length_take, List.length_range, Nat.min_eq_left hle]
  refine ⟨hidx ▸ hle, fun i hi => ?_, fun hlt => ?_⟩
  · rw [← hidx] at hi
    simpa using List.not_of_lt_findIdx hi
  · have hlt' : (List.range m).findIdx (fun i => !p i) < (List.range m).length := by rwa [hidx, List.length_range]
    simpa [hidx] using List.findIdx_getElem (w := hlt')

theorem leadingZeros_spec (x : Word) :
    leadingZeros x ≤ 64 ∧ (∀ i < leadingZeros x, x.getLsbD (63 - i) = false) ∧
      (leadingZeros x < 64 → x.getLsbD (63 - leadingZeros x) = true) := by
  obtain ⟨hle, hzero, hone⟩ := takeWhile_range_spec (fun i => !x.getLsbD (63 - i)) (m := 64) (n := leadingZeros x) rfl
  exact ⟨hle, fun i h => by simpa using hzero i h, fun h => by simpa using hone h⟩

theorem trailingZeros_spec (x : Word) :
    trailingZeros x ≤ 64 ∧ (∀ i < trailingZeros x, x.getLsbD i = false) ∧ (trailingZeros x < 64 → x.getLsbD (trailingZeros x) = true) := by
  obtain ⟨hle, hzero, hone⟩ := takeWhile_range_spec (fun i => !x.getLsbD i) (m := 64) (n := trailingZeros x) rfl
  exact ⟨hle, fun i h => by simpa using hzero i h, fun h => by simpa using hone h⟩

theorem ones_eq (x : Word) : ones x = (List.range 64).countP fun i => x.getLsbD i := List.countP_eq_length_filter.symm

/-- The slice is the die's number and bits 11:6 of the address (R85). -/
theorem homeSlice_eq (n : Nat) (x : Word) : homeSlice n x = BitVec.ofNat 64 (n * 64 + x.toNat / 64 % 64) := by
  rw [homeSlice, fld_eq]
  rfl

/-- Settles O2: each form is `alu1` of its function; the counts by what the bits that they count are. -/
theorem integerUnaryForms : Obligations.IntegerUnaryForms := by
  intro s c w d a hu x
  obtain ⟨hclz, hclz0, hclz1⟩ := leadingZeros_spec x
  obtain ⟨hctz, hctz0, hctz1⟩ := trailingZeros_spec x
  refine ⟨.alu1 hu (exec_home ..) ?home, ⟨_, hclz, hclz0, hclz1, .alu1 hu (exec_clz ..) rfl⟩,
    ⟨_, hctz, hctz0, hctz1, .alu1 hu (exec_ctz ..) rfl⟩, .alu1 hu (exec_popc ..) (congrArg (BitVec.ofNat 64) (ones_eq x))⟩
  case home =>
    have hme : me (markIssued s) = me s := (markIssued_marked s).me
    exact (congrArg (fun n => homeSlice (dieOf (coreOf n)) x) hme).trans (homeSlice_eq _ x)

/-! ## Immediates (R54, R86, R87) -/

theorem sextImm_toInt (i : BitVec 11) : (sextImm i).toInt = i.toInt := BitVec.toInt_signExtend_of_le (by decide)

/-- The 18 bits of a U-format immediate above 14 zeros. -/
theorem upperImm_eq (i : BitVec 18) : upperImm i = ((i.setWidth 32 : BitVec 32) <<< 14).signExtend 64 := by
  have h : i ++ 0#14 = (i.setWidth 32 : BitVec 32) <<< 14 := by
    apply BitVec.eq_of_getLsbD_eq
    intro j hj
    rw [BitVec.getLsbD_append, BitVec.getLsbD_shiftLeft]
    by_cases h14 : j < 14
    · simp [h14]
    · simp [h14, hj, show j - 14 < 32 by omega]
  rw [upperImm, h]

/-- Settles O3: the immediate forms are `aluImm`, and the constants `aluConst`, of their functions. -/
theorem integerImmediateForms : Obligations.IntegerImmediateForms := by
  constructor
  · intro s c d a hu x
    constructor
    · intro i y
      have hslti : ofFlag (decide (x.toInt < (sextImm i).toInt)) = if x.toInt < i.toInt then 1 else 0 := by
        rw [ofFlag_decide, sextImm_toInt]
      exact ⟨.aluImm hu (exec_addi ..) rfl, .aluImm hu (exec_andi ..) rfl, .aluImm hu (exec_ori ..) rfl, .aluImm hu (exec_xori ..) rfl,
        .aluImm hu (exec_slti ..) hslti, .aluImm hu (exec_sltiu ..) (ofFlag_decide _)⟩
    · intro n
      exact ⟨.aluImm hu (exec_slli ..) rfl, .aluImm hu (exec_srli ..) rfl, .aluImm hu (exec_srai ..) rfl⟩
  · intro s c d i hu v
    have hadpc : (markIssued s).cur.pc + upperImm i = s.cur.pc + v := by rw [(markIssued_marked s).cur, upperImm_eq]
    exact ⟨.aluConst hu (exec_lui ..) (upperImm_eq i), .aluConst hu (exec_adpc ..) hadpc⟩

end Sys2Proof.Machine

/-! Where branches and jumps go on (O4, O5). -/

namespace Sys2Proof.Machine

section
variable {s : State} {c : Ctx} {j : Instr} {d a b : Reg}

/-- A branch whose condition is decided by `cond`. -/
theorem Leaves.branch {i : BitVec 11} (hu : CanIssue s c { srcs := [a, b] }) {cond : Word → Word → Bool}
    (hj : exec j s = Machine.branch cond i a b s) {p : Prop} [Decidable p] (hp : cond (val s c a) (val s c b) = true ↔ p) :
    Leaves s j c s (my s) (if p then jumpedTo s.cur (s.cur.pc + BitVec.ofInt 64 (4 * i.toInt)) c else pastWord s.cur c) := by
  have h := branch_law hu cond i
  rw [if_congr hp rfl rfl] at h
  exact Does.of hj h

/-- What a jump to `t` does, once it may issue: the target is the same before and after the mark of the issue. -/
theorem jump_law {k : Use} {own : State → Core → Ctx → Verdict} {target : State → Word} {t : Word} (hu : CanIssue s c k)
    (hj : exec j s = settle (check k own s) (fun s => link d (target s) s) s) (hown : own s (my s) c = jumpOk t)
    (ht : target (markIssued s) = t) :
    (t.toNat % 4 = 0 → Does s j c s (my s) d (filled (s.cur.pc + 4)) (jumpedTo s.cur t c)) ∧
    (t.toNat % 4 ≠ 0 → HasHandler s c → Traps s j c .misalign t) := by
  refine ⟨fun h0 => Does.of hj (settle_does hu (hown.trans (jumpOk_go h0)) ?_),
    fun h0 hh => check_trap hu hh (hown.trans (jumpOk_trap h0)) hj⟩
  rw [ht]
  exact (Did.start (markIssued_marked s) hu.ctx).link rfl rfl d t

end

/-- Settles O4: the six branches are one, over their conditions. -/
theorem branches : Obligations.Branches := by
  intro s c a b i hu x y goes
  exact ⟨.branch hu (exec_beq ..) beq_iff_eq, .branch hu (exec_bne ..) bne_iff_ne, .branch hu (exec_blt ..) decide_eq_true_iff,
    .branch hu (exec_bge ..) decide_eq_true_iff, .branch hu (exec_bltu ..) decide_eq_true_iff, .branch hu (exec_bgeu ..) decide_eq_true_iff⟩

/-- Settles O5: the target of each jump, which does not depend on the mark of its issue. -/
theorem jumps : Obligations.Jumps := by
  intro s c d
  constructor
  · intro i hu t
    have ht : ∀ m, Marked s m → m.cur.pc + off18 i = t := fun m hm => by rw [hm.cur, off18, off_eq i (by decide)]
    exact jump_law hu (exec_jal ..) (congrArg jumpOk (ht s (.refl s))) (ht _ (markIssued_marked s))
  · intro i a hu t
    have ht : ∀ m, Marked s m → src m a + sextImm i = t := fun m hm => by rw [hu.src hm (by simp [Use.regs]), sextImm]
    exact jump_law hu (exec_jalr ..) (congrArg jumpOk (ht s (.refl s))) (ht _ (markIssued_marked s))

end Sys2Proof.Machine

/-! What global loads and stores do (O7, O9). -/

namespace Sys2Proof.Machine

/-! ## Loads (R91, R92) -/

section
variable {s : State} {c : Ctx} {j : Instr} {d a : Reg} {p : Page}

/-- What `ld` and `ld.by` do: they differ in whether the L1 is asked, and in whether its line is filled. -/
theorem load_does {i : BitVec 8} {z : BitVec 3} {l1 fill : Bool} (hu : CanIssue s c { srcs := [a], dst := some d, mem := true })
    (hr : Reaches s c (memAddr s (val s c a) i (widthBytes z.toNat)) (widthBytes z.toNat) true false p)
    (hj : exec j s = load l1 i z d a s) (hfill : (l1 && (p.home = .cached || p.home = .slice) && p.trail.isNone) = fill) :
    let n := widthBytes z.toNat
    let va := memAddr s (val s c a) i n
    (∀ v, loadSource (my s) c p va n l1 = .value v → pendingAccess s (me s) = false →
      Does s j c s (my s) d (filled (extend z.toNat v)) (pastWord s.cur c)) ∧
    (loadSource (my s) c p va n l1 = .request →
      Does s j c (sent s (request s c (.load z.toNat fill) va n p d [])) (my s) d (emptied s c d) (pastWord s.cur c)) ∧
    (loadSource (my s) c p va n l1 = .wait → Parks s j .cover) := by
  intro n va
  have hva : ∀ m, Marked s m → memAddr m (src m a) i n = va := fun m hm => by rw [hu.src hm (by simp [Use.regs]), memAddr_cur hm.cur]
  have hown : loadVerdict s (memAddr s (src s a) i n) z.toNat l1 (my s) c = loadVerdict s va z.toNat l1 (my s) c := by rw [hva s (.refl s)]
  obtain ⟨hvalue, hrequest, hwait⟩ :=
    load_law (d := d) (acq := false) (own := fun s k c => loadVerdict s (memAddr s (src s a) i n) z.toNat l1 k c) hu hr hown
      (fun m => memAddr m (src m a) i n) (hva _ (markIssued_marked s))
  rw [hfill] at hrequest
  exact ⟨fun v hv hp => Does.of hj (hvalue v hv hp), fun hv => Does.of hj (hrequest hv), fun hv => hj.trans (hwait hv)⟩

end

/-- What the width codes make of the loaded bytes (R92). -/
theorem extend_table (v : Word) :
    extend 0 v = (v.setWidth 8).signExtend 64 ∧ extend 1 v = (v.setWidth 16).signExtend 64 ∧ extend 2 v = (v.setWidth 32).signExtend 64 ∧
    extend 3 v = v ∧ (extend 4 v).toNat = v.toNat % 2 ^ 8 ∧ (extend 5 v).toNat = v.toNat % 2 ^ 16 ∧ (extend 6 v).toNat = v.toNat % 2 ^ 32 := by
  have hlow : ∀ n, n ≤ 64 → v.extractLsb' 0 n = v.setWidth n := fun _ hn => (BitVec.setWidth_eq_extractLsb' hn).symm
  have hzero : ∀ n, n ≤ 64 → ((v.extractLsb' 0 n).setWidth 64).toNat = v.toNat % 2 ^ n := fun n hn => by
    rw [BitVec.toNat_setWidth_of_le hn, hlow n hn, BitVec.toNat_setWidth]
  have hsign : ∀ n, n ≤ 64 → (v.extractLsb' 0 n).signExtend 64 = (v.setWidth n).signExtend 64 := fun n hn => congrArg _ (hlow n hn)
  exact ⟨hsign 8 (by decide), hsign 16 (by decide), hsign 32 (by decide), rfl, hzero 8 (by decide), hzero 16 (by decide), hzero 32 (by decide)⟩

/-- The line of a load is filled where the L1 may hold the page: one of a `cached` or `slice` home, and of no trail field (R91). -/
theorem fills_iff (p : Page) :
    (true && (p.home = .cached || p.home = .slice) && p.trail.isNone) = true ↔ (p.home = .cached ∨ p.home = .slice) ∧ p.trail = none := by
  simp

/-- Settles O7: `ld` and `ld.by` by what a load does, the former with or without a line filled. -/
theorem globalLoads : Obligations.GlobalLoads := by
  refine ⟨?_, extend_table⟩
  intro s c i z d a p hu n va fills goes hr
  exact ⟨fun hf => load_does hu hr (exec_ld ..) ((fills_iff p).2 hf),
    fun hf => load_does hu hr (exec_ld ..) (Bool.eq_false_iff.2 fun h => hf ((fills_iff p).1 h)), load_does hu hr (exec_ldBy ..) rfl⟩

/-! ## Stores (R88, R95) -/

section
variable {s : State} {c : Ctx} {j : Instr} {a b : Reg} {p : Page}

theorem store_does {i : BitVec 8} {n : Nat} {rel : Option (BitVec 2)} (hu : CanIssue s c { srcs := [a, b], mem := true, store := true })
    (hj : exec j s = store n rel i a b s) (hr : Reaches s c (memAddr s (val s c a) i n) n false true p) :
    (bufferUsed (my s) < 32 →
      Leaves s j c { s with nextId := s.nextId + 1 } (stored s c (memAddr s (val s c a) i n) n (val s c b) p rel) (pastWord s.cur c)) ∧
    (32 ≤ bufferUsed (my s) → Parks s j .buffer) := by
  obtain ⟨hroom, hfull⟩ := store_law hu hr
  exact ⟨fun h => Does.of hj (hroom h), fun h => hj.trans (hfull h)⟩

end

/-! ## Forwarding from the youngest store (R91) -/

/-- A byte that the youngest store of a buffer covers is that store's, whatever the older ones hold. -/
theorem bufferedByte_youngest {e : SbEntry} {v : Word} (he : e.op = .store v) (b : List SbEntry) {i : Nat} (hi : i < e.size) :
    bufferedByte (b ++ [e]) (e.loc.add i) = some (BitVec.ofNat 8 (v.toNat / 256 ^ i)) := by
  have hmeets : e.loc.meets e.size (e.loc.add i) 1 = true := by
    have h := meets_add e.loc 0 i e.size 1
    rw [Loc.add_zero] at h
    rw [h, Bool.and_eq_true, decide_eq_true_iff, decide_eq_true_iff]
    omega
  have hfind : (List.range e.size).find? (fun k => (e.loc.add k).meets 1 (e.loc.add i) 1) = some i :=
    find_range_eq i e.size _ hi fun k => by
      rw [meets_add, ← Bool.decide_and]
      exact decide_eq_decide.2 (by omega)
  simp only [bufferedByte, List.foldl_append, List.foldl_cons, List.foldl_nil, he, hmeets, if_true, hfind]

theorem bufferedBytes_youngest {e : SbEntry} {v : Word} (he : e.op = .store v) (b : List SbEntry) :
    bufferedBytes (b ++ [e]) e.loc e.size = (List.range e.size).map fun i => some (BitVec.ofNat 8 (v.toNat / 256 ^ i)) :=
  List.map_congr_left fun _ hi => bufferedByte_youngest he b (List.mem_range.1 hi)

/-- A load of the bytes that the youngest store covers has the store's value, cut to its size. -/
theorem loadSource_youngest {k : Core} {c : Ctx} {p : Page} {va v : Word} {e : SbEntry} (hc : c.cover = none) (he : e.op = .store v)
    (hloc : e.loc = p.loc va) (l1 : Bool) :
    loadSource { k with sbuf := k.sbuf ++ [e] } c p va e.size l1 = .value (BitVec.ofNat 64 (v.toNat % 256 ^ e.size)) := by
  have hb := bufferedBytes_youngest he k.sbuf
  rw [hloc] at hb
  simp [loadSource, hc, hb, Function.comp_def, leNat_map, word]

/-- Settles O9: `st` and `st.rel` by what a store does, and the load that finds the youngest store. -/
theorem globalStores : Obligations.GlobalStores := by
  constructor
  · intro s c i a b p hu goes
    constructor
    · intro z
      have hj : exec (.st i z a b) s = store (2 ^ z.toNat) none i a b s := by rw [exec_st, execSt, widthBytes_pow]
      exact store_does hu hj
    · intro h z
      have hz : widthBytes (acqWidth z) = if z then 8 else 4 := by cases z <;> rfl
      have hj : exec (.stRel h i z a b) s = store (if z then 8 else 4) (some h) i a b s := by rw [exec_stRel, execStRel, hz]
      exact store_does hu hj
  · intro k c p va v z l1 e hc he hsize hloc
    exact hsize ▸ loadSource_youngest hc he hloc l1

end Sys2Proof.Machine

/-! What scratchpad loads and stores do, and where loads and stores trap (O10, O11, O12). -/

namespace Sys2Proof.Machine

/-! ## The scratchpad (R97, R98, R313) -/

/-- Settles O10, over a sound and over a poisoned granule. -/
theorem scratchpadLoads : Obligations.ScratchpadLoads := by
  intro s c i z d a hu n va halign hbelow
  obtain ⟨hsound, hpoison⟩ := lds_law (va := va) rfl rfl hu halign hbelow
  exact ⟨fun h => Does.of (exec_lds ..) (hsound h), fun h => Does.of (exec_lds ..) (hpoison h)⟩

/-- A byte of a scratchpad after a store: the value's within the store's bytes, and as before outside them. -/
theorem memGet_spStore {k : Core} (hw : k.sp.wf = true) (a n v x : Nat) :
    memGet (spStore k a (leBytes n v)).sp x = if a ≤ x ∧ x < a + n then BitVec.ofNat 8 (v / 256 ^ (x - a)) else memGet k.sp x := by
  have hsp : (spStore k a (leBytes n v)).sp = memPut k.sp a (leBytes n v) := rfl
  rw [hsp, memGet_memPut hw, leBytes_length]
  by_cases hx : a ≤ x ∧ x < a + n
  · obtain ⟨hlo, hhi⟩ := hx
    rw [if_pos ⟨hlo, hhi⟩, if_pos ⟨hlo, hhi⟩, leBytes_getD n v _ (by omega)]
  · rw [if_neg hx, if_neg hx]

/-- Settles O11: the core that the store leaves is that of `spStore`. -/
theorem scratchpadStores : Obligations.ScratchpadStores := by
  intro s c i z a b hu n va halign hbelow hlent hpoison hw
  have hn : n = widthBytes z.toNat := (widthBytes_pow z).symm
  exact ⟨spStore (my s) va.toNat (leBytes n (val s c b).toNat), Does.of (exec_sts ..) (sts_law hn rfl hu halign hbelow hlent hpoison),
    spStore_eq .., memGet_spStore hw va.toNat n (val s c b).toNat⟩

/-! ## Traps (R89, R97, R98) -/

section
variable {s : State} {c : Ctx} {va : Word} {n : Nat}

theorem loadVerdict_error {z : Nat} {l1 : Bool} {v : Verdict} (h : globalCheck (my s) c va (widthBytes z) true false = .error v) :
    loadVerdict s va z l1 (my s) c = v := by
  simp only [loadVerdict, h]

theorem storeVerdict_error {v : Verdict} (h : globalCheck (my s) c va n false true = .error v) : storeVerdict va n (my s) c = v := by
  simp only [storeVerdict, h]

theorem spWriteCheck_trap {k : Core} {x : Cause} {v : Word} (h : spCheck k va n true = .trap x v) : spWriteCheck k va n = .trap x v := by
  simp only [spWriteCheck, h]

/-- A write of fewer bytes than a granule has traps over a poisoned one. -/
theorem spWriteCheck_poison {k : Core} (halign : va.toNat % n = 0) (hbelow : va.toNat + n ≤ windowBase k)
    (hlent : isLent k va.toNat n = false) (hn : n < 4) (hp : spPoisoned k va.toNat n = true) : spWriteCheck k va n = .trap .poison va := by
  simp only [spWriteCheck, spCheck_go halign hbelow fun _ => hlent, hn, hp, decide_true, Bool.and_self, if_true]

end

/-- Settles O12: each check of a load or store passes on the traps of `globalCheck` or of `spCheck`, and the addresses are those of the
statement. -/
theorem accessTraps : Obligations.AccessTraps := by
  intro s c hh global scratch
  have hglobal : ∀ {k own eff n wr va j}, CanIssue s c k → exec j s = settle (check k own s) eff s →
      (∀ v, globalCheck (my s) c va n (!wr) wr = .error v → own s (my s) c = v) → global n wr va j := by
    intro k own eff n wr va j hu hj hown
    obtain ⟨hmisalign, hcanon, hpage⟩ := global_traps hu hh hj hown
    exact ⟨hmisalign, hcanon, fun p h h' hp hx => hpage p h h' hp (by cases wr <;> simpa using hx)⟩
  have hscratch : ∀ {k own eff n wr va j}, CanIssue s c k → exec j s = settle (check k own s) eff s →
      (∀ x v, spCheck (my s) va n wr = .trap x v → own s (my s) c = .trap x v) →
      (wr = true → spWriteCheck (my s) va n = .trap .poison va → own s (my s) c = .trap .poison va) → scratch n wr va j := by
    intro k own eff n wr va j hu hj hown hwrite
    obtain ⟨hmisalign, hbeyond, hlent⟩ := scratch_traps hu hh hj hown
    exact ⟨hmisalign, hbeyond, hlent, fun h h' hw hl hn hp => check_trap hu hh (hwrite hw (spWriteCheck_poison h h' hl hn hp)) hj⟩
  refine ⟨fun i z d a hu => ?loads, fun i z a b hu => ?store, fun i z a b hu => ?spStore⟩
  case loads =>
    have ha : src s a = val s c a := hu.src (.refl s) (by simp [Use.regs])
    obtain ⟨_, hlds⟩ := execLds_settle i z d a s
    refine ⟨hglobal hu (exec_ld ..) fun v h => ?_, hglobal hu (exec_ldBy ..) fun v h => ?_,
      hscratch hu ((exec_lds ..).trans hlds) (fun x v h => ?_) nofun⟩
    · simp only [ha]; exact loadVerdict_error h
    · simp only [ha]; exact loadVerdict_error h
    · simp only [ha]; exact h
  case store =>
    have ha : src s a = val s c a := hu.src (.refl s) (by simp [Use.regs])
    refine hglobal hu (exec_st ..) fun v h => ?_
    simp only [ha, widthBytes_pow]
    exact storeVerdict_error h
  case spStore =>
    have ha : src s a = val s c a := hu.src (.refl s) (by simp [Use.regs])
    obtain ⟨_, hsts⟩ := execSts_settle i z a b s
    refine hscratch hu ((exec_sts ..).trans hsts) (fun x v h => ?_) fun _ h => ?_
    · simp only [ha, widthBytes_pow]; exact spWriteCheck_trap h
    · simp only [ha, widthBytes_pow]; exact h

end Sys2Proof.Machine

/-! What stands in memory after each integer atomic, and what the scratchpad atomics do (O14, O15). -/

namespace Sys2Proof.Machine

/-! ## The functions (R112) -/

/-- An operand-sized number that is a doubleword's is that doubleword. -/
theorem toInt_ofNat_toNat (x : Word) : (BitVec.ofNat 64 x.toNat).toInt = x.toInt := by rw [BitVec.ofNat_toNat, BitVec.setWidth_eq]

theorem amoNew_min (old b c : Word) : amoNew 5 old b c = (if b.toInt < old.toInt then b else old).toNat := rfl
theorem amoNew_max (old b c : Word) : amoNew 6 old b c = (if old.toInt < b.toInt then b else old).toNat := rfl

/-- The minimum of R112 is one of its operands, and the signed minimum. -/
theorem amoNew_min_signed (old b c : Word) :
    (amoNew 5 old b c = old.toNat ∨ amoNew 5 old b c = b.toNat) ∧ (BitVec.ofNat 64 (amoNew 5 old b c)).toInt = min old.toInt b.toInt := by
  rw [amoNew_min, toInt_ofNat_toNat]
  by_cases h : b.toInt < old.toInt
  · rw [if_pos h]; exact ⟨.inr rfl, (min_eq_right h.le).symm⟩
  · rw [if_neg h]; exact ⟨.inl rfl, (min_eq_left (not_lt.1 h)).symm⟩

/-- The maximum of R112 is one of its operands, and the signed maximum. -/
theorem amoNew_max_signed (old b c : Word) :
    (amoNew 6 old b c = old.toNat ∨ amoNew 6 old b c = b.toNat) ∧ (BitVec.ofNat 64 (amoNew 6 old b c)).toInt = max old.toInt b.toInt := by
  rw [amoNew_max, toInt_ofNat_toNat]
  by_cases h : old.toInt < b.toInt
  · rw [if_pos h]; exact ⟨.inr rfl, (max_eq_right h.le).symm⟩
  · rw [if_neg h]; exact ⟨.inl rfl, (max_eq_left (not_lt.1 h)).symm⟩

theorem amoNew_cas (old b c : Word) : amoNew 7 old b c = if old = c then b.toNat else old.toNat := apply_ite BitVec.toNat ..

/-- Only a `cas` that fails writes nothing (R112). -/
theorem amoWrites_cas (old c : Word) : amoWrites 7 old c = true ↔ old = c := by simp [amoWrites]
theorem amoWrites_other {f : AmoFn} (h : f ≠ 7) (old c : Word) : amoWrites f old c = true := by simp [amoWrites, h]

/-- Settles O14: `min`, `max` and `cas` by their conditions, the others by the operation that they name. -/
theorem atomicFunctions : Obligations.AtomicFunctions := by
  intro old b c
  obtain ⟨hmin, hminInt⟩ := amoNew_min_signed old b c
  obtain ⟨hmax, hmaxInt⟩ := amoNew_max_signed old b c
  exact ⟨BitVec.toNat_add .., rfl, rfl, rfl, rfl, hmin, hminInt, hmax, hmaxInt, amoNew_cas .., rfl, rfl, amoWrites_cas ..,
    fun _ hf => amoWrites_other hf ..⟩

/-! ## The scratchpad (R114, R313) -/

/-- Each scratchpad atomic is `amos` of its function. -/
theorem exec_scratchAtomic (w : Bool) (d a b : Reg) (s : State) : ∀ x ∈ scratchAtomics, exec (x.2 w d a b) s = amos x.1 w d a b s := by
  simp only [scratchAtomics, List.forall_mem_cons, List.not_mem_nil, false_implies, implies_true, and_true]
  exact ⟨exec_amosAdd .., exec_amosAnd .., exec_amosOr .., exec_amosXor .., exec_amosSwap .., exec_amosMin .., exec_amosMax .., exec_amosCas ..,
    exec_amosMinu .., exec_amosMaxu .., exec_amosFaddD .., exec_amosFaddW .., exec_amosFaddH .., exec_amosBfadd ..⟩

/-- Settles O15: each of the 14 is `amos` of its function, whose law holds for all of them. -/
theorem scratchpadAtomics : Obligations.ScratchpadAtomics := by
  intro x hx s c w d a b hu va n old bad haligned hbelow hown
  obtain ⟨t, r, ht, hdid, hid, hctx, hop, hrd, hdone, hpoison, hvalue⟩ := amos_law rfl rfl hu haligned hbelow hown
  exact ⟨r, hid, hctx, hop, hrd, hdone, hpoison, hvalue, Does.of (exec_scratchAtomic w d a b s x hx) ⟨t, ht, hdid⟩⟩

end Sys2Proof.Machine

/-! What a fence does, what it holds, and when it is over (O16). -/

namespace Sys2Proof.Machine

/-! ## A fence issues, and holds (R105, R115) -/

theorem fence_leaves {s : State} {c : Ctx} {scope : BitVec 2} {j : Instr} (hu : CanIssue s c { srcs := [] }) (hj : exec j s = fence scope s) :
    Leaves s j c { s with nextId := s.nextId + 1 } (my s) (pastWord s.cur (bound c (.fence scope s.nextId s.cur.pc))) :=
  Does.of hj (fence_law hu)

theorem memoryWord_parks {s : State} {c : Ctx} {scope : BitVec 2} {upto : Nat} {pc : Word} (hd : .fence scope upto pc ∈ c.duties)
    {x : Use × Instr} (hx : Settles s x.1 x.2) (hc : Comes s c x.1) : Parks s x.2 .duty := by
  obtain ⟨hmem, own, eff, hset⟩ := hx
  exact hset.trans (held_word hc hmem hd own eff)

/-! ## The condition of a fence (R115, R143) -/

/-- A request that a fence does not wait for the value of: a store, or a deposit that its slice has performed (R143). -/
def Valued (r : Req) : Prop := (∃ v, r.op = .store v) ∨ (r.done = true ∧ ∃ m f v, r.op = .dep m f v)

theorem owesBefore_eq_false (s : State) (id upto : Nat) :
    owesBefore s id upto = false ↔ ∀ r ∈ s.reqs, r.ctx = id → r.id < upto → Valued r := by
  rw [owesBefore, List.any_eq_false]
  refine forall₂_congr fun r _ => ?_
  unfold Valued
  cases r.op <;> simp [isDeposit]

/-- A store of the core that has left its buffer, older than `upto`. -/
def StoreOut (s : State) (core upto : Nat) (r : Req) : Prop := r ∈ s.reqs ∧ coreOf r.ctx = core ∧ r.id < upto ∧ ∃ v, r.op = .store v

theorem storesOut_eq_false (s : State) (core upto : Nat) (scope : BitVec 2) :
    storesOut s core upto scope = false ↔ ∀ r, StoreOut s core upto r → scope ≠ 3 ∧ leavesPackage s r.loc = true := by
  rw [storesOut, List.any_eq_false]
  refine forall_congr' fun r => ?_
  unfold StoreOut
  cases r.op <;> simp

theorem drained_iff (s : State) (core upto : Nat) :
    ((getCore s core).sbuf.any fun e => decide (e.id < upto)) = false ↔ ∀ e ∈ (getCore s core).sbuf, upto ≤ e.id := by
  simp [List.any_eq_false]

/-- `fence.core` waits for values alone. -/
theorem fenceMet_core (s : State) (id upto : Nat) : fenceMet s id 0 upto = true ↔ owesBefore s id upto = false := by
  simp [fenceMet]

/-- The wider fences wait for the core's buffer too, and those beyond the die for the stores that have left it. -/
theorem fenceMet_wider (s : State) (id upto : Nat) {scope : BitVec 2} (h : scope ≠ 0) :
    fenceMet s id scope upto = true ↔ owesBefore s id upto = false ∧
      ((getCore s (coreOf id)).sbuf.any fun e => decide (e.id < upto)) = false ∧ (scope = 1 ∨ storesOut s (coreOf id) upto scope = false) := by
  simp only [fenceMet, storesBefore, beq_eq_false_iff_ne.2 h, Bool.false_or, Bool.and_eq_true, Bool.not_eq_true', Bool.or_eq_false_iff,
    Bool.and_eq_false_iff, bne_eq_false_iff_eq]

/-! ## The event that ends a fence -/

section
variable {s : State} {c : Ctx} {scope : BitVec 2} {upto : Nat} {pc : Word}

/-- A ready context owes nothing and ends nothing, so DUTY_MET does for it what its duties do. -/
theorem dutyMet_ready {t : State} (ht : meetDuties s s.arg.id = t) (hc : getCtx t s.arg.id = some c) (hr : c.status = .ready) :
    exec .dutyMet s = .next t := by
  rw [exec_dutyMet, execDutyMet, ht, tryOwed_ready hc hr, tryEnd_ready hc hr]

theorem dutyMet_waits (hc : getCtx s s.arg.id = some c) (hr : c.status = .ready) (hd : c.duties = [.fence scope upto pc])
    (hw : fenceMet s s.arg.id scope upto = false) : exec .dutyMet s = .next s := by
  refine dutyMet_ready ?_ hc hr
  simp [meetDuties, hc, hd, dutyMet, hw]

/-- A fence that is over, with no store of the package dropped, reports nothing; `fence.dom` keeps the number that it took. -/
theorem fenceRecord_quiet {id : Nat} (hc : getCtx s id = some c) (hdrop : scope = 3 → s.dropped = []) :
    fenceRecord s id (.fence scope upto pc) = if scope = 3 then setCtx s id { c with domSeen := upto } else s := by
  by_cases h : scope = 3
  · subst h
    simp [fenceRecord, hc, hdrop rfl]
  · rw [if_neg h]
    unfold fenceRecord
    split
    · rename_i heq
      injection heq with h3
      exact absurd h3 h
    · rfl

theorem dutyMet_over (hc : getCtx s s.arg.id = some c) (hr : c.status = .ready) (hd : c.duties = [.fence scope upto pc])
    (hm : fenceMet s s.arg.id scope upto = true) (hdrop : scope = 3 → s.dropped = []) :
    ∃ t, exec .dutyMet s = .next t ∧ OnlyContexts s t ∧ (∀ j, (getCore t j).rf = (getCore s j).rf) ∧
      getCtx t s.arg.id = some { c with duties := [], domSeen := if scope = 3 then upto else c.domSeen } := by
  let lifted := setCtx s s.arg.id { c with duties := [] }
  have hlifted : getCtx lifted s.arg.id = some { c with duties := [] } := by rw [getCtx_setCtx, if_pos rfl]
  obtain ⟨u, hu, honly, hrf, hctx⟩ : ∃ u, fenceRecord lifted s.arg.id (.fence scope upto pc) = u ∧ OnlyContexts s u ∧
      (∀ j, (getCore u j).rf = (getCore s j).rf) ∧
      getCtx u s.arg.id = some { c with duties := [], domSeen := if scope = 3 then upto else c.domSeen } := by
    refine ⟨_, fenceRecord_quiet hlifted hdrop, ?_⟩
    split
    · exact ⟨(setCtx_only ..).trans (setCtx_only ..), fun j => (setCtx_rf ..).trans (setCtx_rf ..), by rw [getCtx_setCtx, if_pos rfl]⟩
    · exact ⟨setCtx_only .., fun j => setCtx_rf .., hlifted⟩
  have hmeet : meetDuties s s.arg.id = rewake u (coreOf s.arg.id) := by
    rw [← hu]
    simp [meetDuties, hc, hd, dutyMet, hm, lifted]
  have hready := rewake_ready (n := coreOf s.arg.id) hctx hr
  exact ⟨_, dutyMet_ready hmeet hready hr, honly.trans (rewake_only ..), fun j => (rewake_rf ..).trans (hrf j), hready⟩

end

/-- Settles O16: the fence as it issues, the words that it holds, what it waits for, and the event that ends it. -/
theorem fences : Obligations.Fences := by
  refine ⟨?issues, ?holds, ?condition, ?ends⟩
  case issues =>
    intro s c hu goes
    exact ⟨fence_leaves hu (exec_fenceCore s), fence_leaves hu (exec_fenceDie s), fence_leaves hu (exec_fencePkg s),
      fence_leaves hu (exec_fenceDom s)⟩
  case holds =>
    intro s c scope upto pc hd w k d a b i z y n x hx hc
    exact memoryWord_parks hd (memoryWords_settle s w k d a b i z y n x hx) hc
  case condition =>
    intro s id upto valued drained out
    have hvalued : owesBefore s id upto = false ↔ valued := owesBefore_eq_false s id upto
    have hdrained := drained_iff s (coreOf id) upto
    have hpkg : storesOut s (coreOf id) upto 2 = false ↔ ∀ r, out r → leavesPackage s r.loc = true := by
      rw [storesOut_eq_false]; simp [StoreOut, out]
    have hdom : storesOut s (coreOf id) upto 3 = false ↔ ∀ r, ¬ out r := by
      rw [storesOut_eq_false]; simp [StoreOut, out]
    refine ⟨?_, ?_, ?_, ?_⟩
    · rw [fenceMet_core, hvalued]
    · rw [fenceMet_wider s id upto (by decide), hvalued, hdrained]; simp [drained]
    · rw [fenceMet_wider s id upto (by decide), hvalued, hdrained, hpkg]; simp [drained]
    · rw [fenceMet_wider s id upto (by decide), hvalued, hdrained, hdom]; simp [drained]
  case ends =>
    intro s c scope upto pc hc hr hd
    exact ⟨dutyMet_waits hc hr hd, dutyMet_over hc hr hd⟩

end Sys2Proof.Machine

/-! What thread, group and waiting words do (O25, O27 to O32). -/

namespace Sys2Proof.Machine

section
variable {s t : State} {c : Ctx} {w : Bool} {d a b : Reg}

/-! ## Operands (R10, R123, R128) -/

theorem fld_low (n : Nat) (x : Word) : fld 0 n x = x.toNat % 2 ^ n := by rw [fld_eq, Nat.pow_zero, Nat.div_one]

theorem handleOf_eq (x : Word) : handleOf x = x.toNat % 2 ^ 12 := fld_low 12 x

theorem bit_top (x : Word) : bit 63 x = decide (2 ^ 63 ≤ x.toNat) := by
  have hx := x.isLt
  rw [bit, BitVec.getLsbD, Nat.testBit_eq_decide_div_mod_eq]
  exact decide_eq_decide.2 (by omega)

/-- A handle that may come with the attach bit has bits 62:12 zero. -/
theorem groupVerdict_attach (x : Word) : groupVerdict x true = if x.toNat / 2 ^ 12 % 2 ^ 51 = 0 then .go else .trap .prot x := by
  have hbits : (fld 12 51 x != 0 || (!true && bit 63 x)) = true ↔ ¬ x.toNat / 2 ^ 12 % 2 ^ 51 = 0 := by simp [fld_eq]
  rw [groupVerdict, if_congr hbits rfl rfl, ite_not]

/-- Any other handle has bits 63:12 zero. -/
theorem groupVerdict_member (x : Word) : groupVerdict x false = if x.toNat / 2 ^ 12 = 0 then .go else .trap .prot x := by
  have hx := x.isLt
  have hbits : (fld 12 51 x != 0 || (!false && bit 63 x)) = true ↔ ¬ x.toNat / 2 ^ 12 = 0 := by
    rw [fld_eq, bit_top]
    simp only [Bool.or_eq_true, bne_iff_ne, Bool.not_false, Bool.true_and, decide_eq_true_eq]
    omega
  rw [groupVerdict, if_congr hbits rfl rfl, ite_not]

/-! ## Words that owe (R117 to R119, R126, R128, R161) -/

theorem Marked.spawnWords (hm : Marked s t) (b : Reg) : Machine.spawnWords t b c = Machine.spawnWords s b c := by
  unfold Machine.spawnWords
  rw [funext hm.src]

theorem Marked.goWords (hm : Marked s t) : Machine.goWords t c = Machine.goWords s c := by
  unfold Machine.goWords
  rw [hm.cur, funext hm.src]

theorem spawn_owes (hu : CanIssue s c { srcs := a :: fiveFrom b, dst := some d, w := w, top := b.toNat + 4 })
    (hp : placeVerdict (val s c a) s (my s) c = .go) :
    ∃ t, Did s t c s (my s) 0 RegEntry.zero
        (heldBy s c (.owe (.spawn d (placeCore (val s c a) s) (val s c a) (spawnWords s b c)) s.nextId)) ∧
      exec (.spawn w d a b) s = .next (tryOwed t (me s)) := by
  have ha : ∀ m, Marked s m → src m a = val s c a := fun m hm => hu.src hm (by simp [Use.regs])
  refine owe_law hu (exec_spawn ..) ?_ fun m hm => ?_
  · simp only [ha s (.refl s), hp]
  · simp only [hm.curCtx, hu.ctx, ha m hm, hm.placeCore, hm.spawnWords]

/-- What `go` checks for itself: no matrix command of its context is left, its address has a home core, and the core takes threads of
its tenant (R119, R120). -/
def goVerdict (a : Reg) (s : State) (k : Core) (c : Ctx) : Verdict :=
  if !noMatrix s (me s) then .park .queue
  else match placeVerdict (src s a) s k c with
    | .go => if grantOf s c.tslot (placeCore (src s a) s) = 0 then .trap .prot (src s a) else .go
    | v => v

/-- The effect of `go` (R119). -/
def goEffect (a : Reg) (s : State) : State :=
  match curCtx s with
  | none => s
  | some c => owe (.go (placeCore (src s a) s) (src s a) (goWords s c)) s

/-- A `go` of a context without a bound port is settled by the checks of what it names. -/
theorem exec_go_unbound (hc : curCtx s = some c) (hb : anyBound c.smap = false) :
    exec (.go w a) s = settle (check { srcs := [a, 1, 2, 3, 4, 5, 6, 7], w := w } (goVerdict a) s) (goEffect a) s := by
  rw [exec_go, execGo]
  simp only [hc, hb, Bool.false_eq_true, if_false]
  rfl

theorem go_owes (hu : CanIssue s c { srcs := [a, 1, 2, 3, 4, 5, 6, 7], w := w }) (hb : anyBound c.smap = false)
    (hn : noMatrix s (me s) = true) (hp : placeVerdict (val s c a) s (my s) c = .go) (hg : grantOf s c.tslot (placeCore (val s c a) s) ≠ 0) :
    ∃ t, Did s t c s (my s) 0 RegEntry.zero (heldBy s c (.owe (.go (placeCore (val s c a) s) (val s c a) (goWords s c)) s.nextId)) ∧
      exec (.go w a) s = .next (tryOwed t (me s)) := by
  have ha : ∀ m, Marked s m → src m a = val s c a := fun m hm => hu.src hm (by simp [Use.regs])
  refine owe_law hu (exec_go_unbound hu.ctx hb) ?_ fun m hm => ?_
  · simp only [goVerdict, hn, ha s (.refl s), hp, hg, Bool.not_true, Bool.false_eq_true, if_false]
  · simp only [goEffect, hm.curCtx, hu.ctx, ha m hm, hm.placeCore, hm.goWords]

theorem bar_owes (hu : CanIssue s c { srcs := [a], dst := some d, w := w }) (hx : (val s c a).toNat / 2 ^ 12 = 0) :
    ∃ t, Did s t c s (my s) 0 RegEntry.zero (heldBy s c (.owe (.bar d (val s c a).toNat) s.nextId)) ∧
      exec (.bar w d a) s = .next (tryOwed t (me s)) := by
  have ha : ∀ m, Marked s m → src m a = val s c a := fun m hm => hu.src hm (by simp [Use.regs])
  have hh : handleOf (val s c a) = (val s c a).toNat := by rw [handleOf_eq]; omega
  refine owe_law hu (exec_bar ..) ?_ fun m hm => ?_
  · rw [ha s (.refl s), groupVerdict_member, if_pos hx]
  · rw [ha m hm, hh]

/-- Bits 63:10 of a node index (R128). -/
theorem fld_nodeIndex (x : Word) : fld 10 54 x = x.toNat / 2 ^ 10 := by
  have hx := x.isLt
  rw [fld_eq]; omega

theorem tsig_owes (hu : CanIssue s c { srcs := [a], w := w }) (hx : (val s c a).toNat / 2 ^ 10 = 0) :
    ∃ t, Did s t c s (my s) 0 RegEntry.zero (heldBy s c (.owe (.tsig (val s c a)) s.nextId)) ∧
      exec (.tsig w a) s = .next (tryOwed t (me s)) := by
  have ha : ∀ m, Marked s m → src m a = val s c a := fun m hm => hu.src hm (by simp [Use.regs])
  refine owe_law hu (exec_tsig ..) ?_ fun m hm => ?_
  · rw [ha s (.refl s), fld_nodeIndex, hx]; rfl
  · rw [ha m hm]

theorem tick_owes (hu : CanIssue s c { srcs := [a], w := w }) (ho : (getField s c.tslot ((val s c a).toNat % 64)).open_ = true)
    (hs : (getField s c.tslot ((val s c a).toNat % 64)).src = false) :
    ∃ t, Did s t c s (my s) 0 RegEntry.zero (heldBy s c (.owe (.tick (val s c a)) s.nextId)) ∧
      exec (.tick w a) s = .next (tryOwed t (me s)) := by
  have ha : ∀ m, Marked s m → src m a = val s c a := fun m hm => hu.src hm (by simp [Use.regs])
  refine owe_law hu (exec_tick ..) ?_ fun m hm => ?_
  · simp only [ha s (.refl s), fld_low, Nat.reducePow, ho, hs]; rfl
  · rw [ha m hm]

/-! ## `join` and `leave` (R123 to R125) -/

theorem Marked.getGroup (hm : Marked s t) (i h : Nat) : Machine.getGroup t i h = Machine.getGroup s i h := by rw [hm.rest]; rfl

section
variable {id : Nat} {x : Word}

theorem joinGroup_inside (hc : getCtx s id = some c) (hg : c.grp ≠ none) : joinGroup s id x = (1, s) := by
  simp only [joinGroup, hc, Option.isSome_iff_ne_none.2 hg, if_true]

theorem joinGroup_attaches (hc : getCtx s id = some c) (hg : c.grp = none) (hx : x.getLsbD 63 = true) :
    joinGroup s id x = (0, setCtx s id { c with grp := some (BitVec.ofNat 16 (handleOf x)) }) := by
  have hx : bit 63 x = true := hx
  simp only [joinGroup, hc, hg, hx, Option.isSome_none, Bool.false_eq_true, if_false, if_true]

theorem joinGroup_full (hc : getCtx s id = some c) (hg : c.grp = none) (hx : x.getLsbD 63 = false)
    (hm : (Machine.getGroup s c.tslot (handleOf x)).members = allOnes 32) : joinGroup s id x = (2, s) := by
  have hx : bit 63 x = false := hx
  simp only [joinGroup, hc, hg, hx, hm, Option.isSome_none, Bool.false_eq_true, if_false, if_true]

theorem joinGroup_counts (hc : getCtx s id = some c) (hg : c.grp = none) (hx : x.getLsbD 63 = false)
    (hm : (Machine.getGroup s c.tslot (handleOf x)).members ≠ allOnes 32) :
    joinGroup s id x = (0, setGroup (setCtx s id { c with grp := some (BitVec.ofNat 16 (handleOf x)) }) c.tslot (handleOf x)
      { Machine.getGroup s c.tslot (handleOf x) with members := (Machine.getGroup s c.tslot (handleOf x)).members + 1 }) := by
  have hx : bit 63 x = false := hx
  simp only [joinGroup, hc, hg, hx, hm, Option.isSome_none, Bool.false_eq_true, if_false]

theorem leaveWord_empty (hc : getCtx s id = some c) (hm : (Machine.getGroup s c.tslot (handleOf x)).members = 0) :
    leaveWord s id x = (1, s) := by
  simp only [leaveWord, hc, hm, if_true]

theorem leaveWord_member (hc : getCtx s id = some c) (hm : (Machine.getGroup s c.tslot (handleOf x)).members ≠ 0) :
    leaveWord s id x = (0, leaveGroup (setCtx s id { c with grp := if c.grp = some (BitVec.ofNat 16 (handleOf x)) then none else c.grp })
      c.tslot (handleOf x)) := by
  simp only [leaveWord, hc, hm, if_false]

end

/-- A `join` that passes does what joining answers and changes, and holds for the answer. -/
theorem join_leaves {u : State} {c' : Ctx} {v : Word} (hu : CanIssue s c { srcs := [a], dst := some d, w := w })
    (hx : (val s c a).toNat / 2 ^ 12 % 2 ^ 51 = 0) (hcur : u.cur = s.cur)
    (h : ∀ m, Marked s m → Did s m c s (my s) 0 RegEntry.zero c →
      ∃ m', joinGroup m (me s) (val s c a) = (v, m') ∧ Did s m' c u (my s) 0 RegEntry.zero c') :
    Leaves s (.join w d a) c u (my s) (heldBy s c' (.answer d v)) := by
  have ha : ∀ m, Marked s m → src m a = val s c a := fun m hm => hu.src hm (by simp [Use.regs])
  refine Does.of (exec_join ..) (settle_law hu ?_ fun m hm hd => ?_)
  · rw [ha s (.refl s), groupVerdict_attach, if_pos hx]
  · obtain ⟨m', hj, hd'⟩ := h m hm hd
    simp only [hm.me, ha m hm, hj]
    exact hd'.hold hcur _

/-- A `leave` that passes is settled. -/
theorem exec_leave_go (hu : CanIssue s c { srcs := [a], dst := some d, w := w }) (hx : (val s c a).toNat / 2 ^ 12 = 0) :
    exec (.leave w d a) s = .next (holdNow (.answer d (leaveWord (markIssued s) (me s) (val s c a)).1)
      (leaveWord (markIssued s) (me s) (val s c a)).2) := by
  have ha : ∀ m, Marked s m → src m a = val s c a := fun m hm => hu.src hm (by simp [Use.regs])
  have hm := markIssued_marked s
  rw [exec_leave, execLeave, check_go hu, ha s (.refl s), groupVerdict_member, if_pos hx, settle_go hu.ctx hu.real]
  simp only [hm.me, ha _ hm]

/-! ## `park` (R122) -/

section
variable {va want : Word} {p : Page}

theorem parkVerdict_trail (hr : Reaches s c va 8 true false p) (ht : p.trail ≠ none) : parkVerdict s va (my s) c = .trap .tfield va := by
  simp only [parkVerdict, globalCheck_go hr, Option.isSome_iff_ne_none.2 ht, if_true]

theorem parkVerdict_source (hr : Reaches s c va 8 true false p) (ht : p.trail = none) :
    parkVerdict s va (my s) c = sourceVerdict s (loadSource (my s) c p va 8 false) := by
  simp only [parkVerdict, globalCheck_go hr, ht, Option.isSome_none, Bool.false_eq_true, if_false]

theorem parkEffect_value {m : State} (hm : Marked s m) (hc : curCtx s = some c) (hp : pageEntry (my s) c.vmid va = some p) {v : Word}
    (hv : loadSource (my s) c p va 8 false = .value v) :
    parkEffect va want m = if v != want then retire m else holdNow (.park none (p.loc va)) (watchLine m (me s) (p.loc va)) := by
  simp only [parkEffect, hm.curCtx, hc, hm.pageEntry, hp, hm.loadSource, hv, hm.me]

theorem parkEffect_request {m : State} (hm : Marked s m) (hc : curCtx s = some c) (hp : pageEntry (my s) c.vmid va = some p)
    (hv : loadSource (my s) c p va 8 false = .request) :
    parkEffect va want m = holdNow (.park (some m.nextId) (p.loc va))
      { m with nextId := m.nextId + 1, reqs := m.reqs ++ [request s c (.parkRead want) va 8 p 0 []] } := by
  simp only [parkEffect, hm.curCtx, hc, hm.pageEntry, hp, hm.loadSource, hv, hm.request, takeId_eq]

end

/-- A `park` that passes does what its effect does once the word has issued. -/
theorem park_leaves {p : Page} {u : State} {c' : Ctx} (hu : CanIssue s c { srcs := [a, b], w := w, mem := true })
    (hr : Reaches s c (val s c a) 8 true false p) (ht : p.trail = none)
    (hgo : sourceVerdict s (loadSource (my s) c p (val s c a) 8 false) = .go)
    (h : ∀ m, Marked s m → Did s m c s (my s) 0 RegEntry.zero c →
      Did s (parkEffect (val s c a) (val s c b) m) c u (my s) 0 RegEntry.zero c') :
    Leaves s (.park w a b) c u (my s) c' := by
  have ha : ∀ m, Marked s m → src m a = val s c a := fun m hm => hu.src hm (by simp [Use.regs])
  have hb : ∀ m, Marked s m → src m b = val s c b := fun m hm => hu.src hm (by simp [Use.regs])
  refine Does.of (exec_park ..) (settle_law hu ?_ fun m hm hd => ?_)
  · rw [ha s (.refl s), parkVerdict_source hr ht, hgo]
  · simp only [ha m hm, hb m hm]
    exact h m hm hd

/-! ## `quit` (R120) -/

theorem tryEnd_quit {id upto : Nat} (hc : getCtx s id = some c) (hq : c.status = .held (.quit upto)) :
    tryEnd s id = if mayEnd s id upto then endCtx s id else s := by
  simp only [tryEnd, hc, hq]

end

/-- Settles O25: each word is one that owes, with its own checks passed. -/
theorem owingWords : Obligations.OwingWords := by
  intro s c w d a b x goes
  exact ⟨spawn_owes, go_owes, bar_owes, tsig_owes, tick_owes⟩

/-- Settles O27: the four answers of R124. -/
theorem join : Obligations.Join := by
  intro s c w d a hu x h g inside hx
  have hh : handleOf (val s c a) = h := handleOf_eq x
  refine ⟨fun hg => ?inside, fun hg ha => ?attaches, fun hg ha hf => ?full, fun hg ha hf => ?counted⟩
  case inside => exact join_leaves hu hx rfl fun m hm hd => ⟨m, joinGroup_inside hd.getCtx hg, hd⟩
  case attaches => exact join_leaves hu hx rfl fun m hm hd => ⟨_, joinGroup_attaches hd.getCtx hg ha, hh ▸ hd.set _⟩
  case full =>
    exact join_leaves hu hx rfl fun m hm hd => ⟨m, joinGroup_full hd.getCtx hg ha (by rw [hm.getGroup, hh]; exact hf), hd⟩
  case counted =>
    refine join_leaves hu hx rfl fun m hm hd => ⟨_, joinGroup_counts hd.getCtx hg ha (by rw [hm.getGroup, hh]; exact hf), ?_⟩
    rw [hm.getGroup, hh]
    exact (hd.set inside).pkg (fun v => setGroup v c.tslot h { g with members := g.members + 1 }) fun _ _ => rfl

/-- Settles O28: the two answers of R125. -/
theorem leave : Obligations.Leave := by
  intro s c w d a hu x h hx
  have hm := markIssued_marked s
  have hd := Did.start hm hu.ctx
  have hh : handleOf (val s c a) = h := handleOf_eq x
  refine ⟨fun hg => ?empty, fun hg => ?member⟩
  case empty =>
    have hl := leaveWord_empty (x := val s c a) hd.getCtx (by rw [hm.getGroup, hh]; exact hg)
    exact ⟨_, by rw [exec_leave_go hu hx, hl], hd.hold rfl _⟩
  case member =>
    have hl := leaveWord_member (x := val s c a) hd.getCtx (by rw [hm.getGroup, hh]; exact hg)
    rw [hh] at hl
    exact ⟨_, hd.set _, by rw [exec_leave_go hu hx, hl]⟩

/-- Settles O29: the trap that each word's own check names. -/
theorem handleTraps : Obligations.HandleTraps := by
  intro s c w d a hh x
  refine ⟨fun hu => ⟨fun hx => ?join, fun hx => ⟨?leave, ?bar⟩⟩, fun hu hx => ?tsig⟩
  all_goals have ha : src s a = x := hu.src (.refl s) (by simp [Use.regs])
  case join => exact check_trap hu hh (by rw [ha, groupVerdict_attach, if_neg hx]) (exec_join ..)
  case leave => exact check_trap hu hh (by rw [ha, groupVerdict_member, if_neg hx]) (exec_leave ..)
  case bar => exact check_trap hu hh (by rw [ha, groupVerdict_member, if_neg hx]) (exec_bar ..)
  case tsig => exact check_trap hu hh (by rw [ha, fld_nodeIndex, if_pos (bne_iff_ne.2 hx)]) (exec_tsig ..)

/-- Settles O30: the trap by the check of `park`, the rest by what its read finds. -/
theorem park : Obligations.Park := by
  intro s c w a b p hu va want hr
  refine ⟨fun ht hh => ?trap, fun ht hp v hv => ⟨fun hne => ?ends, fun heq => ?watches⟩, fun ht hv => ?asks⟩
  case trap =>
    have ha : src s a = va := hu.src (.refl s) (by simp [Use.regs])
    exact check_trap hu hh (by rw [ha]; exact parkVerdict_trail hr ht) (exec_park ..)
  case ends =>
    refine park_leaves hu hr ht (by rw [hv]; simp [sourceVerdict, hp]) fun m hm hd => ?_
    rw [parkEffect_value hm hu.ctx hr.page hv, if_pos (bne_iff_ne.2 hne)]
    exact hd.retire rfl
  case watches =>
    refine park_leaves hu hr ht (by rw [hv]; simp [sourceVerdict, hp]) fun m hm hd => ?_
    rw [parkEffect_value hm hu.ctx hr.page hv, if_neg (by simp [heq, want])]
    exact (hd.pkg (fun y => watchLine y (me s) (p.loc va)) fun _ _ => rfl).hold rfl _
  case asks =>
    refine park_leaves hu hr ht (by rw [hv]; rfl) fun m hm hd => ?_
    rw [parkEffect_request hm hu.ctx hr.page hv, hm.nextId]
    have hd' := hd.send (request s c (.parkRead want) va 8 p 0 [])
    rw [hm.nextId] at hd'
    exact hd'.hold rfl _

/-- Settles O31: the word holds its context, and ends it where it may. -/
theorem quit : Obligations.Quit := by
  intro s c hu
  have hm := markIssued_marked s
  have hd := (Did.start hm hu.ctx).hold rfl (.quit s.nextId)
  refine ⟨_, hd, ?_⟩
  rw [exec_quit, execQuit, check_go hu, show plain s (my s) c = .go from rfl, settle_go hu.ctx hu.real, hm.me, hm.nextId, tryEnd_quit hd.getCtx rfl,
    mayEnd_eq hd]

/-- Settles O32: none of the three has a check of its own, and each goes on or holds by its wait. -/
theorem yieldAndWaits : Obligations.YieldAndWaits := by
  intro s c
  refine ⟨fun hu => ?yields, fun hu => ?cfence, fun w a b hu => ?cwait⟩
  case yields =>
    refine Does.of (exec_yield ..) (settle_law hu rfl fun m hm hd => ?_)
    exact (hd.ctxAt hm.me _).done (by rfl)
  case cfence =>
    refine Does.of (exec_cfence ..) (settle_law hu rfl fun m hm hd => ?_)
    have hk : copiesDone (my m) (me m) = copiesDone (my s) (me s) := by rw [hm.my, hm.me]; rfl
    simp only [hk]
    split
    · exact hd.done rfl
    · exact hd.hold rfl _
  case cwait =>
    intro ch x
    refine Does.of (exec_cwait ..) (settle_law hu rfl fun m hm hd => ?_)
    have hk : cwaitDone (my m) ch x = cwaitDone (my s) ch x := by rw [hm.my]; rfl
    have ha : fld 0 2 (src m a) = ch := by rw [hu.src hm (by simp [Use.regs]), fld_low]; rfl
    have hb : src m b = x := hu.src hm (by simp [Use.regs])
    simp only [ha, hb, hk]
    split
    · exact hd.done rfl
    · exact hd.hold rfl _

end Sys2Proof.Machine

/-! What a copy does when it may start, and when it waits (O45). -/

namespace Sys2Proof.Machine

section
variable {s : State} {c : Ctx} {j : Instr} {fromSp toSp w : Bool} {ch : BitVec 2} {a b : Reg}

/-- The length of a copy (R262). -/
theorem cpyLen_eq (x : Word) : cpyLen x = 16 * (x.toNat / 2 ^ 48) := by
  have hx := x.isLt
  rw [cpyLen, fld_eq]; omega

theorem cpyVerdict_none (fromSp toSp : Bool) (ch : Nat) (src dst : Word) (k : Core) : cpyVerdict fromSp toSp ch src dst 0 k c = .go := rfl

theorem cpyVerdict_taken {n : Nat} (hn : n ≠ 0) {ch : Nat} (hc : (amGet (my s).chans ch).isSome = true) (src dst : Word) :
    cpyVerdict fromSp toSp ch src dst n (my s) c = .park .queue := by
  simp only [cpyVerdict, hn, hc, if_false, if_true]

end

/-- Settles O45: a copy of no bytes, one that starts, and one whose channel is taken. -/
theorem copies : Obligations.Copies := by
  intro s c w ch a b hu source dst n pages starts
  have ha : ∀ m, Marked s m → src m a = source := fun m hm => hu.src hm (by simp [Use.regs])
  have hb : ∀ m, Marked s m → src m b = val s c b := fun m hm => hu.src hm (by simp [Use.regs])
  have hn : cpyLen (val s c b) = n := cpyLen_eq _
  have hdst : sext48 (val s c b) = dst := rfl
  have each : ∀ (fromSp toSp : Bool) (j : Instr), exec j s = cpy fromSp toSp w ch a b s → starts fromSp toSp j := by
    intro fromSp toSp j hj
    refine ⟨fun h0 => ?nothing, fun h0 hok => ?starts, fun h0 htaken => ?waits⟩
    case nothing =>
      refine Does.of hj (settle_law hu ?_ fun m hm hd => ?_)
      · simp only [hb s (.refl s), hn, h0]; exact cpyVerdict_none ..
      · simp only [hb m hm, hn, h0, if_true]; exact hd.done rfl
    case starts =>
      refine Does.of hj (settle_law hu ?_ fun m hm hd => ?_)
      · simp only [ha s (.refl s), hb s (.refl s), hn, hdst]; exact cpyVerdict_go hok
      · simp only [ha m hm, hb m hm, hn, hdst, if_neg h0]
        exact (copy_effect hm hu.ctx hd).done (by dsimp only; split <;> rfl)
    case waits =>
      exact check_park hu (by simp only [hb s (.refl s), hn]; exact cpyVerdict_taken h0 htaken ..) hj
  exact ⟨each _ _ _ (exec_cpyGg ..), each _ _ _ (exec_cpyGs ..), each _ _ _ (exec_cpySg ..), each _ _ _ (exec_cpySs ..)⟩

end Sys2Proof.Machine

/-! What the events of the graph dispatcher do (O57). -/

namespace Sys2Proof.Machine

/-! ## Registration and release (R279 to R281) -/

section
variable {s : State} {t : Nat}

theorem regStore_takes (hs : s.fw.switching = false) (hb : (getTenant s s.arg.slot).regBusy = false) :
    exec .regStore s = .next (setTenant s s.arg.slot { getTenant s s.arg.slot with regBusy := true, regJob := some s.arg.v }) := by
  simp only [exec_regStore, execRegStore, unlessSwitching_off hs, modTenant_eq, hb, Bool.false_eq_true, if_false]

theorem regStore_busy (hs : s.fw.switching = false) (hb : (getTenant s s.arg.slot).regBusy = true) :
    exec .regStore s = .next (setTenant s s.arg.slot (getTenant s s.arg.slot)) := by
  simp only [exec_regStore, execRegStore, unlessSwitching_off hs, modTenant_eq, hb, if_true]

theorem unregStore_takes {g : Graph} (hs : s.fw.switching = false) (hb : (getTenant s s.arg.slot).regBusy = false) (hv : s.arg.v.toNat < 1024)
    (hg : amGet (getTenant s s.arg.slot).graphs s.arg.v.toNat = some g) :
    exec .unregStore s = .next (setTenant s s.arg.slot { getTenant s s.arg.slot with
      regBusy := true, unregJob := some s.arg.v.toNat,
      graphs := amSet (getTenant s s.arg.slot).graphs s.arg.v.toNat { g with releasing := true } }) := by
  have hlow : fld 0 10 s.arg.v = s.arg.v.toNat := by rw [fld_eq]; omega
  have hhigh : fld 10 54 s.arg.v = 0 := by rw [fld_eq]; omega
  simp only [exec_unregStore, execUnregStore, unlessSwitching_off hs, modTenant_eq, hlow, hhigh, hg, hb, bne_self_eq_false, Bool.or_self,
    Bool.false_eq_true, if_false]

theorem registrationComplete_done {image : Word} {h : Nat} {gs : List GNode} {u : State} (hj : (getTenant s s.arg.slot).regJob = some image)
    (hd : (dispGraph s.arg.slot image).run.run s = (.ok (h, gs), u)) :
    exec .registrationComplete s = .next (setTenant u s.arg.slot { getTenant u s.arg.slot with
      graphs := amSet (getTenant u s.arg.slot).graphs h { nodes := gs }, regBusy := false, regJob := none, regHandle := BitVec.ofNat 10 h,
      regStatus := 0 }) := by
  simp only [exec_registrationComplete, execRegistrationComplete, hj, hd, modTenant_eq]

/-- Work of the dispatcher that begins by reading the state. -/
theorem Disp.run_get {α : Type} (f : State → Disp α) (s : State) : ((get : Disp State) >>= f).run.run s = (f s).run.run s := rfl

/-- With every handle in use an image is refused before it is read (R280). -/
theorem dispGraph_full (hf : ∀ h < 1024, amGet (getTenant s t).graphs h ≠ none) (image : Word) :
    (dispGraph t image).run.run s = (.error 4, s) := by
  have hfind : ((List.range 1024).find? fun h => (amGet (getTenant s t).graphs h).isNone) = none := by
    rw [List.find?_eq_none]
    intro h hh
    simpa [Option.isNone_iff_eq_none] using hf h (List.mem_range.1 hh)
  unfold dispGraph
  rw [Disp.run_get]
  simp only [hfind]
  rfl

theorem registrationComplete_full {image : Word} (hj : (getTenant s s.arg.slot).regJob = some image)
    (hf : ∀ h < 1024, amGet (getTenant s s.arg.slot).graphs h ≠ none) :
    exec .registrationComplete s =
      .next (setTenant s s.arg.slot { getTenant s s.arg.slot with regBusy := false, regJob := none, regStatus := 4 }) := by
  have hw : ¬ 4 = mustWait := by decide
  simp only [exec_registrationComplete, execRegistrationComplete, hj, dispGraph_full hf, hw, if_false, modTenant_eq]
  rfl

theorem handleRelease_frees {h : Nat} (hj : (getTenant s s.arg.slot).unregJob = some h)
    (hl : (getTenant s s.arg.slot).launches.any (fun l => l.handle == h) = false) :
    exec .handleRelease s = .next (setTenant s s.arg.slot { getTenant s s.arg.slot with
      regBusy := false, unregJob := none, graphs := amErase (getTenant s s.arg.slot).graphs h }) := by
  simp only [exec_handleRelease, execHandleRelease, modTenant_eq, hj, hl, Bool.false_eq_true, if_false]

theorem handleRelease_waits {h : Nat} (hj : (getTenant s s.arg.slot).unregJob = some h)
    (hl : (getTenant s s.arg.slot).launches.any (fun l => l.handle == h) = true) :
    exec .handleRelease s = .next (setTenant s s.arg.slot (getTenant s s.arg.slot)) := by
  simp only [exec_handleRelease, execHandleRelease, modTenant_eq, hj, hl, if_true]

/-! ## Launch words (R278, R284) -/

/-- A launch word that none of R284's causes refuses. -/
theorem launchRefusal_none {v : Word} {g : Graph} (hen : (getQueue s t (fld 48 6 v)).en = true)
    (hg : amGet (getTenant s t).graphs (fld 54 10 v) = some g) (hr : g.releasing = false)
    (hl : ((getTenant s t).launches.filter fun l => l.queue == fld 48 6 v).length < 256)
    (hc : canonical (argAddress (getQueue s t (fld 48 6 v)).argbase v) = true) : launchRefusal s t v = none := by
  simp only [launchRefusal, hen, hg, hr, hc, not_le.2 hl, Bool.not_true, Bool.false_eq_true, if_false]

/-- The launch that a word asks for (R284). -/
def askedLaunch (s : State) (t : Nat) (v : Word) (g : Graph) : Launch :=
  { id := s.nextId, number := (getQueue s t (fld 48 6 v)).accepted + 1, queue := fld 48 6 v, handle := fld 54 10 v,
    args := argAddress (getQueue s t (fld 48 6 v)).argbase v, since := s.cycle, eligible := none, prio := (getQueue s t (fld 48 6 v)).prio,
    nodes := freshNodes g.nodes }

theorem getTenant_acceptLaunch {v : Word} {g : Graph} (hg : amGet (getTenant s t).graphs (fld 54 10 v) = some g) :
    getTenant (acceptLaunch s t v) t = { getTenant s t with
      queues := amSet (getTenant s t).queues (fld 48 6 v)
        { getQueue s t (fld 48 6 v) with accepted := (getQueue s t (fld 48 6 v)).accepted + 1 },
      launches := (getTenant s t).launches ++ [askedLaunch s t v g] } := by
  have hq : getTenant (modQueue { s with nextId := s.nextId + 1 } t (fld 48 6 v) fun y =>
      { y with accepted := (getQueue s t (fld 48 6 v)).accepted + 1 }) t = { getTenant s t with
        queues := amSet (getTenant s t).queues (fld 48 6 v)
          { getQueue s t (fld 48 6 v) with accepted := (getQueue s t (fld 48 6 v)).accepted + 1 } } := getTenant_modTenant_same ..
  simp only [acceptLaunch, hg, takeId_eq]
  exact (getTenant_modTenant_same ..).trans
    (congrArg (fun x : Tenant => { x with launches := x.launches ++ [askedLaunch s t v g] }) hq)

theorem launchStore_accepts (h40 : fld 40 8 s.arg.v = 0) (h0 : fld 0 6 s.arg.v = 0)
    (hr : launchRefusal { s with cycle := s.cycle + s.arg.num } s.arg.slot s.arg.v = none) :
    exec .launchStore s = .next (acceptLaunch { s with cycle := s.cycle + s.arg.num } s.arg.slot s.arg.v) := by
  simp only [exec_launchStore, execLaunchStore, h40, h0, hr, bne_self_eq_false, Bool.or_self, Bool.false_eq_true, if_false]

/-! ## Eligibility (R285) -/

theorem chooseHead_one (x : Tenant) (l : Launch) : chooseHead x [l] = some l := rfl

/-- One head alone, in the first cycle in which it may, is the choice. -/
theorem launchEligible_one {l : Launch} (hh : (List.range 64).filterMap (waitingHead (getTenant s s.arg.slot)) = [l]) :
    let c := max (s.cycle + s.arg.num) (headFrom (getTenant s s.arg.slot) l)
    exec .launchEligible s = .next (modTenant (modLaunch { s with cycle := c } s.arg.slot l.id fun y =>
      { y with eligible := some c, prio := (getQueue s s.arg.slot l.queue).prio, nodes := readyNodes c false y.nodes }) s.arg.slot
        fun x => { x with lastQueue := l.queue, eligFrom := c + 1 }) := by
  intro c
  simp only [exec_launchEligible, execLaunchEligible, hh, List.foldl_nil, List.filter_cons, List.filter_nil, le_max_right, decide_true, if_true,
    chooseHead_one, c]

theorem updWhere_launch (id : Nat) (f : Launch → Launch) (ls : List Launch) :
    updWhere (fun l => l.id == id) f ls = ls.map fun y => if y.id = id then f y else y :=
  updWhere_id _ (fun y => y.id = id) f ls fun _ => rfl

/-! ## The end of a launch (R287) -/

theorem launchFinish_running {l : Launch} (hl : (getTenant s s.arg.slot).launches.find? (fun l => l.id == s.arg.id) = some l)
    (h : launchOver s l = false) : exec .launchFinish s = .next s := by
  simp only [exec_launchFinish, execLaunchFinish, hl, h, Bool.not_false, if_true]

/-- What the end of a launch leaves of its tenant: FAILED and DONE count it, its queue may go on in the next cycle, and it is gone. -/
theorem launchFinish_over {l : Launch} (hl : (getTenant s s.arg.slot).launches.find? (fun l => l.id == s.arg.id) = some l)
    (h : launchOver s l = true) :
    exec .launchFinish s = .next { setTenant s s.arg.slot { getTenant s s.arg.slot with
        queues := amSet (getTenant s s.arg.slot).queues l.queue
          { getQueue s s.arg.slot l.queue with
            failed := if l.failed then (getQueue s s.arg.slot l.queue).failed + 1 else (getQueue s s.arg.slot l.queue).failed,
            done := (getQueue s s.arg.slot l.queue).done + 1, idleFrom := s.cycle + s.arg.num + 1 },
        launches := (getTenant s s.arg.slot).launches.filter fun y => y.id != l.id } with
      cycle := s.cycle + s.arg.num, images := s.images.filter fun i => i.launch != l.id } := by
  simp only [exec_launchFinish, execLaunchFinish, hl, h, Bool.not_true, Bool.false_eq_true, if_false, modQueue, modTenant_eq,
    getTenant_setTenant_same, setTenant_setTenant]
  rfl

/-! ## SWARM nodes (R273, R275) -/

section
variable {n : NodeRef} {g : GNode} {y : LNode} {k : Nat}

/-- A read that must wait ends the reading of a node's threads. -/
theorem readThreads_waits {e : Option (WalkFault × Word)} {u : State} (hy : nodeState s t (some n) = some y)
    (hk : y.places.length < recThreads g.words) (hr : readThread s t g y.places.length = (.error e, u)) :
    readThreads t n g (k + 1) s = (e, u) := by
  simp only [readThreads, hy, not_le.2 hk, if_false, hr]

/-- A thread that is read is kept with its node, and the next is read. -/
theorem readThreads_reads {a : Word} {ws : List Word} {u : State} (hy : nodeState s t (some n) = some y)
    (hk : y.places.length < recThreads g.words) (hr : readThread s t g y.places.length = (.ok (a, ws), u)) :
    readThreads t n g (k + 1) s =
      readThreads t n g k (modNode u t n fun x => { x with places := x.places ++ [a], boots := x.boots ++ [ws] }) := by
  simp only [readThreads, hy, not_le.2 hk, if_false, hr]

end

/-- A SWARM node that starts: its launch's cycle is taken, it runs, and what of its threads can be read is (R273, R288). -/
theorem nodeStart_swarm {r : Ready} (hr : readyHead (getTenant s s.arg.slot) (startCycle (getTenant s s.arg.slot) (s.cycle + s.arg.num)) = some r)
    (hk : r.g.kind = 1) (hw : r.g.word 4 = 0) {e : Option (WalkFault × Word)} {u : State}
    (hread : readThreads s.arg.slot r.ref r.g (recThreads r.g.words)
      (modNode (modTenant { s with cycle := startCycle (getTenant s s.arg.slot) (s.cycle + s.arg.num) } s.arg.slot fun y =>
        { y with startFrom := startCycle (getTenant s s.arg.slot) (s.cycle + s.arg.num) + 1 }) s.arg.slot r.ref fun z =>
          { z with phase := .running }) = (e, u)) :
    exec .nodeStart s = .next (modTenant u s.arg.slot fun y =>
      { y with delivering := y.delivering ++ [(r.launch.id, r.node)], sendFrom := max y.sendFrom (u.cycle + 1) }) := by
  simp only [exec_nodeStart, execNodeStart, hr, hk, startSwarm, hw, if_true, Bool.not_true, Bool.false_eq_true, if_false, hread]

/-! ## Initial threads (R178, R273) -/

/-- The record of an initial thread, on its way to the core of its address. -/
def threadFlight (s : State) (t : Nat) (n : NodeRef) (g : GNode) (core : Nat) (a : Word) (ws : List Word) : Flight :=
  { id := s.nextId, core := core, cont := { words := ws, vmid := (getTenant s t).vmid, tslot := t, node := some n, dclass := g.kernel.dclass,
                                            tvec := none, tcause := 0 },
    sender := .node n.launch n.node, isGo := false, addr := a }

theorem sendThread_flies {n : NodeRef} {g : GNode} {a : Word} {ws : List Word} {p : Page} {core : Nat} (hc : canonical a = true)
    (ht : translate s t a = (.ok p, s)) (hp : p.rd = true) (hh : homeCoreOf p (dieOfPage p a) a = some core) :
    sendThread s t n g a ws =
      sentThread { s with nextId := s.nextId + 1, flights := s.flights ++ [threadFlight s t n g core a ws] } t n false := by
  simp only [sendThread, hc, ht, hp, hh, takeId_eq, Bool.not_true, Bool.false_eq_true, if_false]
  rfl

section
variable {l i : Nat} {rest : List (Nat × Nat)} {g : GNode} {y : LNode}

theorem initialThreadDeliver_over (hd : (getTenant s s.arg.slot).delivering = (l, i) :: rest) (hg : gnodeOf s s.arg.slot (some ⟨l, i⟩) = some g)
    (hy : nodeState s s.arg.slot (some ⟨l, i⟩) = some y) (h : recThreads g.words ≤ y.started) :
    exec .initialThreadDeliver s = .next (setTenant s s.arg.slot { getTenant s s.arg.slot with delivering := rest }) := by
  simp only [exec_initialThreadDeliver, execInitialThreadDeliver, hd, hg, hy, h, if_true, modTenant_eq]

/-- A thread that is not the node's last, with all of them read, is sent in the next cycle in which one may be. -/
theorem initialThreadDeliver_sends (hd : (getTenant s s.arg.slot).delivering = (l, i) :: rest) (hg : gnodeOf s s.arg.slot (some ⟨l, i⟩) = some g)
    (hy : nodeState s s.arg.slot (some ⟨l, i⟩) = some y) (h : y.started + 1 < recThreads g.words) (htok : y.token = none)
    (hread : y.places.length = recThreads g.words) :
    let c := max (s.cycle + s.arg.num) (getTenant s s.arg.slot).sendFrom
    exec .initialThreadDeliver s =
      .next (sendThread (setTenant { s with cycle := c } s.arg.slot { getTenant s s.arg.slot with sendFrom := c + 1 }) s.arg.slot ⟨l, i⟩ g
        (y.places.getD y.started 0) (y.boots.getD y.started [])) := by
  intro c
  have hnone : readThreads s.arg.slot ⟨l, i⟩ g (recThreads g.words - y.places.length) s = (none, s) := by rw [hread, Nat.sub_self, readThreads]
  have hlast : ¬ recThreads g.words ≤ y.started + 1 := by omega
  have hmore : ¬ recThreads g.words ≤ y.started := by omega
  have hhas : y.started < y.places.length := by omega
  simp only [exec_initialThreadDeliver, execInitialThreadDeliver, hd, hg, hy, hmore, htok, hnone, hhas, hlast, Option.isSome_none,
    Bool.false_eq_true, if_false, if_true, modTenant_eq]
  rw [← hd]
  rfl

end

/-! ## COPY nodes (R283) -/

/-- Lines taken out of a command's claim are of no other command's. -/
theorem unclaimLine_others (s : State) (cmd : Nat) (l : Loc) :
    (unclaimLine s cmd l).claims.filter (fun c => c.cmd != cmd) = s.claims.filter fun c => c.cmd != cmd := by
  unfold unclaimLine updWhere
  induction s.claims with
  | nil => rfl
  | cons c cs ih =>
    simp only at ih
    by_cases h : c.cmd = cmd <;> simpa [h] using ih

/-- The last line of a COPY node: what its one unit does, and the end of the claim. -/
theorem copyLine_last {j : CopyJob} {ext : List Byte} {u : State} (hj : j.units = [j.node.moved]) (hlen : j.node.moved + 16 = j.len)
    (hu : copyUnit (j, s) j.node.moved (ext.drop 0) = (j, u)) :
    (copyLine s j ext).mem = u.mem ∧ (copyLine s j ext).claims = u.claims.filter fun c => c.cmd != j.node.cmd := by
  have hm : j.node.moved + 16 * 1 = j.len := by omega
  simp only [copyLine, hj, List.length_singleton, List.range_one, List.zip_cons_cons, List.zip_nil_left, List.foldl_cons, List.foldl_nil,
    Nat.mul_zero, hu, hm, le_refl, if_true]
  constructor
  · show State.mem (if _ then _ else _) = _
    split <;> rfl
  · show List.filter _ (State.claims (if _ then _ else _)) = _
    split
    · rfl
    · exact unclaimLine_others ..

section
variable {l : Launch} {g : GNode} {y : LNode}

/-- A COPY node that has its claim and may access its next line moves it. -/
theorem copyNodeComplete_moves (hr : runningNode s s.arg.slot (argNode s) = some (l, g, y)) (hk : g.kind = 2) (ht : y.token = none)
    (hf : y.failed = false) (hc : y.cmd ≠ 0) (hm : y.moved < copyLen g)
    (hready : CopyJob.ready s ⟨s.arg.slot, argNode s, copySrc g l, copyDst g l, copyLen g, y⟩ = true) :
    exec .copyNodeComplete s = .next (copyLine s ⟨s.arg.slot, argNode s, copySrc g l, copyDst g l, copyLen g, y⟩ s.arg.bytes) := by
  simp only [exec_copyNodeComplete, execCopyNodeComplete, hr, hk, ht, hf, hc, hm, hready, bne_self_eq_false, Option.isSome_none, Bool.or_self,
    Bool.false_eq_true, if_false, decide_true, Bool.and_self, if_true]

/-! ## Completions (R274) -/

/-- A node by its launch. -/
theorem nodeState_eq (s : State) (t : Nat) (n : NodeRef) : nodeState s t (some n) = (launchOf s t (some n)).bind fun l => l.nodes[n.node]? := by
  unfold nodeState
  cases launchOf s t (some n) <;> rfl

/-- Nodes that wait for nothing become ready, and no other node changes. -/
theorem readyNodes_getElem? {ns : List LNode} {i : Nat} {x : LNode} (h : ns[i]? = some x) (hp : x.phase ≠ .waiting) (c : Nat) (failed : Bool) :
    (readyNodes c failed ns)[i]? = some x := by
  simp [readyNodes, updWhere, h, hp]

/-- A completion without successors decrements no counter. -/
theorem decrement_nil (c : Nat) (l : Launch) : decrement c [] l = { l with nodes := readyNodes c l.failed l.nodes } := by
  have hsame : l.nodes.mapIdx (fun _ x => x) = l.nodes := List.ext_getElem? fun i => by simp
  simp [decrement, hsame]

theorem nodeComplete_running (hr : runningNode s s.arg.slot (argNode s) = some (l, g, y)) (ho : nodeOver g y = false)
    (hf : g.kind = 2 → y.failed = false) : exec .nodeComplete s = .next s := by
  have hd : (decide (g.kind = 2) && y.failed) = false := by
    rw [Bool.and_eq_false_imp]; exact fun h => hf (of_decide_eq_true h)
  simp only [exec_nodeComplete, execNodeComplete, hr, hd, ho, Bool.not_false, Bool.false_eq_true, if_false, if_true]

/-- A node without successors that is over is complete, in the order of R276. -/
theorem nodeComplete_over (hr : runningNode s s.arg.slot (argNode s) = some (l, g, y)) (ho : nodeOver g y = true)
    (hf : g.kind = 2 → y.failed = false) (hs : g.succs = []) :
    let c := decCycle (s.cycle + s.arg.num) l (argNode s).node 1 0
    exec .nodeComplete s = .next (modLaunch (modLaunch (modNode { s with cycle := c } s.arg.slot (argNode s) fun x => { x with phase := .complete })
      s.arg.slot l.id fun l => { l with lastDec := some (c, (argNode s).node, 1, 0) }) s.arg.slot l.id (decrement c [])) := by
  intro c
  have hd : (decide (g.kind = 2) && y.failed) = false := by
    rw [Bool.and_eq_false_imp]; exact fun h => hf (of_decide_eq_true h)
  have hz : zeroSucc l [] = none := rfl
  simp only [exec_nodeComplete, execNodeComplete, hr, hd, ho, hs, hz, Bool.not_true, Bool.false_eq_true, if_false]
  rfl

theorem launchOf_modNode (s : State) (t : Nat) (n : NodeRef) (f : LNode → LNode) :
    launchOf (modNode s t n f) t (some n) =
      (launchOf s t (some n)).map fun l => { l with nodes := l.nodes.mapIdx fun i x => if i = n.node then f x else x } :=
  launchOf_modLaunch _ _ _ _ fun _ => rfl

/-- The node that completed. -/
theorem nodeState_completed {n : NodeRef} {c : Nat} {last : Option (Nat × Nat × Nat × Nat)} (hl : launchOf s t (some n) = some l)
    (hy : nodeState s t (some n) = some y) :
    nodeState (modLaunch (modLaunch (modNode s t n fun x => { x with phase := .complete }) t n.launch fun l => { l with lastDec := last })
      t n.launch (decrement c [])) t (some n) = some { y with phase := .complete } := by
  have hn : l.nodes[n.node]? = some y := by rw [nodeState_eq, hl] at hy; exact hy
  rw [nodeState_eq, launchOf_modLaunch _ _ _ (decrement c []) fun _ => rfl,
    launchOf_modLaunch _ _ _ (fun l => { l with lastDec := last }) fun _ => rfl, launchOf_modNode, hl]
  simp only [Option.map_some, Option.bind_some, decrement_nil]
  exact readyNodes_getElem? (by simp [hn]) (by simp) ..

end

/-! ## Graph signals (R128, R276) -/

theorem launchOf_modCtx (s : State) (id : Nat) (f : Ctx → Ctx) (t : Nat) (n : Option NodeRef) :
    launchOf (modCtx s id f) t n = launchOf s t n := by
  rw [(modCtx_only s id f).1]; rfl

/-- A signal that finds no successor at zero is taken, and its context is answered. -/
theorem tsigAccept_takes {c : Ctx} {w : Word} {r : NodeRef} {l : Launch} {g : GNode} (hc : getCtx s s.arg.id = some c)
    (hh : c.status = .held (.tsig w)) (hn : c.node = some r) (hl : launchOf s c.tslot c.node = some l)
    (hg : gnodeOf s c.tslot (some ⟨r.launch, w.toNat⟩) = some g) (hz : zeroSucc l g.succs = none) :
    let cy := decCycle (s.cycle + s.arg.num) l w.toNat 0 s.arg.id
    exec .tsigAccept s = .next (answerSignal (modLaunch { s with cycle := cy } c.tslot r.launch fun l =>
      { decrement cy g.succs l with lastDec := some (cy, w.toNat, 0, s.arg.id) }) s.arg.id none 0) := by
  intro cy
  have hid : l.id = r.launch := launchOf_id (hn ▸ hl)
  rw [hn] at hl
  simp only [exec_tsigAccept, execTsigAccept, hc, hh, acceptSignal, hn, hl, hg, hz, hid]
  rfl

end

/-- Settles O57, clause by clause: the rule of each event for the case that the clause names. -/
theorem graphEvents : Obligations.GraphEvents := by
  intro s t x v queueOf
  refine ⟨fun hs => ⟨regStore_takes hs, regStore_busy hs, fun g hb hv hg => unregStore_takes hs hb hv hg⟩,
    fun image hj => ⟨fun h gs u hd => registrationComplete_done hj hd, registrationComplete_full hj⟩,
    fun h hj => ⟨handleRelease_frees hj, handleRelease_waits hj⟩,
    fun q g hq h48 h40 h0 => ?accepted,
    fun l hh => ?eligible,
    fun l hl => ⟨fun ho => ?finished, launchFinish_running hl⟩,
    fun r y hr hk hw hone hy hp => ⟨fun e u hread => ?waits, fun a ws u hlast hread => ?reads⟩,
    fun l i rest g y hd hg hy => ⟨initialThreadDeliver_over hd hg hy, fun p core h ht hread => ?sent⟩,
    fun l g y a b hr => ⟨fun hk ht hf hc hm hj hready ha hb hka hkb line hline hpo hbd => ?copied,
      fun ho hf hs => ?complete, nodeComplete_running hr⟩,
    fun c w r l g hc hh hn hl hg hz => ?signalled⟩
  case accepted =>
    intro h hen hg hr hl hc
    have hqv : fld 48 6 v = q := by
      rw [fld, h48, BitVec.toNat_ofNat, Nat.mod_eq_of_lt (by omega)]
    have hrefuse : launchRefusal { s with cycle := s.cycle + s.arg.num } t v = none :=
      launchRefusal_none (hqv ▸ hen) hg hr (hqv ▸ hl) (hqv ▸ hc)
    have hx := getTenant_acceptLaunch (s := { s with cycle := s.cycle + s.arg.num }) (t := t) (v := v) hg
    refine ⟨_, launchStore_accepts (congrArg BitVec.toNat h40) (congrArg BitVec.toNat h0) hrefuse, rfl, rfl, ?_, ?_⟩
    · rw [hx, hqv]
      exact (amGetD_amSet ..).trans (if_pos rfl)
    · rw [hx]
      show _ ++ [askedLaunch _ t v g] = _
      rw [askedLaunch, hqv]
      rfl
  case eligible =>
    refine ⟨_, launchEligible_one hh, rfl, rfl, ?_, ?_, ?_⟩
    · rw [getTenant_modTenant_same]
    · rw [getTenant_modTenant_same]
    · rw [getTenant_modTenant_same, modLaunch, getTenant_modTenant_same, updWhere_launch]
      rfl
  case finished =>
    have hx : ∀ (c : Nat) (is : List Snapshot) (y : Tenant),
        getTenant { setTenant s t y with cycle := c, images := is } t = y := fun _ _ _ => getTenant_setTenant_same ..
    refine ⟨_, launchFinish_over hl ho, rfl, ?_, rfl, ?_⟩
    · rw [hx]
    · rw [hx]
      exact (amGetD_amSet ..).trans (if_pos rfl)
  case waits =>
    have hk' : y.places.length < recThreads r.g.words := by rw [hp]; exact hone
    obtain ⟨k, hk1⟩ := Nat.exists_eq_add_of_le' hone
    refine nodeStart_swarm hr hk hw (e := e) ?_
    rw [hk1]
    exact readThreads_waits hy hk' (by rw [hp]; exact hread)
  case reads =>
    have hk' : y.places.length < recThreads r.g.words := by rw [hp]; exact hone
    refine nodeStart_swarm hr hk hw (e := none) ?_
    rw [hlast]
    exact readThreads_reads (k := 0) hy hk' (by rw [hp]; exact hread)
  case sent =>
    intro a ws c u hc htr hp hh
    have hu : getTenant u t = { x with sendFrom := c + 1 } := getTenant_setTenant_same ..
    have hsent : exec .initialThreadDeliver s = .next (sendThread u t ⟨l, i⟩ g a ws) := initialThreadDeliver_sends hd hg hy h ht hread
    rw [sendThread_flies hc htr hp hh] at hsent
    refine ⟨_, hsent, rfl, rfl, ?_, ?_⟩
    · rw [sentThread, modNode, modLaunch, getTenant_modTenant_same]
      exact congrArg Tenant.sendFrom hu
    · show u.flights ++ [threadFlight u t ⟨l, i⟩ g core a ws] = _
      rw [threadFlight, hu]
      rfl
  case copied =>
    obtain ⟨u, hu, hmem, hclaims⟩ := copyUnit_law (ext := s.arg.bytes.drop 0) ha hb hka hkb hline hpo hbd
    obtain ⟨hm', hc'⟩ := copyLine_last (ext := s.arg.bytes) hj hm hu
    exact ⟨_, copyNodeComplete_moves hr hk ht hf hc (by omega) hready, hm'.trans hmem, hc'.trans (by rw [hclaims])⟩
  case complete =>
    obtain ⟨hl, -, hy, -⟩ := runningNode_some hr
    refine ⟨_, nodeComplete_over hr ho hf hs, rfl, ?_⟩
    rw [launchOf_id hl]
    exact nodeState_completed hl hy
  case signalled =>
    intro cy
    refine ⟨_, tsigAccept_takes hc hh hn hl hg hz, ?_, ?_, ?_, ?_⟩
    · exact (modCtx_only ..).mem
    · rw [answerSignal, (modCtx_only ..).1]; rfl
    · rw [answerSignal, getCtx_modCtx, if_pos rfl]
      show (getCtx s s.arg.id).map _ = _
      rw [hc]; rfl
    · have hu := launchOf_modLaunch { s with cycle := cy } c.tslot r (fun l =>
        { decrement cy g.succs l with lastDec := some (cy, w.toNat, 0, s.arg.id) }) fun _ => rfl
      rw [answerSignal, launchOf_modCtx, hn, hu, show launchOf { s with cycle := cy } c.tslot (some r) = some l from hn ▸ hl]
      rfl

end Sys2Proof.Machine

/-! What a subscription does when it may start, where it waits or traps, and how its tiles are retired (O46). -/

namespace Sys2Proof.Machine

section
variable {s : State} {c : Ctx} {pull : Bool} {ch : Nat} {va : Word} {p : Page}

/-- A subscription asks for its channel before it looks at its descriptor. -/
theorem subVerdict_taken (hc : (amGet (my s).chans ch).isSome = true) (va : Word) : subVerdict pull ch va s (my s) c = .park .queue := by
  simp only [subVerdict, hc, if_true]

/-- A descriptor that can be read now and does not meet R265 traps PROT with its address (R266). -/
theorem subVerdict_shape (hc : amGet (my s).chans ch = none) (hr : Reaches s c va 64 true false p)
    (he : engineReady s (coreOf (me s)) p (homePlace s p va false) 64 (me s) (copyEngine (coreOf (me s))) s.nextId = true)
    (hd : (subDesc s p va).ok (my s) pull = false) : subVerdict pull ch va s (my s) c = .trap .prot va := by
  simp only [subVerdict, hc, globalCheck_go hr, he, hd, Option.isSome_none, Bool.not_true, Bool.not_false, Bool.false_eq_true, if_false, if_true]

theorem touch_cur (s : State) (die : Nat) (l : Loc) (p : Page) (w : Acc) (n : Nat) : (touch s die l p w n).cur = s.cur := by
  rw [touch_rest]

end

/-- A core after `n` tiles of a channel are retired, as `cpy.sub.ret` leaves it (R267). -/
def retireTiles (ch n : Nat) (k : Core) : Core :=
  { k with chans := match amGet k.chans ch with
      | some x => amSet k.chans ch { x with retired := x.retired + n }
      | none => k.chans }

theorem retireTiles_of {k : Core} {ch : Nat} {x : Chan} (hx : amGet k.chans ch = some x) (n : Nat) :
    retireTiles ch n k = { k with chans := amSet k.chans ch { x with retired := x.retired + n } } := by
  simp only [retireTiles, hx]

section
variable {s : State} {c : Ctx} {w pull : Bool} {ch : BitVec 2} {a : Reg} {x : Chan}

/-- Tiles that have landed are retired; nothing else of the channel changes (R267). -/
theorem cpySubRet_landed (hu : CanIssue s c { srcs := [a], w := w, mem := true }) (hx : amGet (my s).chans ch.toNat = some x)
    (hk : x.kind = .sub pull) (hl : x.retired + (val s c a).toNat ≤ x.landed) :
    Leaves s (.cpySubRet w ch a) c s
      { my s with chans := amSet (my s).chans ch.toNat { x with retired := x.retired + (val s c a).toNat } } (pastWord s.cur c) := by
  have ha : ∀ m, Marked s m → src m a = val s c a := fun m hm => hu.src hm (by simp [Use.regs])
  refine Does.of (exec_cpySubRet ..) (settle_law hu ?verdict fun m hm hd => ?effect)
  case verdict =>
    simp only [hx, hk, ha s (.refl s), if_neg (Nat.not_lt.2 hl)]
  case effect =>
    simp only [ha m hm]
    rw [← retireTiles_of hx]
    exact (hd.coreAt (congrArg coreOf hm.me) (retireTiles ch.toNat (val s c a).toNat) fun _ _ _ _ => rfl).done rfl

/-- More tiles than have landed cannot be retired (R267). -/
theorem cpySubRet_beyond (hu : CanIssue s c { srcs := [a], w := w, mem := true }) (hh : HasHandler s c)
    (hx : amGet (my s).chans ch.toNat = some x) (hk : x.kind = .sub pull) (hl : x.landed < x.retired + (val s c a).toNat) :
    Traps s (.cpySubRet w ch a) c .prot (val s c a) := by
  have ha : src s a = val s c a := hu.src (.refl s) (by simp [Use.regs])
  exact check_trap hu hh (by simp only [hx, hk, ha, if_pos hl]) (exec_cpySubRet ..)

/-- A channel without a subscription has no tiles to retire (R267). -/
theorem cpySubRet_free (hu : CanIssue s c { srcs := [a], w := w, mem := true }) (hh : HasHandler s c)
    (hx : amGet (my s).chans ch.toNat = none) : Traps s (.cpySubRet w ch a) c .prot (val s c a) := by
  have ha : src s a = val s c a := hu.src (.refl s) (by simp [Use.regs])
  exact check_trap hu hh (by simp only [hx, ha]) (exec_cpySubRet ..)

end

/-- Settles O46: both subscriptions by what `subscribe` does on each verdict, and `cpy.sub.ret` by what its channel holds. -/
theorem subscriptions : Obligations.Subscriptions := by
  intro s c w ch a hu
  refine ⟨?starts, fun x pull hx hk => ⟨cpySubRet_landed hu hx hk, fun hl hh => cpySubRet_beyond hu hh hx hk hl⟩,
    fun hx hh => cpySubRet_free hu hh hx⟩
  case starts =>
    intro starts
    have ha : ∀ m, Marked s m → src m a = val s c a := fun m hm => hu.src hm (by simp [Use.regs])
    have each : ∀ (pull : Bool) (j : Instr), exec j s = subscribe pull w ch a s → starts pull j := by
      intro pull j hj
      refine ⟨fun p hok => ⟨touch_counts .., ?begins⟩, fun htaken => ?waits, fun p hfree hr he hd hh => ?traps⟩
      case begins =>
        refine Does.of hj (settle_law hu ?_ fun m hm hd => ?_)
        · simp only [ha s (.refl s)]; exact subVerdict_go hok
        · simp only [ha m hm]
          exact (sub_effect hm hu.ctx hd hok.reaches.page).done (touch_cur ..)
      case waits => exact check_park hu (by simp only [subVerdict_taken htaken]) hj
      case traps => exact check_trap hu hh (by simp only [ha s (.refl s)]; exact subVerdict_shape hfree hr he hd) hj
    exact ⟨each _ _ (exec_cpySub ..), each _ _ (exec_cpySubPull ..)⟩

end Sys2Proof.Machine

/-! What the words of trail fields do (O17, O18). -/

namespace Sys2Proof.Machine

section
variable {s : State} {c : Ctx} {w : Bool} {d a b : Reg} {p : Page}

/-- `g0` never changes (R66), so what a word would write there says nothing. -/
theorem Does.g0 {u : State} {o : Core} {e : RegEntry} {c' : Ctx} {j : Instr} (h : Does s j c u o 0 e c') : Leaves s j c u o c' := by
  obtain ⟨t, hj, haround, hregs, hctxs⟩ := h
  exact ⟨t, hj, haround, fun k n => by rw [hregs k n]; simp, hctxs⟩

/-! ## Deposits (R158, R159) -/

/-- A deposit on a mark page sends its request with the duty of its class. -/
theorem deposit_marks {most : Bool} {cls : Class} {j : Instr} (hu : CanIssue s c { srcs := [a, b], w := w, mem := true })
    (hr : Reaches s c (val s c a) 4 true true p) (hj : exec j s = deposit most cls w a b s) (hm : markPage s c p (val s c a) = true) :
    Leaves s j c
      (sent s (request s c (.dep most (p.trail.getD 0) ((val s c b).setWidth 16)) (val s c a) 4 p 0
        (classAfter s cls (me s) (p.loc (val s c a)) 4)))
      (my s) (pastWord s.cur (bound c (classDuty cls s.nextId))) := by
  have ha : ∀ m, Marked s m → src m a = val s c a := fun m hm => hu.src hm (by simp [Use.regs])
  have hi := markIssued_marked s
  refine Does.g0 (Does.of hj (sendClass_law (d := 0) hu hr.page ?own ?eff))
  case own => simp only [ha s (.refl s)]; exact markVerdict_go hr hm
  case eff => simp only [ha _ hi, hu.src hi (r := b) (by simp [Use.regs]), fieldAt_eq hi hu.ctx hr.page]

/-- A deposit on any other page traps TFIELD. -/
theorem deposit_noMarks {most : Bool} {cls : Class} {j : Instr} (hu : CanIssue s c { srcs := [a, b], w := w, mem := true })
    (hr : Reaches s c (val s c a) 4 true true p) (hj : exec j s = deposit most cls w a b s) (hm : markPage s c p (val s c a) = false)
    (hh : HasHandler s c) : Traps s j c .tfield (val s c a) := by
  have ha : src s a = val s c a := hu.src (.refl s) (by simp [Use.regs])
  exact check_trap hu hh (by simp only [ha]; exact markVerdict_trap hr hm) hj

/-! ## `peek` and `sense` (R158, R159) -/

/-- A word that reads marks and passes sends its request and leaves its destination empty. -/
theorem readMarks_marks {k : Use} {n : Nat} {op : State → ReqOp} {j : Instr} (hu : CanIssue s c k) (ha : a ∈ k.regs)
    (hr : Reaches s c (val s c a) n true false p)
    (hj : exec j s = settle (check k (fun s k c => markVerdict (src s a) n false s k c) s) (fun s => sendRead (op s) n (src s a) d s) s)
    (hm : markPage s c p (val s c a) = true) :
    Does s j c (sent s (request s c (op (markIssued s)) (val s c a) n p d (bufferedIds (my s) (p.loc (val s c a)) n))) (my s) d
      (emptied s c d) (pastWord s.cur c) := by
  refine Does.of hj (sendRead_law hu hr.page ?own ?eff)
  case own => simp only [hu.src (.refl s) ha]; exact markVerdict_go hr hm
  case eff => simp only [hu.src (markIssued_marked s) ha]

theorem readMarks_noMarks {k : Use} {n : Nat} {op : State → ReqOp} {j : Instr} (hu : CanIssue s c k) (ha : a ∈ k.regs)
    (hr : Reaches s c (val s c a) n true false p)
    (hj : exec j s = settle (check k (fun s k c => markVerdict (src s a) n false s k c) s) (fun s => sendRead (op s) n (src s a) d s) s)
    (hm : markPage s c p (val s c a) = false) (hh : HasHandler s c) : Traps s j c .tfield (val s c a) :=
  check_trap hu hh (by simp only [hu.src (.refl s) ha]; exact markVerdict_trap hr hm) hj

end

/-- Settles O17: the four deposits are one, over their operation and their class. -/
theorem deposits : Obligations.Deposits := by
  intro s c w a b p hu va goes hr
  have each : ∀ {most cls j}, exec j s = deposit most cls w a b s → classDuty cls s.nextId = .noStore s.nextId → goes most cls j := by
    intro most cls j hj hd
    exact ⟨fun hm => hd ▸ deposit_marks hu hr hj hm, fun hm hh => deposit_noMarks hu hr hj hm hh⟩
  exact ⟨each (exec_depAdd ..) rfl, each (exec_depMax ..) rfl, each (exec_depAddRel ..) rfl, each (exec_depMaxRel ..) rfl⟩

/-- Settles O18: both words read marks alike; the operand of `sense` and the field of either are those before the mark of the issue. -/
theorem markReads : Obligations.MarkReads := by
  intro s c w d a p va goes
  have hm := markIssued_marked s
  have each : ∀ {k n op j} (o : State → ReqOp), CanIssue s c k → a ∈ k.regs →
      exec j s = settle (check k (fun s k c => markVerdict (src s a) n false s k c) s) (fun s => sendRead (o s) n (src s a) d s) s →
      (pageEntry (my s) c.vmid va = some p → o (markIssued s) = op) → goes n op j := by
    intro k n op j o hu ha hj ho hr
    exact ⟨fun h => ho hr.page ▸ readMarks_marks hu ha hr hj h, readMarks_noMarks hu ha hr hj⟩
  refine ⟨fun hu => ?peek, fun b hu => ?sense⟩
  case peek =>
    refine each (fun s => .peek (fieldAt s (src s a))) hu (by simp [Use.regs]) (exec_peek ..) fun hp => ?_
    simp only [hu.src hm (r := a) (by simp [Use.regs]), fieldAt_eq hm hu.ctx hp, va]
  case sense =>
    refine each (fun s => .sense (fieldAt s (src s a)) ((src s b).setWidth 16)) hu (by simp [Use.regs]) (exec_sense ..) fun hp => ?_
    simp only [hu.src hm (r := a) (by simp [Use.regs]), hu.src hm (r := b) (by simp [Use.regs]), fieldAt_eq hm hu.ctx hp, va]

end Sys2Proof.Machine

/-! What the events of trail fields, of the clock and of Trailhead ports do (O56). -/

namespace Sys2Proof.Machine

/-! ## The field of an event -/

/-- The field that an event names. -/
abbrev argField (s : State) : Field := getField s s.arg.slot s.arg.idx

/-- The field that an event names becomes `g`. -/
def putField (s : State) (g : Field) : State := modField s s.arg.slot s.arg.idx fun _ => g

@[simp] theorem getField_putField (s : State) (g : Field) : getField (putField s g) s.arg.slot s.arg.idx = g := getField_modField ..

theorem modField_putField (s : State) (g : Field) (h : Field → Field) :
    modField (putField s g) s.arg.slot s.arg.idx h = putField s (h g) := modField_modField ..

/-! ## Enabling (R147) -/

theorem enableField_refused {f : Field} {v : Word} (he : f.en = false) (hg : f.enabling = false) (hr : enableRefused f v = true) :
    enableField f v = { f with err := true } := by
  simp only [enableField, he, hg, hr, Bool.or_self, Bool.false_eq_true, if_false, if_true]

theorem enableField_starts {f : Field} {v : Word} (he : f.en = false) (hg : f.enabling = false) (hr : enableRefused f v = false) :
    enableField f v = { f with src := v.getLsbD 62, num := v.extractLsb' 48 4, tick := v.extractLsb' 0 16, slices := [], err := false,
                               enabling := true, toEnable := List.range 128 } := by
  rw [enableField, if_neg (by simp [he, hg]), if_neg (by simp [hr])]
  rfl

theorem trailEnable_one {s : State} (h : s.arg.v.getLsbD 63 = true) :
    exec .trailEnable s = .next (putField s (enableField (argField s) s.arg.v)) := by
  have h : bit 63 s.arg.v = true := h
  simp only [exec_trailEnable, execTrailEnable, writeTrail0, h, if_true]
  rfl

theorem sliceTickApply_enabling {s : State} (h : (argField s).enabling = true) :
    exec .sliceTickApply s = .next (putField s { argField s with toEnable := (argField s).toEnable.filter (· != s.arg.id) }) := by
  rw [exec_sliceTickApply, execSliceTickApply, modField_eq]
  exact congrArg (fun g => Host.Outcome.next (putField s g)) (if_pos h)

/-- The field once every slice holds its count: enabled, its pass begun or resumed (R147, R154). -/
def enabledField (s : State) (f : Field) : Field :=
  { f with en := true, enabling := false, unit := .idle, due := 0, nextDue := s.time.toNat + f.period.toNat, passOn := true,
           passStart := if f.resumes then f.passStart else f.tick, passPos := if f.resumes then f.passPos else 0 }

theorem trailEnableComplete_last {s : State} (hg : (argField s).enabling = true) (ht : (argField s).toEnable = [])
    (hd : (argField s).disabling = false) : exec .trailEnableComplete s = .next (putField s (enabledField s (argField s))) := by
  have hc : ((argField s).enabling && (argField s).toEnable.isEmpty) = true := by rw [hg, ht]; rfl
  have hs : (getField (putField s (enabledField s (argField s))) s.arg.slot s.arg.idx).disabling = false := by rw [getField_putField]; exact hd
  rw [exec_trailEnableComplete, execTrailEnableComplete]
  exact (if_pos hc).trans (congrArg _ (settleDisable_off hs))

/-! ## Disabling (R147, R166) -/

theorem Field.busy_eq_false {f : Field} (hu : f.unit = .idle) (hq : f.queue = []) (hd : f.due = 0) : f.busy = false := by
  simp [Field.busy, hu, hq, hd]

theorem Field.busy_of_queue {f : Field} (hq : f.queue ≠ []) : f.busy = true := by
  simp [Field.busy, hq]

section
variable {s : State} {t i : Nat}

/-- A disable waits for the tick requests that the field has accepted. -/
theorem settleDisable_busy (h : (getField s t i).busy = true) : settleDisable s t i = s := by
  simp only [settleDisable, h, Bool.not_true, Bool.and_false, Bool.false_and, Bool.false_eq_true, if_false]

/-- A disable takes effect once nothing that was accepted is left. -/
theorem settleDisable_ends (hd : (getField s t i).disabling = true) (he : (getField s t i).en = true) (hb : (getField s t i).busy = false)
    (hm : markPending s t i = false) : settleDisable s t i = modField s t i fun f => { f with en := false, disabling := false } := by
  simp only [settleDisable, hd, he, hb, hm, Bool.not_false, Bool.and_self, if_true]

end

theorem trailDisable_enabled {s : State} (he : (argField s).en = true) :
    exec .trailDisable s = .next (settleDisable (putField s { argField s with disabling := true }) s.arg.slot s.arg.idx) := by
  have h : ((argField s).en || (argField s).enabling) = true := by rw [he]; rfl
  rw [exec_trailDisable, execTrailDisable]
  exact congrArg _ (if_pos h)

theorem trailDisable_ends {s : State} (he : (argField s).en = true) (hu : (argField s).unit = .idle) (hq : (argField s).queue = [])
    (hd : (argField s).due = 0) (hm : markPending (putField s { argField s with disabling := true }) s.arg.slot s.arg.idx = false) :
    exec .trailDisable s = .next (putField s { argField s with en := false, disabling := false }) := by
  rw [trailDisable_enabled he, settleDisable_ends (by rw [getField_putField]) (by rw [getField_putField]; exact he)
    (by rw [getField_putField]; exact Field.busy_eq_false hu hq hd) hm, modField_putField]

theorem trailDisable_waits {s : State} (he : (argField s).en = true) (hq : (argField s).queue ≠ []) :
    exec .trailDisable s = .next (putField s { argField s with disabling := true }) := by
  rw [trailDisable_enabled he, settleDisable_busy (by rw [getField_putField]; exact Field.busy_of_queue hq)]

/-! ## Ticks (R152, R153, R157) -/

theorem timebaseTickDue_due {s : State} (he : (argField s).en = true) (hd : (argField s).disabling = false) (hs : (argField s).src = true)
    (ht : (argField s).nextDue ≤ s.time.toNat) :
    exec .timebaseTickDue s = .next (putField s
      { argField s with due := (argField s).due + 1, dueAt := if (argField s).due = 0 then (argField s).nextDue else (argField s).dueAt,
                        nextDue := (argField s).nextDue + (argField s).period.toNat,
                        unit := if (argField s).unit = .idle then .hold else (argField s).unit }) := by
  have h : ((argField s).open_ && (argField s).src && decide ((argField s).nextDue ≤ s.time.toNat)) = true := by
    simp [Field.open_, he, hd, hs, ht]
  rw [exec_timebaseTickDue, execTimebaseTickDue]
  exact congrArg _ (if_pos h)

theorem Field.held_iff (f : Field) : f.held = true ↔ (f.tick + 1 - f.passStart).toNat = 8192 := beq_iff_eq

/-- A unit that is not sending stays as it is while the scrubber holds the next count. -/
theorem tickUnitSend_held {s : State} (hu : (argField s).unit = .hold) (hh : ((argField s).tick + 1 - (argField s).passStart).toNat = 8192) :
    exec .tickUnitSend s = .next s := by
  have hh := (Field.held_iff _).2 hh
  simp only [exec_tickUnitSend, execTickUnitSend, hu, hh, Bool.or_true, Bool.true_or, if_true]

/-- A field whose unit leaves HOLD: with the first word that waits, else with a timebase tick (R153). -/
def sendingField (f : Field) : Field :=
  match f.queue with
  | id :: rest => { f with queue := rest, fromBase := false, unit := .ack (List.range 128) (some id) }
  | [] => { f with fromBase := true, unit := .ack (List.range 128) none }

theorem sendingField_word {f : Field} {id : Nat} {rest : List Nat} (h : f.queue = id :: rest) :
    sendingField f = { f with queue := rest, fromBase := false, unit := .ack (List.range 128) (some id) } := by
  unfold sendingField; rw [h]

theorem sendingField_base {f : Field} (h : f.queue = []) : sendingField f = { f with fromBase := true, unit := .ack (List.range 128) none } := by
  unfold sendingField; rw [h]

section
variable {s : State} (hu : (argField s).unit = .hold) (he : (argField s).en = true)
  (hh : ((argField s).tick + 1 - (argField s).passStart).toNat ≠ 8192)
include hu he hh

theorem tickUnitSend_leaves (hr : ¬ ((argField s).queue = [] ∧ (argField s).due = 0)) :
    exec .tickUnitSend s = .next (putField s (sendingField (argField s))) := by
  have hh : (argField s).held = false := Bool.eq_false_iff.2 fun h => hh ((Field.held_iff _).1 h)
  have hc : (!(argField s).en || (argField s).held || ((argField s).queue.isEmpty && (argField s).due = 0)) = false := by
    simpa [he, hh] using hr
  simp only [exec_tickUnitSend, execTickUnitSend, hu, hc, Bool.false_eq_true, if_false]
  split
  next id rest h => rw [sendingField_word h]; rfl
  next h => rw [sendingField_base h]; rfl

theorem tickUnitSend_word {id : Nat} {rest : List Nat} (hq : (argField s).queue = id :: rest) : exec .tickUnitSend s =
    .next (putField s { argField s with queue := rest, fromBase := false, unit := .ack (List.range 128) (some id) }) := by
  rw [tickUnitSend_leaves hu he hh (by simp [hq]), sendingField_word hq]

theorem tickUnitSend_base (hq : (argField s).queue = []) (hd : (argField s).due ≠ 0) :
    exec .tickUnitSend s = .next (putField s { argField s with fromBase := true, unit := .ack (List.range 128) none }) := by
  rw [tickUnitSend_leaves hu he hh fun h => hd h.2, sendingField_base hq]

end

theorem sliceTickApply_ticking {s : State} {acks : List Nat} {id : Option Nat} (hu : (argField s).unit = .ack acks id)
    (hg : (argField s).enabling = false) (hm : s.arg.id ∈ acks) :
    exec .sliceTickApply s =
      .next (putField s { argField s with slices := amSet (argField s).slices s.arg.id ((argField s).tick + 1) }) := by
  rw [exec_sliceTickApply, execSliceTickApply, modField_eq]
  refine congrArg (fun g => Host.Outcome.next (putField s g)) ((if_neg (by simp [hg])).trans ?_)
  split
  next acks' _ h =>
    cases hu.symm.trans h
    exact if_pos (List.contains_iff_mem.2 hm)
  next h => exact absurd hu (h _ _)

section
variable {s : State} {acks : List Nat} {r : Option Nat}

theorem tickAck_more (hu : (argField s).unit = .ack acks r) (hm : s.arg.id ∈ acks)
    (hs : amGet (argField s).slices s.arg.id = some ((argField s).tick + 1)) (hn : acks.filter (· != s.arg.id) ≠ []) :
    exec .tickAck s = .next (putField s { argField s with unit := .ack (acks.filter (· != s.arg.id)) r }) := by
  simp only [exec_tickAck, execTickAck, hu, hs, List.contains_iff_mem.2 hm, List.isEmpty_eq_false_iff.2 hn, decide_true, Bool.and_self,
    Bool.false_eq_true, if_false, if_true]
  rfl

theorem tickAck_last (hu : (argField s).unit = .ack acks r) (hm : s.arg.id ∈ acks)
    (hs : amGet (argField s).slices s.arg.id = some ((argField s).tick + 1)) (hn : acks.filter (· != s.arg.id) = []) :
    exec .tickAck s = .next (tickDone s s.arg.slot s.arg.idx (argField s) r) := by
  simp only [exec_tickAck, execTickAck, hu, hs, hn, List.contains_iff_mem.2 hm, List.isEmpty_nil, decide_true, Bool.and_self, if_true]

end

/-- A field whose tick of a word is done, with no request left. -/
def tickedField (f : Field) : Field := { f with tick := f.tick + 1, slices := [], unit := .idle }

/-- The last request of a word is answered: the count advances, and the context that waits for it goes on. -/
theorem tickDone_word {s : State} {f : Field} {id : Nat} {c : Ctx} (hb : f.fromBase = false) (hq : f.queue = []) (hd : f.due = 0)
    (hn : f.disabling = false) (hc : getCtx s id = some c) (hh : c.status = .held (.tick s.arg.idx)) :
    tickDone s s.arg.slot s.arg.idx f (some id) = rewake (setCtx (putField s (tickedField f)) id { c with status := .ready }) (coreOf id) := by
  have hc' : getCtx (putField s (tickedField f)) id = some c := hc
  have hw : wake (putField s (tickedField f)) id = setCtx (putField s (tickedField f)) id { c with status := .ready } := modCtx_some hc' _
  have hoff : (getField (rewake (wake (putField s (tickedField f)) id) (coreOf id)) s.arg.slot s.arg.idx).disabling = false := by
    rw [hw]
    exact (congrArg Field.disabling (getField_putField s (tickedField f))).trans hn
  rw [← hw]
  refine Eq.trans ?_ (settleDisable_off hoff)
  unfold tickDone
  extract_lets late due g u v
  have hg : g = tickedField f := by
    simp only [g, late, due, tickedField, hb, hq, hd, Bool.false_and, Bool.false_eq_true, if_false, List.isEmpty_nil,
      decide_true, Bool.and_self, if_true]
  have hv : v = rewake (wake (putField s (tickedField f)) id) (coreOf id) := by
    have hu : u = putField s (tickedField f) := by rw [← hg]; rfl
    simp only [v, hu, hc', hh, if_true]
  rw [hv]

theorem tickAck_word {s : State} {acks : List Nat} {id : Nat} {c : Ctx} (hu : (argField s).unit = .ack acks (some id)) (hm : s.arg.id ∈ acks)
    (hs : amGet (argField s).slices s.arg.id = some ((argField s).tick + 1)) (hn : acks.filter (· != s.arg.id) = [])
    (hb : (argField s).fromBase = false) (hq : (argField s).queue = []) (hd : (argField s).due = 0) (ho : (argField s).disabling = false)
    (hc : getCtx s id = some c) (hh : c.status = .held (.tick s.arg.idx)) :
    ∃ u, exec .tickAck s = .next u ∧ u.mem = s.mem ∧ getField u s.arg.slot s.arg.idx = tickedField (argField s) ∧
      getCtx u id = some { c with status := .ready } := by
  refine ⟨_, (tickAck_last hu hm hs hn).trans (congrArg _ (tickDone_word hb hq hd ho hc hh)), (rewake_only ..).mem, ?field, ?ctx⟩
  case field => exact getField_putField s (tickedField (argField s))
  case ctx => exact rewake_ready (by rw [getCtx_setCtx, if_pos rfl]) rfl

/-! ## The scrubber (R154 to R156) -/

section
variable {s : State} {a : Nat} {p : Page} {va : Word}

/-- A visit of the pass to a word of a page of the field that may be accessed: the word is refreshed if it is due, and the pass goes on. -/
theorem scrubberRefresh_visits {l : Loc} (he : (argField s).en = true)
    (hva : (argField s).base + BitVec.ofNat 64 (4 * (argField s).passPos) = va) (ht : translate s s.arg.slot va = (.ok p, s))
    (hp : scrubPage p s.arg.idx = true) (hl : p.loc va = l) (hr : homeReady s (dieHolding s l) l 4 none = true)
    (ho : overtakenOver s (dieHolding s l) l 4 = false) :
    exec .scrubberRefresh s = .next (modField (refreshWord s (argField s) l p) s.arg.slot s.arg.idx nextWord) := by
  have hva : (argField s).base + word (4 * (argField s).passPos) = va := hva
  simp only [exec_scrubberRefresh, execScrubberRefresh, he, hva, ht, hp, hl, hr, ho, Bool.not_true, Bool.or_self, Bool.false_eq_true, if_false]

/-- What refreshing a word in HBM leaves: the fields as they are, and in memory the word faded and stamped if it is due (R154, R155). -/
theorem refreshWord_hbm (f : Field) (hp : poisonedAt s (.hbm a) 4 = false) (hk : keyed s p.key a 4 = true) :
    let w : BitVec 32 := BitVec.ofNat 32 (leNat (memBytes s.mem a 4))
    let n := f.at_ (sliceOf (dieHolding s (.hbm a)) (.hbm a))
    (refreshWord s f (.hbm a) p).mem =
        (if 8192 ≤ markDue (w.extractLsb' 16 16) n then memPut s.mem a (leBytes 4 (markWord n (faded f.num.toNat n w)).toNat) else s.mem) ∧
      ∀ t i, getField (refreshWord s f (.hbm a) p) t i = getField s t i := by
  intro w n
  have hb : readHome s (.hbm a) 4 0 p = memBytes s.mem a 4 := hbmBytes_keyed hk
  have hl := leBytes_length 4 (markWord n (faded f.num.toNat n w)).toNat
  by_cases hd : 8192 ≤ markDue (w.extractLsb' 16 16) n
  · have hc := touchLine_rest false s (dieHolding s (.hbm a)) (.hbm a) p .amo 4
    have hw := writeHome_keyed (s := touchLine false s (dieHolding s (.hbm a)) (.hbm a) p .amo 4) (p := p) (a := a)
      (bs := leBytes 4 (markWord n (faded f.num.toNat n w)).toNat) (by rw [hl]; exact (OnlyCounts.keyed hc ..).trans hk)
    have hx : refreshWord s f (.hbm a) p = writeHome (touchLine false s (dieHolding s (.hbm a)) (.hbm a) p .amo 4) (.hbm a)
        (leBytes 4 (markWord n (faded f.num.toNat n w)).toNat) p := by
      simp only [refreshWord, hb, hp]
      exact if_pos (by simpa using hd)
    rw [hx, hw, if_pos hd]
    exact ⟨congrArg (memPut · a _) (OnlyCounts.mem hc), fun t i => getField_touchLine ..⟩
  · have hx : refreshWord s f (.hbm a) p = touchLine false s (dieHolding s (.hbm a)) (.hbm a) p .read 4 := by
      simp only [refreshWord, hb, hp]
      exact if_neg (by simpa using hd)
    rw [hx, if_neg hd]
    exact ⟨OnlyCounts.mem (touchLine_rest ..), fun t i => getField_touchLine ..⟩

end

/-! ## Frames that arrive (R362 to R364, R367) -/

/-- The port that an event names. -/
abbrev argPort (s : State) : Port := portAt s s.arg.unit

/-- The port that an event names becomes `q`. -/
def putPort (s : State) (q : Port) : State := modPort s s.arg.unit fun _ => q

theorem frameArrive_frozen {s : State} (hu : s.arg.unit < 2) (hf : s.frozen = true) :
    exec .frameArrive s = .next (putPort s { argPort s with bad := (argPort s).bad + 1 }) := by
  rw [exec_frameArrive, execFrameArrive, if_neg (Nat.not_le.2 hu), modPort_eq]
  exact congrArg (fun q => Host.Outcome.next (putPort s q)) (if_pos hf)

theorem frameArrive_taken {s : State} (hu : s.arg.unit < 2) (hf : s.frozen = false) :
    exec .frameArrive s =
      .next (putPort s (takeFrame (argPort s) s.arg.bytes s.arg.flag (s.time - BitVec.ofNat 64 s.arg.num))) := by
  rw [exec_frameArrive, execFrameArrive, if_neg (Nat.not_le.2 hu), modPort_eq]
  exact congrArg (fun q => Host.Outcome.next (putPort s q)) (if_neg (by simp [hf]))

section
variable {q : Port} {bs : List Byte} {good : Bool} {stamp : Word}

/-- A frame that an enabled port counts as bad (R362). -/
theorem takeFrame_bad (he : q.en = true) (hb : good = false ∨ q.maxlen.toNat < bs.length ∨ bs.length < 60) :
    takeFrame q bs good stamp = { q with bad := q.bad + 1 } := by
  rw [takeFrame, if_neg (by simp [he]), if_pos (by simpa [or_assoc] using hb)]

variable (he : q.en = true) (hg : good = true) (hmax : bs.length ≤ q.maxlen.toNat) (hmin : 60 ≤ bs.length)
include he hg hmax hmin

theorem takeFrame_unmatched (hc : classify q bs = none) : takeFrame q bs good stamp = { q with noMatch := q.noMatch + 1 } := by
  rw [takeFrame, if_neg (by simp [he]), if_neg (by simp [hg]; omega), hc]

/-- A frame of a flow enters the staging buffer with the flow's next number, while the buffer has room (R364, R365). -/
theorem takeFrame_staged {i : Nat} (hc : classify q bs = some i) (hroom : staged q + bs.length ≤ 2 ^ 20) :
    let x : Flow := amGetD {} q.flows i
    takeFrame q bs good stamp =
      { q with staging := q.staging ++ [{ flow := i, t := x.seq, stamp := stamp, drop := x.drop, bytes := bs }],
               flows := amSet q.flows i { x with seq := x.seq + 1 } } := by
  intro x
  rw [takeFrame, if_neg (by simp [he]), if_neg (by simp [hg]; omega), hc]
  exact if_neg (Nat.not_lt.2 hroom)

theorem takeFrame_overflow {i : Nat} (hc : classify q bs = some i) (hroom : 2 ^ 20 < staged q + bs.length) :
    let x : Flow := amGetD {} q.flows i
    takeFrame q bs good stamp = { q with flows := amSet q.flows i { x with drop := x.drop + 1 } } := by
  intro x
  rw [takeFrame, if_neg (by simp [he]), if_neg (by simp [hg]; omega), hc]
  exact if_pos hroom

end

/-! ## Frames that are delivered (R365) -/

/-- The first frame of a flow that waits for no fault is delivered. -/
theorem trailheadFrameDeliver_only {s : State} {fr : Frame} (hq : (argPort s).staging = [fr]) (hi : fr.flow = s.arg.idx)
    (ht : fr.token = none) : exec .trailheadFrameDeliver s = .next (deliverFrame s s.arg.unit s.arg.idx fr) := by
  simp [exec_trailheadFrameDeliver, execTrailheadFrameDeliver, hq, hi, ht]

/-- The frame `fr` of the flow `x` of port `n` can be delivered for the tenant of slot `t`: the flow's stream, on `page` with the descriptor
`d`, has room, and it may be accessed, as may the frame's slot, on the pages `ps`, and the element for it, on `ep`. -/
structure CanDeliver (s : State) (n : Nat) (fr : Frame) (t : Nat) (x : Flow) (page : Page) (d : Desc) (slot : Word) (ps : List Page)
    (ep : Page) : Prop where
  tenant : slotOfVmid s x.vmid = some t
  stream : translate s t x.stream = (.ok page, s)
  streamOk : elemOk page = true
  aligned : x.stream.toNat % 64 = 0
  mayStream : mayAccess s (dieOfLoc (page.loc x.stream)) (page.loc x.stream) page 192 none true = true
  turn : pushWaits s (page.loc x.stream) = false
  desc : readDesc s page x.stream = d
  room : (d.tail - d.head).toNat < d.n
  slotAt : x.buf + BitVec.ofNat 64 (slotBytes (portAt s n) * (fr.t.toNat % (2 * d.n))) = slot
  slotPages : walkPieces t true (rangePieces slot (slotContent n fr).length) [] s = (.ok ps, s)
  maySlot : (slotLines s x.vmid ps slot (slotContent n fr).length).all (fun (_, p, l) => mayAccess s (dieOfLoc l) l p 64 none true) = true
  elem : translate s t (d.elem d.tail) = (.ok ep, s)
  elemOk : Machine.elemOk ep = true
  mayElem : mayAccess s (dieOfLoc (ep.loc (d.elem d.tail))) (ep.loc (d.elem d.tail)) ep 8 none true = true

/-- The stream of a flow with an element for the slot at its tail, and the tail past it (R365). -/
def pushElem (v : State) (x : Flow) (page : Page) (d : Desc) (slot : Word) (ep : Page) : State :=
  let v := touch v (dieOfLoc (page.loc x.stream)) (page.loc x.stream) page .write 64
  let l := ep.loc (d.elem d.tail)
  let v := writeHome (touch v (dieOfLoc l) l ep .write 8) l (leBytes 8 slot.toNat) ep
  writeHome (unpoison v l 8) (page.loc (x.stream + 0x80)) (leBytes 8 (d.tail + 1).toNat) page

section
variable {s v : State} {n t : Nat} {fr : Frame} {x : Flow} {page ep : Page} {d : Desc} {slot : Word} {ps : List Page}

/-- A frame of a flow without an entry that can be delivered: its slot is written, its element pushed, and it leaves the buffer. -/
theorem deliverFrame_can {i : Nat} (hx : amGetD {} (portAt s n).flows i = x) (h : CanDeliver s n fr t x page d slot ps ep) (h0 : x.entry = 0) :
    deliverFrame s n i fr =
      modPort (pushElem (putBytes t x.vmid ps slot (slotContent n fr) s) x page d slot ep) n fun q => popFrame q i := by
  have hshape : (!elemOk page || fld 0 6 x.stream != 0) = false := by simp [h.streamOk, fld_low6, h.aligned]
  have hstream : (!mayAccess s (dieOfLoc (page.loc x.stream)) (page.loc x.stream) page 192 none true || pushWaits s (page.loc x.stream) ||
      decide (d.n ≤ (d.tail - d.head).toNat)) = false := by
    rw [h.mayStream, h.turn, decide_eq_false (Nat.not_le.2 h.room)]; rfl
  have hslot : x.buf + word (slotBytes (portAt s n) * (fr.t.toNat % (2 * d.n))) = slot := h.slotAt
  simp only [deliverFrame, hx, h.tenant, h.stream, hshape, h.desc, hstream, hslot, h.slotPages, h.elem, h.elemOk, h.maySlot, h.mayElem,
    frameArrival, h0, Bool.not_true, Bool.or_self, Bool.false_eq_true, if_false, if_true]
  rfl

theorem writeHome_stored {a : Nat} {p : Page} {bs : List Byte} (h : keyed s p.key a bs.length = true) :
    OnlyStored s (writeHome s (.hbm a) bs p) (memPut s.mem a bs) := by
  unfold OnlyStored
  rw [writeHome_keyed h]

theorem unpoison_stored (s : State) (a n : Nat) : OnlyStored s (unpoison s (.hbm a) n) s.mem := rfl

theorem OnlyStored.portAt {m : Memory} (h : OnlyStored s v m) (n : Nat) : Machine.portAt v n = Machine.portAt s n := by rw [h]; rfl

/-- An element pushed on a stream in HBM: the slot's address and the tail are stored, and nothing else. -/
theorem pushElem_stored {e a : Nat} (he : ep.loc (d.elem d.tail) = .hbm e) (ha : page.loc (x.stream + 0x80) = .hbm a)
    (hke : keyed v ep.key e 8 = true) (hka : keyed v page.key a 8 = true) :
    OnlyStored v (pushElem v x page d slot ep) (memPut (memPut v.mem e (leBytes 8 slot.toNat)) a (leBytes 8 (d.tail + 1).toNat)) := by
  have hl : ∀ y, (leBytes 8 y).length = 8 := leBytes_length 8
  unfold pushElem
  rw [he, ha]
  extract_lets v₁ l v₂
  have h₁ : OnlyCounts v (touch v₁ (dieOfLoc (.hbm e)) (.hbm e) ep .write 8) := (touch_counts ..).trans (touch_counts ..)
  have h₂ : OnlyStored v v₂ (memPut v.mem e (leBytes 8 slot.toNat)) := by
    have hw := writeHome_stored (bs := leBytes 8 slot.toNat) (by rw [hl]; exact (h₁.keyed ..).trans hke)
    exact h₁.stored.trans (h₁.mem ▸ hw)
  have h₃ : OnlyStored v (unpoison v₂ (.hbm e) 8) (memPut v.mem e (leBytes 8 slot.toNat)) := h₂.trans (h₂.mem ▸ unpoison_stored v₂ e 8)
  have hw := writeHome_stored (bs := leBytes 8 (d.tail + 1).toNat) (by rw [hl]; exact (h₃.keyed ..).trans hka)
  exact h₃.trans (h₃.mem ▸ hw)

end

theorem popFrame_only {q : Port} {fr : Frame} (hq : q.staging = [fr]) : (popFrame q fr.flow).staging = [] := by
  simp [popFrame, hq]

/-- The frame of a flow without an entry, alone in its buffer, is delivered (R365). -/
theorem trailheadFrameDeliver_pushes {s v : State} {fr : Frame} {t e a : Nat} {x : Flow} {page ep : Page} {d : Desc} {slot : Word}
    {ps : List Page} (hq : (argPort s).staging = [fr]) (hi : fr.flow = s.arg.idx) (ht : fr.token = none)
    (hx : amGetD {} (argPort s).flows s.arg.idx = x) (h0 : x.entry = 0) (h : CanDeliver s s.arg.unit fr t x page d slot ps ep)
    (hv : putBytes t x.vmid ps slot (slotContent s.arg.unit fr) s = v) (he : ep.loc (d.elem d.tail) = .hbm e)
    (ha : page.loc (x.stream + 0x80) = .hbm a) (hke : keyed v ep.key e 8 = true) (hka : keyed v page.key a 8 = true)
    (hstays : (portAt v s.arg.unit).staging = [fr]) :
    ∃ u, exec .trailheadFrameDeliver s = .next u ∧ (portAt u s.arg.unit).staging = [] ∧
      u.mem = memPut (memPut v.mem e (leBytes 8 slot.toNat)) a (leBytes 8 (d.tail + 1).toNat) := by
  have hp := pushElem_stored (x := x) (slot := slot) he ha hke hka
  have hd := deliverFrame_can hx h h0
  rw [hv] at hd
  refine ⟨_, (trailheadFrameDeliver_only hq hi ht).trans (congrArg _ hd), ?staging, (modPort_mem ..).trans hp.mem⟩
  case staging =>
    rw [portAt_modPort, ← hi]
    exact popFrame_only ((congrArg Port.staging (hp.portAt _)).trans hstays)

/-! ## Flows (R363) -/

/-- The flow that an event names. -/
abbrev argFlow (s : State) : Flow := amGetD {} (argPort s).flows s.arg.idx

/-- The flow that an event names becomes `x`. -/
def putFlow (s : State) (x : Flow) : State := putPort s { argPort s with flows := amSet (argPort s).flows s.arg.idx x }

/-- The fields that word 0 of a flow gives it while it is disabled. -/
def flowWord (x : Flow) (v : Word) : Flow :=
  { x with prio := v.extractLsb' 48 5, vmid := v.extractLsb' 32 16, alloc := v.extractLsb' 24 4, off := v.extractLsb' 0 6 }

section
variable {s : State} (hu : s.arg.unit < 2) (h1 : 1 ≤ s.arg.idx) (h255 : s.arg.idx ≤ 255)
include hu h1 h255

/-- A word written to word 0 of a flow. -/
theorem flowEnable_writes : exec .flowEnable s = .next (putFlow s
    (if (argFlow s).en then { argFlow s with en := s.arg.v.getLsbD 63 }
     else { flowWord (argFlow s) s.arg.v with en := s.arg.v.getLsbD 63 && flowOk s s.arg.unit (flowWord (argFlow s) s.arg.v) })) := by
  have h : (decide (s.arg.unit < 2) && decide (1 ≤ s.arg.idx) && decide (s.arg.idx ≤ 255)) = true := by simp [hu, h1, h255]
  rw [exec_flowEnable, execFlowEnable, if_pos h, writeFlow0, modPort_eq]
  rfl

theorem flowEnable_enabled (he : (argFlow s).en = true) :
    exec .flowEnable s = .next (putFlow s { argFlow s with en := s.arg.v.getLsbD 63 }) := by
  rw [flowEnable_writes hu h1 h255, if_pos he]

theorem flowEnable_stores (he : (argFlow s).en = false) (hv : s.arg.v.getLsbD 63 = false) :
    exec .flowEnable s = .next (putFlow s (flowWord (argFlow s) s.arg.v)) := by
  have hw : flowWord (argFlow s) s.arg.v = { flowWord (argFlow s) s.arg.v with en := false } := by rw [← he]; rfl
  rw [flowEnable_writes hu h1 h255, if_neg (by simp [he]), hv, Bool.false_and, ← hw]

theorem flowEnable_enables (he : (argFlow s).en = false) (hv : s.arg.v.getLsbD 63 = true) :
    exec .flowEnable s =
      .next (putFlow s { flowWord (argFlow s) s.arg.v with en := flowOk s s.arg.unit (flowWord (argFlow s) s.arg.v) }) := by
  rw [flowEnable_writes hu h1 h255, if_neg (by simp [he]), hv, Bool.true_and]

end

/-- Settles O56: each event by the rule of what it does, in the order of the statement. -/
theorem trailEvents : Obligations.TrailEvents := by
  intro s t i f sets
  refine ⟨fun h he hg => ⟨fun hr => ?refused, fun hr => ?starts⟩, sliceTickApply_enabling, trailEnableComplete_last,
    trailDisable_ends, trailDisable_waits, timebaseTickDue_due, fun hu he hh => ⟨fun id rest => tickUnitSend_word hu he hh,
    tickUnitSend_base hu he hh⟩, tickUnitSend_held, fun acks id => sliceTickApply_ticking,
    fun acks r hu hm hs => ⟨tickAck_more hu hm hs, fun id c hn hr => tickAck_word (hr ▸ hu) hm hs hn⟩, ?scrubber, exec_ptpClockStep s,
    ⟨frameArrive_frozen, fun hu hf he => ⟨fun hb => ?bad, fun hg hmax hmin => ⟨fun hc => ?unmatched,
      fun j hc => ⟨fun hroom => ?staged, fun hroom => ?overflow⟩⟩⟩, ?delivered⟩,
    fun hu h1 h255 => ⟨flowEnable_enabled hu h1 h255, flowEnable_stores hu h1 h255, flowEnable_enables hu h1 h255⟩⟩
  case refused => rw [trailEnable_one h, enableField_refused he hg hr]; rfl
  case starts => rw [trailEnable_one h, enableField_starts he hg hr]; rfl
  case scrubber =>
    intro p a he va ht hp hl hr ho hx hk w n next
    obtain ⟨hmem, hfield⟩ := refreshWord_hbm f hx hk
    exact ⟨_, scrubberRefresh_visits he rfl ht hp hl hr ho, (getField_modField ..).trans (congrArg nextWord (hfield ..)), hmem⟩
  case bad => rw [frameArrive_taken hu hf, takeFrame_bad he hb]; rfl
  case unmatched => rw [frameArrive_taken hu hf, takeFrame_unmatched he hg hmax hmin hc]; rfl
  case staged => rw [frameArrive_taken hu hf, takeFrame_staged he hg hmax hmin hc hroom]; rfl
  case overflow => rw [frameArrive_taken hu hf, takeFrame_overflow he hg hmax hmin hc hroom]; rfl
  case delivered =>
    intro fr ts page ep ps a e hq hi ht x d slot el h0 htenant hstream hok halign hmay hturn hroom hps hep hepOk hslot hmayElem v
    exact trailheadFrameDeliver_pushes hq hi ht rfl h0
      ⟨htenant, hstream, hok, halign, hmay, hturn, rfl, hroom, rfl, hps, hslot, hep, hepOk, hmayElem⟩ rfl

end Sys2Proof.Machine

/-! What a special function does (O23). -/

namespace Sys2Proof.Machine

/-- Settles O23: the eight words are one, over the number of their function. -/
theorem specialFunctions : Obligations.SpecialFunctions := by
  intro s c w d a hu unit was goes
  have each : ∀ (fn : Nat) (j : Instr), exec j s = sfuWord fn w d a s → goes fn j := by
    intro fn j hj
    obtain ⟨takes, parks⟩ := sfu_law (fn := fn) rfl rfl rfl hu
    exact ⟨fun hfree => Does.of hj (takes hfree), fun hfull => hj.trans (parks hfull)⟩
  exact ⟨each _ _ (exec_sfuExp2 ..), each _ _ (exec_sfuLog2 ..), each _ _ (exec_sfuRcp ..), each _ _ (exec_sfuRsq ..),
    each _ _ (exec_sfuSin ..), each _ _ (exec_sfuCos ..), each _ _ (exec_sfuTanh ..), each _ _ (exec_sfuSigm ..)⟩

end Sys2Proof.Machine

/-! What the units of a core do by themselves (O53). -/

namespace Sys2Proof.Machine

/-- The octet that an event names. -/
abbrev argOctet (s : State) : Octet := amGetD {} s.octets s.arg.unit

/-- The core that an event names. -/
abbrev argCore (s : State) : Core := getCore s s.arg.unit

/-! ## The special function unit (R186) -/

theorem findSome_range {β : Type} {f : Nat → Option β} {y : β} {j n : Nat} (hj : j < n) (hy : f j = some y) (hb : ∀ i < j, f i = none) :
    (List.range n).findSome? f = some y := by
  obtain ⟨m, rfl⟩ : ∃ m, n = j + 1 + m := ⟨n - (j + 1), by omega⟩
  refine List.findSome?_eq_some_iff.2 ⟨List.range j, j, (List.range m).map (j + 1 + ·), ?_, hy, fun i hi => hb i (List.mem_range.1 hi)⟩
  rw [List.range_add, List.range_succ, List.append_assoc]
  rfl

section
variable {s : State}

/-- The position that the unit of the event's octet looks at after `i` others. -/
def sfuTurn (s : State) (i : Nat) : Nat := ((argOctet s).last + 1 + i) % 8

/-- The oldest waiting request of a position. -/
def sfuWaiting (s : State) (p : Nat) : Option SfuReq := (argOctet s).reqs.find? fun r => !r.accepted && coreOf r.ctx % 8 == p

/-- The octet once its unit has taken the request `id` of a position. -/
def sfuServed (s : State) (p id : Nat) : Octet :=
  { last := p, reqs := (argOctet s).reqs.map fun x => if x.id = id then { x with accepted := true } else x }

/-- What the unit finds as it looks at the positions in turn: the position and the request that it takes. -/
def sfuFound (s : State) : Option (Nat × Nat) := (roundRobin (argOctet s).last).findSome? fun p => (sfuWaiting s p).map fun r => (p, r.id)

theorem sfuWaiting_none {p : Nat} (h : ∀ x ∈ (argOctet s).reqs, x.accepted = false → coreOf x.ctx % 8 ≠ p) : sfuWaiting s p = none :=
  List.find?_eq_none.2 fun x hx => by simpa using h x hx

theorem sfuFound_turn {j : Nat} {r : SfuReq} (hj : j < 8) (hbefore : ∀ i < j, sfuWaiting s (sfuTurn s i) = none)
    (hr : sfuWaiting s (sfuTurn s j) = some r) : sfuFound s = some (sfuTurn s j, r.id) := by
  rw [sfuFound, roundRobin, List.findSome?_map]
  exact findSome_range hj (congrArg (Option.map _) hr) fun i hi => congrArg (Option.map _) (hbefore i hi)

theorem sfuAccept_found {p i : Nat} (hrow : coreStopped s (8 * s.arg.unit) = false ∨ (getRow s (s.arg.unit / 2)).point ≠ 0)
    (h : sfuFound s = some (p, i)) : exec .sfuAccept s = .next { s with octets := amSet s.octets s.arg.unit (sfuServed s p i) } := by
  have hgo : (coreStopped s (8 * s.arg.unit) && decide ((getRow s (s.arg.unit / 2)).point = 0)) = false := by
    rcases hrow with h | h <;> simp [h]
  unfold sfuFound sfuWaiting at h
  simp only [exec_sfuAccept, execSfuAccept, hgo, Bool.false_eq_true, if_false, h, updWhere, beq_iff_eq]
  rfl

theorem sfuAccept_idle (h : ∀ x ∈ (argOctet s).reqs, x.accepted = true) : exec .sfuAccept s = .next s := by
  have hnone : sfuFound s = none :=
    List.findSome?_eq_none_iff.2 fun p _ => congrArg (Option.map _) (sfuWaiting_none fun x hx ha => absurd ha (by simp [h x hx]))
  unfold sfuFound sfuWaiting at hnone
  simp only [exec_sfuAccept, execSfuAccept, hnone, ite_self]

end

/-! ## The operand latch (R188, R213) -/

section
variable {s : State}

theorem latchRowArrive_empty (h : (argCore s).inbound = []) : exec .latchRowArrive s = .next (setCore s s.arg.unit (argCore s)) := by
  rw [exec_latchRowArrive, execLatchRowArrive, modCore, h]

theorem latchRowArrive_row {r : LatchRow} {rest : List LatchRow} (h : (argCore s).inbound = r :: rest) :
    exec .latchRowArrive s = .next (setCore s s.arg.unit
      (if (argCore s).latch.length < 128 then { argCore s with latch := (argCore s).latch ++ [r], inbound := rest } else argCore s)) := by
  rw [exec_latchRowArrive, execLatchRowArrive, modCore, h]

end
/-! ## The engine's choice (R258) -/

section
variable {s : State} {n : Nat} {k : Core} {m r : MCmd}

@[simp] theorem setBank_mq (k : Core) (b : Bool) (m : AMap (BitVec 32)) : (setBank k b m).mq = k.mq := by cases b <;> rfl

/-- The command once it has started or restarted, on the core `k`. -/
def startedCmd (k : Core) (m : MCmd) : MCmd :=
  { m with state := .running, frozen := m.eff, ctab := if m.state = .suspended then m.ctab else k.ctabBytes }

/-- The core `k` once the command has started or restarted: `Z` has cleared its bank. -/
def startedCore (k : Core) (m : MCmd) : Core :=
  { (if m.state ≠ .suspended ∧ m.z = true then setBank k m.bank [] else k) with
    mq := k.mq.map fun x => if x.id = m.id then startedCmd k m else x }

/-- The core `k` once the running command `r` is pre-empted. -/
def suspendedCore (k : Core) (r : MCmd) : Core :=
  { k with mq := k.mq.map fun x => if x.id = r.id then { x with state := .suspended, waited := 0 } else x }

/-- The running command `r` yields to `m`: it performs products, no row of its group is taken, no command is suspended, and its priority
at its start is below. -/
def Yields (k : Core) (r m : MCmd) : Prop :=
  (r.kind = .mma ∨ r.kind = .rot) ∧ r.got = [] ∧ (∀ x ∈ k.mq, x.state ≠ .suspended) ∧ r.frozen < m.eff

theorem mStart_eq (k : Core) (m : MCmd) : mStart k m = startedCore k m := by
  have hq : (if m.state ≠ .suspended ∧ m.z = true then setBank k m.bank [] else k).mq = k.mq := by split <;> simp
  simp only [mStart, startedCore, startedCmd, updWhere, beq_iff_eq, Bool.and_eq_true, bne_iff_ne, hq]

theorem yields_iff : ((decide (r.kind = .mma) || decide (r.kind = .rot)) && r.got.isEmpty && !(k.mq.any fun m => m.state == .suspended) &&
    decide (r.frozen < m.eff)) = true ↔ Yields k r m := by
  simp [Yields, and_assoc]

theorem mSchedule_none (h : mBest (mCandidates s (getCore s n)) = none) : mSchedule s n = s := by
  simp only [mSchedule, h]

theorem mSchedule_idle (h : mBest (mCandidates s (getCore s n)) = some m) (hr : ∀ x ∈ (getCore s n).mq, x.state ≠ .running) :
    mSchedule s n = setCore s n (startedCore (getCore s n) m) := by
  have hf : (getCore s n).mq.find? (fun x => x.state == .running) = none := List.find?_eq_none.2 fun x hx => by simpa using hr x hx
  simp only [mSchedule, h, hf, mStart_eq]

theorem mSchedule_yields (h : mBest (mCandidates s (getCore s n)) = some m)
    (hr : (getCore s n).mq.find? (fun x => x.state == .running) = some r) (hy : Yields (getCore s n) r m) :
    mSchedule s n = setCore s n (startedCore (suspendedCore (getCore s n) r) m) := by
  simp only [mSchedule, h, hr, yields_iff.2 hy, if_true, mStart_eq]
  simp only [suspendedCore, updWhere, beq_iff_eq]

theorem mSchedule_keeps (h : mBest (mCandidates s (getCore s n)) = some m)
    (hr : (getCore s n).mq.find? (fun x => x.state == .running) = some r) (hy : ¬ Yields (getCore s n) r m) : mSchedule s n = s := by
  simp only [mSchedule, h, hr, yields_iff, hy, if_false]

theorem growWaits_nil (q : List MCmd) : (q.map fun m => if m.state = .waiting || m.state = .suspended then
    { m with waited := max m.waited (amGetD 0 ([] : AMap Nat) m.id) } else m) = q := by
  refine (List.map_congr_left fun m _ => ?_).trans (List.map_id q)
  split
  · exact congrArg (fun w => { m with waited := w }) (Nat.max_zero _)
  · rfl

/-- Where no wait has grown, the engine's choice is made on the queue as it stands. -/
theorem matrixEngineSchedule_go (hs : coreStopped s s.arg.unit = false) (hp : s.arg.pairs = []) :
    exec .matrixEngineSchedule s = .next (mSchedule (setCore s s.arg.unit (argCore s)) s.arg.unit) := by
  have hv : modCore s s.arg.unit (fun k => { k with mq := k.mq.map fun m => if m.state = .waiting || m.state = .suspended then
      { m with waited := max m.waited (amGetD 0 s.arg.pairs m.id) } else m }) = setCore s s.arg.unit (argCore s) := by
    rw [hp, modCore]; simp only [growWaits_nil]
  rw [exec_matrixEngineSchedule, execMatrixEngineSchedule, hv, coreStopped_setCore _ _ _ rfl, hs]
  rfl

/-- The only command of a queue starts with the bank that `Z` cleared and the tables of its core. -/
theorem startedCore_only (hq : k.mq = [m]) (hw : m.state = .waiting) : startedCore k m =
    { (if m.z then setBank k m.bank [] else k) with mq := [{ m with state := .running, frozen := m.eff, ctab := k.ctabBytes }] } := by
  simp only [startedCore, startedCmd, hq, hw, List.map_cons, List.map_nil, ne_eq, reduceCtorEq, not_false_eq_true, true_and, if_true, if_false]

/-- The only command of a queue, not yet started, that waits for nothing, is the engine's choice. -/
theorem mBest_only (hq : k.mq = [m]) (hw : m.state = .waiting) (ha : m.after = [])
    (hp : purseEmpty s (((getCtx s m.ctx).map (·.tslot)).getD 0) = false) : mBest (mCandidates s k) = some m := by
  have hc : mCandidates s k = [m] := by simp [mCandidates, afterDone, hq, hw, ha, hp]
  rw [hc]; rfl

end
/-! ## A group of products (R251, R253, R254) -/

/-- Rows taken one after another, where none of them changes the scale line in force. -/
theorem foldl_scales {pair : Nat → List Byte → RowPair} {scale : Nat → Option (List Byte)} {sb : List Byte} {l : List Nat}
    (h : ∀ i ∈ l, (scale i).getD sb = sb) (acc : List RowPair) :
    l.foldl (fun (x : List RowPair × List Byte) i => (x.1 ++ [pair i ((scale i).getD x.2)], (scale i).getD x.2)) (acc, sb) =
      (acc ++ l.map fun i => pair i sb, sb) := by
  induction l generalizing acc with
  | nil => simp
  | cons i r ih =>
    rw [List.foldl_cons, h i List.mem_cons_self, ih fun j hj => h j (List.mem_cons_of_mem _ hj)]
    simp

/-- Rows taken one after another, of which only the first may bring a scale line. -/
theorem foldl_firstScale {pair : Nat → List Byte → RowPair} {scale : Nat → Option (List Byte)} {n : Nat}
    (h : ∀ i, 0 < i → i ≤ n → scale i = none) (first : List Byte) :
    (List.range (n + 1)).foldl (fun (x : List RowPair × List Byte) i => (x.1 ++ [pair i ((scale i).getD x.2)], (scale i).getD x.2)) ([], first) =
      ((List.range (n + 1)).map fun i => pair i ((scale 0).getD first), (scale 0).getD first) := by
  rw [List.range_succ_eq_map, List.foldl_cons, foldl_scales]
  · rfl
  · intro i hi
    obtain ⟨j, hj, rfl⟩ := List.mem_map.1 hi
    rw [h _ (Nat.succ_pos j) (List.mem_range.1 hj)]
    rfl

section
variable {s : State} {n : Nat} {k : Core} {m : MCmd}

theorem engineSp_sound (h : k.spPoison = []) (a n : Nat) : engineSp k a n = (memBytes k.sp a n, false) :=
  engineSp_clean (by simp [spPoisoned, h])

/-- Row `i` of the group of a command, of rows of `size` bytes from `base` up. -/
def groupRow (k : Core) (m : MCmd) (base size i : Nat) : List Byte := memBytes k.sp (base + size * (m.k + i)) size

/-- The A scale line of the group. -/
def groupScaleA (k : Core) (m : MCmd) : List Byte :=
  if isBD (fmtA m.mfmt) then memBytes k.sp (m.mscla.toNat + 2 * (m.k / 32 * 32)) 64 else []

/-- The B scale line in force for the group: read at every 32 rows, and kept between. -/
def groupScaleB (k : Core) (m : MCmd) : List Byte :=
  if isBD (fmtB m.mfmt) ∧ m.k % 32 = 0 then memBytes k.sp (m.msclb.toNat + 2 * m.k) 64 else m.bscale

/-- The eight row pairs of the group. -/
def groupPairs (k : Core) (m : MCmd) : List RowPair := (List.range 8).map fun i =>
  { a := groupRow k m m.a.toNat (rowBytes (fmtA m.mfmt)) i, sa := groupScaleA k m, b := groupRow k m m.b.toNat (rowBytes (fmtB m.mfmt)) i,
    sb := groupScaleB k m }

/-- The command once its group is performed. -/
def groupDone (k : Core) (m : MCmd) : MCmd :=
  { m with k := m.k + 8, bscale := groupScaleB k m, got := [], state := if m.depth ≤ m.k + 8 then .draining else .running }

/-- The core once the group is performed. -/
def groupCore (k : Core) (m : MCmd) : Core :=
  { setBank k m.bank (groupCells (fmtA m.mfmt) (fmtB m.mfmt) m.ctab (bankOf k m.bank) (groupPairs k m)) with
    mq := k.mq.map fun x => if x.id = m.id then groupDone k m else x }

/-- The scale line that comes with row `j` of B. -/
def rowScale (k : Core) (m : MCmd) (j : Nat) : Option (List Byte) :=
  if isBD (fmtB m.mfmt) && j % 32 == 0 then some (memBytes k.sp (m.msclb.toNat + 2 * j) 64) else none

theorem spRow_sound (h : k.spPoison = []) (m : MCmd) (i : Nat) :
    spRow k m (m.k + i) = { bytes := groupRow k m m.b.toNat (rowBytes (fmtB m.mfmt)) i, scale := rowScale k m (m.k + i) } := by
  simp only [spRow, engineSp_sound h, rowScale]
  rfl

/-- What the first row of a group leaves in force. -/
theorem rowScale_first (k : Core) (m : MCmd) : (rowScale k m (m.k + 0)).getD m.bscale = groupScaleB k m := by
  unfold rowScale groupScaleB
  by_cases h : isBD (fmtB m.mfmt) = true ∧ m.k % 32 = 0
  · simp [h]
  · rw [if_neg h, if_neg (by simpa using h)]; rfl

/-- Only the first row of a group may bring a scale line. -/
theorem rowScale_later (h8 : m.k % 8 = 0) {i : Nat} (hi : 0 < i) (hi7 : i ≤ 7) : rowScale k m (m.k + i) = none := by
  have : ¬ (m.k + i) % 32 = 0 := by omega
  simp [rowScale, this]

/-- The pair of row `i` of A and a row of B, with the scale lines in force. -/
def rowPair (k : Core) (m : MCmd) (r : LatchRow) (i : Nat) (sb : List Byte) : RowPair :=
  { a := groupRow k m m.a.toNat (rowBytes (fmtA m.mfmt)) i,
    sa := if isBD (fmtA m.mfmt) then memBytes k.sp (m.mscla.toNat + 2 * ((m.k + i) / 32 * 32)) 64 else [], b := r.bytes, sb := sb }

/-- The B rows of a group that lie in scratchpad, with the scale lines that come with them. -/
def spRows (k : Core) (m : MCmd) : List LatchRow := (List.range 8).map fun i =>
  { bytes := groupRow k m m.b.toNat (rowBytes (fmtB m.mfmt)) i, scale := rowScale k m (m.k + i) }

theorem spRows_eq (h : k.spPoison = []) (m : MCmd) : ((List.range 8).map fun i => spRow k m (m.k + i)) = spRows k m :=
  List.map_congr_left fun i _ => spRow_sound h m i

/-- A scale line is in force for every group after the first of a command's 32 rows. -/
theorem spRows_open (hb : isBD (fmtB m.mfmt) = true → m.k % 32 ≠ 0 → m.bscale ≠ []) :
    (isBD (fmtB m.mfmt) && m.bscale.isEmpty && ((spRows k m).headD ⟨[], none, 0⟩).scale.isNone) = false := by
  change (isBD (fmtB m.mfmt) && m.bscale.isEmpty && (rowScale k m (m.k + 0)).isNone) = false
  unfold rowScale
  by_cases h : isBD (fmtB m.mfmt) = true <;> by_cases h32 : m.k % 32 = 0 <;> simp [h, h32, hb]

/-- The rows of a group taken one after another: its pairs, and the scale line that stays in force. -/
theorem spRows_taken (h8 : m.k % 8 = 0) :
    ((spRows k m).zip (List.range 8)).foldl (fun (x : List RowPair × List Byte) y =>
      (x.1 ++ [rowPair k m y.1 y.2 (y.1.scale.getD x.2)], y.1.scale.getD x.2)) ([], m.bscale) = (groupPairs k m, groupScaleB k m) := by
  have hzip : (spRows k m).zip (List.range 8) = (List.range 8).map fun i => (⟨groupRow k m m.b.toNat (rowBytes (fmtB m.mfmt)) i,
      rowScale k m (m.k + i), 0⟩, i) := rfl
  rw [hzip, List.foldl_map]
  refine (foldl_firstScale (pair := fun i sb => rowPair k m ⟨groupRow k m m.b.toNat (rowBytes (fmtB m.mfmt)) i, rowScale k m (m.k + i), 0⟩ i sb)
    (scale := fun i => rowScale k m (m.k + i)) (fun i hi hi7 => rowScale_later h8 hi hi7) m.bscale).trans ?_
  rw [rowScale_first]
  refine congrArg (·, groupScaleB k m) (List.map_congr_left fun i hi => ?_)
  have hi := List.mem_range.1 hi
  rw [rowPair, show (m.k + i) / 32 * 32 = m.k / 32 * 32 by omega]
  rfl

theorem sumGroup_clean {rows : List LatchRow} {pairs : List RowPair} {sb : List Byte} (hp : (getCore s n).spPoison = [])
    (hopen : (isBD (fmtB m.mfmt) && m.bscale.isEmpty && (rows.headD ⟨[], none, 0⟩).scale.isNone) = false)
    (htaken : (rows.zip (List.range 8)).foldl (fun (x : List RowPair × List Byte) y =>
      (x.1 ++ [rowPair (getCore s n) m y.1 y.2 (y.1.scale.getD x.2)], y.1.scale.getD x.2)) ([], m.bscale) = (pairs, sb)) :
    sumGroup s n m rows = setCore s n
      { setBank (getCore s n) m.bank (groupCells (fmtA m.mfmt) (fmtB m.mfmt) m.ctab (bankOf (getCore s n) m.bank) pairs) with
        mq := (getCore s n).mq.map fun x => if x.id = m.id then
          { m with k := m.k + 8, bscale := sb, got := [], state := if m.depth ≤ m.k + 8 then .draining else .running } else x } := by
  have hfirst : (if m.bscale.isEmpty then [] else m.bscale) = m.bscale := by cases m.bscale <;> rfl
  have hsound : ∀ a j, spPoisoned (getCore s n) a j = false := fun a j => by simp [spPoisoned, hp]
  unfold rowPair groupRow at htaken
  unfold sumGroup
  simp only [hopen, engineSp_sound hp, hfirst, htaken, hsound, Bool.and_false, Bool.or_self, Bool.false_eq_true, if_false, setBank_mq, updWhere,
    beq_iff_eq]

theorem mmaGroup_rows (hk : m.kind = .mma) (hp : (getCore s n).spPoison = []) (h8 : m.k % 8 = 0)
    (hb : isBD (fmtB m.mfmt) = true → m.k % 32 ≠ 0 → m.bscale ≠ []) :
    Machine.mmaGroup s n m = setCore s n (groupCore (getCore s n) m) := by
  simp only [Machine.mmaGroup, hk, reduceCtorEq, if_false, spRows_eq hp]
  exact sumGroup_clean hp (spRows_open hb) (spRows_taken h8)

theorem mmaGroup_found (hs : coreStopped s s.arg.unit = false)
    (hf : (argCore s).mq.find? (fun x => x.state == .running && (x.kind == .mma || x.kind == .rot)) = some m) :
    exec .mmaGroup s = .next (Machine.mmaGroup s s.arg.unit m) := by
  simp only [exec_mmaGroup, execMmaGroup, hf, hs, Bool.false_eq_true, if_false]

end
/-! ## A command of the matrix engine ends, or moves its next line (R255, R257) -/

section
variable {s t u : State} {n : Nat} {m : MCmd}

theorem OnlyStored.unclaim {M : Memory} (h : OnlyStored s t M) (cmd : Nat) (l : Loc) : OnlyStored s (unclaimLine t cmd l) M := by
  unfold OnlyStored unclaimLine at *
  rw [h]

theorem SameButStatus.completed {a : Option Ctx} {c : Ctx} (h : SameButStatus a (some c)) : ∃ d, a = some d ∧ d.completed = c.completed := by
  cases a with
  | none => cases h
  | some d =>
    have h : some ({ d with status := .ready } : Ctx) = some { c with status := .ready } := h
    have h := congrArg Ctx.completed (Option.some.inj h)
    exact ⟨d, rfl, h⟩

/-- The package once the command has left the queue and its claims have ended. -/
def withoutCmd (s : State) (n : Nat) (m : MCmd) : State :=
  modCore (dropClaim s m.id) n fun k => { k with mq := k.mq.filter fun x => x.id != m.id }

/-- The command ends: it leaves the queue, its claims end, and where it was the last of its context, every committed batch has completed. -/
def CmdEnds (s : State) (n : Nat) (m : MCmd) : Prop :=
  ∃ t, exec .matrixCommandComplete s = .next t ∧ OnlyContexts (withoutCmd s n m) t ∧
    ∀ c, coreOf m.ctx = n → getCtx s m.ctx = some c → (∀ x ∈ (getCore s n).mq, x.ctx = m.ctx → x.id = m.id) →
      ∃ d, getCtx t m.ctx = some d ∧ d.completed = c.committed

theorem mFinish_only (s : State) (n : Nat) (m : MCmd) : OnlyContexts (withoutCmd s n m) (mFinish s n m) :=
  (modCtx_only _ m.ctx _).trans (settleWaits_only ..)

theorem getCore_withoutCmd (s : State) (n : Nat) (m : MCmd) :
    (getCore (withoutCmd s n m) n).mq = (getCore s n).mq.filter fun x => x.id != m.id := by
  rw [withoutCmd, getCore_modCore, if_pos rfl, getCore_dropClaim]

theorem getCtx_withoutCmd (s : State) (n : Nat) (m : MCmd) (id : Nat) : getCtx (withoutCmd s n m) id = getCtx s id := by
  rw [withoutCmd, getCtx_modCore _ _ _ rfl, getCtx, getCore_dropClaim]
  rfl

/-- A context without a command in the queue has completed what it committed (R189). -/
theorem refreshBatch_none {k : Core} {cid : Nat} {c : Ctx} (h : ∀ x ∈ k.mq, x.ctx ≠ cid) :
    refreshBatch k cid c = { c with completed := c.committed } := by
  have hf : (k.mq.find? fun m => m.ctx == cid && m.batch != nextBatch c.committed) = none :=
    List.find?_eq_none.2 fun x hx => by simp [h x hx]
  simp only [refreshBatch, hf]

theorem mFinish_completed {c : Ctx} (hc : getCtx s m.ctx = some c) (hlast : ∀ x ∈ (getCore s n).mq, x.ctx = m.ctx → x.id = m.id) :
    ∃ d, getCtx (mFinish s n m) m.ctx = some d ∧ d.completed = c.committed := by
  have hnone : ∀ x ∈ (getCore (withoutCmd s n m) n).mq, x.ctx ≠ m.ctx := by
    rw [getCore_withoutCmd]
    intro x hx hctx
    obtain ⟨hq, hid⟩ := List.mem_filter.1 hx
    exact absurd (hlast x hq hctx) (by simpa using hid)
  have hg : getCtx (modCtx (withoutCmd s n m) m.ctx fun c => refreshBatch (getCore (withoutCmd s n m) n) m.ctx c) m.ctx =
      some { c with completed := c.committed } := by
    rw [modCtx_some ((getCtx_withoutCmd ..).trans hc), getCtx_setCtx, if_pos rfl, refreshBatch_none hnone]
  obtain ⟨-, -, hsame, -⟩ := settleWaits_law (modCtx (withoutCmd s n m) m.ctx fun c => refreshBatch (getCore (withoutCmd s n m) n) m.ctx c) n
  have h := hsame m.ctx
  rw [hg] at h
  exact h.completed

theorem cmdEnds_of_finish (h : exec .matrixCommandComplete s = .next (mFinish s n m)) : CmdEnds s n m :=
  ⟨_, h, mFinish_only s n m, fun _ _ hc hlast => mFinish_completed hc hlast⟩

theorem matrixCommandComplete_found (hs : coreStopped s s.arg.unit = false)
    (hf : (argCore s).mq.find? (fun x => x.id == s.arg.id) = some m) :
    exec .matrixCommandComplete s = .next (matrixComplete s s.arg.unit m) := by
  simp only [exec_matrixCommandComplete, execMatrixCommandComplete, hf, hs, Bool.false_eq_true, if_false]

theorem matrixComplete_mma (hk : m.kind = .mma) : matrixComplete s n m = if m.state = .draining then mFinish s n m else s := by
  simp only [matrixComplete, hk]

theorem matrixComplete_rotRunning (hk : m.kind = .rot) (h : m.state ≠ .draining) : matrixComplete s n m = s := by
  simp only [matrixComplete, hk, bne_iff_ne.2 h, if_true]

theorem appendRow_nothing (h : (getCore s n).sending = none) : appendRow s n = s := by
  simp only [appendRow, h]

/-- An `mma.rot` ends once no row that it passes on is on its way. -/
theorem matrixComplete_rotOver (hk : m.kind = .rot) (h : m.state = .draining) (hs : (getCore s n).sending = none)
    (hi : ∀ r ∈ (getCore s (eastOf s n)).inbound, r.cmd ≠ m.id) : matrixComplete s n m = mFinish s n m := by
  have hway : ((getCore s (eastOf s n)).inbound.any fun r => r.cmd == m.id) = false :=
    List.any_eq_false.2 fun r hr => by simpa using hi r hr
  simp only [matrixComplete, hk, h, appendRow_nothing hs, hs, Option.toList_none, List.nil_append, hway, bne_self_eq_false, Bool.false_eq_true,
    if_false]

theorem matrixComplete_linesOver (hk : m.kind = .mstc ∨ m.kind = .mldc) (h : m.state = .running) (hl : 64 ≤ m.k) :
    matrixComplete s n m = mFinish s n m := by
  rcases hk with hk | hk <;> simp only [matrixComplete, hk, h, hl, bne_self_eq_false, Bool.false_eq_true, if_false, if_true]

theorem matrixComplete_mstc (hk : m.kind = .mstc) (h : m.state = .running) (hl : m.k < 64) : matrixComplete s n m = mstcLine s n m := by
  simp only [matrixComplete, hk, h, Nat.not_le.2 hl, bne_self_eq_false, Bool.false_eq_true, if_false]

theorem matrixComplete_mldc (hk : m.kind = .mldc) (h : m.state = .running) (hl : m.k < 64) : matrixComplete s n m = mldcLine s n m := by
  simp only [matrixComplete, hk, h, Nat.not_le.2 hl, bne_self_eq_false, Bool.false_eq_true, if_false]

/-- The address of the command's next line, and the page that holds it. -/
abbrev MCmd.lineVa (m : MCmd) : Word := bankLine m.a m.b m.k
abbrev MCmd.linePage (m : MCmd) : Page := m.pages.getD m.k (pageIn [] 0 m.lineVa)

/-- The queue with the command a line further. -/
def lineMoved (q : List MCmd) (m : MCmd) : List MCmd := q.map fun x => if x.id = m.id then { x with k := x.k + 1 } else x

theorem bankBytes_length (b : AMap (BitVec 32)) (j : Nat) : (bankBytes b j).length = 64 := by
  simp [bankBytes, leBytes_length]

theorem mstcLine_waits (h : claimDone s m.id = false) : mstcLine s n m = s := by
  simp only [mstcLine, h, Bool.not_false, if_true]

theorem mstcLine_moves {a : Nat} (hc : claimDone s m.id = true) (hl : m.linePage.loc m.lineVa = .hbm a)
    (hk : keyed s m.linePage.key a 64 = true)
    (hm : mayAccess s (dieOf n) (.hbm a) m.linePage 64 (some (matrixEngine n, m.id)) true = true) :
    OnlyStored (setCore s n { getCore s n with mq := lineMoved (getCore s n).mq m }) (mstcLine s n m)
      (memPut s.mem a (bankBytes (bankOf (getCore s n) m.bank) m.k)) := by
  have hw := engineWrite_law (s := s) (die := dieOf n) (t := ((getCtx s m.ctx).map (·.tslot)).getD 0) (cid := m.ctx) (cmd := m.id) hl
    (bs := bankBytes (bankOf (getCore s n) m.bank) m.k) (by rw [bankBytes_length]; exact hk)
  unfold mstcLine
  simp only [homePlace_hbm hl, hc, hm, Bool.not_true, Bool.false_eq_true, if_false, updWhere, beq_iff_eq]
  generalize engineWrite s _ _ _ _ _ _ _ _ = v at hw
  generalize (List.range 64).any _ = later
  have hu : OnlyStored s (if later then v else unclaimLine v m.id (.hbm a)) (memPut s.mem a (bankBytes (bankOf (getCore s n) m.bank) m.k)) := by
    split
    · exact hw
    · exact hw.unclaim ..
  generalize (if later then v else unclaimLine v m.id (.hbm a)) = w at hu
  rw [modCore, hu.getCore]
  exact hu.put ..

/-- The cells of a bank with line `j` as memory holds it. -/
def lineCells (s : State) (a j : Nat) (old : AMap (BitVec 32)) : AMap (BitVec 32) := packBank fun i =>
  if i / 16 = j then BitVec.ofNat 32 (leNat (memBytes s.mem (a + 4 * (i % 16)) 4)) else amGetD 0 old i

/-- Bytes of a run of bytes. -/
theorem memBytes_slice (M : Memory) (a : Nat) {n i j : Nat} (h : i + j ≤ n) : ((memBytes M a n).drop i).take j = memBytes M (a + i) j := by
  refine List.ext_getElem (by simp [memBytes]; omega) fun x h1 h2 => ?_
  simp [memBytes, Nat.add_assoc]

theorem mldcLine_moves {a : Nat} (hl : m.linePage.loc m.lineVa = .hbm a) (hk : keyed s m.linePage.key a 64 = true)
    (hp : poisonedAt s (.hbm a) 64 = false)
    (hr : engineReady s n m.linePage (.hbm a) 64 m.ctx (matrixEngine n) m.id = true) :
    OnlyCounts (setCore s n { setBank (getCore s n) m.bank (lineCells s a m.k (bankOf (getCore s n) m.bank)) with
      mq := lineMoved (getCore s n).mq m }) (mldcLine s n m) := by
  have hc := touch_counts s (dieOf n) (.hbm a) m.linePage .read 64
  unfold mldcLine
  simp only [homePlace_hbm hl, hr, Bool.not_true, Bool.false_eq_true, if_false, updWhere, beq_iff_eq]
  generalize touch s (dieOf n) (.hbm a) m.linePage .read 64 = v at hc
  have hdown : linkDown v (.hbm a) = false := rfl
  have hbad : poisonedAt v (.hbm a) 64 = false := (hc.poisonedAt ..).trans hp
  have hread : ∀ ext, readWide v (.hbm a) 64 ext m.linePage = memBytes s.mem a 64 := fun _ =>
    (hbmBytes_keyed ((hc.keyed ..).trans hk)).trans (by rw [hc.mem])
  have hcells : ∀ i, ((memBytes s.mem a 64).drop (4 * (i % 16))).take 4 = memBytes s.mem (a + 4 * (i % 16)) 4 := fun i =>
    memBytes_slice _ _ (by omega)
  simp only [hdown, hbad, Bool.or_self, Bool.false_eq_true, if_false, hread, hcells, modCore, hc.getCore, setBank_mq]
  exact hc.put ..

end
/-! ## A step of the vector unit (R236, R237) -/

section
variable {k : Core} {v : VCmd}

/-- The elements of the word's next step. -/
def stepElems (v : VCmd) : List Nat :=
  (List.range (min (vStepLen v.op v.f3) (v.len - v.step * vStepLen v.op v.f3))).map (· + v.step * vStepLen v.op v.f3)

/-- The block of the step. -/
def stepBlock (v : VCmd) : Nat := v.step * vStepLen v.op v.f3 / 32

/-- What the step computes, and the sources of its block that it keeps. -/
def stepResult (k : Core) (v : VCmd) : VStep × List Nat :=
  let bd := if v.f3 < 6 then bd8 else bd4
  if isBDEncode v.op v.f3 then vEncode k v bd (stepElems v) (v.step % 2 == 0) (stepBlock v) v.held
  else (if isBDForm v.op v.f3 then vDecode k v bd (stepElems v) (v.step % 2 == 0) (stepBlock v) else vPlain k v (stepElems v), [])

/-- The scratchpad after the step: the scale pair of a block that it encodes, and then the codes. -/
def stepMemory (k : Core) (v : VCmd) : Memory :=
  let r := (stepResult k v).1
  let paired := if isBDEncode v.op v.f3 ∧ v.step % 2 = 0 then memPut k.sp (v.b + 2 * stepBlock v) (leBytes 1 r.e0 ++ leBytes 1 r.e1) else k.sp
  memPut paired (vPlace (vArrays v.op v.f3).1 v.d (v.step * vStepLen v.op v.f3)) (vBytes (vArrays v.op v.f3).1 r.codes)

/-- The word after the step. -/
def stepNext (k : Core) (v : VCmd) : VCmd :=
  { v with step := v.step + 1, e0 := (stepResult k v).1.e0, e1 := (stepResult k v).1.e1, held := (stepResult k v).2 }

section
variable (hp : k.spPoison = [])
include hp

theorem spPoisoned_none (a n : Nat) : spPoisoned k a n = false := by simp [spPoisoned, hp]

theorem vElem_sound (e : Elem) (a i : Nat) : (vElem k e a i).2 = false := by
  cases e <;> exact spPoisoned_none hp ..

theorem vPlain_bad (v : VCmd) (es : List Nat) : (vPlain k v es).bad = [] := by
  rcases h : vArrays v.op v.f3 with ⟨kd, ka, kb⟩
  have hd : ∀ e, (if v.op = 0x43 then vElem k kd v.d e else (0, false)).2 = false := fun e => by
    split
    · exact vElem_sound hp ..
    · rfl
  cases kb <;>
    simp only [vPlain, h, vJoin, List.nil_append, List.filterMap_map, Function.comp_def, vElem_sound hp, hd, Bool.false_eq_true, if_false,
      List.filterMap_none]

theorem vDecode_bad (v : VCmd) (bd : BD) (es : List Nat) (first : Bool) (j : Nat) : (vDecode k v bd es first j).bad = [] := by
  simp [vDecode, vJoin, vElem_sound hp, List.filterMap_map, Function.comp_def]

theorem vEncode_bad (v : VCmd) (bd : BD) (es : List Nat) (first : Bool) (j : Nat) (held : List Nat) :
    (vEncode k v bd es first j held).1.bad = [] := by
  have hread : (List.range 32).filter (fun i => (((List.range 32).map fun i => vElem k .fp32 v.a (32 * j + i)).getD i (0, false)).2) = [] :=
    List.filter_eq_nil_iff.2 fun i hi => by simp [List.mem_range.1 hi, vElem_sound hp]
  simp only [vEncode, vJoin, hread, List.filterMap_map, Function.comp_def, List.filterMap_none, List.map_nil, ite_self, List.append_nil]

theorem stepResult_bad (v : VCmd) : (stepResult k v).1.bad = [] := by
  unfold stepResult
  dsimp only
  split
  · exact vEncode_bad hp ..
  · dsimp only
    split
    · exact vDecode_bad hp ..
    · exact vPlain_bad hp ..

end

theorem stepResult_pair (k : Core) (v : VCmd) : (stepResult k v).1.pair = (isBDEncode v.op v.f3 && v.step % 2 == 0) := by
  unfold stepResult
  dsimp only
  split
  · next h => rw [h]; rfl
  · next h =>
    rw [Bool.eq_false_iff.2 h]
    dsimp only
    split <;> rfl

theorem vectorStep_empty {s : State} {n : Nat} (h : (getCore s n).vq = []) : vectorStep n s = s := by
  simp only [vectorStep, h]

/-- What a step does to the package before the word may end. -/
def stepped (s : State) (n : Nat) (v : VCmd) (q : List VCmd) : State :=
  setFlags (stepResult (getCore s n) v).1.flags v.ctx (setCore s n { getCore s n with sp := stepMemory (getCore s n) v, vq := q })

/-- What the unit computes is what the model's own cases say. -/
theorem stepResult_cases (k : Core) (v : VCmd) :
    (if isBDEncode v.op v.f3 then vEncode k v (if v.f3 < 6 then bd8 else bd4) (stepElems v) (v.step % 2 == 0) (stepBlock v) v.held
    else if isBDForm v.op v.f3 then (vDecode k v (if v.f3 < 6 then bd8 else bd4) (stepElems v) (v.step % 2 == 0) (stepBlock v), [])
    else (vPlain k v (stepElems v), [])) = stepResult k v := by
  unfold stepResult
  dsimp only
  split
  · rfl
  · split <;> rfl

theorem vectorStep_clean {s : State} {n : Nat} {rest : List VCmd} (hq : (getCore s n).vq = v :: rest) (hp : (getCore s n).spPoison = []) :
    vectorStep n s =
      if v.len ≤ (v.step + 1) * vStepLen v.op v.f3 then rewake (wake (vAdvance (stepped s n v rest) v) v.ctx) n
      else stepped s n v (stepNext (getCore s n) v :: rest) := by
  have hbad := stepResult_bad hp v
  have hpair := stepResult_pair (getCore s n) v
  have hcases := stepResult_cases (getCore s n) v
  unfold stepElems stepBlock at hcases
  unfold stepped stepNext stepMemory
  simp only [vectorStep, hq, hcases, hbad, hpair, List.take_nil, List.nil_append]
  generalize stepResult (getCore s n) v = r
  have hpaired : ∀ a bs, (if (isBDEncode v.op v.f3 && v.step % 2 == 0) = true then unitWrite (getCore s n) a bs else (getCore s n, none)) =
      ({ getCore s n with sp := if isBDEncode v.op v.f3 ∧ v.step % 2 = 0 then memPut (getCore s n).sp a bs else (getCore s n).sp }, none) := by
    intro a bs
    by_cases h : isBDEncode v.op v.f3 = true ∧ v.step % 2 = 0
    · simp [h, unitWrite_clean hp]
    · rw [if_neg (by simpa using h), if_neg h]
  have hcodes : ∀ sp a bs, unitWrite { getCore s n with sp := sp } a bs = ({ getCore s n with sp := memPut sp a bs }, none) :=
    fun sp a bs => unitWrite_clean (k := { getCore s n with sp := sp }) hp a bs
  simp only [hpaired]
  simp only [hcodes, Option.toList_none, List.append_nil, List.foldl_nil, decide_eq_true_eq]
  by_cases h : v.len ≤ (v.step + 1) * vStepLen v.op v.f3
  · simp only [if_pos h]; rfl
  · simp only [if_neg h]; rfl

end

/-! ### The address registers after the last step -/

section
variable {s : State} {id : Nat} {c : Ctx}

theorem getCtx_writeReg (s : State) (id : Nat) (r : Reg) (v : Word) (j : Nat) : getCtx (writeReg s id r v) j = getCtx s j := by
  unfold writeReg putReg
  split
  · rfl
  · split
    · exact getCtx_modCore _ _ _ rfl _
    · rfl

theorem writeReg_only (s : State) (id : Nat) (r : Reg) (v : Word) : OnlyContexts s (writeReg s id r v) := by
  unfold writeReg putReg
  split
  · exact .refl s
  · split
    · refine ⟨rfl, fun j => ?_⟩
      rw [getCore_modCore]
      split
      · next h => rw [h]
      · rfl
    · exact .refl s

theorem readReg_writeReg (hc : getCtx s id = some c) (d : Reg) {r : Reg} (hr : r ≠ 0) (v : Word) :
    readReg (writeReg s id d v) id r = if r = d then v else readReg s id r := by
  by_cases hd : d = 0
  · subst hd
    rw [if_neg hr]
    rfl
  · have hg : getCtx (writeReg s id d v) id = some c := (getCtx_writeReg ..).trans hc
    have hinj : c.base + r.toNat = c.base + d.toNat ↔ r = d := by
      rw [Nat.add_left_cancel_iff]; exact BitVec.toNat_inj
    simp only [readReg, hg, hc, regEntry, if_neg hr]
    rw [writeReg_some hc hd, getCore_modCore, if_pos rfl, amGetD_amSet]
    split
    · next h => rw [if_pos (hinj.1 h)]
    · next h => rw [if_neg (mt hinj.2 h)]

/-- A register reads the same where its context keeps its run of registers and the register file is the same. -/
theorem readReg_congr {t : State} {d : Ctx} (hs : getCtx s id = some c) (ht : getCtx t id = some d) (hb : d.base = c.base)
    (hrf : (getCore t (coreOf id)).rf = (getCore s (coreOf id)).rf) (r : Reg) : readReg t id r = readReg s id r := by
  simp only [readReg, hs, ht, regEntry, hb, hrf]

/-- Registers advanced one after another. -/
def advanced (s : State) (id : Nat) (l : List (Reg × Nat)) : State :=
  l.foldl (fun s x => writeReg s id x.1 (readReg s id x.1 + word x.2)) s

theorem getCtx_advanced (l : List (Reg × Nat)) (s : State) (j : Nat) : getCtx (advanced s id l) j = getCtx s j := by
  induction l generalizing s with
  | nil => rfl
  | cons x r ih => exact (ih _).trans (getCtx_writeReg ..)

theorem advanced_only (l : List (Reg × Nat)) (s : State) : OnlyContexts s (advanced s id l) :=
  foldl_only _ (fun _ _ => writeReg_only ..) l s

/-- How far a list moves a register. -/
def moveOf (l : List (Reg × Nat)) (r : Reg) : Nat := ((l.find? fun x => x.1 == r).map (·.2)).getD 0

theorem readReg_advanced {l : List (Reg × Nat)} (hl : (l.map (·.1)).Nodup) (hc : getCtx s id = some c) {r : Reg} (hr : r ≠ 0) :
    readReg (advanced s id l) id r = readReg s id r + word (moveOf l r) := by
  induction l generalizing s with
  | nil => simp [advanced, moveOf, word]
  | cons x l ih =>
    obtain ⟨hx, hl⟩ := List.nodup_cons.1 hl
    have hmoved := readReg_writeReg hc x.1 hr (readReg s id x.1 + word x.2)
    refine (ih hl ((getCtx_writeReg ..).trans hc)).trans ?_
    rw [hmoved]
    by_cases h : r = x.1
    · subst h
      have hrest : moveOf l x.1 = 0 := by
        have : l.find? (fun y => y.1 == x.1) = none := List.find?_eq_none.2 fun y hy => by
          simpa using fun he : y.1 = x.1 => hx (List.mem_map.2 ⟨y, hy, he⟩)
        rw [moveOf, this]; rfl
      have hhead : moveOf (x :: l) x.1 = x.2 := by simp [moveOf]
      rw [if_pos rfl, hrest, hhead]
      exact BitVec.add_zero _
    · have hhead : moveOf (x :: l) r = moveOf l r := by simp [moveOf, Ne.symm h]
      rw [if_neg h, hhead]

/-- A member added unless one names its register already. -/
def addFirst (acc : List (Reg × Nat)) (x : Reg × Nat) : List (Reg × Nat) := if acc.any fun y => y.1 == x.1 then acc else acc ++ [x]

/-- The members of a list that are the first to name their register. -/
def firsts (l : List (Reg × Nat)) : List (Reg × Nat) := l.foldl addFirst []

theorem addFirst_nodup {acc : List (Reg × Nat)} (h : (acc.map (·.1)).Nodup) (x : Reg × Nat) : ((addFirst acc x).map (·.1)).Nodup := by
  unfold addFirst
  split
  · exact h
  · next hx =>
    have hnew : ∀ y ∈ acc, y.1 ≠ x.1 := fun y hy he => hx (List.any_eq_true.2 ⟨y, hy, beq_iff_eq.2 he⟩)
    simpa [List.nodup_append, h] using hnew

theorem addFirst_find (acc : List (Reg × Nat)) (x : Reg × Nat) (r : Reg) :
    (addFirst acc x).find? (fun y => y.1 == r) = (acc ++ [x]).find? (fun y => y.1 == r) := by
  unfold addFirst
  split
  · next hx =>
    rw [List.find?_append]
    by_cases h : x.1 = r
    · subst h
      cases hf : acc.find? fun y => y.1 == x.1 with
      | some y => rfl
      | none =>
        obtain ⟨y, hy, he⟩ := List.any_eq_true.1 hx
        exact absurd he (List.find?_eq_none.1 hf y hy)
    · simp [h]
  · rfl

theorem firsts_nodup (l : List (Reg × Nat)) : ((firsts l).map (·.1)).Nodup := by
  have h : ∀ acc : List (Reg × Nat), (acc.map (·.1)).Nodup → ((l.foldl addFirst acc).map (·.1)).Nodup := by
    induction l with
    | nil => exact fun _ h => h
    | cons x l ih => exact fun acc h => ih _ (addFirst_nodup h x)
  exact h [] List.nodup_nil

theorem firsts_move (l : List (Reg × Nat)) (r : Reg) : moveOf (firsts l) r = moveOf l r := by
  have h : ∀ acc : List (Reg × Nat), (l.foldl addFirst acc).find? (fun y => y.1 == r) = (acc ++ l).find? (fun y => y.1 == r) := by
    induction l with
    | nil => exact fun acc => by rw [List.append_nil]; rfl
    | cons x l ih =>
      intro acc
      rw [List.foldl_cons, ih, List.find?_append, addFirst_find, ← List.find?_append, List.append_assoc]
      rfl
  rw [moveOf, firsts, h []]
  rfl

/-- The address registers that a vector word names, each with the bytes of its array (R236). -/
def namedRegs (v : VCmd) : List (Reg × Nat) :=
  [(v.rd, (vArrays v.op v.f3).1.bytes v.len), (v.ra, (vArrays v.op v.f3).2.1.bytes v.len)] ++
    (match (vArrays v.op v.f3).2.2 with | some e => [(v.rb, e.bytes v.len)] | none => [])

theorem vAdvance_eq (s : State) (v : VCmd) : vAdvance s v = advanced s v.ctx (firsts (namedRegs v)) := rfl

theorem namedRegs_d (v : VCmd) : moveOf (namedRegs v) v.rd = (vArrays v.op v.f3).1.bytes v.len := by
  simp [moveOf, namedRegs]

theorem namedRegs_a {v : VCmd} (h : v.ra ≠ v.rd) : moveOf (namedRegs v) v.ra = (vArrays v.op v.f3).2.1.bytes v.len := by
  simp [moveOf, namedRegs, h.symm]

theorem namedRegs_b {v : VCmd} {e : Elem} (he : (vArrays v.op v.f3).2.2 = some e) (hd : v.rb ≠ v.rd) (ha : v.rb ≠ v.ra) :
    moveOf (namedRegs v) v.rb = e.bytes v.len := by
  simp [moveOf, namedRegs, he, hd.symm, ha.symm]

/-- Each address register of a vector word moves on, once, by its first array. -/
theorem readReg_vAdvance {v : VCmd} (hc : getCtx s v.ctx = some c) {r : Reg} (hr : r ≠ 0) :
    readReg (vAdvance s v) v.ctx r = readReg s v.ctx r + word (moveOf (namedRegs v) r) := by
  rw [vAdvance_eq, readReg_advanced (firsts_nodup _) hc hr, firsts_move]

end

/-! ### The effect of a step -/

section
variable {s : State} {n : Nat} {v : VCmd} {c : Ctx}

/-- The package after the last step of a word. -/
def lastStepped (s : State) (n : Nat) (v : VCmd) (rest : List VCmd) : State :=
  rewake (wake (vAdvance (stepped s n v rest) v) v.ctx) n

theorem stepped_only (s : State) (n : Nat) (v : VCmd) (q : List VCmd) :
    OnlyContexts (setCore s n { getCore s n with sp := stepMemory (getCore s n) v, vq := q }) (stepped s n v q) := modCtx_only ..

/-- A step raises the flags of its context. -/
theorem stepped_set (hc : getCtx s v.ctx = some c) (q : List VCmd) :
    stepped s n v q = setCtx (setCore s n { getCore s n with sp := stepMemory (getCore s n) v, vq := q }) v.ctx
      { c with fflags := c.fflags ||| (stepResult (getCore s n) v).1.flags } :=
  modCtx_some ((getCtx_modCore s n (fun k => { k with sp := stepMemory (getCore s n) v, vq := q }) rfl v.ctx).trans hc) _

theorem stepped_ctx (hc : getCtx s v.ctx = some c) (q : List VCmd) :
    getCtx (stepped s n v q) v.ctx = some { c with fflags := c.fflags ||| (stepResult (getCore s n) v).1.flags } := by
  rw [stepped_set hc, getCtx_setCtx, if_pos rfl]

theorem readReg_stepped (hc : getCtx s v.ctx = some c) (q : List VCmd) (r : Reg) : readReg (stepped s n v q) v.ctx r = readReg s v.ctx r := by
  refine readReg_congr hc (stepped_ctx hc q) rfl ?_ r
  rw [stepped_set hc, setCtx_rf, getCore_setCore]
  split
  · next h => rw [h]
  · rfl

theorem lastStepped_only (s : State) (n : Nat) (v : VCmd) (rest : List VCmd) :
    OnlyContexts (setCore s n { getCore s n with sp := stepMemory (getCore s n) v, vq := rest }) (lastStepped s n v rest) :=
  (((stepped_only s n v rest).trans (advanced_only ..)).trans (modCtx_only ..)).trans (rewake_only ..)

/-- The last step makes its context ready. -/
theorem woken_set (hc : getCtx s v.ctx = some c) (rest : List VCmd) :
    wake (vAdvance (stepped s n v rest) v) v.ctx = setCtx (vAdvance (stepped s n v rest) v) v.ctx
      { c with fflags := c.fflags ||| (stepResult (getCore s n) v).1.flags, status := .ready } :=
  modCtx_some ((getCtx_advanced ..).trans (stepped_ctx hc rest)) _

theorem lastStepped_ctx (hc : getCtx s v.ctx = some c) (rest : List VCmd) :
    getCtx (lastStepped s n v rest) v.ctx =
      some { c with fflags := c.fflags ||| (stepResult (getCore s n) v).1.flags, status := .ready } := by
  refine rewake_ready ?_ rfl
  rw [woken_set hc, getCtx_setCtx, if_pos rfl]

/-- The last step moves each address register of the word on, once. -/
theorem readReg_lastStepped (hc : getCtx s v.ctx = some c) (rest : List VCmd) {r : Reg} (hr : r ≠ 0) :
    readReg (lastStepped s n v rest) v.ctx r = readReg s v.ctx r + word (moveOf (namedRegs v) r) := by
  have hmoved : getCtx (vAdvance (stepped s n v rest) v) v.ctx = some { c with fflags := c.fflags ||| (stepResult (getCore s n) v).1.flags } :=
    (getCtx_advanced ..).trans (stepped_ctx hc rest)
  have hrf : (getCore (lastStepped s n v rest) (coreOf v.ctx)).rf = (getCore (vAdvance (stepped s n v rest) v) (coreOf v.ctx)).rf := by
    rw [lastStepped, rewake_rf, woken_set hc, setCtx_rf]
  rw [readReg_congr hmoved (lastStepped_ctx hc rest) rfl hrf, readReg_vAdvance (stepped_ctx hc rest) hr, readReg_stepped hc]

end
/-! ## The last unit of a copy (R261, R264) -/

section
variable {s t u : State} {n ch : Nat} {x : Chan}

theorem nextChan_none (h : ∀ ch x, amGet (getCore s n).chans ch = some x → unitReady s n x = false) : nextChan s n = none := by
  refine List.findSome?_eq_none_iff.2 fun ch _ => ?_
  cases hx : amGet (getCore s n).chans ch with
  | none => rfl
  | some x => simp only [h ch x hx, Bool.false_eq_true, if_false]

theorem amGet_only {α : Type} {i j : Nat} {x y : α} (h : amGet [(i, x)] j = some y) : j = i ∧ y = x := by
  simp only [amGet] at h
  split at h
  · next hi => exact ⟨hi.symm, (Option.some.inj h).symm⟩
  · cases h

theorem amSet_only {α : Type} (i : Nat) (x y : α) : amSet [(i, x)] i y = [(i, y)] := by simp [amSet]

theorem nextChan_only (hch : ch < 4) (hc : (getCore s n).chans = [(ch, x)]) (hr : unitReady s n x = true) : nextChan s n = some (ch, x) := by
  have hx : amGet (getCore s n).chans ch = some x := by rw [hc]; exact if_pos rfl
  refine findSome_hit ⟨ch, ?_, ?_⟩ fun j _ => ?_
  · exact List.mem_map.2 ⟨(ch + 3 * ((getCore s n).lastChan + 1)) % 4, List.mem_range.2 (by omega), by omega⟩
  · simp only [hx, hr, if_true]
  · cases hj : amGet (getCore s n).chans j with
    | none => exact .inl rfl
    | some y =>
      obtain ⟨rfl, rfl⟩ := amGet_only (hc ▸ hj)
      exact .inr (by simp only [hr, if_true])

theorem moveUnits_none (h : nextChan s n = none) (j : Nat) (ext : List Byte) : moveUnits n j ext s = s := by
  cases j with
  | zero => rfl
  | succ j => simp only [moveUnits, h]

theorem moveUnits_one {ext : List Byte} (h : nextChan s n = some (ch, x)) (hn : nextChan (moveUnit s n ch x ext) n = none) (j : Nat) :
    moveUnits n (j + 1) ext s = moveUnit s n ch x ext := by
  simp only [moveUnits, h]
  exact moveUnits_none hn ..

theorem copyUnitTransfer_go (hs : coreStopped s s.arg.unit = false) :
    exec .copyUnitTransfer s = .next (settleWaits (moveUnits s.arg.unit 4 s.arg.bytes s) s.arg.unit) := by
  simp only [exec_copyUnitTransfer, execCopyUnitTransfer, hs, Bool.false_eq_true, if_false]

/-- The bytes of a channel's next unit: of its core's scratchpad, or of memory from `a`. -/
def unitBytes (s : State) (n : Nat) (x : Chan) (a : Nat) : List Byte :=
  if x.srcSp then memBytes (getCore s n).sp x.from_.toNat 16 else memBytes s.mem a 16

theorem unitBytes_length (s : State) (n : Nat) (x : Chan) (a : Nat) : (unitBytes s n x a).length = 16 := by
  unfold unitBytes; split <;> exact memBytes_length ..

/-- A source with nothing in its way: sound bytes of the scratchpad, or bytes of memory at `a`, in a line that is not poisoned. -/
structure SourceClear (s : State) (n : Nat) (x : Chan) (a l : Nat) : Prop where
  scratch : x.srcSp = true → spPoisoned (getCore s n) x.from_.toNat 16 = false
  memory : x.srcSp = false → (x.srcPage x.from_).loc x.from_ = .hbm a ∧ keyed s (x.srcPage x.from_).key a 16 = true ∧
    (x.srcPage (x.from_ &&& ~~~(63 : Word))).loc (x.from_ &&& ~~~(63 : Word)) = .hbm l ∧ poisonedAt s (.hbm l) 64 = false

/-- A destination with nothing in its way: the scratchpad, or memory at `b`, in a line that the command has not written poisoned. -/
def TargetClear (s : State) (x : Chan) (b : Nat) : Prop :=
  x.dstSp = false → (x.dstPage x.to_).loc x.to_ = .hbm b ∧ keyed s (x.dstPage x.to_).key b 16 = true ∧ x.badDst ≠ lineMark x.to_

theorem readUnit_clear {a l : Nat} (h : SourceClear s n x a l) (ext : List Byte) :
    ∃ v, OnlyCounts s v ∧ readUnit s n x ext = (unitBytes s n x a, none, v) := by
  unfold readUnit unitBytes
  cases hsp : x.srcSp with
  | true =>
    refine ⟨s, .refl s, ?_⟩
    simp only [if_true, engineSp_clean (h.scratch hsp), Bool.false_eq_true, if_false]
  | false =>
    obtain ⟨hloc, hkey, hline, hsound⟩ := h.memory hsp
    have hsrc : ∀ v, x.srcLoc v x.from_ = .hbm a := fun v => homePlace_hbm hloc false
    have hbase : ∀ v, x.srcLoc v (x.from_ &&& ~~~(63 : Word)) = .hbm l := fun v => homePlace_hbm hline false
    have hc := touch_counts s (dieOf n) (.hbm a) (x.srcPage x.from_) .read 16
    refine ⟨touch s (dieOf n) (.hbm a) (x.srcPage x.from_) .read 16, hc, ?_⟩
    simp only [hsrc, hbase, Bool.false_eq_true, if_false]
    generalize touch s (dieOf n) (.hbm a) (x.srcPage x.from_) .read 16 = v at hc
    have hup : linkDown v (.hbm a) = false := rfl
    have hread : readWide v (.hbm a) 16 ext (x.srcPage x.from_) = memBytes s.mem a 16 :=
      (hbmBytes_keyed ((hc.keyed ..).trans hkey)).trans (by rw [hc.mem])
    simp only [hup, (hc.poisonedAt ..).trans hsound, Bool.false_eq_true, if_false, hread]

theorem releaseLine_sp (h : x.dstSp = true) (s : State) : releaseLine s x = s := by
  simp only [releaseLine, h, if_true]

theorem OnlyStored.releaseLine {M : Memory} (h : OnlyStored s t M) (x : Chan) : OnlyStored s (Machine.releaseLine t x) M := by
  unfold Machine.releaseLine
  dsimp only
  split
  · exact h
  · split
    · exact h
    · exact h.unclaim ..

/-- The core with the bytes of a unit, where they go to its scratchpad. -/
def unitCore (k : Core) (x : Chan) (bs : List Byte) : Core := if x.dstSp then spStore k x.to_.toNat bs else k

/-- A unit's bytes written and its line released. -/
theorem writeUnit_clear {v : State} {b : Nat} {bs : List Byte} (hv : OnlyCounts s v) (hb : bs.length = 16) (h : TargetClear s x b) :
    getCore (releaseLine (writeUnit v n x bs false) x) n = unitCore (getCore s n) x bs ∧
      ∀ K, OnlyStored (setCore s n K) (setCore (releaseLine (writeUnit v n x bs false) x) n K) (if x.dstSp then s.mem else memPut s.mem b bs) := by
  cases hsp : x.dstSp with
  | true =>
    have hw : releaseLine (writeUnit v n x bs false) x = modCore v n fun k => spStore k x.to_.toNat bs := by
      rw [releaseLine_sp hsp, writeUnit]; simp only [hsp, if_true]
    rw [hw, unitCore, hsp, getCore_modCore, if_pos rfl, hv.getCore]
    refine ⟨rfl, fun K => ?_⟩
    rw [modCore, setCore_setCore]
    exact (hv.put n K).stored
  | false =>
    obtain ⟨hloc, hkey, hsound⟩ := h hsp
    have hw : writeUnit v n x bs false = engineWrite v (dieOf n) x.tslot (x.ctx.getD noContext) x.id (x.dstPage x.to_) x.to_ bs false := by
      simp only [writeUnit, hsp, Bool.false_eq_true, if_false, beq_eq_false_iff_ne.2 hsound, Bool.or_self]
    have he := engineWrite_law (s := v) (die := dieOf n) (t := x.tslot) (cid := x.ctx.getD noContext) (cmd := x.id) hloc (bs := bs)
      (by rw [hb]; exact (hv.keyed ..).trans hkey)
    rw [hv.mem, ← hw] at he
    have hs := (hv.stored.trans he).releaseLine x
    exact ⟨by rw [hs.getCore, unitCore, hsp]; rfl, fun K => hs.put n K⟩

/-- The core once a unit has moved. -/
def movedCore (k : Core) (ch : Nat) (x : Chan) (bs : List Byte) : Core :=
  { unitCore k x bs with
    chans := amSet (unitCore k x bs).chans ch { x with done := x.done + 16 }, lastChan := ch,
    cwp := if x.dstSp then amSet k.cwp ch (x.to_.toNat + 16) else k.cwp }

theorem unitCore_cwp (k : Core) (x : Chan) (bs : List Byte) : (unitCore k x bs).cwp = k.cwp := by
  unfold unitCore; split <;> rfl

theorem unitCore_chans (k : Core) (x : Chan) (bs : List Byte) : (unitCore k x bs).chans = k.chans := by
  unfold unitCore; split <;> rfl

theorem moveUnit_clear {a l b : Nat} (hsrc : SourceClear s n x a l) (hdst : TargetClear s x b) (hg : x.group = none) (ch : Nat) (ext : List Byte) :
    OnlyStored (setCore s n (movedCore (getCore s n) ch x (unitBytes s n x a))) (moveUnit s n ch x ext)
      (if x.dstSp then s.mem else memPut s.mem b (unitBytes s n x a)) := by
  obtain ⟨v, hv, hread⟩ := readUnit_clear hsrc ext
  obtain ⟨hcore, hstored⟩ := writeUnit_clear (n := n) hv (unitBytes_length s n x a) hdst
  have hm : moveUnit s n ch x ext = setCore (releaseLine (writeUnit v n x (unitBytes s n x a) false) x) n
      (movedCore (getCore s n) ch x (unitBytes s n x a)) := by
    simp only [moveUnit, hread, hg, Option.isSome_none, Bool.false_eq_true, if_false, modCore, hcore, movedCore, unitCore_cwp]
  rw [hm]
  exact hstored _

/-- A channel's last unit: no unit follows it. -/
theorem unitReady_done (h : x.done = x.len) : unitReady s n x = false := by
  simp [unitReady, h]

theorem copyUnitTransfer_idle (hs : coreStopped s s.arg.unit = false)
    (h : ∀ ch x, amGet (argCore s).chans ch = some x → unitReady s s.arg.unit x = false) :
    ∃ t, exec .copyUnitTransfer s = .next t ∧ OnlyContexts s t := by
  refine ⟨_, copyUnitTransfer_go hs, ?_⟩
  rw [moveUnits_none (nextChan_none h)]
  exact settleWaits_only ..

theorem copyUnitTransfer_last {a l b : Nat} (hs : coreStopped s s.arg.unit = false) (hch : ch < 4) (hc : (argCore s).chans = [(ch, x)])
    (hr : unitReady s s.arg.unit x = true) (hg : x.group = none) (hd : x.done + 16 = x.len) (hsrc : SourceClear s s.arg.unit x a l)
    (hdst : TargetClear s x b) :
    ∃ v t, exec .copyUnitTransfer s = .next t ∧
      OnlyStored (setCore s s.arg.unit (movedCore (argCore s) ch x (unitBytes s s.arg.unit x a))) v
        (if x.dstSp then s.mem else memPut s.mem b (unitBytes s s.arg.unit x a)) ∧ OnlyContexts v t := by
  have hm := moveUnit_clear hsrc hdst hg ch s.arg.bytes
  have hover : nextChan (moveUnit s s.arg.unit ch x s.arg.bytes) s.arg.unit = none := by
    refine nextChan_none fun j y hy => ?_
    rw [hm.getCore, getCore_setCore_same, movedCore] at hy
    dsimp only at hy
    rw [unitCore_chans, hc] at hy
    rw [amSet_only] at hy
    obtain ⟨-, rfl⟩ := amGet_only hy
    exact unitReady_done hd
  refine ⟨_, _, copyUnitTransfer_go hs, ?_, settleWaits_only ..⟩
  rw [moveUnits_one (nextChan_only hch hc hr) hover]
  exact hm

/-- A channel's command is over: a copy has moved its bytes; the tiles of a subscription have landed and been retired, and carried back where
it pulls. -/
def ChanOver (x : Chan) : Prop :=
  match x.kind with
  | .copy => x.done = x.len
  | .sub pull => x.landed = x.count ∧ x.retired = x.count ∧ (pull = true → x.pulled = x.count)

theorem chanDone_iff : chanDone x = true ↔ ChanOver x := by
  unfold chanDone ChanOver
  cases x.kind with
  | copy => exact beq_iff_eq
  | sub pull => cases pull <;> simp [and_assoc]

theorem copyCommandComplete_over (hx : amGet (argCore s).chans s.arg.idx = some x) (h : ChanOver x) :
    ∃ t, exec .copyCommandComplete s = .next t ∧
      OnlyContexts (modCore (dropClaim s x.id) s.arg.unit fun k => { k with chans := amErase k.chans s.arg.idx }) t := by
  refine ⟨freeChan s s.arg.unit s.arg.idx x, ?_, settleWaits_only ..⟩
  simp only [exec_copyCommandComplete, execCopyCommandComplete, hx, chanDone_iff.2 h, if_true]

theorem copyCommandComplete_waits (hx : amGet (argCore s).chans s.arg.idx = some x) (h : ¬ ChanOver x) :
    exec .copyCommandComplete s = .next s := by
  simp only [exec_copyCommandComplete, execCopyCommandComplete, hx, chanDone_iff, h, if_false]

/-! ## The tiles of a subscription (R266, R267) -/

theorem subscriptionTileLand_waits (hx : amGet (argCore s).chans s.arg.idx = some x) (h : tileReady s s.arg.unit x = false) :
    exec .subscriptionTileLand s = .next s := by
  simp only [exec_subscriptionTileLand, execSubscriptionTileLand, hx, h, Bool.false_eq_true, if_false]

theorem subscriptionTileLand_lands (hx : amGet (argCore s).chans s.arg.idx = some x) (h : tileReady s s.arg.unit x = true) :
    exec .subscriptionTileLand s = .next (settleWaits (landTile s s.arg.unit s.arg.idx x s.arg.bytes) s.arg.unit) := by
  simp only [exec_subscriptionTileLand, execSubscriptionTileLand, hx, h, if_true]

theorem subscriptionPullBack_waits (hx : amGet (argCore s).chans s.arg.idx = some x) (h : pullReady s s.arg.unit x = false) :
    exec .subscriptionPullBack s = .next s := by
  simp only [exec_subscriptionPullBack, execSubscriptionPullBack, hx, h, Bool.false_eq_true, if_false]

theorem subscriptionPullBack_carries (hx : amGet (argCore s).chans s.arg.idx = some x) (h : pullReady s s.arg.unit x = true) :
    exec .subscriptionPullBack s = .next (settleWaits (pullTile s s.arg.unit s.arg.idx x) s.arg.unit) := by
  simp only [exec_subscriptionPullBack, execSubscriptionPullBack, hx, h, if_true]

end
/-! ## The stream unit (R245, R246) -/

section
variable {s t u : State} {o : PortOp} {c : Ctx} {i : Nat}

/-- The operation comes to its unit at once, is there, or its release is met. -/
def Arrives (s : State) (o : PortOp) : Prop := o.push = false ∨ o.arrived ≠ none ∨ fenceMet s o.ctx 2 o.upto = true

/-- The operation once it is at its unit, with the id of its arrival. -/
abbrev arrivedAs (o : PortOp) (i : Nat) : PortOp := { o with arrived := some i }

/-- The package with its one operation at its unit. -/
def atUnit (s : State) (o : PortOp) : State :=
  if o.arrived.isNone then { s with nextId := s.nextId + 1, ports := [{ o with arrived := some s.nextId }] } else s

/-- The operation's descriptor line met at its home. -/
abbrev descMet (s : State) (o : PortOp) : State := touch s (dieOf (coreOf o.ctx)) (o.page.loc o.desc) o.page .write 64

/-- The descriptor as it stands then. -/
abbrev descOf (s : State) (o : PortOp) : Desc := readDesc (descMet s o) o.page o.desc

theorem find_onlyPort {q : PortOp} (hs : s.ports = [q]) : s.ports.find? (fun x => x.id == q.id) = some q := by simp [hs]

theorem find_kindPort {q : PortOp} (hs : s.ports = [q]) : s.ports.find? (fun x => x.id == q.id && x.push == q.push) = some q := by simp [hs]

/-- A push whose release is not met stays where it is. -/
theorem portStep_held (hs : s.ports = [o]) (hn : o.answered = false) (h : ¬ Arrives s o) :
    portStep s o.push o.id = countHold s (dieOf (coreOf o.ctx)) (o.page.loc o.desc) o.page 64 := by
  simp only [Arrives, not_or, Bool.not_eq_false, ne_eq, not_not, Bool.not_eq_true] at h
  obtain ⟨hpush, hfar, hfence⟩ := h
  have hstay : arriveAtUnit s o = s := by
    simp only [arriveAtUnit, hpush, hfence, Bool.not_true, Bool.or_self, Bool.and_false, Bool.false_eq_true, if_false]
  have hline : firstInLine s o = false := by simp only [firstInLine, hfar]
  simp only [portStep, find_kindPort hs, hn, hstay, find_onlyPort hs, hline, Bool.and_false, Bool.false_eq_true, if_false]

theorem atUnit_ports (hs : s.ports = [o]) : ∃ i, (atUnit s o).ports = [arrivedAs o i] := by
  cases ha : o.arrived with
  | none => exact ⟨s.nextId, by simp only [atUnit, ha, Option.isNone_none, if_true]⟩
  | some i =>
    refine ⟨i, ?_⟩
    have ho : arrivedAs o i = o := by rw [arrivedAs, ← ha]
    simp only [atUnit, ha, Option.isNone_some, Bool.false_eq_true, if_false, hs, ho]

theorem arriveAtUnit_arrives (hs : s.ports = [o]) (h : Arrives s o) : arriveAtUnit s o = atUnit s o := by
  cases ha : o.arrived with
  | none =>
    have hgo : (!o.push || fenceMet s o.ctx 2 o.upto) = true := by
      rcases h with h | h | h
      · rw [h]; rfl
      · exact absurd ha h
      · rw [h, Bool.or_true]
    simp only [arriveAtUnit, atUnit, ha, hgo, takeId_eq, hs, updWhere, Option.isNone_none, Bool.and_self, if_true, List.map_cons, List.map_nil,
      beq_self_eq_true]
  | some i => simp [arriveAtUnit, atUnit, ha]

/-- The answer, if there is one, reaches its context. -/
def answerOut (u : State) (id : Nat) : State :=
  match u.ports.find? fun x => x.id == id with
  | some o => if o.answered then portAnswered u o else u
  | none => u

/-- The only operation of the package, at its unit, is the first in line. -/
theorem firstInLine_only {q : PortOp} (hu : u.ports = [q]) (hq : q.arrived = some i) : firstInLine u q = true := by
  simp [firstInLine, hu, hq]

/-- An operation at its unit is performed where its descriptor may be accessed, and else waits there. -/
theorem portStep_atUnit {q : PortOp} (hs : s.ports = [o]) (hn : o.answered = false) (h : Arrives s o) (hu : (atUnit s o).ports = [q])
    (hid : q.id = o.id) (hq : q.arrived = some i) :
    portStep s o.push o.id =
      if portReady (atUnit s o) q = true then answerOut (if o.push then pushStep (atUnit s o) q else popStep (atUnit s o) q) o.id
      else countHold (atUnit s o) (dieOf (coreOf q.ctx)) (q.page.loc q.desc) q.page 64 := by
  have hfind : (atUnit s o).ports.find? (fun x => x.id == o.id) = some q := hid ▸ find_onlyPort hu
  simp only [portStep, find_kindPort hs, hn, arriveAtUnit_arrives hs h, hfind, firstInLine_only hu hq, Bool.and_true, Bool.false_eq_true,
    if_false]
  rfl

/-! ### What the unit answers -/

/-- The answer to the only operation of the package. -/
def answeredOp (q : PortOp) (v : Word) (cause : Option Cause) (tval : Word) : PortOp :=
  { q with answered := true, value := v, cause := cause, tval := tval }

theorem answerOut_unanswered {q : PortOp} (hu : u.ports = [q]) (hn : q.answered = false) : answerOut u q.id = u := by
  simp only [answerOut, find_onlyPort hu, hn, Bool.false_eq_true, if_false]

theorem answerPort_ports {q : PortOp} (hu : u.ports = [q]) (v : Word) (cause : Option Cause) (tval : Word) :
    (answerPort u q.id v cause tval).ports = [answeredOp q v cause tval] := by
  simp [answerPort, updWhere, hu, answeredOp]

theorem answerOut_answered {q : PortOp} (hu : u.ports = [q]) (v : Word) (cause : Option Cause) (tval : Word) :
    answerOut (answerPort u q.id v cause tval) q.id = portAnswered (answerPort u q.id v cause tval) (answeredOp q v cause tval) := by
  have hfind : (answerPort u q.id v cause tval).ports.find? (fun x => x.id == q.id) = some (answeredOp q v cause tval) :=
    find_onlyPort (answerPort_ports hu v cause tval)
  simp only [answerOut, hfind]
  rfl

theorem getCtx_setFull (s : State) (id : Nat) (r : Reg) (b : Bool) (j : Nat) : getCtx (setFull s id r b) j = getCtx s j := by
  unfold setFull putReg
  split
  · split
    · rfl
    · split
      · exact getCtx_modCore _ _ _ rfl _
      · rfl
  · rfl

theorem setFull_rest (s : State) (id : Nat) (r : Reg) (b : Bool) : setFull s id r b = { s with cores := (setFull s id r b).cores } := by
  unfold setFull putReg
  split
  · split
    · rfl
    · split <;> rfl
  · rfl

/-- A pop's answer: its word goes on with the element, or with the trap. -/
theorem portAnswered_pop {q : PortOp} {r : Reg} (hu : u.ports = [q]) (hc : getCtx u q.ctx = some c) (hh : c.status = .held (.pop r q.id))
    (hst : c.stream = false) (hb : c.benched = false) :
    (portAnswered u q).mem = u.mem ∧ (portAnswered u q).ports = [] ∧ getCtx (portAnswered u q) q.ctx =
      some { c with status := .ready, popped := if q.cause.isNone then some q.value else none, portTrap := q.cause.map fun x => (x, q.tval) } := by
  have hnone : u.ports.filter (fun x => x.id != q.id) = [] := by simp [hu]
  have hc' : getCtx { u with ports := [] } q.ctx = some c := hc
  have hset := fun d : Ctx => (getCtx_setCtx { u with ports := [] } q.ctx q.ctx d).trans (if_pos rfl)
  simp only [portAnswered, hnone, hc', hh, bne_self_eq_false, Bool.false_eq_true, if_false, hst, hb, Bool.or_self]
  cases q.dst with
  | none => exact ⟨rfl, rfl, hset _⟩
  | some r =>
    dsimp only
    rw [setFull_rest]
    exact ⟨rfl, rfl, (getCtx_setFull ..).trans (hset _)⟩

/-- A push's answer without a trap: its word is over, with the flags that it held. -/
theorem portAnswered_push {q : PortOp} {r : Reg} (hu : u.ports = [q]) (hc : getCtx u q.ctx = some c) (hh : c.status = .held (.push r q.id))
    (hok : q.cause = none) :
    (portAnswered u q).mem = u.mem ∧ (portAnswered u q).ports = [] ∧ getCtx (portAnswered u q) q.ctx =
      some { c with status := .ready, fflags := c.fflags ||| c.heldFlags } := by
  have hnone : u.ports.filter (fun x => x.id != q.id) = [] := by simp [hu]
  have hc' : getCtx { u with ports := [] } q.ctx = some c := hc
  have heq : portAnswered u q = rewake (wake (setFlags c.heldFlags q.ctx { u with ports := [] }) q.ctx) (coreOf q.ctx) := by
    simp only [portAnswered, hnone, hc', hh, bne_self_eq_false, Bool.false_eq_true, if_false, hok]
  have hraised : getCtx (setFlags c.heldFlags q.ctx { u with ports := [] }) q.ctx = some { c with fflags := c.fflags ||| c.heldFlags } := by
    rw [setFlags, modCtx_some hc', getCtx_setCtx, if_pos rfl]
  have hready : getCtx (wake (setFlags c.heldFlags q.ctx { u with ports := [] }) q.ctx) q.ctx =
      some { c with status := .ready, fflags := c.fflags ||| c.heldFlags } := by
    rw [wake, modCtx_some hraised, getCtx_setCtx, if_pos rfl]
  have honly : OnlyContexts { u with ports := [] } (portAnswered u q) :=
    heq ▸ ((modCtx_only ..).trans (modCtx_only ..)).trans (rewake_only ..)
  exact ⟨honly.mem, by rw [honly.1], heq ▸ rewake_ready hready rfl⟩

/-! ### What the unit does -/

theorem popStep_waits {q : PortOp} (he : (descOf u q).tail = (descOf u q).head) (hw : q.w = false) : popStep u q = descMet u q := by
  simp only [popStep, sub_eq_zero, he, hw, if_true, Bool.false_eq_true, if_false]

theorem popStep_traps {q : PortOp} (he : (descOf u q).tail = (descOf u q).head) (hw : q.w = true) :
    popStep u q = answerPort (descMet u q) q.id 0 (some .empty) q.desc := by
  simp only [popStep, sub_eq_zero, he, hw, if_true]

theorem pushStep_waits {q : PortOp} (hf : (descOf u q).n ≤ ((descOf u q).tail - (descOf u q).head).toNat) : pushStep u q = descMet u q := by
  simp only [pushStep, hf, if_true]

/-- An element that the unit may access, at `e`. -/
structure ElemClear (u : State) (q : PortOp) (a : Word) (p : Page) (e : Nat) (writes : Bool) : Prop where
  page : elemPage (descMet u q) q a = (some p, descMet u q)
  ok : elemOk p = true
  loc : p.loc a = .hbm e
  may : mayAccess (descMet u q) (dieOf (coreOf q.ctx)) (.hbm e) p 8 none writes = true
  key : keyed u p.key e 8 = true

/-- Eight bytes written to their home after nothing but stores and counts. -/
theorem OnlyStored.put8 {z : State} {m : Memory} {p : Page} {e : Nat} (hz : OnlyStored u z m) (hk : Machine.keyed u p.key e 8 = true) (v : Nat) :
    OnlyStored u (writeHome z (.hbm e) (leBytes 8 v) p) (memPut m e (leBytes 8 v)) := by
  have hlen : (leBytes 8 v).length = 8 := leBytes_length ..
  have hw := writeHome_stored (s := z) (p := p) (a := e) (bs := leBytes 8 v) (by rw [hlen]; exact (hz.keyed ..).trans hk)
  exact hz.trans (hz.mem ▸ hw)

/-- A pop of a ring with an element: the head moves on, and the element is the answer. -/
theorem popStep_takes {q : PortOp} {p : Page} {e h : Nat} (hd : (descOf u q).tail ≠ (descOf u q).head)
    (he : ElemClear u q ((descOf u q).elem (descOf u q).head) p e false) (hl : q.page.loc (q.desc + 0x40) = .hbm h)
    (hk : keyed u q.page.key h 8 = true) (hp : poisonedAt u (.hbm e) 8 = false) :
    ∃ z, OnlyStored u z (memPut u.mem h (leBytes 8 ((descOf u q).head + 1).toNat)) ∧
      popStep u q = answerPort z q.id (BitVec.ofNat 64 (leNat (memBytes u.mem e 8))) none 0 := by
  obtain ⟨hpage, hok, hloc, hmay, hkey⟩ := he
  have hc : OnlyCounts u (touch (descMet u q) (dieOf (coreOf q.ctx)) (.hbm e) p .read 8) := (touch_counts ..).trans (touch_counts ..)
  refine ⟨_, hc.stored.put8 hk _, ?_⟩
  simp only [popStep, sub_eq_zero, hd, if_false, hpage, hok, hloc, hmay, Bool.not_true, Bool.false_eq_true, hc.poisonedAt, hp, readHome,
    hbmBytes_keyed ((hc.keyed ..).trans hkey), hc.mem, hl]
  rfl

/-- A push to a ring with room: its value becomes an element, and the tail moves on. -/
theorem pushStep_puts {q : PortOp} {p : Page} {e h : Nat} (hd : ((descOf u q).tail - (descOf u q).head).toNat < (descOf u q).n)
    (he : ElemClear u q ((descOf u q).elem (descOf u q).tail) p e true) (hl : q.page.loc (q.desc + 0x80) = .hbm h)
    (hk : keyed u q.page.key h 8 = true) :
    ∃ z, OnlyStored u z (memPut (memPut u.mem e (leBytes 8 q.v.toNat)) h (leBytes 8 ((descOf u q).tail + 1).toNat)) ∧
      pushStep u q = answerPort z q.id 0 none 0 := by
  obtain ⟨hpage, hok, hloc, hmay, hkey⟩ := he
  have hc : OnlyCounts u (touch (descMet u q) (dieOf (coreOf q.ctx)) (.hbm e) p .write 8) := (touch_counts ..).trans (touch_counts ..)
  have hput := hc.stored.put8 hkey q.v.toNat
  have hclean := hput.trans (hput.mem ▸ unpoison_stored _ e 8)
  refine ⟨_, hclean.put8 hk _, ?_⟩
  simp only [pushStep, Nat.not_le.2 hd, if_false, hpage, hok, hloc, hmay, Bool.not_true, Bool.false_eq_true, hl]

/-! ### The events of the one operation -/

theorem atUnit_rest (s : State) (o : PortOp) : atUnit s o = { s with nextId := (atUnit s o).nextId, ports := (atUnit s o).ports } := by
  unfold atUnit; split <;> rfl

theorem getCtx_atUnit (s : State) (o : PortOp) (id : Nat) : getCtx (atUnit s o) id = getCtx s id := by rw [atUnit_rest]; rfl
theorem mem_atUnit (s : State) (o : PortOp) : (atUnit s o).mem = s.mem := by rw [atUnit_rest]
theorem keyed_atUnit (s : State) (o : PortOp) (key : BitVec 8) (a n : Nat) : keyed (atUnit s o) key a n = keyed s key a n := by
  rw [atUnit_rest]; rfl
theorem poisonedAt_atUnit (s : State) (o : PortOp) (a n : Nat) : poisonedAt (atUnit s o) (.hbm a) n = poisonedAt s (.hbm a) n := by
  rw [atUnit_rest]; rfl

theorem OnlyStored.ports {z : State} {m : Memory} (h : OnlyStored u z m) : z.ports = u.ports := by rw [h]
theorem OnlyStored.ctx {z : State} {m : Memory} (h : OnlyStored u z m) (id : Nat) : getCtx z id = getCtx u id := by rw [h]; rfl

/-- An operation that its descriptor keeps waiting leaves nothing but counts. -/
theorem answerOut_waits {q : PortOp} (hu : u.ports = [q]) (hn : q.answered = false) : answerOut (descMet u q) q.id = descMet u q :=
  answerOut_unanswered ((touch_counts ..).stored.ports.trans hu) hn

/-- A pop that is answered: its word goes on with the element, or with the trap. -/
theorem answerOut_pop {q : PortOp} {r : Reg} {m : Memory} (hz : OnlyStored u t m) (hu : u.ports = [q]) (hc : getCtx u q.ctx = some c)
    (hh : c.status = .held (.pop r q.id)) (hst : c.stream = false) (hb : c.benched = false) (v : Word) (cause : Option Cause) (tval : Word) :
    (answerOut (answerPort t q.id v cause tval) q.id).mem = m ∧ (answerOut (answerPort t q.id v cause tval) q.id).ports = [] ∧
      getCtx (answerOut (answerPort t q.id v cause tval) q.id) q.ctx =
        some { c with status := .ready, popped := if cause.isNone then some v else none, portTrap := cause.map fun x => (x, tval) } := by
  have ht := hz.ports.trans hu
  have hg : getCtx (answerPort t q.id v cause tval) (answeredOp q v cause tval).ctx = some c := (hz.ctx q.ctx).trans hc
  obtain ⟨hmem, hports, hctx⟩ := portAnswered_pop (answerPort_ports ht v cause tval) hg hh hst hb
  rw [answerOut_answered ht]
  exact ⟨hmem.trans hz.mem, hports, hctx⟩

/-- A push that is answered without a trap: its word is over, with the flags that it held. -/
theorem answerOut_push {q : PortOp} {r : Reg} {m : Memory} (hz : OnlyStored u t m) (hu : u.ports = [q]) (hc : getCtx u q.ctx = some c)
    (hh : c.status = .held (.push r q.id)) (v tval : Word) :
    (answerOut (answerPort t q.id v none tval) q.id).mem = m ∧ (answerOut (answerPort t q.id v none tval) q.id).ports = [] ∧
      getCtx (answerOut (answerPort t q.id v none tval) q.id) q.ctx = some { c with status := .ready, fflags := c.fflags ||| c.heldFlags } := by
  have ht := hz.ports.trans hu
  have hg : getCtx (answerPort t q.id v none tval) (answeredOp q v none tval).ctx = some c := (hz.ctx q.ctx).trans hc
  obtain ⟨hmem, hports, hctx⟩ := portAnswered_push (answerPort_ports ht v none tval) hg hh rfl
  rw [answerOut_answered ht]
  exact ⟨hmem.trans hz.mem, hports, hctx⟩

theorem streamPush_held (hs : s.ports = [o]) (hid : o.id = s.arg.id) (hn : o.answered = false) (h : ¬ Arrives s o) :
    exec .streamPush s = .next (countHold s (dieOf (coreOf o.ctx)) (o.page.loc o.desc) o.page 64) := by
  have hpush : o.push = true := Bool.not_eq_false _ ▸ fun hp => h (.inl hp)
  have hheld := portStep_held hs hn h
  rw [hpush] at hheld
  rw [exec_streamPush, execStreamPush, ← hid, hheld]

theorem exec_portOp (hid : o.id = s.arg.id) : exec (if o.push then .streamPush else .streamPop) s = .next (portStep s o.push o.id) := by
  cases h : o.push with
  | true => simp only [if_true, exec_streamPush, execStreamPush, hid]
  | false => simp only [Bool.false_eq_true, if_false, exec_streamPop, execStreamPop, hid]

section
variable {q : PortOp} (hs : s.ports = [o]) (hid : o.id = s.arg.id) (hn : o.answered = false) (h : Arrives s o)
  (hu : (atUnit s o).ports = [q]) (hqid : q.id = o.id) (hq : q.arrived = some i)
include hs hid hn h hu hqid hq

theorem streamPush_ready (hpush : o.push = true) (hr : portReady (atUnit s o) q = true) :
    exec .streamPush s = .next (answerOut (pushStep (atUnit s o) q) q.id) := by
  have hstep := portStep_atUnit hs hn h hu hqid hq
  rw [if_pos hr, if_pos hpush, hpush] at hstep
  rw [exec_streamPush, execStreamPush, ← hid, hstep, hqid]

theorem streamPop_ready (hpop : o.push = false) (hr : portReady (atUnit s o) q = true) :
    exec .streamPop s = .next (answerOut (popStep (atUnit s o) q) q.id) := by
  have hstep := portStep_atUnit hs hn h hu hqid hq
  rw [if_pos hr, if_neg (Bool.eq_false_iff.1 hpop), hpop] at hstep
  rw [exec_streamPop, execStreamPop, ← hid, hstep, hqid]

theorem streamPort_waits (hr : portReady (atUnit s o) q = false) :
    exec (if o.push then .streamPush else .streamPop) s =
      .next (countHold (atUnit s o) (dieOf (coreOf q.ctx)) (q.page.loc q.desc) q.page 64) := by
  rw [exec_portOp hid, portStep_atUnit hs hn h hu hqid hq, if_neg (Bool.eq_false_iff.1 hr)]

end

end
/-! ## The events together -/

section
variable {s : State} {m : MCmd}

/-- How the matrix engine ends a command, or moves its next line: the rule of each kind. -/
theorem matrixCommandComplete_cases (hs : coreStopped s s.arg.unit = false)
    (hf : (argCore s).mq.find? (fun x => x.id == s.arg.id) = some m) :
    (m.kind = .mma → if m.state = .draining then CmdEnds s s.arg.unit m else exec .matrixCommandComplete s = .next s) ∧
    (m.kind = .rot → m.state ≠ .draining → exec .matrixCommandComplete s = .next s) ∧
    (m.kind = .rot → m.state = .draining → (argCore s).sending = none →
      (∀ r ∈ (getCore s (eastOf s s.arg.unit)).inbound, r.cmd ≠ m.id) → CmdEnds s s.arg.unit m) ∧
    (m.kind = .mstc ∨ m.kind = .mldc → m.state = .running → 64 ≤ m.k → CmdEnds s s.arg.unit m) := by
  have hgo := matrixCommandComplete_found hs hf
  refine ⟨fun hk => ?_, fun hk hd => ?_, fun hk hd hsend hin => ?_, fun hk hr hl => ?_⟩
  · rw [matrixComplete_mma hk] at hgo
    split
    · next hd => exact cmdEnds_of_finish (by rw [hgo, if_pos hd])
    · next hd => rw [hgo, if_neg hd]
  · rw [hgo, matrixComplete_rotRunning hk hd]
  · exact cmdEnds_of_finish (by rw [hgo, matrixComplete_rotOver hk hd hsend hin])
  · exact cmdEnds_of_finish (by rw [hgo, matrixComplete_linesOver hk hr hl])

end

/-- Settles O53, clause by clause: the rule of each event for the case that the clause names. -/
theorem engineEvents : Obligations.EngineEvents := by
  intro s n k
  refine ⟨⟨?sfuTakes, sfuAccept_idle⟩, fun r rest hi => ⟨fun h => ?latchRoom, fun h => ?latchFull⟩, latchRowArrive_empty,
    fun hs => ⟨?schedule, ?only, ?group, ?complete, fun hq => ?vectorIdle, ?vector, copyUnitTransfer_idle hs, ?copyLast⟩, ?copyOver, ?tiles,
    ?ports⟩
  case sfuTakes =>
    intro j r hj hrow pos hbefore hr
    exact sfuAccept_found hrow (sfuFound_turn hj (fun i hi => sfuWaiting_none (hbefore i hi)) hr)
  case latchRoom => rw [latchRowArrive_row hi, if_pos h]
  case latchFull => rw [latchRowArrive_row hi, if_neg (Nat.not_lt.2 h)]
  case schedule =>
    intro hp v
    have hv : getCore v n = k := getCore_setCore_same ..
    have hgo : exec .matrixEngineSchedule s = .next (mSchedule v n) := matrixEngineSchedule_go hs hp
    rw [hgo]
    refine ⟨fun hb => ?_, fun m hb => ?_⟩
    · rw [mSchedule_none (hv.symm ▸ hb)]
    intro starts
    refine ⟨fun hr => ?_, fun r hr => ?_⟩
    · rw [mSchedule_idle (m := m) (hv.symm ▸ hb) (hv.symm ▸ hr), hv, setCore_setCore]
      rfl
    intro yields
    refine ⟨fun hy => ?_, fun hy => ?_⟩
    · rw [mSchedule_yields (m := m) (r := r) (hv.symm ▸ hb) (hv.symm ▸ hr) (hv.symm ▸ hy), hv, setCore_setCore]
      rfl
    · rw [mSchedule_keeps (m := m) (r := r) (hv.symm ▸ hb) (hv.symm ▸ hr) (hv.symm ▸ hy)]
  case only =>
    intro m hp hq hw ha hpurse
    have hctx : getCtx (setCore s n k) m.ctx = getCtx s m.ctx := getCtx_modCore s n (fun k => k) rfl _
    have hv : getCore (setCore s n k) n = k := getCore_setCore_same ..
    have hbest : mBest (mCandidates (setCore s n k) k) = some m := mBest_only hq hw ha (by rw [hctx]; exact hpurse)
    have hidle : ∀ x ∈ k.mq, x.state ≠ .running := fun x hx => by
      rw [hq, List.mem_singleton] at hx
      rw [hx, hw]
      decide
    rw [matrixEngineSchedule_go hs hp]
    refine congrArg _ ((mSchedule_idle (m := m) (hv.symm ▸ hbest) (hv.symm ▸ hidle)).trans ?_)
    rw [hv, setCore_setCore, startedCore_only hq hw]
  case group =>
    intro m hf hk hsd h8 hp fa fb row sa sb rows hb
    rw [mmaGroup_found hs hf, mmaGroup_rows hk hp h8 hb]
    rfl
  case complete =>
    intro m hf ends moved va p
    obtain ⟨hmma, hrunning, hover, hlines⟩ := matrixCommandComplete_cases hs hf
    have hgo := matrixCommandComplete_found hs hf
    refine ⟨hmma, hrunning, hover, hlines, fun hk hr hl hc => ?_, fun a hk hr hl hc ha hkey hmay => ?_, fun a hk hr hl ha hkey hp he => ?_⟩
    · rw [hgo, matrixComplete_mstc hk hr hl, mstcLine_waits hc]
    · exact ⟨_, hgo.trans (congrArg _ (matrixComplete_mstc hk hr hl)), mstcLine_moves hc ha hkey hmay⟩
    · exact ⟨_, hgo.trans (congrArg _ (matrixComplete_mldc hk hr hl)), mldcLine_moves ha hkey hp he⟩
  case vectorIdle => rw [exec_vectorStep, execVectorStep, hs, vectorStep_empty hq]; rfl
  case vector =>
    intro v rest c hq hp hc size es j bd r kinds paired sp
    have hr : r = stepResult k v := rfl
    have hstep : exec .vectorStep s = .next (vectorStep n s) := by rw [exec_vectorStep, execVectorStep, hs]; rfl
    rw [vectorStep_clean hq hp] at hstep
    refine ⟨fun hl => ?_, fun hl => ?_⟩
    · rw [if_neg (Nat.not_le.2 hl)] at hstep
      exact ⟨_, hstep, stepped_only .., stepped_ctx hc _⟩
    · rw [if_pos hl] at hstep
      have hreg := fun {x : Reg} => readReg_lastStepped (n := n) hc rest (r := x)
      refine ⟨_, hstep, lastStepped_only .., lastStepped_ctx hc rest, fun hd => ?_, fun ha hda => ?_, fun e he hb hdb hab => ?_⟩
      · exact (hreg hd).trans (by rw [namedRegs_d]; rfl)
      · exact (hreg ha).trans (by rw [namedRegs_a hda]; rfl)
      · exact (hreg hb).trans (by rw [namedRegs_b he hdb hab]; rfl)
  case copyLast =>
    intro ch x a b l hch hc hr hg hd hsp hmem hdst bs k'
    have hk : movedCore k ch x (unitBytes s n x a) = k' := by
      rw [movedCore, unitCore_chans, hc, amSet_only, hd]
      rfl
    exact hk ▸ copyUnitTransfer_last hs hch hc hr hg hd ⟨hsp, hmem⟩ hdst
  case copyOver =>
    intro x hx over_
    exact ⟨copyCommandComplete_over hx, copyCommandComplete_waits hx⟩
  case tiles =>
    intro x a hx
    refine ⟨subscriptionTileLand_waits hx, fun hr hl => ?_, subscriptionPullBack_waits hx, fun hr hl => ?_⟩
    · exact ⟨_, _, subscriptionTileLand_lands hx hr, landTile_law hl, settleWaits_only ..⟩
    · exact ⟨_, _, subscriptionPullBack_carries hx hr, pullTile_law hl, settleWaits_only ..⟩
  case ports =>
    intro o c hq hid hn hc hst hb die s1 s2 d arrives
    obtain ⟨i, hu⟩ := atUnit_ports hq
    have hctx : getCtx (atUnit s o) o.ctx = some c := (getCtx_atUnit ..).trans hc
    refine ⟨fun h => ?_, fun h hr => ?_, fun h ha hr hk => ⟨fun hpush hfull => ?_, fun hpop he hw => ?_, fun r hpop he hw hh => ?_,
      fun r e p hpop hh he hpage hl hok hloc hmay hkey hsound => ?_, fun r e p hpush hh hroom hpage hl hok hloc hmay hkey => ?_⟩⟩
    · exact ⟨_, streamPush_held hq hid hn h, countHold_counts ..⟩
    · exact ⟨_, streamPort_waits hq hid hn h hu rfl rfl hr, countHold_counts ..⟩
    · have hgo := streamPush_ready hq hid hn ha hu rfl rfl hpush hr
      rw [pushStep_waits (u := atUnit s o) (q := arrivedAs o i) hfull, answerOut_waits hu hn] at hgo
      exact ⟨_, hgo, touch_counts ..⟩
    · have hgo := streamPop_ready hq hid hn ha hu rfl rfl hpop hr
      rw [popStep_waits (u := atUnit s o) (q := arrivedAs o i) he hw, answerOut_waits hu hn] at hgo
      exact ⟨_, hgo, touch_counts ..⟩
    · have hgo := streamPop_ready hq hid hn ha hu rfl rfl hpop hr
      rw [popStep_traps (u := atUnit s o) (q := arrivedAs o i) he hw] at hgo
      obtain ⟨hm, hports, hx⟩ := answerOut_pop (q := arrivedAs o i) (touch_counts ..).stored hu hctx hh hst hb 0 (some .empty) o.desc
      exact ⟨_, hgo, hm.trans (mem_atUnit ..), hports, hx⟩
    · have hgo := streamPop_ready hq hid hn ha hu rfl rfl hpop hr
      obtain ⟨z, hz, hpopped⟩ := popStep_takes (u := atUnit s o) (q := arrivedAs o i) he
        ⟨hpage, hok, hloc, hmay, (keyed_atUnit ..).trans hkey⟩ hl ((keyed_atUnit ..).trans hk) ((poisonedAt_atUnit ..).trans hsound)
      rw [hpopped, mem_atUnit] at hgo
      obtain ⟨hm, hports, hx⟩ := answerOut_pop hz hu hctx hh hst hb (BitVec.ofNat 64 (leNat (memBytes s.mem e 8))) none 0
      exact ⟨_, hgo, hm.trans (by rw [mem_atUnit]; rfl), hports, hx⟩
    · have hgo := streamPush_ready hq hid hn ha hu rfl rfl hpush hr
      obtain ⟨z, hz, hpushed⟩ := pushStep_puts (u := atUnit s o) (q := arrivedAs o i) hroom
        ⟨hpage, hok, hloc, hmay, (keyed_atUnit ..).trans hkey⟩ hl ((keyed_atUnit ..).trans hk)
      rw [hpushed] at hgo
      obtain ⟨hm, hports, hx⟩ := answerOut_push hz hu hctx hh 0 0
      exact ⟨_, hgo, hm.trans (by rw [mem_atUnit]; rfl), hports, hx⟩

end Sys2Proof.Machine

/-! What the words of a step and of the power hint do (O41). -/

namespace Sys2Proof.Machine

/-! ## What reading a header leaves (R41, R193, R308, R343, R344) -/

section
variable {s : State} {n : Nat} {a : Word}

/-- A translation that does not ask for zeroing only counts and charges its walk. -/
theorem translate_charged (hz : ∀ l, stage1 s (getTenant s n) a = .ok l → l.entry.getLsbD 54 = false) :
    (translate s n a).2 = chargeWalk s n a := by
  unfold translate
  cases h : stage1 s (getTenant s n) a with
  | error e => rfl
  | ok l =>
    have hbit : bit 54 l.entry = false := hz l h
    simp only [fromLeaf, hbit, Bool.false_eq_true, if_false]
    split <;> rfl

/-- The package once a tenant's bytes have been read: the walk is counted and charged, and a line of free values is drawn. -/
def afterRead (s : State) (n : Nat) (a : Word) : State := { s with free := s.free + 8, tenants := (chargeWalk s n a).tenants }

theorem freeLine_charged (s : State) (n : Nat) (a : Word) : (freeLine (chargeWalk s n a)).2 = afterRead s n a := by
  rw [chargeWalk_rest]
  rfl

theorem readTenant_found {k : Nat} (hz : ∀ l, stage1 s (getTenant s n) a = .ok l → l.entry.getLsbD 54 = false)
    (hk : (readTenant s n a k).1.isSome = true) : (readTenant s n a k).2 = afterRead s n a := by
  have ht := translate_charged hz
  unfold readTenant at hk ⊢
  rcases h : translate s n a with ⟨e | p, v⟩
  · rw [h] at hk; cases hk
  · rw [h] at hk ht
    obtain rfl : v = chargeWalk s n a := ht
    simp only at hk ⊢
    cases ho : ownPlace (chargeWalk s n a) n (p.loc a) false with
    | error e => rw [ho] at hk; cases hk
    | ok l =>
      rw [ho] at hk
      by_cases hr : p.rd = true
      · simp only [if_pos hr]; exact freeLine_charged ..
      · simp only [if_neg hr] at hk; cases hk

theorem readHeader_found {x : Word} (hz : ∀ l, stage1 s (getTenant s n) (x - 64) = .ok l → l.entry.getLsbD 54 = false)
    (hk : (readHeader s n x).1.isSome = true) : (readHeader s n x).2 = afterRead s n (x - 64) := by
  unfold readHeader at hk ⊢
  split at hk
  · cases hk
  · next hx =>
    rw [if_neg hx]
    have hr := readTenant_found (k := 64) hz
    rcases h : readTenant s n (x - 64) 64 with ⟨_ | bs, v⟩
    · rw [h] at hk; cases hk
    · rw [h] at hr; exact hr rfl

/-- A word's reading of a tenant's bytes leaves its core as the word has it so far. -/
theorem Did.afterRead {m : State} {c : Ctx} (h : Did s m c s (Machine.my s) 0 RegEntry.zero c) (hm : Marked s m) :
    Did s (Machine.afterRead m n a) c (Machine.afterRead s n a) (Machine.my s) 0 RegEntry.zero c := by
  have hf : m.free = s.free := by rw [hm.rest]
  have ht : (Machine.chargeWalk m n a).tenants = (Machine.chargeWalk s n a).tenants := by rw [(hm.chargeWalk n a).rest]
  rw [Machine.afterRead, hf, ht]
  exact h.pkg (fun v => { v with free := s.free + 8, tenants := (Machine.chargeWalk s n a).tenants }) fun _ _ => rfl

end

/-! ## Steps (R193, R323, R328) -/

section
variable {s : State} {c : Ctx} {w : Bool} {d a b : Reg}

/-- The record of the step that a `dline` opens (R323). -/
def openedStep (s : State) (c : Ctx) (deadline x handler : Word) : StepRec :=
  { id := x.extractLsb' 48 16, deadline := deadline, work := x.extractLsb' 0 48, handler := handler, ctx := me s, tslot := c.tslot,
    vmid := c.vmid, dclass := if c.node.isSome then c.dclass else 0, t0 := s.time, p := 0, tl := s.time, drisk := false }

theorem openedStep_eq {v : State} (hme : me v = me s) (ht : v.time = s.time) (deadline x handler : Word) :
    openedStep v c deadline x handler = openedStep s c deadline x handler := by
  rw [openedStep, hme, ht]
  rfl

/-- A step record written to a core raises no risk while its deadline lies ahead or it has a prediction of its own (R325, R326). -/
theorem riskNow_written {v : State} {j : Nat} {r : StepRec} (ht : r.moving = true ∨ v.time.toNat ≤ r.deadline.toNat) :
    riskNow (modCore v j fun k => { k with step := some r }) j = modCore v j fun k => { k with step := some r } :=
  riskNow_early (by rw [getCore_modCore, if_pos rfl]) ht

/-- A word that writes the step record of its core, and ends. -/
theorem Did.writeStep {v u : State} {o : Core} {c' : Ctx} {x r : StepRec} (h : Did s v c u o 0 RegEntry.zero c') (hu : u.cur = s.cur)
    (hx : x = r) (ht : r.moving = true ∨ u.time.toNat ≤ r.deadline.toNat) :
    Did s (Machine.done (riskNow (modCore v (coreOf (Machine.me v)) fun k => { k with step := some x }) (coreOf (Machine.me v)))) c u
      { o with step := some r } 0 RegEntry.zero (pastWord s.cur c') := by
  subst hx
  have htime : v.time = u.time := h.field State.time fun _ _ => rfl
  rw [riskNow_written (by rw [htime]; exact ht)]
  exact (h.coreAt (congrArg coreOf (h.me hu)) (fun k => { k with step := some x }) fun _ _ _ _ => rfl).done hu

/-- `dline` opens its step. -/
theorem dline_opens (hu : CanIssue s c { srcs := [d, a, b], w := w }) (hv : handlerVerdict (val s c b) s c = .go)
    (hd : s.time.toNat ≤ (val s c d).toNat)
    (hz : ∀ l, stage1 s (getTenant s c.tslot) (val s c b - 64) = .ok l → l.entry.getLsbD 54 = false) :
    Leaves s (.dline w d a b) c (afterRead s c.tslot (val s c b - 64))
      { my s with step := some (openedStep s c (val s c d) (val s c a) (val s c b)) } (pastWord s.cur c) := by
  refine Does.of (exec_dline ..) (settle_law hu ?verdict fun m hm h => ?effect)
  case verdict => simp only [hu.src (.refl s) (r := b) (by simp [Use.regs])]; exact hv
  case effect =>
    have hfound : (readHeader m c.tslot (val s c b)).1.isSome = true := by rw [(hm.readHeader hz).1]; exact handler_some hv
    have hread : (readHeader m c.tslot (val s c b)).2 = afterRead m c.tslot (val s c b - 64) :=
      readHeader_found (by rw [hm.getTenant, hm.stage1]; exact hz) hfound
    have hr := h.afterRead hm (n := c.tslot) (a := val s c b - 64)
    rw [← hread] at hr
    have hsrc : ∀ r ∈ [d, a, b], src (readHeader m c.tslot (val s c b)).2 r = val s c r := fun r hr' =>
      hr.src rfl hu.ctx (hu.unbound r (by simpa [Use.regs] using hr'))
    have hstep := openedStep_eq (c := c) (hr.me rfl) (hr.field State.time fun _ _ => rfl) (val s c d) (val s c a) (val s c b)
    simp only [hm.curCtx, hu.ctx, hu.src hm (r := b) (by simp [Use.regs]), hsrc d (by simp), hsrc a (by simp), hsrc b (by simp)]
    exact hr.writeStep rfl hstep (.inr hd)

theorem Marked.step {m : State} (hm : Marked s m) : (getCore m (coreOf (Machine.me m))).step = (Machine.my s).step :=
  (congrArg Core.step hm.my : (Machine.my m).step = _)

theorem prog_noStep (hu : CanIssue s c { srcs := [a], w := w }) (hs : (my s).step = none) :
    Leaves s (.prog w a) c s (my s) (pastWord s.cur c) := by
  refine Does.of (exec_prog ..) (settle_law hu rfl fun m hm hd => ?_)
  simp only [hm.step, hs]
  exact hd.done rfl

/-- A step whose progress reaches its work is closed. -/
theorem prog_closes {r : StepRec} (hu : CanIssue s c { srcs := [a], w := w }) (hs : (my s).step = some r)
    (hp : r.work.toNat ≤ (val s c a).toNat) : Leaves s (.prog w a) c s { my s with step := none } (pastWord s.cur c) := by
  refine Does.of (exec_prog ..) (settle_law hu rfl fun m hm hd => ?_)
  simp only [hm.step, hs, hu.src hm (r := a) (by simp [Use.regs]), Nat.min_eq_right hp, if_true]
  exact (hd.coreAt (congrArg coreOf hm.me) (fun k => { k with step := none }) fun _ _ _ _ => rfl).done rfl

/-- A step that has reported progress short of its work goes on with it. -/
theorem prog_moves {r : StepRec} (hu : CanIssue s c { srcs := [a], w := w }) (hs : (my s).step = some r)
    (hp : (val s c a).toNat < r.work.toNat) (ht : val s c a ≠ 0 ∨ s.time.toNat ≤ r.deadline.toNat) :
    Leaves s (.prog w a) c s { my s with step := some { r with p := val s c a, tl := s.time } } (pastWord s.cur c) := by
  have hwork : r.work ≠ 0 := fun h => absurd (h ▸ hp) (Nat.not_lt_zero _)
  have hmoving : val s c a ≠ 0 → ({ r with p := val s c a, tl := s.time } : StepRec).moving = true := fun h =>
    (Bool.and_eq_true ..).mpr ⟨bne_iff_ne.2 hwork, bne_iff_ne.2 h⟩
  refine Does.of (exec_prog ..) (settle_law hu rfl fun m hm hd => ?_)
  have hp' : word (val s c a).toNat = val s c a := by simp [word]
  have htime : m.time = s.time := by rw [hm.rest]
  simp only [hm.step, hs, hu.src hm (r := a) (by simp [Use.regs]), Nat.min_eq_left hp.le, if_neg hp.ne, hp', htime]
  exact hd.writeStep rfl rfl (ht.imp_left hmoving)

/-! ## The power hint (R329) -/

theorem pwrHint_leaves (hu : CanIssue s c { srcs := [a], w := w }) :
    Leaves s (.pwrHint w a) c s { my s with hint := (val s c a).extractLsb' 0 2 } (pastWord s.cur c) := by
  refine Does.of (exec_pwrHint ..) (settle_law hu rfl fun m hm hd => ?_)
  simp only [hu.src hm (r := a) (by simp [Use.regs])]
  exact (hd.coreAt (congrArg coreOf hm.me) (fun k => { k with hint := (val s c a).extractLsb' 0 2 }) fun _ _ _ _ => rfl).done rfl

end

end Sys2Proof.Machine

namespace Sys2Proof.Laws
open Machine

/-- Settles O41: a `dline` that opens its step, and `prog` by what the core's step is and whether its work is done. -/
theorem stepWords : Obligations.StepWords := by
  intro s c w a
  refine ⟨fun d b hu hv hd hz => ?opens, fun hu => ⟨prog_noStep hu, fun r => prog_closes hu, fun r => prog_moves hu, pwrHint_leaves hu⟩⟩
  case opens =>
    exact ⟨_, dline_opens hu hv hd hz, fun hr hc => by rw [chargeWalk_quiet hr hc], rfl, rfl, rfl, rfl, rfl, rfl, rfl, rfl, rfl, rfl⟩

end Sys2Proof.Laws

/-! What the words of the matrix engine do (O42 to O44). -/

namespace Sys2Proof.Machine

/-! ## Products (R187 to R189, R250) -/

section
variable {s : State} {c : Ctx}

/-- A product waits for room, whatever its other checks would say. -/
theorem mmaVerdict_full (h : mRoom (my s) (me s) = false) (sd : Bool) (n : Nat) (x y : Word) :
    mmaVerdict sd n x y s (my s) c = .park .queue := by
  simp only [mmaVerdict, h, Bool.not_false, if_true]

theorem mmaVerdict_formats {n : Nat} (h : mRoom (my s) (me s) = true) (hf : fmtOk c.mfmt n = false) (sd : Bool) (x y : Word) :
    mmaVerdict sd n x y s (my s) c = .trap .illop (curWord s) := by
  simp only [mmaVerdict, h, hf, Bool.not_true, Bool.not_false, Bool.false_eq_true, if_false, if_true]

variable {kind : MKind} {sd z w k : Bool} {n : BitVec 4} {a r : Reg} {j : Instr}

theorem product_parks (hu : CanIssue s c { srcs := if sd then [a, r] else [a], w := w, mem := true })
    (hj : exec j s = mmaWord kind sd z w k n a r s) (h : mRoom (my s) (me s) = false) : Parks s j .queue := by
  refine check_park hu ?_ hj
  exact mmaVerdict_full h ..

theorem product_illop (hu : CanIssue s c { srcs := if sd then [a, r] else [a], w := w, mem := true }) (hh : HasHandler s c)
    (hj : exec j s = mmaWord kind sd z w k n a r s) (h : mRoom (my s) (me s) = true) (hf : fmtOk c.mfmt (depthOf n) = false) :
    Traps s j c .illop (curWord s) := by
  refine check_trap hu hh ?_ hj
  exact mmaVerdict_formats h hf ..

end

/-- Settles O42: the six products are one, over their kind, where their B rows come from, and whether they clear their bank. -/
theorem matrixProducts : Obligations.MatrixProducts := by
  refine ⟨fun s c w k n a b => ?enters, fun s c w k n a b => ?stops⟩
  case enters =>
    intro x goes
    have each : ∀ {kind sd z y r j}, exec j s = mmaWord kind sd z w k n a r s →
        CanIssue s c { srcs := if sd then [a, r] else [a], w := w, mem := true } →
        (∀ m, Marked s m → (if sd then src m r else 0) = y) → goes kind sd z y j :=
      fun hj hu hy hok => Does.of hj (product_law hu hy hok)
    refine ⟨fun hu => ?_, fun hu => ⟨each (exec_mmaRot ..) hu fun _ _ => rfl, each (exec_mmaRotZ ..) hu fun _ _ => rfl⟩⟩
    have hb : ∀ m, Marked s m → src m b = val s c b := fun m hm => hu.src hm (by simp [Use.regs])
    exact ⟨each (exec_mma ..) hu hb, each (exec_mmaZ ..) hu hb, each (exec_mmaRotSd ..) hu hb, each (exec_mmaRotSdZ ..) hu hb⟩
  case stops =>
    intro stops
    have each : ∀ {kind sd z r j}, exec j s = mmaWord kind sd z w k n a r s →
        CanIssue s c { srcs := if sd then [a, r] else [a], w := w, mem := true } → stops j :=
      fun hj hu => ⟨product_parks hu hj, fun hroom hf hh => product_illop hu hh hj hroom hf⟩
    exact ⟨fun hu => ⟨each (exec_mma ..) hu, each (exec_mmaZ ..) hu, each (exec_mmaRotSd ..) hu, each (exec_mmaRotSdZ ..) hu⟩,
      fun hu => ⟨each (exec_mmaRot ..) hu, each (exec_mmaRotZ ..) hu⟩⟩

/-! ## Moving accumulators (R191, R255, R256) -/

/-- A move of an accumulator whose bank a command of an open batch wrote last traps ACCHAZ. -/
theorem move_acchaz {s : State} {c : Ctx} {w k wr : Bool} {a b : Reg} {j : Instr}
    (hu : CanIssue s c { srcs := [a, b], w := w, mem := true }) (hj : exec j s = moveWord wr w k a b s)
    (hok : MoveOk s c wr (val s c a) (val s c b)) (hopen : writerOpen s (lastOf (my s) k) = true) (hh : HasHandler s c) :
    Traps s j c .acchaz (curWord s) := by
  refine check_trap hu hh ?_ hj
  simp only [hu.src (.refl s) (r := a) (by simp [Use.regs]), hu.src (.refl s) (r := b) (by simp [Use.regs])]
  rw [moveVerdict_go hok, if_pos hopen]

/-- Settles O43: `mstc` and `mldc` are one, to memory and from it; either traps where the bank's last writer is open. -/
theorem accumulatorMoves : Obligations.AccumulatorMoves := by
  intro s c w k a b hu x y page cmd
  refine ⟨fun hok hclosed => ?mstc, fun hok hclosed => ?mldc, fun wr hok hopen hh => ?acchaz⟩
  case mstc => exact Does.of (exec_mstc ..) (move_law hu hok hclosed)
  case mldc => exact Does.of (exec_mldc ..) (move_law hu hok hclosed)
  case acchaz =>
    cases wr with
    | true => exact move_acchaz hu (exec_mstc ..) hok hopen hh
    | false => exact move_acchaz hu (exec_mldc ..) hok hopen hh

/-! ## Batches (R189, R190) -/

section
variable {s t v u : State} {c c' : Ctx} {o : Core} {d : Reg} {e : RegEntry}

@[simp] theorem pastWord_status (i : Issue) (c : Ctx) : (pastWord i c).status = c.status := by
  unfold pastWord
  dsimp only
  split
  · rfl
  · rfl
  · split <;> rfl

/-- The context once the batch `b` is committed: which batches have completed is found anew (R189). -/
def closedAt (k : Core) (id : Nat) (b : BitVec 32) (c : Ctx) : Ctx := refreshBatch k id { c with committed := b }

/-- A commit changes nothing of its context but the two ids. -/
theorem closedAt_eq (k : Core) (id : Nat) (b : BitVec 32) (c : Ctx) : ∃ x, closedAt k id b c = { c with committed := b, completed := x } := by
  unfold closedAt refreshBatch
  split
  · exact ⟨_, rfl⟩
  · split
    · split
      · exact ⟨c.completed, rfl⟩
      · exact ⟨_, rfl⟩
    · exact ⟨_, rfl⟩

@[simp] theorem closedAt_base (k : Core) (id : Nat) (b : BitVec 32) (c : Ctx) : (closedAt k id b c).base = c.base := by
  obtain ⟨x, h⟩ := closedAt_eq k id b c
  rw [h]

@[simp] theorem closedAt_status (k : Core) (id : Nat) (b : BitVec 32) (c : Ctx) : (closedAt k id b c).status = c.status := by
  obtain ⟨x, h⟩ := closedAt_eq k id b c
  rw [h]

/-- Which batches have completed turns on the queue, not on the record of the rotation. -/
theorem Marked.closedAt (hm : Marked s t) (id : Nat) (b : BitVec 32) (c : Ctx) :
    Machine.closedAt (Machine.my t) id b c = Machine.closedAt (Machine.my s) id b c := by
  rw [hm.my]
  rfl

theorem Around.contexts (h : Around s v u o) (hc : OnlyContexts v t) : Around s t u o := by
  obtain ⟨hpkg, hcore⟩ := h
  refine ⟨?_, fun k => ?_⟩
  · rw [hc.1, hpkg]
  · rw [hc.2 k, hcore k]

theorem settleWaits_rf (v : State) (n j : Nat) : (getCore (settleWaits v n) j).rf = (getCore v j).rf := by
  rw [(settleWaits_law v n).2.1 j]

/-- The package once the word's context has closed its batch. -/
def batchClosed (s : State) (b : BitVec 32) : State := modCtx s (me s) (closedAt (my s) (me s) b)

theorem mcommit_eq (hu : CanIssue s c { srcs := [], dst := some d, mem := true }) :
    let x := batchClosed (markIssued s) (nextBatch c.committed)
    exec (.mcommit d) s = .next (settleWaits (done (writeReg x (me x) d ((nextBatch c.committed).setWidth 64))) (coreOf (me x))) := by
  rw [exec_mcommit, execMcommit, check_go hu, plain, settle_go hu.ctx hu.real]
  simp only [(markIssued_marked s).curCtx, hu.ctx]
  rfl

/-- `mcommit` closes the open batch and answers its id; then the waits of its core are settled. -/
theorem mcommit_law (hu : CanIssue s c { srcs := [], dst := some d, mem := true }) :
    ∃ v n, exec (.mcommit d) s = .next (settleWaits v n) ∧
      Did s v c s (my s) d (filled ((nextBatch c.committed).setWidth 64))
        (pastWord s.cur (closedAt (my s) (me s) (nextBatch c.committed) c)) := by
  have hm := markIssued_marked s
  have hclosed : Did s (batchClosed (markIssued s) (nextBatch c.committed)) c s (my s) 0 RegEntry.zero
      (closedAt (my s) (me s) (nextBatch c.committed) c) := by
    rw [batchClosed, hm.me, ← hm.closedAt]
    exact (Did.start hm hu.ctx).ctx _
  refine ⟨_, _, mcommit_eq hu, ?_⟩
  rw [hclosed.me rfl]
  exact (hclosed.write (closedAt_base ..) d _).done rfl

/-- An id that names a committed batch, or no batch (R190). -/
def NamesBatch (c : Ctx) (x : BitVec 32) : Prop := x = 0 ∨ (c.committed ≠ 0 ∧ batchDist c.committed x < 2 ^ 31)

theorem namesBatch_iff (c : Ctx) (x : BitVec 32) :
    (x != 0 && (c.committed = 0 || decide (2 ^ 31 ≤ batchDist c.committed x))) = false ↔ NamesBatch c x := by
  simp [NamesBatch, or_iff_not_imp_left]

section
variable {w : Bool} {a : Reg}

/-- A wait for a batch goes on or holds by whether that batch has completed. -/
theorem mwait_named (hu : CanIssue s c { srcs := [a], w := w, mem := true }) (hx : NamesBatch c ((val s c a).extractLsb' 0 32)) :
    Leaves s (.mwait w a) c s (my s)
      (if batchDone c ((val s c a).extractLsb' 0 32) then pastWord s.cur c else heldBy s c (.mwait ((val s c a).extractLsb' 0 32))) := by
  have ha : ∀ m, Marked s m → src m a = val s c a := fun m hm => hu.src hm (by simp [Use.regs])
  refine Does.of (exec_mwait ..) (settle_law hu ?verdict fun m hm h => ?effect)
  case verdict => simp only [ha s (.refl s), (namesBatch_iff ..).2 hx, Bool.false_eq_true, if_false]
  case effect =>
    simp only [hm.curCtx, hu.ctx, ha m hm]
    split
    · exact h.retire rfl
    · exact h.hold rfl _

theorem mwait_acchaz (hu : CanIssue s c { srcs := [a], w := w, mem := true }) (hx : ¬ NamesBatch c ((val s c a).extractLsb' 0 32))
    (hh : HasHandler s c) : Traps s (.mwait w a) c .acchaz (val s c a) := by
  refine check_trap hu hh ?_ (exec_mwait ..)
  rw [← namesBatch_iff, Bool.not_eq_false] at hx
  simp only [hu.src (.refl s) (r := a) (by simp [Use.regs]), hx, if_true]

end
end

/-- Settles O44: `mcommit` by what its word does before the waits of its core are settled, which leaves all but statuses; `mwait` by what its
operand names. -/
theorem batches : Obligations.Batches := by
  refine ⟨fun s c d hu hready => ?mcommit, fun s c w a hu => ⟨fun hx hd => ?goes, fun hx hd => ?holds, mwait_acchaz hu⟩⟩
  case mcommit =>
    intro b
    obtain ⟨v, n, hv, haround, hregs, hmine, hothers⟩ := mcommit_law hu
    obtain ⟨-, -, hsame, hstays⟩ := settleWaits_law v n
    refine ⟨_, hv, haround.contexts (settleWaits_only v n), fun k i => ?_, hstays _ _ hmine ?_, fun id hid => ?_⟩
    · rw [settleWaits_rf]; exact hregs k i
    · exact (pastWord_status ..).trans ((closedAt_status ..).trans hready)
    · rw [← hothers id hid]; exact hsame id
  case goes => simpa only [hd, if_true] using mwait_named hu hx
  case holds => simpa only [hd, Bool.false_eq_true, if_false] using mwait_named hu hx

end Sys2Proof.Machine

/-! What the row predicates do at a core of a stream, and in a barrel (O36). -/

namespace Sys2Proof.Machine

section
variable {s : State} {c : Ctx} {w : Bool} {a : Reg} {j : Instr}

theorem joinPredicate_eq (p : Bool) (g : Seg) :
    joinPredicate p g =
      { g with rowWait := g.rowWait.map fun (kd, any, acc, left) => (kd, any, if any then acc || p else acc && p, left) } := by
  unfold joinPredicate
  split
  next h => rw [h]; rfl
  next h => rw [h, Option.map_none, ← h]

theorem modSeg_some {k : Nat} {g : Seg} (h : getSeg s k = some g) (f : Seg → Seg) : modSeg s k f = setSeg s k (f g) := by
  simp only [modSeg, h]

theorem Marked.getSeg {t : State} (h : Marked s t) (k : Nat) : Machine.getSeg t k = Machine.getSeg s k := by
  rw [h.rest]
  rfl

/-- A predicate word at a core of a stream changes the answer that its segment waits for, and goes on at the next word (R203). -/
theorem rowPredicate_joins {n pos core slot : Nat} {g : Seg} (hu : CanIssue s c { srcs := [a], w := w })
    (hl : s.cur.lane = .stream n pos core slot) (hg : getSeg s n = some g) (hj : exec j s = rowPredicate w a s) :
    Leaves s j c (setSeg s n (joinPredicate (val s c a != 0) g)) (my s) (pastWord s.cur c) := by
  refine Does.of hj (settle_law hu ?verdict fun m hm h => ?effect)
  case verdict => simp only [hl]
  case effect =>
    have ha : src m a = val s c a := hu.src hm (by simp [Use.regs])
    simp only [hm.cur, hl, ha, modSeg_some ((hm.getSeg n).trans hg)]
    exact (h.pkg (fun v => setSeg v n _) fun _ _ => rfl).done rfl

/-- A predicate word in a barrel is ILLOP (R59). -/
theorem rowPredicate_illop (hu : CanIssue s c { srcs := [a], w := w }) (hh : HasHandler s c) (hj : exec j s = rowPredicate w a s) :
    Traps s j c .illop (curWord s) := by
  obtain ⟨core, slot, others, hl⟩ := hh.barrel
  refine check_trap hu hh ?_ hj
  simp only [hl]

end

/-- Settles O36: `rowany` and `rowall` are one word at a core, since the kind of the answer stands in the sequencer. -/
theorem rowPredicates : Obligations.RowPredicates := by
  intro s c w d a hu p
  refine ⟨fun n pos core slot g hl hg => ?stream, fun hh => ?barrel⟩
  case stream =>
    intro u
    have joins : u = setSeg s n (joinPredicate p g) := congrArg (setSeg s n) (joinPredicate_eq p g).symm
    rw [joins]
    exact ⟨rowPredicate_joins hu hl hg (exec_rowany ..), rowPredicate_joins hu hl hg (exec_rowall ..)⟩
  case barrel => exact ⟨rowPredicate_illop hu hh (exec_rowany ..), rowPredicate_illop hu hh (exec_rowall ..)⟩

end Sys2Proof.Machine

/-! What the words that convert between number formats write, and that rounding keeps the values of a format (O21, O22). -/

namespace Sys2Proof.Machine

/-! ## The shapes of conversions (R229, R233) -/

section
variable {s : State} {c : Ctx} {i : Instr} {w : Bool} {d a : Reg}

/-- A form of one float operand writes the code that its function gives, and raises its flags. -/
theorem Gives.float1 (hu : CanIssue s c { srcs := [a], dst := some d, w := w, ports := true }) {f : Nat → Nat × FFlags}
    (h : exec i s = Machine.float1 f w d a s) :
    Gives s i c d (BitVec.ofNat 64 (f (val s c a).toNat).1) (f (val s c a).toNat).2 :=
  Gives.of h (float1_law hu)

/-- A form whose function answers an integer writes that integer in two's complement. -/
theorem Gives.floatToInt (hu : CanIssue s c { srcs := [a], dst := some d, w := w, ports := true }) {f : Nat → Int × FFlags}
    (h : exec i s = Machine.float1 (fun x => intCode (f x)) w d a s) :
    Gives s i c d (BitVec.ofInt 64 (f (val s c a).toNat).1) (f (val s c a).toNat).2 := by
  have hcode : BitVec.ofNat 64 (intCode (f (val s c a).toNat)).1 = BitVec.ofInt 64 (f (val s c a).toNat).1 :=
    (BitVec.ofNat_toNat ..).trans (BitVec.setWidth_eq _)
  exact hcode ▸ Gives.float1 hu h

/-- A form that reads a signed doubleword takes its operand in two's complement. -/
theorem Gives.floatOfInt (hu : CanIssue s c { srcs := [a], dst := some d, w := w, ports := true }) {f : Int → Nat × FFlags}
    (h : exec i s = Machine.float1 (fun x => f (sint x)) w d a s) :
    Gives s i c d (BitVec.ofNat 64 (f (val s c a).toInt).1) (f (val s c a).toInt).2 := by
  have hoperand : sint (val s c a).toNat = (val s c a).toInt := toInt_ofNat_toNat _
  exact hoperand ▸ Gives.float1 hu h

end

/-- Settles O21: each conversion is `float1` of its function; the integer forms read or write a doubleword in two's complement. -/
theorem floatConversion : Obligations.FloatConversion := by
  intro s c r w d a hu x m goes whole
  exact ⟨.float1 hu (exec_cvtSD ..),
    .float1 hu (exec_cvtHS ..),
    .float1 hu (exec_cvtBfS ..),
    .float1 hu (exec_cvtDS ..),
    .float1 hu (exec_cvtSH ..),
    .float1 hu (exec_cvtSBf ..),
    .floatOfInt hu (exec_cvtSL ..),
    .floatOfInt hu (exec_cvtDL ..),
    .float1 hu (exec_cvtDLu ..),
    .floatToInt hu (exec_cvtLS ..),
    .floatToInt hu (exec_cvtLD ..),
    .floatToInt hu (exec_cvtLuD ..)⟩

/-! ## The fields of a code (R215, R216) -/

section
variable {f : Fmt} {code m : Nat} {s : Bool} {e : Int}

/-- A code is its sign, its exponent and its fraction. -/
theorem code_eq_fields (hcode : code < 2 ^ (f.ew + f.fw + 1)) :
    code = signCode f (code / f.signW % 2 == 1) + code / 2 ^ f.fw % 2 ^ f.ew * 2 ^ f.fw + code % 2 ^ f.fw := by
  have hsign : code / f.signW % 2 * f.signW = signCode f (code / f.signW % 2 == 1) := by
    rcases Nat.mod_two_eq_zero_or_one (code / f.signW) with h | h <;> simp [signCode, h]
  have htop : code / f.signW % 2 = code / f.signW := Nat.mod_eq_of_lt (Nat.div_lt_of_lt_mul (by rwa [Fmt.signW, ← Nat.pow_succ]))
  have hupper : code / 2 ^ f.fw / 2 ^ f.ew = code / f.signW := by rw [Nat.div_div_eq_div_mul, ← Nat.pow_add, Nat.add_comm f.fw, Fmt.signW]
  calc code = code / 2 ^ f.fw * 2 ^ f.fw + code % 2 ^ f.fw := (Nat.div_add_mod' ..).symm
    _ = (code / f.signW * 2 ^ f.ew + code / 2 ^ f.fw % 2 ^ f.ew) * 2 ^ f.fw + code % 2 ^ f.fw := by
      rw [← hupper, Nat.div_add_mod' (code / 2 ^ f.fw)]
    _ = code / f.signW * f.signW + code / 2 ^ f.fw % 2 ^ f.ew * 2 ^ f.fw + code % 2 ^ f.fw := by
      rw [Nat.add_mul, Nat.mul_assoc, ← Nat.pow_add, Fmt.signW]
    _ = _ := by rw [← hsign, htop]

/-- A code of a finite value is a subnormal one or a normal one (R216). -/
theorem unpack_fin (hcode : code < 2 ^ (f.ew + f.fw + 1)) (h : unpack f code = .fin s m e) :
    ∃ ex fr, code = signCode f s + ex * 2 ^ f.fw + fr ∧ fr < 2 ^ f.fw ∧ ex + 1 < 2 ^ f.ew ∧
      (ex = 0 ∧ m = fr ∧ e = f.emin - f.fw ∨ 0 < ex ∧ m = 2 ^ f.fw + fr ∧ e = ex - f.bias - f.fw) := by
  have hfields := code_eq_fields hcode
  have hfr : code % 2 ^ f.fw < 2 ^ f.fw := Nat.mod_lt _ (Nat.two_pow_pos _)
  have hex : code / 2 ^ f.fw % 2 ^ f.ew < 2 ^ f.ew := Nat.mod_lt _ (Nat.two_pow_pos _)
  simp only [unpack] at h
  split at h
  case isTrue => split at h <;> cases h
  case isFalse hfinite =>
    split at h
    case isTrue hzero =>
      cases h
      exact ⟨_, _, hfields, hfr, by omega, .inl ⟨hzero, rfl, rfl⟩⟩
    case isFalse hnonzero =>
      cases h
      exact ⟨_, _, hfields, hfr, by omega, .inr ⟨Nat.pos_of_ne_zero hnonzero, rfl, rfl⟩⟩

/-! ## Rounding at the format's own spacing (R218) -/

/-- A value whose exponent is that of the format's spacing near it is not shifted: it keeps its digits and raises no flag. -/
theorem roundTo_unshifted (mode : Rounding) (hspacing : max (e + m.log2) f.emin = e + f.fw) (hm : m < 2 ^ (f.fw + 1))
    (hmax : e + f.fw ≤ f.emax) :
    roundTo f mode s m e =
      (if m < 2 ^ f.fw then signCode f s + m else signCode f s + (e + f.fw + f.bias).toNat * 2 ^ f.fw + (m - 2 ^ f.fw), 0) := by
  have hshift : e + f.fw - f.fw - e = 0 := by omega
  unfold roundTo
  simp only [hspacing, hshift, Int.le_refl, if_true, neg_zero, Int.toNat_zero, Nat.shiftLeft_zero,
    if_neg (Nat.ne_of_lt hm), if_neg (Int.not_lt.2 hmax)]
  split <;> simp [whenFlag]

/-- A subnormal value of the format rounds to its fraction. -/
theorem roundTo_subnormal (mode : Rounding) (h0 : m ≠ 0) (hm : m < 2 ^ f.fw) (hemin : f.emin ≤ f.emax) :
    roundTo f mode s m (f.emin - f.fw) = (signCode f s + m, 0) := by
  have hlog : m.log2 < f.fw := (Nat.log2_lt h0).2 hm
  rw [roundTo_unshifted mode (by omega) (by rw [Nat.pow_succ]; omega) (by omega), if_pos hm]

/-- A normal value of the format rounds to its exponent and its fraction. -/
theorem roundTo_normal (mode : Rounding) {ex fr : Nat} (hfr : fr < 2 ^ f.fw) (hpos : 0 < ex) (hmax : ex - f.bias ≤ f.emax) :
    roundTo f mode s (2 ^ f.fw + fr) (ex - f.bias - f.fw) = (signCode f s + ex * 2 ^ f.fw + fr, 0) := by
  have htop : 2 ^ f.fw + fr < 2 ^ (f.fw + 1) := by rw [Nat.pow_succ]; omega
  have hlog : (2 ^ f.fw + fr).log2 = f.fw := (Nat.log2_eq_iff (by have := Nat.two_pow_pos f.fw; omega)).2 ⟨Nat.le_add_right .., htop⟩
  have hspacing : max ((ex : Int) - f.bias - f.fw + (2 ^ f.fw + fr).log2) f.emin = ex - f.bias - f.fw + f.fw := by
    rw [hlog, Fmt.emin]; omega
  have hexponent : ((ex : Int) - f.bias - f.fw + f.fw + f.bias).toNat = ex := by omega
  rw [roundTo_unshifted mode hspacing htop (by omega), if_neg (Nat.not_lt.2 (Nat.le_add_right ..)), hexponent, Nat.add_sub_cancel_left]

/-- The exponents that a field can hold, by the bias: the largest one of a finite code is twice the bias (R215). -/
theorem two_pow_ew (hew : 0 < f.ew) : ((2 ^ f.ew : Nat) : Int) = 2 * f.bias + 2 := by
  obtain ⟨k, hk⟩ : ∃ k, f.ew = k + 1 := ⟨f.ew - 1, by omega⟩
  rw [Fmt.bias, hk, Nat.add_sub_cancel]
  push_cast
  ring

/-- The exact value of a code rounds to that code, with no flag, in every format whose exponent has two bits or more. -/
theorem roundTo_unpack (hew : 1 < f.ew) (mode : Rounding) (hcode : code < 2 ^ (f.ew + f.fw + 1)) (h : unpack f code = .fin s m e)
    (h0 : m ≠ 0) : roundTo f mode s m e = (code, 0) := by
  have hrange := two_pow_ew (f := f) (by omega)
  obtain ⟨ex, fr, hfields, hfr, hex, ⟨rfl, rfl, rfl⟩ | ⟨hpos, rfl, rfl⟩⟩ := unpack_fin hcode h
  case inl =>
    have hbias : 4 ≤ 2 ^ f.ew := Nat.pow_le_pow_right (n := 2) (by decide) hew
    rw [roundTo_subnormal mode h0 hfr (by unfold Fmt.emin Fmt.emax; omega), hfields, Nat.zero_mul, Nat.add_zero]
  case inr => rw [roundTo_normal mode hfr hpos (by unfold Fmt.emax; omega), hfields]

end

/-- Settles O22: at a value of the format the spacing is that of the code, so that nothing is shifted out. -/
theorem roundingExact : Obligations.RoundingExact := by
  intro f hf mode code sign m e hcode h h0
  have hew : 1 < f.ew := (by decide : ∀ f ∈ [fp64, fp32, fp16, bf16], 1 < f.ew) f hf
  exact roundTo_unpack hew mode hcode h h0

end Sys2Proof.Machine

/-! Scalar arithmetic and comparison, vector words, bindings, the code table, trap words and invalidations (O19, O20, O24, O33, O34, O39,
O40). -/

namespace Sys2Proof.Machine

/-! ## The shapes of float words (R231, R232) -/

section
variable {s : State} {c : Ctx} {i : Instr} {w : Bool} {d a b : Reg}

/-- A form of two float operands writes the code that its function gives, and raises its flags. -/
theorem Gives.float2 (hu : CanIssue s c { srcs := [a, b], dst := some d, w := w, ports := true }) {f : Nat → Nat → Nat × FFlags}
    (h : exec i s = Machine.float2 f w d a b s) :
    Gives s i c d (BitVec.ofNat 64 (f (val s c a).toNat (val s c b).toNat).1) (f (val s c a).toNat (val s c b).toNat).2 :=
  Gives.of h (float2_law hu)

/-- A form that also reads its destination takes it as its third operand. -/
theorem Gives.float3 (hu : CanIssue s c { srcs := [a, b, d], dst := some d, w := w, ports := true })
    {f : Nat → Nat → Nat → Nat × FFlags} (h : exec i s = Machine.float3 f w d a b s) :
    Gives s i c d (BitVec.ofNat 64 (f (val s c a).toNat (val s c b).toNat (val s c d).toNat).1)
      (f (val s c a).toNat (val s c b).toNat (val s c d).toNat).2 :=
  Gives.of h (float3_law hu)

/-- A sign form writes all but the sign of its first operand, with the sign of its second or the other one (R232). -/
theorem Gives.floatSign (hu : CanIssue s c { srcs := [a, b], dst := some d, w := w, ports := true }) (f : Fmt) (flip : Bool)
    (h : exec i s = Machine.float2 (fun x y => (fSign f flip (low f x) y, 0)) w d a b s) :
    Gives s i c d
      (BitVec.ofNat 64 ((val s c a).toNat % f.signW +
        (if flip then 1 - (val s c b).toNat / f.signW % 2 else (val s c b).toNat / f.signW % 2) * f.signW)) 0 :=
  fSign_eq f flip (val s c a).toNat (val s c b).toNat ▸ Gives.float2 hu h

end

/-- Settles O19: each form is `float1`, `float2` or `float3` of its function, at the precision of its bit. -/
theorem floatArithmetic : Obligations.FloatArithmetic := by
  intro s c p r w d a f m x goes
  refine ⟨fun hu => .float1 hu (exec_fsqrt ..), fun b => ?operands⟩
  intro y z
  refine ⟨fun hu => ?two, fun hu => ?three⟩
  case two =>
    exact ⟨.float2 hu (exec_fadd ..), .float2 hu (exec_fsub ..), .float2 hu (exec_fmul ..), .float2 hu (exec_fdiv ..)⟩
  case three => exact ⟨.float3 hu (exec_fma ..), .float3 hu (exec_fnma ..)⟩

/-- Settles O20: the comparisons are `float2` of their functions, the sign forms by the bits that they take. -/
theorem floatComparison : Obligations.FloatComparison := by
  intro s c w d a x goes
  refine ⟨fun hu => ⟨.float1 hu (exec_fclassW ..), .float1 hu (exec_fclassD ..)⟩, fun b hu => ?_⟩
  exact ⟨.float2 hu (exec_fminW ..), .float2 hu (exec_fminD ..), .float2 hu (exec_fmaxW ..), .float2 hu (exec_fmaxD ..),
    .float2 hu (exec_feqW ..), .float2 hu (exec_feqD ..), .float2 hu (exec_fltW ..), .float2 hu (exec_fltD ..),
    .float2 hu (exec_fleW ..), .float2 hu (exec_fleD ..),
    .floatSign hu fp32 false (exec_fsgnjW ..), .floatSign hu fp64 false (exec_fsgnjD ..),
    .floatSign hu fp32 true (exec_fsgnjnW ..), .floatSign hu fp64 true (exec_fsgnjnD ..)⟩

/-! ## Vector words (R234, R235) -/

/-- Each arithmetic form has three arrays, whatever its precision. -/
theorem vArrays_arithmetic {op : Nat} (h : op < 0x44) (f3 : Nat) : (vArrays op f3).2.2.isSome = true := by
  unfold vArrays
  rw [if_pos h]
  split <;> rfl

/-- Settles O24: every vector word is `vector` of its opcode and f3; those of two arrays name `g0` as the third. -/
theorem vectorWords : Obligations.VectorWords := by
  intro s c w d a b goes
  refine ⟨fun hu => ?three, fun hu => ?two⟩
  case three =>
    have each : ∀ (op f3 : Nat) (j : Instr), (vArrays op f3).2.2.isSome = true → exec j s = vector op f3 w d a b s → goes op f3 b j :=
      fun op f3 j hthird hj => vector_law (by rw [hthird]; exact hu) (by simp [hthird]) hj
    refine ⟨fun p r => ?arithmetic, each _ _ _ rfl (exec_vminW ..), each _ _ _ rfl (exec_vmaxW ..), each _ _ _ rfl (exec_vminD ..),
      each _ _ _ rfl (exec_vmaxD ..), each _ _ _ rfl (exec_vcvtBd8S ..), each _ _ _ rfl (exec_vcvtSBd8 ..),
      each _ _ _ rfl (exec_vcvtBd4S ..), each _ _ _ rfl (exec_vcvtSBd4 ..)⟩
    intro f3
    have arith : ∀ (op : Nat) (j : Instr), op < 0x44 → exec j s = vector op f3 w d a b s → goes op f3 b j :=
      fun op j hop => each op f3 j (vArrays_arithmetic hop f3)
    exact ⟨arith _ _ (by decide) (exec_vadd ..), arith _ _ (by decide) (exec_vsub ..), arith _ _ (by decide) (exec_vmul ..),
      arith _ _ (by decide) (exec_vfma ..)⟩
  case two =>
    have each : ∀ (op f3 : Nat) (j : Instr), (vArrays op f3).2.2.isSome = false → exec j s = vector op f3 w d a 0 s → goes op f3 0 j :=
      fun op f3 j hthird hj => vector_law (by rw [hthird]; exact hu) (fun _ => rfl) hj
    exact ⟨each _ _ _ rfl (exec_vcpy ..), each _ _ _ rfl (exec_vcvtHS ..), each _ _ _ rfl (exec_vcvtSH ..),
      each _ _ _ rfl (exec_vcvtBfS ..), each _ _ _ rfl (exec_vcvtSBf ..)⟩

/-! ## Stream ports, the code table, trap words and invalidations -/

/-- Settles O33: both bindings are `sbind`, over the direction that it adds to the address. -/
theorem streamBindings : Obligations.StreamBindings := by
  intro s c
  refine ⟨fun w d a hu hv => ⟨?input, ?output⟩, fun d hu => ⟨fun hd => ?unbinds, fun hd hh => ?beyond⟩⟩
  case input =>
    have h := Does.of (exec_sbindIn ..) (sbind_law (dir := 0) hu hv)
    exact (show val s c a + 0 = val s c a from BitVec.add_zero _) ▸ h
  case output => exact Does.of (exec_sbindOut ..) (sbind_law (dir := 1) hu hv)
  case unbinds =>
    exact Does.of (exec_sunbind ..) (settle_law hu (if_neg (Nat.not_le.2 hd)) fun m hm h => (h.ctxAt hm.me _).done rfl)
  case beyond => exact check_trap hu hh (if_pos hd) (exec_sunbind ..)

/-- What `ctab` checks for itself: its operand is aligned, and its 16 bytes lie below the home window (R241). -/
def ctabVerdict (x : Word) (k : Core) : Verdict :=
  if fld 0 4 x != 0 then .trap .misalign x
  else if windowBase k < x.toNat + 16 then .trap .prot x
  else .go

theorem ctabVerdict_misaligned {x : Word} (h : x.toNat % 16 ≠ 0) (k : Core) : ctabVerdict x k = .trap .misalign x := by
  rw [ctabVerdict, if_pos (bne_iff_ne.2 (by rw [fld_low]; exact h))]

theorem ctabVerdict_aligned {x : Word} (h : x.toNat % 16 = 0) (k : Core) :
    ctabVerdict x k = if windowBase k < x.toNat + 16 then .trap .prot x else .go := by
  rw [ctabVerdict, if_neg (by simp [fld_low, h])]

/-- Settles O34: the two checks in their order, and the read of the word's core. -/
theorem codeTable : Obligations.CodeTable := by
  intro s c w a hu x
  have ha : ∀ m, Marked s m → src m a = x := fun m hm => hu.src hm (by simp [Use.regs])
  refine ⟨fun h hh => check_trap hu hh ?misaligned (exec_ctab ..), fun h hw hh => check_trap hu hh ?window (exec_ctab ..),
    fun h hw => Does.of (exec_ctab ..) (settle_law hu ?passes fun m hm hd => ?takes)⟩
  case misaligned =>
    show ctabVerdict (src s a) (my s) = _
    rw [ha s (.refl s), ctabVerdict_misaligned h]
  case window =>
    show ctabVerdict (src s a) (my s) = _
    rw [ha s (.refl s), ctabVerdict_aligned h, if_pos hw]
  case passes =>
    show ctabVerdict (src s a) (my s) = _
    rw [ha s (.refl s), ctabVerdict_aligned h, if_neg (Nat.not_lt.2 hw)]
  case takes =>
    simp only [ha m hm, hm.me]
    exact (hd.coreAt rfl (fun k => { k with ctab := some x.toNat, ctabBytes := spRead k x.toNat 16 }) fun _ _ _ _ => rfl).done rfl

/-- Settles O39: the two traps are those of the words' own checks; `tret` changes its context alone. -/
theorem trapWords : Obligations.TrapWords := by
  intro s c hu
  refine ⟨fun hh => ⟨check_trap hu hh rfl (exec_ecall ..), check_trap hu hh rfl (exec_brk ..)⟩, ?_⟩
  exact Does.of (exec_tret ..) (settle_law hu rfl fun m hm h => h.ctxAt hm.me _)

/-- Settles O40: the four words are `tlbiWord` of their operation. -/
theorem invalidations : Obligations.Invalidations := by
  intro s c goes
  refine ⟨fun w a hu => ?va, fun hu => ?vmid, fun w a b hu => ⟨fun ht => ?s2, fun ht hh => ?s2Prot⟩,
    fun hu => ⟨fun ht => ?all, fun ht hh => ?allProt⟩⟩
  case va =>
    exact Does.of (exec_tlbiVa ..) (tlbi_law hu (fun _ _ => rfl) (fun m hm => hu.src hm (by simp [Use.regs])) (.inl (by decide)))
  case vmid => exact Does.of (exec_tlbiVmid ..) (tlbi_law hu (fun _ _ => rfl) (fun _ _ => rfl) (.inl (by decide)))
  case s2 =>
    refine Does.of (exec_tlbiS2 ..) (tlbi_law hu (fun m hm => ?_) (fun m hm => hu.src hm (by simp [Use.regs])) (.inr ht))
    exact congrArg (BitVec.setWidth 16) (hu.src hm (by simp [Use.regs]))
  case s2Prot => exact tlbi_prot hu hh (exec_tlbiS2 ..) (by decide) ht
  case all => exact Does.of (exec_tlbiAll ..) (tlbi_law hu (fun _ _ => rfl) (fun _ _ => rfl) (.inr ht))
  case allProt => exact tlbi_prot hu hh (exec_tlbiAll ..) (by decide) ht

end Sys2Proof.Machine

/-! What the events of the partition page, the Vault, the host's invalidations, the counters and the firmware do (O58). -/

namespace Sys2Proof.Machine

/-- A field of a word that was stored, read as a number (R10). -/
theorem fld_of_extract {lo n : Nat} {x : Word} {y : BitVec n} (h : x.extractLsb' lo n = y) : fld lo n x = y.toNat := congrArg BitVec.toNat h

section
variable {s : State}

/-! ## Transfers (R341, R342) -/

/-- The number of a kind of resource fits its field. -/
theorem ResKind.toNat_code (k : ResKind) : (BitVec.ofNat 2 k.code).toNat = k.code := by cases k <;> rfl

/-- The event of each kind is the store of that kind, which firmware serves. -/
theorem exec_transfer {k : ResKind} {e : Instr}
    (h : (k, e) ∈ [(ResKind.row, Instr.transferRow), (.slice, .transferSlice), (.channel, .transferChannel), (.engine, .transferEngine)])
    (hs : s.fw.switching = false) : exec e s = .next (transfer k s) := by
  have each : ∀ j : Instr, exec j s = .next (unlessSwitching s j (transfer k)) → exec j s = .next (transfer k s) :=
    fun j hj => by rw [hj, unlessSwitching_off hs]
  simp only [List.mem_cons, List.not_mem_nil, or_false, Prod.mk.injEq] at h
  rcases h with ⟨rfl, rfl⟩ | ⟨rfl, rfl⟩ | ⟨rfl, rfl⟩ | ⟨rfl, rfl⟩
  · exact each _ (exec_transferRow ..)
  · exact each _ (exec_transferSlice ..)
  · exact each _ (exec_transferChannel ..)
  · exact each _ (exec_transferEngine ..)

theorem transferComplete_done (hb : s.tBusy = true) (ht : s.tlbis.any (fun t => t.op == 4) = false) :
    exec .transferComplete s = .next { s with tBusy := false, tStatus := 0 } := by
  simp only [exec_transferComplete, execTransferComplete, hb, ht, Bool.not_false, Bool.and_self, if_true]

/-! ## The Vault (R347, R348) -/

/-- The word stored to VCMD asks for `op` of key `i`, and its reserved bits are zero. -/
structure VaultAsks (s : State) (op : Nat) : Prop where
  free : s.vBusy = false
  asked : fld 62 2 s.arg.v = op
  above : fld 48 14 s.arg.v = 0
  between : fld 8 24 s.arg.v = 0

theorem vaultWord_asked {op : Nat} (h : VaultAsks s op) : vaultWord s op = true := by
  simp only [vaultWord, h.free, h.asked, h.above, h.between, Bool.not_false, beq_self_eq_true, Bool.and_self]

theorem vaultGenerate_zero (hs : s.fw.switching = false) (h : VaultAsks s 1) (hi : fld 0 8 s.arg.v = 0) :
    exec .vaultGenerate s = .next { s with vStatus := 3 } := by
  simp only [exec_vaultGenerate, execVaultGenerate, unlessSwitching_off hs, vaultWord_asked h, hi, Bool.not_true, Bool.false_eq_true, if_false,
    if_true]

theorem vaultGenerate_taken (hs : s.fw.switching = false) (h : VaultAsks s 1) (hi : fld 0 8 s.arg.v ≠ 0)
    (ha : amGet s.vault (fld 0 8 s.arg.v) ≠ none) : exec .vaultGenerate s = .next { s with vStatus := 1 } := by
  simp only [exec_vaultGenerate, execVaultGenerate, unlessSwitching_off hs, vaultWord_asked h, hi, Option.isSome_iff_ne_none.2 ha,
    Bool.not_true, Bool.false_eq_true, if_false, if_true]

theorem vaultGenerate_makes (hs : s.fw.switching = false) (h : VaultAsks s 1) (hi : fld 0 8 s.arg.v ≠ 0)
    (ha : amGet s.vault (fld 0 8 s.arg.v) = none) :
    exec .vaultGenerate s = .next { s with
      nextId := s.nextId + 1, vault := amSet s.vault (fld 0 8 s.arg.v) (s.arg.v.extractLsb' 32 16),
      keyGen := amSet s.keyGen (fld 0 8 s.arg.v) s.nextId, vStatus := 0 } := by
  simp only [exec_vaultGenerate, execVaultGenerate, unlessSwitching_off hs, vaultWord_asked h, hi, ha, Option.isSome_none, takeId_eq,
    Bool.not_true, Bool.false_eq_true, if_false]

theorem vaultDestroy_zero (hs : s.fw.switching = false) (h : VaultAsks s 2) (hi : fld 0 8 s.arg.v = 0) :
    exec .vaultDestroy s = .next { s with vStatus := 3 } := by
  simp only [exec_vaultDestroy, execVaultDestroy, unlessSwitching_off hs, vaultWord_asked h, hi, Bool.not_true, Bool.false_eq_true, if_false,
    if_true]

theorem vaultDestroy_unknown (hs : s.fw.switching = false) (h : VaultAsks s 2) (hi : fld 0 8 s.arg.v ≠ 0)
    (ha : amGet s.vault (fld 0 8 s.arg.v) = none) : exec .vaultDestroy s = .next { s with vStatus := 2 } := by
  simp only [exec_vaultDestroy, execVaultDestroy, unlessSwitching_off hs, vaultWord_asked h, hi, ha, Option.isNone_none, Bool.not_true,
    Bool.false_eq_true, if_false, if_true]

theorem vaultDestroy_begins (hs : s.fw.switching = false) (h : VaultAsks s 2) (hi : fld 0 8 s.arg.v ≠ 0)
    (ha : amGet s.vault (fld 0 8 s.arg.v) ≠ none) :
    exec .vaultDestroy s = .next { s with
      nextId := s.nextId + 1, vBusy := true, vJob := some (BitVec.ofNat 8 (fld 0 8 s.arg.v)),
      tlbis := s.tlbis ++ [{ id := s.nextId, op := 5, vmid := 0, addr := BitVec.ofNat 64 (fld 0 8 s.arg.v), ctx := none, upto := s.nextId + 1,
                             sent := false }] } := by
  have hk : (amGet s.vault (fld 0 8 s.arg.v)).isNone = false := by rw [Option.isNone_eq_false_iff, Option.isSome_iff_ne_none]; exact ha
  simp only [exec_vaultDestroy, execVaultDestroy, unlessSwitching_off hs, vaultWord_asked h, hi, hk, takeId_eq, Bool.not_true,
    Bool.false_eq_true, if_false]
  rfl

theorem keyDestroyComplete_done {id : BitVec 8} (hj : s.vJob = some id) (ht : s.tlbis.any (fun t => t.op == 5) = false) :
    exec .keyDestroyComplete s =
      .next { s with vault := amErase s.vault id.toNat, vJob := none, vBusy := false, vStatus := 0 } := by
  simp only [exec_keyDestroyComplete, execKeyDestroyComplete, hj, ht, Bool.false_eq_true, if_false]

/-! ## Invalidation from the host, and counters (R343, R349) -/

/-- The invalidation that a store to INVCMD begins. -/
def hostInvalidation (s : State) (op : Nat) : Tlbi :=
  { id := s.nextId, op := op, vmid := s.arg.v.extractLsb' 0 16, addr := s.invAddr, ctx := none, upto := s.nextId + 1, sent := false }

theorem hostTlbi_busy {op : Nat} (hb : s.invBusy = true) : hostTlbi op s = s := by
  simp only [hostTlbi, hb, Bool.true_or, if_true]

theorem hostTlbi_begins {op : Nat} (hb : s.invBusy = false) (ho : fld 62 2 s.arg.v = op) (hz : fld 16 46 s.arg.v = 0) :
    hostTlbi op s = { s with nextId := s.nextId + 1, invBusy := true, tlbis := s.tlbis ++ [hostInvalidation s op] } := by
  simp only [hostTlbi, hb, ho, hz, takeId_eq, bne_self_eq_false, Bool.or_self, Bool.false_eq_true, if_false, hostInvalidation]

/-- The four events are `hostTlbi` of their operation, which fits its field. -/
theorem exec_hostTlbi {op : Nat} {e : Instr}
    (h : (op, e) ∈ [(0, Instr.hostTlbiVa), (1, .hostTlbiVmid), (2, .hostTlbiS2), (3, .hostTlbiAll)]) :
    op < 4 ∧ exec e s = .next (hostTlbi op s) := by
  simp only [List.mem_cons, List.not_mem_nil, or_false, Prod.mk.injEq] at h
  rcases h with ⟨rfl, rfl⟩ | ⟨rfl, rfl⟩ | ⟨rfl, rfl⟩ | ⟨rfl, rfl⟩
  · exact ⟨by decide, exec_hostTlbiVa ..⟩
  · exact ⟨by decide, exec_hostTlbiVmid ..⟩
  · exact ⟨by decide, exec_hostTlbiS2 ..⟩
  · exact ⟨by decide, exec_hostTlbiAll ..⟩

theorem counterSelectWrite_takes (hi : s.arg.idx < 8) (hv : fld 9 47 s.arg.v = 0) :
    exec .counterSelectWrite s = .next (setTenant s s.arg.slot { getTenant s s.arg.slot with
      counters := amSet (getTenant s s.arg.slot).counters s.arg.idx { sel := s.arg.v, val := 0 } }) := by
  simp only [exec_counterSelectWrite, execCounterSelectWrite, hv, decide_eq_false (Nat.not_le.2 hi), bne_self_eq_false, Bool.or_self,
    Bool.false_eq_true, if_false, modTenant_eq]

/-! ## Firmware commands (R350 to R353) -/

/-- An image may be taken: it passes R350 and is not older than the one that runs (R352). -/
def imageTaken (f : Firmware) (image : List Byte) : Bool :=
  imageGood image && decide ((Config.imageSvn (fwBank f f.active).image).toNat ≤ (Config.imageSvn image).toNat)

theorem fwUpdate_judges (hb : s.fw.busy = false) (hk : keyed s 0 s.fw.addr.toNat s.arg.num = true) :
    exec .fwUpdate s = .next { s with fw :=
      { (if imageTaken s.fw (memBytes s.mem s.fw.addr.toNat s.arg.num)
          then setFwBank s.fw (!s.fw.active) { image := memBytes s.mem s.fw.addr.toNat s.arg.num, verified := true } else s.fw) with
        busy := true, result := if imageTaken s.fw (memBytes s.mem s.fw.addr.toNat s.arg.num) then 0 else 6 } } := by
  simp only [exec_fwUpdate, execFwUpdate, hb, hbmBytes_keyed hk, Bool.false_eq_true, if_false]
  rfl

theorem fwSwitch_begins (hb : s.fw.busy = false) (hv : (fwBank s.fw (!s.fw.active)).verified = true) :
    exec .fwSwitch s = .next { s with fw := { s.fw with busy := true, switching := true } } := by
  simp only [exec_fwSwitch, execFwSwitch, hb, hv, Bool.false_eq_true, if_false, if_true]

theorem fwSwitch_refused (hb : s.fw.busy = false) (hv : (fwBank s.fw (!s.fw.active)).verified = false) :
    exec .fwSwitch s = .next { s with fw := { s.fw with busy := true, result := 6 } } := by
  simp only [exec_fwSwitch, execFwSwitch, hb, hv, Bool.false_eq_true, if_false]

theorem fwReady_switches (hs : s.fw.switching = true) :
    exec .fwReady s = .next (serveHeld s { s.fw with
      active := !s.fw.active, result := 0, switches := if s.fw.switches = 255 then 255 else s.fw.switches + 1 }) := by
  have hcount : (if s.fw.switches = allOnes 8 then s.fw.switches else s.fw.switches + 1) =
      if s.fw.switches = 255 then 255 else s.fw.switches + 1 := by
    rw [show allOnes 8 = (255 : BitVec 8) from rfl]
    split
    · assumption
    · rfl
  simp only [exec_fwReady, execFwReady, hs, hcount, if_true]

theorem fwSwitchTimeout_returns (hs : s.fw.switching = true) :
    exec .fwSwitchTimeout s = .next (serveHeld s { s.fw with result := 5 }) := by
  simp only [exec_fwSwitchTimeout, execFwSwitchTimeout, hs, if_true]

theorem fwCommandComplete_writes (hb : s.fw.busy = true) (hs : s.fw.switching = false) :
    exec .fwCommandComplete s = .next { s with fw := { s.fw with busy := false, status := s.fw.result } } := by
  simp only [exec_fwCommandComplete, execFwCommandComplete, hb, hs, Bool.not_false, Bool.and_self, if_true]

/-! ## Reports (R351) -/

theorem measure_length (image : List Byte) : (measure image).length = 64 := by simp only [measure, shake256, List.length_map, List.length_range]

/-- The head of a report is 256 bytes, with or without a measured second bank. -/
theorem reportHead_length (s : State) : (reportHead s).length = 256 := by
  have hother : (if (fwBank s.fw (!s.fw.active)).verified then measure (fwBank s.fw (!s.fw.active)).image else List.replicate 64 0).length = 64 := by
    split
    · exact measure_length _
    · exact List.length_replicate
  simp only [reportHead, List.length_append, leBytes_length, measure_length, hother, List.length_replicate, List.length_flatMap,
    List.map_const', List.length_range, List.sum_replicate, smul_eq_mul]

/-- The report as it is written: its head and the signature over it. -/
def reportBytes (s : State) : List Byte :=
  reportHead s ++ (List.range 9893).map (Config.identitySignature s.fw.keyIndex (reportHead s))

theorem reportBytes_length (s : State) : (reportBytes s).length = 10149 := by
  rw [reportBytes, List.length_append, reportHead_length, List.length_map, List.length_range]

/-- Bytes written at a physical address leave all but memory, what lines are keyed under, watched and poisoned. -/
theorem putPhysical_keyed {a : Nat} {bs : List Byte} (ha : a + bs.length ≤ 2 ^ 39) (hk : keyed s 0 a bs.length = true) :
    (putPhysical s a bs).mem = memPut s.mem a bs := by
  have htake : bs.take (2 ^ 39 - a) = bs := List.take_of_length_le (by omega)
  have hsame : rekey (noteWrite s (.hbm a) bs.length) 0 a bs.length = noteWrite s (.hbm a) bs.length := rekey_same hk
  unfold putPhysical
  simp only [htake, hsame]
  rfl

theorem attestationReport_exhausted (hs : s.fw.switching = false) (hb : s.fw.busy = false) (ha : fld 0 6 s.fw.addr = 0)
    (hk : 2 ^ 40 ≤ s.fw.keyIndex) : exec .attestationReport s = .next { s with fw := { s.fw with busy := true, result := 4 } } := by
  simp only [exec_attestationReport, execAttestationReport, unlessSwitching_off hs, hb, ha, hk, bne_self_eq_false, Bool.or_self,
    Bool.false_eq_true, if_false, if_true]

theorem attestationReport_writes (hs : s.fw.switching = false) (hb : s.fw.busy = false) (ha : fld 0 6 s.fw.addr = 0)
    (hk : s.fw.keyIndex < 2 ^ 40) :
    exec .attestationReport s = .next { putPhysical s s.fw.addr.toNat (reportBytes s) with
      fw := { s.fw with busy := true, result := 0, keyIndex := s.fw.keyIndex + 1 } } := by
  simp only [exec_attestationReport, execAttestationReport, unlessSwitching_off hs, hb, ha, if_neg (Nat.not_le.2 hk), bne_self_eq_false,
    Bool.or_self, Bool.false_eq_true, if_false]
  rfl

/-! ## Power on (R350, R368) -/

/-- What marking the banks leaves of the firmware's record. -/
theorem verifiedBanks_rest (f : Firmware) (b : Bool) :
    verifiedBanks f b = { f with bank0 := (verifiedBanks f b).bank0, bank1 := (verifiedBanks f b).bank1 } := by
  have hset : ∀ (g : Firmware) (c : Bool) (x : Bank),
      setFwBank g c x = { g with bank0 := (setFwBank g c x).bank0, bank1 := (setFwBank g c x).bank1 } := by
    intro g c x
    cases c <;> rfl
  unfold verifiedBanks
  dsimp only
  rw [hset]
  split
  · rfl
  · rw [hset f]

theorem powerOn_boots {b : Bool} (h : bootBank (powerUp s).fw = some b) :
    exec .powerOn s = .next { powerUp s with
      fw := { verifiedBanks (powerUp s).fw b with active := b }, hostUp := true, time := s.arg.v } := by
  simp only [exec_powerOn, execPowerOn, h]

theorem powerOn_fails (h : bootBank (powerUp s).fw = none) :
    exec .powerOn s = .next { powerUp s with
      fw := { (powerUp s).fw with inReset := true }, out := (powerUp s).out ++ [.bootFailed] } := by
  simp only [exec_powerOn, execPowerOn, h]

/-! ## Register words (R337) -/

theorem registerWrite_narrow (hf : s.arg.flag = false) (h0 : s.arg.num2 ≠ 0) (h8 : s.arg.num2 ≤ 8) :
    exec .registerWrite s = .next (regStoreBytes s s.arg.num (leBytes s.arg.num2 s.arg.v.toNat)) := by
  simp only [exec_registerWrite, execRegisterWrite, hf, h0, Nat.min_eq_left h8, Bool.false_eq_true, if_false]

theorem registerWrite_word (hf : s.arg.flag = false) (h0 : s.arg.num2 = 0) :
    exec .registerWrite s = .next (writeRegister s s.arg.num s.arg.v) := by
  simp only [exec_registerWrite, execRegisterWrite, hf, h0, Bool.false_eq_true, if_false, if_true]

theorem writeRegister_misaligned {off : Nat} (h : off % 8 ≠ 0) (v : Word) : writeRegister s off v = s := by
  simp only [writeRegister, bne_iff_ne, ne_eq, h, not_false_eq_true, if_true]

theorem registerWrite_window (hf : s.arg.flag = true) (hn : s.arg.num = 0 ∨ s.arg.num = 16384 ∨ s.arg.num = 32768) :
    exec .registerWrite s = .next (refreshWin (modCore s s.arg.unit fun k => { k with winSet := s.arg.num }) s.arg.unit) := by
  have hsize : (decide (s.arg.num = 0) || decide (s.arg.num = 16384) || decide (s.arg.num = 32768)) = true := by simpa [or_assoc] using hn
  simp only [exec_registerWrite, execRegisterWrite, hf, hsize, if_true]

end

/-- Settles O58, clause by clause: the rule of each event for the case that the clause names. -/
theorem partitionEvents : Obligations.PartitionEvents := by
  intro s t v x f i dest
  refine ⟨fun k e hm hs hb hk h54 h8 => ?transfers, transferComplete_done,
    fun hs hb h48 h8 => ⟨fun h1 => ?generates, fun h2 => ?destroys⟩,
    fun id hj ht => keyDestroyComplete_done hj ht,
    fun op e hm ho hz => ?invalidates,
    fun hi hv => counterSelectWrite_takes hi (fld_of_extract hv),
    fun hb hk => ?update,
    fun hb => ⟨fwSwitch_begins hb, fwSwitch_refused hb⟩,
    fun hs => ?switched,
    fun hs hb ha => ⟨attestationReport_exhausted hs hb (fld_of_extract ha), fun hk => ?reports⟩,
    fwCommandComplete_writes, fun b hb => ?boots, powerOn_fails, registerWrite_narrow,
    fun hf h0 => ⟨registerWrite_word hf h0, fun hn => ?misaligned, fun hn => ?limits, fun hn => ?address⟩,
    registerWrite_window⟩
  case transfers =>
    obtain ⟨hindex, hslot, huse, hgives⟩ := transfer_law (s := s) k hb ((fld_of_extract hk).trans k.toNat_code) (fld_of_extract h54)
      (fld_of_extract h8)
    rw [exec_transfer hm hs]
    exact ⟨fun h => congrArg _ (hindex h), fun h he => congrArg _ (hslot h he), fun h he hu => congrArg _ (huse h he hu),
      fun h he hu => ⟨_, rfl, hgives h he hu⟩⟩
  case generates =>
    have hask : VaultAsks s 1 := ⟨hb, fld_of_extract h1, fld_of_extract h48, fld_of_extract h8⟩
    exact ⟨vaultGenerate_zero hs hask, vaultGenerate_taken hs hask, vaultGenerate_makes hs hask⟩
  case destroys =>
    have hask : VaultAsks s 2 := ⟨hb, fld_of_extract h2, fld_of_extract h48, fld_of_extract h8⟩
    exact ⟨vaultDestroy_zero hs hask, vaultDestroy_unknown hs hask, vaultDestroy_begins hs hask⟩
  case invalidates =>
    obtain ⟨hop, he⟩ := exec_hostTlbi (s := s) hm
    have hasked : fld 62 2 v = op := (fld_of_extract ho).trans (Nat.mod_eq_of_lt hop)
    rw [he]
    exact ⟨fun hb => congrArg _ (hostTlbi_busy hb), fun hb => congrArg _ (hostTlbi_begins hb hasked (fld_of_extract hz))⟩
  case update =>
    intro image ok
    refine ⟨fun hok => ?takes, fun hok => ?refuses⟩
    case takes =>
      have htaken : imageTaken s.fw image = true := hok
      rw [fwUpdate_judges hb hk, if_pos htaken, if_pos htaken]
    case refuses =>
      have htaken : imageTaken s.fw image ≠ true := by rw [show imageTaken s.fw image = false from hok]; exact Bool.false_ne_true
      rw [fwUpdate_judges hb hk, if_neg htaken, if_neg htaken]
  case switched =>
    intro idle
    exact ⟨fwReady_switches hs, fwSwitchTimeout_returns hs⟩
  case reports =>
    refine ⟨_, attestationReport_writes hs hb (fld_of_extract ha) hk, rfl, reportHead_length s, fun hfits hkey => ?_⟩
    exact putPhysical_keyed (by rw [reportBytes_length]; exact hfits) (by rw [reportBytes_length]; exact hkey)
  case boots =>
    have hindex : (verifiedBanks (powerUp s).fw b).keyIndex = s.fw.keyIndex := by rw [verifiedBanks_rest]; rfl
    have hreset : (verifiedBanks (powerUp s).fw b).inReset = false := by rw [verifiedBanks_rest]; rfl
    exact ⟨_, powerOn_boots hb, rfl, rfl, rfl, rfl, rfl, rfl, hindex, hreset⟩
  case misaligned => rw [registerWrite_word hf h0, writeRegister_misaligned hn]
  case limits => rw [registerWrite_word hf h0, hn]; rfl
  case address => rw [registerWrite_word hf h0, hn]; rfl

end Sys2Proof.Machine

/-! What the governor, the power controller, the thermal sensors, the purses and the telemetry do by themselves (O59). -/

namespace Sys2Proof.Machine

section
variable {s : State}

/-! ## The governor (R326) -/

theorem governorEvaluate_governs (s : State) :
    exec .governorEvaluate s = .next (governRow (judgeStep s s.arg.unit) (rowOf s.arg.unit)) := exec_governorEvaluate ..

theorem judgeStep_none {n : Nat} (h : (getCore s n).step = none) : judgeStep s n = s := by simp only [judgeStep, h]

theorem judgeStep_early {n : Nat} {k : StepRec} (h : (getCore s n).step = some k)
    (hl : isLate s n (minDiv (pointFor s (rowOf n) 7)) k = false) : judgeStep s n = s := by
  simp only [judgeStep, h, hl, Bool.false_eq_true, if_false]

theorem judgeStep_late {n : Nat} {k : StepRec} (h : (getCore s n).step = some k)
    (hl : isLate s n (minDiv (pointFor s (rowOf n) 7)) k = true) :
    judgeStep s n =
      raiseRisk s n k (BitVec.ofNat 64 (stepTime s n (minDiv (pointFor s (rowOf n) 7)) - k.deadline.toNat)) := by
  simp only [judgeStep, h, hl, if_true]
  rfl

/-! ## The power controller (R330) -/

section
variable {lim : Nat}

/-- A cap falls: the average exceeds the limit, or has come down to it since it did. -/
theorem powerSlowCheck_lowers (hl : slowLimit s s.arg.slot = some lim)
    (h : lim < s.arg.num ∨ (s.arg.num = lim ∧ s.lowering.contains s.arg.slot = true)) :
    exec .powerSlowCheck s = .next (lowerCap { s with
      lowering := if s.lowering.contains s.arg.slot then s.lowering else s.arg.slot :: s.lowering } s.arg.slot) := by
  have hb : (decide (lim < s.arg.num) || (decide (s.arg.num = lim) && s.lowering.contains s.arg.slot)) = true := by simpa using h
  simp only [exec_powerSlowCheck, execPowerSlowCheck, hl, hb, if_true]

theorem lowerCap_some {who r : Nat} (h : rowToLower s who = some r) :
    lowerCap s who = applyCap (modRow { s with lowered := (r, who) :: s.lowered } r fun x => { x with power := x.power - 1 }) r := by
  simp only [lowerCap, h]

/-- Below the limit caps fall no more; one rises where 100 µs have passed, the average is below 95 % and no switch is under way. -/
theorem powerSlowCheck_below (hl : slowLimit s s.arg.slot = some lim) (h : s.arg.num < lim) :
    exec .powerSlowCheck s = .next
      (if s.arg.flag && decide (s.arg.num * 100 < lim * 95) && !s.fw.switching
        then raiseCap { s with lowering := s.lowering.filter (· != s.arg.slot) } s.arg.slot
        else { s with lowering := s.lowering.filter (· != s.arg.slot) }) := by
  have hb : (decide (lim < s.arg.num) || (decide (s.arg.num = lim) && s.lowering.contains s.arg.slot)) = false := by
    rw [decide_eq_false (by omega), decide_eq_false (by omega)]; rfl
  simp only [exec_powerSlowCheck, execPowerSlowCheck, hl, hb, h, Bool.false_eq_true, if_false, if_true]

theorem raiseCap_some {who : Nat} {e : Nat × Nat} (h : s.lowered.find? (fun e => e.2 == who) = some e) :
    raiseCap s who = modRow { s with lowered := s.lowered.erase e } e.1 fun x => { x with power := min 7 (x.power + 1) } := by
  simp only [raiseCap, h]

/-- At the limit a controller that lowers no caps leaves them. -/
theorem powerSlowCheck_at (hl : slowLimit s s.arg.slot = some lim) (h : s.arg.num = lim) (hc : s.lowering.contains s.arg.slot = false) :
    exec .powerSlowCheck s = .next s := by
  have hb : (decide (lim < s.arg.num) || (decide (s.arg.num = lim) && s.lowering.contains s.arg.slot)) = false := by
    rw [decide_eq_false (by omega), hc, Bool.and_false]; rfl
  have hr : (s.arg.flag && decide (s.arg.num * 100 < lim * 95) && !s.fw.switching) = false := by
    rw [decide_eq_false (by omega), Bool.and_false, Bool.false_and]
  simp only [exec_powerSlowCheck, execPowerSlowCheck, hl, hb, hr, if_neg (show ¬ s.arg.num < lim by omega), Bool.false_eq_true, if_false]

theorem powerFastWindow_above (hl : fastLimit s s.arg.slot = some lim) (h : lim < s.arg.num) :
    exec .powerFastWindow s = .next (s.arg.pairs.foldl (fun u e => benchSome s.arg.slot e.1 e.2 u)
      { s with fastCalm := amSet s.fastCalm s.arg.slot 0 }) := by
  simp only [exec_powerFastWindow, execPowerFastWindow, hl, h, if_true]

/-- A window below the limit is counted; the second in a row ends the benching. -/
theorem powerFastWindow_below (hl : fastLimit s s.arg.slot = some lim) (h : s.arg.num < lim) {n : Nat}
    (hn : amGetD 0 s.fastCalm s.arg.slot = n) :
    exec .powerFastWindow s = .next
      (if 2 ≤ n + 1 then unbenchFast { s with fastCalm := amSet s.fastCalm s.arg.slot (min (n + 1) 2) } s.arg.slot
        else { s with fastCalm := amSet s.fastCalm s.arg.slot (min (n + 1) 2) }) := by
  simp only [exec_powerFastWindow, execPowerFastWindow, hl, h, if_neg (show ¬ lim < s.arg.num by omega), hn, if_true]

end

/-- One context of a core is benched: the next in the order of R175. -/
theorem benchSome_one {who core i : Nat} {c : Ctx} (hn : benchNext s who core = some i) (hc : getCtx s (ctxId core i) = some c)
    (hr : c.status = .ready) :
    benchSome who core 1 s =
      setCtx { s with fastBench := s.fastBench ++ [(ctxId core i, who)] } (ctxId core i) { c with benchPower := true } := by
  have hc' : getCtx { s with fastBench := s.fastBench ++ [(ctxId core i, who)] } (ctxId core i) = some c := hc
  simp only [benchSome, hn, benchCtx, withdrawBar_ready hc' hr, modCtx_some hc']

/-- The one context that was benched for a limit issues again. -/
theorem unbenchFast_one {who id : Nat} {c : Ctx} (hb : s.fastBench = [(id, who)]) (hc : getCtx s id = some c) :
    unbenchFast s who = setCtx { s with fastBench := [] } id { c with benchPower := false } := by
  have hmine : s.fastBench.filter (fun e => e.2 == who) = [(id, who)] := by simp [hb]
  have hrest : s.fastBench.filter (fun e => e.2 != who) = [] := by simp [hb]
  have hc' : getCtx { s with fastBench := [] } id = some c := hc
  simp only [unbenchFast, hmine, hrest, List.reverse_cons, List.reverse_nil, List.nil_append, List.foldl_cons, List.foldl_nil,
    List.any_nil, Bool.false_eq_true, if_false, modCtx_some hc']

/-! ## Temperature (R331) -/

/-- The hottest reading as the page shows it. -/
def withHottest (s : State) (e temp : Nat) : State := { s with hottest := BitVec.ofNat 32 (temp % 65536 * 65536 + e) }

/-- One reading heats or cools the row of its engine alone. -/
theorem thermalRead_one {e temp : Nat} (hp : s.arg.pairs = [(e, temp)]) (he : e < 2176) :
    exec .thermalRead s = .next (heatRow (withHottest s e temp) (engineRow e) temp) := by
  have hxs : s.arg.pairs.filter (fun x => decide (x.1 < 2176)) = [(e, temp)] := by simp [hp, he]
  have hrow : engineRow e ∈ List.range 128 := List.mem_range.2 (by unfold engineRow; omega)
  have hown : [(e, temp)].filter (fun x => engineRow x.1 == engineRow e) = [(e, temp)] := by simp
  have hother : ∀ r, r ≠ engineRow e → [(e, temp)].filter (fun x => engineRow x.1 == r) = [] := fun r hr => by simp [hr.symm]
  simp only [exec_thermalRead, execThermalRead, hxs, hottestOf_one]
  refine congrArg _ ((foldl_one _ (engineRow e) _ List.nodup_range hrow _ fun u r _ hr => ?_).trans ?_)
  · simp only [hother r hr]; rfl
  · simp only [hown, hottestOf_one]; rfl

/-- A row whose hottest engine reads THROT or more, but less than CRIT, loses one point of its thermal cap. -/
theorem heatRow_throttled {r temp : Nat} (ht : fld 16 16 s.therm ≤ temp) (hc : temp < fld 0 16 s.therm) :
    heatRow s r temp = applyCap (modRow s r fun x => { x with thermal := x.thermal - 1 }) r := by
  simp only [heatRow, ht, if_neg (Nat.not_le.2 hc), if_neg (Nat.not_lt.2 ht), if_true]

/-! ## Purses (R332 to R334) -/

theorem energyChargeApply_one {a m : Nat} (hp : s.arg.pairs = [(a, m)]) :
    exec .energyChargeApply s = .next (applyCharge s (a, m)) := by
  simp only [exec_energyChargeApply, execEnergyChargeApply, hp, List.foldl_cons, List.foldl_nil]

/-! ## Telemetry (R335, R336) -/

section
variable {t : Nat} {x : Tenant}

theorem telemetrySample_notDue (h : (getTenant s s.arg.slot).telEn = false ∨ s.time.toNat < (getTenant s s.arg.slot).telNext) :
    exec .telemetrySample s = .next s := by
  have hb : (!(getTenant s s.arg.slot).telEn || decide (s.time.toNat < (getTenant s s.arg.slot).telNext)) = true := by simpa using h
  simp only [exec_telemetrySample, execTelemetrySample, hb, if_true]

/-- The slot `x` once its sample is due: the next one is due a PERIOD later. -/
def nextSample (x : Tenant) : Tenant := { x with telNext := x.telNext + x.telPeriod.toNat }

theorem telemetrySample_full (he : (getTenant s s.arg.slot).telEn = true) (hd : (getTenant s s.arg.slot).telNext ≤ s.time.toNat)
    (hf : 2 ^ (getTenant s s.arg.slot).telLog2n ≤ ((getTenant s s.arg.slot).telTail - (getTenant s s.arg.slot).telHead).toNat) :
    exec .telemetrySample s = .next (setTenant s s.arg.slot
      { nextSample (getTenant s s.arg.slot) with telLost := (getTenant s s.arg.slot).telLost + 1 }) := by
  simp only [exec_telemetrySample, execTelemetrySample, he, decide_eq_false (Nat.not_lt.2 hd), hf, Bool.not_true, Bool.or_self,
    Bool.false_eq_true, if_false, if_true]
  exact congrArg _ (setTenant_modTenant ..)

/-- A sample that has room goes to the next place of the ring, through the page that its address has. -/
theorem telemetrySample_writes {p : Page} {v : State} (hx : getTenant s s.arg.slot = x) (hv : setTenant s s.arg.slot (nextSample x) = v)
    (he : x.telEn = true) (hd : x.telNext ≤ s.time.toNat) (hf : (x.telTail - x.telHead).toNat < 2 ^ x.telLog2n)
    (htr : translate v s.arg.slot (x.telBase + BitVec.ofNat 64 (64 * (x.telTail.toNat % 2 ^ x.telLog2n))) = (.ok p, v)) (hw : p.wr = true) :
    exec .telemetrySample s = .next (modTenant
      (unpoison (writeHome
        (touch v 0 (homePlace v p (x.telBase + BitVec.ofNat 64 (64 * (x.telTail.toNat % 2 ^ x.telLog2n))) true) p .write 64)
        (homePlace v p (x.telBase + BitVec.ofNat 64 (64 * (x.telTail.toNat % 2 ^ x.telLog2n))) true)
        ((sampleWords v s.arg.slot s.arg.num s.arg.num2).flatMap fun w => leBytes 8 w.toNat) p)
        (homePlace v p (x.telBase + BitVec.ofNat 64 (64 * (x.telTail.toNat % 2 ^ x.telLog2n))) true) 64)
      s.arg.slot fun y => { y with telTail := y.telTail + 1, drisks := 0 }) := by
  subst hx
  have hv' : modTenant s s.arg.slot (fun x => { x with telNext := x.telNext + x.telPeriod.toNat }) = v := hv
  have harg : v.arg = s.arg := by rw [← hv]; rfl
  simp only [exec_telemetrySample, execTelemetrySample, he, decide_eq_false (Nat.not_lt.2 hd), if_neg (Nat.not_le.2 hf), hv', word, htr, hw,
    harg, Bool.not_true, Bool.or_self, Bool.false_eq_true, if_false]

/-- A sample is 64 bytes (R336). -/
theorem sampleBytes_length (v : State) (t a b : Nat) : ((sampleWords v t a b).flatMap fun w => leBytes 8 w.toNat).length = 64 := by
  simp only [sampleWords, List.flatMap_cons, List.flatMap_nil, List.length_append, leBytes_length, List.length_nil]

end

end

/-- Settles O59, clause by clause: the rule of each event for the case that the clause names. -/
theorem powerEvents : Obligations.PowerEvents := by
  intro s n r t x mw
  refine ⟨fun hsteps hsegs => ?idle, fun k hk => ?late, fun k hk hl => ?early,
    fun lim hl => ?slow,
    fun lim hl => ⟨fun core i c h hp hn hc hr => ?benches, fun h h0 => ?calm, fun id c h h1 hb hc => ?unbenches⟩,
    fun e temp hp he hcrit => ?thermal,
    fun a m hp => ⟨_, energyChargeApply_one hp, applyCharge_law s a m⟩,
    ?sets, ?adds, telemetrySample_notDue,
    fun he hd => ?telemetry⟩
  case idle =>
    have hstep : (getCore s n).step = none := stepsOf_nil.1 hsteps n (rowCores_mem n)
    refine ⟨_, governorEvaluate_governs s, ?_⟩
    rw [judgeStep_none hstep]
    exact governRow_idle hsteps hsegs
  case late =>
    intro d hl
    rw [governorEvaluate_governs, judgeStep_late hk hl]
  case early => rw [governorEvaluate_governs, judgeStep_early hk hl]
  case slow =>
    intro lowers
    refine ⟨fun low h hlow => ?lowers, fun e h hf hs he => ?raises, fun h hf => ?calms, powerSlowCheck_at hl⟩
    case lowers =>
      exact (powerSlowCheck_lowers hl h).trans (congrArg _ (lowerCap_some (s := { s with
        lowering := if s.lowering.contains t then s.lowering else t :: s.lowering }) hlow))
    case raises =>
      have hbelow : mw < lim := by omega
      rw [powerSlowCheck_below hl hbelow, if_pos (by rw [hf, hs, decide_eq_true h]; rfl)]
      exact congrArg _ (raiseCap_some (s := { s with lowering := s.lowering.filter (· != t) }) he)
    case calms => rw [powerSlowCheck_below hl h, if_neg (by simp [hf])]
  case benches =>
    have hone := benchSome_one (s := { s with fastCalm := amSet s.fastCalm t 0 }) hn hc hr
    have hx := powerFastWindow_above hl h
    rw [hp, List.foldl_cons, List.foldl_nil] at hx
    refine ⟨_, hx.trans (congrArg _ hone), rfl, rfl, ?_, ?_⟩
    · exact (amGetD_amSet ..).trans (if_pos rfl)
    · rw [getCtx_setCtx, if_pos rfl]
  case calm => rw [powerFastWindow_below hl h h0]; rfl
  case unbenches =>
    have hone := unbenchFast_one (s := { s with fastCalm := amSet s.fastCalm t 2 }) hb hc
    have hx := powerFastWindow_below hl h h1
    rw [if_pos (by decide)] at hx
    exact ⟨_, hx.trans (congrArg _ hone), rfl, rfl, by rw [getCtx_setCtx, if_pos rfl]⟩
  case thermal =>
    intro h throt
    refine ⟨fun ht => ?throttles, fun ht => ?cools⟩
    case throttles =>
      exact (thermalRead_one hp he).trans (congrArg _ (heatRow_throttled (s := withHottest s e temp) ht hcrit))
    case cools =>
      have htemp : temp < throt := by omega
      exact ⟨_, thermalRead_one hp he,
        heatRow_cool (withHottest s e temp) (engineRow e) temp (Nat.not_le.2 htemp) ht (Nat.not_le.2 hcrit) htemp⟩
  case sets =>
    obtain ⟨hmem, -, -, henergy, hpurse, hover⟩ := putPurse_law s t s.arg.v
    exact ⟨_, exec_pset .., hmem, henergy, hpurse, hover⟩
  case adds =>
    obtain ⟨hmem, -, -, henergy, hpurse, -⟩ := putPurse_law s t (addSat x.purse s.arg.v)
    exact ⟨_, exec_padd .., hmem, henergy, by rw [hpurse, addSat_law]⟩
  case telemetry =>
    intro y
    refine ⟨telemetrySample_full he hd, fun p a hf => ?_⟩
    intro va v htr hw hloc hk
    have hx := telemetrySample_writes (x := x) (v := v) rfl rfl he hd hf htr hw
    have hlen := sampleBytes_length v t mw s.arg.num2
    have hv : getTenant v t = y := getTenant_setTenant_same ..
    rw [homePlace_hbm hloc] at hx
    obtain ⟨hmem, z, hz, hsame⟩ := writeHome_modTenant (v := v) (t := t) (p := p) (a := a) (by rw [hlen]; exact hk) hlen
      fun y => { y with telTail := y.telTail + 1, drisks := 0 }
    rw [hv] at hsame
    refine ⟨_, hx, hmem, ?_⟩
    have htail := congrArg Tenant.telTail hsame
    have hlost := congrArg Tenant.telLost hsame
    have hnext := congrArg Tenant.telNext hsame
    rw [hz]
    exact ⟨congrArg (· + 1) htail, rfl, hlost, hnext⟩

end Sys2Proof.Machine

/-! What the host, the peers, the links, the debug window and soft errors do (O60). -/

namespace Sys2Proof.Machine

section
variable {s : State}

/-! ## Host accesses (R356, R357) -/

theorem hostMemoryAccess_down (h : s.hostUp = false) :
    exec .hostMemoryAccess s = .next { s with out := s.out ++ [.host (onesOf s.arg.num) true] } := by
  simp only [exec_hostMemoryAccess, execHostMemoryAccess, h, Bool.not_false, if_true]

/-- An access through the slot of a tenant that is not there is refused (R356). -/
theorem hostMemoryAccess_disabled (h : s.hostUp = true) (hf : s.arg.flag = false) (h1 : 1 ≤ s.arg.num) (h8 : s.arg.num ≤ 8)
    (hp : ∀ f b c, s.arg.op = .atomic f b c → plainSize s.arg.v.toNat s.arg.num = true) (hen : (getTenant s s.arg.slot).en = false)
    (hw : s.remoteWaits.find? (fun w => w.host && w.id == s.arg.id) = none) :
    exec .hostMemoryAccess s =
      .next (hostFault s s.arg.slot s.arg.num (sext48 s.arg.v) (s.arg.op != .read) .prot false) := by
  have hn0 : decide (s.arg.num = 0) = false := decide_eq_false (by omega)
  have hn8 : decide (8 < s.arg.num) = false := decide_eq_false (by omega)
  rw [exec_hostMemoryAccess, execHostMemoryAccess]
  cases hop : s.arg.op with
  | atomic f b c => simp [h, hf, hw, hen, hn0, hn8, hp f b c hop]
  | read => simp [h, hf, hw, hen, hn0, hn8]
  | write v => simp [h, hf, hw, hen, hn0, hn8]

/-- A new access of the host's, in the state in which it has taken its id. -/
def hostWait (s : State) : RemoteWait :=
  { id := s.nextId, token := none, vmid := (getTenant s s.arg.slot).vmid, op := s.arg.op, off := (sext48 s.arg.v).toNat, size := s.arg.num,
    host := true, rel := s.arg.rel, acq := s.arg.acq }

def withNextId (s : State) : State := { s with nextId := s.nextId + 1 }

theorem keepWait_first (h : s.remoteWaits = []) (w : RemoteWait) : keepWait s w = { s with remoteWaits := [w] } := by
  rw [keepWait, h, List.nil_append]

section
variable {p : Page} {a : Nat}

/-- What a new access within one line of HBM does: its right, its wait and its answer. -/
theorem hostMemoryAccess_line (hup : s.hostUp = true) (hf : s.arg.flag = false) (h1 : 1 ≤ s.arg.num) (h8 : s.arg.num ≤ 8)
    (hl : s.arg.num + (sext48 s.arg.v).toNat % 64 ≤ 64) (hop : ∀ f b c, s.arg.op ≠ .atomic f b c)
    (hen : (getTenant s s.arg.slot).en = true) (ht : slotOfVmid s (getTenant s s.arg.slot).vmid = some s.arg.slot) (hw : s.remoteWaits = [])
    (htr : translate (withNextId s) s.arg.slot (sext48 s.arg.v) = (.ok p, withNextId s)) (hloc : p.loc (sext48 s.arg.v) = .hbm a) :
    ((if s.arg.op = .read then p.rd else p.wr) = false →
      exec .hostMemoryAccess s =
        .next (hostFault (withNextId s) s.arg.slot s.arg.num (sext48 s.arg.v) (s.arg.op != .read) .prot false)) ∧
    ((if s.arg.op = .read then p.rd else p.wr) = true → outsideMay (withNextId s) (.hbm a) p s.arg.op s.arg.num = false →
      exec .hostMemoryAccess s = .next { withNextId s with remoteWaits := [hostWait s] }) ∧
    ((if s.arg.op = .read then p.rd else p.wr) = true → outsideMay (withNextId s) (.hbm a) p s.arg.op s.arg.num = true →
      ∀ v bad u, outsideOp (withNextId s) s.arg.slot (.hbm a) p (pieceOp s.arg.op 0) s.arg.num s.arg.v2 = (v, bad, u) →
        exec .hostMemoryAccess s = .next { u with out := u.out ++ [.host v bad] }) := by
  have hword : word (hostWait s).off = sext48 s.arg.v := (BitVec.ofNat_toNat ..).trans (BitVec.setWidth_eq _)
  have hx : exec .hostMemoryAccess s = .next (serveMemory (withNextId s) (hostWait s) s.arg.v2) :=
    hostMemoryAccess_memory hup hw hf h1 h8 hop hen
  obtain ⟨hprot, hwait, hserved⟩ := serveMemory_one (s := withNextId s) (w := hostWait s) (ext := s.arg.v2) ht hl (by rw [hword]; exact htr)
    (by rw [hword]; exact hloc)
  rw [hword] at hprot
  refine ⟨fun hr => ?_, fun hr hm => ?_, fun hr hm v bad u hu => ?_⟩
  · rw [hx, hprot hr]; rfl
  · rw [hx, hwait hr hm, keepWait_first (s := withNextId s) hw]
  · have hext : s.arg.v2 >>> (8 * 0) = s.arg.v2 := BitVec.ushiftRight_zero _
    have hu' : outsideOp (withNextId s) s.arg.slot (.hbm a) p (pieceOp (hostWait s).op 0) (hostWait s).size s.arg.v2 = (v, bad, u) := hu
    rw [hx, hserved hr hm, hext, hu']

end

/-- An access of the register aperture reads or stores the bytes there (R337, R356). -/
theorem serveRegister_read {w : RemoteWait} (h : w.op = .read) :
    serveRegister s w = { s with out := s.out ++ [.host (BitVec.ofNat 64 (leNat (regBytes s w.off w.size))) false] } := by
  simp only [serveRegister, h, word]

theorem serveRegister_write {w : RemoteWait} {v : Word} (h : w.op = .write v) :
    serveRegister s w = { regStoreBytes s w.off (leBytes w.size v.toNat) with out := s.out ++ [.host 0 false] } := by
  simp only [serveRegister, h]

/-! ## Requests from peers (R354, R355) -/

theorem remoteRequest_off (h : s.domEn = false) : exec .remoteRequest s = .next s := by
  simp only [exec_remoteRequest, execRemoteRequest, h, Bool.not_false, if_true]

/-- A request that waits for its RESOLVE goes on waiting. -/
theorem remoteRequest_waits {w : RemoteWait} (h : s.domEn = true)
    (hw : s.remoteWaits.find? (fun w => !w.host && w.id == s.arg.id) = some w) (ht : w.token ≠ none) : exec .remoteRequest s = .next s := by
  simp only [exec_remoteRequest, execRemoteRequest, h, hw, Option.isSome_iff_ne_none.2 ht, Bool.not_true, Bool.false_eq_true, if_false,
    if_true]

/-- A new request of a peer's. -/
def peerWait (s : State) : RemoteWait :=
  { id := s.nextId, token := none, vmid := s.arg.v2.setWidth 16, op := s.arg.op, off := s.arg.num, size := s.arg.num2 }

theorem remoteRequest_new (h : s.domEn = true) (hw : s.remoteWaits.find? (fun w => !w.host && w.id == s.arg.id) = none)
    (hp : plainSize s.arg.num s.arg.num2 = true) (hn : s.arg.num < 2 ^ 40) :
    exec .remoteRequest s = .next (servePeer (withNextId s) (peerWait s)) := by
  have hd : (!s.domEn) = false := by rw [h]; rfl
  simp only [exec_remoteRequest, execRemoteRequest, hd, hw, hp, decide_eq_false (Nat.not_le.2 hn), takeId_eq, Bool.not_true, Bool.or_self,
    Bool.false_eq_true, if_false]
  rfl

theorem servePeer_unknown {w : RemoteWait} (h : slotOfVmid s w.vmid = none) : servePeer s w = peerFault s w := by
  simp only [servePeer, h]

/-- A request that may not be performed now waits (R355). -/
theorem servePeer_waits {w : RemoteWait} {slot : Nat} {r : S2} (hs : slotOfVmid s w.vmid = some slot)
    (h2 : stage2 s (getTenant s slot) w.off = .ok r) (hn : r.nr = false) (hr : w.op = .read ∨ r.ro = false)
    (hm : outsideMay s r.loc (peerPage w.vmid r w.off) w.op w.size = false) :
    servePeer s w = { s with remoteWaits := s.remoteWaits.filter (fun x => x.id != w.id) ++ [{ w with token := none }] } := by
  have hright : (r.nr || (w.op != .read && r.ro)) = false := by
    rcases hr with h | h <;> simp [hn, h]
  simp only [servePeer, hs, h2, hright, hm, Bool.not_false, Bool.false_eq_true, if_false, if_true]

theorem plainSize_le {a n : Nat} (h : plainSize a n = true) : n ≤ 8 := by
  simp only [plainSize, Bool.and_eq_true, Bool.or_eq_true, beq_iff_eq] at h
  omega

/-! ## Failure and restoring (R358 to R360) -/

/-- The accesses that a failing device leaves without an answer (R359). -/
def outstanding (s : State) (n : Nat) : List Req := s.reqs.filter fun x => x.loc.onDevice n && !x.done

/-- A device fails for which no store is buffered, and whose accesses are none, or one load. -/
theorem linkFailure_few {u : State} {n : Nat} (hx : exec .linkFailure s = .next (failOutstanding u n)) (hr : u.reqs = s.reqs)
    (hb : ∀ e ∈ u.cores, e.2.sbuf.any (fun x => x.loc.onDevice n) = false) :
    (outstanding s n = [] → exec .linkFailure s = .next u) ∧
    (∀ x z y, outstanding s n = [x] → x.op = .load z y → exec .linkFailure s = .next (putReq u x {} true)) := by
  have hsame : outstanding s n = u.reqs.filter fun x => x.loc.onDevice n && !x.done := by rw [outstanding, hr]
  refine ⟨fun h => ?_, fun x z y h ho => ?_⟩
  · rw [hx, failOutstanding_none hb (hsame ▸ h)]
  · rw [hx, failOutstanding_load hb (hsame ▸ h) ho]

theorem linkFailure_host (hn : s.arg.unit = 64) (h : s.hostUp = true) : exec .linkFailure s = .next (failHost s) := by
  simp only [exec_linkFailure, execLinkFailure, hn, h, if_true]

theorem linkFailure_hostDown (hn : s.arg.unit = 64) (h : s.hostUp = false) : exec .linkFailure s = .next s := by
  simp only [exec_linkFailure, execLinkFailure, hn, h, Bool.false_eq_true, if_true, if_false]

theorem linkFailure_peer (hn : s.arg.unit ≠ 64) (h : (amGetD ({} : Peer) s.peers s.arg.unit).up = true)
    (hl : s.arg.flag = true ∨ portsLost s s.arg.unit = true) : exec .linkFailure s = .next (failPeer s s.arg.unit) := by
  have hlost : (s.arg.flag || portsLost s s.arg.unit) = true := by simpa using hl
  simp only [exec_linkFailure, execLinkFailure, hn, h, hlost, Bool.and_self, if_false, if_true]

theorem linkFailure_peerDown (hn : s.arg.unit ≠ 64) (h : (amGetD ({} : Peer) s.peers s.arg.unit).up = false) :
    exec .linkFailure s = .next s := by
  simp only [exec_linkFailure, execLinkFailure, hn, h, Bool.false_and, Bool.false_eq_true, if_false]

/-- Without RESTORE the word only names the ports of the device. -/
theorem peerRestore_ports (h : s.arg.v.getLsbD 62 = false) :
    exec .peerRestore s =
      .next { s with peers := amSet s.peers s.arg.unit { (amGetD ({} : Peer) s.peers s.arg.unit) with ports := s.arg.v.setWidth 16 } } := by
  have hb : bit 62 s.arg.v = false := h
  simp only [exec_peerRestore, execPeerRestore, hb, Bool.false_and, Bool.or_false, Bool.false_eq_true, if_false]

/-- A device with its ports trained is in use again; nothing for it is outstanding. -/
theorem peerRestore_restores (hn : s.arg.unit < 64) (h : s.arg.v.getLsbD 62 = true) (hp : s.arg.v.setWidth 16 ≠ (0 : BitVec 16))
    (hl : s.arg.v.setWidth 16 &&& ~~~s.linkUp = 0) (hr : outstanding s s.arg.unit = [])
    (hb : ∀ e ∈ s.cores, e.2.sbuf.any (fun x => x.loc.onDevice s.arg.unit) = false) :
    exec .peerRestore s = .next { s with
      peers := amSet s.peers s.arg.unit { (amGetD ({} : Peer) s.peers s.arg.unit) with ports := s.arg.v.setWidth 16, up := true },
      dropped := s.dropped.map fun d => if d.line.onDevice s.arg.unit then { d with old := true } else d } := by
  have hok : (bit 62 s.arg.v && s.arg.v.setWidth 16 != (0 : BitVec 16) && s.arg.v.setWidth 16 &&& ~~~s.linkUp == 0 &&
      decide (s.arg.unit < 64)) = true := by
    have h' : bit 62 s.arg.v = true := h
    have hp' : (s.arg.v.setWidth 16 != (0 : BitVec 16)) = true := bne_iff_ne.2 hp
    rw [h', hp', hl, decide_eq_true hn]
    rfl
  have hnone : failOutstanding s s.arg.unit = s := failOutstanding_none hb hr
  simp only [exec_peerRestore, execPeerRestore, hok, hnone, ite_self, Bool.or_true, if_true]

theorem peerPortLinkChange_up (h : s.arg.flag = true) :
    exec .peerPortLinkChange s =
      .next { s with linkUp := putBit s.linkUp s.arg.unit true, linkLost := amErase s.linkLost s.arg.unit } := by
  simp only [exec_peerPortLinkChange, execPeerPortLinkChange, h, if_true]

theorem peerPortLinkChange_down (h : s.arg.flag = false) (hl : s.linkUp.getLsbD s.arg.unit = true) :
    exec .peerPortLinkChange s =
      .next { s with linkUp := putBit s.linkUp s.arg.unit false, linkLost := amSet s.linkLost s.arg.unit s.time.toNat } := by
  simp only [exec_peerPortLinkChange, execPeerPortLinkChange, h, hl, Bool.false_eq_true, if_false, if_true]

/-! ## The debug window (R367) -/

theorem debugWindowAccess_running (h : s.frozen = false) : exec .debugWindowAccess s = .next s := by
  simp only [exec_debugWindowAccess, execDebugWindowAccess, h, Bool.not_false, if_true]

theorem debugWindowAccess_reads (h : s.frozen = true) (hf : s.arg.flag = false) :
    exec .debugWindowAccess s = .next { s with out := s.out ++ [.debug (debugRead s s.arg.dbg)] } := by
  simp only [exec_debugWindowAccess, execDebugWindowAccess, h, hf, Bool.not_true, Bool.false_eq_true, if_false]

theorem debugWindowAccess_writes (h : s.frozen = true) (hf : s.arg.flag = true) :
    exec .debugWindowAccess s = .next (debugWrite s s.arg.dbg s.arg.v) := by
  simp only [exec_debugWindowAccess, execDebugWindowAccess, h, hf, Bool.not_true, Bool.false_eq_true, if_false, if_true]

theorem debugWrite_mem {pa : Nat} (h : pa < 2 ^ 39) (v : Word) :
    debugWrite s (.mem pa) v = { s with mem := memSet s.mem pa (v.setWidth 8) } := if_pos h

theorem debugWrite_pc {core i : Nat} {c : Ctx} (h : getCtx s (ctxId core i) = some c) (v : Word) :
    debugWrite s (.pc core i) v = setCtx s (ctxId core i) { c with pc := v &&& ~~~(3 : Word) } := modCtx_some h _

/-! ## Soft errors (R313 to R315) -/

theorem uncorrectableError_line {pa : Nat} (h : s.arg.err = .line pa) (hm : s.arg.num = 0) :
    exec .uncorrectableError s = .next { s with poisoned := addAll s.poisoned (granules (pa / 64 * 64) 64) } := by
  simp only [exec_uncorrectableError, execUncorrectableError, h, hm, if_true]

theorem uncorrectableError_word {pa : Nat} (h : s.arg.err = .line pa) (hm : s.arg.num = 1) :
    exec .uncorrectableError s = .next { s with poisoned := addAll s.poisoned [pa / 4] } := by
  have hone : (List.range (min 1 (16 - pa % 64 / 4))).map (pa / 4 + ·) = [pa / 4] := by
    rw [show min 1 (16 - pa % 64 / 4) = 1 by omega]; rfl
  simp only [exec_uncorrectableError, execUncorrectableError, h, hm, hone, one_ne_zero, if_false]

theorem uncorrectableError_granule {core a : Nat} (h : s.arg.err = .granule core a) :
    exec .uncorrectableError s =
      .next (setCore s core { getCore s core with spPoison := addAll (getCore s core).spPoison [a / 4] }) := by
  simp only [exec_uncorrectableError, execUncorrectableError, h]
  rfl

theorem uncorrectableError_logic {core : Nat} (h : s.arg.err = .logic core) : exec .uncorrectableError s = .next (coreError s core) := by
  simp only [exec_uncorrectableError, execUncorrectableError, h]

theorem rowRemap_none (h : (getRow s s.arg.unit).pending = []) : exec .rowRemap s = .next s := by
  simp only [exec_rowRemap, execRowRemap, h, List.isEmpty_nil, Bool.true_or, if_true]

theorem rowRemap_early (h : remapPoint s s.arg.unit = false) : exec .rowRemap s = .next s := by
  simp only [exec_rowRemap, execRowRemap, h, Bool.not_false, Bool.or_true, if_true]

/-- A row without an owner takes its new map at once. -/
theorem rowRemap_unowned {q : Nat} (hq : (getRow s s.arg.unit).pending = [q]) (hp : remapPoint s s.arg.unit = true)
    (ho : rowOwner s s.arg.unit = none) : exec .rowRemap s = .next (remapColumn s s.arg.unit q) := by
  simp only [exec_rowRemap, execRowRemap, hq, hp, ho, remapRow, List.isEmpty_cons, Bool.not_true, Bool.or_self, Bool.false_eq_true, if_false,
    List.foldl_cons, List.foldl_nil]

end

/-- Settles O60, clause by clause: the rule of each event for the case that the clause names. -/
theorem linkEvents : Obligations.LinkEvents := by
  intro s n t va m
  refine ⟨hostMemoryAccess_down, hostMemoryAccess_disabled,
    fun p a hup hf h1 h8 hl hop hen ht hw => ?memory,
    fun hup hf hp hlim hw => ?register,
    remoteRequest_off, fun w => remoteRequest_waits,
    fun hd hw hp hlim => ?request,
    ?failure, fun hn => ?restore,
    exec_hostLinkRetrain .., peerPortLinkChange_up, peerPortLinkChange_down, exec_debugFreeze .., exec_debugThaw ..,
    debugWindowAccess_running,
    fun hz => ⟨debugWindowAccess_reads hz, fun pa hf hd hpa => ?memByte, fun core i c hf hd hc => ?pc⟩,
    fun pa => uncorrectableError_line, fun pa => uncorrectableError_word, fun core a => uncorrectableError_granule,
    fun core => uncorrectableError_logic, exec_correctedError .., rowRemap_none, rowRemap_early, fun q i hq hp ho hfind => ?remaps⟩
  case memory =>
    intro s1 htr hloc
    obtain ⟨hprot, hwait, hserved⟩ := hostMemoryAccess_line hup hf h1 h8 hl hop hen ht hw htr hloc
    refine ⟨hprot, hwait, fun hm hk => ⟨fun hread hrd hpo => ?read, fun v hwrite hwr => ?write⟩⟩
    case read =>
      obtain ⟨u, hu, hcounts⟩ := outsideOp_read (s := s1) (t := t) (p := p) (ext := s.arg.v2) h8 hk hpo
      have hpiece : pieceOp s.arg.op 0 = .read := by rw [hread]; rfl
      refine ⟨_, hserved (by rw [if_pos hread]; exact hrd) hm _ _ _ (by rw [hpiece]; exact hu), hcounts.mem, ?_⟩
      rw [show u.out = s.out by rw [hcounts]]
    case write =>
      obtain ⟨u, hu, hmem, hout⟩ := outsideOp_write (s := s1) (t := t) (p := p) (v := v) (ext := s.arg.v2) hk
      have hpiece : pieceOp s.arg.op 0 = .write v := by
        rw [hwrite]; exact congrArg PeerOp.write (BitVec.ushiftRight_zero v)
      have hne : s.arg.op ≠ .read := by rw [hwrite]; exact nofun
      refine ⟨_, hserved (by rw [if_neg hne]; exact hwr) hm _ _ _ (by rw [hpiece]; exact hu), hmem, ?_⟩
      rw [hout]
  case register =>
    intro s1
    have hx := hostMemoryAccess_register hup hw hf hp hlim
    exact ⟨fun hop => hx.trans (congrArg _ (serveRegister_read hop)), fun v hop => hx.trans (congrArg _ (serveRegister_write hop))⟩
  case request =>
    intro w s1
    have hx := remoteRequest_new hd hw hp hlim
    refine ⟨fun hs => ?unknown, fun slot r hs h2 hnr => ?known⟩
    case unknown => rw [hx, servePeer_unknown (s := withNextId s) (w := peerWait s) hs]; rfl
    case known =>
      intro page
      obtain ⟨hfault, hwrites, hreads⟩ := servePeer_law (s := withNextId s) (w := peerWait s) hs h2 hnr
      refine ⟨fun hop hro => ?fault, fun hr hm => ?waits, fun a hl hm hk => ⟨fun v hop hro => ?write, fun hop hpo => ?read⟩⟩
      case fault => rw [hx, hfault hop hro]; rfl
      case waits => rw [hx, servePeer_waits (s := withNextId s) (w := peerWait s) hs h2 hnr hr hm]; rfl
      case write => exact ⟨_, hx, hwrites v a hop hro hl hm hk⟩
      case read => exact ⟨_, hx, hreads a hop (plainSize_le hp) hl hm hk hpo⟩
  case failure =>
    intro waits gone p
    refine ⟨fun hb => ⟨fun hn hup => ?host, fun hn hup hlost => ?peer⟩, linkFailure_hostDown, linkFailure_peerDown⟩
    case host =>
      have h64 : s.arg.unit = 64 := hn
      refine linkFailure_few (n := s.arg.unit) ((linkFailure_host hn hup).trans ?_) rfl ?_
      · rw [h64]; rfl
      · rw [h64]
        exact dropPagesOf_sbuf (s := { s with
          hostUp := false, hostEpoch := s.hostEpoch + 1, remoteWaits := s.remoteWaits.filter fun w => !w.host }) (h64 ▸ hb)
    case peer =>
      exact linkFailure_few (linkFailure_peer hn hup hlost) rfl
        (dropPagesOf_sbuf (s := { s with peers := amSet s.peers n { p with up := false, epoch := p.epoch + 1 } }) hb)
  case restore =>
    intro p ports
    refine ⟨peerRestore_ports, fun h hp hl hr hb => peerRestore_restores hn h hp hl ?_ hb⟩
    rw [outstanding, List.filter_eq_nil_iff]
    intro x hx
    cases hd : x.loc.onDevice n with
    | false => simp
    | true => simp [hr x hx hd]
  case memByte => rw [debugWindowAccess_writes hz hf, hd, debugWrite_mem hpa]
  case pc => rw [debugWindowAccess_writes hz hf, hd, debugWrite_pc hc]
  case remaps =>
    obtain ⟨hmem, hrow⟩ := remapColumn_law hfind
    refine ⟨_, rowRemap_unowned hq hp ho, hmem, ?_, ?_⟩
    · rw [hrow]
    · rw [hrow, hq]; simp

end Sys2Proof.Machine
